-- ==== Sys2Proof/Word.lean ====
section
/-!
DEFINITION. The words of the Ranide (R2, R3): 64-bit instruction and register words, bytes, 56-bit
addresses, 32-bit lane words, and sparse byte maps in one canonical form.
-/
namespace Sys2Proof

/-- A 64-bit scalar or instruction word (R3, R77). -/
abbrev Word := BitVec 64

/-- One byte (R3). -/
abbrev Byte := BitVec 8

/-- The 32 bits of one lane (R9, R77). -/
abbrev Lane := BitVec 32

/-- A 56-bit address (R46, R159). -/
abbrev Addr := BitVec 56

/-- A sparse map from numbers to `w`-bit values: (key, value) pairs with rising keys. -/
abbrev SMap (w : Nat) := List (Nat × BitVec w)

end Sys2Proof
end

