-- ==== Sys2Proof/Syntax.lean ====
section
/-!
DEFINITION. The syntax of the Ranide's steps: number formats, operand forms, the fields of the five
instruction formats (R59-R63), the names of units and objects, and `Instr`, one constructor for each
row of the table of operations and events.
-/
namespace Sys2Proof

/-- The number formats and their FMT codes, in code order 0x00 to 0x18 (R26). -/
inductive Fmt
  | fp32 | tf32 | bf16 | fp16 | e4m3 | e5m2 | e3m2 | e2m3 | e2m1
  | mxe4m3 | mxe5m2 | mxe3m2 | mxe2m3 | mxe2m1 | mxint8
  | int8 | int32 | uint32 | int16 | uint16 | uint8 | int4 | e8m0 | mask | raw
  deriving DecidableEq, Repr, Inhabited

/-- Every format, in code order (R26). -/
def Fmt.all : List Fmt :=
  [.fp32, .tf32, .bf16, .fp16, .e4m3, .e5m2, .e3m2, .e2m3, .e2m1, .mxe4m3, .mxe5m2, .mxe3m2,
   .mxe2m3, .mxe2m1, .mxint8, .int8, .int32, .uint32, .int16, .uint16, .uint8, .int4, .e8m0,
   .mask, .raw]

/-- The five memory spaces and their SPACE codes 0 to 4 (R159). `cell` is LOCAL. -/
inductive Space
  | global | cluster | cell | weight | remote
  deriving DecidableEq, Repr, Inhabited

/-- The guard of an instruction: predicate number G and negation GN (R58). -/
structure Guard where
  pred : BitVec 4
  neg  : Bool
  deriving DecidableEq, Repr, Inhabited

/-- A format V source: a register, the head token of a ring with its sticky code, the trailing
literal, or a small signed immediate (R64). -/
inductive Src
  | reg (n : BitVec 6)
  | ring (h : BitVec 6) (sticky : BitVec 3)
  | lit
  | imm (n : BitVec 6)
  deriving DecidableEq, Repr, Inhabited

/-- A destination: DK = 00 a register, 01 a push on a handle, 10 a predicate or alternate file,
11 discard (R59). -/
inductive Dst
  | reg (n : BitVec 6)
  | push (h : BitVec 6)
  | alt (n : BitVec 6)
  | discard
  deriving DecidableEq, Repr, Inhabited

/-- The fields of a format V instruction with its trailing literal (R59, R47). -/
structure VInsn where
  g   : Guard
  d   : Dst
  a   : Src
  b   : Src
  c   : Src
  mod : BitVec 4
  fmt : Fmt
  lit : Option Word
  deriving DecidableEq, Repr, Inhabited

/-- The fields of a format M instruction (R60). -/
structure MInsn where
  g     : Guard
  d     : Dst
  base  : BitVec 6
  index : BitVec 6
  space : Space
  bh    : BitVec 4
  fmt   : Fmt
  mod   : BitVec 3
  off   : BitVec 15
  deriving DecidableEq, Repr, Inhabited

/-- The fields of a format X instruction (R61). -/
structure XInsn where
  g   : Guard
  s1  : BitVec 6
  s2  : BitVec 6
  cm  : BitVec 2
  aux : BitVec 4
  tgt : BitVec 32
  deriving DecidableEq, Repr, Inhabited

/-- The fields of a format T instruction (R62). -/
structure TInsn where
  g    : Guard
  td   : BitVec 4
  ta   : BitVec 4
  tb   : BitVec 4
  sx   : BitVec 6
  sy   : BitVec 6
  fmta : Fmt
  fmtb : Fmt
  mod  : BitVec 4
  aux  : BitVec 12
  deriving DecidableEq, Repr, Inhabited

/-- The fields of a format S instruction (R63). -/
structure SInsn where
  g   : Guard
  d   : BitVec 6
  a   : BitVec 6
  b   : BitVec 6
  h   : BitVec 5
  c   : BitVec 6
  mod : BitVec 4
  imm : BitVec 17
  deriving DecidableEq, Repr, Inhabited

/-- A cluster of a compute die (R7). -/
structure ClusterId where
  die     : Fin 4
  cluster : Fin 16
  deriving DecidableEq, Repr, Inhabited

/-- A fabric or matrix island of a cluster (R7, R8). -/
structure IslandId where
  die     : Fin 4
  cluster : Fin 16
  island  : Fin 4
  deriving DecidableEq, Repr, Inhabited

/-- A sequencer: the gang with a base cell of a fabric island, or the island's Gaffer core (R10, R317). -/
structure Seq where
  isl    : IslandId
  gaffer : Bool
  base   : Fin 64
  deriving DecidableEq, Repr, Inhabited

/-- A strand of a gang, or the one strand of a Gaffer core (R10, R317). -/
structure StrandId where
  seq : Seq
  num : Fin 8
  deriving DecidableEq, Repr, Inhabited

/-- An island by die island number: fabric 0..63, matrix 64..127, streamer 128..143 (R408). -/
structure IslandKey where
  die : Fin 4
  num : Fin 144
  deriving DecidableEq, Repr, Inhabited

/-- A ring: the region, the region cluster and the ring element (R278, R282). -/
structure RingId where
  rid : Nat
  rc  : Fin 16
  el  : Fin 512
  deriving DecidableEq, Repr, Inhabited

/-- A barrier: the region, the region cluster and the index (R215). -/
structure BarId where
  rid : Nat
  rc  : Fin 16
  ix  : Fin 32
  deriving DecidableEq, Repr, Inhabited

/-- A node element of a region by its region-relative element address (R278). -/
structure NodeId where
  rid : Nat
  el  : BitVec 22
  deriving DecidableEq, Repr, Inhabited

/-- A page command record, byte 0 (OP) aside (R364). -/
structure PageCmd where
  op    : Byte
  size  : Byte
  ctx   : BitVec 16
  count : BitVec 32
  va    : Word
  done  : Word
  rsv   : Word
  deriving DecidableEq, Repr, Inhabited

/-- A host write over the fabric: a physical HBM address, or a weight-store offset in the form of a
KIND 01 PA (R435). -/
structure HostWrite where
  weight : Bool
  addr   : BitVec 52
  bytes  : List Byte
  deriving DecidableEq, Repr, Inhabited

/-- A host write to a hub table or register that has no row of its own. -/
inductive TableWrite
  /-- bytes 0 to 31 of a queue descriptor, CTRL, HEAD and TAIL aside (R323) -/
  | queueDesc (q : BitVec 11) (bytes : List Byte)
  /-- a context descriptor, written while the context is CLOSED (R337) -/
  | ctxDesc (c : BitVec 12) (bytes : List Byte)
  /-- a context's FQHEAD (R337) -/
  | fqHead (c : BitVec 12) (head : Word)
  /-- an interrupt vector's 128 bits (R340) -/
  | vector (p : BitVec 5) (vec : Byte) (bits : BitVec 128)
  /-- an entry of the hub's window table (R371) -/
  | window (k : BitVec 12) (device : BitVec 20) (base : Word) (c : BitVec 12)
  /-- a threshold subscription entry (R415) -/
  | subscription (p : BitVec 5) (k : BitVec 6) (bytes : List Byte)
  /-- a partition's QoS shares for HBM, link, power and islands, and its ISO bit (R340) -/
  | partition (p : BitVec 5) (shares : List Byte) (iso : Bool)
  deriving DecidableEq, Repr, Inhabited

/-- A request of another device that arrives at this device's memory (R374, R375): kind 0 a store,
1 a load, 2 an atomic. -/
structure PeerAccess where
  device : BitVec 20
  ctx    : BitVec 12
  kind   : BitVec 2
  va     : Addr
  op     : BitVec 3
  fmt    : Fmt
  data   : Word
  deriving DecidableEq, Repr, Inhabited

/-- What one of the part's own steps or an outside action acts on; the step that runs it hands it over
in the state. -/
inductive EvArg
  | none
  /-- a sequencer -/
  | seq (q : Seq)
  /-- a strand -/
  | strand (t : StrandId)
  /-- a region, job, publication, request or table index by number -/
  | num (n : Nat)
  /-- a region whose page is being serviced -/
  | service (rid : Nat)
  /-- a remote reply: the request, the words of the reply, and whether the peer failed it -/
  | reply (req : Nat) (vals : List Word) (failed : Bool)
  /-- a store's delivery notice: the store, and whether it was delivered -/
  | delivery (xst : Nat) (ok : Bool)
  | ring (r : RingId)
  | node (n : NodeId)
  /-- a node and whether the access meets an uncorrectable data error -/
  | nodePoison (n : NodeId) (poison : Bool)
  /-- a node and a peer's contribution to its collective -/
  | contribution (n : NodeId) (member : BitVec 20) (elems : List Lane)
  /-- a node and a peer that failed -/
  | member (n : NodeId) (member : BitVec 20)
  | island (i : IslandKey)
  | die (d : Fin 4)
  /-- a queue -/
  | queue (q : BitVec 11)
  /-- a queue and the 32-bit value written -/
  | queueVal (q : BitVec 11) (v : BitVec 32)
  | ctx (c : BitVec 12)
  | part (p : BitVec 5)
  | page (c : PageCmd)
  | host (w : HostWrite)
  /-- a host read of package memory, addressed as a host write is: the node that asks and how many bytes (R435) -/
  | hostRead (node : BitVec 20) (weight : Bool) (addr : BitVec 52) (n : Nat)
  | table (w : TableWrite)
  /-- a strand, a special-register number and the value written -/
  | srWrite (t : StrandId) (num : BitVec 12) (v : Word)
  /-- a matrix island and the value written -/
  | islWrite (i : IslandId) (v : Word)
  | word (v : Word)
  | vector (p : BitVec 5) (vec : Byte)
  /-- a die and a bank group of its weight store -/
  | bank (die : Fin 4) (bg : Fin 32)
  /-- sensor readings of one die by position in its map -/
  | readings (die : Fin 4) (vals : List (BitVec 16))
  /-- a bus beat: the die, the weight-store offset, how many of its transfers fail, the context -/
  | beat (die : Fin 4) (offset : BitVec 34) (failed : Fin 6) (c : BitVec 12)
  | port (p : Fin 24)
  /-- a port and the number of lanes that trained -/
  | portLanes (p : Fin 24) (lanes : Fin 9)
  /-- a port, and whether the flit's check holds -/
  | flit (p : Fin 24) (crcOk : Bool)
  | provision (key : List Byte) (cert : List Byte)
  | bytes (b : List Byte)
  | image (off : Nat) (bytes : List Byte)
  | unit (u : BitVec 20)
  | peer (a : PeerAccess)
  deriving DecidableEq, Repr, Inhabited

/-- The steps of the part: one constructor for each row of the table of operations and events. The
rows of instructions come first, with their fields; the part's own steps and the outside world's
actions follow, and take what they act on from `EvArg`. -/
inductive Instr
  | add (i : VInsn)
  | sub (i : VInsn)
  | mul (i : VInsn)
  | mulh (i : VInsn)
  | mulhu (i : VInsn)
  | div (i : VInsn)
  | divu (i : VInsn)
  | rem (i : VInsn)
  | remu (i : VInsn)
  | and (i : VInsn)
  | or (i : VInsn)
  | xor (i : VInsn)
  | andn (i : VInsn)
  | shl (i : VInsn)
  | shr (i : VInsn)
  | sar (i : VInsn)
  | rol (i : VInsn)
  | ror (i : VInsn)
  | min (i : VInsn)
  | max (i : VInsn)
  | minu (i : VInsn)
  | maxu (i : VInsn)
  | abs (i : VInsn)
  | neg (i : VInsn)
  | clz (i : VInsn)
  | ctz (i : VInsn)
  | popc (i : VInsn)
  | brev (i : VInsn)
  | bswap (i : VInsn)
  | sext (i : VInsn)
  | zext (i : VInsn)
  | bfx (i : VInsn)
  | bfxu (i : VInsn)
  | bfi (i : VInsn)
  | mad (i : VInsn)
  | addx (i : VInsn)
  | sel (i : VInsn)
  | mov (i : VInsn)
  | movl (i : VInsn)
  | cmp (i : VInsn)
  | cmpu (i : VInsn)
  | pand (i : VInsn)
  | por (i : VInsn)
  | pxor (i : VInsn)
  | pnot (i : VInsn)
  | pmov (i : VInsn)
  | br (i : XInsn)
  | brc (i : XInsn)
  | call (i : XInsn)
  | ret (i : XInsn)
  | jmpi (i : XInsn)
  | loop (i : XInsn)
  | loopx (i : XInsn)
  | endStrand (i : XInsn)
  | yield (i : XInsn)
  | nop (i : XInsn)
  | vadd (i : VInsn)
  | vsub (i : VInsn)
  | vmul (i : VInsn)
  | vfma (i : VInsn)
  | vfms (i : VInsn)
  | vfnma (i : VInsn)
  | vmin (i : VInsn)
  | vmax (i : VInsn)
  | vabs (i : VInsn)
  | vneg (i : VInsn)
  | vcpys (i : VInsn)
  | vcmp (i : VInsn)
  | vsel (i : VInsn)
  | vclass (i : VInsn)
  | vrint (i : VInsn)
  | vrcp (i : VInsn)
  | vrsq (i : VInsn)
  | vrcpn (i : VInsn)
  | vrsqn (i : VInsn)
  | vexp2 (i : VInsn)
  | vlog2 (i : VInsn)
  | vsin (i : VInsn)
  | vcos (i : VInsn)
  | vtanh (i : VInsn)
  | vdiv (i : VInsn)
  | vsqrt (i : VInsn)
  | vcvt (i : VInsn)
  | vscale (i : VInsn)
  | vmxq (i : VInsn)
  | vmxdq (i : VInsn)
  | vdot (i : VInsn)
  | vredf (i : VInsn)
  | viadd (i : VInsn)
  | visub (i : VInsn)
  | vimul (i : VInsn)
  | vimad (i : VInsn)
  | vimin (i : VInsn)
  | vimax (i : VInsn)
  | viminu (i : VInsn)
  | vimaxu (i : VInsn)
  | vand (i : VInsn)
  | vor (i : VInsn)
  | vxor (i : VInsn)
  | vshl (i : VInsn)
  | vshr (i : VInsn)
  | vsar (i : VInsn)
  | vpopc (i : VInsn)
  | vclz (i : VInsn)
  | vbfx (i : VInsn)
  | vbfi (i : VInsn)
  | vicmp (i : VInsn)
  | vsadd (i : VInsn)
  | vssub (i : VInsn)
  | vmov (i : VInsn)
  | vbcast (i : VInsn)
  | vextr (i : VInsn)
  | vshuf (i : VInsn)
  | vslide (i : VInsn)
  | vpack (i : VInsn)
  | vunpk (i : VInsn)
  | vscan (i : VInsn)
  | vredi (i : VInsn)
  | vlane (i : VInsn)
  | vcompr (i : VInsn)
  | ld (i : MInsn)
  | st (i : MInsn)
  | ldv (i : MInsn)
  | stv (i : MInsn)
  | ldg (i : MInsn)
  | stg (i : MInsn)
  | ldt (i : MInsn)
  | stt (i : MInsn)
  | atom (i : MInsn)
  | cas (i : MInsn)
  | atomv (i : MInsn)
  | pref (i : MInsn)
  | phase (i : SInsn)
  | publ (i : SInsn)
  | snap (i : SInsn)
  | bnd (i : MInsn)
  | bndq (i : MInsn)
  | rwaitf (i : SInsn)
  | rwaite (i : SInsn)
  | rrels (i : SInsn)
  | radvw (i : SInsn)
  | rstat (i : SInsn)
  | rflush (i : SInsn)
  | binit (i : SInsn)
  | barv (i : SInsn)
  | bexp (i : SInsn)
  | bwait (i : SInsn)
  | btest (i : SInsn)
  | cpy (i : SInsn)
  | cpyt (i : SInsn)
  | cpyb (i : SInsn)
  | cpyq (i : SInsn)
  | mtask (i : TInsn)
  | mtasks (i : TInsn)
  | mwait (i : TInsn)
  | mzero (i : TInsn)
  | mrd (i : TInsn)
  | tzero (i : TInsn)
  | tmov (i : TInsn)
  | tcvt (i : TInsn)
  | tslice (i : TInsn)
  | tdnode (i : TInsn)
  | tdstep (i : TInsn)
  | tdgrp (i : TInsn)
  | tdleaf (i : TInsn)
  | tdpath (i : TInsn)
  | tdgrad (i : TInsn)
  | skpred (i : TInsn)
  | skfetch (i : TInsn)
  | skchk (i : TInsn)
  | skrpl (i : TInsn)
  | skstat (i : TInsn)
  | rtjob (i : TInsn)
  | rtwait (i : TInsn)
  | launch (i : SInsn)
  | task (i : SInsn)
  | twait (i : SInsn)
  | evpop (i : SInsn)
  | evpush (i : SInsn)
  | gid (i : SInsn)
  | srd (i : SInsn)
  | swr (i : SInsn)
  | trap (i : SInsn)
  | eret (i : SInsn)
  | brk (i : SInsn)
  | tick (i : SInsn)
  | evrec (i : SInsn)
  | stage (i : SInsn)
  | xst (i : SInsn)
  | xld (i : SInsn)
  | xatom (i : SInsn)
  | xdrain (i : SInsn)
  | dstop (i : SInsn)
  | capsSt (i : SInsn)
  | capsSz (i : SInsn)
  | capsGet (i : SInsn)
  | capsAck (i : SInsn)
  | ill (low : BitVec 55)
  | blockIssue
  | blockCommit
  | publicationComplete
  | remoteReply
  | remoteTimeout
  | xstDelivery
  | ringTokenArrival
  | freedSlotNotice
  | barrierEvent
  | jobDispatch
  | copyJobComplete
  | tileTaskDispatch
  | tileTaskArrayEnd
  | tileTaskComplete
  | mzeroComplete
  | mrdWritebackComplete
  | cpybComplete
  | tdstepComplete
  | tdleafComplete
  | skpredComplete
  | skfetchComplete
  | skchkComplete
  | skrplComplete
  | rtjobComplete
  | capsGetComplete
  | evpushRecordEntry
  | streamNodeFiring
  | repeatNodeFiring
  | bitfieldNodeFiring
  | converterNodeFiring
  | memoryNodeAccess
  | fenceTokenRelease
  | skiveNodeFiring
  | routingNodeFiring
  | collectiveContribution
  | kernelLoad
  | kernelRetire
  | stageRequest
  | stageSwitchApply
  | lehrResolveWindow
  | lehrSolutionComplete
  | islandMApply
  | ratioSwitchEnd
  | islandIdle
  | islandPowerGate
  | islandWake
  | boostChange
  | queueTailWrite
  | queueEnable
  | queueDisable
  | queueHeadWrite
  | queueRecordTake
  | quantExpiry
  | watchdogSaveRequest
  | watchdogKill
  | watchdogFence
  | contextOpen
  | contextClose
  | contextTeardownDone
  | partitionReset
  | faultRecordWrite
  | regionResume
  | regionSave
  | regionKill
  | regionRestore
  | pageServiceSave
  | pageWalkComplete
  | invalPage
  | invalContext
  | evict
  | hostMemoryWrite
  | hostTableWrite
  | specialRegisterWrite
  | srseedWrite
  | msflgClear
  | reccfgWrite
  | pwrcfgWrite
  | interruptTimeExpiry
  | wsRefreshWindowStart
  | wsRefreshWindowEnd
  | sensorSample
  | controlWindow
  | busBeatRetry
  | portEnable
  | portTrainingDone
  | flitReceive
  | portReset
  | coldReset
  | warmReset
  | lifecycleProvision
  | lifecycleDiagnostic
  | lifecycleRedeploy
  | lifecycleDecommission
  | romBoot
  | recoveryImageWrite
  | recorderHorizonStop
  | capsuleSeal
  | debugStop
  | debugRelease
  | remoteHomeAccess
  | collectiveFailure
  deriving DecidableEq, Repr, Inhabited

/-- Which agent moves next: a strand's sequencer, one of the part's own steps or an action of the
outside world, or the global tick (R1) going forward by one. -/
inductive Turn
  | strand (t : StrandId)
  | event (i : Instr) (arg : EvArg)
  | tick
  deriving DecidableEq, Repr, Inhabited

end Sys2Proof
end

