-- ==== Sys2Proof/Config.lean ====
section
/-!
DEFINITION. What the spec leaves to the part or to the outside world, as constants without a body:
which agent moves next, which of several allowed values a load returns, approximations within their
bounds, contents of memory outside the package, and signatures. Nothing can be proved of their values.
-/
namespace Sys2Proof.Config

/-- Which agent moves when the agenda is empty, and with what: the interleaving of the part's units
and every action of the outside world are free. -/
opaque turn : Nat → Turn

/-- Which of the values that R185 rule 5 allows a load returns: a number drawn per issue and load,
taken modulo the number of values. -/
opaque pick : Nat → Nat → Nat

/-- The rounded result of a special function or approximation within its stated error (R140, R260,
R381): the opcode and the bits of the argument choose a deviation from the reference that the caller
clamps to the bound. One input always gives the same bits. -/
opaque deviation : Nat → Nat → Int

/-- The byte of HBM, by its physical address, in whose 64-byte line an uncorrectable data error comes about at a tick,
if one does (R359). -/
opaque dataError : Nat → Option Nat

/-- Whether a port reaches a device, which the fabric outside the package settles (R369). -/
opaque portReaches : Nat → BitVec 20 → Bool

/-- A byte of host or peer memory as a read finds it. -/
opaque outsideByte : Nat → Byte

/-- Whether an SLH-DSA-SHA2-128f signature over a message verifies against a key (R423), a Vrelid
authorisation for this device (R421) included. -/
opaque verifies : List Byte → List Byte → List Byte → Bool

/-- The SLH-DSA-SHA2-128f signature of a digest by the device identity key (R395). -/
opaque signature : List Byte → List Byte

/-- The Vrelid firmware key whose hash is fused at MANUFACTURE (R423). -/
opaque firmwareKey : List Byte

/-- A stray value where the spec states none, drawn by number. -/
opaque freeWord : Nat → Word

/-- What a memory node reads in a token of its address stream, whose layout the spec does not give (R169,
R193): the address, the value, and the footprint region when the token is a fence. -/
opaque memToken : List Byte → Nat × Nat × Option (Fin 4)

/-- The member devices of a collective unit, by region and element: the spec gives no place that names them
(R372). -/
opaque members : Nat → Nat → List (BitVec 20)

/-- The fabric device number of a partition's host node, which takes completion and notify words: the spec names no
register that holds it (R364, R416). -/
opaque hostNode : BitVec 5 → BitVec 20

/-- The bytes of port buffer that a unit holds, which the spec does not give (R9, R434). DESIGN CHOICE: every unit holds
the same number, whatever its kind and its cells. -/
opaque portBytes : Nat

/-- Whether a demand route joins a producer's element with a consumer's (R434). -/
opaque routeJoins : Nat → Nat → Nat → Bool

end Sys2Proof.Config
end

