-- ==== Sys2Proof/Decode.lean ====
section
/-!
DEFINITION. The decoder and the encoder (R46-R48 name the words, R58-R65, R72-R76): bit fields,
the opcode map, the decode conditions of every entry, decoding of one instruction word with its
trailing literal, rejecting by name, and the words of an instruction.
-/
namespace Sys2Proof

/-- Why a word is rejected at decode (R65, R74, R75). -/
inductive Reject
  | illegalOp
  | ringState
  deriving DecidableEq, Repr, Inhabited

/-- The five instruction formats (R59-R63) as decoded fields. -/
inductive Body
  | v (i : VInsn)
  | m (i : MInsn)
  | x (i : XInsn)
  | t (i : TInsn)
  | s (i : SInsn)
  deriving DecidableEq, Repr, Inhabited

/-! ### Codes -/

/-- The 5-bit code of a format (R26). -/
def Fmt.code : Fmt → BitVec 5
  | .fp32 => 0
  | .tf32 => 1
  | .bf16 => 2
  | .fp16 => 3
  | .e4m3 => 4
  | .e5m2 => 5
  | .e3m2 => 6
  | .e2m3 => 7
  | .e2m1 => 8
  | .mxe4m3 => 9
  | .mxe5m2 => 10
  | .mxe3m2 => 11
  | .mxe2m3 => 12
  | .mxe2m1 => 13
  | .mxint8 => 14
  | .int8 => 15
  | .int32 => 16
  | .uint32 => 17
  | .int16 => 18
  | .uint16 => 19
  | .uint8 => 20
  | .int4 => 21
  | .e8m0 => 22
  | .mask => 23
  | .raw => 24

/-- The format of a 5-bit code; 0x19 to 0x1F name none (R26, R75). -/
def Fmt.ofCode (c : BitVec 5) : Option Fmt := Fmt.all[c.toNat]?

/-- The 3-bit SPACE code (R159). -/
def Space.code : Space → BitVec 3
  | .global => 0
  | .cluster => 1
  | .cell => 2
  | .weight => 3
  | .remote => 4

/-- The space of a SPACE code; 5 to 7 are reserved (R159, R75). -/
def Space.ofCode (c : BitVec 3) : Option Space :=
  match c.toNat with
  | 0 => some .global
  | 1 => some .cluster
  | 2 => some .cell
  | 3 => some .weight
  | 4 => some .remote
  | _ => none

/-- The kind and number fields of a format V source, and its sticky field (R59, R64). -/
def Src.fields : Src → BitVec 2 × BitVec 6 × BitVec 3
  | .reg n => (0, n, 0)
  | .ring h k => (1, h, k)
  | .lit => (2, 0, 0)
  | .imm n => (3, n, 0)

/-- A format V source from its kind, number and sticky fields: a sticky field is zero unless the
kind is 01 and a literal's field is zero (R64, R75). -/
def Src.ofFields (k : BitVec 2) (n : BitVec 6) (sticky : BitVec 3) : Option Src :=
  match k.toNat with
  | 0 => if sticky = 0 then some (.reg n) else none
  | 1 => some (.ring n sticky)
  | 2 => if n = 0 ∧ sticky = 0 then some .lit else none
  | _ => if sticky = 0 then some (.imm n) else none

/-- The DK and D fields of a destination (R59). -/
def Dst.fields : Dst → BitVec 2 × BitVec 6
  | .reg n => (0, n)
  | .push h => (1, h)
  | .alt n => (2, n)
  | .discard => (3, 0)

/-- A destination from DK and D: DK = 11 needs D = 0 (R59, R75). -/
def Dst.ofFields (k : BitVec 2) (n : BitVec 6) : Option Dst :=
  match k.toNat with
  | 0 => some (.reg n)
  | 1 => some (.push n)
  | 2 => some (.alt n)
  | _ => if n = 0 then some .discard else none

/-- The guard field G and GN; G = 15 with GN = 1 is no guard (R58). -/
def Guard.ofFields (p : BitVec 4) (n : BitVec 1) : Option Guard :=
  if p = 15 ∧ n = 1 then none else some ⟨p, n == 1⟩

/-- The GN bit of a guard. -/
def Guard.negBit (g : Guard) : BitVec 1 := if g.neg then 1 else 0

/-- Whether a format V word claims a trailing literal: AK, BK or CK is 0b10 (R47). -/
def claimsLiteralV (w : Word) : Bool :=
  w.extractLsb' 40 2 == 2 || w.extractLsb' 32 2 == 2 || w.extractLsb' 24 2 == 2

/-! ### The five formats: fields from a word, and a word from fields -/

/-- Bits 54:0 as format V fields (R59). -/
def decodeV (w : Word) (lit : Option Word) : Option VInsn := do
  let g ← Guard.ofFields (w.extractLsb' 51 4) (w.extractLsb' 50 1)
  let d ← Dst.ofFields (w.extractLsb' 48 2) (w.extractLsb' 42 6)
  let a ← Src.ofFields (w.extractLsb' 40 2) (w.extractLsb' 34 6) (w.extractLsb' 15 3)
  let b ← Src.ofFields (w.extractLsb' 32 2) (w.extractLsb' 26 6) (w.extractLsb' 12 3)
  let c ← Src.ofFields (w.extractLsb' 24 2) (w.extractLsb' 18 6) (w.extractLsb' 9 3)
  let f ← Fmt.ofCode (w.extractLsb' 0 5)
  some ⟨g, d, a, b, c, w.extractLsb' 5 4, f, lit⟩

/-- The word of a format V instruction (R59). -/
def encodeV (op : BitVec 9) (i : VInsn) : Word :=
  op ++ i.g.pred ++ i.g.negBit ++ i.d.fields.1 ++ i.d.fields.2 ++ i.a.fields.1 ++ i.a.fields.2.1
    ++ i.b.fields.1 ++ i.b.fields.2.1 ++ i.c.fields.1 ++ i.c.fields.2.1
    ++ i.a.fields.2.2 ++ i.b.fields.2.2 ++ i.c.fields.2.2 ++ i.mod ++ i.fmt.code

/-- Bits 54:0 as format M fields (R60). -/
def decodeM (w : Word) : Option MInsn := do
  let g ← Guard.ofFields (w.extractLsb' 51 4) (w.extractLsb' 50 1)
  let d ← Dst.ofFields (w.extractLsb' 48 2) (w.extractLsb' 42 6)
  let sp ← Space.ofCode (w.extractLsb' 27 3)
  let f ← Fmt.ofCode (w.extractLsb' 18 5)
  some ⟨g, d, w.extractLsb' 36 6, w.extractLsb' 30 6, sp, w.extractLsb' 23 4, f,
    w.extractLsb' 15 3, w.extractLsb' 0 15⟩

/-- The word of a format M instruction (R60). -/
def encodeM (op : BitVec 9) (i : MInsn) : Word :=
  op ++ i.g.pred ++ i.g.negBit ++ i.d.fields.1 ++ i.d.fields.2 ++ i.base ++ i.index
    ++ i.space.code ++ i.bh ++ i.fmt.code ++ i.mod ++ i.off

/-- Bits 54:0 as format X fields (R61). -/
def decodeX (w : Word) : Option XInsn := do
  let g ← Guard.ofFields (w.extractLsb' 51 4) (w.extractLsb' 50 1)
  some ⟨g, w.extractLsb' 44 6, w.extractLsb' 38 6, w.extractLsb' 36 2, w.extractLsb' 32 4,
    w.extractLsb' 0 32⟩

/-- The word of a format X instruction (R61). -/
def encodeX (op : BitVec 9) (i : XInsn) : Word :=
  op ++ i.g.pred ++ i.g.negBit ++ i.s1 ++ i.s2 ++ i.cm ++ i.aux ++ i.tgt

/-- Bits 54:0 as format T fields (R62). -/
def decodeT (w : Word) : Option TInsn := do
  let g ← Guard.ofFields (w.extractLsb' 51 4) (w.extractLsb' 50 1)
  let fa ← Fmt.ofCode (w.extractLsb' 21 5)
  let fb ← Fmt.ofCode (w.extractLsb' 16 5)
  some ⟨g, w.extractLsb' 46 4, w.extractLsb' 42 4, w.extractLsb' 38 4, w.extractLsb' 32 6,
    w.extractLsb' 26 6, fa, fb, w.extractLsb' 12 4, w.extractLsb' 0 12⟩

/-- The word of a format T instruction (R62). -/
def encodeT (op : BitVec 9) (i : TInsn) : Word :=
  op ++ i.g.pred ++ i.g.negBit ++ i.td ++ i.ta ++ i.tb ++ i.sx ++ i.sy ++ i.fmta.code
    ++ i.fmtb.code ++ i.mod ++ i.aux

/-- Bits 54:0 as format S fields (R63). -/
def decodeS (w : Word) : Option SInsn := do
  let g ← Guard.ofFields (w.extractLsb' 51 4) (w.extractLsb' 50 1)
  some ⟨g, w.extractLsb' 44 6, w.extractLsb' 38 6, w.extractLsb' 32 6, w.extractLsb' 27 5,
    w.extractLsb' 21 6, w.extractLsb' 17 4, w.extractLsb' 0 17⟩

/-- The word of a format S instruction (R63). -/
def encodeS (op : BitVec 9) (i : SInsn) : Word :=
  op ++ i.g.pred ++ i.g.negBit ++ i.d ++ i.a ++ i.b ++ i.h ++ i.c ++ i.mod ++ i.imm

/-! ### The opcode map (R72, R73) -/

/-- The format letter of an assigned opcode (R73). -/
inductive Form
  | v | m | x | t | s
  deriving DecidableEq, Repr, Inhabited

/-- The format of an opcode, none when it is unassigned or ILL (R72, R73). -/
def opForm (op : BitVec 9) : Option Form :=
  let o := op.toNat
  if (0x001 ≤ o ∧ o ≤ 0x02e) ∨ (0x080 ≤ o ∧ o ≤ 0x09f) ∨ (0x0c0 ≤ o ∧ o ≤ 0x0df) then some .v
  else if 0x040 ≤ o ∧ o ≤ 0x049 then some .x
  else if (0x100 ≤ o ∧ o ≤ 0x10b) ∨ o = 0x10f ∨ o = 0x110 then some .m
  else if (0x10c ≤ o ∧ o ≤ 0x10e) ∨ (0x140 ≤ o ∧ o ≤ 0x14e) ∨ (0x1c0 ≤ o ∧ o ≤ 0x1d3) then some .s
  else if 0x180 ≤ o ∧ o ≤ 0x195 then some .t
  else none

/-- The instruction of a format V opcode and fields (R72). -/
def ofV (op : BitVec 9) (i : VInsn) : Option Instr :=
  match op.toNat with
  | 0x001 => some (.add i)
  | 0x002 => some (.sub i)
  | 0x003 => some (.mul i)
  | 0x004 => some (.mulh i)
  | 0x005 => some (.mulhu i)
  | 0x006 => some (.div i)
  | 0x007 => some (.divu i)
  | 0x008 => some (.rem i)
  | 0x009 => some (.remu i)
  | 0x00a => some (.and i)
  | 0x00b => some (.or i)
  | 0x00c => some (.xor i)
  | 0x00d => some (.andn i)
  | 0x00e => some (.shl i)
  | 0x00f => some (.shr i)
  | 0x010 => some (.sar i)
  | 0x011 => some (.rol i)
  | 0x012 => some (.ror i)
  | 0x013 => some (.min i)
  | 0x014 => some (.max i)
  | 0x015 => some (.minu i)
  | 0x016 => some (.maxu i)
  | 0x017 => some (.abs i)
  | 0x018 => some (.neg i)
  | 0x019 => some (.clz i)
  | 0x01a => some (.ctz i)
  | 0x01b => some (.popc i)
  | 0x01c => some (.brev i)
  | 0x01d => some (.bswap i)
  | 0x01e => some (.sext i)
  | 0x01f => some (.zext i)
  | 0x020 => some (.bfx i)
  | 0x021 => some (.bfxu i)
  | 0x022 => some (.bfi i)
  | 0x023 => some (.mad i)
  | 0x024 => some (.addx i)
  | 0x025 => some (.sel i)
  | 0x026 => some (.mov i)
  | 0x027 => some (.movl i)
  | 0x028 => some (.cmp i)
  | 0x029 => some (.cmpu i)
  | 0x02a => some (.pand i)
  | 0x02b => some (.por i)
  | 0x02c => some (.pxor i)
  | 0x02d => some (.pnot i)
  | 0x02e => some (.pmov i)
  | 0x080 => some (.vadd i)
  | 0x081 => some (.vsub i)
  | 0x082 => some (.vmul i)
  | 0x083 => some (.vfma i)
  | 0x084 => some (.vfms i)
  | 0x085 => some (.vfnma i)
  | 0x086 => some (.vmin i)
  | 0x087 => some (.vmax i)
  | 0x088 => some (.vabs i)
  | 0x089 => some (.vneg i)
  | 0x08a => some (.vcpys i)
  | 0x08b => some (.vcmp i)
  | 0x08c => some (.vsel i)
  | 0x08d => some (.vclass i)
  | 0x08e => some (.vrint i)
  | 0x08f => some (.vrcp i)
  | 0x090 => some (.vrsq i)
  | 0x091 => some (.vrcpn i)
  | 0x092 => some (.vrsqn i)
  | 0x093 => some (.vexp2 i)
  | 0x094 => some (.vlog2 i)
  | 0x095 => some (.vsin i)
  | 0x096 => some (.vcos i)
  | 0x097 => some (.vtanh i)
  | 0x098 => some (.vdiv i)
  | 0x099 => some (.vsqrt i)
  | 0x09a => some (.vcvt i)
  | 0x09b => some (.vscale i)
  | 0x09c => some (.vmxq i)
  | 0x09d => some (.vmxdq i)
  | 0x09e => some (.vdot i)
  | 0x09f => some (.vredf i)
  | 0x0c0 => some (.viadd i)
  | 0x0c1 => some (.visub i)
  | 0x0c2 => some (.vimul i)
  | 0x0c3 => some (.vimad i)
  | 0x0c4 => some (.vimin i)
  | 0x0c5 => some (.vimax i)
  | 0x0c6 => some (.viminu i)
  | 0x0c7 => some (.vimaxu i)
  | 0x0c8 => some (.vand i)
  | 0x0c9 => some (.vor i)
  | 0x0ca => some (.vxor i)
  | 0x0cb => some (.vshl i)
  | 0x0cc => some (.vshr i)
  | 0x0cd => some (.vsar i)
  | 0x0ce => some (.vpopc i)
  | 0x0cf => some (.vclz i)
  | 0x0d0 => some (.vbfx i)
  | 0x0d1 => some (.vbfi i)
  | 0x0d2 => some (.vicmp i)
  | 0x0d3 => some (.vsadd i)
  | 0x0d4 => some (.vssub i)
  | 0x0d5 => some (.vmov i)
  | 0x0d6 => some (.vbcast i)
  | 0x0d7 => some (.vextr i)
  | 0x0d8 => some (.vshuf i)
  | 0x0d9 => some (.vslide i)
  | 0x0da => some (.vpack i)
  | 0x0db => some (.vunpk i)
  | 0x0dc => some (.vscan i)
  | 0x0dd => some (.vredi i)
  | 0x0de => some (.vlane i)
  | 0x0df => some (.vcompr i)
  | _ => none

/-- The instruction of a format M opcode and fields (R72). -/
def ofM (op : BitVec 9) (i : MInsn) : Option Instr :=
  match op.toNat with
  | 0x100 => some (.ld i)
  | 0x101 => some (.st i)
  | 0x102 => some (.ldv i)
  | 0x103 => some (.stv i)
  | 0x104 => some (.ldg i)
  | 0x105 => some (.stg i)
  | 0x106 => some (.ldt i)
  | 0x107 => some (.stt i)
  | 0x108 => some (.atom i)
  | 0x109 => some (.cas i)
  | 0x10a => some (.atomv i)
  | 0x10b => some (.pref i)
  | 0x10f => some (.bnd i)
  | 0x110 => some (.bndq i)
  | _ => none

/-- The instruction of a format X opcode and fields (R72). -/
def ofX (op : BitVec 9) (i : XInsn) : Option Instr :=
  match op.toNat with
  | 0x040 => some (.br i)
  | 0x041 => some (.brc i)
  | 0x042 => some (.call i)
  | 0x043 => some (.ret i)
  | 0x044 => some (.jmpi i)
  | 0x045 => some (.loop i)
  | 0x046 => some (.loopx i)
  | 0x047 => some (.endStrand i)
  | 0x048 => some (.yield i)
  | 0x049 => some (.nop i)
  | _ => none

/-- The instruction of a format T opcode and fields (R72). -/
def ofT (op : BitVec 9) (i : TInsn) : Option Instr :=
  match op.toNat with
  | 0x180 => some (.mtask i)
  | 0x181 => some (.mtasks i)
  | 0x182 => some (.mwait i)
  | 0x183 => some (.mzero i)
  | 0x184 => some (.mrd i)
  | 0x185 => some (.tzero i)
  | 0x186 => some (.tmov i)
  | 0x187 => some (.tcvt i)
  | 0x188 => some (.tslice i)
  | 0x189 => some (.tdnode i)
  | 0x18a => some (.tdstep i)
  | 0x18b => some (.tdgrp i)
  | 0x18c => some (.tdleaf i)
  | 0x18d => some (.tdpath i)
  | 0x18e => some (.tdgrad i)
  | 0x18f => some (.skpred i)
  | 0x190 => some (.skfetch i)
  | 0x191 => some (.skchk i)
  | 0x192 => some (.skrpl i)
  | 0x193 => some (.skstat i)
  | 0x194 => some (.rtjob i)
  | 0x195 => some (.rtwait i)
  | _ => none

/-- The instruction of a format S opcode and fields (R72). -/
def ofS (op : BitVec 9) (i : SInsn) : Option Instr :=
  match op.toNat with
  | 0x10c => some (.phase i)
  | 0x10d => some (.publ i)
  | 0x10e => some (.snap i)
  | 0x140 => some (.rwaitf i)
  | 0x141 => some (.rwaite i)
  | 0x142 => some (.rrels i)
  | 0x143 => some (.radvw i)
  | 0x144 => some (.rstat i)
  | 0x145 => some (.rflush i)
  | 0x146 => some (.binit i)
  | 0x147 => some (.barv i)
  | 0x148 => some (.bexp i)
  | 0x149 => some (.bwait i)
  | 0x14a => some (.btest i)
  | 0x14b => some (.cpy i)
  | 0x14c => some (.cpyt i)
  | 0x14d => some (.cpyb i)
  | 0x14e => some (.cpyq i)
  | 0x1c0 => some (.launch i)
  | 0x1c1 => some (.task i)
  | 0x1c2 => some (.twait i)
  | 0x1c3 => some (.evpop i)
  | 0x1c4 => some (.evpush i)
  | 0x1c5 => some (.gid i)
  | 0x1c6 => some (.srd i)
  | 0x1c7 => some (.swr i)
  | 0x1c8 => some (.trap i)
  | 0x1c9 => some (.eret i)
  | 0x1ca => some (.brk i)
  | 0x1cb => some (.tick i)
  | 0x1cc => some (.evrec i)
  | 0x1cd => some (.stage i)
  | 0x1ce => some (.xst i)
  | 0x1cf => some (.xld i)
  | 0x1d0 => some (.xatom i)
  | 0x1d1 => some (.xdrain i)
  | 0x1d2 => some (.dstop i)
  | 0x1d3 =>
    match i.mod.toNat with
    | 0 => some (.capsSt i)
    | 1 => some (.capsSz i)
    | 2 => some (.capsGet i)
    | 3 => some (.capsAck i)
    | _ => none
  | _ => none

/-- The opcode and the fields of an instruction; the part's other steps and ILL have none (R72). -/
def Instr.parts : Instr → Option (BitVec 9 × Body)
  | .add i => some (0x001, .v i)
  | .sub i => some (0x002, .v i)
  | .mul i => some (0x003, .v i)
  | .mulh i => some (0x004, .v i)
  | .mulhu i => some (0x005, .v i)
  | .div i => some (0x006, .v i)
  | .divu i => some (0x007, .v i)
  | .rem i => some (0x008, .v i)
  | .remu i => some (0x009, .v i)
  | .and i => some (0x00a, .v i)
  | .or i => some (0x00b, .v i)
  | .xor i => some (0x00c, .v i)
  | .andn i => some (0x00d, .v i)
  | .shl i => some (0x00e, .v i)
  | .shr i => some (0x00f, .v i)
  | .sar i => some (0x010, .v i)
  | .rol i => some (0x011, .v i)
  | .ror i => some (0x012, .v i)
  | .min i => some (0x013, .v i)
  | .max i => some (0x014, .v i)
  | .minu i => some (0x015, .v i)
  | .maxu i => some (0x016, .v i)
  | .abs i => some (0x017, .v i)
  | .neg i => some (0x018, .v i)
  | .clz i => some (0x019, .v i)
  | .ctz i => some (0x01a, .v i)
  | .popc i => some (0x01b, .v i)
  | .brev i => some (0x01c, .v i)
  | .bswap i => some (0x01d, .v i)
  | .sext i => some (0x01e, .v i)
  | .zext i => some (0x01f, .v i)
  | .bfx i => some (0x020, .v i)
  | .bfxu i => some (0x021, .v i)
  | .bfi i => some (0x022, .v i)
  | .mad i => some (0x023, .v i)
  | .addx i => some (0x024, .v i)
  | .sel i => some (0x025, .v i)
  | .mov i => some (0x026, .v i)
  | .movl i => some (0x027, .v i)
  | .cmp i => some (0x028, .v i)
  | .cmpu i => some (0x029, .v i)
  | .pand i => some (0x02a, .v i)
  | .por i => some (0x02b, .v i)
  | .pxor i => some (0x02c, .v i)
  | .pnot i => some (0x02d, .v i)
  | .pmov i => some (0x02e, .v i)
  | .br i => some (0x040, .x i)
  | .brc i => some (0x041, .x i)
  | .call i => some (0x042, .x i)
  | .ret i => some (0x043, .x i)
  | .jmpi i => some (0x044, .x i)
  | .loop i => some (0x045, .x i)
  | .loopx i => some (0x046, .x i)
  | .endStrand i => some (0x047, .x i)
  | .yield i => some (0x048, .x i)
  | .nop i => some (0x049, .x i)
  | .vadd i => some (0x080, .v i)
  | .vsub i => some (0x081, .v i)
  | .vmul i => some (0x082, .v i)
  | .vfma i => some (0x083, .v i)
  | .vfms i => some (0x084, .v i)
  | .vfnma i => some (0x085, .v i)
  | .vmin i => some (0x086, .v i)
  | .vmax i => some (0x087, .v i)
  | .vabs i => some (0x088, .v i)
  | .vneg i => some (0x089, .v i)
  | .vcpys i => some (0x08a, .v i)
  | .vcmp i => some (0x08b, .v i)
  | .vsel i => some (0x08c, .v i)
  | .vclass i => some (0x08d, .v i)
  | .vrint i => some (0x08e, .v i)
  | .vrcp i => some (0x08f, .v i)
  | .vrsq i => some (0x090, .v i)
  | .vrcpn i => some (0x091, .v i)
  | .vrsqn i => some (0x092, .v i)
  | .vexp2 i => some (0x093, .v i)
  | .vlog2 i => some (0x094, .v i)
  | .vsin i => some (0x095, .v i)
  | .vcos i => some (0x096, .v i)
  | .vtanh i => some (0x097, .v i)
  | .vdiv i => some (0x098, .v i)
  | .vsqrt i => some (0x099, .v i)
  | .vcvt i => some (0x09a, .v i)
  | .vscale i => some (0x09b, .v i)
  | .vmxq i => some (0x09c, .v i)
  | .vmxdq i => some (0x09d, .v i)
  | .vdot i => some (0x09e, .v i)
  | .vredf i => some (0x09f, .v i)
  | .viadd i => some (0x0c0, .v i)
  | .visub i => some (0x0c1, .v i)
  | .vimul i => some (0x0c2, .v i)
  | .vimad i => some (0x0c3, .v i)
  | .vimin i => some (0x0c4, .v i)
  | .vimax i => some (0x0c5, .v i)
  | .viminu i => some (0x0c6, .v i)
  | .vimaxu i => some (0x0c7, .v i)
  | .vand i => some (0x0c8, .v i)
  | .vor i => some (0x0c9, .v i)
  | .vxor i => some (0x0ca, .v i)
  | .vshl i => some (0x0cb, .v i)
  | .vshr i => some (0x0cc, .v i)
  | .vsar i => some (0x0cd, .v i)
  | .vpopc i => some (0x0ce, .v i)
  | .vclz i => some (0x0cf, .v i)
  | .vbfx i => some (0x0d0, .v i)
  | .vbfi i => some (0x0d1, .v i)
  | .vicmp i => some (0x0d2, .v i)
  | .vsadd i => some (0x0d3, .v i)
  | .vssub i => some (0x0d4, .v i)
  | .vmov i => some (0x0d5, .v i)
  | .vbcast i => some (0x0d6, .v i)
  | .vextr i => some (0x0d7, .v i)
  | .vshuf i => some (0x0d8, .v i)
  | .vslide i => some (0x0d9, .v i)
  | .vpack i => some (0x0da, .v i)
  | .vunpk i => some (0x0db, .v i)
  | .vscan i => some (0x0dc, .v i)
  | .vredi i => some (0x0dd, .v i)
  | .vlane i => some (0x0de, .v i)
  | .vcompr i => some (0x0df, .v i)
  | .ld i => some (0x100, .m i)
  | .st i => some (0x101, .m i)
  | .ldv i => some (0x102, .m i)
  | .stv i => some (0x103, .m i)
  | .ldg i => some (0x104, .m i)
  | .stg i => some (0x105, .m i)
  | .ldt i => some (0x106, .m i)
  | .stt i => some (0x107, .m i)
  | .atom i => some (0x108, .m i)
  | .cas i => some (0x109, .m i)
  | .atomv i => some (0x10a, .m i)
  | .pref i => some (0x10b, .m i)
  | .phase i => some (0x10c, .s i)
  | .publ i => some (0x10d, .s i)
  | .snap i => some (0x10e, .s i)
  | .bnd i => some (0x10f, .m i)
  | .bndq i => some (0x110, .m i)
  | .rwaitf i => some (0x140, .s i)
  | .rwaite i => some (0x141, .s i)
  | .rrels i => some (0x142, .s i)
  | .radvw i => some (0x143, .s i)
  | .rstat i => some (0x144, .s i)
  | .rflush i => some (0x145, .s i)
  | .binit i => some (0x146, .s i)
  | .barv i => some (0x147, .s i)
  | .bexp i => some (0x148, .s i)
  | .bwait i => some (0x149, .s i)
  | .btest i => some (0x14a, .s i)
  | .cpy i => some (0x14b, .s i)
  | .cpyt i => some (0x14c, .s i)
  | .cpyb i => some (0x14d, .s i)
  | .cpyq i => some (0x14e, .s i)
  | .mtask i => some (0x180, .t i)
  | .mtasks i => some (0x181, .t i)
  | .mwait i => some (0x182, .t i)
  | .mzero i => some (0x183, .t i)
  | .mrd i => some (0x184, .t i)
  | .tzero i => some (0x185, .t i)
  | .tmov i => some (0x186, .t i)
  | .tcvt i => some (0x187, .t i)
  | .tslice i => some (0x188, .t i)
  | .tdnode i => some (0x189, .t i)
  | .tdstep i => some (0x18a, .t i)
  | .tdgrp i => some (0x18b, .t i)
  | .tdleaf i => some (0x18c, .t i)
  | .tdpath i => some (0x18d, .t i)
  | .tdgrad i => some (0x18e, .t i)
  | .skpred i => some (0x18f, .t i)
  | .skfetch i => some (0x190, .t i)
  | .skchk i => some (0x191, .t i)
  | .skrpl i => some (0x192, .t i)
  | .skstat i => some (0x193, .t i)
  | .rtjob i => some (0x194, .t i)
  | .rtwait i => some (0x195, .t i)
  | .launch i => some (0x1c0, .s i)
  | .task i => some (0x1c1, .s i)
  | .twait i => some (0x1c2, .s i)
  | .evpop i => some (0x1c3, .s i)
  | .evpush i => some (0x1c4, .s i)
  | .gid i => some (0x1c5, .s i)
  | .srd i => some (0x1c6, .s i)
  | .swr i => some (0x1c7, .s i)
  | .trap i => some (0x1c8, .s i)
  | .eret i => some (0x1c9, .s i)
  | .brk i => some (0x1ca, .s i)
  | .tick i => some (0x1cb, .s i)
  | .evrec i => some (0x1cc, .s i)
  | .stage i => some (0x1cd, .s i)
  | .xst i => some (0x1ce, .s i)
  | .xld i => some (0x1cf, .s i)
  | .xatom i => some (0x1d0, .s i)
  | .xdrain i => some (0x1d1, .s i)
  | .dstop i => some (0x1d2, .s i)
  | .capsSt i => some (0x1d3, .s i)
  | .capsSz i => some (0x1d3, .s i)
  | .capsGet i => some (0x1d3, .s i)
  | .capsAck i => some (0x1d3, .s i)
  | .ill _ => none
  | .blockIssue => none
  | .blockCommit => none
  | .publicationComplete => none
  | .remoteReply => none
  | .remoteTimeout => none
  | .xstDelivery => none
  | .ringTokenArrival => none
  | .freedSlotNotice => none
  | .barrierEvent => none
  | .jobDispatch => none
  | .copyJobComplete => none
  | .tileTaskDispatch => none
  | .tileTaskArrayEnd => none
  | .tileTaskComplete => none
  | .mzeroComplete => none
  | .mrdWritebackComplete => none
  | .cpybComplete => none
  | .tdstepComplete => none
  | .tdleafComplete => none
  | .skpredComplete => none
  | .skfetchComplete => none
  | .skchkComplete => none
  | .skrplComplete => none
  | .rtjobComplete => none
  | .capsGetComplete => none
  | .evpushRecordEntry => none
  | .streamNodeFiring => none
  | .repeatNodeFiring => none
  | .bitfieldNodeFiring => none
  | .converterNodeFiring => none
  | .memoryNodeAccess => none
  | .fenceTokenRelease => none
  | .skiveNodeFiring => none
  | .routingNodeFiring => none
  | .collectiveContribution => none
  | .kernelLoad => none
  | .kernelRetire => none
  | .stageRequest => none
  | .stageSwitchApply => none
  | .lehrResolveWindow => none
  | .lehrSolutionComplete => none
  | .islandMApply => none
  | .ratioSwitchEnd => none
  | .islandIdle => none
  | .islandPowerGate => none
  | .islandWake => none
  | .boostChange => none
  | .queueTailWrite => none
  | .queueEnable => none
  | .queueDisable => none
  | .queueHeadWrite => none
  | .queueRecordTake => none
  | .quantExpiry => none
  | .watchdogSaveRequest => none
  | .watchdogKill => none
  | .watchdogFence => none
  | .contextOpen => none
  | .contextClose => none
  | .contextTeardownDone => none
  | .partitionReset => none
  | .faultRecordWrite => none
  | .regionResume => none
  | .regionSave => none
  | .regionKill => none
  | .regionRestore => none
  | .pageServiceSave => none
  | .pageWalkComplete => none
  | .invalPage => none
  | .invalContext => none
  | .evict => none
  | .hostMemoryWrite => none
  | .hostTableWrite => none
  | .specialRegisterWrite => none
  | .srseedWrite => none
  | .msflgClear => none
  | .reccfgWrite => none
  | .pwrcfgWrite => none
  | .interruptTimeExpiry => none
  | .wsRefreshWindowStart => none
  | .wsRefreshWindowEnd => none
  | .sensorSample => none
  | .controlWindow => none
  | .busBeatRetry => none
  | .portEnable => none
  | .portTrainingDone => none
  | .flitReceive => none
  | .portReset => none
  | .coldReset => none
  | .warmReset => none
  | .lifecycleProvision => none
  | .lifecycleDiagnostic => none
  | .lifecycleRedeploy => none
  | .lifecycleDecommission => none
  | .romBoot => none
  | .recoveryImageWrite => none
  | .recorderHorizonStop => none
  | .capsuleSeal => none
  | .debugStop => none
  | .debugRelease => none
  | .remoteHomeAccess => none
  | .collectiveFailure => none

/-! ### Decode conditions of the entries (R65, R75, R76)

Each function below answers whether the fields of an instruction are ones its entry defines; a word
that fails one faults ILLEGAL_OP. -/

/-- A scalar, small immediate or literal source (R104). -/
def Src.scalarOk : Src → Bool
  | .reg _ => true
  | .lit => true
  | .imm _ => true
  | .ring _ _ => false

/-- An unused source: zero with kind 00 (R41). -/
def Src.unused (s : Src) : Bool := s == .reg 0

/-- A predicate number 0 to 15 with kind 00 (R65). -/
def Src.predOk : Src → Bool
  | .reg n => decide (n.toNat < 16)
  | _ => false

/-- A register or ring source (R141). -/
def Src.regRing : Src → Bool
  | .reg _ => true
  | .ring _ _ => true
  | _ => false

/-- A small immediate within `lo..hi` (R135, R141, R146). -/
def Src.immIn (lo hi : Int) : Src → Bool
  | .imm n => decide (lo ≤ n.toInt ∧ n.toInt ≤ hi)
  | _ => false

/-- Any of the four kinds; handle numbers 32 to 63 fault ILLEGAL_OP (R65). -/
def Src.ok : Src → Bool
  | .ring h _ => decide (h.toNat < 32)
  | _ => true

/-- DK = 00 or 11: a register or discard (R104). -/
def Dst.regDisc : Dst → Bool
  | .reg _ => true
  | .discard => true
  | _ => false

/-- DK = 00. -/
def Dst.isReg : Dst → Bool
  | .reg _ => true
  | _ => false

/-- A handle 0 to 31 as a push, a register, or discard: the vector mould without DK = 10 (R129). -/
def Dst.vecOk : Dst → Bool
  | .reg _ => true
  | .push h => decide (h.toNat < 32)
  | .discard => true
  | .alt _ => false

/-- DK = 10 naming a predicate 0 to 15 (R65). -/
def Dst.predOk : Dst → Bool
  | .alt n => decide (n.toNat < 16)
  | _ => false

/-- DK = 10 naming a scalar. -/
def Dst.isAlt : Dst → Bool
  | .alt _ => true
  | _ => false

/-- The MX format codes 0x09 to 0x0E (R86). -/
def Fmt.isMx (f : Fmt) : Bool := decide (0x09 ≤ f.code.toNat ∧ f.code.toNat ≤ 0x0e)

/-- fp32, bf16 or fp16: the formats of vector arithmetic (R133). -/
def Fmt.isArith (f : Fmt) : Bool := f == .fp32 || f == .bf16 || f == .fp16

/-- The formats of R141's set F: codes 0x00 to 0x08 and 0x0F to 0x16. -/
def Fmt.inF (f : Fmt) : Bool :=
  decide (f.code.toNat ≤ 0x08 ∨ (0x0f ≤ f.code.toNat ∧ f.code.toNat ≤ 0x16))

/-- The integer formats (R147). -/
def Fmt.isInt (f : Fmt) : Bool := decide (0x0f ≤ f.code.toNat ∧ f.code.toNat ≤ 0x15)

/-- The formats of the movement entries: neither MX nor mask (R88, R150). -/
def Fmt.isMove (f : Fmt) : Bool := !f.isMx && f != .mask

/-- The width codes of group 0: raw, int32, uint32 (R104). -/
def Fmt.isWidth (f : Fmt) : Bool := f == .raw || f == .int32 || f == .uint32

/-- The FMT codes of LD, ST, XST and XLD (R171). -/
def Fmt.isLoad (f : Fmt) : Bool :=
  f == .int8 || f == .uint8 || f == .int16 || f == .uint16 || f == .int32 || f == .uint32 || f == .raw

/-- The op and format pairs of ATOM and XATOM (R176). -/
def atomFmtOk (op : BitVec 3) (f : Fmt) : Bool :=
  if op = 7 then f == .fp32 else f == .int32 || f == .uint32 || f == .raw

/-- The rounding field, MOD bits 8:6 (R59, R132). -/
def VInsn.rnd (i : VInsn) : BitVec 3 := i.mod.extractLsb' 1 3

/-- MOD bit 5 of a group 2 instruction (R132). -/
def VInsn.bit5 (i : VInsn) : Bool := i.mod.getLsbD 0

/-- A group 2 entry that rounds, with MOD bit 5 zero. -/
def VInsn.rounds (i : VInsn) : Bool := decide (i.rnd.toNat ≤ 4)

/-- Every source's handle number is below 32 and no literal word stands without a claim. -/
def VInsn.shapeOk (i : VInsn) : Bool :=
  i.a.ok && i.b.ok && i.c.ok && (i.lit.isSome == (i.a == .lit || i.b == .lit || i.c == .lit))

/-- Two-source scalar entries (R104, R106, R107). -/
def VInsn.scalar2 (i : VInsn) : Bool :=
  i.d.regDisc && i.a.scalarOk && i.b.scalarOk && i.c.unused && i.mod == 0 && i.fmt.isWidth

/-- One-source scalar entries. -/
def VInsn.scalar1 (i : VInsn) : Bool :=
  i.d.regDisc && i.a.scalarOk && i.b.unused && i.c.unused && i.mod == 0 && i.fmt.isWidth

/-- Three-source scalar entries. -/
def VInsn.scalar3 (i : VInsn) : Bool :=
  i.d.regDisc && i.a.scalarOk && i.b.scalarOk && i.c.scalarOk && i.mod == 0 && i.fmt.isWidth

/-- CMP and CMPU (R113). -/
def VInsn.cmpOk (i : VInsn) : Bool :=
  (i.d.regDisc || i.d.predOk) && i.a.scalarOk && i.b.scalarOk && i.c.unused
    && decide (i.mod.toNat ≤ 5) && i.fmt.isWidth

/-- Predicate logic with two sources (R114). -/
def VInsn.pred2 (i : VInsn) : Bool :=
  i.d.predOk && i.a.predOk && i.b.predOk && i.c.unused && i.mod == 0 && i.fmt == .raw

/-- PMOV (R115). -/
def VInsn.pmovOk (i : VInsn) : Bool :=
  i.b.unused && i.c.unused && i.fmt == .raw &&
    (match i.mod.toNat with
     | 0 => i.d.predOk && i.a.predOk
     | 1 => i.d.predOk && (match i.a with | .reg _ => true | _ => false)
     | 3 => i.d.predOk && (match i.a with | .reg _ => true | _ => false)
     | 2 => i.d.isReg && i.a.predOk
     | 4 => i.d.isReg && i.a.predOk
     | _ => false)

/-- A vector entry with the given number of sources, accepting every kind (R129). -/
def VInsn.vec (n : Nat) (i : VInsn) : Bool :=
  i.d.vecOk && (n ≥ 2 || i.b.unused) && (n ≥ 3 || i.c.unused)

/-- A group 2 entry in fp32, bf16 or fp16 that rounds (R133). -/
def VInsn.arith (n : Nat) (i : VInsn) : Bool :=
  i.vec n && i.fmt.isArith && i.rounds && !i.bit5

/-- A group 2 entry in fp32, bf16 or fp16 whose MOD is zero. -/
def VInsn.arith0 (n : Nat) (i : VInsn) : Bool :=
  i.vec n && i.fmt.isArith && i.mod == 0

/-- A group 3 entry in the integer formats with MOD zero (R147). -/
def VInsn.intOk (n : Nat) (i : VInsn) : Bool := i.vec n && i.fmt.isInt && i.mod == 0

/-- VAND, VOR and VXOR also take mask and raw (R147). -/
def VInsn.bitOk (i : VInsn) : Bool :=
  i.vec 2 && (i.fmt.isInt || i.fmt == .mask || i.fmt == .raw) && i.mod == 0

/-- The MOD bits 17:15 of a format M instruction as SH (17:16) and the low bit. -/
def MInsn.sh (i : MInsn) : BitVec 2 := i.mod.extractLsb' 1 2

/-- MOD bit 15 of a format M instruction. -/
def MInsn.bit15 (i : MInsn) : Bool := i.mod.getLsbD 0

/-- A group 4 space that a load takes: SPACE = 4 faults at decode (R159). -/
def Space.loadOk (s : Space) : Bool := s != .remote

/-- A group 4 space that a store or atomic takes: SPACE 3 and 4 fault at decode (R159). -/
def Space.storeOk (s : Space) : Bool := s != .remote && s != .weight

/-- A tile-class field naming a tile t0 to t7 (R62). -/
def tileField (f : BitVec 4) : Bool := decide (f.toNat < 8)

/-- A tile-class field naming an accumulator c0 to c3 (R62). -/
def accField (f : BitVec 4) : Bool := decide (8 ≤ f.toNat ∧ f.toNat < 12)

/-- A tile-class field naming a path-trace register d0 to d3 (R62). -/
def pathField (f : BitVec 4) : Bool := decide (12 ≤ f.toNat)

/-- Elements per tile row of a format (R90). -/
def Fmt.rowElems (f : Fmt) : Nat :=
  match f with
  | .fp32 | .tf32 | .int32 | .uint32 | .mask | .raw => 32
  | .bf16 | .fp16 | .int16 | .uint16 => 64
  | .e2m1 | .mxe2m1 | .int4 => 256
  | _ => 128

/-- The pairs FMTA, FMTB that the array accepts (R226). -/
def arrayPair (a b : Fmt) : Bool :=
  let x := a.code.toNat
  let y := b.code.toNat
  (x ≤ 3 && x == y) || (4 ≤ x && x ≤ 8 && 4 ≤ y && y ≤ 8)
    || (9 ≤ x && x ≤ 13 && 9 ≤ y && y ≤ 13) || (a == .int8 && b == .int8)
    || (a == .mxint8 && b == .mxint8)

/-- The rounding mode in AUX12[11:9] (R241, R243). -/
def TInsn.rnd (i : TInsn) : BitVec 3 := i.aux.extractLsb' 9 3

/-- IMASK in AUX12[11:8] (R238). -/
def TInsn.imask (i : TInsn) : BitVec 4 := i.aux.extractLsb' 8 4

/-- MTASK and MTASKS: the fields they share (R238). -/
def TInsn.taskOk (i : TInsn) (k : Nat) : Bool :=
  accField i.td && i.tb == 0 && arrayPair i.fmta i.fmtb && i.imask != 0 &&
    (match (i.mod.extractLsb' 0 2).toNat with
     | 0 => tileField i.ta && i.sy == 0 && decide (k ≤ i.fmta.rowElems)
     | 1 => i.ta == 0 && decide (i.sy.toNat < 32)
     | _ => false)

/-- MRD (R241). -/
def TInsn.mrdOk (i : TInsn) : Bool :=
  accField i.ta && i.tb == 0 && i.fmtb == .fp32 && decide (i.rnd.toNat ≤ 4)
    && decide (i.fmta.code.toNat ≤ 0x15) &&
    (match (i.mod.extractLsb' 0 2).toNat with
     | 0 => tileField i.td && i.sx == 0 && i.sy == 0 && i.aux.extractLsb' 3 6 == 0
     | 1 => i.td == 0 && !i.fmta.isMx && i.aux.extractLsb' 7 2 == 0
     | 2 => i.td == 0 && i.aux.extractLsb' 4 5 == 0
     | _ => false)

/-- TDSTEP and TDLEAF: AUX12 holds the handle and a non-zero island mask (R256). -/
def TInsn.treeAux (i : TInsn) : Bool := i.aux.extractLsb' 4 4 == 0 && i.imask != 0

/-- TDPATH's forms (R259). -/
def TInsn.tdpathOk (i : TInsn) : Bool :=
  i.tb == 0 && i.fmtb == .fp32 && i.aux.extractLsb' 7 5 == 0 &&
    (match i.mod.toNat with
     | 0 | 1 => i.td == 0 && pathField i.ta && i.fmta == .uint16 && i.sx == 0 && i.aux.extractLsb' 3 4 == 0
     | 2 => i.td == 0 && pathField i.ta && i.fmta == .fp16 && i.sx == 0
     | 3 => i.td == 0 && pathField i.ta && i.fmta == .fp32 && i.sy == 0 && i.aux == 0
     | 8 | 9 => i.ta == 0 && pathField i.td && i.fmta == .uint16 && i.sx == 0 && i.aux.extractLsb' 3 4 == 0
     | 10 => i.ta == 0 && pathField i.td && i.fmta == .fp16 && i.sx == 0
     | 11 | 12 => i.ta == 0 && pathField i.td && i.fmta == .fp32 && i.sy == 0 && i.aux == 0
     | _ => false)

/-- The formats a skive job takes for x (R271). -/
def Fmt.isSkive (f : Fmt) : Bool :=
  f == .fp32 || f == .bf16 || f == .fp16 || f == .e4m3 || f == .e5m2

/-- The four skive jobs: the fields they share (R271). -/
def TInsn.skiveOk (i : TInsn) (usesSy usesIm : Bool) : Bool :=
  i.td == 0 && i.tb == 0 && tileField i.ta && i.fmta.isSkive && i.mod.extractLsb' 0 3 == 0
    && (usesSy || i.sy == 0) && i.aux.extractLsb' 4 4 == 0
    && (if usesIm then i.imask != 0 else i.imask == 0)

/-- A count in IMM17 (MOD 0000) or in s(A) (MOD 0001) of RRELS and RADVW (R202). -/
def SInsn.countOk (i : SInsn) : Bool :=
  i.d == 0 && i.b == 0 &&
    (match i.mod.toNat with
     | 0 => i.a == 0 && decide (1 ≤ i.imm.toNat ∧ i.imm.toNat ≤ 256)
     | 1 => i.imm == 0
     | _ => false)

/-- The scope codes a copy job takes: .scluster to .ssys (R210). -/
def SInsn.copyScope (i : SInsn) : Bool := decide (2 ≤ i.mod.toNat ∧ i.mod.toNat ≤ 5)

/-- A copy job's space field: GLOBAL, CLUSTER or WEIGHT (R210). -/
def copySpace (c : BitVec 3) : Bool := c == 0 || c == 1 || c == 3

/-- The FMT code in IMM17[4:0] (R374). -/
def SInsn.xfmt (i : SInsn) : Option Fmt := Fmt.ofCode (i.imm.extractLsb' 0 5)

/-- XST and XLD (R374). -/
def SInsn.remoteOk (i : SInsn) : Bool :=
  i.h == 0 && i.imm.extractLsb' 5 12 == 0 && (match i.xfmt with | some f => f.isLoad | none => false)

/-- Whether a source of kind 01 names h31 (R65). -/
def VInsn.readsH31 (i : VInsn) : Bool :=
  (match i.a with | .ring h _ => h == 31 | _ => false)
    || (match i.b with | .ring h _ => h == 31 | _ => false)
    || (match i.c with | .ring h _ => h == 31 | _ => false)

/-- The decode conditions of an entry (R75, R76): every field holds a value the entry defines.
Rows that are no instruction words have none. -/
def Instr.entryOk : Instr → Bool
  | .add i => i.shapeOk && i.scalar2
  | .sub i => i.shapeOk && i.scalar2
  | .mul i => i.shapeOk && i.scalar2
  | .mulh i => i.shapeOk && i.scalar2
  | .mulhu i => i.shapeOk && i.scalar2
  | .div i => i.shapeOk && i.scalar2
  | .divu i => i.shapeOk && i.scalar2
  | .rem i => i.shapeOk && i.scalar2
  | .remu i => i.shapeOk && i.scalar2
  | .and i => i.shapeOk && i.scalar2
  | .or i => i.shapeOk && i.scalar2
  | .xor i => i.shapeOk && i.scalar2
  | .andn i => i.shapeOk && i.scalar2
  | .shl i => i.shapeOk && i.scalar2
  | .shr i => i.shapeOk && i.scalar2
  | .sar i => i.shapeOk && i.scalar2
  | .rol i => i.shapeOk && i.scalar2
  | .ror i => i.shapeOk && i.scalar2
  | .min i => i.shapeOk && i.scalar2
  | .max i => i.shapeOk && i.scalar2
  | .minu i => i.shapeOk && i.scalar2
  | .maxu i => i.shapeOk && i.scalar2
  | .abs i => i.shapeOk && i.scalar1
  | .neg i => i.shapeOk && i.scalar1
  | .clz i => i.shapeOk && i.scalar1
  | .ctz i => i.shapeOk && i.scalar1
  | .popc i => i.shapeOk && i.scalar1
  | .brev i => i.shapeOk && i.scalar1
  | .bswap i => i.shapeOk && i.scalar1
  | .sext i => i.shapeOk && i.scalar2
  | .zext i => i.shapeOk && i.scalar2
  | .bfx i => i.shapeOk && i.scalar3
  | .bfxu i => i.shapeOk && i.scalar3
  | .bfi i => i.shapeOk && i.scalar3 && i.d.isReg
  | .mad i => i.shapeOk && i.scalar3
  | .addx i => i.shapeOk && i.d.regDisc && i.a.scalarOk && i.b.scalarOk && i.c.unused && i.fmt == .raw && i.mod.extractLsb' 0 3 != 7
  | .sel i => i.shapeOk && i.d.regDisc && i.a.scalarOk && i.b.scalarOk && i.c.predOk && i.mod == 0 && i.fmt.isWidth
  | .mov i => i.shapeOk && i.d.vecOk && i.b.unused && i.c.unused && i.mod == 0 && i.fmt.isWidth
  | .movl i => i.shapeOk && i.a == .lit && i.b.unused && i.c.unused && i.fmt == .raw && decide (i.mod.toNat ≤ 2) && (if i.mod == 0 then i.d.regDisc else i.d.isReg)
  | .cmp i => i.shapeOk && i.cmpOk
  | .cmpu i => i.shapeOk && i.cmpOk
  | .pand i => i.shapeOk && i.pred2
  | .por i => i.shapeOk && i.pred2
  | .pxor i => i.shapeOk && i.pred2
  | .pnot i => i.shapeOk && i.pred2 && i.b.unused
  | .pmov i => i.shapeOk && i.pmovOk
  | .br i => i.s1 == 0 && i.s2 == 0 && i.cm == 0 && i.aux == 0
  | .brc i => i.aux.extractLsb' 1 3 == 0 && (i.aux == 0 || decide (2 ≤ i.cm.toNat))
  | .call i => i.s2 == 0 && i.cm == 0 && i.aux == 0
  | .ret i => i.s2 == 0 && i.cm == 0 && i.aux == 0 && i.tgt == 0
  | .jmpi i => i.cm == 0 && i.aux == 0 && i.tgt == 0
  | .loop i => i.s2 == 0 && i.cm == 0 && decide (i.aux.toNat ≤ 2)
  | .loopx i => decide (i.aux.toNat ≤ 2)
  | .endStrand i => i.s1 == 0 && i.s2 == 0 && i.cm == 0 && i.aux == 0 && i.tgt == 0
  | .yield i => i.s1 == 0 && i.s2 == 0 && i.cm == 0 && i.aux == 0 && i.tgt == 0
  | .nop i => i.s1 == 0 && i.s2 == 0 && i.cm == 0 && i.aux == 0 && i.tgt == 0
  | .vadd i => i.shapeOk && i.arith 2
  | .vsub i => i.shapeOk && i.arith 2
  | .vmul i => i.shapeOk && i.arith 2
  | .vfma i => i.shapeOk && i.arith 3
  | .vfms i => i.shapeOk && i.arith 3
  | .vfnma i => i.shapeOk && i.arith 3
  | .vmin i => i.shapeOk && i.vec 2 && i.fmt.isArith && i.rnd == 0
  | .vmax i => i.shapeOk && i.vec 2 && i.fmt.isArith && i.rnd == 0
  | .vabs i => i.shapeOk && i.arith0 1
  | .vneg i => i.shapeOk && i.arith0 1
  | .vcpys i => i.shapeOk && i.arith0 2
  | .vcmp i => i.shapeOk && (i.d.vecOk || i.d.predOk) && i.c.immIn 0 7 && i.fmt.isArith && i.mod == 0
  | .vsel i => i.shapeOk && i.d.vecOk && !i.fmt.isMx && i.rnd == 0 && (if i.bit5 then i.c.regRing else i.c.predOk)
  | .vclass i => i.shapeOk && i.c.unused && i.fmt.isArith && i.mod == 0 && (if i.d.isAlt then i.d.predOk && (i.b == .lit || i.b.immIn (-32) 31) else i.d.vecOk && i.b.unused)
  | .vrint i => i.shapeOk && i.vec 1 && i.fmt.isArith && i.rounds
  | .vrcp i => i.shapeOk && i.arith0 1
  | .vrsq i => i.shapeOk && i.arith0 1
  | .vrcpn i => i.shapeOk && i.arith 2
  | .vrsqn i => i.shapeOk && i.arith 2
  | .vexp2 i => i.shapeOk && i.arith0 1
  | .vlog2 i => i.shapeOk && i.arith0 1
  | .vsin i => i.shapeOk && i.arith0 1
  | .vcos i => i.shapeOk && i.arith0 1
  | .vtanh i => i.shapeOk && i.arith0 1
  | .vdiv i => i.shapeOk && i.arith 2
  | .vsqrt i => i.shapeOk && i.arith 1
  | .vcvt i => i.shapeOk && i.d.vecOk && i.fmt.inF && i.rounds && i.a.regRing && i.b.immIn 0 7 && (i.c.unused || (match i.c with | .ring _ k => k == 0 | _ => false))
  | .vscale i => i.shapeOk && i.arith 2 && i.b.scalarOk
  | .vmxq i => i.shapeOk && i.d.vecOk && i.fmt.isMx && i.a.regRing && i.b.immIn 0 7 && i.c.unused && (if i.bit5 then i.rnd == 0 else i.rounds)
  | .vmxdq i => i.shapeOk && i.d.vecOk && i.fmt.isArith && i.rounds && !i.bit5 && i.a.regRing && i.b.immIn 0 7 && i.c.unused
  | .vdot i => i.shapeOk && i.rounds && (i.fmt.isArith || i.fmt == .e4m3 || i.fmt == .e5m2 || i.fmt == .int8) && (if i.bit5 then i.d.vecOk else (i.d.vecOk || i.d.isAlt) && i.c.unused)
  | .vredf i => i.shapeOk && (i.d.vecOk || i.d.isAlt) && i.fmt.isArith && i.rounds && !i.bit5 && i.b.immIn 0 2 && i.c.unused
  | .viadd i => i.shapeOk && i.intOk 2
  | .visub i => i.shapeOk && i.intOk 2
  | .vimul i => i.shapeOk && i.intOk 2
  | .vimad i => i.shapeOk && i.intOk 3
  | .vimin i => i.shapeOk && i.intOk 2
  | .vimax i => i.shapeOk && i.intOk 2
  | .viminu i => i.shapeOk && i.intOk 2
  | .vimaxu i => i.shapeOk && i.intOk 2
  | .vand i => i.shapeOk && i.bitOk
  | .vor i => i.shapeOk && i.bitOk
  | .vxor i => i.shapeOk && i.bitOk
  | .vshl i => i.shapeOk && i.intOk 2
  | .vshr i => i.shapeOk && i.intOk 2
  | .vsar i => i.shapeOk && i.intOk 2
  | .vpopc i => i.shapeOk && i.intOk 1
  | .vclz i => i.shapeOk && i.intOk 1
  | .vbfx i => i.shapeOk && i.intOk 3
  | .vbfi i => i.shapeOk && i.intOk 3 && i.d.isReg
  | .vicmp i => i.shapeOk && (i.d.vecOk || i.d.predOk) && i.c.unused && i.fmt.isInt && decide (i.mod.toNat ≤ 5)
  | .vsadd i => i.shapeOk && i.intOk 2
  | .vssub i => i.shapeOk && i.intOk 2
  | .vmov i => i.shapeOk && i.d.vecOk && i.c.unused && (if i.mod == 0 then i.b.unused else i.mod == 1 && i.fmt == .raw && i.b.immIn 0 24)
  | .vbcast i => i.shapeOk && i.d.vecOk && i.c.unused && i.fmt.isMove && (if i.mod == 0 then i.a.scalarOk && i.b.unused else i.mod == 1 && i.a.regRing && i.b.scalarOk)
  | .vextr i => i.shapeOk && i.d.isAlt && i.a.regRing && i.b.scalarOk && i.c.unused && i.fmt.isMove && i.mod == 0
  | .vshuf i => i.shapeOk && i.vec 2 && i.fmt.isMove && i.mod == 0
  | .vslide i => i.shapeOk && i.vec 3 && i.c.scalarOk && i.fmt.isMove && i.mod == 0
  | .vpack i => i.shapeOk && i.vec 2 && i.a.regRing && i.b.regRing && i.fmt.isInt && i.fmt != .int32 && i.fmt != .uint32 && decide (i.mod.toNat ≤ 1)
  | .vunpk i => i.shapeOk && i.vec 2 && i.a.regRing && i.b.immIn 0 7 && i.fmt.isInt && i.fmt != .int4 && i.mod == 0
  | .vscan i => i.shapeOk && i.vec 1 && i.fmt.isInt && decide (i.mod.toNat ≤ 3)
  | .vredi i => i.shapeOk && (i.d.vecOk || i.d.isAlt) && i.b.unused && i.c.unused && i.fmt.isInt && decide (i.mod.toNat ≤ 5)
  | .vlane i => i.shapeOk && i.vec 2 && i.a.scalarOk && i.b.scalarOk && i.fmt.isInt && i.mod == 0
  | .vcompr i => i.shapeOk && i.d.vecOk && i.b.unused && i.c.predOk && i.fmt.isMove && i.mod == 0
  | .ld i => i.d.regDisc && i.space.loadOk && i.fmt.isLoad && !i.bit15
  | .st i => i.d.isReg && i.space.storeOk && i.fmt.isLoad && !i.bit15
  | .ldv i => (match i.d with | .reg _ => true | .push h => decide (h.toNat < 32) | _ => false) && i.space.loadOk && !i.bit15
  | .stv i => i.d.isReg && i.space.storeOk && !i.bit15
  | .ldg i => (match i.d with | .reg _ => true | .push h => decide (h.toNat < 32) | _ => false) && i.space.loadOk && !i.fmt.isMx
  | .stg i => i.d.isReg && i.space.storeOk && !i.fmt.isMx
  | .ldt i => (match i.d with | .alt n => decide (n.toNat < 8) | _ => false) && (decide (i.fmt.code.toNat ≤ 0x0f) || i.fmt == .raw) && i.sh == 0 && i.space.loadOk
  | .stt i => (match i.d with | .alt n => decide (n.toNat < 8) | _ => false) && (decide (i.fmt.code.toNat ≤ 0x0f) || i.fmt == .raw) && i.sh == 0 && i.space.storeOk
  | .atom i => i.d.isReg && i.space.storeOk && atomFmtOk i.mod i.fmt
  | .cas i => (match i.d with | .reg n => !n.getLsbD 0 | _ => false) && i.space.storeOk && i.mod == 0 && (i.fmt == .int32 || i.fmt == .uint32 || i.fmt == .raw)
  | .atomv i => i.d.isReg && i.space.storeOk && (if i.mod == 7 then i.fmt == .fp32 else i.fmt == .int32 || i.fmt == .uint32)
  | .pref i => i.d == .discard && i.space.loadOk && i.fmt == .fp32 && decide (i.sh.toNat ≤ 2) && !i.bit15
  | .phase i => i.d == 0 && i.a == 0 && i.b == 0 && i.h == 0 && i.c == 0 && i.imm == 0 && decide (i.mod.toNat ≤ 5)
  | .publ i => i.d == 0 && i.a == 0 && i.b == 0 && i.h == 0 && i.c == 0 && i.imm == 0 && decide (i.mod.toNat ≤ 5)
  | .snap i => i.d == 0 && i.a == 0 && i.b == 0 && i.h == 0 && i.c == 0 && i.imm == 0 && decide (i.mod.toNat ≤ 5)
  | .bnd i => (match i.d with | .alt n => decide (n.toNat < 16) | _ => false) && i.space.loadOk && i.fmt == .raw
  | .bndq i => i.d.isReg && i.space.loadOk && i.fmt == .raw && decide (i.mod.toNat ≤ 3)
  | .rwaitf i => i.a == 0 && i.b == 0 && i.c == 0 && i.mod == 0 && decide (1 ≤ i.imm.toNat ∧ i.imm.toNat ≤ 256)
  | .rwaite i => i.a == 0 && i.b == 0 && i.c == 0 && i.mod == 0 && decide (1 ≤ i.imm.toNat ∧ i.imm.toNat ≤ 256)
  | .rrels i => i.countOk && i.c == 0
  | .radvw i => i.countOk && decide (i.c.toNat ≤ 0x18)
  | .rstat i => i.a == 0 && i.b == 0 && i.c == 0 && i.imm == 0 && decide (i.mod.toNat ≤ 7)
  | .rflush i => i.a == 0 && i.b == 0 && i.c == 0 && i.imm == 0 && i.mod == 0
  | .binit i => i.d == 0 && i.c == 0 && i.mod == 0 && i.imm == 0
  | .barv i => i.d == 0 && i.a == 0 && i.c == 0 && decide (i.mod.toNat ≤ 1) && i.imm == 0
  | .bexp i => i.d == 0 && i.a == 0 && i.c == 0 && decide (i.mod.toNat ≤ 1) && i.imm == 0
  | .bwait i => i.d == 0 && i.b == 0 && i.c == 0 && (if i.mod == 0 then i.a == 0 && decide (i.imm.toNat ≤ 1) else i.mod == 1 && i.imm == 0)
  | .btest i => i.a == 0 && i.b == 0 && i.c == 0 && i.imm == 0 && decide (i.mod.toNat ≤ 5)
  | .cpy i => i.copyScope && copySpace (i.imm.extractLsb' 8 3) && copySpace (i.imm.extractLsb' 11 3) && (!i.imm.getLsbD 15 || i.h == 0) && !i.imm.getLsbD 16
  | .cpyt i => i.copyScope && i.c.extractLsb' 4 2 == 0 && copySpace (i.imm.extractLsb' 8 3) && copySpace (i.imm.extractLsb' 11 3) && (!i.imm.getLsbD 15 || i.h == 0) && !(i.imm.getLsbD 16 && i.imm.extractLsb' 8 3 == 3)
  | .cpyb i => i.copyScope && copySpace (i.imm.extractLsb' 4 3) && (!i.imm.getLsbD 8 || i.h == 0) && decide ((i.imm.extractLsb' 9 5).toNat ≤ 0x18) && i.imm.extractLsb' 9 5 != 0x17 && i.imm.extractLsb' 14 2 != 3 && !i.imm.getLsbD 16
  | .cpyq i => i.copyScope && i.c.extractLsb' 4 2 == 0 && copySpace (i.imm.extractLsb' 14 3) && decide ((i.imm.extractLsb' 7 3).toNat ≤ 4) && (!i.imm.getLsbD 5 || i.imm.extractLsb' 0 5 == 0)
  | .mtask i => i.taskOk (32 * ((i.aux.extractLsb' 0 8).toNat + 1))
  | .mtasks i => i.taskOk (96 * ((i.aux.extractLsb' 0 6).toNat + 1)) && i.aux.extractLsb' 6 2 != 3 && decide (2 ≤ i.fmta.code.toNat)
  | .mwait i => i.ta == 0 && i.tb == 0 && i.sx == 0 && i.sy == 0 && i.fmta == .fp32 && i.fmtb == .fp32 && i.aux == 0 && (if i.mod == 0 then accField i.td else i.mod == 1 && i.td == 0)
  | .mzero i => accField i.td && i.ta == 0 && i.tb == 0 && i.sx == 0 && i.sy == 0 && i.fmta == .fp32 && i.fmtb == .fp32 && (i.mod == 0 || i.mod == 4) && i.imask != 0 && i.aux.extractLsb' 0 8 == 0
  | .mrd i => i.mrdOk
  | .tzero i => tileField i.td && i.ta == 0 && i.tb == 0 && i.sx == 0 && i.sy == 0 && i.fmtb == .fp32 && i.mod == 0 && i.aux == 0
  | .tmov i => tileField i.td && tileField i.ta && i.tb == 0 && i.sx == 0 && i.sy == 0 && i.fmta == .raw && i.fmtb == .fp32 && i.mod == 0 && i.aux == 0
  | .tcvt i => tileField i.td && tileField i.ta && i.tb == 0 && i.sx == 0 && i.sy == 0 && decide (i.fmta.code.toNat ≤ 0x16) && i.fmtb == .fp32 && i.mod.extractLsb' 0 3 == 0 && i.aux.extractLsb' 3 6 == 0 && decide (i.rnd.toNat ≤ 4)
  | .tslice i => i.tb == 0 && i.fmtb == .fp32 && i.fmta.isMove && i.mod.extractLsb' 0 2 == 0 && (if i.mod.getLsbD 3 then tileField i.td && i.ta == 0 else tileField i.ta && i.td == 0)
  | .tdnode i => i.td == 0 && i.ta == 0 && i.tb == 0 && i.fmta == .fp32 && i.fmtb == .fp32 && decide (i.mod.toNat ≤ 5) && (i.mod == 5 || i.aux == 0)
  | .tdstep i => i.fmta != .mask && i.fmtb != .mask && pathField i.td && i.tb == 0 && i.sy == 0 && i.treeAux && !i.mod.getLsbD 2 && !i.mod.getLsbD 0 && (if i.mod.getLsbD 1 then i.ta == 0 else tileField i.ta)
  | .tdgrp i => i.td == 0 && pathField i.ta && i.tb == 0 && i.fmta == .uint16 && i.fmtb == .fp32 && i.mod == 0 && i.aux.extractLsb' 3 9 == 0
  | .tdleaf i => i.fmta != .mask && i.fmtb != .mask && pathField i.ta && i.sy == 0 && i.treeAux && (if i.mod.getLsbD 1 then i.tb == 0 else tileField i.tb) && (if i.mod.getLsbD 0 then i.td == 0 else tileField i.td)
  | .tdpath i => i.tdpathOk
  | .tdgrad i => tileField i.td && pathField i.ta && i.tb == 0 && i.sy == 0 && i.fmta.isArith && i.fmtb == .fp32 && i.mod == 0 && i.aux == 0
  | .skpred i => i.skiveOk true false
  | .skfetch i => i.skiveOk false true
  | .skchk i => i.skiveOk false false
  | .skrpl i => i.skiveOk true true
  | .skstat i => i.td == 0 && i.ta == 0 && i.tb == 0 && i.fmta == .fp32 && i.fmtb == .fp32 && decide (i.mod.toNat ≤ 6) && i.aux.extractLsb' 4 8 == 0
  | .rtjob i => i.td == 0 && i.ta == 0 && i.tb == 0 && i.fmta == .fp32 && i.fmtb == .fp32 && (if i.mod == 1 then i.sx == 0 && i.aux == 0 else (i.mod == 0 || i.mod == 8) && i.sy == 0 && i.aux.extractLsb' 4 8 == 0)
  | .rtwait i => i.td == 0 && i.ta == 0 && i.tb == 0 && i.sx == 0 && i.sy == 0 && i.fmta == .fp32 && i.fmtb == .fp32 && i.mod == 0 && i.aux == 0
  | .launch i => i.b == 0 && i.h == 0 && i.c == 0 && decide (i.mod.toNat ≤ 1) && decide (i.imm.toNat < 0x20)
  | .task i => i.b == 0 && i.h == 0 && i.c == 0 && i.mod == 0 && decide (i.imm.toNat < 0x10)
  | .twait i => i.d == 0 && i.b == 0 && i.h == 0 && i.c == 0 && i.imm == 0 && decide (i.mod.toNat ≤ 2) && (i.mod != 1 || i.a == 0)
  | .evpop i => i.a == 0 && i.b == 0 && i.h == 0 && i.c == 0 && i.imm == 0 && decide (i.mod.toNat ≤ 1) && i.d.extractLsb' 0 2 == 0 && i.d != 0
  | .evpush i => i.d == 0 && i.h == 0 && !i.imm.getLsbD 16 && (if i.mod == 0 then i.c == 0 else i.mod == 1)
  | .gid i => i.a == 0 && i.b == 0 && i.h == 0 && i.c == 0 && decide (i.mod.toNat ≤ 6) && decide (i.imm.toNat ≤ 7) && ((i.mod != 4 && i.mod != 6) || i.imm == 0)
  | .srd i => i.a == 0 && i.b == 0 && i.h == 0 && i.c == 0 && i.mod == 0 && i.imm.extractLsb' 12 5 == 0 && !decide (0x500 ≤ i.imm.toNat ∧ i.imm.toNat ≤ 0x7ff)
  | .swr i => i.d == 0 && i.b == 0 && i.h == 0 && i.c == 0 && i.mod == 0 && i.imm.extractLsb' 12 5 == 0 && !decide (0x500 ≤ i.imm.toNat ∧ i.imm.toNat ≤ 0x7ff)
  | .trap i => i.d == 0 && i.a == 0 && i.b == 0 && i.h == 0 && i.c == 0 && i.mod == 0 && !i.imm.getLsbD 16
  | .eret i => i.d == 0 && i.a == 0 && i.b == 0 && i.h == 0 && i.c == 0 && i.mod == 0 && i.imm == 0
  | .brk i => i.d == 0 && i.a == 0 && i.b == 0 && i.h == 0 && i.c == 0 && i.mod == 0 && !i.imm.getLsbD 16
  | .tick i => i.a == 0 && i.b == 0 && i.h == 0 && i.c == 0 && decide (i.mod.toNat ≤ 1) && i.imm == 0
  | .evrec i => i.d == 0 && i.h == 0 && i.c == 0 && i.mod == 0 && decide (i.imm.toNat ≤ 255)
  | .stage i => i.d == 0 && i.b == 0 && i.h == 0 && i.c == 0 && (if i.mod == 0 then i.a == 0 && decide (i.imm.toNat ≤ 7) else i.mod == 1 && i.imm == 0)
  | .xst i => i.d == 0 && i.mod == 0 && i.remoteOk
  | .xld i => i.b == 0 && i.mod == 0 && i.remoteOk
  | .xatom i => i.b == 0 && i.h == 0 && !i.mod.getLsbD 3 && i.imm.extractLsb' 5 12 == 0 && (match i.xfmt with | some f => atomFmtOk (i.mod.extractLsb' 0 3) f | none => false)
  | .xdrain i => i.d == 0 && i.a == 0 && i.b == 0 && i.h == 0 && i.c == 0 && i.mod == 0 && i.imm == 0
  | .dstop i => i.b == 0 && i.h == 0 && i.c == 0 && i.imm == 0 && decide (i.mod.toNat ≤ 2) && (i.mod == 0 || i.a == 0)
  | .capsSt i => i.mod == 0 && i.a == 0 && i.b == 0 && i.h == 0 && i.c == 0 && i.imm == 0
  | .capsSz i => i.mod == 1 && i.a == 0 && i.b == 0 && i.h == 0 && i.c == 0 && (i.imm == 0 || i.imm == 16)
  | .capsGet i => i.mod == 2 && i.h == 0 && i.c == 0 && decide (i.imm.toNat < 32)
  | .capsAck i => i.mod == 3 && i.a == 0 && i.b == 0 && i.h == 0 && i.c == 0 && i.imm == 0
  | .ill _ => false
  | .blockIssue => true
  | .blockCommit => true
  | .publicationComplete => true
  | .remoteReply => true
  | .remoteTimeout => true
  | .xstDelivery => true
  | .ringTokenArrival => true
  | .freedSlotNotice => true
  | .barrierEvent => true
  | .jobDispatch => true
  | .copyJobComplete => true
  | .tileTaskDispatch => true
  | .tileTaskArrayEnd => true
  | .tileTaskComplete => true
  | .mzeroComplete => true
  | .mrdWritebackComplete => true
  | .cpybComplete => true
  | .tdstepComplete => true
  | .tdleafComplete => true
  | .skpredComplete => true
  | .skfetchComplete => true
  | .skchkComplete => true
  | .skrplComplete => true
  | .rtjobComplete => true
  | .capsGetComplete => true
  | .evpushRecordEntry => true
  | .streamNodeFiring => true
  | .repeatNodeFiring => true
  | .bitfieldNodeFiring => true
  | .converterNodeFiring => true
  | .memoryNodeAccess => true
  | .fenceTokenRelease => true
  | .skiveNodeFiring => true
  | .routingNodeFiring => true
  | .collectiveContribution => true
  | .kernelLoad => true
  | .kernelRetire => true
  | .stageRequest => true
  | .stageSwitchApply => true
  | .lehrResolveWindow => true
  | .lehrSolutionComplete => true
  | .islandMApply => true
  | .ratioSwitchEnd => true
  | .islandIdle => true
  | .islandPowerGate => true
  | .islandWake => true
  | .boostChange => true
  | .queueTailWrite => true
  | .queueEnable => true
  | .queueDisable => true
  | .queueHeadWrite => true
  | .queueRecordTake => true
  | .quantExpiry => true
  | .watchdogSaveRequest => true
  | .watchdogKill => true
  | .watchdogFence => true
  | .contextOpen => true
  | .contextClose => true
  | .contextTeardownDone => true
  | .partitionReset => true
  | .faultRecordWrite => true
  | .regionResume => true
  | .regionSave => true
  | .regionKill => true
  | .regionRestore => true
  | .pageServiceSave => true
  | .pageWalkComplete => true
  | .invalPage => true
  | .invalContext => true
  | .evict => true
  | .hostMemoryWrite => true
  | .hostTableWrite => true
  | .specialRegisterWrite => true
  | .srseedWrite => true
  | .msflgClear => true
  | .reccfgWrite => true
  | .pwrcfgWrite => true
  | .interruptTimeExpiry => true
  | .wsRefreshWindowStart => true
  | .wsRefreshWindowEnd => true
  | .sensorSample => true
  | .controlWindow => true
  | .busBeatRetry => true
  | .portEnable => true
  | .portTrainingDone => true
  | .flitReceive => true
  | .portReset => true
  | .coldReset => true
  | .warmReset => true
  | .lifecycleProvision => true
  | .lifecycleDiagnostic => true
  | .lifecycleRedeploy => true
  | .lifecycleDecommission => true
  | .romBoot => true
  | .recoveryImageWrite => true
  | .recorderHorizonStop => true
  | .capsuleSeal => true
  | .debugStop => true
  | .debugRelease => true
  | .remoteHomeAccess => true
  | .collectiveFailure => true

/-- Whether a decode-time handle check rejects the fields: a field that reads h31, or a handle field
that names it (R65). -/
def Body.ringRejects (op : BitVec 9) : Body → Bool
  | .v i => i.readsH31
  | .s i => ((0x140 ≤ op.toNat && op.toNat ≤ 0x145) || op == 0x14e) && i.h == 31
  | .t i => (op == 0x180 || op == 0x181) && i.sy == 31
  | _ => false

/-- `Body.ringRejects` of an instruction. -/
def Instr.ringRejects (i : Instr) : Bool :=
  match i.parts with
  | some (op, b) => b.ringRejects op
  | none => false

/-! ### One instruction -/

/-- The instruction of a word and its trailing literal, the entry's conditions aside (R58-R64, R74). -/
def decodeFields (w : Word) (lit : Option Word) : Option Instr :=
  let op := w.extractLsb' 55 9
  if op = 0x1ff then some (.ill (w.extractLsb' 0 55))
  else
    match opForm op with
    | some .v => (decodeV w lit).bind (ofV op)
    | some .m => (decodeM w).bind (ofM op)
    | some .x => (decodeX w).bind (ofX op)
    | some .t => (decodeT w).bind (ofT op)
    | some .s => (decodeS w).bind (ofS op)
    | none => none

/-- The decode of one instruction word with its trailing literal (R76): the instruction, or the name
of the rejection. -/
def decodeWord (w : Word) (lit : Option Word) : Except Reject Instr :=
  match decodeFields w lit with
  | none => .error .illegalOp
  | some (.ill _) => .error .illegalOp
  | some i =>
    if !i.entryOk then .error .illegalOp
    else if i.ringRejects then .error .ringState
    else .ok i

/-- Whether a word claims a trailing literal: an opcode of format V with a source of kind 10 (R47). -/
def claimsLiteral (w : Word) : Bool :=
  opForm (w.extractLsb' 55 9) == some .v && claimsLiteralV w

/-- The instruction whose words stand at the head of a list of words, and the rest (R47). ILL is
answered as the instruction it names; a block that holds it is rejected (R74). -/
def decodeHead : List Word → Option (Instr × List Word)
  | [] => none
  | w :: rest =>
    let (lit, rest') := if claimsLiteral w then (rest.head?, rest.tail) else (none, rest)
    match decodeFields w lit with
    | some (.ill low) => some (.ill low, rest')
    | _ =>
      match decodeWord w lit with
      | .ok i => some (i, rest')
      | .error _ => none

/-- The words of an instruction: its instruction word and its trailing literal (R58-R63, R47). The
part's other steps have none. -/
def encode (i : Instr) : Option (List Word) :=
  match i with
  | .ill low => some [(0x1ff : BitVec 9) ++ low]
  | i =>
    match i.parts with
    | some (op, .v f) => some (encodeV op f :: (match f.lit with | some l => [l] | none => []))
    | some (op, .m f) => some [encodeM op f]
    | some (op, .x f) => some [encodeX op f]
    | some (op, .t f) => some [encodeT op f]
    | some (op, .s f) => some [encodeS op f]
    | none => none

/-- The two words of an instruction whose bits are `w`, numbered from the least significant bit of
the first word; bits at or above `nbits` are zero. -/
def tableWords (nbits w : Nat) : List Word :=
  let v := w % 2 ^ nbits
  [BitVec.ofNat 64 v, BitVec.ofNat 64 (v / 2 ^ 64)]

/-- The instruction the decoder reads from an instruction whose bits are `w`. -/
def decodeTableWord (nbits w : Nat) : Option Instr :=
  (decodeHead (tableWords nbits w)).map (·.1)

end Sys2Proof
end

