-- ==== Sys2Proof/Machine/Bits.lean ====
section
/-!
DEFINITION. Plain operations on sparse maps in canonical form, on little-endian bytes (R3) and on bit
fields of natural numbers.
-/
namespace Sys2Proof.Machine

/-! ### Sparse maps -/

/-- The value at a key; an unlisted key reads as `d`. -/
def smGet {w : Nat} (d : BitVec w) : SMap w → Nat → BitVec w
  | [], _ => d
  | (k', v) :: m, k => if k = k' then v else smGet d m k

/-- The map with one value written: keys stay in rising order, and a value equal to `d` is not
listed. -/
def smSet {w : Nat} (d : BitVec w) : SMap w → Nat → BitVec w → SMap w
  | [], k, v => if v = d then [] else [(k, v)]
  | (k', v') :: m, k, v =>
    if k < k' then (if v = d then (k', v') :: m else (k, v) :: (k', v') :: m)
    else if k = k' then (if v = d then m else (k, v) :: m)
    else (k', v') :: smSet d m k v

/-- The map of a function on keys below `n`. -/
def smOf {w : Nat} (d : BitVec w) (n : Nat) (f : Nat → BitVec w) : SMap w :=
  (List.range n).filterMap fun k => if f k = d then none else some (k, f k)

/-- Whether keys rise strictly from above `lo` and no value is the default. -/
def smOk {w : Nat} (d : BitVec w) : Option Nat → SMap w → Bool
  | _, [] => true
  | lo, (k, v) :: m =>
    (match lo with | none => true | some l => decide (l < k)) && v != d && smOk d (some k) m

/-- Several writes in order. -/
def smSetAll {w : Nat} (d : BitVec w) (m : SMap w) (l : List (Nat × BitVec w)) : SMap w :=
  l.foldl (fun m c => smSet d m c.1 c.2) m

/-- Consecutive values from a key on. -/
def smRead {w : Nat} (d : BitVec w) (m : SMap w) (k n : Nat) : List (BitVec w) :=
  (List.range n).map fun i => smGet d m (k + i)

/-- Consecutive values written from a key on. -/
def smWrite {w : Nat} (d : BitVec w) (m : SMap w) (k : Nat) (vs : List (BitVec w)) : SMap w :=
  smSetAll d m (vs.zipIdx.map fun p => (k + p.2, p.1))

/-- The map of a list of values, by position. -/
def smOfList {w : Nat} (d : BitVec w) (l : List (BitVec w)) : SMap w :=
  l.zipIdx.filterMap fun p => if p.1 = d then none else some (p.2, p.1)

/-- `n` values from key `k` on, off the entries of a map that start at or after `k`. -/
def smExpandFrom {w : Nat} (d : BitVec w) : Nat → SMap w → Nat → List (BitVec w)
  | 0, _, _ => []
  | n + 1, [], k => d :: smExpandFrom d n [] (k + 1)
  | n + 1, (k', v) :: m, k =>
    if k' = k then v :: smExpandFrom d n m (k + 1) else d :: smExpandFrom d n ((k', v) :: m) (k + 1)

/-- `n` values from key `k` on, in one pass. -/
def smExpand {w : Nat} (d : BitVec w) (m : SMap w) (k n : Nat) : List (BitVec w) :=
  smExpandFrom d n (m.dropWhile fun c => decide (c.1 < k)) k

/-- Only the entries whose key lies in `lo .. hi - 1` removed. -/
def smErase {w : Nat} (m : SMap w) (lo hi : Nat) : SMap w :=
  m.filter fun c => !(decide (lo ≤ c.1) && decide (c.1 < hi))

/-! ### Bytes -/

/-- The number whose bytes, least significant first, are given (R3). -/
def leNat : List Byte → Nat
  | [] => 0
  | b :: bs => b.toNat + 256 * leNat bs

/-- The `n` low bytes of a number, least significant first (R3). -/
def leBytes : Nat → Nat → List Byte
  | 0, _ => []
  | n + 1, v => BitVec.ofNat 8 v :: leBytes n (v / 256)

/-- `n` bytes from offset `k` of a record as a number; bytes past its end read zero. -/
def fieldN (r : List Byte) (k n : Nat) : Nat := leNat ((r.drop k).take n)

/-- Bits `hi` down to `lo` of a number. -/
def bits (v hi lo : Nat) : Nat := v / 2 ^ lo % 2 ^ (hi + 1 - lo)

/-- One bit of a number. -/
def bit (v k : Nat) : Bool := v / 2 ^ k % 2 == 1

/-- The two's complement value of the low `w` bits of a number. -/
def toSigned (w v : Nat) : Int :=
  let m := v % 2 ^ w
  if 2 * m < 2 ^ w then (m : Int) else (m : Int) - (2 ^ w : Nat)

/-- The low `w` bits of an integer in two's complement. -/
def ofInt (w : Nat) (i : Int) : Nat := (i % ((2 ^ w : Nat) : Int)).toNat

/-- A number rounded up to a multiple of `a`. -/
def alignUp (v a : Nat) : Nat := (v + a - 1) / a * a

/-- Quotient rounded up. -/
def ceilDiv (a b : Nat) : Nat := (a + b - 1) / b

/-- An integer clamped to a range. -/
def clampI (lo hi x : Int) : Int := if x < lo then lo else if hi < x then hi else x

/-- A list padded with zero bytes to `n`. -/
def padTo (n : Nat) (l : List Byte) : List Byte := (l ++ List.replicate (n - l.length) 0).take n

/-- A list with the element at `k` replaced. -/
def setAt {α : Type} (l : List α) (k : Nat) (x : α) : List α := l.set k x

/-- A value put into a sorted list before the first element that it need not follow. -/
def insertBy {α : Type} (le : α → α → Bool) (a : α) : List α → List α
  | [] => [a]
  | b :: l => if le a b then a :: b :: l else b :: insertBy le a l

/-- A list sorted; equals keep their order. -/
def sortBy {α : Type} (le : α → α → Bool) (l : List α) : List α := l.foldr (insertBy le) []

/-- Whether every byte of a stretch of a record is zero. -/
def zeroIn (r : List Byte) (k n : Nat) : Bool := ((r.drop k).take n).all (· == 0)

end Sys2Proof.Machine
end

