-- ==== Sys2Proof/Machine/Num.lean ====
section
/-!
DEFINITION. The number formats (R84-R88), exact values, rounding (R93), narrowing (R96), conversion to
integers (R97), stochastic rounding (R98, R99) and the literal's and immediate's conversion (R70, R71).
Values are exact: a finite value is a signed quotient of naturals, and a square root is kept as the
number it is the root of.
-/
namespace Sys2Proof.Machine

/-! ### Formats -/

/-- The element width of a format in bits (R84-R88): FP6 elements take 8 (R85). -/
def fmtWidth : Fmt → Nat
  | .fp32 | .tf32 | .int32 | .uint32 | .mask | .raw => 32
  | .bf16 | .fp16 | .int16 | .uint16 => 16
  | .e2m1 | .mxe2m1 | .int4 => 4
  | .e4m3 | .e5m2 | .e3m2 | .e2m3 | .mxe4m3 | .mxe5m2 | .mxe3m2 | .mxe2m3 | .mxint8
  | .int8 | .uint8 | .e8m0 => 8

/-- Exponent width, mantissa width, bias and the bits of the largest finite magnitude of a
floating-point format (R84). -/
structure FloatInfo where
  ebits : Nat
  mbits : Nat
  bias  : Nat
  max   : Nat
  hasInf : Bool
  hasNan : Bool
  deriving DecidableEq, Repr, Inhabited

/-- The layout of a floating-point format, none for the others (R84). TF32 is laid out in 19 bits. -/
def floatInfo : Fmt → Option FloatInfo
  | .fp32 => some ⟨8, 23, 127, 0x7f7fffff, true, true⟩
  | .tf32 => some ⟨8, 10, 127, 0x3fbff, true, true⟩
  | .bf16 => some ⟨8, 7, 127, 0x7f7f, true, true⟩
  | .fp16 => some ⟨5, 10, 15, 0x7bff, true, true⟩
  | .e4m3 => some ⟨4, 3, 7, 0x7e, false, true⟩
  | .e5m2 => some ⟨5, 2, 15, 0x7b, true, true⟩
  | .e3m2 => some ⟨3, 2, 3, 0x1f, false, false⟩
  | .e2m3 => some ⟨2, 3, 1, 0x1f, false, false⟩
  | .e2m1 => some ⟨2, 1, 1, 0x7, false, false⟩
  | _ => none

/-- The element format of an MX format; MXINT8 has none (R86). -/
def mxElem : Fmt → Option Fmt
  | .mxe4m3 => some .e4m3
  | .mxe5m2 => some .e5m2
  | .mxe3m2 => some .e3m2
  | .mxe2m3 => some .e2m3
  | .mxe2m1 => some .e2m1
  | _ => none

/-- Whether an integer format is signed, and its width; none for the other formats (R88). -/
def intInfo : Fmt → Option (Bool × Nat)
  | .int8 => some (true, 8)
  | .int32 => some (true, 32)
  | .uint32 => some (false, 32)
  | .int16 => some (true, 16)
  | .uint16 => some (false, 16)
  | .uint8 => some (false, 8)
  | .int4 => some (true, 4)
  | _ => none

/-! ### Exact values -/

/-- An exact value: NaN, an infinity, or a signed quotient `n / d`; a zero has a sign. -/
inductive Num
  | nan (signalling : Bool)
  | inf (neg : Bool)
  | fin (neg : Bool) (n d : Nat)
  deriving DecidableEq, Repr, Inhabited

/-- `m * 2^e` as a quotient. -/
def dyadic (neg : Bool) (m : Nat) (e : Int) : Num :=
  if 0 ≤ e then .fin neg (m * 2 ^ e.toNat) 1 else .fin neg m (2 ^ (-e).toNat)

/-- The integer as a value; zero is +0. -/
def ofInteger (i : Int) : Num := .fin (decide (i < 0)) i.natAbs 1

/-- The value of the bits of a floating-point element (R84). -/
def floatVal (f : FloatInfo) (b : Nat) : Num :=
  let neg := bit b (f.ebits + f.mbits)
  let e := bits b (f.ebits + f.mbits - 1) f.mbits
  let m := b % 2 ^ f.mbits
  let mag := b % 2 ^ (f.ebits + f.mbits)
  if f.max < mag && f.hasNan && !(f.hasInf && m == 0) then
    .nan (f.hasInf && !bit m (f.mbits - 1))
  else if f.max < mag && f.hasInf then .inf neg
  else if e = 0 then dyadic neg m (1 - (f.bias : Int) - f.mbits)
  else dyadic neg (2 ^ f.mbits + m) ((e : Int) - f.bias - f.mbits)

/-- The value of an element of a format that is not MX (R84-R88). A mask or raw word reads as its
unsigned integer. -/
def elemVal (f : Fmt) (b : Nat) : Num :=
  match floatInfo f with
  | some i => floatVal i (if f = .tf32 then b / 2 ^ 13 else b)
  | none =>
    match intInfo f with
    | some (s, w) => if s then ofInteger (toSigned w b) else .fin false (b % 2 ^ w) 1
    | none =>
      if f = .e8m0 then
        (if b % 256 = 255 then .nan false else dyadic false 1 ((b % 256 : Nat) - 127))
      else .fin false (b % 2 ^ 32) 1

/-- The value of an MX element under its scale byte (R86). -/
def mxVal (f : Fmt) (b : Nat) (scale : Byte) : Num :=
  if scale = 0xff then .nan false
  else
    let v := match mxElem f with
      | some e => elemVal e b
      | none =>
        let s := toSigned 8 b
        .fin (decide (s < 0)) s.natAbs 64
    match v with
    | .fin neg n d =>
      match dyadic false 1 ((scale.toNat : Int) - 127) with
      | .fin _ n' d' => .fin neg (n * n') (d * d')
      | o => o
    | o => o

/-- Whether a value is a NaN. -/
def Num.isNan : Num → Bool
  | .nan _ => true
  | _ => false

/-- Whether a value is a signalling NaN. -/
def Num.isSignalling : Num → Bool
  | .nan s => s
  | _ => false

/-- Whether a value is a zero. -/
def Num.isZero : Num → Bool
  | .fin _ n _ => n == 0
  | _ => false

/-- The sign of a value. -/
def Num.isNeg : Num → Bool
  | .nan _ => false
  | .inf s => s
  | .fin s _ _ => s

/-- A finite value's signed numerator. -/
def signed (neg : Bool) (n : Nat) : Int := if neg then -(n : Int) else (n : Int)

/-- The value with its sign inverted. -/
def Num.negate : Num → Num
  | .nan s => .nan s
  | .inf s => .inf (!s)
  | .fin s n d => .fin (!s) n d

/-- The magnitude of a value. -/
def Num.abs : Num → Num
  | .nan s => .nan s
  | .inf _ => .inf false
  | .fin _ n d => .fin false n d

/-- Order of two values that are not NaN, a zero's sign aside: -1, 0 or 1. -/
def Num.cmp (a b : Num) : Int :=
  match a, b with
  | .inf s, .inf t => if s = t then 0 else if s then -1 else 1
  | .inf s, _ => if s then -1 else 1
  | _, .inf t => if t then 1 else -1
  | .fin s n d, .fin t m e =>
    let l := signed s n * e
    let r := signed t m * d
    if l < r then -1 else if l = r then 0 else 1
  | _, _ => 0

/-! ### Rounding -/

/-- The rounding modes of MOD[8:6] (R59). -/
inductive Rnd
  | rne | rtz | rdn | rup | rna
  deriving DecidableEq, Repr, Inhabited

/-- The mode of a field value; the reserved codes never pass decode (R59, R75). -/
def Rnd.ofField (v : Nat) : Rnd :=
  match v with
  | 1 => .rtz
  | 2 => .rdn
  | 3 => .rup
  | 4 => .rna
  | _ => .rne

/-- The flags in the places of FFLAGS (R91). -/
def fNV : BitVec 5 := 1
@[inherit_doc fNV] def fDZ : BitVec 5 := 2
@[inherit_doc fNV] def fOF : BitVec 5 := 4
@[inherit_doc fNV] def fUF : BitVec 5 := 8
@[inherit_doc fNV] def fNX : BitVec 5 := 16

/-- A positive exact real: `n / d`, or the square root of `n / d`. -/
structure Mag where
  n    : Nat
  d    : Nat
  root : Bool := false
  deriving DecidableEq, Repr, Inhabited

/-- The integer square root by bits from `2^k` down. -/
def isqrtFrom : Nat → Nat → Nat → Nat
  | 0, r, n => if (r + 1) * (r + 1) ≤ n then r + 1 else r
  | k + 1, r, n =>
    let t := r + 2 ^ (k + 1)
    isqrtFrom k (if t * t ≤ n then t else r) n

/-- ⌊√n⌋. -/
def isqrt (n : Nat) : Nat := isqrtFrom (Nat.log2 n / 2 + 1) 0 n

/-- `n / (d * 2^k)` as numerator and denominator. -/
def scaled (n d : Nat) (k : Int) : Nat × Nat :=
  if 0 ≤ k then (n, d * 2 ^ k.toNat) else (n * 2 ^ (-k).toNat, d)

/-- ⌊log2 (n / d)⌋ of a positive quotient. -/
def log2Q (n d : Nat) : Int :=
  let k : Int := (Nat.log2 n : Int) - Nat.log2 d
  let s := scaled n d k
  if s.1 < s.2 then k - 1 else k

/-- ⌊log2 x⌋ of a positive exact real. -/
def Mag.log2 (x : Mag) : Int := if x.root then log2Q x.n x.d / 2 else log2Q x.n x.d

/-- ⌊x / 2^u⌋. -/
def Mag.floorAt (x : Mag) (u : Int) : Nat :=
  if x.root then (let s := scaled x.n x.d (2 * u); isqrt (s.1 / s.2))
  else (let s := scaled x.n x.d u; s.1 / s.2)

/-- Compare `x / 2^u` with `h / 2`: -1, 0 or 1. -/
def Mag.cmpHalf (x : Mag) (u : Int) (h : Nat) : Int :=
  let s := if x.root then scaled (4 * x.n) x.d (2 * u) else scaled (2 * x.n) x.d u
  let r := if x.root then h * h * s.2 else h * s.2
  if s.1 < r then -1 else if s.1 = r then 0 else 1

/-- Rounding to the grid of spacing `2^u` (R93): the multiple chosen, and whether it is inexact. -/
def roundAt (neg : Bool) (x : Mag) (u : Int) (mode : Rnd) : Nat × Bool :=
  let f := x.floorAt u
  if x.cmpHalf u (2 * f) = 0 then (f, false)
  else
    let c := x.cmpHalf u (2 * f + 1)
    let up := match mode with
      | .rne => decide (0 < c) || (decide (c = 0) && f % 2 == 1)
      | .rna => decide (0 ≤ c)
      | .rtz => false
      | .rdn => neg
      | .rup => !neg
    (if up then f + 1 else f, true)

/-- The exponent of the grid spacing at `x` in a format (R93): the subnormal grid below the smallest
normal. -/
def gridExp (f : FloatInfo) (x : Mag) : Int :=
  let e := x.log2
  let emin : Int := 1 - (f.bias : Int)
  (if e < emin then emin else e) - f.mbits

/-- The magnitude bits of `k * 2^u`, `u` being a grid exponent of the format: the bits go on past the
largest finite value with the same spacing (R93). -/
def magBits (f : FloatInfo) (k : Nat) (u : Int) : Nat :=
  ((u - (1 - (f.bias : Int) - f.mbits)).toNat) * 2 ^ f.mbits + k

/-- A result: its element bits, its flags, and whether it was written as the end of its range
(R142). -/
structure Res where
  bits  : Nat
  flags : BitVec 5 := 0
  ovf   : Bool := false
  deriving DecidableEq, Repr, Inhabited

/-- The sign bit of a format in its element's place. -/
def signBit (f : FloatInfo) (neg : Bool) : Nat := if neg then 2 ^ (f.ebits + f.mbits) else 0

/-- The canonical quiet NaN of a format; a format with none writes +0 and sets NV (R71). -/
def canonNan (f : FloatInfo) : Res :=
  if f.hasInf then ⟨f.max + 1 + 2 ^ (f.mbits - 1), 0, false⟩
  else if f.hasNan then ⟨f.max + 1, 0, false⟩
  else ⟨0, fNV, false⟩

/-- The infinity of a format that has one. -/
def infBits (f : FloatInfo) (neg : Bool) : Nat := signBit f neg + f.max + 1

/-- The result of rounding beyond the largest finite value (R96). -/
def overflowRes (f : FloatInfo) (neg : Bool) (mode : Rnd) (sat : Bool) : Res :=
  let s := signBit f neg
  if sat || !(f.hasInf || f.hasNan) then ⟨s + f.max, fOF ||| fNX, sat⟩
  else if f.hasInf then
    let away := match mode with
      | .rne | .rna => true
      | .rtz => false
      | .rdn => neg
      | .rup => !neg
    ⟨if away then s + f.max + 1 else s + f.max, fOF ||| fNX, false⟩
  else ⟨s + f.max + 1, fOF ||| fNX, false⟩

/-- Rounding a positive real with a sign to a format (R93, R96). DEDUCED: whether a value lies above the largest finite
one is told by the rounded value, so that 450 into E4M3 rounds to 448 and does not overflow (R142). -/
def roundMag (f : FloatInfo) (neg : Bool) (x : Mag) (mode : Rnd) (sat : Bool) : Res :=
  if x.n = 0 then ⟨signBit f neg, 0, false⟩
  else
    let u := gridExp f x
    let (k, nx) := roundAt neg x u mode
    let m := magBits f k u
    if f.max < m then overflowRes f neg mode sat
    else
      let uf := nx && decide (m < 2 ^ f.mbits)
      ⟨signBit f neg + m, (if nx then fNX else 0) ||| (if uf then fUF else 0), false⟩

/-- A value into a floating-point format under a mode (R93, R94, R96). -/
def toFloat (f : FloatInfo) (x : Num) (mode : Rnd) (sat : Bool) : Res :=
  match x with
  | .nan sig => let r := canonNan f; { r with flags := r.flags ||| (if sig then fNV else 0) }
  | .inf neg =>
    if f.hasInf then ⟨infBits f neg, 0, false⟩
    else if sat || !f.hasNan then ⟨signBit f neg + f.max, fOF, sat⟩
    else ⟨(canonNan f).bits + signBit f neg, fNV, false⟩
  | .fin neg n d => roundMag f neg ⟨n, d, false⟩ mode sat

/-- TF32 results stand in bits 31:13 of their container (R85). -/
def place (f : Fmt) (r : Res) : Res := if f = .tf32 then { r with bits := r.bits * 2 ^ 13 } else r

/-- A value into an integer format (R97). -/
def toIntFmt (s : Bool) (w : Nat) (x : Num) (mode : Rnd) : Res :=
  let lo : Int := if s then -((2 ^ (w - 1) : Nat) : Int) else 0
  let hi : Int := if s then ((2 ^ (w - 1) : Nat) : Int) - 1 else ((2 ^ w : Nat) : Int) - 1
  match x with
  | .nan _ => ⟨0, fNV, false⟩
  | .inf neg => ⟨ofInt w (if neg then lo else hi), fNV, true⟩
  | .fin neg n d =>
    let (k, nx) := roundAt neg ⟨n, d, false⟩ 0 mode
    let v := signed neg k
    if v < lo then ⟨ofInt w lo, fNV, true⟩
    else if hi < v then ⟨ofInt w hi, fNV, true⟩
    else ⟨ofInt w v, if nx then fNX else 0, false⟩

/-- A value into MXINT8 (R86, R143): the nearest multiple of 2^-6, and `top` or `low` times 2^-6 for one past the range,
with OF as the SAT column of R96 gives it. -/
def toMxint8 (low : Int) (x : Num) (mode : Rnd) : Res :=
  match x with
  | .nan _ => ⟨0, fNV, false⟩
  | .inf neg => ⟨ofInt 8 (if neg then low else 127), fOF, false⟩
  | .fin neg n d =>
    let (k, nx) := roundAt neg ⟨n * 64, d, false⟩ 0 mode
    let v := signed neg k
    if v < -128 then ⟨ofInt 8 low, fOF ||| fNX, false⟩
    else if 127 < v then ⟨127, fOF ||| fNX, false⟩
    else ⟨ofInt 8 v, if nx then fNX else 0, false⟩

/-- A value into E8M0 (R87). -/
def toE8m0 (x : Num) : Res :=
  match x with
  | .nan _ => ⟨0xff, fNV, false⟩
  | .inf _ => ⟨0xfe, fOF, true⟩
  | .fin _ n d =>
    if n = 0 then ⟨0xff, fNV, false⟩
    else ⟨(clampI 0 0xfe (log2Q n d + 127)).toNat, 0, false⟩

/-- Whether a format's subnormals are flushed under FTZ (R95). -/
def flushes (f : Fmt) : Bool := f == .fp32 || f == .tf32 || f == .bf16 || f == .fp16

/-- Element bits of a format with a subnormal read as zero of the same sign, when `ftz` (R95). -/
def flushIn (ftz : Bool) (f : Fmt) (x : Num) : Num :=
  match floatInfo f, x with
  | some i, .fin neg n d =>
    if ftz && flushes f && decide (n ≠ 0) && decide (log2Q n d < 1 - (i.bias : Int)) then .fin neg 0 1
    else x
  | _, _ => x

/-- A result with a subnormal written as zero of the same sign, when `ftz` (R95). `bits` are not yet
placed. -/
def flushOut (ftz : Bool) (f : Fmt) (r : Res) : Res :=
  match floatInfo f with
  | some i =>
    let m := r.bits % 2 ^ (i.ebits + i.mbits)
    if ftz && flushes f && decide (0 < m ∧ m < 2 ^ i.mbits) then
      { r with bits := r.bits - m, flags := r.flags ||| fUF ||| fNX }
    else r
  | none => r

/-- An arithmetic result in a format: rounded, flushed and placed; overflow as IEEE (R94-R96). -/
def arith (ftz : Bool) (f : Fmt) (x : Num) (mode : Rnd) : Res :=
  match floatInfo f with
  | some i => place f (flushOut ftz f (toFloat i x mode false))
  | none => ⟨0, 0, false⟩

/-! ### Exact arithmetic on values -/

/-- The exact sum, and NV for infinities of opposite signs (R94). A zero sum of values of opposite signs
is +0, or -0 under RDN. -/
def addNum (a b : Num) (mode : Rnd) : Num × BitVec 5 :=
  match a, b with
  | .nan s, .nan t => (.nan (s || t), 0)
  | .nan s, _ => (.nan s, 0)
  | _, .nan t => (.nan t, 0)
  | .inf s, .inf t => if s = t then (.inf s, 0) else (.nan false, fNV)
  | .inf s, _ => (.inf s, 0)
  | _, .inf t => (.inf t, 0)
  | .fin s n d, .fin t m e =>
    let v := signed s n * e + signed t m * d
    let neg := if v = 0 then (if s = t then s else mode == .rdn) else decide (v < 0)
    (.fin neg v.natAbs (d * e), 0)

/-- The exact product, and NV for zero times an infinity (R94). -/
def mulNum (a b : Num) : Num × BitVec 5 :=
  match a, b with
  | .nan s, .nan t => (.nan (s || t), 0)
  | .nan s, _ => (.nan s, 0)
  | _, .nan t => (.nan t, 0)
  | .inf s, .inf t => (.inf (s != t), 0)
  | .inf s, .fin t n _ => if n = 0 then (.nan false, fNV) else (.inf (s != t), 0)
  | .fin s n _, .inf t => if n = 0 then (.nan false, fNV) else (.inf (s != t), 0)
  | .fin s n d, .fin t m e => (.fin (s != t) (n * m) (d * e), 0)

/-- The exact quotient; DZ for a finite non-zero value by zero (R94). -/
def divNum (a b : Num) : Num × BitVec 5 :=
  match a, b with
  | .nan s, .nan t => (.nan (s || t), 0)
  | .nan s, _ => (.nan s, 0)
  | _, .nan t => (.nan t, 0)
  | .inf _, .inf _ => (.nan false, fNV)
  | .inf s, .fin t _ _ => (.inf (s != t), 0)
  | .fin s _ _, .inf t => (.fin (s != t) 0 1, 0)
  | .fin s n d, .fin t m e =>
    if m = 0 then (if n = 0 then (.nan false, fNV) else (.inf (s != t), fDZ))
    else (.fin (s != t) (n * e) (d * m), 0)

/-- A signalling operand sets NV (R94). -/
def sigFlag (l : List Num) : BitVec 5 := if l.any Num.isSignalling then fNV else 0

/-- `a * 2^k`. -/
def scaleNum (a : Num) (k : Int) : Num :=
  match a with
  | .fin s n d => let q := scaled n d (-k); .fin s q.1 q.2
  | o => o

/-! ### Conversion of elements (R141) -/

/-- One step of a generator (R98). -/
def genStep (g : Lane) : Lane :=
  let fb := (g >>> 31 ^^^ g >>> 21 ^^^ g >>> 1 ^^^ g) &&& 1
  g <<< 1 + fb

/-- Rounding a positive real stochastically with `u = g[23:0] / 2^24` (R99). DEDUCED: a value beyond the
largest finite one follows R96 under the instruction's mode. -/
def roundSr (f : FloatInfo) (neg : Bool) (x : Mag) (g : Lane) (mode : Rnd) (sat : Bool) : Res :=
  if x.n = 0 then ⟨signBit f neg, 0, false⟩
  else
    let e := gridExp f x
    let s := scaled x.n x.d e
    let k := (s.1 * 2 ^ 24 + (g.toNat % 2 ^ 24) * s.2) / (s.2 * 2 ^ 24)
    let nx := decide (k * s.2 ≠ s.1)
    let m := magBits f k e
    if f.max < m then overflowRes f neg mode sat
    else
      let uf := nx && decide (m < 2 ^ f.mbits)
      ⟨signBit f neg + m, (if nx then fNX else 0) ||| (if uf then fUF else 0), false⟩

/-- The formats that stochastic rounding covers (R99). -/
def srDest (f : Fmt) : Bool :=
  f == .bf16 || f == .fp16 || f == .e4m3 || f == .e5m2 || f == .e3m2 || f == .e2m3 || f == .e2m1

/-- What a conversion reads of its strand and its instruction. -/
structure CvtMode where
  mode : Rnd
  sat  : Bool
  ftz  : Bool
  sr   : Bool
  deriving DecidableEq, Repr, Inhabited

/-- Whether a conversion from `src` to `dst` rounds stochastically (R99). -/
def usesSr (c : CvtMode) (dst src : Fmt) : Bool := c.sr && srDest dst && dst != src

/-- One element converted from format `src` to format `dst`, neither MX, with the serving lane's
generator after its step when the conversion is stochastic (R141). DEDUCED: an integer out of the range of an integer
format that is not narrower saturates in SAT mode and keeps its low bits in IEEE mode, as R97 says of a narrower one. -/
def cvtVal (c : CvtMode) (dst src : Fmt) (v : Num) (g : Lane) : Res :=
  let x := flushIn c.ftz src v
  match floatInfo dst with
  | some f =>
    let r := match x with
      | .fin neg n d =>
        if usesSr c dst src then roundSr f neg ⟨n, d, false⟩ g c.mode c.sat
        else roundMag f neg ⟨n, d, false⟩ c.mode c.sat
      | x => toFloat f x c.mode c.sat
    place dst (flushOut c.ftz dst r)
  | none =>
    match intInfo dst with
    | some (s, w) =>
      match intInfo src with
      | some _ =>
        match x with
        | .fin neg n _ =>
          let v := signed neg n
          let lo : Int := if s then -((2 ^ (w - 1) : Nat) : Int) else 0
          let hi : Int := if s then ((2 ^ (w - 1) : Nat) : Int) - 1 else ((2 ^ w : Nat) : Int) - 1
          if c.sat then ⟨ofInt w (clampI lo hi v), 0, decide (v < lo ∨ hi < v)⟩
          else ⟨ofInt w v, 0, false⟩
        | _ => ⟨0, 0, false⟩
      | none => toIntFmt s w x c.mode
    | none => if dst = .e8m0 then toE8m0 x else ⟨0, 0, false⟩

/-- A literal as an element of a floating-point format (R71); FTZ does not apply. In MXINT8 the largest finite value
is 127 × 2^-6 (R86). DESIGN CHOICE: the literal of an E8M0 operation holds FP32 bits that R87 converts. -/
def litElem (f : Fmt) (lit : Nat) : Res :=
  let e := match mxElem f with | some e => e | none => f
  match floatInfo e with
  | some i =>
    place e (match elemVal .fp32 (lit % 2 ^ 32) with
      | .nan _ => canonNan i
      | .inf neg =>
        if i.hasInf then ⟨infBits i neg, 0, false⟩ else ⟨signBit i neg + i.max, 0, false⟩
      | x => toFloat i x .rne true)
  | none =>
    if f = .mxint8 then
      match elemVal .fp32 (lit % 2 ^ 32) with
      | .inf neg => ⟨ofInt 8 (if neg then -127 else 127), 0, false⟩
      | x => toMxint8 (-127) x .rne
    else if f = .e8m0 then toE8m0 (elemVal .fp32 (lit % 2 ^ 32))
    else ⟨lit % 2 ^ fmtWidth f, 0, false⟩

/-- A small immediate as an element (R70); in MXINT8 the largest finite value is 127 × 2^-6 (R86). DESIGN CHOICE: the
immediate of an E8M0 operation is a value that R87 converts. -/
def immElem (f : Fmt) (n : BitVec 6) : Res :=
  let e := match mxElem f with | some e => e | none => f
  match floatInfo e with
  | some i => place e (toFloat i (ofInteger n.toInt) .rne true)
  | none =>
    if f = .mxint8 then toMxint8 (-127) (ofInteger n.toInt) .rne
    else if f = .e8m0 then toE8m0 (ofInteger n.toInt)
    else ⟨ofInt (fmtWidth f) n.toInt, 0, false⟩

/-! ### Matrix sums (R103) -/

/-- The exact sum of products of one group, with the flags of its special cases. -/
def groupSum : List (Num × Num) → Num × BitVec 5
  | [] => (.fin false 0 1, 0)
  | (a, b) :: rest =>
    let (p, f) := mulNum a b
    let (s, g) := groupSum rest
    let (t, h) := addNum p s .rne
    (t, f ||| g ||| h ||| (if a.isNan || b.isNan then fNV else 0))

/-- FP32's layout. -/
def fp32Info : FloatInfo := ⟨8, 23, 127, 0x7f7fffff, true, true⟩

/-- The groups of 32 products added to an FP32 accumulator, each group rounded once and each addition
rounded once, both as IEEE and keeping subnormals (R103). -/
def matSum : Nat → List (List (Num × Num)) → Nat × BitVec 5
  | c, [] => (c, 0)
  | c, g :: rest =>
    let (s, f) := groupSum g
    let r := toFloat fp32Info s .rne false
    let (t, h) := addNum (elemVal .fp32 c) (elemVal .fp32 r.bits) .rne
    let q := toFloat fp32Info t .rne false
    let (z, k) := matSum q.bits rest
    (z, f ||| r.flags ||| h ||| q.flags ||| k)

/-- Pairs in groups of 32. -/
def groups32 (l : List (Num × Num)) : List (List (Num × Num)) :=
  (List.range (ceilDiv l.length 32)).map fun g => (l.drop (32 * g)).take 32

/-- The sum of products over K from an accumulator (R103). -/
def dotFrom (c : Nat) (l : List (Num × Num)) : Nat × BitVec 5 := matSum c (groups32 l)

end Sys2Proof.Machine
end

