-- ==== Sys2Proof/Machine/State.lean ====
section
/-!
DEFINITION. The state of the part as plain data: the registers of a strand, the block in flight, gangs
and Gaffer cores, memory and the order of its stores, rings, barriers, jobs, matrix islands, kernels
and regions, clocks, the hub, the recorders and the capsule; the reasons a step can stop; and the
state right after reset (R420).
-/
namespace Sys2Proof.Machine

/-! ### Why a step stops -/

/-- The reasons the machine stops. The part's own faults (R342) are no such reason: they freeze a
region and the machine goes on. -/
inductive Fault
  /-- Raised by HOST_MEMORY_WRITE at a weight-store offset at or above 0x3_0000_0000 or past the package's HBM
  (R13, R159, R166, R435): no such byte exists. Safe: the machine stops. -/
  | noSuchAddress
  deriving DecidableEq, Repr, Inhabited

/-- The reasons a step has no meaning in the model. -/
inductive Refusal
  /-- Raised by an arm of `exec` whose instruction has no meaning yet. Safe: the machine stops. -/
  | notModelled (mnemonic : String)
  deriving DecidableEq, Repr, Inhabited

/-- The fault codes of the part (R342). -/
inductive FaultCode
  | illegalOp | illegalBlock | formatTag | bounds | align | page | protect | maintOnly | loopDepth
  | tileAlloc | ringState | barrierState | engine | poison | remote | watchdog | softTrap | brk
  | priv | spillFull | phaseFull
  deriving DecidableEq, Repr, Inhabited

/-- What a fault reports (R53, R162, R343, R363). -/
structure FaultInfo where
  code      : FaultCode
  /-- 0 none, 1 load, 2 store, 3 atomic, 4 fetch, 5 job -/
  access    : Nat := 0
  block     : Addr := 0
  /-- 0 to 127, or 0xFF -/
  index     : Nat := 0xff
  lane      : Nat := 0
  handle    : Nat := 0xff
  element   : Nat := 0
  ea        : Word := 0
  aux       : Nat := 0
  /-- reported against a block boundary (R389) -/
  late      : Bool := false
  /-- the failed translation of R363: the page state found and the walk level -/
  pageAt    : Option (BitVec 3 × BitVec 2) := none
  /-- the address whose translation failed -/
  va        : Nat := 0
  deriving DecidableEq, Repr, Inhabited

/-- Who a fault is reported for: the strand field and die of its tag triple (R339, R343), the unit and strand number of
its recorder (R389, R391), and the unit's place in the order of R217. -/
structure Source where
  strand : Nat
  die    : Nat
  unit   : BitVec 20
  num    : Nat
  ord    : Nat
  deriving DecidableEq, Repr, Inhabited

/-- A fault record that has not been written yet: the tick of its fault, the place of its unit in the order of R217, and
its bytes (R343). -/
structure FaultWait where
  tick : Nat
  ord  : Nat
  recd : List Byte
  deriving DecidableEq, Repr, Inhabited

/-! ### Registers of a strand -/

/-- A vector register: 32 bits per lane, its tag, and one E8M0 byte per 32 elements (R78). -/
structure VReg where
  lanes : List Lane
  tag   : Fmt
  side  : List Byte
  deriving DecidableEq, Repr, Inhabited

/-- A tile register: 128 rows of 128 bytes by `128 * row + byte`, a scale plane of 128 rows of 8 bytes
by `8 * row + byte`, and its tag (R77, R78). An unlisted data byte is zero and an unlisted scale byte is
0x7F, as R79 allocates a tile. -/
structure Tile where
  data  : SMap 8
  scale : SMap 8
  tag   : Fmt
  deriving DecidableEq, Repr, Inhabited

/-- A path-trace register: the header and the row records of 288 bits, an unlisted row being zero
(R249). -/
structure PathReg where
  hdr  : Word
  rows : SMap 288
  deriving DecidableEq, Repr, Inhabited

/-- A bounds handle (R161). -/
structure Handle where
  base  : Addr
  limit : Addr
  v     : Bool
  space : BitVec 3
  a     : Bool
  w     : Bool
  r     : Bool
  deriving DecidableEq, Repr, Inhabited

/-- An accumulator name of a strand: unbound, with a pending binding, or bound to a slot of a matrix
island of its cluster (R229, R238). -/
inductive AccName
  | unbound
  | pending
  | bound (island : Fin 4) (slot : Fin 4)
  deriving DecidableEq, Repr, Inhabited

/-- An entry of the loop stack (R121). -/
structure LoopEntry where
  k        : Fin 3
  start    : Addr
  last     : Addr
  endWords : Nat
  deriving DecidableEq, Repr, Inhabited

/-- The registers of a strand (R77, R91, R121, R161, R316, R353, R377). -/
structure Regs where
  s       : Vector Word 64
  p       : Vector (BitVec 128) 16
  v       : Vector VReg 64
  t       : Vector Tile 8
  d       : Vector PathReg 4
  acc     : Vector AccName 4
  lc      : Vector (BitVec 32) 3
  /-- the loop stack, innermost first -/
  loops   : List LoopEntry
  /-- the loop buffer: captured words by byte address (R57) -/
  lbuf    : SMap 64
  b       : Vector Handle 16
  fmode   : BitVec 2
  fflags  : BitVec 5
  /-- the generator of each lane (R98) -/
  gens    : List Lane
  agelim  : BitVec 16
  role    : BitVec 2
  trapvec : Addr
  trappc  : Addr
  trapcode : BitVec 16
  intrap  : Bool
  rtsst   : Word
  /-- the job counter (R336) -/
  jobctr  : BitVec 16
  deriving DecidableEq, Repr, Inhabited

/-! ### Tokens, and what a block sees of rings and barriers at its issue -/

/-- A token: its tag and its slot's bytes (R194). -/
structure Token where
  tag   : Fmt
  bytes : List Byte
  deriving DecidableEq, Repr, Inhabited

/-- A ring as a block saw it at issue through one handle, and how far the block has come on it
(R66-R68, R203-R207). -/
structure RView where
  h       : Nat
  id      : RingId
  /-- the gang is the ring's producer -/
  prod    : Bool
  /-- the filled tokens from that head on, with their numbers and their sticky states -/
  toks    : List Token
  nums    : List Nat
  sticks  : List (Option (BitVec 3) × Nat × Option (StrandId × Nat))
  /-- the head token's sticky limit and count (R67) -/
  lim     : Option (BitVec 3)
  cnt     : Nat
  /-- for `:loop`: the strand and the depth of the loop whose exit pops the head token (R66) -/
  loop    : Option (StrandId × Nat)
  /-- tokens passed so far by the block's firings and releases -/
  pos     : Nat := 0
  /-- tokens reached so far -/
  reach   : Nat := 0
  /-- tokens taken by matrix tasks of the block, by position (R232) -/
  taken   : List Nat := []
  /-- the freed-slot notices its pops and releases send, in order (R197) -/
  frees   : List Nat := []
  /-- tokens reserved by blocks issued earlier, and by this block at its issue -/
  earlier : Nat
  mine    : Nat
  /-- unreserved counts seen at issue -/
  filled  : Nat
  free    : Nat
  rp      : BitVec 9
  wp      : BitVec 9
  nslot   : Nat
  slotsz  : Nat
  stall   : Nat
  starve  : Nat
  deriving DecidableEq, Repr, Inhabited

/-- The 16-byte object of a barrier (R215). -/
structure BarObj where
  phase    : Bool
  ovf      : Bool
  exparr   : Nat
  arr      : Nat
  expbytes : Nat
  bytes    : Int
  deriving DecidableEq, Repr, Inhabited

/-- A barrier event (R216). -/
inductive BarEvent
  | arrive (n : Nat)
  | credit (n : Nat)
  | debit (n : Nat)
  | debitArrive (n : Nat)
  | init (a b : Nat)
  deriving DecidableEq, Repr, Inhabited

/-! ### The block in flight -/

/-- A memory access of a block at its commit point (R52). -/
inductive CommitAccess
  /-- ATOM and CAS: home address, width, operation (8 for compare and swap), format, comparand or
  operand, new value, destination; `rmt` when the home is host or peer memory -/
  | atom (home : Nat) (z : Nat) (op : BitVec 4) (fmt : Fmt) (x : Word) (y : Word) (d : Nat) (rmt : Bool)
  /-- ATOMV: per lane on, its number, home, operand and whether the home is remote -/
  | atomv (lanes : List (Nat × Nat × Lane × Bool)) (op : BitVec 3) (fmt : Fmt) (d : Nat)
  /-- XLD: virtual address, device, format, destination -/
  | xld (va : Word) (dev : BitVec 20) (fmt : Fmt) (d : Nat)
  /-- XATOM -/
  | xatom (va : Word) (dev : BitVec 20) (op : BitVec 3) (fmt : Fmt) (x : Word) (d : Nat)
  /-- LAUNCH: the home of the 128-byte record and the destination; `w` for the waiting form -/
  | launch (home : Nat) (d : Nat) (w : Bool)
  deriving DecidableEq, Repr, Inhabited

/-- The kinds of job (R210-R213, R230, R241, R245, R255, R272, R384, R407). -/
inductive JobKind
  | copyLinear | copyTensor | copyRing | cpyb
  | task | mzero | mrdWrite
  | tdstep | tdleaf
  | skpred | skfetch | skchk | skrpl
  | rtjob | capsGet
  deriving DecidableEq, Repr, Inhabited

/-- A job as a block submits it, with what its command captures at commit (R191, R436). -/
structure JobReq where
  kind  : JobKind
  /-- index of the submitting instruction -/
  index : Nat
  scope : BitVec 4
  /-- the barrier named, and whether completion posts an event record -/
  bar   : Option Nat
  ev    : Bool
  /-- the record or descriptor: a home address and length to capture at commit, or its bytes -/
  recAt : Option (Nat × Nat)
  bytes : List Byte
  /-- registers and fields the command carries, by the kind's own order -/
  args  : List Word
  /-- the strand's bounds handles as captured -/
  hs    : Vector Handle 16
  /-- the tile or path-trace register the job reads, as it stood -/
  tile  : Option Tile
  path  : Option PathReg
  /-- the ring taken and the number of the token taken from it (R232) -/
  ring  : Option (RingId × Nat)
  /-- the job number (R336) -/
  seqno : BitVec 16
  deriving DecidableEq, Repr, Inhabited

/-- What a block's commit does beside writing the strand's registers (R51, R186), in index order. -/
inductive Fx
  /-- bytes of GLOBAL or CLUSTER stored into the phase buffer, by home address -/
  | store (cells : List Host.Cell)
  /-- bytes of cell memory stored, by home address -/
  | storeCell (cells : List Host.Cell)
  | publish (scope : BitVec 4)
  | refresh (scope : BitVec 4)
  /-- a token pushed on a ring -/
  | push (r : RingId) (tok : Token)
  /-- RFLUSH: the ring, and the index of the instruction -/
  | flush (r : RingId) (index : Nat)
  | barrier (b : BarId) (e : BarEvent) (index : Nat)
  | job (j : JobReq)
  /-- XST: virtual address, device, width, data -/
  | xst (va : Word) (dev : BitVec 20) (z : Nat) (data : Word) (index : Nat)
  | xdrain
  /-- a record for an island's event queue -/
  | event (island : IslandId) (code : BitVec 16) (a b : Word)
  | popEvent (d : Nat)
  | stage (k : Nat)
  /-- a write of a special register outside the strand's own immediate ones -/
  | swr (num : BitVec 12) (v : Word)
  | user (code : Byte) (a b : Word)
  | brk (code : Nat) (index : Nat)
  /-- DSTOP, with the index of the instruction -/
  | dstopArm (at_ : Word) (index : Nat)
  | dstopOff (index : Nat)
  | dstopQuery (index : Nat)
  | capsAck (d : Nat)
  /-- MRD.rel: the name is unbound and its slot freed -/
  | accRelease (c : Fin 4)
  /-- a page entry to mark ACC or DIRTY, with an address that it translated (R361) -/
  | walked (entry : Nat) (va : Nat) (dirty : Bool)
  /-- a span a prefetch names -/
  | prefetch (va : Addr) (bytes : Nat)
  /-- a loop entered at commit (R122) -/
  | loopPush (e : LoopEntry) (count : BitVec 32)
  deriving DecidableEq, Repr, Inhabited

/-- The exit that wins (R56), or the trap or return that a block takes at commit (R354). -/
inductive Exit
  | jump (target : Addr)
  | loopx (k : Nat) (target : Addr)
  | stop
  | trap (code : BitVec 16) (index : Nat)
  | eret (index : Nat)
  deriving DecidableEq, Repr, Inhabited

/-- A block between issue and commit: its strand's identity and limits, its words, the registers at
block start and as written so far, what it saw at issue, and its staged effects. -/
structure Flight where
  active  : Bool
  who     : StrandId
  rid     : Nat
  ctx     : BitVec 12
  /-- lanes of the gang, vector registers and tiles of the strand -/
  nlanes  : Nat
  nvregs  : Nat
  ntiles  : Nat
  pc      : Addr
  /-- WORDS and NINSN_M1 of the header (R46) -/
  words   : Nat
  ninsnM1 : Nat
  /-- the words of the instructions not yet executed, in order -/
  todo    : List Word
  /-- the index of the instruction being executed, and of the next -/
  idx     : Nat
  nextIdx : Nat
  r0      : Regs
  r       : Regs
  /-- flags raised by the block so far, as R92 combines them, stand in `r.fflags` -/
  views   : List RView
  /-- the barriers of the region's table as seen at issue, by index; none for another context's -/
  bars    : List (Nat × Option BarObj)
  /-- special registers outside the strand's range as sampled at issue -/
  srs     : List (Nat × Word)
  /-- WAIT at issue, and the global tick and the die's frame counter at issue (R316, R403) -/
  wait    : Nat
  tick    : Nat
  frame   : Nat
  /-- the head record of the island's event queue that the block reserved -/
  evhead  : Option (List Byte)
  /-- strand modes: MAINT and PRIV of the context (R349) -/
  maint   : Bool
  priv    : Bool
  /-- partition of the context -/
  part    : BitVec 5
  /-- the victim slot of RTJOB.evict, sampled at issue (R387) -/
  victim  : Word
  /-- the armed debug stop and the capsule as CAPS reads it at issue (R406, R407) -/
  capst   : Word
  capsz   : Nat
  capszOp : Nat
  /-- homes of bytes stored by earlier instructions of the block, newest first -/
  staged  : List Host.Cell
  /-- 64-byte granules that the block's stores touch, each with the granule of its home; those that the phase
  buffer held at issue, and how many more fit (R183) -/
  grans   : List (Nat × Nat)
  granFree : Nat
  granOld : List Nat
  /-- the accumulator names and values MRD reads, as they stood at issue (R241) -/
  accs    : List (Fin 4 × SMap 32 × BitVec 5)
  fx      : List Fx
  exit    : Option Exit
  access  : Option CommitAccess
  /-- index of the instruction of that access -/
  accIdx  : Nat
  fault   : Option FaultInfo
  /-- an access is held at its port by a MIGRATING or EVICTING page (R358) -/
  held    : Bool
  /-- a YIELD of the block was not guarded off (R120) -/
  yield   : Bool
  /-- a pending-launch entry and event entries reserved at issue (R322, R334) -/
  entry   : Bool
  evres   : List IslandId
  /-- the issue's number and the count of free values drawn -/
  issue   : Nat
  nonce   : Nat
  /-- bytes loaded by the block with the number of the store each saw (R185) -/
  seen    : List (Nat × Nat)
  /-- requests the block has sent (R339) -/
  reqs    : Nat
  /-- values that only the commit settles, of RFLUSH and DSTOP, as the block's instructions have used them, by index
  (R49, R207, R406) -/
  late    : List (Nat × Word)
  /-- the block's instruction words, and how often the block has been run again for such a value -/
  first   : List Word
  again   : Nat
  deriving DecidableEq, Repr, Inhabited

/-! ### Gangs, Gaffer cores and event queues -/

/-- A remote request whose reply a strand awaits (R52). -/
structure Pending where
  req  : Nat
  /-- scalar destination, or vector with its lanes awaited -/
  d    : Nat
  vec  : Option (List Nat)
  fmt  : Fmt
  deriving DecidableEq, Repr, Inhabited

/-- A strand of a gang or of a Gaffer core. -/
structure Strand where
  num     : Fin 8
  regs    : Regs
  pc      : Addr
  nvregs  : Nat
  ntiles  : Nat
  ended   : Bool
  /-- gang cycles ready and not issued (R315); held for one cycle after a YIELD (R120) -/
  wait    : Nat
  yielded : Bool
  /-- its next block's fetch is held by a page that is being moved (R358) -/
  fetchHeld : Bool
  /-- the phase buffer by home address (R182) -/
  buf     : SMap 8
  /-- the granules that the phase buffer holds, by their place in their space, each with the granule of its home
  (R183) -/
  grans   : List (Nat × Nat)
  /-- the oldest store each byte may still be read from, by its number in the home's order (R185) -/
  floors  : List (Nat × Nat)
  /-- stores that had reached the strand when its region was saved, by number: they have reached it wherever it is
  restored (R185) -/
  kept    : List Nat
  pend    : List Pending
  /-- faults to be reported against the next block boundary (R52, R218, R233, R354, R405) -/
  late    : List FaultInfo
  /-- commits since the last recorded one, and in all (R391, R392) -/
  sinceRec : Nat
  commits : Nat
  /-- XDRAIN waits for every remote store numbered below this (R376) -/
  drain   : Option Nat
  /-- the sequence field of the tag triple (R339) -/
  reqseq  : BitVec 16
  deriving DecidableEq, Repr, Inhabited

/-- Where a spilled vector register is parked (R82). -/
inductive Park
  | bank (cells : Nat) (place : Nat)
  | column (island : Fin 4) (slot : Fin 4) (col : Nat)
  deriving DecidableEq, Repr, Inhabited

/-- A gang, or a Gaffer core with its one strand (R10, R312, R317). -/
structure Gang where
  seq     : Seq
  rid     : Nat
  /-- region cluster and element of the gang node -/
  rc      : Nat
  el      : Nat
  cells   : Nat
  strands : List Strand
  /-- the spill map: strand, register and place (R82) -/
  parked  : List (Fin 8 × Nat × Park)
  done    : Bool
  /-- the watchdog's fence (R332) -/
  fenced  : Bool
  deriving DecidableEq, Repr, Inhabited

/-- An event queue: its records, each with whether an issued block has reserved it, and the entries
reserved for records to come (R317). -/
structure EventQueue where
  isl      : IslandId
  recs     : List (List Byte × Bool)
  reserved : Nat
  deriving DecidableEq, Repr, Inhabited

/-- An EVPUSH record between commit and its entry (R322): it waits for the listed publications. -/
structure EventPending where
  num  : Nat
  /-- the strand that pushed it -/
  by_  : StrandId
  dest : IslandId
  recd : List Byte
  pubs : List Nat
  deriving DecidableEq, Repr, Inhabited

/-- The blocks in flight other than the one at work, the gangs, and the event queues. -/
structure Fabric where
  flights : List Flight
  gangs   : List Gang
  events  : List EventQueue
  pushes  : List EventPending
  deriving DecidableEq, Repr, Inhabited

/-! ### Memory -/

/-- Who publishes or reads: a strand, an engine of a cluster, an engine of a die, or the outside
(R184). -/
inductive Place
  | strand (t : StrandId)
  | cluster (die : Fin 4) (cl : Fin 16)
  | die (d : Fin 4)
  | outside
  /-- a strand of a region that stands on the chip no more, by the place that it had -/
  | gone (rid : Nat) (t : StrandId)
  deriving DecidableEq, Repr, Inhabited

/-- One store of one byte in the order at its home (R185 rule 4): its number, the value before and
after, who published it and at which scope. -/
structure Ver where
  seq   : Nat
  addr  : Nat
  old   : Byte
  val   : Byte
  by_   : Place
  scope : BitVec 4
  /-- the number of its publication; 0 for a store that was complete at once -/
  pub   : Nat
  deriving DecidableEq, Repr, Inhabited

/-- A publication in flight: the strand, its scope, its stores not yet landed (R183, R185). -/
structure Publication where
  num   : Nat
  owner : StrandId
  rid   : Nat
  ctx   : BitVec 12
  scope : BitVec 4
  cells : List Host.Cell
  /-- remote stores numbered below this come first, for a publication at .ssys (R187) -/
  xsts  : Nat
  /-- its strand stands on the chip no more (R188) -/
  gone  : Bool := false
  deriving DecidableEq, Repr, Inhabited

/-- Memory: the newest byte at each home address in canonical form, the stores that made it in their
order, newest first, and the publications in flight, oldest first. -/
structure Memory where
  cells   : List Host.Cell
  hist    : List Ver
  nextSeq : Nat
  pubs    : List Publication
  nextPub : Nat
  /-- 64-byte lines of HBM that hold an uncorrectable data error (R359) -/
  bad     : List Nat
  deriving DecidableEq, Repr, Inhabited

/-! ### Rings and barriers -/

/-- A filled slot: its token with its number, whether it has been popped while an older one is still held,
the count of the freed-slot notice that leaves when the slot does (0 for none), whether an issued block or
a matrix task has reserved it (R50, R232), and its sticky state (R66, R67): HLIM and HCNT are those of the
head slot. -/
structure Slot where
  tok  : Token
  num  : Nat
  gone : Bool := false
  note : Nat := 0
  res  : Bool := false
  lim  : Option (BitVec 3) := none
  cnt  : Nat := 0
  /-- for `:loop`: the strand and the depth of the loop whose exit pops the token (R66) -/
  loop : Option (StrandId × Nat) := none
  deriving DecidableEq, Repr, Inhabited

/-- A ring (R194): WP is RP advanced by the filled slots. -/
structure Ring where
  id       : RingId
  ctx      : BitVec 12
  prodEl   : BitVec 22
  prodPort : BitVec 6
  consEl   : BitVec 22
  consPort : BitVec 6
  route    : Byte
  store    : Bool
  base     : BitVec 24
  slotszM1 : BitVec 12
  nslotM1  : Byte
  bond     : BitVec 2
  rp       : BitVec 9
  freeseen : Nat
  slots    : List Slot
  /-- tokens that have reached the ring since it was bound: the next one's number -/
  arrived  : Nat
  /-- tokens popped or released since the ring was bound: the deal counter (R293) -/
  popped   : Nat
  /-- free slots reserved by issued blocks (R50) -/
  fresv    : Nat
  /-- tokens pushed and not yet arrived, and freed-slot notices under way, oldest first -/
  transit  : List Token
  notices  : List Nat
  /-- producer-stall and consumer-starve cycles of the window (R304) -/
  stall    : BitVec 32
  starve   : BitVec 32
  /-- pushes since the stage began, and in the window -/
  pushes   : Nat
  winPush  : Nat
  /-- tokens pushed since the ring was bound: the merge counter (R293) -/
  merge    : Nat
  saved    : Bool
  deriving DecidableEq, Repr, Inhabited

/-- A barrier of a region (R215, R220). -/
structure Barrier where
  id    : BarId
  ctx   : BitVec 12
  addr  : BitVec 24
  obj   : BarObj
  saved : Bool
  deriving DecidableEq, Repr, Inhabited

/-- A barrier event on the barrier network (R217, R219): it leaves once the listed publications have
completed. -/
structure BarMsg where
  num    : Nat
  bar    : BarId
  ev     : BarEvent
  sender : Option StrandId
  /-- the sending unit (R217, R218) -/
  src    : Source
  block  : Addr
  index  : Nat
  pubs   : List Nat
  deriving DecidableEq, Repr, Inhabited

structure Channels where
  rings : List Ring
  bars  : List Barrier
  msgs  : List BarMsg
  nextMsg : Nat
  deriving DecidableEq, Repr, Inhabited

/-! ### Jobs and matrix islands -/

/-- Where a job stands: in the matcher, running, paused at a page, array occupancy over (R192, R226,
R363). -/
inductive JobState
  | waiting
  | running
  | paused
  | arrayDone
  deriving DecidableEq, Repr, Inhabited

/-- A region that a job reads or writes (R191). -/
inductive Foot
  /-- bytes `lo` to `hi - 1` by home or virtual address, rounded out to granules when compared -/
  | bytes (space : BitVec 3) (lo hi : Nat)
  /-- B-store bytes of every column of a matrix island -/
  | slice (island : Fin 4) (lo hi : Nat)
  | acc (t : StrandId) (c : Fin 4)
  | tile (t : StrandId) (n : Fin 8)
  | path (t : StrandId) (n : Fin 4)
  | ring (r : RingId)
  /-- the slot of a token that a task takes as A (R231) -/
  | slot (r : RingId) (n : Nat)
  deriving DecidableEq, Repr, Inhabited

/-- A job in a cluster's matcher (R192). -/
structure Job where
  num    : Nat
  /-- the strand or the node that submitted it -/
  owner  : Option StrandId
  node   : Option NodeId
  rid    : Nat
  ctx    : BitVec 12
  die    : Fin 4
  cl     : Fin 16
  /-- the region cluster of that cluster -/
  rc     : Fin 16
  seqno  : BitVec 16
  block  : Addr
  req    : JobReq
  reads  : List Foot
  writes : List Foot
  preds  : List Nat
  /-- publications of the strand that come first (R187) -/
  pubs   : List Nat
  state  : JobState
  /-- the number of the next store when the job was dispatched (R192) -/
  since  : Nat
  engine : Nat
  /-- the matrix island and slot that the job holds -/
  island : Fin 4
  slot   : Fin 4
  /-- ring-fed copies: the next slot and the slots that remain (R213, R214) -/
  nextK  : Nat
  left   : Nat
  /-- the number of the next store when it was submitted (R436) -/
  sub : Nat := 0
  /-- elements clipped so far, and the address at which the job pauses -/
  clipped : Nat := 0
  pausedAt : Nat := 0
  /-- its access is held at the port by a page that is being moved (R358) -/
  held : Bool := false
  /-- the token that a task's array has read, popped from its ring (R232) -/
  tok : Option Token := none
  /-- the tick in which a routing job came to its die's engine (R384) -/
  arrived : Option Nat := none
  deriving DecidableEq, Repr, Inhabited

/-- The state of an accumulator slot (R229). -/
inductive SlotState
  | free
  | bound (t : StrandId) (c : Fin 4)
  | held (job : Nat)
  | parked
  | stream
  deriving DecidableEq, Repr, Inhabited

/-- An accumulator slot: 128 x 128 FP32 values by `128 * i + j`, an unlisted one +0, and its flags. -/
structure AccSlot where
  state : SlotState
  vals  : SMap 32
  flags : BitVec 5
  deriving DecidableEq, Repr, Inhabited

/-- A matrix island: its four slots and MSFLG (R229, R235). -/
structure MatIsland where
  isl   : IslandId
  slots : Vector AccSlot 4
  msflg : BitVec 5
  deriving DecidableEq, Repr, Inhabited

/-- The completed CPYB jobs of a region that a restore replays (R246). -/
structure ReplayEntry where
  cl   : Fin 16
  req  : JobReq
  isls : BitVec 4
  lo   : Nat
  hi   : Nat
  deriving DecidableEq, Repr, Inhabited

structure Engines where
  jobs    : List Job
  nextJob : Nat
  mats    : List MatIsland
  deriving DecidableEq, Repr, Inhabited

/-! ### Kernels and regions -/

/-- The states of a kernel (R285). -/
inductive KState
  | loading | filling | steady | draining | retired | frozen | saved | killed
  deriving DecidableEq, Repr, Inhabited

/-- A node's own progress: firings in the window and in all, and what a firing holds over (R169, R193,
R236, R372). -/
structure NodeRun where
  el      : Nat
  rc      : Nat
  fired   : Nat
  winFired : Nat
  /-- streaming memory nodes: iteration counts, innermost first; copy nodes: slots done -/
  iter    : List Nat
  /-- the page fault record has been written and the node waits (R362) -/
  stuck   : Bool
  /-- writes of the stage not yet published (R169) -/
  wrote   : List Host.Cell
  /-- accesses parked or incomplete, and a held fence: a region number or none, and the token (R193) -/
  parked  : List (Option Nat × Bool × Token)
  /-- extent table: pages of the stream translated so far (R360) -/
  extent  : List (Nat × Word)
  /-- repeat node: the count and the tokens absorbed -/
  buffer  : List Token
  /-- collective unit: per element, the contributions in arrival order (R372, R373) -/
  contrib : List (BitVec 20 × List Lane)
  /-- collective unit: elements delivered to each peer (R348) -/
  delivered : List (BitVec 20 × Nat)
  failed  : Bool
  /-- the number of the next store when its stage began (R169) -/
  since   : Nat
  /-- its access is held at the port by a page that is being moved (R358) -/
  held    : Bool := false
  /-- the address at which it stopped (R362) -/
  stuckAt : Nat := 0
  deriving DecidableEq, Repr, Inhabited

/-- An island as the Lehr sees it for a region's solution. -/
structure Solution where
  /-- die island number and target m -/
  targets : List (Nat × Nat)
  short   : Bool
  rate    : Nat
  /-- the tick by which it completes (R304) -/
  due     : Nat
  deriving DecidableEq, Repr, Inhabited

/-- What a save captured of a region (R345, R346): plain copies of its parts. -/
structure SaveArea where
  /-- GLOBAL address of the area's header, and the area's bytes as they were written -/
  at_     : Nat
  image   : List Byte
  gangs   : List Gang
  events  : List EventQueue
  mats    : List MatIsland
  rings   : List Ring
  bars    : List Barrier
  jobs    : List Job
  nodes   : List NodeRun
  cells   : List Host.Cell
  deriving DecidableEq, Repr, Inhabited

/-- A region: one placed copy of a kernel (R20, R285, R310). -/
structure Region where
  rid     : Nat
  die     : Fin 4
  ctx     : BitVec 12
  /-- the queue it came from, or the pending-launch entry's ticket and cluster -/
  queue   : Option (BitVec 11)
  ticket  : Option (BitVec 16 × Fin 4 × Fin 16)
  prio    : Nat
  /-- number of the launch this region belongs to, and its DIE index -/
  launch  : Nat
  dieIdx  : Nat
  recd    : List Byte
  /-- the entries of DEVTAB, as the record's check read them (R310) -/
  devs    : List Nat
  handles : Vector Handle 16
  /-- the stage streams as words, in stage order; none where absent -/
  streams : List (Option (List (BitVec 32)))
  /-- element fields in force: element address, field, value (R279) -/
  config  : List (Nat × Nat × Nat)
  /-- physical cluster of each region cluster; physical index of each region (cluster, type, index) -/
  cmap    : List (Fin 16)
  imap    : List ((Nat × Nat × Nat) × Nat)
  state   : KState
  /-- the state a FROZEN or SAVED region returns to -/
  before  : KState
  cur     : Fin 8
  pend    : Bool
  target  : Fin 8
  /-- the tick at which the request that holds was taken, and its place among those of one tick: a trigger's stage, 8 for
  STAGE (R288, R289) -/
  pendAt  : Nat × Nat
  switches : BitVec 32
  nodes   : List NodeRun
  /-- trigger counts of the stage, by trigger (R288) -/
  trig    : List Nat
  /-- T in force (48.16), solutions applied, SHORT, a solution that awaits completion or application -/
  rate    : Nat
  solves  : BitVec 16
  short   : Bool
  solution : Option Solution
  /-- the solution in force: die island number and m (R296, R307) -/
  targets : List (Nat × Nat)
  /-- the tick at which the measuring window began, and the cycles in it of the islands of the output's producer and
  consumer (R304) -/
  winAt   : Nat
  winEdges : Nat × Nat
  /-- KTIME counters by 4k + j, ISLSTALL and ISLSTARVE by island -/
  ktime   : List (Nat × BitVec 48)
  stallI  : List (Nat × BitVec 48)
  starveI : List (Nat × BitVec 48)
  /-- the watchdog's count in ticks, and the ticks of the slice used (R329, R331) -/
  dog     : Nat
  slice   : Nat
  /-- the ticks for which it has run (R328) -/
  ran     : Nat
  /-- the first fault delivered, its tick and its unit's place in the order of R217, and records not yet written to the
  fault queue (R343, R347) -/
  firstFault : Option FaultCode
  faultAt : Nat × Nat
  waiting : List FaultWait
  /-- a kill that waits for the region's issued blocks, with the status of its completion record (R54) -/
  dying   : Option (Option Nat)
  /-- a save is under way; it is the one that the watchdog requested; the watchdog has requested one since the region
  last made progress (R331, R332) -/
  saving  : Bool
  dogSave : Bool
  dogAsked : Bool
  /-- it was killed to make room and waits to be relaunched (R329) -/
  again   : Bool
  /-- the queue engine has chosen the SAVED region to be restored (R327) -/
  restore : Bool
  /-- the tick since which a page that a stream or a job of it waits for is being serviced (R348) -/
  service : Option Nat
  /-- stage requests under way, in the order they were sent (R289, R292) -/
  asks    : List (Fin 8)
  replay  : List ReplayEntry
  area    : Option SaveArea
  /-- discarded tokens at retire -/
  lost    : Nat
  deriving DecidableEq, Repr, Inhabited

/-! ### Islands, dies and clocks -/

/-- The clock and the thermal state of an island (R303, R306, R307, R410). -/
structure Island where
  key    : IslandKey
  m      : Nat
  target : Nat
  ratio  : BitVec 2
  /-- tick at which the ratio switch in progress ends, and the ratio it brings -/
  switch : Option (Nat × BitVec 2)
  gated  : Bool
  /-- tick at which a wake-up ends -/
  waking : Option Nat
  /-- tick since which m is 0 with nothing held -/
  idleAt : Option Nat
  allow  : Nat
  trip   : Bool
  frozen : Bool
  deriving DecidableEq, Repr, Inhabited

/-- An expert slot register (R386); INUSE is what the running kernels' footprints say. -/
structure ExSlot where
  valid  : Bool
  pin    : Bool
  prob   : Byte
  cost   : Byte
  expert : BitVec 16
  /-- the model's own: the tick after the last SWR to it, 0 before any (R387) -/
  wrote  : Nat
  deriving DecidableEq, Repr, Inhabited

/-- A compute die: its frame counter, master setting, power terms, refresh windows, fences and expert
slots. -/
structure Die where
  frame   : Nat
  boost   : Bool
  pcap    : Nat
  share   : Nat
  meas    : Nat
  /-- power caps of partitions on the die (R412); one not listed is 64 -/
  pcaps   : List (BitVec 5 × Nat)
  /-- refresh: S = 73 in force, the next window's tick and bank group, groups now refreshing
  with the tick at which each window ends (R167) -/
  hot     : Bool
  /-- quarters of a master cycle since the frame began, and islands raised at this boundary (R302, R307) -/
  phase   : Nat
  rises   : Nat
  /-- the boost decided, in force from a frame boundary on (R302, R413) -/
  want    : Bool
  /-- the die's power samples of the control window, and the sample tick last taken plus one (R408, R412) -/
  powSum  : Nat
  sampled : Nat
  wsTick  : Nat
  wsBg    : Fin 32
  wsBusy  : List (Fin 32 × Nat)
  fenced  : List (Fin 32)
  exslots : Vector ExSlot 32
  deriving DecidableEq, Repr, Inhabited

structure Clocks where
  islands : List Island
  dies    : Vector Die 4
  /-- the newest sample of each sensor and the one before (R408, R416) -/
  sensors : SMap 16
  before  : SMap 16
  /-- the package's power samples of the control window, and the tick of the window last closed
  (R410, R413) -/
  pkgSum  : Nat
  winAt   : Nat
  /-- the tick of the last reset, since which an island never used is idle (R306) -/
  since   : Nat
  deriving DecidableEq, Repr, Inhabited

/-! ### The hub -/

/-- A hardware queue (R323, R324). -/
structure Queue where
  num     : BitVec 11
  base    : Word
  size    : Nat
  prio    : Nat
  ctx     : BitVec 12
  part    : BitVec 5
  enable  : Bool
  wden    : Bool
  head    : BitVec 32
  tail    : BitVec 32
  t1      : Nat
  t2      : Nat
  t3      : Nat
  rto     : Nat
  faulted : Bool
  /-- a reserved byte of the descriptor is not zero -/
  bad     : Bool
  deriving DecidableEq, Repr, Inhabited

/-- The states of a context (R338). -/
inductive CtxState
  | closed | open_ | teardown
  deriving DecidableEq, Repr, Inhabited

/-- A context (R337). -/
structure Ctx where
  num    : BitVec 12
  state  : CtxState
  ptroot : Word
  fqbase : Word
  fqsize : Nat
  part   : BitVec 5
  maint  : Bool
  priv   : Bool
  fie    : Bool
  fiv    : Byte
  fsave  : Nat
  fatal  : BitVec 32
  maxisl : Nat
  maxq   : Nat
  carea  : Word
  casize : Word
  fqhead : Word
  fqtail : Word
  /-- the evictor's clock hand (R368) -/
  hand   : Addr
  bad    : Bool
  deriving DecidableEq, Repr, Inhabited

/-- An interrupt vector of a partition (R340). -/
structure IntVec where
  part   : BitVec 5
  num    : Byte
  node   : BitVec 20
  addr   : BitVec 56
  cnt    : Byte
  time   : BitVec 16
  pend   : BitVec 12
  en     : Bool
  /-- tick of the oldest pending event -/
  oldest : Nat
  deriving DecidableEq, Repr, Inhabited

/-- A threshold subscription (R415, R416). -/
structure Subscription where
  part   : BitVec 5
  num    : BitVec 6
  sensor : BitVec 12
  value  : BitVec 16
  hyst   : BitVec 16
  en     : Bool
  falling : Bool
  int    : Bool
  ivec   : Byte
  addr   : Word
  armed  : Bool
  deriving DecidableEq, Repr, Inhabited

/-- A partition's shares of HBM, link, power and islands in 1/256, and ISO (R340). -/
structure Partition where
  num    : BitVec 5
  hbm    : Byte
  link   : Byte
  power  : Byte
  island : Byte
  iso    : Bool
  deriving DecidableEq, Repr, Inhabited

/-- The states of a port (R369). -/
inductive PortState
  | down | training | up | half | fenced
  deriving DecidableEq, Repr, Inhabited

/-- A Fariq Link port: its state and the failed retries of the flit at its head. -/
structure Port where
  state   : PortState
  retries : Nat
  deriving DecidableEq, Repr, Inhabited

/-- An entry of a cluster's pending-launch store (R330). -/
structure PendingLaunch where
  die    : Fin 4
  cl     : Fin 16
  ticket : BitVec 16
  /-- its place in the order of age (R327) -/
  age    : Nat
  recd   : List Byte
  ctx    : BitVec 12
  prio   : Nat
  taken  : Bool
  deriving DecidableEq, Repr, Inhabited

/-- A record that has been taken and waits for placement, for its regions to retire, or for its
completion record (R326-R329). -/
structure Launch where
  num    : Nat
  queue  : Option (BitVec 11)
  index  : BitVec 32
  ticket : Option (BitVec 16 × Fin 4 × Fin 16)
  recd   : List Byte
  ctx    : BitVec 12
  prio   : Nat
  placed : Bool
  done   : Bool
  deriving DecidableEq, Repr, Inhabited

/-- A remote request under way (R52, R374): who awaits it, since which tick, with what it carries. -/
structure RemoteReq where
  num    : Nat
  owner  : StrandId
  rid    : Nat
  ctx    : BitVec 12
  dev    : BitVec 20
  since  : Nat
  block  : Addr
  index  : Nat
  acc    : CommitAccess
  /-- old values of lanes that are known: of the lanes whose home is local, and of other devices' lanes (R178) -/
  got    : List (Nat × Lane)
  /-- the issue of its block, and whether a request of the same access has failed (R52) -/
  issue  : Nat
  failed : Bool := false
  deriving DecidableEq, Repr, Inhabited

/-- A remote store under way (R375). -/
structure Xst where
  num    : Nat
  owner  : StrandId
  rid    : Nat
  ctx    : BitVec 12
  dev    : BitVec 20
  va     : Word
  z      : Nat
  data   : Word
  block  : Addr
  index  : Nat
  /-- the tick at which it left its block, from which RTO runs (R54, R332) -/
  since  : Nat
  deriving DecidableEq, Repr, Inhabited

/-- A translation held by the page unit of a die (R361). -/
structure TlbEntry where
  die   : Fin 4
  ctx   : BitVec 12
  va    : Addr
  /-- page size code: 0 64 KiB, 1 64 MiB, 2 64 GiB -/
  size  : Nat
  leaf  : Word
  entry : Nat
  deriving DecidableEq, Repr, Inhabited

/-- A page-table walk under way (R361). -/
structure Walk where
  num   : Nat
  die   : Fin 4
  ctx   : BitVec 12
  va    : Addr
  write : Bool
  deriving DecidableEq, Repr, Inhabited

structure Pages where
  tlb   : List TlbEntry
  /-- what translation goes by: spans of a context's addresses, newest first, each with the number of the first store
  to the tables that it does not see yet (R435, R365) -/
  since : List (BitVec 12 × Nat × Nat × Nat)
  /-- the hub's page-command queue, oldest first (R364) -/
  cmds  : List PageCmd
  walks : List Walk
  nextWalk : Nat
  deriving DecidableEq, Repr, Inhabited

/-- A write the device sends over the fabric to a host or peer. -/
structure FabWrite where
  node  : BitVec 20
  addr  : Word
  bytes : List Byte
  deriving DecidableEq, Repr, Inhabited

/-- The life-cycle states (R421). -/
inductive Life
  | manufacture | provisioned | deployed | diagnostic | decommissioned
  deriving DecidableEq, Repr, Inhabited

/-- What fuses hold, the boot store and the boot status (R421-R424). -/
structure Boot where
  life    : Life
  device  : BitVec 20
  pubkey  : List Byte
  cert    : List Byte
  minSvn  : Nat
  store   : SMap 8
  /-- 0 in ROM, 1 recovery, 2 firmware running, 3 ready for contexts -/
  status  : Nat
  deriving DecidableEq, Repr, Inhabited

/-- An entry of the hub's window table (R371). -/
structure Window where
  num    : BitVec 12
  device : BitVec 20
  base   : Word
  ctx    : BitVec 12
  deriving DecidableEq, Repr, Inhabited

structure Hub where
  queues   : List Queue
  ctxs     : List Ctx
  parts    : List Partition
  vectors  : List IntVec
  subs     : List Subscription
  ports    : Vector Port 24
  windows  : List Window
  pending  : List PendingLaunch
  /-- next ticket of each cluster, by 16 * die + cluster -/
  tickets  : SMap 16
  launches : List Launch
  nextLaunch : Nat
  nextRid  : Nat
  remote   : List RemoteReq
  xsts     : List Xst
  nextReq  : Nat
  pages    : Pages
  errors   : List (List Byte)
  /-- fault records of the hub itself that are not yet written (R343) -/
  waiting  : List (BitVec 12 × FaultWait)
  /-- the rotation of arbitration: level, partition, turns taken, and the queue or entry last served (R327) -/
  turns    : List (Nat × BitVec 5 × Nat × Nat)
  /-- the sequence fields of units other than strands, by die and strand field of the tag triple (R339) -/
  seqs     : SMap 16
  outbox   : List FabWrite
  /-- writes for which no port was ready when they were made (R369) -/
  unsent   : List FabWrite
  /-- writes of the hub held by a page that is being moved, each with the interrupt that follows it (R358) -/
  held     : List (BitVec 12 × Nat × List Byte × Option (BitVec 5 × Byte))
  boot     : Boot
  /-- PWRCFG in force and as written for the next window (R409) -/
  pwrcfg   : Word
  pwrnext  : Word
  deriving DecidableEq, Repr, Inhabited

/-! ### Recorders, capsule and debug stop -/

/-- A recorder: its unit, its write count, its records oldest first, and whether it has stopped (R388,
R393). -/
structure Recorder where
  unit    : BitVec 20
  count   : Nat
  recs    : List (BitVec 256)
  stopped : Bool
  deriving DecidableEq, Repr, Inhabited

/-- The states of the capsule (R395). -/
inductive CapState
  | empty | frozen | sealed_ | retrieved
  deriving DecidableEq, Repr, Inhabited

/-- A section of the capsule: context and kind, its records in capsule order (R396). -/
structure Section where
  ctx     : BitVec 12
  kind    : Byte
  recs    : List (BitVec 256)
  /-- the context was in partition 0 when the capsule was sealed (R397) -/
  own     : Bool
  deriving DecidableEq, Repr, Inhabited

structure Capsule where
  state    : CapState
  cause    : Byte
  t        : Nat
  h        : Nat
  tcut     : Nat
  ctx      : BitVec 12
  unit     : BitVec 20
  strand   : Byte
  life     : Byte
  lost     : Nat
  sections : List Section
  /-- the signature sealed with it -/
  signature : List Byte
  deriving DecidableEq, Repr, Inhabited

structure Debug where
  recorders : List Recorder
  capsule   : Capsule
  /-- a warm reset waits for SEALED (R399) -/
  resetHeld : Bool
  /-- RECCFG (R392) -/
  horizon   : BitVec 12
  sample    : BitVec 16
  caten     : BitVec 14
  /-- the armed debug stop, and whether every clock is gated; then the tick since which (R400) -/
  stop      : Option Nat
  stopped   : Bool
  /-- fatal faults of the tick: unit order, context, code and source (R393, R394) -/
  fatals    : List (Nat × BitVec 12 × FaultCode × Source)
  deriving DecidableEq, Repr, Inhabited

/-! ### The state -/

/-- The whole machine. -/
structure State where
  /-- the block at work -/
  x      : Flight
  fab    : Fabric
  mem    : Memory
  chan   : Channels
  eng    : Engines
  kern   : List Region
  clk    : Clocks
  hub    : Hub
  dbg    : Debug
  /-- the global tick (R1) -/
  tick   : Nat
  /-- the model's own: free values drawn outside blocks -/
  free   : Nat
  /-- the model's own: who moves next -/
  agenda : List Turn
  /-- the model's own: what the event at work acts on -/
  arg    : EvArg
  deriving DecidableEq, Repr, Inhabited

/-! ### Reset -/

/-- An invalid bounds handle: every field zero (R161). -/
def Handle.none : Handle := ⟨0, 0, false, 0, false, false, false⟩

/-- A freshly allocated vector register of `n` lanes: RAW, zero, sidecar 0x7F (R81). -/
def VReg.fresh (n : Nat) : VReg := ⟨List.replicate n 0, .raw, List.replicate (n / 4) 0x7f⟩

/-- A freshly allocated tile (R79). -/
def Tile.fresh : Tile := ⟨[], [], .raw⟩

/-- A path-trace register at launch: every bit zero (R249). -/
def PathReg.zero : PathReg := ⟨0, []⟩

/-- One lane's generator after a seed is written (R98). -/
def genSeed (seed : Lane) (i : Nat) : Lane :=
  let g := seed ^^^ (0x9e3779b9 * BitVec.ofNat 32 (i + 1))
  if g = 0 then 1 else g

/-- The registers of a strand of a gang of `n` lanes at launch, its stack and handles aside. -/
def Regs.launch (n : Nat) : Regs where
  s := .replicate 64 0
  p := .replicate 16 0
  v := .replicate 64 (VReg.fresh n)
  t := .replicate 8 Tile.fresh
  d := .replicate 4 PathReg.zero
  acc := .replicate 4 .unbound
  lc := .replicate 3 0
  loops := []
  lbuf := []
  b := .replicate 16 Handle.none
  fmode := 0
  fflags := 0
  gens := (List.range n).map (genSeed 0)
  agelim := 16
  role := 0b10
  trapvec := 0
  trappc := 0
  trapcode := 0
  intrap := false
  rtsst := 0
  jobctr := 0

/-- No block at work. -/
def Flight.idle : Flight where
  active := false
  who := ⟨⟨⟨0, 0, 0⟩, false, 0⟩, 0⟩
  rid := 0
  ctx := 0
  nlanes := 0
  nvregs := 0
  ntiles := 0
  pc := 0
  words := 0
  ninsnM1 := 0
  todo := []
  idx := 0
  nextIdx := 0
  r0 := Regs.launch 0
  r := Regs.launch 0
  views := []
  bars := []
  srs := []
  wait := 0
  tick := 0
  frame := 0
  evhead := none
  maint := false
  priv := false
  part := 0
  victim := 0
  capst := 0
  capsz := 0
  capszOp := 0
  staged := []
  grans := []
  granFree := 0
  granOld := []
  accs := []
  fx := []
  exit := none
  access := none
  accIdx := 0
  fault := none
  held := false
  yield := false
  entry := false
  evres := []
  issue := 0
  nonce := 0
  seen := []
  reqs := 0
  late := []
  first := []
  again := 0

/-- An expert slot at reset (R386). -/
def ExSlot.reset : ExSlot := ⟨false, false, 0, 0, 0, 0⟩

/-- A die at reset (R412, R414, R386); the first refresh window stands one spacing on, at bank group
0. -/
def Die.reset : Die where
  frame := 0
  boost := false
  pcap := 64
  share := 0
  meas := 0
  pcaps := []
  hot := false
  phase := 0
  rises := 0
  want := false
  powSum := 0
  sampled := 0
  wsTick := 146
  wsBg := 0
  wsBusy := []
  fenced := []
  exslots := .replicate 32 ExSlot.reset

/-- The life cycle and the boot store at reset: no key, an empty store (R421, R423). -/
def Boot.reset : Boot where
  life := .manufacture
  device := 0
  pubkey := []
  cert := []
  minSvn := 0
  store := []
  status := 0

/-- The hub at reset: every table empty (R420), every port DOWN (R369), PWRCFG at its reset value
(R409). -/
def Hub.reset : Hub where
  queues := []
  ctxs := []
  parts := []
  vectors := []
  subs := []
  ports := .replicate 24 ⟨.down, 0⟩
  windows := []
  pending := []
  tickets := []
  launches := []
  nextLaunch := 0
  nextRid := 0
  remote := []
  xsts := []
  nextReq := 0
  pages := ⟨[], [], [], [], 0⟩
  errors := []
  waiting := []
  turns := []
  seqs := []
  outbox := []
  unsent := []
  held := []
  boot := Boot.reset
  pwrcfg := 0x000173005f000960
  pwrnext := 0x000173005f000960

/-- An empty capsule (R395, R399). -/
def Capsule.empty : Capsule where
  state := .empty
  cause := 0
  t := 0
  h := 0
  tcut := 0
  ctx := 0
  unit := 0
  strand := 0
  life := 0
  lost := 0
  sections := []
  signature := []

/-- Recorders empty, RECCFG at its reset value (R392), no debug stop. -/
def Debug.reset : Debug where
  recorders := []
  capsule := Capsule.empty
  resetHeld := false
  horizon := 1024
  sample := 256
  caten := 0x3fff
  stop := none
  stopped := false
  fatals := []

/-- The machine right after reset: every memory zero, every table empty (R420). -/
def State.reset : State where
  x := Flight.idle
  fab := ⟨[], [], [], []⟩
  mem := ⟨[], [], 1, [], 1, []⟩
  chan := ⟨[], [], [], 0⟩
  eng := ⟨[], 0, []⟩
  kern := []
  clk := ⟨[], .replicate 4 Die.reset, [], [], 0, 0, 0⟩
  hub := Hub.reset
  dbg := Debug.reset
  tick := 0
  free := 0
  agenda := []
  arg := .none

end Sys2Proof.Machine
end

