-- ==== Sys2Proof/Machine/Flags.lean ====
section
/-!
DEFINITION. The flag computations: FFLAGS as a block's instructions raise and write it (R91, R92,
R101), and the flags of float comparisons (R135).
-/
namespace Sys2Proof.Machine

/-- FFLAGS with flags raised by an instruction ORed in (R92, R101). -/
def Regs.raiseFlags (r : Regs) (f : BitVec 5) : Regs := { r with fflags := r.fflags ||| f }

/-- FFLAGS as a write of the special register leaves it (R91, R92): flags raised by instructions of
lower index are overwritten. -/
def Regs.writeFlags (r : Regs) (v : Word) : Regs := { r with fflags := v.truncate 5 }

/-- The OR of flags over elements (R101). -/
def orFlags (l : List Res) : BitVec 5 := l.foldl (fun f r => f ||| r.flags) 0

/-- NV of a float comparison: any NaN for the ordering conditions 2 to 5, a signalling one for the
others (R135). -/
def cmpFlags (c : Nat) (a b : Num) : BitVec 5 :=
  if 2 ≤ c ∧ c ≤ 5 then (if a.isNan || b.isNan then fNV else 0) else sigFlag [a, b]

/-- The condition of a float comparison (R135). -/
def cmpHolds (c : Nat) (a b : Num) : Bool :=
  let un := a.isNan || b.isNan
  let o := a.cmp b
  match c with
  | 0 => !un && o == 0
  | 1 => un || o != 0
  | 2 => !un && decide (o < 0)
  | 3 => !un && decide (o ≤ 0)
  | 4 => !un && decide (0 < o)
  | 5 => !un && decide (0 ≤ o)
  | 6 => !un
  | _ => un

/-- The condition codes of CMP, CMPU and VICMP on integers (R113, R148). -/
def intCond (c : Nat) (a b : Int) : Bool :=
  match c with
  | 0 => a == b
  | 1 => a != b
  | 2 => decide (a < b)
  | 3 => decide (a ≤ b)
  | 4 => decide (b < a)
  | _ => decide (b ≤ a)

/-- The quantity flags of an accumulator as a matrix job leaves them: DZ never arises (R101, R235). -/
def matrixFlags (f : BitVec 5) : BitVec 5 := f &&& 0b11101

end Sys2Proof.Machine
end

