-- ==== Sys2Proof/Machine/Ops.lean ====
section
/-!
DEFINITION. The named operations of the machine: registers and guards of the block at work, raising a
fault in it, home addresses, bounds (R162), translation (R355-R358), what a load may return (R185),
staging of stores (R182, R183), looking up and replacing units, recorders (R388-R392), interrupts (R340),
and TAKING A FAULT: the one operation `deliver` (R343, R344) that freezes the region, writes its record
and, for a fatal fault, starts the freeze (R393) and kills; with the return from it, `resumeRegion`.
-/
namespace Sys2Proof.Machine

/-! ### Registers of the block at work -/

/-- What a meaning answers. -/
abbrev Out := Host.Outcome State Fault Refusal

/-- The state with the block at work replaced. -/
def State.setX (s : State) (x : Flight) : State := { s with x := x }

/-- An instruction of a block: it works on the block alone and stages its effects (R51). -/
def act (s : State) (x : Flight) : Out := .next (s.setX x)

/-- A scalar register as last written by the block; s0 reads zero (R77, R49). -/
def Regs.rdS (r : Regs) (n : BitVec 6) : Word := if n = 0 then 0 else r.s[n.toNat]'n.isLt

/-- A scalar register written; a write of s0 is ignored (R65, R77). -/
def Regs.wrS (r : Regs) (n : BitVec 6) (v : Word) : Regs :=
  if n = 0 then r else { r with s := r.s.set n.toNat v n.isLt }

/-- The bits of the lanes a gang has. -/
def laneMask (n : Nat) : BitVec 128 := BitVec.ofNat 128 (2 ^ n - 1)

/-- A predicate register; p15 reads true in every lane (R77). -/
def Regs.rdP (r : Regs) (lanes : Nat) (n : BitVec 4) : BitVec 128 :=
  if n = 15 then laneMask lanes else (r.p[n.toNat]'n.isLt) &&& laneMask lanes

/-- A predicate register written; a write of p15 is discarded (R65). -/
def Regs.wrP (r : Regs) (lanes : Nat) (n : BitVec 4) (v : BitVec 128) : Regs :=
  if n = 15 then r else { r with p := r.p.set n.toNat (v &&& laneMask lanes) n.isLt }

/-- A vector register. -/
def Regs.rdV (r : Regs) (n : BitVec 6) : VReg := r.v[n.toNat]'n.isLt

/-- A vector register written. -/
def Regs.wrV (r : Regs) (n : BitVec 6) (v : VReg) : Regs := { r with v := r.v.set n.toNat v n.isLt }

/-- A tile register by the low three bits of its field. -/
def Regs.rdT (r : Regs) (n : BitVec 4) : Tile := r.t[n.toNat % 8]'(Nat.mod_lt _ (by decide))

/-- A tile register written. -/
def Regs.wrT (r : Regs) (n : BitVec 4) (v : Tile) : Regs :=
  { r with t := r.t.set (n.toNat % 8) v (Nat.mod_lt _ (by decide)) }

/-- A path-trace register by the low two bits of its field (R62). -/
def Regs.rdD (r : Regs) (n : BitVec 4) : PathReg := r.d[n.toNat % 4]'(Nat.mod_lt _ (by decide))

/-- A path-trace register written. -/
def Regs.wrD (r : Regs) (n : BitVec 4) (v : PathReg) : Regs :=
  { r with d := r.d.set (n.toNat % 4) v (Nat.mod_lt _ (by decide)) }

/-- An accumulator name by the low two bits of its field (R62). -/
def accOf (n : BitVec 4) : Fin 4 := ⟨n.toNat % 4, Nat.mod_lt _ (by decide)⟩

/-- A bounds handle. -/
def Regs.rdB (r : Regs) (n : BitVec 4) : Handle := r.b[n.toNat]'n.isLt

/-- A bounds handle written. -/
def Regs.wrB (r : Regs) (n : BitVec 4) (h : Handle) : Regs := { r with b := r.b.set n.toNat h n.isLt }

/-- A scalar register as the block at work reads it (R49). -/
def Flight.rdS (x : Flight) (n : BitVec 6) : Word := x.r.rdS n

/-- A scalar register as it stood at block start (R49). -/
def Flight.startS (x : Flight) (n : BitVec 6) : Word := x.r0.rdS n

/-- A scalar register written by the block at work (R51). -/
def Flight.wrS (x : Flight) (n : BitVec 6) (v : Word) : Flight :=
  { x with r := x.r.wrS n v }

/-- Flags raised by the block at work (R92). -/
def Flight.flag (x : Flight) (f : BitVec 5) : Flight := { x with r := x.r.raiseFlags f }

/-- A scalar written with a value that the commit settles: the one that the block has used before, else 0 until the
commit finds it otherwise and has the block run again (R49, R207, R406). -/
def Flight.wrLate (x : Flight) (n : BitVec 6) : Flight :=
  let x := if x.late.any (·.1 == x.idx) then x else { x with late := (x.idx, 0) :: x.late }
  x.wrS n (((x.late.find? (·.1 == x.idx)).map (·.2)).getD 0)

/-- An effect of the block at work for its commit (R51, R186). -/
def Flight.stage (x : Flight) (f : Fx) : Flight := { x with fx := x.fx ++ [f] }

/-! ### Guards (R69) -/

/-- The lanes in which a guard is true. -/
def Flight.guard (x : Flight) (g : Guard) : BitVec 128 :=
  let p := x.r.rdP x.nlanes g.pred
  if g.neg then ~~~p &&& laneMask x.nlanes else p

/-- Whether an instruction that acts once per strand is guarded on: lane 0 (R69). -/
def Flight.on0 (x : Flight) (g : Guard) : Bool := (x.guard g).getLsbD 0

/-- An instruction that acts once per strand: guarded off it does nothing (R69). -/
def Flight.scalarAct (x : Flight) (g : Guard) (f : Flight → Flight) : Flight :=
  if x.on0 g then f x else x

/-- An instruction that reads its guard in each lane: guarded off in every lane it does nothing
(R69). -/
def Flight.laneAct (x : Flight) (g : Guard) (f : BitVec 128 → Flight → Flight) : Flight :=
  let m := x.guard g
  if m = 0 then x else f m x

/-! ### A fault in the block (R53) -/

/-- The block at work with a fault raised by the instruction at work; the first one stands, which is
the one of the lowest index (R53). -/
def Flight.fail (x : Flight) (f : FaultInfo) : Flight :=
  match x.fault with
  | some _ => x
  | none => { x with fault := some { f with block := x.pc.setWidth 56, index := x.idx } }

/-- A fault with no report beyond its code. -/
def Flight.failCode (x : Flight) (c : FaultCode) : Flight := x.fail { code := c }

/-! ### Home addresses -/

/-- A physical HBM address, of 52 bits (R355). DEDUCED: a root's bits above them are ignored. -/
def homeHbm (pa : Nat) : Nat := pa % 2 ^ 52

/-- The bytes of the package's HBM (R13). DESIGN CHOICE: its eight stacks stand at physical addresses from 0 on
without a gap. -/
def hbmBytes : Nat := 768000000000

/-- A weight-store byte of a die (R166), from an offset that has passed its bounds; bits that the space does not
have, 63:56 of a pointer among them, are ignored (R160). -/
def homeWeight (die : Fin 4) (off : Nat) : Nat := 2 ^ 60 + die.val * 2 ^ 34 + off % 2 ^ 34

/-- A cluster-store byte (R165). -/
def homeCluster (die : Fin 4) (cl : Fin 16) (off : Nat) : Nat :=
  2 ^ 61 + (die.val * 16 + cl.val) * 2 ^ 24 + off % 2 ^ 24

/-- A cell-memory byte of a fabric island (R163). -/
def homeCell (i : IslandId) (byte : Nat) : Nat :=
  2 ^ 62 + ((i.die.val * 16 + i.cluster.val) * 4 + i.island.val) * 2 ^ 21 + byte

/-- A byte of column `col` of a B-store slice (R227). -/
def homeB (i : IslandId) (col off : Nat) : Nat :=
  2 ^ 63 + ((i.die.val * 16 + i.cluster.val) * 4 + i.island.val) * 2 ^ 23 + col * 49152 + off

/-- A byte of host or peer memory through a window (R371). -/
def homeFab (win off : Nat) : Nat := 2 ^ 64 + win * 2 ^ 40 + off

/-- Whether a home is cell memory. -/
def isCellHome (h : Nat) : Bool := decide (2 ^ 62 ≤ h ∧ h < 2 ^ 63)

/-- Whether a home lies in host or peer memory. -/
def isFabHome (h : Nat) : Bool := decide (2 ^ 64 ≤ h)

/-- Whether a home lies in a weight store. -/
def isWeightHome (h : Nat) : Bool := decide (2 ^ 60 ≤ h ∧ h < 2 ^ 61)

/-- Whether a home has a byte behind it: HBM ends at the package's 768 GB, and a die's weight store at its 12 GiB
(R13). -/
def homeExists (h : Nat) : Bool :=
  if h < 2 ^ 60 then decide (h < hbmBytes) else !isWeightHome h || decide ((h - 2 ^ 60) % 2 ^ 34 < 0x300000000)

/-- The die and bank group of a weight-store home (R166). -/
def weightBank (h : Nat) : Nat × Nat :=
  ((h - 2 ^ 60) / 2 ^ 34, (h - 2 ^ 60) % 2 ^ 34 / 402653184)

/-! ### Looking up and replacing units -/

/-- The first element that meets a test, replaced by a function of it. -/
def modFirst {α : Type} (p : α → Bool) (f : α → α) : List α → List α
  | [] => []
  | a :: l => if p a then f a :: l else a :: modFirst p f l

/-- The block at work put back among the blocks in flight. -/
def State.parkX (s : State) : State :=
  if s.x.active then
    { s with x := Flight.idle, fab := { s.fab with flights := s.x :: s.fab.flights } }
  else s

/-- The region of a number. -/
def State.region (s : State) (rid : Nat) : Option Region := s.kern.find? (·.rid == rid)

/-- The region of a number replaced by a function of it. -/
def State.modRegion (s : State) (rid : Nat) (f : Region → Region) : State :=
  { s with kern := modFirst (·.rid == rid) f s.kern }

/-- The gang or Gaffer core at a place. -/
def State.gang (s : State) (q : Seq) : Option Gang := s.fab.gangs.find? (·.seq == q)

/-- A gang replaced by a function of it. -/
def State.modGang (s : State) (q : Seq) (f : Gang → Gang) : State :=
  { s with fab := { s.fab with gangs := modFirst (·.seq == q) f s.fab.gangs } }

/-- A strand. -/
def State.strand (s : State) (t : StrandId) : Option Strand :=
  (s.gang t.seq).bind fun g => g.strands.find? (·.num == t.num)

/-- A strand replaced by a function of it. -/
def State.modStrand (s : State) (t : StrandId) (f : Strand → Strand) : State :=
  s.modGang t.seq fun g => { g with strands := modFirst (·.num == t.num) f g.strands }

/-- A context; one that the hub's table does not list is CLOSED with every field zero (R420). -/
def State.ctx (s : State) (c : BitVec 12) : Ctx :=
  (s.hub.ctxs.find? (·.num == c)).getD
    ⟨c, .closed, 0, 0, 0, 0, false, false, false, 0, 0, 0, 0, 0, 0, 0, 0, 0, 0, false⟩

/-- A context replaced. -/
def State.setCtx (s : State) (c : Ctx) : State :=
  { s with hub := { s.hub with ctxs := c :: s.hub.ctxs.filter (·.num != c.num) } }

/-- A queue. -/
def State.queue (s : State) (q : BitVec 11) : Option Queue := s.hub.queues.find? (·.num == q)

/-- A queue that nothing has written: DISABLED, its HEAD and TAIL at zero. -/
def Queue.blank (n : BitVec 11) : Queue :=
  ⟨n, 0, 0, 0, 0, 0, false, false, 0, 0, 0, 0, 0, 0, false, false⟩

/-- A queue of the device's 2,048 as it stands, written before or not (R323). -/
def State.queueAt (s : State) (q : BitVec 11) : Queue := (s.queue q).getD (Queue.blank q)

/-- A queue replaced by a function of it. -/
def State.modQueue (s : State) (q : BitVec 11) (f : Queue → Queue) : State :=
  { s with hub := { s.hub with
      queues := if s.hub.queues.any (·.num == q) then modFirst (·.num == q) f s.hub.queues
        else f (Queue.blank q) :: s.hub.queues } }

/-- A partition; one not listed has every share zero and is not isolated. -/
def State.partition (s : State) (p : BitVec 5) : Partition :=
  (s.hub.parts.find? (·.num == p)).getD ⟨p, 0, 0, 0, 0, false⟩

/-- A ring. -/
def State.ring (s : State) (r : RingId) : Option Ring := s.chan.rings.find? (·.id == r)

/-- A ring replaced by a function of it. -/
def State.modRing (s : State) (r : RingId) (f : Ring → Ring) : State :=
  { s with chan := { s.chan with rings := modFirst (·.id == r) f s.chan.rings } }

/-- A job. -/
def State.job (s : State) (n : Nat) : Option Job := s.eng.jobs.find? (·.num == n)

/-- A job replaced by a function of it. -/
def State.modJob (s : State) (n : Nat) (f : Job → Job) : State :=
  { s with eng := { s.eng with jobs := modFirst (·.num == n) f s.eng.jobs } }

/-- A job removed. -/
def State.dropJob (s : State) (n : Nat) : State :=
  { s with eng := { s.eng with jobs := s.eng.jobs.filter (·.num != n) } }

/-- A matrix island that nothing has used (R229, R420). -/
def MatIsland.fresh (i : IslandId) : MatIsland := ⟨i, .replicate 4 ⟨.free, [], 0⟩, 0⟩

/-- A matrix island. -/
def State.mat (s : State) (i : IslandId) : MatIsland :=
  (s.eng.mats.find? (·.isl == i)).getD (MatIsland.fresh i)

/-- A matrix island replaced. -/
def State.setMat (s : State) (m : MatIsland) : State :=
  { s with eng := { s.eng with mats := m :: s.eng.mats.filter (·.isl != m.isl) } }

/-- An accumulator slot. -/
def State.slot (s : State) (i : IslandId) (k : Fin 4) : AccSlot := (s.mat i).slots[k]

/-- An accumulator slot replaced. -/
def State.setSlot (s : State) (i : IslandId) (k : Fin 4) (a : AccSlot) : State :=
  let m := s.mat i
  s.setMat { m with slots := m.slots.set k a }

/-- An island's clock and thermal state; one not listed stands as after reset (R303, R410, R411). -/
def State.island (s : State) (k : IslandKey) : Island :=
  (s.clk.islands.find? (·.key == k)).getD
    ⟨k, 0, 0, 0, none, false, none, some s.clk.since, 64, false, false⟩

/-- An island replaced. -/
def State.setIsland (s : State) (i : Island) : State :=
  { s with clk := { s.clk with islands := i :: s.clk.islands.filter (·.key != i.key) } }

/-- A die. -/
def State.die (s : State) (d : Fin 4) : Die := s.clk.dies[d]

/-- A die replaced by a function of it. -/
def State.modDie (s : State) (d : Fin 4) (f : Die → Die) : State :=
  { s with clk := { s.clk with dies := s.clk.dies.set d (f s.clk.dies[d]) } }

/-- The event queue of a fabric island; one not listed is empty (R317). -/
def State.events (s : State) (i : IslandId) : EventQueue :=
  (s.fab.events.find? (·.isl == i)).getD ⟨i, [], 0⟩

/-- An event queue replaced. -/
def State.setEvents (s : State) (q : EventQueue) : State :=
  { s with fab := { s.fab with events := q :: s.fab.events.filter (·.isl != q.isl) } }

/-- The newest sample of a sensor (R408); one never sampled reads zero. -/
def State.sensor (s : State) (id : Nat) : BitVec 16 := smGet 0 s.clk.sensors id

/-- The die island number's fabric, matrix or streamer sensor id (R408). -/
def sensorOf (k : IslandKey) : Nat :=
  if k.num.val < 64 then k.die.val * 64 + k.num.val
  else if k.num.val < 128 then 0x200 + k.die.val * 64 + (k.num.val - 64)
  else 0x300 + k.die.val * 16 + (k.num.val - 128)

/-- The key of a fabric island (R408). -/
def fabKey (i : IslandId) : IslandKey :=
  ⟨i.die, ⟨i.cluster.val * 4 + i.island.val, by have := i.cluster.isLt; have := i.island.isLt; omega⟩⟩

/-- The key of a matrix island (R408). -/
def matKey (i : IslandId) : IslandKey :=
  ⟨i.die, ⟨64 + i.cluster.val * 4 + i.island.val, by
    have := i.cluster.isLt; have := i.island.isLt; omega⟩⟩

/-- The physical cluster of a region cluster (R278). -/
def Region.cluster (r : Region) (rc : Nat) : Fin 16 := (r.cmap[rc]?).getD 0

/-- The value of an element's field in force, a default where nothing wrote it (R279). -/
def Region.field (r : Region) (el f : Nat) (dflt : Nat := 0) : Nat :=
  ((r.config.find? fun c => c.1 == el && c.2.1 == f).map (·.2.2)).getD dflt

/-- Whether a region may make progress: it holds its islands and its clocks run (R285). -/
def KState.live (k : KState) : Bool := k == .filling || k == .steady || k == .draining

/-- A region made progress: the watchdog's count of its queue returns to zero, a killed region's own count
aside (R331, R332). -/
def State.progress (s : State) (rid : Nat) : State :=
  match s.region rid with
  | none => s
  | some r =>
    { s with kern := s.kern.map fun q =>
        if q.state != .killed && (q.rid == rid || (q.queue.isSome && q.queue == r.queue)) then
          { q with dog := 0, dogAsked := false }
        else q }

/-! ### Bounds (R162) -/

/-- The permission an access needs. -/
inductive Perm
  | load | store | atomic
  deriving DecidableEq, Repr, Inhabited

/-- Whether a handle holds a permission: an atomic needs A, R and W (R162). -/
def Handle.grants (h : Handle) : Perm → Bool
  | .load => h.r
  | .store => h.w
  | .atomic => h.a && h.r && h.w

/-- The access type a fault reports (R343). -/
def Perm.code : Perm → Nat
  | .load => 1
  | .store => 2
  | .atomic => 3

/-- The bounds check of R162, alignment aside. -/
def Handle.passes (h : Handle) (space : BitVec 3) (p : Perm) (addr : Nat) (z : Nat) : Bool :=
  h.v && h.space == space && h.grants p && decide (h.base.toNat ≤ addr) &&
    decide (addr + z ≤ h.limit.toNat)

/-! ### Translation (R355-R358) -/

/-- The 64-bit entry at a physical address. -/
def State.ptEntry (s : State) (pa : Nat) : Word :=
  BitVec.ofNat 64 (leNat (smRead 0 s.mem.cells (homeHbm pa) 8))

/-- The byte at a home before the store of a number and those after it. -/
def Memory.byteBefore (m : Memory) (k a : Nat) : Byte :=
  match (m.hist.filter fun v => v.addr == a && decide (k ≤ v.seq)).getLast? with
  | some v => v.old
  | none => smGet 0 m.cells a

/-- The entry at a physical address as it was before a store and those after it. -/
def State.ptEntryBefore (s : State) (k pa : Nat) : Word :=
  BitVec.ofNat 64 (leNat ((List.range 8).map fun i => s.mem.byteBefore k (homeHbm pa + i)))

/-- What a walk found: the page state (R357: 000 absent, 110 malformed), the level at which it ended,
the leaf, the leaf entry's address, and log2 of the page size. -/
structure WalkRes where
  state : BitVec 3
  level : Nat
  leaf  : Word
  entry : Nat
  shift : Nat
  deriving DecidableEq, Repr, Inhabited

/-- Whether a leaf at a level is malformed (R356, R357). -/
def leafBad (level shift : Nat) (e : Word) : Bool :=
  let n := e.toNat
  level == 0 || bits n 58 52 != 0 || bits n 15 8 != 0 || (16 < shift && bits n (shift - 1) 16 != 0)
    || decide (6 ≤ bits n 63 61) || (bits n 60 59 == 1 && (bit n 3 || bit n 4))

/-- A walk from a table, one level at a time (R357), through entries as `entry` reads them. -/
def walkFrom (entry : Nat → Word) (va : Nat) : List (Nat × Nat) → Nat → WalkRes
  | [], _ => ⟨6, 3, 0, 0, 16⟩
  | (level, shift) :: rest, table =>
    let pa := table + 8 * (va / 2 ^ shift % 1024)
    let e := entry pa
    let n := e.toNat
    if !bit n 0 then ⟨0, level, e, pa, shift⟩
    else if bit n 1 then
      if leafBad level shift e then ⟨6, level, e, pa, shift⟩
      else ⟨BitVec.ofNat 3 (bits n 63 61), level, e, pa, shift⟩
    else if level == 3 || bits n 63 52 != 0 || bits n 12 2 != 0 then ⟨6, level, e, pa, shift⟩
    else walkFrom entry va rest (bits n 51 13 * 8192)

/-- A page-table walk of a context (R357). -/
def State.walk (s : State) (c : BitVec 12) (va : Nat) : WalkRes :=
  walkFrom s.ptEntry va [(0, 46), (1, 36), (2, 26), (3, 16)] (s.ctx c).ptroot.toNat

/-- The page size code of a shift: 0 64 KiB, 1 64 MiB, 2 64 GiB. -/
def shiftOf (size : Nat) : Nat := 16 + 10 * size

/-- The translation of an address: a walk of the tables as they stood when the context opened or an INVAL last took its
page in, since a write of the tables takes effect through an INVAL alone (R435, R359). -/
def State.lookup (s : State) (c : BitVec 12) (va : Nat) : WalkRes :=
  match s.hub.pages.since.find? fun p => p.1 == c && decide (p.2.1 ≤ va) && decide (va < p.2.1 + p.2.2.1) with
  | some p => walkFrom (s.ptEntryBefore p.2.2.2) va [(0, 46), (1, 36), (2, 26), (3, 16)] (s.ctx c).ptroot.toNat
  | none => s.walk c va

/-- The numbers of the stores before which spans of a context's tables are read. -/
def State.tableViews (s : State) (c : BitVec 12) : List Nat :=
  ((s.hub.pages.since.filter (·.1 == c)).map (·.2.2.2)).eraseDups

/-- The tables of a span of a context taken as they stand. -/
def State.takeTables (s : State) (c : BitVec 12) (lo n : Nat) : State :=
  let p := s.hub.pages
  let keep (e : BitVec 12 × Nat × Nat × Nat) : Bool :=
    e.1 != c || !(decide (lo ≤ e.2.1) && decide (e.2.1 + e.2.2.1 ≤ lo + n))
  { s with hub := { s.hub with pages := { p with since := (c, lo, n, s.mem.nextSeq) :: p.since.filter keep } } }

/-- Whether a home lies in a line of HBM with an uncorrectable data error (R359). -/
def Memory.badAt (m : Memory) (h : Nat) : Bool := decide (h < 2 ^ 60) && m.bad.contains (h / 64)

/-- The home of an address through a leaf (R356): HBM, weight store, or host or peer memory. -/
def leafHome (w : WalkRes) (va : Nat) : Nat :=
  let n := w.leaf.toNat
  let off := va % 2 ^ w.shift
  match bits n 60 59 with
  | 0 => homeHbm (bits n 51 16 * 65536 + off)
  | 1 => homeWeight ⟨bits n 51 50 % 4, Nat.mod_lt _ (by decide)⟩ (bits n 33 16 * 65536 + off)
  | _ => homeFab (bits n 51 40) ((bits n 39 16 * 65536 + off) % 2 ^ 40)

/-- The permission bit of a leaf that an access needs (R358); access 4 is a fetch. -/
def leafGrants (leaf : Word) (access : Nat) : Bool :=
  let n := leaf.toNat
  match access with
  | 1 => bit n 2
  | 2 => bit n 3
  | 3 => bit n 4 && bit n 2 && bit n 3
  | 4 => bit n 5
  | _ => bit n 2

/-- The outcome of a translation: a home with the leaf's entry, an access held at its port, or a fault
with the page state and level found. -/
inductive Xlat
  | ok (home : Nat) (entry : Nat)
  | held
  | bad (c : FaultCode) (page : BitVec 3 × BitVec 2)
  deriving DecidableEq, Repr, Inhabited

/-- The context check of a window (R371): whether the window of a home exists for the context. -/
def State.windowOk (s : State) (c : BitVec 12) (home : Nat) : Bool :=
  match s.hub.windows.find? fun w => w.num.toNat == (home - 2 ^ 64) / 2 ^ 40 with
  | some w => w.ctx == c
  | none => false

/-- Translation of one byte address by the leaf that a walk found, for an access (R358): 1 load, 2 store, 3 atomic, 4 fetch. A read of
a fenced bank group of the weight store faults POISON (R419), and so does an access that meets an uncorrectable data
error (R359). DESIGN CHOICE: a leaf that names an address past the
HBM or the die's weight store translates to nothing, and the access faults PAGE with the page state found. -/
def State.xlatBy (s : State) (c : BitVec 12) (w : WalkRes) (va : Nat) (access : Nat) : Xlat :=
  let page := (w.state, BitVec.ofNat 2 w.level)
  match w.state.toNat with
  | 5 => .bad .poison page
  | 2 | 4 => .held
  | 1 | 3 =>
    if !leafGrants w.leaf access then .bad .page page
    else
      let h := leafHome w va
      if !homeExists h then .bad .page page
      else if isFabHome h && !s.windowOk c h then .bad .protect page
      else if isWeightHome h && ((s.die ⟨(weightBank h).1 % 4, Nat.mod_lt _ (by decide)⟩).fenced.any
          fun g => g.val == (weightBank h).2) then .bad .poison page
      else if s.mem.badAt h then .bad .poison page
      else .ok h w.entry
  | _ => .bad .page page

/-- Translation of one byte address for an access. -/
def State.xlat (s : State) (c : BitVec 12) (va : Nat) (access : Nat) : Xlat := s.xlatBy c (s.lookup c va) va access

/-! ### What a load may return (R185) -/

/-- The instance of a scope around a publisher that holds a reader (R184). -/
def reaches (scope : BitVec 4) (by_ reader : Place) : Bool :=
  let clus : Place → Option (Fin 4 × Fin 16)
    | .strand t | .gone _ t => some (t.seq.isl.die, t.seq.isl.cluster)
    | .cluster d c => some (d, c)
    | _ => none
  let die : Place → Option (Fin 4)
    | .strand t | .gone _ t => some t.seq.isl.die
    | .cluster d _ => some d
    | .die d => some d
    | .outside => none
  by_ == reader ||
  match scope.toNat with
  | 0 => (match by_, reader with | .strand t, .strand u => t.seq == u.seq | _, _ => false)
  | 1 => (match by_, reader with | .strand t, .strand u => t.seq.isl == u.seq.isl | _, _ => false)
  | 2 => (clus by_).isSome && clus by_ == clus reader
  | 3 => (die by_).isSome && die by_ == die reader
  | 4 => (die by_).isSome && (die reader).isSome
  | _ => true

/-- The stores of one byte that a reader can see, newest first (R185). -/
def Memory.visible (m : Memory) (reader : Place) (a : Nat) : List Ver :=
  m.hist.filter fun v => v.addr == a && reaches v.scope v.by_ reader

/-- The byte before any store of the order: what the oldest store found, else the byte at its home. -/
def Memory.first (m : Memory) (a : Nat) : Byte :=
  match (m.hist.filter (·.addr == a)).getLast? with
  | some v => v.old
  | none => smGet 0 m.cells a

/-- The floor of a byte in a list: the largest number listed for it. -/
def floorOf (l : List (Nat × Nat)) (a : Nat) : Nat :=
  l.foldl (fun m p => if p.1 == a then max m p.2 else m) 0

/-- The values a reader may be given for a byte, with their numbers, newest first: every store that can reach it, or
that had reached it before its region was moved, not older than the floor, and the first value when the floor lies
before every store (R185 rule 5). -/
def Memory.choices (m : Memory) (reader : Place) (kept : List Nat) (floor a : Nat) : List (Nat × Byte) :=
  (m.hist.filter fun v => v.addr == a && (reaches v.scope v.by_ reader || kept.contains v.seq || v.seq == floor)
    && decide (floor ≤ v.seq)).map (fun v => (v.seq, v.val))
    ++ (if floor = 0 then [(0, m.first a)] else [])

/-- Whether a publication is complete (R185). -/
def Memory.done (m : Memory) (n : Nat) : Bool := !m.pubs.any (·.num == n)

/-- Who publishes a publication (R184). -/
def Publication.by_ (p : Publication) : Place := if p.gone then .gone p.rid p.owner else .strand p.owner

/-- Whether a store has reached a reader, as a draw decides it for each publication in flight: the whole of it has,
or each store for itself, and only after the whole of every earlier publication of its strand that reaches the
reader (R185 rule 2). -/
def Memory.reached (m : Memory) (draw : Nat) (reader : Place) (v : Ver) : Bool :=
  let whole (n : Nat) : Bool := Config.pick draw (2 * n) % 2 == 0
  m.done v.pub || v.by_ == reader ||
    ((m.pubs.all fun p =>
        !(p.by_ == v.by_ && decide (p.num < v.pub) && reaches p.scope v.by_ reader) || whole p.num)
      && (whole v.pub || Config.pick draw (2 * v.seq + 1) % 2 == 0))

/-- The byte as an engine or the home sees it: the newest visible store that has reached it (R185, R192). -/
def Memory.newest (m : Memory) (reader : Place) (a : Nat) : Byte :=
  match (m.visible reader a).filter (m.reached m.nextSeq reader) with
  | v :: _ => v.val
  | [] => m.first a

/-- The publications of a strand in flight, oldest first. -/
def Memory.pubsBy (m : Memory) (t : StrandId) : List Publication := m.pubs.filter fun p => p.owner == t && !p.gone

/-- The strand's own newest publication in flight that holds a byte. -/
def Memory.inDrain (m : Memory) (t : StrandId) (a : Nat) : Option Byte :=
  ((m.pubsBy t).reverse.findSome? fun p =>
    (p.cells.find? (·.1 == a)).map (·.2))

/-- One byte as the block at work loads it (R49, R163, R185): the block's own stores, the phase buffer,
the strand's publications in flight, then any value R185 rule 5 allows; of host or peer memory, whatever stands
there. -/
def loadByte (s : State) (x : Flight) (a : Nat) : Byte × Flight :=
  match x.staged.find? (·.1 == a) with
  | some c => (c.2, x)
  | none =>
    if isCellHome a then (smGet 0 s.mem.cells a, x)
    else
      let st := s.strand x.who
      match (st.map (·.buf)).bind fun b => b.find? (·.1 == a) with
      | some c => (c.2, x)
      | none =>
        match s.mem.inDrain x.who a with
        | some b => (b, x)
        | none =>
          if isFabHome a then
            (Config.outsideByte (Config.pick x.issue x.nonce), { x with nonce := x.nonce + 1 })
          else
          let fl := max (floorOf ((st.map (·.floors)).getD []) a) (floorOf x.seen a)
          match s.mem.choices (.strand x.who) ((st.map (·.kept)).getD []) fl a with
          | [] => (s.mem.first a, x)
          | [c] => (c.2, { x with seen := (a, c.1) :: x.seen })
          | c :: cs =>
            let k := Config.pick x.issue x.nonce % (cs.length + 1)
            let d := ((c :: cs)[k]?).getD c
            (d.2, { x with seen := (a, d.1) :: x.seen, nonce := x.nonce + 1 })

/-- Bytes at listed homes as the block at work loads them. -/
def loadBytes (s : State) (x : Flight) : List Nat → List Byte × Flight
  | [] => ([], x)
  | a :: as =>
    let (b, x1) := loadByte s x a
    let (bs, x2) := loadBytes s x1 as
    (b :: bs, x2)

/-! ### Staging stores (R182, R183) -/

/-- A 64-byte granule of a space by its number: of GLOBAL, of virtual addresses (R183). -/
def granuleOf (sp : BitVec 3) (a : Nat) : Nat := sp.toNat * 2 ^ 60 + a / 64

/-- The granules that stored bytes touch, without repeats, each with the granule of its home: `as` are the bytes'
addresses in their space, in order. -/
def granulesOf (sp : BitVec 3) (as : List Nat) (cells : List Host.Cell) : List (Nat × Nat) :=
  ((as.zip cells).map fun p => (granuleOf sp p.1, p.2.1 / 64)).eraseDups

/-- A granule put among those that a buffer holds, once. -/
def addGranule (l : List (Nat × Nat)) (g : Nat × Nat) : List (Nat × Nat) := if l.contains g then l else g :: l

/-- Stores staged by the block at work, at their addresses in a space: into the phase buffer or cell memory at
commit, seen by the block's later loads; PHASE_FULL when the granules they need do not fit (R183). -/
def Flight.store (x : Flight) (sp : BitVec 3) (as : List Nat) (cells : List Host.Cell) : Flight :=
  if sp = 2 then
    { x with staged := cells.reverse ++ x.staged }.stage (.storeCell cells)
  else
    let all := (granulesOf sp as cells).foldl addGranule x.grans
    if x.granFree < (all.filter fun g => !x.granOld.contains g.1).length then
      x.fail { code := .phaseFull, access := 2 }
    else { x with staged := cells.reverse ++ x.staged, grans := all }.stage (.store cells)

/-! ### Writing the homes -/

/-- The canonical form of memory: addresses rise strictly, and no listed byte is zero, which an unlisted address
reads as. -/
def Memory.wf (m : Memory) : Bool := smOk 0 none m.cells

/-- One byte written at its home: the newest in the order, published by `by_` at `scope` (R185 rule
4), by a publication in flight when `pub` is its number. -/
def Memory.put (m : Memory) (by_ : Place) (scope : BitVec 4) (a : Nat) (b : Byte) (pub : Nat := 0) :
    Memory :=
  { m with
    cells := smSet 0 m.cells a b
    hist := ⟨m.nextSeq, a, smGet 0 m.cells a, b, by_, scope, pub⟩ :: m.hist
    nextSeq := m.nextSeq + 1 }

/-- Bytes written at their homes in order. -/
def Memory.putAll (m : Memory) (by_ : Place) (scope : BitVec 4) (l : List Host.Cell) : Memory :=
  l.foldl (fun m c => m.put by_ scope c.1 c.2) m

/-- The device and the address behind a home in host or peer memory (R371). -/
def State.window (s : State) (h : Nat) : BitVec 20 × Word :=
  match s.hub.windows.find? fun w => w.num.toNat == (h - 2 ^ 64) / 2 ^ 40 with
  | some w => (w.device, w.base + BitVec.ofNat 64 (h % 2 ^ 40))
  | none => (0, 0)

/-- Whether a port carries flits (R369). -/
def Port.ready (p : Port) : Bool := p.state == .up || p.state == .half

/-- Whether the hub can send to a device: through a port that is UP or HALF and reaches it (R369). With all 24 ports
ready every device of the fabric is reached (DEDUCED). -/
def State.linked (s : State) (dev : BitVec 20) : Bool :=
  let l := s.hub.ports.toList.zipIdx
  (l.all fun p => p.1.ready) || l.any fun p => p.1.ready && Config.portReaches p.2 dev

/-- Writes given to the fabric: those to a device that no ready port reaches wait in the hub (R369). -/
def State.sendAll (s : State) (l : List FabWrite) : State :=
  { s with hub := { s.hub with
      outbox := s.hub.outbox ++ l.filter (fun w => s.linked w.node)
      unsent := s.hub.unsent ++ l.filter (fun w => !s.linked w.node) } }

/-- Stores to host and peer memory leave over the fabric. -/
def State.toFabric (s : State) (l : List Host.Cell) : State :=
  let out := (l.filter fun c => isFabHome c.1).map fun c =>
    let (d, a) := s.window c.1
    (⟨d, a, [c.2]⟩ : FabWrite)
  if out.isEmpty then s else s.sendAll out

/-- The first unlanded store of a publication reaches its home (R185): the strand's own loads see it or a
newer value from then on. Stores of a strand land in the order of its publications. -/
def State.landOne (s : State) (n : Nat) : State :=
  match s.mem.pubs.find? (·.num == n) with
  | none => s
  | some p =>
    match p.cells with
    | [] => s
    | c :: cs =>
      let m := s.mem.put p.by_ p.scope c.1 c.2 p.num
      let m := { m with pubs := modFirst (·.num == n) (fun p => { p with cells := cs }) m.pubs }
      let seq := s.mem.nextSeq
      let s := { s with mem := m }.toFabric [c]
      if p.gone then s else s.modStrand p.owner fun t => { t with floors := (c.1, seq) :: t.floors }

/-- Several stores of a publication landed, in turn. -/
def State.landSome : Nat → Nat → State → State
  | 0, _, s => s
  | k + 1, n, s => State.landSome k n (s.landOne n)

/-- The runs of a context's nodes, those of saved regions included, changed. -/
def State.mapRuns (s : State) (c : BitVec 12) (f : NodeRun → NodeRun) : State :=
  { s with kern := s.kern.map fun (r : Region) =>
      if r.ctx == c then
        { r with nodes := r.nodes.map f, area := r.area.map fun a => { a with nodes := a.nodes.map f } }
      else r }

/-- Whether an entry of an extent table covers an address. -/
def extentHit (e : Nat × Word) (va : Nat) : Bool :=
  let sh := shiftOf (e.1 % 65536)
  e.1 / 65536 * 65536 == va / 2 ^ sh * 2 ^ sh

/-- Consecutive bytes as cells. -/
def cellsAt (a : Nat) (bs : List Byte) : List Host.Cell := bs.zipIdx.map fun p => (a + p.2, p.1)

/-- Bytes stored by the outside or an engine as a store published at a scope. -/
def State.put (s : State) (by_ : Place) (scope : BitVec 4) (l : List Host.Cell) : State :=
  { s with mem := s.mem.putAll by_ scope l }.toFabric l

/-- A page with an uncorrectable data error: the device writes STATE 101 to its leaf and invalidates what the package
holds of it (R359); ACC and DIRTY stand (R367). -/
def State.poisonPage (s : State) (die : Fin 4) (c : BitVec 12) (va : Nat) : State :=
  let w := s.lookup c va
  if w.state.toNat = 1 ∨ w.state.toNat = 2 ∨ w.state.toNat = 3 then
    let leaf := (s.ptEntry w.entry).toNat % 2 ^ 61 + 5 * 2 ^ 61
    let s := s.put (.die die) 4 (cellsAt (homeHbm w.entry) (leBytes 8 leaf))
    let base := va / 2 ^ w.shift * 2 ^ w.shift
    let s := s.takeTables c base (2 ^ w.shift)
    let s := { s with hub := { s.hub with pages := { s.hub.pages with
      tlb := s.hub.pages.tlb.filter fun t => !(t.ctx == c && t.va.toNat == base) } } }
    s.mapRuns c fun n =>
      { n with extent := n.extent.map fun e => if extentHit e va then (e.1, BitVec.ofNat 64 leaf) else e }
  else s

/-- Whether an address of a context meets an uncorrectable data error in a page that lets accesses pass (R359). -/
def State.meetsError (s : State) (c : BitVec 12) (va : Nat) : Bool :=
  let w := s.lookup c va
  (w.state.toNat == 1 || w.state.toNat == 3) && s.mem.badAt (leafHome w va)

/-- What a POISON fault leaves of the page that it met (R359). -/
def State.erred (s : State) (die : Fin 4) (c : BitVec 12) (code : FaultCode) (va : Nat) : State :=
  if code = .poison && s.meetsError c va then s.poisonPage die c va else s

/-- What a fault of a failed translation leaves of the page that it met. -/
def State.erredBy (s : State) (die : Fin 4) (c : BitVec 12) (f : FaultInfo) : State :=
  if f.pageAt.isSome then s.erred die c f.code f.va else s

/-- Whether the page unit of a die holds the translation of an address (R361). -/
def State.translates (s : State) (die : Fin 4) (c : BitVec 12) (va : Nat) : Bool :=
  s.hub.pages.tlb.any fun t =>
    t.die == die && t.ctx == c && t.va.toNat == va / 2 ^ shiftOf t.size * 2 ^ shiftOf t.size

/-- A request of a unit that is no strand counted in the sequence field of its tag triple, by die and strand field
(R339); a strand, a Gaffer core's among them, counts its own. -/
def State.countReq (s : State) (die strand : Nat) : State :=
  let k := 65536 * die + strand
  { s with hub := { s.hub with seqs := smSet 0 s.hub.seqs k (smGet 0 s.hub.seqs k + 1) } }

/-- A page that a die's page unit does not hold is walked; a miss on one that is being walked joins that walk (R360,
R361). The unit's requests carry a strand field of zeros beside bit 15 (DEDUCED). -/
def State.askWalk (s : State) (die : Fin 4) (c : BitVec 12) (va : Nat) (write : Bool) : State :=
  let p := s.hub.pages
  let join (k : Walk) : Bool := k.die == die && k.ctx == c && k.va.toNat / 65536 == va / 65536
  if p.walks.any join then
    { s with hub := { s.hub with pages := { p with
      walks := p.walks.map fun k => if join k then { k with write := k.write || write } else k } } }
  else
    let s := s.countReq die.val (2 ^ 15)
    { s with hub := { s.hub with pages := { p with
      walks := p.walks ++ [⟨p.nextWalk, die, c, BitVec.ofNat 56 va, write⟩], nextWalk := p.nextWalk + 1 } } }

/-- A page entry's ACC and DIRTY set by a translation, and the translation held (R357, R361). -/
def State.markPage (s : State) (die : Fin 4) (c : BitVec 12) (entry va : Nat) (dirty : Bool) : State :=
  let old := (s.ptEntry entry).toNat
  let new := (old ||| 0x80) ||| (if dirty then 0x40 else 0)
  let s := if new = old then s else s.put (.die die) 4 (cellsAt (homeHbm entry) (leBytes 8 new))
  let w := s.lookup c va
  let base := va / 2 ^ w.shift * 2 ^ w.shift
  let size := (w.shift - 16) / 10
  if s.hub.pages.tlb.any (fun t => t.die == die && t.ctx == c && t.va.toNat == base && t.size == size) then s
  else
    { s with hub := { s.hub with pages := { s.hub.pages with
        tlb := ⟨die, c, BitVec.ofNat 56 base, size, w.leaf, w.entry⟩ :: s.hub.pages.tlb } } }

/-- The pages of a range of a context marked by the hub's translations, on behalf of die 0's page unit (R361). -/
def State.hubMark (s : State) (c : BitVec 12) (va n : Nat) (dirty : Bool) : State :=
  let es := (List.range n).map fun i => (s.lookup c (va + i)).entry
  es.eraseDups.foldl (fun t e => t.markPage 0 c e (va + es.idxOf e) dirty) s

/-- Bytes of a memory no order governs (cell memory, the B-store) written at their homes. -/
def State.poke (s : State) (l : List Host.Cell) : State :=
  { s with mem := { s.mem with cells := smSetAll 0 s.mem.cells l } }

/-- Bytes as the hub or an engine reads them at their homes: the newest visible to it. -/
def State.peek (s : State) (reader : Place) (a n : Nat) : List Byte :=
  (List.range n).map fun i => s.mem.newest reader (a + i)

/-- A GLOBAL address of a context translated for the hub's own reads and writes; none when it does not
pass. -/
def State.hubHome (s : State) (c : BitVec 12) (va : Nat) (access : Nat) : Option Nat :=
  match s.xlat c va access with
  | .ok h _ => some h
  | _ => none

/-- Whether an access of the hub to a range of a context is held by a page that is being moved (R358). -/
def State.hubHeld (s : State) (c : BitVec 12) (va n access : Nat) : Bool :=
  (List.range n).any fun i => s.xlat c (va + i) access == .held

/-- Bytes at a GLOBAL address of a context as the hub reads them; a byte that does not translate reads
as zero. -/
def State.hubRead (s : State) (c : BitVec 12) (va n : Nat) : List Byte :=
  (List.range n).map fun i =>
    match s.hubHome c (va + i) 1 with
    | some h => s.mem.newest .outside h
    | none => 0

/-- Bytes written by the hub at a GLOBAL address of a context, published at .ssys; none when a byte does
not translate. -/
def State.hubWrite (s : State) (c : BitVec 12) (va : Nat) (bs : List Byte) : Option State :=
  let hs := (List.range bs.length).map fun i => s.hubHome c (va + i) 2
  if hs.any (·.isNone) then none
  else some ((s.hubMark c va bs.length true).put .outside 5 ((hs.zip bs).filterMap fun p => p.1.map fun h => (h, p.2)))

/-! ### Recorders (R388-R393) -/

/-- A unit id (R390): kind 0 gang, 1 Gaffer core, 2 matrix island. -/
def unitId (i : IslandId) (kind base : Nat) : BitVec 20 :=
  BitVec.ofNat 20 (i.die.val * 2 ^ 17 + i.cluster.val * 2 ^ 13 + kind * 2 ^ 11 + i.island.val * 2 ^ 9
    + base * 8)

/-- The hub's unit id (R390). -/
def hubUnit : BitVec 20 := 0x80000

/-- The unit id of a sequencer. -/
def seqUnit (q : Seq) : BitVec 20 :=
  if q.gaffer then unitId q.isl 1 0 else unitId q.isl 0 q.base.val

/-- How many records a unit's recorder holds (R388). -/
def recorderSize (u : BitVec 20) : Nat :=
  if u.getLsbD 19 then 512
  else match bits u.toNat 12 11 with
    | 0 => 512
    | 1 => 256
    | _ => 128

/-- A record (R389). -/
def mkRecord (tick : Nat) (u : BitVec 20) (ctx : Option (BitVec 12)) (cat code strand seq : Nat)
    (late : Bool) (payload : List Byte) : BitVec 256 :=
  BitVec.ofNat 256 (tick % 2 ^ 48 + u.toNat * 2 ^ 48
    + (match ctx with | some c => c.toNat * 2 ^ 68 | none => 2 ^ 114)
    + cat % 16 * 2 ^ 80 + code % 256 * 2 ^ 84 + strand % 16 * 2 ^ 92 + seq % 65536 * 2 ^ 96
    + (if late then 2 ^ 113 else 0) + leNat (padTo 16 payload) * 2 ^ 128)

/-- The ticks within which the broadcast of a freeze reaches a unit: 400 on the die of the fault, 900 elsewhere (R393,
DEDUCED: "a die" is the die whose unit has faulted). -/
def Capsule.reach (c : Capsule) (u : BitVec 20) : Nat := if u >>> 17 = c.unit >>> 17 then 400 else 900

/-- A record written to a unit's recorder: nothing when the category is off or the recorder has stopped,
and once a freeze has reached the unit and its horizon is past (R388, R392, R393). -/
def State.record (s : State) (u : BitVec 20) (ctx : Option (BitVec 12)) (cat code strand : Nat)
    (payload : List Byte) (late : Bool := false) : State :=
  let c := s.dbg.capsule
  if !s.dbg.caten.getLsbD cat || (c.state == .frozen && decide (c.t + max c.h (c.reach u) < s.tick)) then s
  else
    let r := (s.dbg.recorders.find? (·.unit == u)).getD ⟨u, 0, [], false⟩
    if r.stopped then s
    else
      let e := mkRecord s.tick u ctx cat code strand r.count late payload
      let rs := r.recs ++ [e]
      let r := { r with count := r.count + 1, recs := rs.drop (rs.length - recorderSize u) }
      { s with dbg := { s.dbg with recorders := r :: s.dbg.recorders.filter (·.unit != u) } }

/-! ### Interrupts (R340) -/

/-- A vector; one not written stands at its reset value. -/
def State.vector (s : State) (p : BitVec 5) (n : Byte) : IntVec :=
  (s.hub.vectors.find? fun v => v.part == p && v.num == n).getD ⟨p, n, 0, 0, 1, 0, 0, false, 0⟩

/-- A vector replaced. -/
def State.setVector (s : State) (v : IntVec) : State :=
  { s with hub := { s.hub with
      vectors := v :: s.hub.vectors.filter fun w => !(w.part == v.part && w.num == v.num) } }

/-- A write sent over the fabric. -/
def State.send (s : State) (node : BitVec 20) (addr : Word) (bs : List Byte) : State :=
  s.sendAll [⟨node, addr, bs⟩]

/-- A vector's pending events delivered: 16 bytes to its address, PEND := 0 (R340). -/
def State.deliverVector (s : State) (v : IntVec) : State :=
  let s := s.send v.node (v.addr.setWidth 64)
    (padTo 16 (leBytes 2 v.num.toNat ++ leBytes 2 v.pend.toNat ++ leBytes 4 0
      ++ leBytes 6 v.oldest))
  s.setVector { v with pend := 0 }

/-- A vector delivered when it is enabled and CNT events are pending (R340). -/
def State.tryVector (s : State) (v : IntVec) : State :=
  let cnt := if v.cnt = 0 then 1 else v.cnt.toNat
  if v.en && decide (cnt ≤ v.pend.toNat) then s.deliverVector v else s.setVector v

/-- One event counted on a vector of a partition (R340). PEND saturates at its width. -/
def State.interrupt (s : State) (p : BitVec 5) (n : Byte) : State :=
  let v := s.vector p n
  s.tryVector { v with
    pend := if v.pend = 0xfff then v.pend else v.pend + 1
    oldest := if v.pend = 0 then s.tick else v.oldest }

/-! ### Fault records and their delivery (R342-R344) -/

/-- The code of a fault (R342). -/
def FaultCode.num : FaultCode → Nat
  | .illegalOp => 0x01
  | .illegalBlock => 0x02
  | .formatTag => 0x03
  | .bounds => 0x04
  | .align => 0x05
  | .page => 0x06
  | .protect => 0x07
  | .maintOnly => 0x08
  | .loopDepth => 0x09
  | .tileAlloc => 0x0a
  | .ringState => 0x0b
  | .barrierState => 0x0c
  | .engine => 0x0d
  | .poison => 0x0e
  | .remote => 0x0f
  | .watchdog => 0x10
  | .softTrap => 0x11
  | .brk => 0x12
  | .priv => 0x13
  | .spillFull => 0x14
  | .phaseFull => 0x15

/-- The strand field of the tag triple (R339). -/
def strandField (t : StrandId) : Nat :=
  (if t.seq.gaffer then 2 ^ 15 else 0) + t.seq.isl.cluster.val * 2 ^ 11
    + t.seq.isl.island.val * 2 ^ 9 + (if t.seq.gaffer then 0 else t.seq.base.val * 8) + t.num.val

/-- A unit's place in the order of R217: by kind within a cluster, 0 copy engines, 1 matrix islands, 2 the skive unit, 3
the routing engine, 4 Gaffer cores, 5 strands, 6 any other, and by number within a kind. DESIGN CHOICE: by die and by
cluster first, since R217 speaks of one cluster's units. -/
def unitOrder (i : IslandId) (kind n : Nat) : Nat :=
  ((i.die.val * 16 + i.cluster.val) * 8 + kind) * 2 ^ 16 + n

/-- A strand as the source of a fault. -/
def sourceOf (t : StrandId) : Source :=
  ⟨strandField t, t.seq.isl.die.val, seqUnit t.seq, if t.seq.gaffer then 8 else t.num.val,
    if t.seq.gaffer then unitOrder t.seq.isl 4 t.seq.isl.island.val
    else unitOrder t.seq.isl 5 (t.seq.isl.island.val * 2 ^ 9 + t.seq.base.val * 8 + t.num.val)⟩

/-- A unit of a cluster other than a strand as the source of a fault: bit 15 set (R339); its records go to the Gaffer core
of an island (R391). DESIGN CHOICE: the base-cell bits of the strand field, which an engine has no use for, name the
engine by its kind and its number. -/
def engineSource (i : IslandId) (kind : Nat := 6) (n : Nat := 0) : Source :=
  ⟨2 ^ 15 + i.cluster.val * 2 ^ 11 + i.island.val * 2 ^ 9 + (if kind < 4 then 8 * (8 * (kind + 1) + n % 8) else 0),
    i.die.val, unitId i 1 0, 8, unitOrder i kind n⟩

/-- The hub as the source of a fault. -/
def hubSource : Source := ⟨0, 4, hubUnit, 15, 4 * 16 * 8 * 2 ^ 16⟩

/-- The 64-byte record of a fault (R343, R363). -/
def faultRecord (tick : Nat) (c : BitVec 12) (src : Source) (f : FaultInfo) : List Byte :=
  leBytes 2 (if f.pageAt.isSome then 0x0302 else 0x0300) ++ leBytes 1 f.code.num
    ++ leBytes 1 f.access ++ leBytes 2 c.toNat ++ leBytes 2 src.strand ++ leBytes 8 f.block.toNat
    ++ leBytes 1 f.index ++ leBytes 1 f.lane ++ leBytes 1 f.handle
    ++ leBytes 1 (match f.pageAt with | some (st, lv) => st.toNat + 16 * lv.toNat | none => 0)
    ++ leBytes 4 f.element ++ leBytes 8 f.ea.toNat ++ leBytes 4 f.aux ++ leBytes 6 tick
    ++ leBytes 1 src.die ++ leBytes 21 0

/-- A 64-byte record appended to a context's fault queue (R343): none when the queue is full or its
memory does not take the record. FIE counts one event. -/
def State.appendFault (s : State) (c : BitVec 12) (recd : List Byte) : Option State :=
  let d := s.ctx c
  if (d.fqtail - d.fqhead).toNat = 2 ^ d.fqsize then none
  else
    match s.hubWrite c (d.fqbase.toNat + 64 * (d.fqtail.toNat % 2 ^ d.fqsize)) recd with
    | none => none
    | some s =>
      let s := s.setCtx { d with fqtail := d.fqtail + 1 }
      some (if d.fie then s.interrupt d.part d.fiv else s)

/-- A record put among those that are not yet written, in order of tick and of unit (R343). -/
def insertFault (w : FaultWait) : List FaultWait → List FaultWait
  | [] => [w]
  | v :: l =>
    if w.tick < v.tick ∨ (w.tick = v.tick ∧ w.ord < v.ord) then w :: v :: l else v :: insertFault w l

/-- A fault record for a context that the hub itself holds until it is written (R343). -/
def State.hubFault (s : State) (c : BitVec 12) (src : Source) (recd : List Byte) : State :=
  { s with hub := { s.hub with waiting := s.hub.waiting ++ [(c, ⟨s.tick, src.ord, recd⟩)] } }

/-- A fault record that waits in a unit of a region until it is written (R343). -/
def State.queueFault (s : State) (rid : Nat) (src : Source) (recd : List Byte) : State :=
  s.modRegion rid fun r => { r with waiting := insertFault ⟨s.tick, src.ord, recd⟩ r.waiting }

/-- The records of a context that are not yet written: each with its region, or none where the hub holds it. -/
def State.unwritten (s : State) (c : BitVec 12) : List (Option Nat × FaultWait) :=
  (s.kern.filter (·.ctx == c)).flatMap (fun r => r.waiting.map (some r.rid, ·))
    ++ (s.hub.waiting.filter (·.1 == c)).map fun w => (none, w.2)

/-- The record of a context that is written next: the oldest, and of one tick the first in the unit order of R217. -/
def State.nextFault (s : State) (c : BitVec 12) : Option (Option Nat × FaultWait) :=
  (s.unwritten c).foldl (fun a w =>
    match a with
    | none => some w
    | some v => if w.2.tick < v.2.tick ∨ (w.2.tick = v.2.tick ∧ w.2.ord < v.2.ord) then some w else some v) none

/-- The next record of a context written to its fault queue (R343); nothing where the queue has no room or its memory
does not take it. -/
def State.writeFault (s : State) (c : BitVec 12) : State :=
  match s.nextFault c with
  | none => s
  | some (rid, w) =>
    match s.appendFault c w.recd with
    | none => s
    | some s =>
      match rid with
      | some rid => s.modRegion rid fun r => { r with waiting := r.waiting.erase w }
      | none => { s with hub := { s.hub with waiting := s.hub.waiting.erase (c, w) } }

/-- The fault records of a tick written as it ends, as far as there is room (R343). -/
def State.writeFaults (s : State) : State :=
  let cs := ((s.kern.filter fun r => !r.waiting.isEmpty).map (·.ctx) ++ s.hub.waiting.map (·.1)).eraseDups
  cs.foldl (fun s c => (s.unwritten c).foldl (fun s _ => s.writeFault c) s) s

/-- Whether a fault code is fatal in a context: a set bit of FATAL, or POISON and WATCHDOG when FATAL is
zero (R337, R344). -/
def isFatal (d : Ctx) (c : FaultCode) : Bool :=
  if d.fatal = 0 then c == .poison || c == .watchdog else d.fatal.getLsbD (c.num - 1)

/-- A job's captured fields gone: rings' reservations, slots and engines it holds are given back. -/
def State.cancelJobs (s : State) (rid : Nat) : State :=
  { s with eng := { s.eng with jobs := s.eng.jobs.filter (·.rid != rid) } }

/-- Slots a region's strands or stream nodes hold, freed with their values discarded (R229). -/
def State.freeSlots (s : State) (q : SlotState → Bool) : State :=
  { s with eng := { s.eng with mats := s.eng.mats.map fun m =>
      { m with slots := m.slots.map fun a => if q a.state then ⟨.free, [], 0⟩ else a } } }

/-- The completion record of a launch (R326). -/
def completionRecord (status seq xsts lost tick extra : Nat) : List Byte :=
  leBytes 2 0x0200 ++ leBytes 1 status ++ leBytes 1 0 ++ leBytes 4 seq ++ leBytes 4 xsts
    ++ leBytes 4 lost ++ leBytes 8 tick ++ leBytes 8 extra

/-- A write of the hub at a GLOBAL address of a context, and the interrupt that follows it: both wait while a page of
it is being moved (R358); a write that does not translate is dropped. -/
def State.hubPost (s : State) (c : BitVec 12) (va : Nat) (bs : List Byte) (int : Option (BitVec 5 × Byte)) : State :=
  if s.hubHeld c va bs.length 2 then { s with hub := { s.hub with held := s.hub.held ++ [(c, va, bs, int)] } }
  else
    let s := (s.hubWrite c va bs).getD s
    int.elim s fun v => s.interrupt v.1 v.2

/-- The hub's held writes made where their pages are there again (R358). -/
def State.hubResume (s : State) : State :=
  s.hub.held.foldl (fun s w => s.hubPost w.1 w.2.1 w.2.2.1 w.2.2.2) { s with hub := { s.hub with held := [] } }

/-- A launch record completed with a status (R326): the completion record when CPL = 1, the interrupt
when INT = 1. -/
def State.completeLaunch (s : State) (c : BitVec 12) (recd : List Byte) (status xsts lost extra : Nat) :
    State :=
  let flags := fieldN recd 2 1
  let int := if bit flags 4 then some ((s.ctx c).part, BitVec.ofNat 8 (fieldN recd 70 1)) else none
  let bs := if bit flags 3 then completionRecord status (fieldN recd 4 4) xsts lost s.tick extra else []
  s.hubPost c (fieldN recd 24 8) bs int

/-- Whether a slot belongs to a region: bound by one of its strands, held by one of its jobs, or one of
its parked or stream slots on islands it holds. -/
def State.ownsSlot (s : State) (rid : Nat) : SlotState → Bool
  | .bound t _ => (match s.gang t.seq with | some g => g.rid == rid | none => false)
  | .held j => (match s.job j with | some j => j.rid == rid | none => false)
  | _ => false

/-- The physical islands of a kind that a region holds: 0 fabric, 1 matrix (R278). -/
def Region.islands (r : Region) (ty : Nat) : List IslandId :=
  (r.imap.filter fun p => p.1.2.1 == ty).map fun p =>
    ⟨r.die, r.cluster p.1.1, ⟨p.2 % 4, Nat.mod_lt _ (by decide)⟩⟩

/-- PARKED slots in which no gang parks any more, and STREAM slots on matrix islands listed, freed (R229). -/
def State.freeIdle (s : State) (l : List IslandId) : State :=
  let used (i : IslandId) (k : Fin 4) : Bool := s.fab.gangs.any fun g =>
    g.seq.isl.die == i.die && g.seq.isl.cluster == i.cluster && g.parked.any fun p =>
      match p.2.2 with | .column m j _ => m == i.island && j == k | _ => false
  { s with eng := { s.eng with mats := s.eng.mats.map fun m =>
      { m with slots := Vector.ofFn fun k =>
          let a := m.slots[k]
          if (a.state == .parked && !used m.isl k) || (a.state == .stream && l.contains m.isl) then ⟨.free, [], 0⟩
          else a } } }

/-- Everything a region holds on the chip discarded (R188, R200, R214, R220, R229, R347): its gangs
with their phase buffers, its flights, its event queues, rings with their notices, barriers and events in flight,
jobs and slots, and the requests that nothing awaits any more. Publications already committed still complete (R188),
and what its strands have published stays theirs. -/
def State.discardRegion (s : State) (rid : Nat) : State :=
  let s := s.freeSlots (s.ownsSlot rid)
  let s := s.cancelJobs rid
  let on (ty : Nat) : List IslandId := (s.region rid).elim [] fun r => if r.state = .saved then [] else r.islands ty
  let fabs := on 0
  let mats := on 1
  let off (t : StrandId) : Bool := s.fab.gangs.any fun g => g.rid == rid && g.seq == t.seq
  State.freeIdle (l := mats) { s with
    mem := { s.mem with
      hist := s.mem.hist.map fun (v : Ver) => match v.by_ with
        | .strand t => if off t then { v with by_ := .gone rid t } else v
        | _ => v
      pubs := s.mem.pubs.map fun (p : Publication) => if p.rid == rid then { p with gone := true } else p }
    x := if s.x.active && s.x.rid == rid then Flight.idle else s.x
    fab := { s.fab with
      flights := s.fab.flights.filter (·.rid != rid)
      gangs := s.fab.gangs.filter fun g => g.rid != rid || g.fenced
      events := s.fab.events.filter fun q => !fabs.contains q.isl
      pushes := s.fab.pushes.filter fun p => !fabs.contains p.dest }
    hub := { s.hub with remote := s.hub.remote.filter (·.rid != rid) }
    chan := { s.chan with
      rings := s.chan.rings.filter (·.id.rid != rid)
      bars := s.chan.bars.filter (·.id.rid != rid)
      msgs := s.chan.msgs.filter (·.bar.rid != rid) } }

/-- The first island of a region, for the records of its stages and its scheduling. -/
def Region.firstIsland (r : Region) : IslandId := ⟨r.die, r.cluster 0, 0⟩

/-- The remote stores of a region still under way (R376). -/
def State.xstsOf (s : State) (rid : Nat) : Nat := (s.hub.xsts.filter (·.rid == rid)).length

/-- A region's launch completed with a status, once: its completion record is written and then the pending-launch
entry that it came from is freed (R326, R330). -/
def State.endLaunch (s : State) (r : Region) (status xsts lost extra : Nat) : State :=
  if s.hub.launches.any fun l => l.num == r.launch && l.done then s
  else
    let s := { s with hub := { s.hub with launches := s.hub.launches.map fun (l : Launch) =>
      if l.num = r.launch then { l with done := true } else l } }
    let s := s.completeLaunch r.ctx r.recd status xsts lost extra
    match r.ticket with
    | none => s
    | some (t, die, cl) =>
      { s with hub := { s.hub with pending := s.hub.pending.filter fun e =>
        !(e.die == die && e.cl == cl && e.ticket == t) } }

/-- A SCHED record of a region (R391): 0 record taken, 1 save, 2 kill, 3 restore, 4 watchdog step. -/
def State.schedRecord (s : State) (r : Region) (code : Nat) : State :=
  s.record hubUnit (some r.ctx) 7 code 15
    (leBytes 2 ((r.queue.map (·.toNat)).getD 0) ++ leBytes 2 0 ++ leBytes 4 (fieldN r.recd 4 4) ++ leBytes 1 r.prio)

/-- A region killed (R347): its state discarded, its launch record completed with a status when one is
given. -/
def State.killRegion (s : State) (rid : Nat) (status : Option Nat) : State :=
  match s.region rid with
  | none => s
  | some r =>
    if r.state = .killed ∨ r.state = .retired then s else
    let s := s.discardRegion rid
    let s := s.modRegion rid fun r =>
      { r with
        state := .killed, pend := false, solution := none, targets := [], area := none, saving := false, dogSave := false
        dying := none }
    let s := s.schedRecord r 2
    match status with
    | some st => s.endLaunch r st (s.xstsOf rid) 0 0
    | none => s

/-- A kill that lets the region's issued blocks commit or fault first: until then none of its blocks is issued
(R54). -/
def State.killAfter (s : State) (rid : Nat) (status : Option Nat) : State :=
  if (s.x :: s.fab.flights).any fun x => x.active && x.rid == rid then
    s.modRegion rid fun r => if r.state = .killed ∨ r.state = .retired then r else { r with dying := some status }
  else s.killRegion rid status

/-- A kill that waited for a region's issued blocks, when none is left (R54). -/
def State.killDying (s : State) (rid : Nat) : State :=
  match (s.region rid).bind (·.dying) with
  | some st => s.killAfter rid st
  | none => s

/-- The freeze a fatal fault starts (R393, R394): when the capsule is EMPTY it is FROZEN with the cause
latched, the FREEZE record written and the faulting context's regions killed; otherwise LOSTFAULTS
counts. -/
def State.startFreeze (s : State) (c : BitVec 12) (code : FaultCode) (src : Source) : State :=
  if s.dbg.capsule.state = .empty then
    let life : Nat := match s.hub.boot.life with
      | .manufacture => 0 | .provisioned => 1 | .deployed => 2 | .diagnostic => 3
      | .decommissioned => 4
    let cap : Capsule := { s.dbg.capsule with
      state := .frozen, cause := BitVec.ofNat 8 code.num, t := s.tick, h := s.dbg.horizon.toNat
      ctx := c, unit := src.unit, strand := BitVec.ofNat 8 src.num, life := BitVec.ofNat 8 life }
    let s := s.record hubUnit none 13 code.num 15
      (leBytes 6 s.tick ++ leBytes 2 s.dbg.horizon.toNat ++ leBytes 4 src.unit.toNat)
    let s := { s with dbg := { s.dbg with capsule := cap } }
    (s.kern.filter fun r => r.ctx == c && r.state != .killed && r.state != .retired).foldl
      (fun s r => s.killRegion r.rid (some code.num)) s
  else
    { s with dbg := { s.dbg with capsule :=
        { s.dbg.capsule with lost := min (s.dbg.capsule.lost + 1) 65535 } } }

/-- The freeze that the fatal faults of a tick start: its cause is the first in unit order, and the others count (R394). -/
def State.freezes (s : State) : State :=
  let l := sortBy (fun a b => decide (a.1 ≤ b.1)) s.dbg.fatals
  l.foldl (fun s f => s.startFreeze f.2.1 f.2.2.1 f.2.2.2) { s with dbg := { s.dbg with fatals := [] } }

/-- TAKING A FAULT (R343, R344, R391): the fault's BLOCK_ABORT record is written to the unit's recorder;
the region becomes FROZEN and keeps the state it returns to; its 64-byte record goes to the context's fault queue in the
unit order of R217, as the tick ends. A fatal fault starts the freeze, at its tick, and kills the region. -/
def State.deliver (s : State) (rid : Nat) (c : BitVec 12) (src : Source) (f : FaultInfo) : State :=
  let s := s.record src.unit (some c) 1 f.code.num src.num
    (leBytes 8 f.block.toNat ++ leBytes 1 f.index ++ leBytes 1 f.lane ++ leBytes 1 f.handle
      ++ leBytes 1 f.access ++ leBytes 4 f.ea.toNat) f.late
  let s := s.modRegion rid fun r =>
    { r with
      before := if r.state.live then r.state else r.before
      state := if r.state.live || r.state == .loading then .frozen else r.state
      firstFault := if r.firstFault.isSome && !(s.tick == r.faultAt.1 && decide (src.ord < r.faultAt.2)) then r.firstFault
        else some f.code
      faultAt := if r.firstFault.isSome && !(s.tick == r.faultAt.1 && decide (src.ord < r.faultAt.2)) then r.faultAt
        else (s.tick, src.ord) }
  let s := s.queueFault rid src (faultRecord s.tick c src f)
  if isFatal (s.ctx c) f.code then
    { s with dbg := { s.dbg with fatals := s.dbg.fatals ++ [(src.ord, c, f.code, src)] } }.killRegion rid (some f.code.num)
  else s

/-- What ends a tick: its fault records are written in the unit order, and its fatal faults start their freeze (R343,
R394). -/
def State.endTick (s : State) : State := s.writeFaults.freezes

/-- A frozen region goes on in the state it had (R344: RESUME). -/
def State.resumeRegion (s : State) (rid : Nat) : State :=
  s.modRegion rid fun r => if r.state = .frozen then { r with state := r.before, firstFault := none } else r

end Sys2Proof.Machine
end

