-- ==== Sys2Proof/Machine/Operands.lean ====
section
/-!
DEFINITION. The operand forms: scalar operands (R104, R105), ring tokens with their sticky counts
(R66-R68), vector sources and destinations (R129-R131), pushes (R130), and the addresses, bounds and
homes of group 4 (R160-R165, R170).
-/
namespace Sys2Proof.Machine

/-! ### Scalar operands (R104, R105) -/

/-- The operation width a group 0 FMT code selects (R104). -/
def widthOf (f : Fmt) : Nat := if f = .raw then 64 else 32

/-- An operand read at width `w`, as an unsigned number (R105). -/
def Flight.scalarU (x : Flight) (i : VInsn) (w : Nat) (src : Src) : Nat :=
  match src with
  | .reg n => (x.rdS n).toNat % 2 ^ w
  | .lit => (i.lit.getD 0).toNat % 2 ^ w
  | .imm n => ofInt w n.toInt
  | .ring _ _ => 0

/-- The 64-bit result a scalar instruction writes: r modulo 2^W, sign-extended for int32 and zero-extended
for uint32 (R104, R105). -/
def scalarResult (f : Fmt) (r : Int) : Word :=
  let w := widthOf f
  let v := ofInt w r
  if f = .int32 then BitVec.ofInt 64 (toSigned 32 v) else BitVec.ofNat 64 v

/-- A scalar destination: DK = 00 writes the register, DK = 11 discards (R104). -/
def Flight.putScalar (x : Flight) (d : Dst) (v : Word) : Flight :=
  match d with
  | .reg n => x.wrS n v
  | _ => x

/-! ### Ring tokens (R66-R68) -/

/-- The firings a sticky code serves, none for `:loop` and `:peek` (R66). -/
def stickyLimit (k : BitVec 3) : Option Nat :=
  match k.toNat with
  | 0 => some 1
  | 1 => some 2
  | 2 => some 4
  | 3 => some 8
  | 4 => some 16
  | 5 => some 64
  | _ => none

/-- The view of a handle in a direction. -/
def Flight.view (x : Flight) (h : Nat) (prod : Bool) : Option RView :=
  x.views.find? fun v => v.h == h && v.prod == prod

/-- A view replaced. -/
def Flight.setView (x : Flight) (v : RView) : Flight :=
  { x with views := modFirst (fun w => w.h == v.h && w.prod == v.prod) (fun _ => v) x.views }

/-- A view at another position: the sticky state is that of the token there (R67). -/
def RView.goto (v : RView) (pos : Nat) : RView :=
  let st := (v.sticks[pos]?).getD (none, 0, none)
  { v with pos := pos, lim := st.1, cnt := st.2.1, loop := st.2.2 }

/-- A view after a counted firing with a sticky code (R66, R67): the head token keeps the code of its
first counted firing, and is passed when its limit is reached; `:loop` with no loop active serves one
firing. -/
def RView.count (v : RView) (k : BitVec 3) (who : StrandId) (depth : Nat) : RView :=
  let v := { v with lim := some k, cnt := v.cnt + 1
                    loop := if v.lim.isNone && k == 6 then some (who, depth) else v.loop }
  let full : Bool := match stickyLimit k with
    | some n => decide (n ≤ v.cnt)
    | none => k == 6 && (v.loop.map (·.2)).getD 0 == 0
  if full then { v.goto (v.pos + 1) with frees := v.frees ++ [1] }
  else v

/-- One firing on a handle with a sticky code: the token read, with RING_STATE when the handle has no
ring of this direction, no token stands there, or another code fixed the limit (R65-R68). -/
def Flight.fire (x : Flight) (h : Nat) (k : BitVec 3) : Token × Flight :=
  match x.view h false with
  | none => (⟨.raw, []⟩, x.failCode .ringState)
  | some v =>
    match v.toks[v.pos]? with
    | none => (⟨.raw, []⟩, x.failCode .ringState)
    | some t =>
      let v1 := { v with reach := max v.reach (v.pos + 1) }
      if k = 7 then (t, x.setView v1)
      else
        match v1.lim with
        | some k' =>
          if k' = k then (t, x.setView (v1.count k x.who x.r.loops.length))
          else (t, x.failCode .ringState)
        | none => (t, x.setView (v1.count k x.who x.r.loops.length))

/-- The tokens of the ring sources of an instruction, each handle firing once (R66). -/
def fireAll : List Src → List (Nat × Token) → Flight → List (Nat × Token) × Flight
  | [], ts, x => (ts, x)
  | .ring h k :: rest, ts, x =>
    if ts.any (·.1 == h.toNat) then fireAll rest ts x
    else
      let (t, x) := x.fire h.toNat k
      fireAll rest ((h.toNat, t) :: ts) x
  | _ :: rest, ts, x => fireAll rest ts x

/-- The token an instruction read on a handle. -/
def tokenOf (ts : List (Nat × Token)) (h : BitVec 6) : Token :=
  ((ts.find? (·.1 == h.toNat)).map (·.2)).getD ⟨.raw, []⟩

/-- A token pushed on a handle: discarded on h31, RING_STATE when the handle has no ring that this gang
produces or the slot is shorter than `need` bytes (R65, R130). The rest of the slot is zero. -/
def Flight.push (x : Flight) (h : Nat) (tag : Fmt) (bs : List Byte) (need : Nat) : Flight :=
  if h = 31 then x
  else
    match x.view h true with
    | none => x.failCode .ringState
    | some v =>
      if v.slotsz < need then x.failCode .ringState
      else x.stage (.push v.id ⟨tag, padTo v.slotsz bs⟩)

/-! ### Elements of vector registers (R89, R131) -/

/-- Elements of width `w` of a list of lane words, in index order (R89). -/
def elemsOf (w : Nat) (lanes : List Lane) : List Nat :=
  lanes.flatMap fun l => (List.range (32 / w)).map fun k => l.toNat / 2 ^ (k * w) % 2 ^ w

/-- One lane word of elements of width `w`, lowest slot first. -/
def packLane (w : Nat) : List Nat → Nat
  | [] => 0
  | e :: es => e % 2 ^ w + 2 ^ w * packLane w es

/-- Elements of width `w` packed into `n` lanes (R89). -/
def packElems (w n : Nat) (es : List Nat) : List Lane :=
  (List.range n).map fun i => BitVec.ofNat 32 (packLane w ((es.drop (i * (32 / w))).take (32 / w)))

/-- Whether a lane is on in a mask. -/
def laneOn (m : BitVec 128) (i : Nat) : Bool := m.getLsbD i

/-- New lanes where a mask is on, old ones elsewhere (R69). -/
def mergeLanes (m : BitVec 128) (old new : List Lane) : List Lane :=
  new.zipIdx.map fun p => if laneOn m p.2 then p.1 else (old[p.2]?).getD 0

/-- Sidecar bytes of a result that is not MX (R78). -/
def sideFresh (n : Nat) : List Byte := List.replicate (n / 4) 0x7f

/-- Whether a source's tag passes where a format is expected (R81). -/
def tagOk (expected tag : Fmt) : Bool := expected == .raw || expected == tag

/-- Little-endian bytes of lane words (R130). -/
def lanesBytes (l : List Lane) : List Byte := l.flatMap fun w => leBytes 4 w.toNat

/-- Sidecar bytes an MX format of `n` lanes uses (R89, R131). -/
def sideCount (f : Fmt) (n : Nat) : Nat := if f.isMx then n / fmtWidth f else 0

/-- A token as a vector value of the gang, RING_STATE when its slot is too short (R130). -/
def Flight.tokenVec (x : Flight) (t : Token) : VReg × Flight :=
  let n := x.nlanes
  let need := 4 * n + sideCount t.tag n
  let v : VReg := ⟨(List.range n).map fun i => BitVec.ofNat 32 (fieldN t.bytes (4 * i) 4), t.tag,
    if t.tag.isMx then
      (List.range (n / 4)).map fun j =>
        if j < sideCount t.tag n then BitVec.ofNat 8 (fieldN t.bytes (4 * n + j) 1) else 0x7f
    else sideFresh n⟩
  if t.bytes.length < need then (v, x.failCode .ringState) else (v, x)

/-- A vector source as a whole value, its tag unchecked: a register or a token (R129). -/
def Flight.srcVec (x : Flight) (ts : List (Nat × Token)) (src : Src) : VReg × Flight :=
  match src with
  | .reg n => (x.r.rdV n, x)
  | .ring h _ => x.tokenVec (tokenOf ts h)
  | _ => (VReg.fresh x.nlanes, x)

/-- The elements of a source under a format, with the flags its conversion raises: a register or token
is checked for its tag, a literal or immediate is broadcast (R81, R129, R131). -/
def Flight.srcElems (x : Flight) (i : VInsn) (ts : List (Nat × Token)) (f : Fmt) (src : Src) :
    List Nat × BitVec 5 × Flight :=
  let w := fmtWidth f
  let n := x.nlanes * (32 / w)
  match src with
  | .lit => let r := litElem f (i.lit.getD 0).toNat; (List.replicate n r.bits, r.flags, x)
  | .imm k => let r := immElem f k; (List.replicate n r.bits, r.flags, x)
  | src =>
    let (v, x) := x.srcVec ts src
    (elemsOf w v.lanes, 0, if tagOk f v.tag then x else x.failCode .formatTag)

/-- The sidecar bytes of a value of a format: those past the ones that the format uses are 0x7F (R89). -/
def sideKept (f : Fmt) (n : Nat) (side : List Byte) : List Byte :=
  side.zipIdx.map fun p => if p.2 < sideCount f n then p.1 else 0x7f

/-- A lane word of a format's elements with the bits that their containers hold as zero cleared (R85). -/
def cleanLane (f : Fmt) (l : Lane) : Lane :=
  match f with
  | .tf32 => l &&& 0xffffe000
  | .e3m2 | .e2m3 | .mxe3m2 | .mxe2m3 => l &&& 0x3f3f3f3f
  | _ => l

/-- A vector result written under a mask: a register keeps the lanes that are off, a push sends zero in
them, a discard drops the result (R69, R129-R131). `side` is given for an MX result (R89). -/
def Flight.putVec (x : Flight) (d : Dst) (m : BitVec 128) (lanes : List Lane) (tag : Fmt)
    (side : Option (List Byte)) : Flight :=
  let n := x.nlanes
  match d with
  | .reg k =>
    { x with r := x.r.wrV k ⟨mergeLanes m (x.r.rdV k).lanes lanes, tag,
        (side.map (sideKept tag n)).getD (sideFresh n)⟩ }
  | .push h =>
    let z := mergeLanes m (List.replicate n 0) lanes
    let bs := lanesBytes z ++ ((side.getD []).take (sideCount tag n))
    x.push h.toNat tag bs (4 * n + sideCount tag n)
  | _ => x

/-- A moved vector value of a format written under a mask: the bits that the format's containers hold as zero are
written as zero (R85), its tag aside. -/
def Flight.putMoved (x : Flight) (i : VInsn) (m : BitVec 128) (lanes : List Lane) (tag : Fmt)
    (side : Option (List Byte)) : Flight :=
  x.putVec i.d m (lanes.map (cleanLane i.fmt)) tag side

/-- Predicate bits written under a mask (R135). -/
def Flight.putPred (x : Flight) (k : BitVec 6) (m : BitVec 128) (f : Nat → Bool) : Flight :=
  let n := x.nlanes
  let new : BitVec 128 := (List.range n).foldl
    (fun b i => if f i then b ||| BitVec.twoPow 128 i else b) 0
  let p := k.setWidth 4
  let old := x.r.rdP n p
  { x with r := x.r.wrP n p ((new &&& m) ||| (old &&& ~~~m)) }

/-- Whether a test holds for all `n` elements of a lane. -/
def laneAll (n : Nat) (es : List Bool) (lane : Nat) : Bool := ((es.drop (lane * n)).take n).all id

/-- An element-wise result of one format from sources of one format: flags of lanes that are on are
ORed into FFLAGS (R101, R131). -/
def Flight.elementwise (x : Flight) (i : VInsn) (m : BitVec 128) (dst : Fmt) (rs : List Res)
    (extra : BitVec 5) : Flight :=
  let w := fmtWidth dst
  let n := 32 / w
  let on := (rs.zipIdx.filter fun p => laneOn m (p.2 / n)).map (·.1)
  let x := x.flag (orFlags on ||| extra)
  x.putVec i.d m (packElems w x.nlanes (rs.map (·.bits))) dst none

/-! ### Group 4: addresses, bounds and homes -/

/-- The 3-bit code of a space. -/
def spaceCode (s : Space) : BitVec 3 := s.code

/-- The effective address of a scalar access whose instruction shifts its index by `sh`: LD, ST, LDV and STV by
SH, the others by 0 (R160, R170). -/
def Flight.ea (x : Flight) (i : MInsn) (sh : Nat) : Word :=
  x.rdS i.base + (x.rdS i.index <<< sh) + i.off.signExtend 64

/-- The effective address without an index, of LDT, STT and BND (R160, R174, R180). -/
def Flight.eaBase (x : Flight) (i : MInsn) : Word := x.rdS i.base + i.off.signExtend 64

/-- The effective address of one lane (R160). -/
def Flight.eaLane (x : Flight) (i : MInsn) (u : Bool) (sh : Nat) (lane : Lane) : Word :=
  let k : Word := if u then lane.setWidth 64 else lane.signExtend 64
  x.rdS i.base + (k <<< sh) + i.off.signExtend 64

/-- Bytes of LOCAL of the gang: a Gaffer core has no cells (R159, R163). -/
def Flight.localSize (x : Flight) : Nat := if x.who.seq.gaffer then 0 else x.nlanes / 8 * 32768

/-- First address past a space as a gang sees it (R159). -/
def Flight.spaceEnd (x : Flight) (sp : BitVec 3) : Nat :=
  match sp.toNat with
  | 0 => 2 ^ 56
  | 1 => 2 ^ 24
  | 2 => x.localSize
  | 3 => 0x300000000
  | _ => 0

/-- Whether two byte ranges meet. -/
def overlaps (a n b m : Nat) : Bool := decide (a < b + m) && decide (b < a + n)

/-- The fault of bytes of cluster store that touch a barrier object or ring storage (R165); no byte touches none. -/
def State.clusterKind (s : State) (die : Fin 4) (cl : Fin 16) (a n : Nat) : Option FaultCode :=
  let here (rid : Nat) (rc : Fin 16) : Bool :=
    match s.region rid with
    | some r => r.die == die && r.cluster rc.val == cl
    | none => false
  let a := a % 2 ^ 56
  if n = 0 then none
  else if s.chan.bars.any fun b => here b.id.rid b.id.rc && overlaps a n b.addr.toNat 16 then
    some .barrierState
  else if s.chan.rings.any fun r => r.store && here r.id.rid r.id.rc &&
      overlaps a n r.base.toNat ((r.nslotM1.toNat + 1) * (16 * (r.slotszM1.toNat + 1))) then
    some .ringState
  else none

/-- What a group 4 access comes to: the homes of its bytes with the page entries its walks mark, each with
an address it translated, a fault,
or an access held at its port (R358). -/
inductive Access
  | ok (homes : List Nat) (entries : List (Nat × Nat))
  | fail (f : FaultInfo)
  | held
  deriving DecidableEq, Repr, Inhabited

/-- The access type that a failed translation reports: of an atomic through a page of the weight store, a write
(R166, R343). -/
def State.refusedAs (s : State) (c : BitVec 12) (va access : Nat) : Nat :=
  let w := s.lookup c va
  if access = 3 && bits w.leaf.toNat 60 59 == 1 && (w.state == 1 || w.state == 3) then 2 else access

/-- The report of a failed translation: PROTECT is an ordinary fault, PAGE and POISON carry the page state and the
walk level (R363). -/
def FaultInfo.ofPage (f : FaultInfo) (code : FaultCode) (page : BitVec 3 × BitVec 2) (va : Nat) : FaultInfo :=
  { f with code := code, va := va, pageAt := if code = .protect then none else some page }

/-- The homes of consecutive bytes of GLOBAL, in ascending order (R358). -/
def State.globalHomes (s : State) (c : BitVec 12) (perm : Perm) (f : FaultInfo) :
    List Nat → Access
  | [] => .ok [] []
  | a :: as =>
    match s.xlat c a perm.code with
    | .held => .held
    | .bad code page =>
      .fail ({ f with access := s.refusedAs c a f.access }.ofPage code page a)
    | .ok h e =>
      match s.globalHomes c perm f as with
      | .ok hs es => .ok (h :: hs) (if es.any (·.1 == e) then es else (e, a) :: es)
      | o => o

/-- The homes of listed addresses of a space that has passed its checks (R159, R163, R166). -/
def State.spaceHomes (s : State) (x : Flight) (sp : BitVec 3) (perm : Perm) (f : FaultInfo)
    (as : List Nat) : Access :=
  let isl := x.who.seq.isl
  match sp.toNat with
  | 0 => s.globalHomes x.ctx perm f as
  | 1 => .ok (as.map (homeCluster isl.die isl.cluster)) []
  | 2 => .ok (as.map fun a => homeCell isl (x.who.seq.base.val * 32768 + a)) []
  | _ =>
    let hs := as.map (homeWeight isl.die)
    if hs.any fun h => (s.die isl.die).fenced.any fun g => g.val == (weightBank h).2 then
      .fail { f with code := .poison }
    else .ok hs []

/-- The checks of R162 and R165 on one access of the block at work: bounds, then the kind of cluster store, then
alignment, then translation. An address past the end of its space fails its bounds. `kinds` says whether R165 holds for
the instruction: for group 4, and where its own rule names R165. -/
def State.accessAt (s : State) (x : Flight) (bh : BitVec 4) (sp : BitVec 3) (perm : Perm) (ea : Word)
    (a z align lane : Nat) (kinds : Bool := true) : Access :=
  let f : FaultInfo :=
    { code := .bounds, access := perm.code, lane := lane, handle := bh.toNat, ea := ea }
  if !(x.r.rdB bh).passes sp perm a z || decide (x.spaceEnd sp < a + z) then .fail f
  else
    match (if sp = 1 ∧ kinds then s.clusterKind x.who.seq.isl.die x.who.seq.isl.cluster a z else none) with
    | some c => .fail { f with code := c }
    | none =>
      if a % align ≠ 0 then .fail { f with code := .align }
      else s.spaceHomes x sp perm f ((List.range z).map (a + ·))

/-- The access at an effective address (R160, R162). -/
def State.access (s : State) (x : Flight) (bh : BitVec 4) (sp : BitVec 3) (perm : Perm) (ea : Word)
    (z align lane : Nat) (kinds : Bool := true) : Access :=
  s.accessAt x bh sp perm ea (ea.toNat % 2 ^ 56) z align lane kinds

/-- An access carried on: the fault raised, the block held, or its homes used and the walks' marks
staged (R357, R358). -/
def Flight.withAccess (x : Flight) (acc : Access) (write : Bool) (f : List Nat → Flight → Flight) :
    Flight :=
  match acc with
  | .fail e => x.fail e
  | .held => { x with held := true }
  | .ok hs es =>
    f hs { es.foldl (fun x e => x.stage (.walked e.1 e.2 write)) x with reqs := x.reqs + 1 }

/-- Accesses of several lanes, in ascending lane order: the first that fails or is held stands (R162). -/
def laneAccesses (f : Nat → Access) : List Nat → Access
  | [] => .ok [] []
  | l :: ls =>
    match f l with
    | .ok hs es =>
      match laneAccesses f ls with
      | .ok hs' es' => .ok (hs ++ hs') (es ++ es')
      | o => o
    | o => o

/-- The width and signedness of an LD or ST code (R171). -/
def loadInfo (f : Fmt) : Nat × Bool :=
  match f with
  | .int8 => (1, true)
  | .uint8 => (1, false)
  | .int16 => (2, true)
  | .uint16 => (2, false)
  | .int32 => (4, true)
  | .uint32 => (4, false)
  | .fp32 => (4, false)
  | _ => (8, false)

/-- A loaded value extended to 64 bits as LD extends it (R171). -/
def extendLoad (f : Fmt) (v : Nat) : Word :=
  let (z, s) := loadInfo f
  if s then BitVec.ofInt 64 (toSigned (8 * z) v) else BitVec.ofNat 64 v

/-- The lanes of a mask below `n`, ascending. -/
def lanesOf (m : BitVec 128) (n : Nat) : List Nat := (List.range n).filter (laneOn m)

end Sys2Proof.Machine
end

