-- ==== Sys2Proof/Machine/Caps.lean ====
section
/-!
DEFINITION. The crash capsule as bytes: SHA-256, the forms of a record (R397), the sections and the table
(R396), the index (R395), the retrieval image (R398) and what CAPS reads (R407). PRESUMED: SHA-256 is that
of FIPS 180-4, which the spec names and does not define.
-/
namespace Sys2Proof.Machine

/-! ### SHA-256 -/

/-- The round constants. -/
def shaK : List (BitVec 32) :=
  [0x428a2f98, 0x71374491, 0xb5c0fbcf, 0xe9b5dba5, 0x3956c25b, 0x59f111f1, 0x923f82a4, 0xab1c5ed5] ++
  [0xd807aa98, 0x12835b01, 0x243185be, 0x550c7dc3, 0x72be5d74, 0x80deb1fe, 0x9bdc06a7, 0xc19bf174] ++
  [0xe49b69c1, 0xefbe4786, 0x0fc19dc6, 0x240ca1cc, 0x2de92c6f, 0x4a7484aa, 0x5cb0a9dc, 0x76f988da] ++
  [0x983e5152, 0xa831c66d, 0xb00327c8, 0xbf597fc7, 0xc6e00bf3, 0xd5a79147, 0x06ca6351, 0x14292967] ++
  [0x27b70a85, 0x2e1b2138, 0x4d2c6dfc, 0x53380d13, 0x650a7354, 0x766a0abb, 0x81c2c92e, 0x92722c85] ++
  [0xa2bfe8a1, 0xa81a664b, 0xc24b8b70, 0xc76c51a3, 0xd192e819, 0xd6990624, 0xf40e3585, 0x106aa070] ++
  [0x19a4c116, 0x1e376c08, 0x2748774c, 0x34b0bcb5, 0x391c0cb3, 0x4ed8aa4a, 0x5b9cca4f, 0x682e6ff3] ++
  [0x748f82ee, 0x78a5636f, 0x84c87814, 0x8cc70208, 0x90befffa, 0xa4506ceb, 0xbef9a3f7, 0xc67178f2]

/-- The initial hash value. -/
def shaInit : List (BitVec 32) :=
  [0x6a09e667, 0xbb67ae85, 0x3c6ef372, 0xa54ff53a, 0x510e527f, 0x9b05688c, 0x1f83d9ab, 0x5be0cd19]

/-- The message schedule, newest word first. -/
def shaSchedule : Nat → List (BitVec 32) → List (BitVec 32)
  | 0, w => w
  | n + 1, w =>
    let g (k : Nat) : BitVec 32 := (w[k]?).getD 0
    let s0 := (g 14).rotateRight 7 ^^^ (g 14).rotateRight 18 ^^^ (g 14 >>> 3)
    let s1 := (g 1).rotateRight 17 ^^^ (g 1).rotateRight 19 ^^^ (g 1 >>> 10)
    shaSchedule n ((g 15 + s0 + g 6 + s1) :: w)

/-- One round on the eight working words. -/
def shaRound (v : List (BitVec 32)) (kw : BitVec 32 × BitVec 32) : List (BitVec 32) :=
  match v with
  | [a, b, c, d, e, f, g, h] =>
    let t1 := h + (e.rotateRight 6 ^^^ e.rotateRight 11 ^^^ e.rotateRight 25)
      + ((e &&& f) ^^^ (~~~e &&& g)) + kw.1 + kw.2
    let t2 := (a.rotateRight 2 ^^^ a.rotateRight 13 ^^^ a.rotateRight 22)
      + ((a &&& b) ^^^ (a &&& c) ^^^ (b &&& c))
    [t1 + t2, a, b, c, d + t1, e, f, g]
  | v => v

/-- A big-endian number of bytes. -/
def beNat (l : List Byte) : Nat := leNat l.reverse

/-- One 64-byte block on. -/
def shaBlock (h : List (BitVec 32)) (blk : List Byte) : List (BitVec 32) :=
  let w := (List.range 16).map fun i => BitVec.ofNat 32 (beNat ((blk.drop (4 * i)).take 4))
  let w := (shaSchedule 48 w.reverse).reverse
  List.zipWith (· + ·) h ((shaK.zip w).foldl shaRound h)

/-- The blocks of a padded message. -/
def shaBlocks : Nat → List Byte → List (BitVec 32) → List (BitVec 32)
  | 0, _, h => h
  | n + 1, l, h => shaBlocks n (l.drop 64) (shaBlock h (l.take 64))

/-- SHA-256 of bytes. -/
def sha256 (l : List Byte) : List Byte :=
  let n := l.length
  let pad := (119 - n % 64) % 64
  let m := l ++ [0x80] ++ List.replicate pad 0 ++ (leBytes 8 (8 * n)).reverse
  (shaBlocks (m.length / 64) m shaInit).flatMap fun w => (leBytes 4 w.toNat).reverse

/-! ### Records and sections (R396, R397) -/

/-- The tick of a record. -/
def recTick (r : BitVec 256) : Nat := (r.extractLsb' 0 48).toNat

/-- The unit of a record. -/
def recUnit (r : BitVec 256) : BitVec 20 := r.extractLsb' 48 20

/-- The context of a record; none when NOCTX is set. -/
def recCtx (r : BitVec 256) : Option (BitVec 12) :=
  if r.getLsbD 114 then none else some (r.extractLsb' 68 12)

/-- The device-wide form (R397): TICK, UNIT, CTX, CAT and CODE kept, DEV set; a NOCTX record whole. -/
def recDevice (r : BitVec 256) : BitVec 256 :=
  if r.getLsbD 114 then r else (r &&& BitVec.ofNat 256 (2 ^ 92 - 1)) ||| BitVec.twoPow 256 112

/-- The operator form (R397): PAYLOAD zeroed. -/
def recOperator (r : BitVec 256) : BitVec 256 := r &&& BitVec.ofNat 256 (2 ^ 128 - 1)

/-- The bytes of records. -/
def recBytes (l : List (BitVec 256)) : List Byte := l.flatMap fun r => leBytes 32 r.toNat

/-- A section in its operator form (R397): a context's section whose context is not in partition 0. -/
def State.operForm (s : State) (c : Section) : List (BitVec 256) :=
  if c.kind = 1 ∧ !c.own ∧ s.hub.boot.life ≠ .diagnostic then c.recs.map recOperator
  else c.recs

/-- The entries of the section table from a body offset on (R396). -/
def State.tableFrom (s : State) : Nat → List Section → List Byte
  | _, [] => []
  | off, c :: cs =>
    let b := recBytes c.recs
    let o := if c.kind = 1 ∧ !c.own then recBytes (c.recs.map recOperator) else b
    leBytes 2 c.ctx.toNat ++ [c.kind] ++ leBytes 1 0 ++ leBytes 4 c.recs.length ++ leBytes 8 off
      ++ leBytes 8 b.length ++ sha256 b ++ sha256 o ++ leBytes 8 0 ++ s.tableFrom (off + b.length) cs

/-- The section table (R396). -/
def State.sectionTable (s : State) : List Byte := s.tableFrom 0 s.dbg.capsule.sections

/-- The code of a life-cycle state, in the order of R421. -/
def Life.code : Life → Nat
  | .manufacture => 0
  | .provisioned => 1
  | .deployed => 2
  | .diagnostic => 3
  | .decommissioned => 4

/-- The code of a capsule state (R395). -/
def CapState.code : CapState → Nat
  | .empty => 0
  | .frozen => 1
  | .sealed_ => 2
  | .retrieved => 3

/-- Bytes 0 to 95 of the capsule index; `live` keeps STATE and LOSTFAULTS, which the digest reads as zero
(R395). -/
def State.capsIndex (s : State) (live : Bool) : List Byte :=
  let c := s.dbg.capsule
  leBytes 4 0x53504143 ++ leBytes 2 1 ++ leBytes 1 (if live then c.state.code else 0) ++ [c.cause]
    ++ leBytes 6 c.t ++ leBytes 2 c.h ++ leBytes 6 c.tcut ++ leBytes 2 c.ctx.toNat
    ++ leBytes 3 c.unit.toNat ++ [c.strand] ++ [c.life] ++ leBytes 1 0
    ++ leBytes 2 (if live then c.lost else 0) ++ leBytes 4 s.hub.boot.device.toNat
    ++ leBytes 4 c.sections.length
    ++ leBytes 8 (c.sections.foldl (fun n x => n + 32 * x.recs.length) 0) ++ leBytes 16 0
    ++ sha256 s.sectionTable

/-- The digest that is signed (R395). -/
def State.capsDigest (s : State) : List Byte := sha256 (s.capsIndex false)

/-- The sections that a caller's form returns, as stored or in operator form (R398). -/
def State.capsSections (s : State) (c : BitVec 12) (oper : Bool) : List (List (BitVec 256)) :=
  if oper then s.dbg.capsule.sections.map s.operForm
  else (s.dbg.capsule.sections.filter fun x => x.kind == 0 || x.ctx == c).map (·.recs)

/-- Whether the capsule may be retrieved. -/
def Capsule.ready (c : Capsule) : Bool := c.state == .sealed_ || c.state == .retrieved

/-- The retrieval image (R398): the index, the signature padded, the whole section table, the sections. -/
def State.capsImage (s : State) (c : BitVec 12) (oper : Bool) : List Byte :=
  s.capsIndex true ++ s.capsDigest ++ padTo 17152 s.dbg.capsule.signature ++ s.sectionTable
    ++ (s.capsSections c oper).flatMap recBytes

/-- The length of the retrieval image, 0 outside SEALED and RETRIEVED (R407). -/
def State.capsSize (s : State) (c : BitVec 12) (oper : Bool) : Nat :=
  if s.dbg.capsule.ready then
    128 + 17152 + 96 * s.dbg.capsule.sections.length
      + (s.capsSections c oper).foldl (fun n x => n + 32 * x.length) 0
  else 0

/-- CAPS.st (R407). -/
def State.capsState (s : State) (c : BitVec 12) : Word :=
  let k := s.dbg.capsule
  if k.state = .empty then 0
  else BitVec.ofNat 64 (k.state.code
    + (if k.sections.any fun x => x.kind == 1 && x.ctx == c then 8 else 0)
    + k.cause.toNat * 2 ^ 8 + k.t * 2 ^ 16)

end Sys2Proof.Machine
end

