-- ==== Sys2Proof/Machine/RingOps.lean ====
section
/-!
DEFINITION. The instructions of rings and barriers (R202-R207, R221-R225). Their issue conditions stand
with the issue of blocks.
-/
namespace Sys2Proof.Machine

/-! ### Rings -/

/-- A ring instruction acting on the view of its handle in a direction: RING_STATE when there is none
(R65, R202). -/
def Flight.withView (x : Flight) (h : BitVec 5) (prod : Bool) (f : RView → Flight) : Flight :=
  match x.view h.toNat prod with
  | some v => f v
  | none => x.failCode .ringState

/-- The count of RRELS and RADVW: IMM17, or s(A) as it stood at block start (R49, R204). -/
def ringCount (x : Flight) (i : SInsn) : Nat :=
  if i.mod = 0 then i.imm.toNat else (x.startS i.a).toNat

/-- Whether a count lies in 1..256 (R204). -/
def countIn (n : Nat) : Bool := decide (1 ≤ n) && decide (n ≤ 256)

/-- RWAITF: the unreserved filled count seen at issue (R203). -/
def execRwaitf (i : SInsn) (s : State) : Out :=
  act s (s.x.scalarAct i.g fun x =>
    x.withView i.h false fun v => x.wrS i.d (BitVec.ofNat 64 v.filled))

/-- RWAITE: the unreserved free count seen at issue (R203). -/
def execRwaite (i : SInsn) (s : State) : Out :=
  act s (s.x.scalarAct i.g fun x =>
    x.withView i.h true fun v => x.wrS i.d (BitVec.ofNat 64 v.free))

/-- A view after the release of `n` tokens at its head, whatever their sticky state (R204). -/
def RView.release (v : RView) (n : Nat) : RView :=
  { v.goto (v.pos + n) with reach := max v.reach (v.pos + n), frees := v.frees ++ [n] }

/-- RRELS (R204). -/
def execRrels (i : SInsn) (s : State) : Out :=
  act s (s.x.scalarAct i.g fun x =>
    x.withView i.h false fun v =>
      let n := ringCount x i
      if !countIn n || decide (v.toks.length < v.pos + n) then x.failCode .ringState
      else x.setView (v.release n))

/-- Tokens of zero bytes pushed one after another. -/
def pushZeros (h : Nat) (f : Fmt) : Nat → Flight → Flight
  | 0, x => x
  | n + 1, x => pushZeros h f n (x.push h f [] 0)

/-- RADVW (R205). -/
def execRadvw (i : SInsn) (s : State) : Out :=
  act s (s.x.scalarAct i.g fun x =>
    x.withView i.h true fun _ =>
      let n := ringCount x i
      if !countIn n then x.failCode .ringState
      else pushZeros i.h.toNat ((Fmt.ofCode (i.c.setWidth 5)).getD .raw) n x)

/-- RSTAT: the ring as sampled at issue (R206). -/
def execRstat (i : SInsn) (s : State) : Out :=
  act s (s.x.scalarAct i.g fun x =>
    match (x.view i.h.toNat false).or (x.view i.h.toNat true) with
    | none => x.failCode .ringState
    | some v =>
      let n : Nat := match i.mod.toNat with
        | 0 => v.filled
        | 1 => v.free
        | 2 => v.rp.toNat
        | 3 => v.wp.toNat
        | 4 => v.nslot
        | 5 => v.slotsz
        | 6 => v.stall
        | _ => v.starve
      x.wrS i.d (BitVec.ofNat 64 n))

/-- RFLUSH: its count is settled at commit (R207, R49). -/
def execRflush (i : SInsn) (s : State) : Out :=
  act s (s.x.scalarAct i.g fun x =>
    x.withView i.h false fun v =>
      (x.wrLate i.d).stage (.flush v.id x.idx))

/-! ### Barriers -/

/-- The region cluster in which the block at work runs (R215, R278). -/
def State.rcOf (s : State) (x : Flight) : Fin 16 :=
  match s.gang x.who.seq with
  | some g => ⟨g.rc % 16, Nat.mod_lt _ (by decide)⟩
  | none => 0

/-- The barrier an index names (R215). -/
def State.barIdOf (s : State) (x : Flight) (h : Nat) : BarId :=
  ⟨x.rid, s.rcOf x, ⟨h % 32, Nat.mod_lt _ (by decide)⟩⟩

/-- The physical element address of a barrier of a strand's cluster (R278, R339). -/
def barElem (x : Flight) (h : Nat) : Nat := x.who.seq.isl.cluster.val * 2 ^ 18 + 3 * 2 ^ 15 + 0x200 + h

/-- A barrier as seen at issue: BARRIER_STATE when the region's table does not hold it, PROTECT, with the barrier's
element address, when it belongs to another context (R222, R339). -/
def Flight.withBar (x : Flight) (h : Nat) (f : BarObj → Flight) : Flight :=
  match x.bars.find? (·.1 == h) with
  | none => x.fail { code := .barrierState, aux := h }
  | some (_, none) => x.fail { code := .protect, aux := h, element := barElem x h }
  | some (_, some b) => f b

/-- A barrier event that leaves at commit (R219, R223): byte counts stay below 2^43 (R222). -/
def Flight.sendBar (s : State) (x : Flight) (h : Nat) (n : Nat) (e : BarEvent) : Flight :=
  x.withBar h fun _ =>
    if 2 ^ 43 ≤ n then x.fail { code := .barrierState, aux := h }
    else x.stage (.barrier (s.barIdOf x h) e x.idx)

/-- BINIT (R222, R223). -/
def execBinit (i : SInsn) (s : State) : Out :=
  act s (s.x.scalarAct i.g fun x =>
    let a := (x.rdS i.a).toNat
    let n := (x.rdS i.b).toNat
    x.withBar i.h.toNat fun _ =>
      if a = 0 ∨ 65535 < a then x.fail { code := .barrierState, aux := i.h.toNat }
      else Flight.sendBar s x i.h.toNat n (.init a n))

/-- BARV: an arrival with bytes, or bytes alone (R223). -/
def execBarv (i : SInsn) (s : State) : Out :=
  act s (s.x.scalarAct i.g fun x =>
    let n := (x.rdS i.b).toNat
    Flight.sendBar s x i.h.toNat n (if i.mod = 0 then .arrive n else .credit n))

/-- BEXP: a debit, alone or with an arrival (R223). -/
def execBexp (i : SInsn) (s : State) : Out :=
  act s (s.x.scalarAct i.g fun x =>
    let n := (x.rdS i.b).toNat
    Flight.sendBar s x i.h.toNat n (if i.mod = 0 then .debit n else .debitArrive n))

/-- BWAIT: its wait is an issue condition; a broken barrier faults (R224). -/
def execBwait (i : SInsn) (s : State) : Out :=
  act s (s.x.scalarAct i.g fun x =>
    x.withBar i.h.toNat fun b =>
      if b.ovf then x.fail { code := .barrierState, aux := i.h.toNat } else x)

/-- BTEST (R225). -/
def execBtest (i : SInsn) (s : State) : Out :=
  act s (s.x.scalarAct i.g fun x =>
    x.withBar i.h.toNat fun b =>
      let v : Word := match i.mod.toNat with
        | 0 => if b.phase then 1 else 0
        | 1 => BitVec.ofNat 64 b.arr
        | 2 => BitVec.ofInt 64 b.bytes
        | 3 => BitVec.ofNat 64 b.exparr
        | 4 => BitVec.ofNat 64 b.expbytes
        | _ => if b.ovf then 1 else 0
      x.wrS i.d v)

end Sys2Proof.Machine
end

