-- ==== Sys2Proof/Machine/Copy.lean ====
section
/-!
DEFINITION. Submitting jobs, and the copy instructions (R210-R213, R245).
-/
namespace Sys2Proof.Machine

/-! ### Submission (R186, R336) -/

/-- The number of the next job the block at work submits: the counter goes forward by one (R336).
DESIGN CHOICE: the counter is 0 at launch, and the first job is number 1. -/
def Flight.nextJob (x : Flight) : BitVec 16 := x.r.jobctr + 1

/-- A job with nothing but its kind, scope and number. -/
def Flight.newJob (x : Flight) (kind : JobKind) (scope : BitVec 4) : JobReq where
  kind := kind
  index := x.idx
  scope := scope
  bar := none
  ev := false
  recAt := none
  bytes := []
  args := []
  hs := x.r.b
  tile := none
  path := none
  ring := none
  seqno := x.nextJob

/-- A job submitted at commit: it takes its number (R336). -/
def Flight.submit (x : Flight) (j : JobReq) : Flight :=
  { x.stage (.job j) with r := { x.r with jobctr := j.seqno } }

/-- A job submitted whose number is written to a destination (R210). -/
def Flight.submitTo (x : Flight) (d : BitVec 6) (j : JobReq) : Flight :=
  (x.submit j).wrS d (j.seqno.setWidth 64)

/-- The barrier that a submission names, checked where its index stands (R437). -/
def Flight.withJobBar (x : Flight) (bar : Option Nat) (f : Flight → Flight) : Flight :=
  match bar with
  | none => f x
  | some b => x.withBar b fun _ => f x

/-! ### Ranges checked in the block (R211) -/

/-- The check of R162 and R165 on a job's range, alignment and translation aside. DEDUCED: its fault reports the access
type of a job (R343). -/
def Flight.rangeFault (x : Flight) (bh : BitVec 4) (sp : BitVec 3) (perm : Perm) (ea : Word)
    (z : Nat) : Option FaultInfo :=
  let a := ea.toNat % 2 ^ 56
  let f : FaultInfo := { code := .bounds, access := 5, handle := bh.toNat, ea := ea }
  if !(x.r.rdB bh).passes sp perm a z || decide (x.spaceEnd sp < a + z) then some f
  else none

/-- The kind check of R165 on a job's range. -/
def State.kindFault (s : State) (x : Flight) (bh : BitVec 4) (sp : BitVec 3) (ea : Word)
    (z : Nat) : Option FaultInfo :=
  if sp = 1 then
    (s.clusterKind x.who.seq.isl.die x.who.seq.isl.cluster (ea.toNat % 2 ^ 56) z).map fun c =>
      { code := c, access := 5, handle := bh.toNat, ea := ea }
  else none

/-- CPY (R211). Its command carries the two addresses, the count, the two spaces and the two handles. -/
def execCpy (i : SInsn) (s : State) : Out :=
  act s (s.x.scalarAct i.g fun x =>
    let dbh := i.imm.extractLsb' 0 4
    let sbh := i.imm.extractLsb' 4 4
    let dsp := i.imm.extractLsb' 8 3
    let ssp := i.imm.extractLsb' 11 3
    let bar := if i.imm.getLsbD 15 then none else some i.h.toNat
    let dst := x.rdS i.a
    let src := x.rdS i.b
    let n := (x.rdS i.c).toNat
    if 2 ^ 32 ≤ n then x.fail { code := .bounds, access := 5, handle := dbh.toNat, ea := dst }
    else
      match (x.rangeFault dbh dsp .store dst n).or ((x.rangeFault sbh ssp .load src n).or
          ((s.kindFault x dbh dsp dst n).or (s.kindFault x sbh ssp src n))) with
      | some f => x.fail f
      | none =>
        x.withJobBar bar fun x =>
          x.submitTo i.d { x.newJob .copyLinear i.mod with
            bar := bar, ev := i.imm.getLsbD 14
            args := [dst, src, BitVec.ofNat 64 n, dsp.setWidth 64, ssp.setWidth 64, dbh.setWidth 64,
              sbh.setWidth 64] })

/-- A record in cluster store read at commit: checked in the block against its handle (R212, R436), under R162, and
under R165 where `kinds` says so. -/
def Flight.withRecord (s : State) (x : Flight) (bh : BitVec 4) (sp : BitVec 3) (ea : Word)
    (z align : Nat) (f : Nat → Flight → Flight) (kinds : Bool := false) : Flight :=
  x.withAccess (s.access x bh sp .load ea z align 0 kinds) false fun hs x => f (hs.headD 0) x

/-- CPYT (R212). Its command carries the dense address, the spaces and handles of the tensor and the dense
side, and the direction. -/
def execCpyt (i : SInsn) (s : State) : Out :=
  act s (s.x.scalarAct i.g fun x =>
    let bar := if i.imm.getLsbD 15 then none else some i.h.toNat
    Flight.withRecord s x (i.c.setWidth 4) 1 (x.rdS i.a) 96 32 fun h x =>
      x.withJobBar bar fun x =>
        x.submitTo i.d { x.newJob .copyTensor i.mod with
          bar := bar, ev := i.imm.getLsbD 14, recAt := some (h, 96)
          args := [x.rdS i.b, (i.imm.extractLsb' 8 3).setWidth 64, (i.imm.extractLsb' 11 3).setWidth 64,
            (i.imm.extractLsb' 0 4).setWidth 64, (i.imm.extractLsb' 4 4).setWidth 64,
            if i.imm.getLsbD 16 then 1 else 0] })

/-- Whether a ring's producer binding is a copy-engine port of a cluster: elements 0 to 7 of its streamer island
(R213, R278). -/
def Ring.copyFed (r : Ring) (cl : Fin 16) : Bool :=
  bits r.prodEl.toNat 17 15 == 2 && decide (bits r.prodEl.toNat 12 0 < 8) && bits r.prodEl.toNat 21 18 == cl.val

/-- The ring a CPYQ fills: the one its handle names, produced by a copy engine of the cluster (R213). -/
def State.copyRing (s : State) (x : Flight) (h : Nat) : Option RingId :=
  match (x.view h false).or (x.view h true) with
  | none => none
  | some v =>
    match s.ring v.id with
    | some r => if r.copyFed x.who.seq.isl.cluster then some v.id else none
    | none => none

/-- CPYQ (R213). Its command carries the slot count, AX, the tensor's space and its handle. -/
def execCpyq (i : SInsn) (s : State) : Out :=
  act s (s.x.scalarAct i.g fun x =>
    let bar := if i.imm.getLsbD 5 then none else some (i.imm.extractLsb' 0 5).toNat
    let n := (x.rdS i.b).toNat
    Flight.withRecord s x (i.c.setWidth 4) 1 (x.rdS i.a) 96 32 fun h x =>
      if 2 ^ 32 ≤ n then x.failCode .ringState
      else
        match s.copyRing x i.h.toNat with
        | none => x.failCode .ringState
        | some rid =>
          x.withJobBar bar fun x =>
            x.submitTo i.d { x.newJob .copyRing i.mod with
              bar := bar, ev := i.imm.getLsbD 6, recAt := some (h, 96), ring := some (rid, 0)
              args := [BitVec.ofNat 64 n, (i.imm.extractLsb' 7 3).setWidth 64,
                (i.imm.extractLsb' 14 3).setWidth 64, (i.imm.extractLsb' 10 4).setWidth 64] })

/-- The storage width of a CPYB's rows: 8 for scales, 16 for masks (R245). -/
def cpybWidth (kind fmt : Nat) : Nat :=
  match kind with
  | 0 => fmtWidth ((Fmt.ofCode (BitVec.ofNat 5 fmt)).getD .raw)
  | 1 => 8
  | _ => 16

/-- CPYB (R245). Its command carries the source address, its space and handle, s(B), the row count, the
format and the kind. -/
def execCpyb (i : SInsn) (s : State) : Out :=
  act s (s.x.scalarAct i.g fun x =>
    let bar := if i.imm.getLsbD 8 then none else some i.h.toNat
    let sp := i.imm.extractLsb' 4 3
    let bh := i.imm.extractLsb' 0 4
    let fmt := i.imm.extractLsb' 9 5
    let kind := i.imm.extractLsb' 14 2
    let src := x.rdS i.a
    let rows := x.rdS i.c
    match x.rangeFault bh sp .load src (rows.toNat * 16 * cpybWidth kind.toNat fmt.toNat) with
    | some f => x.fail f
    | none =>
      x.withJobBar bar fun x =>
        x.submitTo i.d { x.newJob .cpyb i.mod with
          bar := bar, ev := i.imm.getLsbD 7
          args := [src, sp.setWidth 64, bh.setWidth 64, x.rdS i.b, rows, fmt.setWidth 64,
            kind.setWidth 64] })

end Sys2Proof.Machine
end

