-- ==== Sys2Proof/Machine/Harness.lean ====
section
/-!
DEFINITION. The harness stream: its words (R274-R277), the elements and fields it may write
(R278-R282), the combinations the loader refuses (R283, R284, R287), and what a region's configuration
says of its nodes, groups and strands (R293, R309, R310).
-/
namespace Sys2Proof.Machine

/-! ### Element addresses (R278) -/

/-- The region cluster of an element address. -/
def elCluster (el : Nat) : Nat := bits el 21 18

/-- The unit type. -/
def elType (el : Nat) : Nat := bits el 17 15

/-- The unit index. -/
def elIndex (el : Nat) : Nat := bits el 14 13

/-- The element within its unit. -/
def elNum (el : Nat) : Nat := bits el 12 0

/-- An element address from its parts. -/
def elAddr (cluster type index num : Nat) : Nat := cluster * 2 ^ 18 + type * 2 ^ 15 + index * 2 ^ 13 + num

/-- The kinds of element. -/
inductive ElKind
  | gang | lut | gaffer | bitfield | stream | copy | memory | converter | ring | barrier | trigger
  | entrance | skive | routing | rate | endpoint
  deriving DecidableEq, Repr, Inhabited

/-- The kind of an element address; none where R278 defines no element. -/
def elKind (el : Nat) : Option ElKind :=
  let n := elNum el
  let i := elIndex el
  match elType el with
  | 0 =>
    if n ≤ 0x3f then some .gang
    else if 0x400 ≤ n ∧ n ≤ 0x7ff then some .lut
    else if n = 0x800 then some .gaffer
    else if 0x810 ≤ n ∧ n ≤ 0x81f then some .bitfield
    else none
  | 1 => if n = 0 then some .stream else none
  | 2 =>
    if i ≠ 0 then none
    else if n ≤ 7 then some .copy
    else if 0x20 ≤ n ∧ n ≤ 0x3f then some .memory
    else if 0x40 ≤ n ∧ n ≤ 0x47 then some .converter
    else none
  | 3 =>
    if i ≠ 0 then none
    else if n ≤ 0x1ff then some .ring
    else if 0x200 ≤ n ∧ n ≤ 0x21f then some .barrier
    else if 0x300 ≤ n ∧ n ≤ 0x307 then some .trigger
    else if n = 0x310 then some .entrance
    else if n = 0x320 then some .skive
    else none
  | 4 =>
    if elCluster el ≠ 0 then none
    else if i = 0 ∧ n = 0 then some .routing
    else if i = 1 ∧ n = 0 then some .rate
    else if i = 2 ∧ n ≤ 0xff then some .endpoint
    else none
  | _ => none

/-- Whether a kind of element is a node (R279). -/
def ElKind.isNode : ElKind → Bool
  | .gang | .gaffer | .bitfield | .stream | .copy | .memory | .converter | .skive | .routing
  | .endpoint => true
  | _ => false

/-! ### Fields (R279-R282) -/

/-- A code of a format. -/
def fmtOk (c : Nat) : Bool := decide (c ≤ 0x18)

/-- The width of a field of a kind of element, with its stated range as a test; none for a field that the
kind does not have. -/
def fieldSpec (k : ElKind) (f : Nat) : Option (Nat × (Nat → Bool)) :=
  let any : Nat → Bool := fun _ => true
  let own : Option (Nat × (Nat → Bool)) :=
    match k, f with
    | .gang, 1 => some (3, fun v => decide (v ≤ 4))
    | .gang, 45 => some (12, any)
    | .gang, f =>
      if 4 ≤ f ∧ f ≤ 11 then some (56, fun v => v % 8 == 0)
      else if 12 ≤ f ∧ f ≤ 19 then some (20, fun v => v % 4 != 0 && decide (16 ≤ v / 16))
      else if 20 ≤ f ∧ f ≤ 27 then some (4, fun v => decide (v ≤ 8))
      else none
    | .lut, 1 => some (60, any)
    | .gaffer, 1 => some (56, fun v => v % 8 == 0)
    | .bitfield, 1 => some (10, any)
    | .bitfield, 2 => some (10, any)
    | .bitfield, 3 => some (10, any)
    | .bitfield, 4 => some (9, any)
    | .stream, 1 => some (15, fun v =>
        decide (bits v 4 0 ≤ 0x0f) && decide (bits v 9 5 ≤ 0x0f) && (bits v 14 10 == 0 || bits v 14 10 == 2 || bits v 14 10 == 3))
    | .stream, 2 => some (14, fun v => v % 32 == 0 && decide (32 ≤ v ∧ v ≤ 8192))
    | .stream, 3 => some (16, any)
    | .stream, 4 => some (16, any)
    | .stream, 5 => some (16, any)
    | .stream, 6 => some (3, fun v => v == 0 || v == 3 || v == 4 || v == 6)
    | .stream, 7 => some (2, any)
    | .stream, 8 => some (7, fun v => decide (1 ≤ v ∧ v ≤ 64))
    | .copy, 1 => some (1, any)
    | .copy, 2 => some (24, fun v => v % 32 == 0)
    | .copy, 3 => some (3, fun v => decide (v ≤ 4))
    | .copy, 4 => some (32, any)
    | .copy, 5 => some (4, fun v => decide (v ≤ 5))
    | .copy, 6 => some (16, any)
    | .copy, 7 => some (16, any)
    | .copy, 8 => some (24, fun v => v % 16 == 0)
    | .memory, 1 => some (2, fun v => v != 3)
    | .memory, 2 => some (56, any)
    | .memory, 3 => some (5, fmtOk)
    | .memory, 4 => some (3, fun v => v == 0 || v == 1 || v == 3)
    | .memory, 5 => some (56, any)
    | .memory, 6 => some (56, any)
    | .memory, 7 => some (3, any)
    | .memory, 16 => some (2, any)
    | .memory, f =>
      if 8 ≤ f ∧ f ≤ 11 then some (48, any)
      else if 12 ≤ f ∧ f ≤ 15 then some (32, any)
      else if 17 ≤ f ∧ f ≤ 20 then some (56, any)
      else if 21 ≤ f ∧ f ≤ 24 then some (32, any)
      else none
    | .converter, 1 => some (10, fun v => (Fmt.ofCode (BitVec.ofNat 5 (bits v 4 0))).any Fmt.inF && decide (bits v 8 6 ≤ 4))
    | .skive, 1 => some (24, any)
    | .skive, 2 => some (32, any)
    | .skive, 3 => some (32, any)
    | .skive, 4 => some (17, any)
    | .routing, 1 => some (24, any)
    | .routing, 2 => some (56, fun v => v % 4096 == 0)
    | .endpoint, 1 => some (24, any)
    | .endpoint, 2 => some (8, fun v =>
        bits v 1 0 == 0 || [Fmt.fp32, .bf16, .fp16, .int32].any fun f => f.code.toNat == bits v 6 2)
    | .ring, 1 => some (28, any)
    | .ring, 2 => some (28, any)
    | .ring, 3 => some (24, any)
    | .ring, 4 => some (24, fun v => v % 16 == 0)
    | .ring, 5 => some (5, any)
    | .ring, 6 => some (5, any)
    | .ring, 7 => some (8, any)
    | .barrier, 1 => some (16, fun v => decide (1 ≤ v))
    | .barrier, 2 => some (44, fun v => decide (v < 2 ^ 43))
    | .barrier, 3 => some (24, fun v => v % 16 == 0)
    | .trigger, 1 => some (28, any)
    | .trigger, 2 => some (32, fun v => decide (1 ≤ v))
    | .entrance, 1 => some (4, any)
    | .rate, 1 => some (28, any)
    | .rate, 2 => some (64, any)
    | .rate, 3 => some (16, any)
    | .rate, 4 => some (1, any)
    | .rate, 5 => some (64, any)
    | .rate, 6 => some (64, any)
    | _, _ => none
  if f = 0 then (if k = .lut then none else some (1, any))
  else
    match own with
    | some p => some p
    | none =>
      if !k.isNode then none
      else if f = 47 then some (16, fun v => decide (1 ≤ v))
      else if 48 ≤ f ∧ f ≤ 63 then
        some (9, fun v => if bit v 8 then decide (1 ≤ bits v 6 0 ∧ bits v 6 0 ≤ 64) else v == 0)
      else none

/-- Whether a write of a field of an element is one that R278 to R282 define, with a value in its range;
barriers and triggers belong to the stage 0 stream alone (R282). -/
def writeOk (stage el f v : Nat) : Bool :=
  match elKind el with
  | none => false
  | some k =>
    (stage == 0 || (k != .barrier && k != .trigger)) &&
    match fieldSpec k f with
    | some (w, ok) => decide (v < 2 ^ w) && ok v
    | none => false

/-! ### The words of a stream (R274-R277) -/

/-- One write of a stream: the offset of its word, the element, the field and the value. -/
structure Wr where
  off : Nat
  el  : Nat
  fld : Nat
  val : Nat
  deriving DecidableEq, Repr, Inhabited

/-- CRC-32C of one byte on (R276). -/
def crcByte (c : BitVec 32) (b : Byte) : BitVec 32 :=
  (List.range 8).foldl (fun c _ => if c.getLsbD 0 then (c >>> 1) ^^^ 0x82f63b78 else c >>> 1)
    (c ^^^ b.setWidth 32)

/-- CRC-32C of one word on. -/
def crcWord (c : BitVec 32) (w : BitVec 32) : BitVec 32 := (leBytes 4 w.toNat).foldl crcByte c

/-- Where the reading of a stream stands. -/
structure Reader where
  pos     : Nat
  begun   : Bool
  ended   : Bool
  partial_ : Bool
  ehi     : Nat
  pfx     : List Nat
  crc     : BitVec 32
  /-- a CRC value word comes next -/
  want    : Bool
  writes  : List Wr
  deriving DecidableEq, Repr, Inhabited

/-- A reader at the first word. -/
def Reader.start : Reader := ⟨0, false, false, false, 0, [], 0xffffffff, false, []⟩

/-- One word read; none where R277 refuses it. -/
def Reader.word (r : Reader) (stage : Nat) (w : BitVec 32) : Option Reader :=
  let n := w.toNat
  let r1 := { r with pos := r.pos + 1, crc := crcWord r.crc w }
  if r.want then
    if w = ~~~r.crc then some { r1 with want := false, crc := 0xffffffff } else none
  else if r.ended then none
  else if !r.begun then
    if bits n 31 26 = 0x30 ∧ bits n 21 0 = 0 ∧ bits n 25 23 = stage ∧ (stage ≠ 0 ∨ bit n 22 = false) then
      some { r1 with begun := true, partial_ := bit n 22 }
    else none
  else
    match bits n 31 30 with
    | 0 =>
      let el := r.ehi * 4096 + bits n 29 18
      let v := match r.pfx with
        | [] => bits n 11 0
        | [p] => p * 2 ^ 12 + bits n 11 0
        | p2 :: p1 :: _ => p1 * 2 ^ 42 + p2 * 2 ^ 12 + bits n 11 0
      if writeOk stage el (bits n 17 12) v then
        some { r1 with pfx := [], writes := ⟨r.pos, el, bits n 17 12, v⟩ :: r.writes }
      else none
    | 1 =>
      if r.pfx = [] ∧ bits n 29 10 = 0 then some { r1 with ehi := bits n 9 0 } else none
    | 2 => if r.pfx.length < 2 then some { r1 with pfx := bits n 29 0 :: r.pfx } else none
    | _ =>
      if r.pfx ≠ [] ∨ bits n 25 0 ≠ 0 then none
      else match bits n 29 26 with
        | 1 => some { r1 with ended := true }
        | 2 => some { r1 with want := true }
        | _ => none

/-- A stream read: its writes, newest first, or the offset of the first word that R277 refuses. -/
def Reader.run (stage : Nat) : List (BitVec 32) → Reader → Reader ⊕ Nat
  | [], r => if r.ended && !r.want then .inl r else .inr (r.pos - 1)
  | w :: ws, r =>
    match r.word stage w with
    | some r' => Reader.run stage ws r'
    | none => .inr r.pos

/-! ### Configurations -/

/-- Element fields in force: element, field, value. -/
abbrev Cfg := List (Nat × Nat × Nat)

/-- A field of a configuration. -/
def cfgGet (c : Cfg) (el f : Nat) (dflt : Nat := 0) : Nat :=
  ((c.find? fun p => p.1 == el && p.2.1 == f).map (·.2.2)).getD dflt

/-- A field written: the last write stands (R275). -/
def cfgSet (c : Cfg) (el f v : Nat) : Cfg := (el, f, v) :: c.filter fun p => !(p.1 == el && p.2.1 == f)

/-- Whether an element belongs to the kernel and not to a stage (R282). -/
def elKept (el : Nat) : Bool := elKind el == some .barrier || elKind el == some .trigger

/-- The configuration after a stream's writes (R287). -/
def applyWrites (c : Cfg) (partial_ : Bool) (ws : List Wr) : Cfg :=
  let base := if partial_ then c else c.filter fun p => elKept p.1
  ws.reverse.foldl (fun c w => cfgSet c w.el w.fld w.val) base

/-- Elements of a configuration, ascending, without repeats. -/
def cfgEls (c : Cfg) : List Nat := (sortBy (fun a b => decide (a ≤ b)) (c.map (·.1))).eraseDups

/-- Whether an element is enabled. -/
def cfgOn (c : Cfg) (el : Nat) : Bool := cfgGet c el 0 == 1

/-- The enabled elements of a kind. -/
def cfgKind (c : Cfg) (k : ElKind) : List Nat := (cfgEls c).filter fun e => elKind e == some k && cfgOn c e

/-- The enabled nodes. -/
def cfgNodes (c : Cfg) : List Nat :=
  (cfgEls c).filter fun e => cfgOn c e && (match elKind e with | some k => k.isNode | none => false)

/-- Cells of a gang node. -/
def gangCells (c : Cfg) (el : Nat) : Nat := 2 ^ cfgGet c el 1

/-- The copy index and the copy count of a gang node (R279). -/
def gangCopy (c : Cfg) (el : Nat) : Nat × Nat :=
  let r := cfgGet c el 45
  (bits r 11 6, bits r 5 0 + 1)

/-- Copy 0 of the set a gang node belongs to: the nearest copy 0 at or below its address. DEDUCED: the
copies of a set follow copy 0 in ascending address. -/
def leaderOf (c : Cfg) (el : Nat) : Nat :=
  if (gangCopy c el).1 = 0 then el
  else (((cfgKind c .gang).filter fun e => decide (e < el) && (gangCopy c e).1 == 0).getLast?).getD el

/-- The element and port of a PROD, CONS, PORT or OUTPORT value. -/
def portOf (v : Nat) : Nat × Nat := (v / 64, v % 64)

/-- A port field: present, and out. -/
def portField (c : Cfg) (el p : Nat) : Nat := if p < 16 then cfgGet c el (48 + p) else 0

/-- Tokens per firing of a present port in a direction. -/
def portCount (c : Cfg) (el p : Nat) (out : Bool) : Option Nat :=
  let f := portField c el p
  if bit f 8 && bit f 7 == out then some (bits f 6 0) else none

/-- Whether two half-open ranges meet. -/
def rangesMeet (a n b m : Nat) : Bool := decide (a < b + m) && decide (b < a + n)

/-- Whether some two elements of a list meet a test. -/
def anyPair {α : Type} (f : α → α → Bool) : List α → Bool
  | [] => false
  | a :: l => l.any (f a) || anyPair f l

/-- Whether a stream node's operands are none that a task could have (R226-R228, R230, R281). DEDUCED: the loader
refuses what a task's dispatch would. -/
def streamBad (c : Cfg) (el : Nat) : Bool :=
  let get (f : Nat) : Nat := cfgGet c el f
  let fmt (v : Nat) : Fmt := (Fmt.ofCode (BitVec.ofNat 5 v)).getD .raw
  let (fa, fb) := (fmt (bits (get 1) 4 0), fmt (bits (get 1) 9 5))
  let (k, nsp) := (get 2, get 6)
  let rows := if nsp = 0 then k else k / 12 * nsp
  !arrayPair fa fb
    || (if nsp = 0 then k % 32 != 0 || k < 32 || decide (8192 < k) else k % 96 != 0 || k < 96 || decide (6144 < k))
    || decide (49152 < get 3 + ceilDiv (rows * fmtWidth fb) 8)
    || (if fb.isMx then decide (49152 < get 4 + k / 32) else get 4 != 0)
    || (if nsp = 0 then get 5 != 0 else decide (49152 < get 5 + 2 * (k / 12)))

/-- Whether an enabled element breaks a rule of R194, R215, R235, R236, R280, R283, R284 or R294 in a configuration. -/
def elBad (c : Cfg) (el : Nat) : Bool :=
  let rings := cfgKind c .ring
  match elKind el with
  | some .gang =>
    let n := gangCells c el
    let base := elNum el
    let (copy, k) := gangCopy c el
    let lead := leaderOf c el
    base % n != 0
      || (cfgKind c .gang).any (fun e => decide (e < el) && e / 8192 == el / 8192 &&
          rangesMeet (elNum e) (gangCells c e) base n)
      || (copy != 0 && (lead == el || (gangCopy c lead).2 != k || decide (k ≤ copy) ||
          (List.range 64).any fun f =>
            f != 0 && f != 45 && f != 46 && cfgGet c el f (if f = 47 then 1 else 0) != cfgGet c lead f (if f = 47 then 1 else 0)))
      || (List.range 8).any (fun k => cfgGet c el (4 + k) != 0 && cfgGet c el (12 + k) % 4 == 0)
      || (rings.any fun r => rings.any fun q => decide (r < q) &&
          ((portOf (cfgGet c r 1) == portOf (cfgGet c q 1) && (portOf (cfgGet c r 1)).1 == el)
            || (portOf (cfgGet c r 2) == portOf (cfgGet c q 2) && (portOf (cfgGet c r 2)).1 == el)))
      || (let hs := (rings.filter fun r => (portOf (cfgGet c r 2)).1 == el).map (fun r => cfgGet c r 5 31)
            ++ (rings.filter fun r => (portOf (cfgGet c r 1)).1 == el).map (fun r => cfgGet c r 6 31)
          anyPair (· == ·) (hs.filter (· != 31)) || hs.any (· == 31))
  | some .bitfield =>
    let b := cfgGet c el 1
    let n := cfgGet c el 2
    let unit := el / 8192 * 8192
    (cfgKind c .bitfield).any (fun e => decide (e < el) && e / 8192 == el / 8192 &&
        rangesMeet (cfgGet c e 1) (cfgGet c e 2 + 1) b (n + 1))
      || decide (1024 ≤ b + n) || decide (n < cfgGet c el 3 + cfgGet c el 4)
      || (List.range (n + 1)).any fun t =>
        let g := cfgGet c (unit + 0x400 + b + t) 1
        [bits g 26 16, bits g 37 27, bits g 48 38, bits g 59 49].any fun v =>
          !(decide (v ≤ 0x201) || (decide (0x400 ≤ v) && decide (v < 0x400 + t)))
  | some .stream =>
    streamBad c el || (rings.filter fun q => (portOf (cfgGet c q 1)).1 == el).any fun q =>
      decide (16 * (bits (cfgGet c q 3) 11 0 + 1) < 2048 * fmtWidth ((Fmt.ofCode (BitVec.ofNat 5 (bits (cfgGet c el 1) 14 10))).getD .raw))
  | some .copy =>
    cfgGet c el 1 == 1 && (((List.range 16).filter fun p => (portCount c el p false).isSome)[1]?).elim false fun p =>
      (rings.filter fun q => portOf (cfgGet c q 2) == (el, p)).any fun q =>
        decide (65536 < cfgGet c el 6 * (16 * (bits (cfgGet c q 3) 11 0 + 1)))
  | some .barrier => cfgGet c el 1 == 0
  | some .rate =>
    decide (cfgGet c el 2 < cfgGet c el 5) || (cfgGet c el 6 != 0 && decide (cfgGet c el 6 < cfgGet c el 2))
  | some .memory => !(decide (cfgGet c el 5 ≤ cfgGet c el 2) && decide (cfgGet c el 2 < cfgGet c el 6))
  | some .ring =>
    let g := cfgGet c el 3
    let (pe, pp) := portOf (cfgGet c el 1)
    let (ce, cp) := portOf (cfgGet c el 2)
    let gangEnd (e : Nat) : Bool := elKind e == some .gang
    !cfgOn c pe || !cfgOn c ce || (portCount c pe pp true).isNone || (portCount c ce cp false).isNone
      || bits g 19 12 == 0 || (decide (31 < bits g 11 0) && !bit g 22)
      || (!gangEnd ce && cfgGet c el 5 31 != 31) || (!gangEnd pe && cfgGet c el 6 31 != 31)
  | _ => false

/-- The first enabled element that breaks a rule of combination; the rate element must be enabled
(R282). -/
def cfgBad (c : Cfg) : Option Nat :=
  match (cfgEls c).find? fun e => cfgOn c e && elBad c e with
  | some e => some e
  | none => if (cfgKind c .rate).isEmpty then some (elAddr 0 4 1 0) else none

/-- Whether a partial stream writes a field 1 to 19 of a gang node that both stages enable (R287). -/
def partialBad (old new : Cfg) (ws : List Wr) : Option Wr :=
  ws.reverse.find? fun w => elKind w.el == some .gang && decide (1 ≤ w.fld ∧ w.fld ≤ 19) &&
    cfgOn old w.el && cfgOn new w.el

/-- A stage's stream over the configuration before it: the new configuration with the writes, or the
offset of the first word it is refused at. For a combination that is the first write of the element at
fault; END where the stream does not write it. -/
def loadStream (stage : Nat) (old : Cfg) (ws : List (BitVec 32)) : (Cfg × List Wr) ⊕ Nat :=
  if 2 ^ 20 < ws.length then .inr (2 ^ 20)
  else
    match Reader.run stage ws Reader.start with
    | .inr off => .inr off
    | .inl r =>
      let c := applyWrites old r.partial_ r.writes
      match (if r.partial_ then partialBad old c r.writes else none) with
      | some w => .inr w.off
      | none =>
        match cfgBad c with
        | some el => .inr (((r.writes.reverse.find? (·.el == el)).map (·.off)).getD (ws.length - 1))
        | none => .inl (c, r.writes)

/-- Whether a write of stage `k` in a region's kernel finds its stage declared (R277). -/
def Region.declares (r : Region) (k : Nat) : Bool :=
  match r.streams[k]? with
  | some (some _) => true
  | _ => false

/-! ### A switch under way (R290) -/

/-- The stage that a pending switch goes to: its configuration and the writes of its stream. -/
def Region.coming (r : Region) : Option (Cfg × List Wr) :=
  if !r.pend then none
  else
    match r.streams[r.target.val]? with
    | some (some ws) => (match loadStream r.target.val r.config ws with | .inl p => some p | .inr _ => none)
    | _ => none

/-- Whether a ring is kept across a switch (R287). -/
def ringKept (old new : Cfg) (q : Nat) : Bool :=
  cfgOn old q && cfgOn new q && [1, 2, 3, 4].all fun f => cfgGet old q f == cfgGet new q f

/-- The rings a configuration binds to a node's in ports; a gang's copies share those of copy 0. -/
def cfgInto (c : Cfg) (el : Nat) : List Nat :=
  let lead := if elKind el = some .gang then leaderOf c el else el
  (cfgKind c .ring).filter fun q => (portOf (cfgGet c q 2)).1 == lead

/-- Whether a node starts no firing after a switch request: a kept node whose fields the stream writes, unless
it consumes a ring to be unbound, and a disabled node with no in ring that is no gang (R290). -/
def Region.stops (r : Region) (el : Nat) : Bool :=
  match r.coming with
  | none => false
  | some (c, ws) =>
    let rings := cfgInto r.config el
    if cfgOn c el then ws.any (·.el == el) && rings.all (ringKept r.config c)
    else elKind el != some .gang && rings.isEmpty

/-! ### Mapped bank groups (R166, R386) -/

/-- Whether a bank group lies in the footprint of a running kernel (R166). DEDUCED: a kernel maps a group
through a memory node on WEIGHT, through a page of a stream's extent table, or through a read-only WEIGHT
handle of its launch record. -/
def State.groupMapped (s : State) (die : Fin 4) (g : Nat) : Bool :=
  let lo := g * 402653184
  let hi := lo + 402653184
  s.kern.any fun r =>
    r.die == die && r.state.live &&
      ((cfgKind r.config .memory).any (fun el =>
          r.field el 4 == 3 && decide (r.field el 5 < hi) && decide (lo < r.field el 6))
        || (r.nodes.any fun n => n.extent.any fun e =>
            bits e.2.toNat 60 59 == 1 && bits e.2.toNat 51 50 == die.val
              && (weightBank (homeWeight die (bits e.2.toNat 33 16 * 65536))).2 == g)
        || (r.handles.toList.any fun h =>
            h.v && h.space == 3 && h.r && !h.w && decide (h.base.toNat < hi) && decide (lo < h.limit.toNat)))

/-! ### Nodes of a kernel in any of its stages -/

/-- The nodes that some stage of a kernel enables. -/
def kernelNodes (streams : List (Option (List (BitVec 32)))) : List Nat :=
  let c0 : Cfg := match streams.headD none with
    | some w => (match loadStream 0 [] w with | .inl (c, _) => c | .inr _ => [])
    | none => []
  let later := (streams.zipIdx.drop 1).flatMap fun p =>
    match p.1 with
    | some ws => (match loadStream p.2 c0 ws with | .inl (c, _) => cfgNodes c | .inr _ => [])
    | none => []
  (sortBy (fun a b => decide (a ≤ b)) (cfgNodes c0 ++ later)).eraseDups

/-- How many region clusters a kernel has. -/
def clustersOf (nodes : List Nat) : Nat := (nodes.map fun e => elCluster e + 1).foldl max 1

/-- Whether a stream writes an element outside its region: a cluster above every cluster of the kernel's nodes, or an
island that holds none of them (R277). DEDUCED: the region is the clusters and islands of its nodes, over all
stages. -/
def outside (nodes : List Nat) (el : Nat) : Bool :=
  (decide (elType el < 4) && decide (clustersOf nodes ≤ elCluster el))
    || (decide (elType el < 2) && !nodes.any fun n => n / 8192 == el / 8192)

/-- The first write of a stage's stream outside the region. -/
def strayWrite (nodes : List Nat) (stage : Nat) (ws : List (BitVec 32)) : Option Nat :=
  match Reader.run stage ws Reader.start with
  | .inl r => (r.writes.reverse.find? fun w => outside nodes w.el).map (·.off)
  | .inr _ => none

/-- The streams of a kernel checked in stage order, each stage applied to the configuration of stage 0:
the first stage and offset refused (R326, R277). DEDUCED: a partial stream of a later stage is checked
against stage 0's configuration. -/
def checkStreams (streams : List (Option (List (BitVec 32)))) : Option (Nat × Nat) :=
  let nodes := kernelNodes streams
  match streams.headD none with
  | none => some (0, 0)
  | some w0 =>
    match loadStream 0 [] w0 with
    | .inr off => some (0, off)
    | .inl (c0, _) =>
      match strayWrite nodes 0 w0 with
      | some off => some (0, off)
      | none =>
        (streams.zipIdx.drop 1).findSome? fun p =>
          match p.1 with
          | none => none
          | some ws =>
            match loadStream p.2 c0 ws with
            | .inr off => some (p.2, off)
            | .inl _ => (strayWrite nodes p.2 ws).map fun off => (p.2, off)

/-- The strands a gang node declares in a configuration (R280): a non-zero ENTRY. -/
def cfgStrands (c : Cfg) (el : Nat) : List Nat := (List.range 8).filter fun k => cfgGet c el (4 + k) != 0

/-! ### The work hierarchy (R309, R310) -/

/-- A level of a launch. -/
structure Level where
  dom   : Nat
  scope : Nat
  ext   : Nat
  deriving DecidableEq, Repr, Inhabited

/-- A domain's own scope (R309). -/
def ownScope (dom : Nat) : Nat := 5 - min dom 5

/-- The levels a launch record declares; one DIE level of extent 1 when it declares none (R310). -/
def levelsOf (recd : List Byte) : List Level :=
  let n := fieldN recd 3 1
  if n = 0 then [⟨2, 3, 1⟩]
  else (List.range (min n 8)).map fun k =>
    let w := fieldN recd (32 + 4 * k) 4
    ⟨bits w 3 0, bits w 7 4, bits w 31 8⟩

/-- A unit of a region as a strand's place: region cluster, island, base cell. -/
structure UnitKey where
  rc   : Nat
  isl  : Nat
  base : Nat
  deriving DecidableEq, Repr, Inhabited

/-- The unit of domain `dom` that holds an element, coarser parts kept: CLUSTER, ISLAND or GANG. None when
the element lies in no such unit: only fabric-island elements lie in an island, only gangs in a gang. -/
def unitOf (dom el : Nat) : Option UnitKey :=
  let rc := elCluster el
  if dom = 3 then (if elType el = 4 then none else some ⟨rc, 0, 0⟩)
  else if dom = 4 then (if elType el = 0 then some ⟨rc, elIndex el, 0⟩ else none)
  else if elKind el = some .gang then some ⟨rc, elIndex el, elNum el⟩
  else none

/-- Whether a finer unit lies in a group of a coarser domain. -/
def UnitKey.inside (u : UnitKey) (dom : Nat) (g : UnitKey) : Bool :=
  if dom < 3 then true
  else if dom = 3 then u.rc == g.rc
  else if dom = 4 then u.rc == g.rc && u.isl == g.isl
  else u == g

/-- The units of a domain that hold nodes of a kernel inside the enclosing group of a place, in the order
of R310. -/
def unitsIn (nodes : List Nat) (dom enc : Nat) (place : UnitKey) : List UnitKey :=
  ((nodes.filterMap (unitOf dom)).filter (·.inside enc place)).eraseDups

/-- A place's unit of a domain. -/
def UnitKey.trim (u : UnitKey) (dom : Nat) : UnitKey :=
  if dom = 3 then ⟨u.rc, 0, 0⟩ else if dom = 4 then ⟨u.rc, u.isl, 0⟩ else u

/-- Whether the finer levels' extents match the units of a kernel, over all its stages (R310): at each of them every
index from 0 to extent - 1 occurs and no higher one. -/
def extentsOk (nodes : List Nat) (cfgs : List Cfg) (levels : List Level) : Bool :=
  let gangs : List (Cfg × Nat) := cfgs.flatMap fun c => (cfgKind c .gang).map (c, ·)
  (List.range levels.length).all fun k =>
    let l := (levels[k]?).getD ⟨0, 0, 0⟩
    let enc := if k = 0 then 0 else ((levels[k - 1]?).getD ⟨0, 0, 0⟩).dom
    if l.dom < 3 then true
    else if l.dom ≤ 5 then
      ((nodes.filterMap (unitOf l.dom)).map fun u => (unitsIn nodes l.dom enc u).length).foldl max 0 == l.ext
    else if l.dom = 6 then
      let ks := gangs.flatMap fun g => cfgStrands g.1 g.2
      ks.all (fun i => decide (i < l.ext)) && (List.range l.ext).all ks.contains
    else (gangs.map fun g => 8 * gangCells g.1 g.2).foldl max 0 == l.ext

end Sys2Proof.Machine
end

