-- ==== Sys2Proof/Machine/Sys.lean ====
section
/-!
DEFINITION. The instructions of the group, the queue, the context, the link, the capsule and the debug
stop (group 7), and the special registers as reads sample them and writes set them (R80).
-/
namespace Sys2Proof.Machine

/-! ### Frames (R302) -/

/-- Quarters of a master cycle in one tick: 8 at base, 9 at boost (R1, R302). -/
def Die.quarters (d : Die) : Nat := if d.boost then 9 else 8

/-- The master cycles of its frame that begin in one tick: two at base, two or three at boost (R1, R301). -/
def Die.cycles (d : Die) : List Nat :=
  ((List.range d.quarters).filter fun k => (d.phase + k) % 4 == 0).map fun k => (d.phase + k) / 4 % 64

/-- Whether a frame began in this tick (R302). -/
def Die.boundary (d : Die) : Bool := decide (d.phase < d.quarters)

/-! ### Reading special registers (R80) -/

/-- Whether a context is in deterministic mode (R413): some region of it was launched with DET. -/
def State.detCtx (s : State) (c : BitVec 12) : Bool :=
  s.kern.any fun r => r.ctx == c && r.state != .retired && r.state != .killed && bit (fieldN r.recd 2 1) 1

/-- The power cap of a partition on a die (R412). -/
def Die.partCap (d : Die) (p : BitVec 5) : Nat := ((d.pcaps.find? (·.1 == p)).map (·.2)).getD 64

/-- An island's cap for the regions of a partition (R300): the least of its thermal allowance, the die's
power cap and the partition's. -/
def State.capOf (s : State) (k : IslandKey) (p : BitVec 5) : Nat :=
  min (s.island k).allow (min (s.die k.die).pcap ((s.die k.die).partCap p))

/-- The spacing of refresh windows (R167). -/
def Die.spacing (d : Die) : Nat := if d.hot then 73 else 146

/-- The next refresh window that starts after a tick: its tick and bank group (R168). -/
def Die.nextWindow (d : Die) (tick : Nat) : Nat × Nat :=
  let k := if tick < d.wsTick then 0 else (tick - d.wsTick) / d.spacing + 1
  (d.wsTick + k * d.spacing, (d.wsBg.val + k) % 32)

/-- An expert slot register as read: a fenced bank group reads VALID and PIN (R386, R419). -/
def Die.exslot (d : Die) (g : Fin 32) : ExSlot :=
  let e := d.exslots[g]
  if d.fenced.contains g then { e with valid := true, pin := true } else e

/-- INUSE of an expert slot: a running stage's footprint maps its bank group (R386). -/
def State.slotInuse (s : State) (die : Fin 4) (g : Nat) : Bool := s.groupMapped die g

/-- The 64 bits of an expert slot register (R386). -/
def ExSlot.word (e : ExSlot) (inuse : Bool) : Word :=
  BitVec.ofNat 64 ((if e.valid then 2 ^ 40 else 0) + (if e.pin then 2 ^ 39 else 0)
    + (if inuse then 2 ^ 38 else 0) + e.prob.toNat * 2 ^ 24 + e.cost.toNat * 2 ^ 16
    + e.expert.toNat)

/-- KSTG of a region (R291). -/
def Region.kstg (r : Region) : Nat :=
  r.switches.toNat * 256 + (if r.pend then 128 else 0) + r.target.val * 16 + r.cur.val

/-- ISLRATE of an island as a region's strand reads it (R303). -/
def State.islrate (s : State) (r : Region) (k : IslandKey) : Nat :=
  let i := s.island k
  r.solves.toNat * 2 ^ 32 + (if r.short then 2 ^ 31 else 0) + (if i.frozen then 2 ^ 30 else 0)
    + (if i.switch.isSome then 2 ^ 24 else 0) + i.ratio.toNat * 2 ^ 21
    + s.capOf k (s.ctx r.ctx).part * 2 ^ 14 + i.target * 2 ^ 7 + i.m

/-- A saturating count by key. -/
def countAt (l : List (Nat × BitVec 48)) (k : Nat) : Nat := ((l.find? (·.1 == k)).map (·.2.toNat)).getD 0

/-- RECCFG as read (R392): bits 1, 3 and 13 of CATEN read one. -/
def Debug.reccfg (d : Debug) : Nat :=
  d.horizon.toNat * 2 ^ 48 + d.sample.toNat * 2 ^ 32 + (d.caten ||| 0x200a).toNat

/-- A special register outside the strand range as it stands for a block's strand: registers that nothing
occupies read zero (R80). -/
def State.srValue (s : State) (x : Flight) (num : Nat) : Word :=
  let isl := x.who.seq.isl
  let k := fabKey isl
  let die := s.die isl.die
  let reg (f : Region → Nat) : Nat := (s.region x.rid).elim 0 f
  let n : Nat :=
    if num = 0x210 then reg Region.kstg
    else if num = 0x211 then reg (s.islrate · k)
    else if num = 0x212 then reg (·.rate)
    else if num = 0x214 then reg fun r => countAt r.stallI k.num.val
    else if num = 0x215 then reg fun r => countAt r.starveI k.num.val
    else if num = 0x216 then
      let i := s.island k
      (if i.trip then 2 ^ 23 else 0) + i.allow * 2 ^ 16 + (s.sensor (sensorOf k)).toNat
    else if 0x220 ≤ num ∧ num < 0x240 then reg fun r => countAt r.ktime (num - 0x220)
    else if 0x340 ≤ num ∧ num < 0x344 then
      (s.mat ⟨isl.die, isl.cluster, ⟨(num - 0x340) % 4, Nat.mod_lt _ (by decide)⟩⟩).msflg.toNat
    else if num = 0x408 then
      let (t, bg) := die.nextWindow s.tick
      (if die.hot then 2 ^ 63 else 0) + bg * 2 ^ 48 + t % 2 ^ 48
    else if num = 0x409 then
      (if die.boost then 2 ^ 63 else 0) + die.pcap * 2 ^ 32 + die.share % 65536 * 2 ^ 16 + die.meas % 65536
    else if 0x420 ≤ num ∧ num < 0x440 then
      ((die.exslot ⟨(num - 0x420) % 32, Nat.mod_lt _ (by decide)⟩).word (s.slotInuse isl.die (num - 0x420))).toNat
    else if num = 0x880 then s.dbg.reccfg
    else if num = 0x888 then s.hub.pwrnext.toNat
    else 0
  BitVec.ofNat 64 n

/-- CTXST (R353). -/
def State.ctxst (s : State) (x : Flight) : Nat :=
  let r := s.region x.rid
  let idem : Bool := r.elim false fun r => bit (fieldN r.recd 2 1) 0
  (if (s.partition x.part).iso then 2 ^ 23 else 0)
    + (if (s.die x.who.seq.isl.die).boost then 2 ^ 22 else 0)
    + (if idem then 2 ^ 21 else 0) + (if s.detCtx x.ctx then 2 ^ 20 else 0)
    + (if x.priv then 2 ^ 19 else 0) + (if x.maint then 2 ^ 18 else 0)
    + x.part.toNat * 2 ^ 12 + x.ctx.toNat

/-- LOOPST (R121). -/
def Regs.loopst (r : Regs) : Nat :=
  (r.loops.map (·.k.val)).foldl (fun n k => n ||| 2 ^ (4 + k)) 0 + r.loops.length

/-- A register of the strand range as an SRD reads it: FMODE and FFLAGS as the block has left them
(R92), SRSEED as zero (R4), the others as they stood at issue (R352). -/
def State.srStrand (s : State) (x : Flight) (num : Nat) : Word :=
  let r := x.r0
  match num with
  | 0x010 => x.r.fmode.setWidth 64
  | 0x011 => x.r.fflags.setWidth 64
  | 0x020 => r.lc[0].setWidth 64
  | 0x021 => r.lc[1].setWidth 64
  | 0x022 => r.lc[2].setWidth 64
  | 0x023 => BitVec.ofNat 64 r.loopst
  | 0x030 => BitVec.ofNat 64 (x.wait % 65536 * 2 ^ 18 + r.agelim.toNat * 4 + r.role.toNat)
  | 0x040 => BitVec.ofNat 64 (s.ctxst x)
  | 0x041 => r.trapvec.setWidth 64
  | 0x042 => r.trappc.setWidth 64
  | 0x043 => BitVec.ofNat 64 ((if r.intrap then 2 ^ 16 else 0) + r.trapcode.toNat)
  | 0x050 => r.rtsst
  | _ => 0

/-! ### Writing special registers (R80) -/

/-- A write of SRSEED: every lane's generator seeded (R98). -/
def Regs.seed (r : Regs) (lanes : Nat) (v : Word) : Regs :=
  { r with gens := (List.range lanes).map (genSeed (v.setWidth 32)) }

/-- The writable fields of a register of the strand range set (R121, R316, R353, R377); a read-only
register and a number that nothing occupies ignore the write (R80). -/
def Regs.setSr (r : Regs) (lanes num : Nat) (v : Word) : Regs :=
  match num with
  | 0x010 => { r with fmode := v.setWidth 2 }
  | 0x011 => r.writeFlags v
  | 0x012 => r.seed lanes v
  | 0x020 => { r with lc := r.lc.set 0 (v.setWidth 32) }
  | 0x021 => { r with lc := r.lc.set 1 (v.setWidth 32) }
  | 0x022 => { r with lc := r.lc.set 2 (v.setWidth 32) }
  | 0x030 => { r with agelim := if (v.extractLsb' 2 16).toNat < 16 then 16 else v.extractLsb' 2 16 }
  | 0x041 => { r with trapvec := (v.setWidth 56) &&& (~~~7#56) }
  | 0x042 => { r with trappc := (v.setWidth 56) &&& (~~~7#56) }
  | 0x050 => { r with rtsst := (v &&& 0x00fffffffffff000) }
  | _ => r

/-- A write of ones to MSFLG clears the matrix island's stream flags (R235). -/
def State.clearMsflg (s : State) (i : IslandId) (v : Word) : State :=
  let m := s.mat i
  s.setMat { m with msflg := m.msflg &&& ~~~(v.setWidth 5) }

/-- A write of RECCFG (R392). -/
def State.setReccfg (s : State) (v : Word) : State :=
  { s with dbg := { s.dbg with
      horizon := v.extractLsb' 48 12, sample := v.extractLsb' 32 16, caten := v.setWidth 14 ||| 0x200a } }

/-- A write of PWRCFG: it acts at the next control window, its envelope brought into 1,200 to 2,400
(R409). -/
def State.setPwrcfg (s : State) (v : Word) : State :=
  let env := max 1200 (min 2400 (v.toNat % 65536))
  { s with hub := { s.hub with
      pwrnext := (v &&& 0x0001ffffffff0000) ||| BitVec.ofNat 64 env } }

/-- A write of an expert slot register at a tick; INUSE is read-only (R386). -/
def ExSlot.write (e : ExSlot) (tick : Nat) (v : Word) : ExSlot :=
  { e with valid := v.getLsbD 40, pin := v.getLsbD 39, prob := v.extractLsb' 24 8
           cost := v.extractLsb' 16 8, expert := v.setWidth 16, wrote := tick + 1 }

/-- A special register outside the strand range written by a strand (R80). -/
def State.setShared (s : State) (t : StrandId) (num : Nat) (v : Word) : State :=
  let isl := t.seq.isl
  if 0x340 ≤ num ∧ num < 0x344 then
    s.clearMsflg ⟨isl.die, isl.cluster, ⟨(num - 0x340) % 4, Nat.mod_lt _ (by decide)⟩⟩ v
  else if 0x420 ≤ num ∧ num < 0x440 then
    s.modDie isl.die fun d =>
      let g : Fin 32 := ⟨(num - 0x420) % 32, Nat.mod_lt _ (by decide)⟩
      { d with exslots := d.exslots.set g (d.exslots[g].write s.tick v) }
  else if num = 0x880 then s.setReccfg v
  else if num = 0x888 then s.setPwrcfg v
  else s

/-- The number of a special register (R351). -/
def srNum (i : SInsn) : Nat := (i.imm.extractLsb' 0 12).toNat

/-- A privileged number is open to a context in MAINT mode with PRIV (R349, R352). -/
def srDenied (x : Flight) (num : Nat) : Bool := decide (0x800 ≤ num) && !(x.maint && x.priv)

/-- SRD (R352). -/
def execSrd (i : SInsn) (s : State) : Out :=
  act s (s.x.scalarAct i.g fun x =>
    let num := srNum i
    if srDenied x num then x.failCode .priv
    else
      match x.srs.find? (·.1 == num) with
      | some p => x.wrS i.d p.2
      | none => x.wrS i.d (if num < 0x100 then s.srStrand x num else s.srValue x num))

/-- SWR: FMODE, FFLAGS and the generators change for the rest of the block at once, every other register
at commit (R92, R352). -/
def execSwr (i : SInsn) (s : State) : Out :=
  act s (s.x.scalarAct i.g fun x =>
    let num := srNum i
    let v := x.rdS i.a
    if srDenied x num then x.failCode .priv
    else if num = 0x010 ∨ num = 0x011 ∨ num = 0x012 then { x with r := x.r.setSr x.nlanes num v }
    else x.stage (.swr (i.imm.extractLsb' 0 12) v))

/-! ### Traps (R354) -/

/-- TRAP acts at commit, after every other write of the block (R354). -/
def execTrap (i : SInsn) (s : State) : Out :=
  act s (s.x.scalarAct i.g fun x => { x with exit := some (.trap (i.imm.setWidth 16) x.idx) })

/-- ERET: PRIV outside a trap; else it acts at commit (R354). -/
def execEret (i : SInsn) (s : State) : Out :=
  act s (s.x.scalarAct i.g fun x =>
    if !x.r.intrap then x.failCode .priv else { x with exit := some (.eret x.idx) })

/-! ### Launches and tasks (R333-R336) -/

/-- LAUNCH: a commit-point access (R334). -/
def execLaunch (i : SInsn) (s : State) : Out :=
  act s (s.x.scalarAct i.g fun x =>
    let bh := i.imm.extractLsb' 0 4
    let sp := i.imm.extractLsb' 4 3
    x.withAccess (s.access x bh sp .load (x.rdS i.a) 128 128 0 false) false fun hs x =>
      { x with
        access := some (.launch (hs.headD 0) i.d.toNat (i.mod.getLsbD 0)), accIdx := x.idx
        entry := x.entry || i.mod.getLsbD 0 })

/-- TASK: the record is captured at commit (R335). -/
def execTask (i : SInsn) (s : State) : Out :=
  act s (s.x.scalarAct i.g fun x =>
    Flight.withRecord s x (i.imm.extractLsb' 0 4) 1 (x.rdS i.a) 64 64 (kinds := true) fun h x =>
      x.submitTo i.d { x.newJob .task 2 with recAt := some (h, 64) })

/-- TWAIT: its wait is an issue condition (R336). -/
def execTwait (i : SInsn) (s : State) : Out := act s (s.x.scalarAct i.g id)

/-! ### Events (R321, R322) -/

/-- Scalars written from consecutive 8-byte fields of a record. -/
def Flight.wrRecord (x : Flight) (d : BitVec 6) (r : List Byte) : Flight :=
  (List.range 4).foldl (fun x j =>
    x.wrS (d + BitVec.ofNat 6 j) (BitVec.ofNat 64 (fieldN r (8 * j) 8))) x

/-- EVPOP: the record reserved at issue, or zeros when there is none (R321). -/
def execEvpop (i : SInsn) (s : State) : Out :=
  act s (s.x.scalarAct i.g fun x =>
    match x.evhead with
    | some r => (x.wrRecord i.d r).stage (.popEvent i.d.toNat)
    | none => x.wrRecord i.d [])

/-- EVPUSH: the record is formed at commit, its target island read at block start (R322, R49). -/
def execEvpush (i : SInsn) (s : State) : Out :=
  act s (s.x.scalarAct i.g fun x =>
    let isl := x.who.seq.isl
    let dest : IslandId :=
      if i.mod = 0 then isl
      else { isl with island := ⟨(x.startS i.c).toNat % 4, Nat.mod_lt _ (by decide)⟩ }
    x.stage (.event dest (i.imm.setWidth 16) (x.rdS i.a) (x.rdS i.b)))

/-! ### GID (R320) -/

/-- The place of the block's strand in its region: region cluster, island and base cell. -/
def State.placeOf (s : State) (x : Flight) : UnitKey :=
  match s.gang x.who.seq with
  | some g => ⟨elCluster g.el, elIndex g.el, if x.who.seq.gaffer then 0 else elNum g.el⟩
  | none => ⟨0, 0, 0⟩

/-- The index of the package group that this device is: the entry of DEVTAB that names it (R310). -/
def State.packageIndex (s : State) (r : Region) : Nat := (r.devs.idxOf? s.hub.boot.device.toNat).getD 0

/-- The index of a strand's group at a level (R310, R320). -/
def State.groupIndex (s : State) (x : Flight) (r : Region) (k : Nat) : Nat :=
  let ls := levelsOf r.recd
  let dom := ((ls[k]?).getD ⟨0, 0, 0⟩).dom
  let enc := if k = 0 then 0 else ((ls[k - 1]?).getD ⟨0, 0, 0⟩).dom
  let p := s.placeOf x
  if x.who.seq.gaffer ∧ 5 ≤ dom then 0
  else match dom with
    | 0 => 0
    | 1 => s.packageIndex r
    | 2 => if enc = 2 then 0 else r.dieIdx
    | 6 => x.who.num.val
    | 7 => 0
    | _ => ((unitsIn (kernelNodes r.streams) dom enc p).idxOf? (p.trim dom)).getD 0

/-- GID's result (R320). -/
def State.gidValue (s : State) (x : Flight) (r : Region) (q lvl : Nat) : Nat :=
  let ls := levelsOf r.recd
  match q with
  | 4 => ls.length
  | 6 =>
    let isl := x.who.seq.isl
    s.hub.boot.device.toNat + isl.die.val * 2 ^ 20 + isl.cluster.val * 2 ^ 22 + isl.island.val * 2 ^ 26
      + (if x.who.seq.gaffer then 0x3f else x.who.seq.base.val) * 2 ^ 28 + x.who.num.val * 2 ^ 34
  | _ =>
    match ls[lvl]? with
    | none => 0
    | some l =>
      match q with
      | 0 => s.groupIndex x r lvl
      | 1 => l.ext
      | 2 => l.dom
      | 3 => l.scope
      | _ => (List.range (lvl + 1)).foldl (fun n k =>
          n * ((ls[k]?).getD ⟨0, 0, 1⟩).ext + s.groupIndex x r k) 0

/-- GID (R320). -/
def execGid (i : SInsn) (s : State) : Out :=
  act s (s.x.scalarAct i.g fun x =>
    x.wrS i.d (BitVec.ofNat 64
      ((s.region x.rid).elim 0 fun r => s.gidValue x r i.mod.toNat i.imm.toNat)))

/-! ### Time, records and breaks (R402-R405) -/

/-- TICK (R403). -/
def execTick (i : SInsn) (s : State) : Out :=
  act s (s.x.scalarAct i.g fun x =>
    x.wrS i.d (BitVec.ofNat 64 ((if i.mod = 0 then x.tick else x.frame) % 2 ^ 48)))

/-- EVREC (R404). -/
def execEvrec (i : SInsn) (s : State) : Out :=
  act s (s.x.scalarAct i.g fun x => x.stage (.user (i.imm.setWidth 8) (x.rdS i.a) (x.rdS i.b)))

/-- BRK (R405). -/
def execBrk (i : SInsn) (s : State) : Out :=
  act s (s.x.scalarAct i.g fun x => x.stage (.brk (i.imm.setWidth 16).toNat x.idx))

/-- STAGE: a stage that is not declared faults ENGINE (R292). -/
def execStage (i : SInsn) (s : State) : Out :=
  act s (s.x.scalarAct i.g fun x =>
    let k := if i.mod = 0 then i.imm.toNat else (x.rdS i.a).toNat
    let ok : Bool := (s.region x.rid).elim false fun r => r.declares k
    if decide (7 < k) || !ok then x.failCode .engine else x.stage (.stage k))

/-! ### Remote instructions (R374, R375) -/

/-- The checks of a remote instruction: its device, then its alignment (R374). -/
def Flight.withDevice (x : Flight) (i : SInsn) (f : Fmt → Flight) : Flight :=
  let fmt := (Fmt.ofCode (i.imm.extractLsb' 0 5)).getD .raw
  let ea := x.rdS i.a
  if (x.rdS i.c).toNat / 2 ^ 20 ≠ 0 then x.fail { code := .bounds, ea := ea }
  else if ea.toNat % (loadInfo fmt).1 ≠ 0 then x.fail { code := .align, ea := ea }
  else f fmt

/-- XST: it leaves at commit (R375). -/
def execXst (i : SInsn) (s : State) : Out :=
  act s (s.x.scalarAct i.g fun x =>
    x.withDevice i fun fmt =>
      x.stage (.xst (x.rdS i.a) ((x.rdS i.c).setWidth 20) (loadInfo fmt).1 (x.rdS i.b) x.idx))

/-- XLD: a remote commit-point access (R375). -/
def execXld (i : SInsn) (s : State) : Out :=
  act s (s.x.scalarAct i.g fun x =>
    x.withDevice i fun fmt =>
      { x with access := some (.xld (x.rdS i.a) ((x.rdS i.c).setWidth 20) fmt i.d.toNat), accIdx := x.idx })

/-- XATOM: a remote commit-point access whose destination holds the operand (R375). -/
def execXatom (i : SInsn) (s : State) : Out :=
  act s (s.x.scalarAct i.g fun x =>
    x.withDevice i fun fmt =>
      { x with access := some (.xatom (x.rdS i.a) ((x.rdS i.c).setWidth 20) (i.mod.setWidth 3) fmt
          (x.rdS i.d) i.d.toNat), accIdx := x.idx })

/-- XDRAIN: it acts after its block commits (R376). -/
def execXdrain (i : SInsn) (s : State) : Out :=
  act s (s.x.scalarAct i.g fun x => x.stage .xdrain)

/-! ### Debug stop and capsule (R406, R407) -/

/-- DSTOP: MAINT_ONLY outside MAINT mode; its result is known at commit (R406). -/
def execDstop (i : SInsn) (s : State) : Out :=
  act s (s.x.scalarAct i.g fun x =>
    let a := x.rdS i.a
    if !x.maint then x.failCode .maintOnly
    else match i.mod.toNat with
      | 0 =>
        if a.toNat / 2 ^ 48 ≠ 0 then x.fail { code := .bounds, ea := a }
        else (x.wrLate i.d).stage (.dstopArm a x.idx)
      | 1 => (x.wrLate i.d).stage (.dstopOff x.idx)
      | _ => (x.wrLate i.d).stage (.dstopQuery x.idx))

/-- The operator's rights over the capsule: partition 0 with MAINT and PRIV (R407). -/
def Flight.isOperator (x : Flight) : Bool := x.part == 0 && x.maint && x.priv

/-- CAPS.st: the capsule as read at issue (R407). -/
def execCapsSt (i : SInsn) (s : State) : Out :=
  act s (s.x.scalarAct i.g fun x => x.wrS i.d x.capst)

/-- CAPS.sz: the length of the image the caller's form would produce, as read at issue (R407). -/
def execCapsSz (i : SInsn) (s : State) : Out :=
  act s (s.x.scalarAct i.g fun x =>
    let oper := i.imm.getLsbD 4
    if oper && !x.isOperator then x.failCode .priv
    else x.wrS i.d (BitVec.ofNat 64 (if oper then x.capszOp else x.capsz)))

/-- CAPS.get: a retrieval job. Its command carries the buffer's address, length and handle, and the form
(R407). -/
def execCapsGet (i : SInsn) (s : State) : Out :=
  act s (s.x.scalarAct i.g fun x =>
    let oper := i.imm.getLsbD 4
    let bh := i.imm.extractLsb' 0 4
    let a := x.rdS i.a
    let n := x.rdS i.b
    if oper && !x.isOperator then x.failCode .priv
    else
      match x.rangeFault bh 0 .store a n.toNat with
      | some f => x.fail f
      | none =>
        if a.toNat % 64 ≠ 0 then x.fail { code := .align, access := 2, handle := bh.toNat, ea := a }
        else
          x.submitTo i.d { x.newJob .capsGet 5 with
            args := [a, n, bh.setWidth 64, if oper then 1 else 0] })

/-- CAPS.ack: it acts at commit on the state read at issue (R407). -/
def execCapsAck (i : SInsn) (s : State) : Out :=
  act s (s.x.scalarAct i.g fun x =>
    if !x.isOperator then x.failCode .priv
    else if bits x.capst.toNat 2 0 = 3 then (x.wrS i.d 0).stage (.capsAck i.d.toNat)
    else x.wrS i.d 1)

/-! ### ILL (R74) -/

/-- ILL and every word that is no instruction: ILLEGAL_OP (R74). -/
def execIll (_low : BitVec 55) (s : State) : Out := act s (s.x.failCode .illegalOp)

end Sys2Proof.Machine
end

