-- ==== Sys2Proof/Machine/Uses.lean ====
section
/-!
DEFINITION. What an instruction names: scalar and vector registers read and written, tiles and path-trace
registers, rings, and whether it is an exit, a loop, a trap or a commit-point access. The decode rules of
a block (R52, R65, R122, R354) and the issue gates (R50, R234, R253) are stated over these.
-/
namespace Sys2Proof.Machine

/-- Registers an instruction names in source and destination fields, the tiles it reads and writes, and the
path-trace registers it names. -/
structure Uses where
  sr : List (BitVec 6) := []
  sw : List (BitVec 6) := []
  vr : List (BitVec 6) := []
  vw : List (BitVec 6) := []
  tr : List (BitVec 4) := []
  tw : List (BitVec 4) := []
  dr : List (BitVec 4) := []
  deriving DecidableEq, Repr, Inhabited

/-- The register a source names. -/
def srcRegs : Src → List (BitVec 6)
  | .reg n => [n]
  | _ => []

/-- The register a destination of kind 00 names. -/
def dstRegs : Dst → List (BitVec 6)
  | .reg n => [n]
  | _ => []

/-- The number an alternate destination names. -/
def dstAlts : Dst → List (BitVec 6)
  | .alt n => [n]
  | _ => []

/-- Group 0: scalar sources and destination (R104, R112, R114, R115). -/
def usesScalar (op : Nat) (f : VInsn) : Uses :=
  let d : Uses := { sw := dstRegs f.d }
  if op = 0x25 then { d with sr := srcRegs f.a ++ srcRegs f.b }
  else if op = 0x26 then { d with sr := srcRegs f.a }
  else if 0x2a ≤ op ∧ op ≤ 0x2d then {}
  else if op = 0x2e then
    { sr := if f.mod = 1 ∨ f.mod = 3 then srcRegs f.a else [], sw := dstRegs f.d }
  else if op = 0x17 ∨ op = 0x18 ∨ (0x19 ≤ op ∧ op ≤ 0x1d) then { d with sr := srcRegs f.a }
  else if op = 0x20 ∨ op = 0x21 ∨ op = 0x22 ∨ op = 0x23 then
    { d with sr := srcRegs f.a ++ srcRegs f.b ++ srcRegs f.c }
  else if op = 0x27 then d
  else { d with sr := srcRegs f.a ++ srcRegs f.b }

/-- How many vector sources a group 2 or 3 instruction has, in the order A, B, C, scalar and predicate
sources aside. -/
def vecSources (op : Nat) (f : VInsn) : List (BitVec 6) :=
  let a := srcRegs f.a
  let b := srcRegs f.b
  let c := srcRegs f.c
  if op = 0x83 ∨ op = 0x84 ∨ op = 0x85 ∨ op = 0xc3 ∨ op = 0xd0 ∨ op = 0xd1 then a ++ b ++ c
  else if op = 0x8c then (if f.bit5 then a ++ b ++ c else a ++ b)
  else if op = 0x9e then (if f.bit5 then a ++ b ++ c else a ++ b)
  else if op = 0xd6 then (if f.mod = 0 then [] else a)
  else if op = 0xde then []
  else if [0x88, 0x89, 0x8d, 0x8e, 0x8f, 0x90, 0x93, 0x94, 0x95, 0x96, 0x97, 0x99, 0x9a, 0x9c, 0x9d,
      0x9f, 0xce, 0xcf, 0xd5, 0xd7, 0xdb, 0xdc, 0xdd, 0xdf].contains op then a
  else a ++ b

/-- The scalar sources of a group 2 or 3 instruction (R151, R153, R157). -/
def vecScalars (op : Nat) (f : VInsn) : List (BitVec 6) :=
  if op = 0xd6 then (if f.mod = 0 then srcRegs f.a else srcRegs f.b)
  else if op = 0xd7 then srcRegs f.b
  else if op = 0xd9 then srcRegs f.c
  else if op = 0xde then srcRegs f.a ++ srcRegs f.b
  else []

/-- Groups 2 and 3. VDOT, VREDF, VREDI and VEXTR write a scalar with DK = 10; VCMP, VCLASS and VICMP
write a predicate. -/
def usesVector (op : Nat) (f : VInsn) : Uses :=
  let scalarAlt : Bool := [0x9e, 0x9f, 0xd7, 0xdd].contains op
  { sr := vecScalars op f, sw := if scalarAlt then dstAlts f.d else []
    vr := (if op = 0xd9 then srcRegs f.a ++ srcRegs f.b else vecSources op f), vw := dstRegs f.d }

/-- Group 4 (R170). -/
def usesMem (op : Nat) (f : MInsn) : Uses :=
  let d := dstRegs f.d
  let t : List (BitVec 4) := (dstAlts f.d).map (·.setWidth 4)
  match op with
  | 0x100 => { sr := [f.base, f.index], sw := d }
  | 0x101 => { sr := [f.base, f.index] ++ d }
  | 0x102 => { sr := [f.base, f.index], vw := d }
  | 0x103 => { sr := [f.base, f.index], vr := d }
  | 0x104 => { sr := [f.base], vr := [f.index], vw := d }
  | 0x105 => { sr := [f.base], vr := f.index :: d }
  | 0x106 => { sr := [f.base, f.index], tw := t }
  | 0x107 => { sr := [f.base, f.index], tr := t }
  | 0x108 => { sr := [f.base, f.index] ++ d, sw := d }
  | 0x109 => { sr := [f.base, f.index] ++ d ++ d.map (· + 1), sw := d }
  | 0x10a => { sr := [f.base], vr := f.index :: d, vw := d }
  | 0x110 => { sr := [f.base, f.index], sw := d }
  | _ => { sr := [f.base, f.index] }

/-- Group 1 (R116). -/
def usesExit (op : Nat) (f : XInsn) : Uses :=
  if op = 0x42 then { sw := [f.s1] } else { sr := [f.s1, f.s2] }

/-- Group 6 (R237, R256, R271, R383). -/
def usesTile (op : Nat) (f : TInsn) : Uses :=
  match op with
  | 0x180 | 0x181 => { sr := [f.sx], tr := if f.mod.getLsbD 0 then [] else [f.ta] }
  | 0x184 =>
    (match (f.mod.extractLsb' 0 2).toNat with
     | 0 => { tw := [f.td] }
     | 1 => { sr := [f.sx], vw := [f.sy] }
     | _ => { sr := [f.sx, f.sy] })
  | 0x185 => { tw := [f.td] }
  | 0x186 | 0x187 => { tr := [f.ta], tw := [f.td] }
  | 0x188 =>
    if f.mod.getLsbD 3 then { sr := [f.sx], vr := [f.sy], tw := [f.td] }
    else { sr := [f.sx], vw := [f.sy], tr := [f.ta] }
  | 0x189 => { sr := [f.sy], sw := [f.sx] }
  | 0x18a => { sr := [f.sx], tr := if f.mod.getLsbD 1 then [] else [f.ta] }
  | 0x18b => { sw := [f.sx], vw := [f.sy], dr := [f.ta] }
  | 0x18c =>
    { sr := [f.sx], tr := if f.mod.getLsbD 1 then [] else [f.tb]
      tw := if f.mod.getLsbD 0 then [] else [f.td] }
  | 0x18d =>
    if f.mod = 3 then { sw := [f.sx], dr := [f.ta] }
    else if f.mod.toNat ≤ 2 then { vw := [f.sy], dr := [f.ta] }
    else if f.mod.toNat ≤ 10 then { vr := [f.sy], dr := [f.td] }
    else { sr := [f.sx], dr := [f.td] }
  | 0x18e => { sr := [f.sx], tw := [f.td], dr := [f.ta] }
  | 0x18f | 0x192 => { sr := [f.sx, f.sy], tr := [f.ta] }
  | 0x190 | 0x191 => { sr := [f.sx], tr := [f.ta] }
  | 0x193 => { sr := [f.sx], sw := [f.sy] }
  | 0x194 => if f.mod.getLsbD 0 then { sw := [f.sy] } else { sr := [f.sx] }
  | _ => {}

/-- Groups 5 and 7 and the boundaries: A, B and C are scalars where they are not a format or a handle
number (R205, R212, R213), D is a destination, and EVPOP writes four (R321). -/
def usesSys (op : Nat) (f : SInsn) : Uses :=
  let ds : List (BitVec 6) :=
    if op = 0x1c3 then [f.d, f.d + 1, f.d + 2, f.d + 3]
    else if op = 0x1d0 then [f.d]
    else [f.d]
  if op = 0x143 then { sr := [f.a] }
  else if op = 0x14c ∨ op = 0x14e then { sr := [f.a, f.b], sw := ds }
  else if op = 0x1d0 then { sr := [f.a, f.c, f.d], sw := ds }
  else { sr := [f.a, f.b, f.c], sw := ds }

/-- What an instruction names. -/
def usesOf (i : Instr) : Uses :=
  match i.parts with
  | some (op, .v f) => if op.toNat < 0x40 then usesScalar op.toNat f else usesVector op.toNat f
  | some (op, .m f) => usesMem op.toNat f
  | some (op, .x f) => usesExit op.toNat f
  | some (op, .t f) => usesTile op.toNat f
  | some (op, .s f) => usesSys op.toNat f
  | none => {}

/-- The opcode of an instruction; ILL has 0x1FF. -/
def opOf (i : Instr) : Nat :=
  match i.parts with
  | some (op, _) => op.toNat
  | none => 0x1ff

/-- The guard of an instruction. -/
def guardOf (i : Instr) : Guard :=
  match i.parts with
  | some (_, .v f) => f.g
  | some (_, .m f) => f.g
  | some (_, .x f) => f.g
  | some (_, .t f) => f.g
  | some (_, .s f) => f.g
  | none => ⟨15, false⟩

/-- A commit-point access: ATOM, CAS, ATOMV, LAUNCH, XLD or XATOM (R52). -/
def isAccess (i : Instr) : Bool := [0x108, 0x109, 0x10a, 0x1c0, 0x1cf, 0x1d0].contains (opOf i)

/-- The exits of R56. -/
def isExit (i : Instr) : Bool :=
  let o := opOf i
  decide (0x40 ≤ o ∧ o ≤ 0x44) || o == 0x46 || o == 0x47

/-- Opcodes a Gaffer core refuses (R73). -/
def gafferRefuses (i : Instr) : Bool :=
  let o := opOf i
  decide (0x80 ≤ o ∧ o ≤ 0xdf) || decide (0x102 ≤ o ∧ o ≤ 0x107) || o == 0x10a
    || decide (0x180 ≤ o ∧ o ≤ 0x195)

/-- Whether an instruction submits a job (R186). -/
def submits (i : Instr) : Bool :=
  let o := opOf i
  [0x14b, 0x14c, 0x14d, 0x14e, 0x180, 0x181, 0x183, 0x18a, 0x18c, 0x18f, 0x190, 0x191, 0x192, 0x1c1].contains o
    || (match i with
        | .mrd f => f.mod.extractLsb' 0 2 == 2
        | .rtjob f => !f.mod.getLsbD 0
        | .capsGet _ => true
        | _ => false)

/-- The distinct handles an instruction reads, each with the sticky code of its first source (R66). -/
def ringReads (i : Instr) : List (Nat × BitVec 3) :=
  let one : Src → List (Nat × BitVec 3)
    | .ring h k => [(h.toNat, k)]
    | _ => []
  match i.parts with
  | some (op, .v f) =>
    (one f.a ++ one f.b ++ (if op = 0x9a then [] else one f.c)).foldl (fun l p => if l.any (·.1 == p.1) then l else l ++ [p]) []
  | _ => []

/-- Handle of a push by a destination field. -/
def dstPushes : Dst → List Nat
  | .push h => [h.toNat]
  | _ => []

/-- The pushes of an instruction by handle: a vector, MOV, LDV or LDG result; RADVW's count comes from
its immediate or from a register at block start (R50, R205). -/
def ringPushes (start : BitVec 6 → Word) (i : Instr) : List (Nat × Nat) :=
  match i with
  | .radvw f =>
    let n := if f.mod = 0 then f.imm.toNat else (start f.a).toNat
    [(f.h.toNat, if n ≤ 256 then n else 0)]
  | i =>
    match i.parts with
    | some (op, .v f) =>
      (dstPushes f.d).map (·, 1) ++
        (if op = 0x9a then (match f.c with | .ring h _ => [(h.toNat, 1)] | _ => []) else [])
    | some (_, .m f) => (dstPushes f.d).map (·, 1)
    | _ => []

end Sys2Proof.Machine
end

