-- ==== Sys2Proof/Machine/Issue.lean ====
section
/-!
DEFINITION. The issue of blocks (R46-R50, R52, R76, R314, R315): fetch through the strand's snapshot or
the loop buffer (R55, R57), the walk, the decode of a block, the gates and reservations, and the choice of
the strand.
-/
namespace Sys2Proof.Machine

/-! ### Rings as a gang sees them -/

/-- The gang element that stands for a gang on its rings: copy 0 of its replica set (R293). -/
def Region.leader (r : Region) (el : Nat) : Nat :=
  if elKind el = some .gang then leaderOf r.config el else el

/-- The configuration element of a ring. -/
def ringElem (q : RingId) : Nat := elAddr q.rc.val 3 0 q.el.val

/-- A ring's read or write pointer advanced: an index that passes N - 1 returns to 0 and flips the lap bit
(R195). -/
def advancePtr (n : Nat) (p : BitVec 9) (k : Nat) : BitVec 9 :=
  let v := (p.toNat / 256 * n + p.toNat % 256 + k) % (2 * n)
  BitVec.ofNat 9 (v / n * 256 + v % n)

/-- Slots of a ring. -/
def Ring.nslot (q : Ring) : Nat := q.nslotM1.toNat + 1

/-- Bytes of a slot. -/
def Ring.slotsz (q : Ring) : Nat := 16 * (q.slotszM1.toNat + 1)

/-- The write pointer: RP advanced by the filled slots (R195). -/
def Ring.wp (q : Ring) : BitVec 9 := advancePtr q.nslot q.rp q.slots.length

/-- Filled tokens that nothing has reserved (R50). -/
def Ring.open_ (q : Ring) : List Slot := q.slots.filter fun t => !t.gone && !t.res

/-- The tokens of a ring that copy `c` of `k` may draw, with `n` tokens in a group (R293). -/
def Ring.dealt (q : Ring) (c k n : Nat) : List Slot :=
  (q.slots.zipIdx.filter fun p =>
    !p.1.gone && !p.1.res && (decide (k ≤ 1) || (q.popped + p.2) / max n 1 % k == c)).map (·.1)

/-- A ring seen through the handle that a gang has on it in one direction; none when the gang is not that
end (R65, R283). A Gaffer core's handle is the number of the port (R426). -/
def Region.viewOf (r : Region) (g : Gang) (q : Ring) (prod : Bool) : Option RView :=
  let el := ringElem q.id
  let (e, p) := portOf (r.field el (if prod then 1 else 2))
  if q.id.rid ≠ g.rid ∨ q.saved ∨ e ≠ r.leader g.el then none
  else
    let (c, k) := if elKind g.el = some .gang then gangCopy r.config g.el else (0, 1)
    let ts := if prod then [] else q.dealt c k ((portCount r.config e p false).getD 1)
    let sticks := ts.map fun t => (t.lim, t.cnt, t.loop)
    let hd := (sticks[0]?).getD (none, 0, none)
    some {
      h := if g.seq.gaffer then p else r.field el (if prod then 6 else 5) 31, id := q.id, prod := prod
      toks := ts.map (·.tok), nums := ts.map (·.num), sticks := sticks
      lim := hd.1, cnt := hd.2.1, loop := hd.2.2
      earlier := (q.slots.filter (·.res)).length, mine := 0
      filled := if prod then q.open_.length else ts.length, free := q.freeseen - q.fresv, rp := q.rp, wp := q.wp
      nslot := q.nslot, slotsz := q.slotsz, stall := q.stall.toNat, starve := q.starve.toNat }

/-- Every handle of a gang. -/
def State.viewsOf (s : State) (r : Region) (g : Gang) : List RView :=
  s.chan.rings.flatMap fun q =>
    (r.viewOf g q false).toList ++ (r.viewOf g q true).toList

/-! ### The block before its words -/

/-- The victim that RTJOB.evict reports (R387). -/
def State.victim (s : State) (die : Fin 4) : Word :=
  let d := s.die die
  let e := (List.range 32).map fun g => (g, d.exslot ⟨g % 32, Nat.mod_lt _ (by decide)⟩)
  match e.find? fun p => !p.2.valid with
  | some p => BitVec.ofNat 64 p.1
  | none =>
    let c := e.filter fun p => !p.2.pin && !s.slotInuse die p.1
    let m := c.foldl (fun (b : Option (Nat × Nat)) p =>
      let v := p.2.cost.toNat * p.2.prob.toNat
      match b with
      | some (_, w) => if v < w then some (p.1, v) else b
      | none => some (p.1, v)) none
    match m with
    | some (g, _) => BitVec.ofNat 64 g
    | none => BitVec.allOnes 64

/-- The barrier table of a region's cluster as a context sees it (R215, R222). -/
def State.barsOf (s : State) (g : Gang) (c : BitVec 12) : List (Nat × Option BarObj) :=
  (s.chan.bars.filter fun b => b.id.rid == g.rid && b.id.rc.val == g.rc % 16 && !b.saved).map fun b =>
    (b.id.ix.val, if b.ctx == c then some b.obj else none)

/-- The accumulator slots that a strand's names are bound to, as they stand (R241). -/
def State.accsOf (s : State) (i : IslandId) (r : Regs) : List (Fin 4 × SMap 32 × BitVec 5) :=
  (List.finRange 4).filterMap fun c =>
    match r.acc[c] with
    | .bound isl k =>
      let a := s.slot ⟨i.die, i.cluster, isl⟩ k
      some (c, a.vals, a.flags)
    | _ => none

/-- A block of a strand before it is fetched: the strand's registers and limits, and what the block will
have seen at its issue. -/
def State.baseFlight (s : State) (g : Gang) (r : Region) (st : Strand) : Flight :=
  let c := s.ctx r.ctx
  let gran := st.grans.map (·.1)
  { Flight.idle with
    active := true, who := ⟨g.seq, st.num⟩, rid := g.rid, ctx := r.ctx
    nlanes := if g.seq.gaffer then 1 else 8 * g.cells, nvregs := st.nvregs, ntiles := st.ntiles, pc := st.pc
    r0 := st.regs, r := st.regs, views := s.viewsOf r g, bars := s.barsOf g r.ctx
    wait := st.wait, tick := s.tick, frame := (s.die g.seq.isl.die).frame
    maint := c.maint, priv := c.priv, part := c.part, victim := s.victim g.seq.isl.die
    capst := s.capsState r.ctx, capsz := s.capsSize r.ctx false, capszOp := s.capsSize r.ctx true
    granOld := gran, granFree := 1024 - gran.length, accs := s.accsOf g.seq.isl st.regs
    issue := 8 * s.free + st.num.val }

/-! ### Fetch (R55, R57) -/

/-- Whether a word lies in the body of an active loop. -/
def Regs.inBody (r : Regs) (a : Nat) : Bool :=
  r.loops.any fun l => decide (l.start.toNat ≤ a) && decide (a < l.last.toNat + 8 * (l.endWords + 1))

/-- What a fetch comes to: words, an access held at its port, or a fault. -/
inductive Fetch
  | got (ws : List Word) (x : Flight)
  | held
  | bad (f : FaultInfo)
  deriving DecidableEq, Repr, Inhabited

/-- One word fetched: from the loop buffer where a body's word has been captured, else through the snapshot;
a body's word is captured (R55, R57). -/
def State.fetchWord (s : State) (x : Flight) (a : Nat) : Fetch :=
  let body := x.r0.inBody a
  match (if body then x.r0.lbuf.find? (·.1 == a) else none) with
  | some p => .got [p.2] x
  | none =>
    match s.xlat x.ctx a 4 with
    | .held => .held
    | .bad c page =>
      .bad ({ code := c, access := 4, block := x.pc.setWidth 56, ea := BitVec.ofNat 64 a : FaultInfo }.ofPage c page a)
    | .ok h e =>
      let (bs, x) := loadBytes s x ((List.range 8).map (h + ·))
      let w : Word := BitVec.ofNat 64 (leNat bs)
      let x := x.stage (.walked e a false)
      .got [w] (if body then { x with r := { x.r with lbuf := (a, w) :: x.r.lbuf } } else x)

/-- Words fetched in order, from the word at an address on. -/
def State.fetchWords (s : State) : Nat → Flight → Nat → Fetch
  | 0, x, _ => .got [] x
  | n + 1, x, a =>
    match s.fetchWord x (a % 2 ^ 56) with
    | .got w x =>
      match s.fetchWords n x (a + 8) with
      | .got ws x => .got (w ++ ws) x
      | o => o
    | o => o

/-! ### Decode of a block (R47, R48, R76) -/

/-- Whether a header is one that R48 refuses. -/
def headerBad (h : Word) : Bool :=
  let words := (h.extractLsb' 56 8).toNat
  h.extractLsb' 0 49 != 0 || words == 0 || decide (words < (h.extractLsb' 49 7).toNat + 1)

/-- The walk of R47 over the words that follow the header: the instruction words with their literals, or
the index of its failure. -/
def walkWords : Nat → Nat → List Word → List (Word × Option Word) ⊕ Nat
  | 0, _, ws => if ws.isEmpty then .inl [] else .inr 0xff
  | n + 1, i, ws =>
    match ws with
    | [] => .inr (i - 1)
    | w :: ws =>
      if claimsLiteral w then
        match ws with
        | [] => .inr i
        | l :: ws => (walkWords n (i + 1) ws).map ((w, some l) :: ·) id
      else (walkWords n (i + 1) ws).map ((w, none) :: ·) id

/-- The destination of a commit-point access: a vector register or a scalar (R52). -/
def accessDest (i : Instr) : Bool × BitVec 6 :=
  match i with
  | .atom f | .cas f => (false, (dstRegs f.d).headD 0)
  | .atomv f => (true, (dstRegs f.d).headD 0)
  | .launch f | .xld f | .xatom f => (false, f.d)
  | _ => (false, 0)

/-- Whether another instruction reads or writes the destination of an access (R52). s0 is never written, so
naming it conflicts with nothing. -/
def touchesDest (acc i : Instr) : Bool :=
  let (vec, d) := accessDest acc
  let u := usesOf i
  if vec then u.vr.contains d || u.vw.contains d
  else d != 0 && (u.sr.contains d || u.sw.contains d)

/-- Whether two instructions may not stand in one block: R52, R122, R292, R321, R354 and R405. -/
def mayNotJoin (a b : Instr) : Bool :=
  let oa := opOf a
  let ob := opOf b
  let isTrap (o : Nat) : Bool := o == 0x1c8 || o == 0x1c9
  let both (p q : Instr → Bool) : Bool := (p a && q b) || (p b && q a)
  both isAccess isAccess
    || (isAccess a && touchesDest a b) || (isAccess b && touchesDest b a)
    || both (opOf · == 0x45) (fun i => isExit i || opOf i == 0x45)
    || both (fun i => isTrap (opOf i)) (fun i => isTrap (opOf i) || isExit i || opOf i == 0x45)
    || (oa == ob && (oa == 0x1c3 || oa == 0x1ca || oa == 0x1cd))

/-- Whether the handles of an instruction are bound to the gang in the direction it needs (R65). -/
def handlesOk (views : List RView) (i : Instr) : Bool :=
  let has (h : Nat) (prod : Bool) : Bool := views.any fun v => v.h == h && v.prod == prod
  (ringReads i).all (fun p => has p.1 false)
    && (match i with
        | .rwaitf f | .rrels f | .rflush f => has f.h.toNat false
        | .rwaite f => has f.h.toNat true
        | .radvw f => has f.h.toNat true
        | .rstat f | .cpyq f => has f.h.toNat false || has f.h.toNat true
        | .mtask f | .mtasks f => !f.mod.getLsbD 0 || has f.sy.toNat false
        | i => (ringPushes (fun _ => 0) i).all fun p => p.1 == 31 || has p.1 true)

/-- The decode checks of one instruction word after those before it (R76): the fault, or the instruction. -/
def decodeOne (x : Flight) (earlier : List Instr) (w : Word) (lit : Option Word) : Instr ⊕ FaultCode :=
  match decodeFields w lit with
  | none => .inr .illegalOp
  | some (.ill _) => .inr .illegalOp
  | some i =>
    let u := usesOf i
    if !i.entryOk || (x.who.seq.gaffer && gafferRefuses i)
        || (u.vr ++ u.vw).any (fun n => decide (x.nvregs ≤ n.toNat)) then .inr .illegalOp
    else if i.ringRejects || !handlesOk x.views i then .inr .ringState
    else if earlier.any (mayNotJoin · i) then .inr .illegalBlock
    else .inl i

/-- The decode of a block's words in index order: the instructions, or the first fault with its index. -/
def decodeBlock (x : Flight) : List Instr → List (Word × Option Word) → List Instr ⊕ FaultInfo
  | done, [] => .inl done
  | done, (w, l) :: rest =>
    match decodeOne x done w l with
    | .inl i => decodeBlock x (done ++ [i]) rest
    | .inr c => .inr { code := c, block := x.pc.setWidth 56, index := done.length }

/-! ### Reservations (R50, R68) -/

/-- The count of RRELS or RADVW as it stood at block start (R49, R204). -/
def startCount (x : Flight) (f : SInsn) : Nat :=
  let n := if f.mod = 0 then f.imm.toNat else (x.startS f.a).toNat
  if countIn n then n else 0

/-- How far one instruction moves on a handle when its guard holds, and whether the block goes on: another sticky code
than the token's faults (R67). -/
def RView.reachBy (x : Flight) (v : RView) (i : Instr) : RView × Bool :=
  match i with
  | .rrels f => (if f.h.toNat = v.h then v.release (startCount x f) else v, true)
  | .mtask f | .mtasks f =>
    (if f.mod.getLsbD 0 && f.sy.toNat == v.h then { v.goto (v.pos + 1) with reach := max v.reach (v.pos + 1) }
      else v, true)
  | i =>
    match (ringReads i).find? (·.1 == v.h) with
    | none => (v, true)
    | some (_, k) =>
      let w := { v with reach := max v.reach (v.pos + 1) }
      if k = 7 then (w, true)
      else
        match v.lim with
        | some k' => if k' = k then (w.count k x.who x.r0.loops.length, true) else (w, false)
        | none => (w.count k x.who x.r0.loops.length, true)

/-- How far the instructions of a block may move on a handle, by the places it may have come to: a guarded instruction
may also stay off, where a later one would then read on (R50, R68). -/
def reachAll (x : Flight) : List Instr → List RView → Nat
  | [], vs => vs.foldl (fun n v => max n v.reach) 0
  | i :: is, vs =>
    let on := vs.map fun v => v.reachBy x i
    let stop := (on.filter fun p => !p.2).foldl (fun n p => max n p.1.reach) 0
    let go := (on.filter (·.2)).map (·.1)
    max stop (reachAll x is (if guardOf i == ⟨15, false⟩ then go else (go ++ vs).eraseDups))

/-- Tokens a block may reach on a handle: those of every guard that may hold (R50, R68). DEDUCED: of the ways in which
its guards may fall out, the one that reaches furthest. -/
def RView.reached (x : Flight) (is : List Instr) (v : RView) : Nat := reachAll x is [v]

/-- Pushes a block makes on a handle, whatever its guards (R50). -/
def pushesOn (x : Flight) (is : List Instr) (h : Nat) : Nat :=
  is.foldl (fun n i =>
    (ringPushes x.startS i).foldl (fun n p => if p.1 == h then n + p.2 else n) n) 0

/-- Whether the pushes of a replica's block fall into its own groups (R293). -/
def State.pushTurn (s : State) (r : Region) (g : Gang) (v : RView) (n : Nat) : Bool :=
  match s.ring v.id, elKind g.el with
  | some q, some .gang =>
    let (c, k) := gangCopy r.config g.el
    let (e, p) := portOf (r.field (ringElem v.id) 1)
    let per := max ((portCount r.config e p true).getD 1) 1
    decide (k ≤ 1) || (List.range n).all fun j => (q.merge + q.fresv + j) / per % k == c
  | _, _ => true

/-- The views with what the block reserves: tokens where it consumes, slots where it produces. -/
def reserveViews (x : Flight) (is : List Instr) : List RView :=
  x.views.map fun v =>
    { v with mine := if v.prod then pushesOn x is v.h else v.reached x is }

/-! ### Gates (R183, R203, R224, R234, R240, R241, R253, R273, R314, R321, R322, R334, R336, R385) -/

/-- The tile that a job reads as A, while it has not read it (R234, R253). -/
def Job.tileA (j : Job) : Option Nat :=
  if j.req.tile.isNone || j.state == .arrayDone then none
  else
    match j.req.kind with
    | .task => some (fieldN j.req.bytes 16 1 % 8)
    | .tdstep | .tdleaf => some (((j.req.args[4]?).getD 0).toNat % 8)
    | .skpred | .skfetch | .skchk | .skrpl => some (((j.req.args[0]?).getD 0).toNat % 8)
    | _ => none

/-- The tile that a leaf writes (R253). -/
def Job.tileOut (j : Job) : Option Nat :=
  if j.req.kind = .tdleaf then
    let t := ((j.req.args[5]?).getD 16).toNat
    if t < 8 then some t else none
  else none

/-- The path-trace register of a step or leaf. -/
def Job.pathOf (j : Job) : Option Nat :=
  match j.req.kind with
  | .tdstep | .tdleaf => some (((j.req.args[0]?).getD 0).toNat % 4)
  | _ => none

/-- The accumulator name of a task, MZERO or write-back (R240). -/
def JobReq.accName (j : JobReq) : Option (Fin 4) :=
  let f (k : Nat) : Option (Fin 4) :=
    some ⟨((j.args[k]?).getD 0).toNat % 4, Nat.mod_lt _ (by decide)⟩
  match j.kind with
  | .task | .mzero => f 0
  | .mrdWrite => f 3
  | _ => none

/-- Whether a job is one of the skive unit. -/
def JobKind.isSkive : JobKind → Bool
  | .skpred | .skfetch | .skchk | .skrpl => true
  | _ => false

/-- General entries of an event queue that are free: records of gang ends have entries of their own
(R317). -/
def EventQueue.room (q : EventQueue) : Nat :=
  256 - ((q.recs.filter fun p => fieldN p.1 0 2 != 0x40).length + q.reserved)

/-- The island that an EVPUSH sends to (R322, R49). -/
def evTarget (x : Flight) (f : SInsn) : IslandId :=
  let isl := x.who.seq.isl
  if f.mod = 0 then isl
  else { isl with island := ⟨(x.startS f.c).toNat % 4, Nat.mod_lt _ (by decide)⟩ }

/-- The islands whose queues the EVPUSHes of a block need an entry of. -/
def evTargets (x : Flight) (is : List Instr) : List IslandId :=
  is.filterMap fun i => match i with
    | .evpush f => some (evTarget x f)
    | _ => none

/-- Pending-launch entries of a cluster that are free: reserved ones are not (R330, R334). -/
def State.entriesFree (s : State) (die : Fin 4) (cl : Fin 16) : Nat :=
  256 - ((s.hub.pending.filter fun e => e.die == die && e.cl == cl).length
    + ((s.x :: s.fab.flights).filter fun f =>
        f.active && f.entry && f.who.seq.isl.die == die && f.who.seq.isl.cluster == cl).length)

/-- The jobs of a strand that are not complete. -/
def State.jobsOf (s : State) (t : StrandId) : List Job := s.eng.jobs.filter (·.owner == some t)

/-- Incomplete jobs of a cluster's matcher (R192). -/
def State.matcherLoad (s : State) (die : Fin 4) (cl : Fin 16) : Nat :=
  (s.eng.jobs.filter fun j => j.die == die && j.cl == cl).length

/-- The gates that hold an instruction only when it is not guarded off (R234, R237, R240, R241, R253, R255, R271, R333,
R383). -/
def State.gateOn (s : State) (x : Flight) (i : Instr) : Bool :=
  let isl := x.who.seq.isl
  let js := s.jobsOf x.who
  let u := usesOf i
  let tiles (l : List (BitVec 4)) : List Nat := l.map fun t => t.toNat % 8
  let data : Bool := js.all fun j =>
    (match j.tileA with | some t => !(tiles u.tw).contains t | none => true)
      && (match j.tileOut with | some t => !(tiles (u.tr ++ u.tw)).contains t | none => true)
      && (match j.pathOf with | some d => !(u.dr.map fun r => r.toNat % 4).contains d | none => true)
  let own : Bool := match i with
    | .mwait f =>
      if f.mod = 0 then js.all fun j => j.req.accName != some (accOf f.td)
      else js.all fun j => j.req.accName.isNone && j.req.kind != .cpyb
    | .mrd f => js.all fun j => j.req.accName != some (accOf f.ta)
    | .skstat _ => js.all fun j => !j.req.kind.isSkive
    | .rtwait _ => js.all fun j => j.req.kind != .rtjob
    | .twait f =>
      let v := x.startS f.a
      (match f.mod.toNat with
       | 0 => js.all fun j => j.seqno != v.setWidth 16
       | 1 => js.isEmpty
       | _ => !s.hub.pending.any fun e =>
           e.die == isl.die && e.cl == isl.cluster && e.ticket == v.extractLsb' 8 16)
    | .launch f => !f.mod.getLsbD 0 || x.entry || decide (0 < s.entriesFree isl.die isl.cluster)
    | _ => true
  data && own && (!submits i || decide (s.matcherLoad isl.die isl.cluster < 512))

/-- Whether an instruction is not guarded off, as far as that stands at block start: its guard holds there, and no
earlier instruction writes its predicate (R49). -/
def Flight.onAtStart (x : Flight) (earlier : List Instr) (i : Instr) : Bool :=
  let g := guardOf i
  let writes (j : Instr) : Bool := match j.parts with
    | some (_, .v f) => (dstAlts f.d).any fun n => n.setWidth 4 == g.pred
    | _ => false
  x.on0 g && !earlier.any writes

/-- The gates of one instruction beside its rings, judged at block start (R49): some hold whatever its guard, the others
when its guard is known to hold; an instruction whose guard the block itself decides waits at its own index. -/
def State.gateOk (s : State) (x : Flight) (earlier : List Instr) (i : Instr) : Bool :=
  let isl := x.who.seq.isl
  let always : Bool := match i with
    | .rwaitf f => x.views.all fun v => v.prod || v.h != f.h.toNat || decide (f.imm.toNat ≤ v.filled)
    | .rwaite f => x.views.all fun v => !v.prod || v.h != f.h.toNat || decide (f.imm.toNat ≤ v.free)
    | .phase _ | .publ _ => decide ((s.mem.pubsBy x.who).length < 4)
    | .bwait f =>
      (match x.bars.find? (·.1 == f.h.toNat) with
       | some (_, some b) =>
         let p := if f.mod = 0 then f.imm.getLsbD 0 else (x.startS f.a).getLsbD 0
         b.ovf || b.phase != p
       | _ => true)
    | .evpop f => f.mod == 1 || (s.events isl).recs.any fun p => !p.2
    | _ => true
  always && (!x.onAtStart earlier i || s.gateOn x i)

/-- The gates of a block's instructions. -/
def State.gatesOk (s : State) (x : Flight) (is : List Instr) : Bool :=
  is.zipIdx.all fun p => s.gateOk x (is.take p.2) p.1

/-- The jobs that a block in flight may submit, whatever its guards. -/
def Flight.mayJobs (x : Flight) : Nat :=
  match walkWords (x.ninsnM1 + 1) 0 x.first with
  | .inl ps => (ps.filter fun p => (decodeFields p.1 p.2).elim false submits).length
  | .inr _ => 0

/-- Whether a cluster's matcher has room for some more jobs beside those that blocks already issued may submit (R192). -/
def State.matcherRoom (s : State) (die : Fin 4) (cl : Fin 16) (n : Nat) : Bool :=
  let issued := (s.fab.flights.filter fun f => f.active && f.who.seq.isl.die == die
    && f.who.seq.isl.cluster == cl).foldl (fun n f => n + f.mayJobs) 0
  n = 0 || decide (s.matcherLoad die cl + issued + n ≤ 512)

/-- Whether the jobs that a block is known to submit fit its cluster's matcher (R192). -/
def State.matcherFits (s : State) (x : Flight) (is : List Instr) : Bool :=
  let isl := x.who.seq.isl
  let n := (is.zipIdx.filter fun p => submits p.1 && x.onAtStart (is.take p.2) p.1).length
  s.matcherRoom isl.die isl.cluster n

/-- Whether a block touches a destination that a remote reply is to write (R52). -/
def pendingHit (ps : List Pending) (is : List Instr) : Bool :=
  is.any fun i =>
    let u := usesOf i
    ps.any fun p =>
      let d := BitVec.ofNat 6 p.d
      if p.vec.isSome then (u.vr ++ u.vw).contains d else d != 0 && (u.sr ++ u.sw).contains d

/-- Every gate of a decoded block (R50, R314). -/
def State.blockReady (s : State) (x : Flight) (r : Region) (g : Gang) (st : Strand) (is : List Instr) :
    Bool :=
  let evs := evTargets x is
  (reserveViews x is).all (fun v =>
      if v.prod then decide (v.mine ≤ v.free) && s.pushTurn r g v v.mine
      else decide (v.mine ≤ v.toks.length))
    && s.gatesOk x is
    && evs.all (fun k => decide ((evs.filter (· == k)).length ≤ (s.events k).room))
    && s.matcherFits x is
    && !pendingHit st.pend is

/-! ### The issue -/

/-- What trying to issue a strand's next block comes to. -/
inductive Attempt
  | notReady
  /-- its fetch is held by a page that is being moved (R358) -/
  | held
  | bad (f : FaultInfo)
  | ready (x : Flight) (is : List Instr)
  deriving DecidableEq, Repr, Inhabited

/-- Whether a strand is held by an XDRAIN of its own (R376). -/
def State.draining (s : State) (c : BitVec 12) (st : Strand) : Bool :=
  match st.drain with
  | some n => s.hub.xsts.any fun q => q.ctx == c && decide (q.num < n)
  | none => false

/-- A strand's next block fetched, decoded and held against its gates (R314). -/
def State.attempt (s : State) (g : Gang) (r : Region) (st : Strand) : Attempt :=
  let t : StrandId := ⟨g.seq, st.num⟩
  if st.ended || s.fab.flights.any (·.who == t) || s.draining r.ctx st then .notReady
  else
    let x := s.baseFlight g r st
    let bad (c : FaultCode) (i : Nat) : Attempt :=
      .bad { code := c, block := x.pc.setWidth 56, index := i }
    match s.fetchWord x x.pc.toNat with
    | .held => .held
    | .bad f => .bad f
    | .got hs x =>
      let h := hs.headD 0
      if headerBad h then bad .illegalBlock 0xff
      else
        let words := (h.extractLsb' 56 8).toNat
        let n := (h.extractLsb' 49 7).toNat
        match s.fetchWords words x (x.pc.toNat + 8) with
        | .held => .held
        | .bad f => .bad f
        | .got ws x =>
          match walkWords (n + 1) 0 ws with
          | .inr i => bad .illegalBlock i
          | .inl ps =>
            match decodeBlock x [] ps with
            | .inr f => .bad f
            | .inl is =>
              let x := { x with words := words, ninsnM1 := n, todo := ws, first := ws }
              if s.blockReady x r g st is then .ready x is else .notReady

/-- The pick of R315 among ready strands, first the aged, then by role; ties by WAIT and strand number. -/
def pickStrand (ready : List Strand) : Option Strand :=
  let free := ready.filter fun st => !st.yielded
  let cand := if free.isEmpty then ready else free
  let aged := cand.filter fun st => decide (st.regs.agelim.toNat < st.wait)
  let better (a b : Strand) : Bool :=
    let ra := if aged.isEmpty then a.regs.role.toNat else 0
    let rb := if aged.isEmpty then b.regs.role.toNat else 0
    decide (rb < ra) || (ra == rb && (decide (b.wait < a.wait) ||
      (a.wait == b.wait && decide (a.num.val < b.num.val))))
  (if aged.isEmpty then cand else aged).foldl (fun b st =>
    match b with
    | some o => if better st o then some st else b
    | none => some st) none

/-- The first `n` tokens of a view reserved in its ring (R50). -/
def Ring.reserve (q : Ring) (v : RView) : Ring :=
  if v.prod then { q with fresv := q.fresv + v.mine }
  else
    { q with slots := q.slots.map fun t =>
        if (v.nums.take v.mine).contains t.num then { t with res := true } else t }

/-- The first record of an event queue that nothing has reserved, reserved (R321). -/
def EventQueue.take (q : EventQueue) : EventQueue :=
  { q with recs := modFirst (fun p => !p.2) (fun p => (p.1, true)) q.recs }

/-- The ready block issued: its reservations made and what it sees at issue sampled (R50). -/
def State.issueBlock (s : State) (x : Flight) (is : List Instr) : State :=
  let isl := x.who.seq.isl
  let views := reserveViews x is
  let s := views.foldl (fun s v => s.modRing v.id (·.reserve v)) s
  let evs := evTargets x is
  let s := evs.foldl (fun s k =>
    let q := s.events k
    s.setEvents { q with reserved := q.reserved + 1 }) s
  let pops := is.any fun i => opOf i == 0x1c3
  let head := if pops then ((s.events isl).recs.find? fun p => !p.2).map (·.1) else none
  let s := if head.isSome then s.setEvents (s.events isl).take else s
  let srs := is.filterMap fun i => match i with
    | .srd f =>
      if 0x100 ≤ srNum f then some (srNum f, s.srValue x (srNum f))
      else if srNum f = 0x040 then some (0x040, s.srStrand x 0x040) else none
    | _ => none
  { s with
    x := { x with
      views := views, evhead := head, srs := srs, evres := evs
      entry := is.zipIdx.any fun p => match p.1 with
        | .launch f => f.mod.getLsbD 0 && x.onAtStart (is.take p.2) p.1
        | _ => false }
    free := s.free + 1 }

/-- The strands of a gang after a gang cycle in which `pick` was issued (R315). A YIELD holds until a cycle has passed in
which another strand was ready (R120). -/
def afterPick (pick : Fin 8) (ready : List (Fin 8)) (st : Strand) : Strand :=
  { st with
    wait := if st.num = pick then 0 else if ready.contains st.num then min (st.wait + 1) 65535 else st.wait
    yielded := st.yielded && !ready.any (· != st.num) }

/-- Whether an island's clock runs: its m is not zero and its power is on (R302, R411). -/
def Island.running (i : Island) : Bool := i.m != 0 && !i.gated && i.waking.isNone

/-- BLOCK_ISSUE: one gang cycle of a sequencer. A block that fails its fetch or decode faults its region; a
cycle in which no strand is ready changes nothing. -/
def execBlockIssue (s : State) : Out :=
  let s := s.parkX
  match s.arg with
  | .seq q =>
    match s.gang q with
    | none => .next s
    | some g =>
      match s.region g.rid with
      | none => .next s
      | some r =>
        if !r.state.live || (r.saving && !r.pend) || r.dying.isSome || g.done || g.fenced || r.stops g.el || !(s.island (fabKey q.isl)).running then .next s
        else
          let tries := g.strands.map fun st => (st, s.attempt g r st)
          let s := s.modGang q fun g => { g with strands := g.strands.map fun st =>
            { st with fetchHeld := tries.any fun p => p.1.num == st.num && p.2 == .held } }
          match tries.findSome? fun p => match p.2 with | .bad f => some (p.1.num, f) | _ => none with
          | some (n, f) => .next ((s.erredBy q.isl.die r.ctx f).deliver g.rid r.ctx (sourceOf ⟨q, n⟩) f)
          | none =>
            let ready := tries.filterMap fun p => match p.2 with
              | .ready x is => some (p.1, x, is)
              | _ => none
            match pickStrand (ready.map (·.1)) with
            | none => .next s
            | some st =>
              match ready.find? (·.1.num == st.num) with
              | none => .next s
              | some (_, x, is) =>
                let nums := ready.map (·.1.num)
                let s := s.modGang q fun g => { g with strands := g.strands.map (afterPick st.num nums) }
                .next (s.issueBlock x is)
  | _ => .next s

end Sys2Proof.Machine
end

