-- ==== Sys2Proof/Machine/Control.lean ====
section
/-!
DEFINITION. Group 1: the exits, loops, YIELD and NOP (R116-R126).
-/
namespace Sys2Proof.Machine

/-- The address of the block that follows (R56). -/
def Flight.nextBlock (x : Flight) : Addr := x.pc + BitVec.ofNat 56 (8 * (x.words + 1))

/-- The target of a TGT field, modulo 2^56 (R116). -/
def Flight.tgt (x : Flight) (i : XInsn) : Addr := x.pc + (i.tgt.signExtend 56) <<< 3

/-- A taken exit: the one of the lowest index wins (R56); `f` is what it does when it wins. -/
def Flight.take (x : Flight) (e : Exit) (f : Flight → Flight) : Flight :=
  match x.exit with
  | some _ => x
  | none => f { x with exit := some e }

/-- A taken exit to a register's address: ALIGN when it wins and is not 8-aligned (R56, R118). -/
def Flight.takeTo (x : Flight) (target : Addr) : Flight :=
  x.take (.jump target) fun x =>
    if target.toNat % 8 ≠ 0 then x.fail { code := .align, ea := target.setWidth 64 } else x

/-- The condition of BRC and LOOPX (R117). -/
def exitCond (cm : BitVec 2) (u : Bool) (a b : Word) : Bool :=
  match cm.toNat with
  | 0 => a == b
  | 1 => a != b
  | 2 => if u then a.ult b else a.slt b
  | _ => if u then !a.ult b else !a.slt b

/-- BR (R118). -/
def execBr (i : XInsn) (s : State) : Out :=
  act s (s.x.scalarAct i.g fun x => x.take (.jump (x.tgt i)) id)

/-- BRC (R117, R118). -/
def execBrc (i : XInsn) (s : State) : Out :=
  act s (s.x.scalarAct i.g fun x =>
    if exitCond i.cm (i.aux.getLsbD 0) (x.rdS i.s1) (x.rdS i.s2) then x.take (.jump (x.tgt i)) id else x)

/-- CALL: the link is the block that follows (R118). -/
def execCall (i : XInsn) (s : State) : Out :=
  act s (s.x.scalarAct i.g fun x =>
    x.take (.jump (x.tgt i)) fun x => x.wrS i.s1 (x.nextBlock.setWidth 64))

/-- RET (R118). -/
def execRet (i : XInsn) (s : State) : Out :=
  act s (s.x.scalarAct i.g fun x => x.takeTo ((x.rdS i.s1).setWidth 56))

/-- JMPI (R118). -/
def execJmpi (i : XInsn) (s : State) : Out :=
  act s (s.x.scalarAct i.g fun x => x.takeTo ((x.rdS i.s1 + x.rdS i.s2).setWidth 56))

/-- The loop counter an AUX field names. -/
def auxCounter (a : BitVec 4) : Fin 3 := ⟨a.toNat % 3, Nat.mod_lt _ (by decide)⟩

/-- The size in words of a loop body whose last block starts at `target` (R122). -/
def bodySize (start target : Addr) (ew : Nat) : Nat := (target.toNat - start.toNat) / 8 + ew + 1

/-- The LOOP_DEPTH checks of R123. -/
def loopBad (x : Flight) (k : Fin 3) (start target : Addr) (ew : Nat) : Bool :=
  decide (3 ≤ x.r.loops.length) || x.r.loops.any (·.k == k) || decide (target.toNat < start.toNat)
    || decide (256 < bodySize start target ew)
    || (match x.r.loops.head? with
        | some l => decide (start.toNat < l.start.toNat) ||
            decide (l.last.toNat + 8 * l.endWords < target.toNat + 8 * ew)
        | none => false)

/-- LOOP: the header at the target is read as a fetch is, and reported at the LOOP's own index (R122,
R123). -/
def execLoop (i : XInsn) (s : State) : Out :=
  act s (s.x.scalarAct i.g fun x =>
    let start := x.nextBlock
    let target := x.tgt i
    let k := auxCounter i.aux
    let f : FaultInfo := { code := .page, access := 4, ea := target.setWidth 64 }
    let acc : Access :=
      match s.xlat x.ctx target.toNat 4 with
      | .held => .held
      | .bad code page => .fail (f.ofPage code page target.toNat)
      | .ok h e => .ok ((List.range 8).map (h + ·)) [(e, target.toNat)]
    x.withAccess acc false fun hs x =>
      let (bs, x) := loadBytes s x hs
      let ew := leNat bs / 2 ^ 56
      if loopBad x k start target ew then x.failCode .loopDepth
      else
        let n := (x.rdS i.s1).setWidth 32
        x.stage (.loopPush ⟨k, start, target, ew⟩ (if n = 0 then 1 else n)))

/-- LOOPX: LOOP_DEPTH unless an active loop uses the counter (R126). -/
def execLoopx (i : XInsn) (s : State) : Out :=
  act s (s.x.scalarAct i.g fun x =>
    let k := auxCounter i.aux
    if !x.r.loops.any (·.k == k) then x.failCode .loopDepth
    else if exitCond i.cm false (x.rdS i.s1) (x.rdS i.s2) then
      x.take (.loopx k.val (x.tgt i)) id
    else x)

/-- END (R119). -/
def execEndStrand (i : XInsn) (s : State) : Out :=
  act s (s.x.scalarAct i.g fun x => x.take .stop id)

/-- YIELD (R120). -/
def execYield (i : XInsn) (s : State) : Out :=
  act s (s.x.scalarAct i.g fun x => { x with yield := true })

/-- NOP (R120). -/
def execNop (i : XInsn) (s : State) : Out := act s (s.x.scalarAct i.g id)

end Sys2Proof.Machine
end

