-- ==== Sys2Proof/Machine/Publish.lean ====
section
/-!
DEFINITION. Publications and refreshes (R183-R188), atomics at their home (R175-R178, R190), faults
reported at a block boundary (R52), remote requests and their ends (R371, R374-R376), and what another
device asks of this one's memory.
-/
namespace Sys2Proof.Machine

/-- Ticks of a millisecond: the global tick runs at 1.2 GHz (R1). -/
def ticksPerMs : Nat := 1200000

/-! ### Strands -/

/-- A strand's registers changed by something other than its own block: the strand's own, and those of a
block of it in flight. -/
def State.updRegs (s : State) (t : StrandId) (f : Regs → Regs) : State :=
  let s := s.modStrand t fun st => { st with regs := f st.regs }
  let g (x : Flight) : Flight :=
    if x.active && x.who == t then { x with r0 := f x.r0, r := f x.r } else x
  { s with x := g s.x, fab := { s.fab with flights := s.fab.flights.map g } }

/-- Whether a strand has a block in flight. -/
def State.inFlight (s : State) (t : StrandId) : Bool :=
  (s.x :: s.fab.flights).any fun x => x.active && x.who == t

/-- A fault reported against the first block boundary of a strand: at once when no block of it is in flight,
else when that block has committed or faulted (R52, R389). -/
def State.lateFault (s : State) (t : StrandId) (rid : Nat) (c : BitVec 12) (f : FaultInfo) : State :=
  let f := { f with late := true }
  if s.inFlight t then s.modStrand t fun st => { st with late := st.late ++ [f] }
  else s.deliver rid c (sourceOf t) f

/-- The faults that waited for a strand's block boundary, delivered in order. -/
def State.flushLate (s : State) (t : StrandId) (rid : Nat) (c : BitVec 12) : State :=
  match s.strand t with
  | none => s
  | some st =>
    let s := s.modStrand t fun st => { st with late := [] }
    st.late.foldl (fun s f => s.deliver rid c (sourceOf t) f) s

/-! ### Publication and refresh (R183-R187) -/

/-- A byte put into a phase buffer: the later of two stores to one byte stands (R182). -/
def bufSet (b : SMap 8) (c : Host.Cell) : SMap 8 := c :: b.filter (·.1 != c.1)

/-- The numbers of a strand's publications in flight. -/
def State.pubsOf (s : State) (t : StrandId) : List Nat := (s.mem.pubsBy t).map (·.num)

/-- Whether listed publications have completed. -/
def State.pubsDone (s : State) (l : List Nat) : Bool := l.all s.mem.done

/-- A strand's phase buffer moved to its drain as a publication at a scope (R183). -/
def State.publish (s : State) (t : StrandId) (rid : Nat) (c : BitVec 12) (scope : BitVec 4) : State :=
  let buf := ((s.strand t).map (·.buf)).getD []
  let grans := ((s.strand t).map (·.grans)).getD []
  let p : Publication := ⟨s.mem.nextPub, t, rid, c, scope, buf, s.hub.nextReq, false⟩
  let s := { s with mem := { s.mem with pubs := s.mem.pubs ++ [p], nextPub := s.mem.nextPub + 1 } }
  let s := s.modStrand t fun st => { st with buf := [], grans := [] }
  s.record (seqUnit t.seq) (some c) 2 0 (sourceOf t).num
    ([BitVec.ofNat 8 scope.toNat] ++ leBytes 3 0 ++ leBytes 4 grans.length)

/-- A floor raised to a store's number. -/
def raiseFloor (l : List (Nat × Nat)) (p : Nat × Nat) : List (Nat × Nat) :=
  if floorOf l p.1 < p.2 then p :: l.filter (·.1 != p.1) else l

/-- Whether a store is certain to have reached a strand: it is the strand's own, its publication is
complete, or a later publication of its publisher has reached the strand (R185 rule 2). -/
def State.reached (s : State) (t : StrandId) (floors : List (Nat × Nat)) (v : Ver) : Bool :=
  v.by_ == .strand t || s.mem.done v.pub ||
    s.mem.hist.any fun w =>
      w.by_ == v.by_ && decide (v.pub < w.pub) && reaches w.scope w.by_ (.strand t)
        && (s.mem.done w.pub || floors.contains (w.addr, w.seq))

/-- A refresh at a scope: the strand's snapshot takes in every store that has reached it from a publisher
within its instance of the scope; whether a store of a publication in flight has reached it is free (R185
rule 3). -/
def State.refresh (s : State) (t : StrandId) (c : BitVec 12) (scope : BitVec 4) : State :=
  let me := Place.strand t
  let floors := ((s.strand t).map (·.floors)).getD []
  let kept := ((s.strand t).map (·.kept)).getD []
  let new := s.mem.hist.filter fun v =>
    (reaches v.scope v.by_ me || kept.contains v.seq) && reaches scope me v.by_
      && (s.reached t floors v || Config.pick s.free v.seq % 2 == 0)
  let s := s.modStrand t fun st =>
    { st with floors := (new.map fun v => (v.addr, v.seq)).foldl raiseFloor st.floors }
  s.record (seqUnit t.seq) (some c) 2 1 (sourceOf t).num [BitVec.ofNat 8 scope.toNat]

/-- Every store of a publisher's publications up to a number landed, in order (R185 rule 2). -/
def State.landUpTo (s : State) (b : Place) (n : Nat) : State :=
  (s.mem.pubs.filter fun p => p.by_ == b && decide (p.num ≤ n)).foldl
    (fun s p => State.landSome p.cells.length p.num s) s

/-- PUBLICATION_COMPLETE: every store of a publication has reached every observer of its instance; one at
.ssys waits for the context's earlier remote stores (R185, R187). -/
def execPublicationComplete (s : State) : Out :=
  match s.arg with
  | .num n =>
    match s.mem.pubs.find? (·.num == n) with
    | none => .next s
    | some p =>
      if p.scope = 5 ∧ (s.hub.xsts.any fun x => x.ctx == p.ctx && decide (x.num < p.xsts)) then .next s
      else
        let s := s.landUpTo p.by_ n
        let s := { s with mem := { s.mem with pubs := s.mem.pubs.filter (·.num != n) } }
        .next ((s.record (seqUnit p.owner.seq) (some p.ctx) 2 2 (sourceOf p.owner).num
          [BitVec.ofNat 8 p.scope.toNat]).progress p.rid)
  | _ => .next s

/-! ### Atomics at their home (R175-R178, R190) -/

/-- The value an atomic leaves: operations 0 to 7 of R176, 8 compare and swap (R177). Results of `z` bytes
wrap. -/
def atomNew (op : Nat) (f : Fmt) (z old x y : Nat) : Nat :=
  let w := 8 * z
  let sgn := f != .uint32
  let lt (a b : Nat) : Bool :=
    if sgn then decide (toSigned w a < toSigned w b) else decide (a < b)
  let a := old % 2 ^ w
  let b := x % 2 ^ w
  match op with
  | 0 => (a + b) % 2 ^ w
  | 1 => a &&& b
  | 2 => a ||| b
  | 3 => a ^^^ b
  | 4 => if lt b a then b else a
  | 5 => if lt a b then b else a
  | 6 => b
  | 7 => (toFloat fp32Info (addNum (elemVal .fp32 a) (elemVal .fp32 b) .rne).1 .rne false).bits
  | _ => if a = b then y % 2 ^ w else a

/-- The scope at which an atomic's write is published: that of its home (R190). -/
def homeScope (h : Nat) : BitVec 4 :=
  if isFabHome h then 5 else if decide (2 ^ 61 ≤ h) then 2 else 4

/-- The strand's buffered stores to the 64-byte granule of a home published before an atomic acts there;
the rest stay buffered (R190). -/
def State.flushGranule (s : State) (t : StrandId) (h : Nat) : State :=
  let buf := ((s.strand t).map (·.buf)).getD []
  let (here, rest) := buf.partition fun c => c.1 / 64 == h / 64
  if here.isEmpty then s
  else
    let s := s.modStrand t fun st => { st with buf := rest, grans := st.grans.filter (·.2 != h / 64) }
    here.foldl (fun s c =>
      let n := s.mem.nextSeq
      (s.put (.strand t) (homeScope h) [c]).modStrand t fun st =>
        { st with floors := raiseFloor st.floors (c.1, n) }) s

/-- One atomic at a home of the package: the old value, and the machine after its write (R190). -/
def State.atomic (s : State) (t : StrandId) (h z op : Nat) (f : Fmt) (x y : Nat) : Nat × State :=
  let s := s.flushGranule t h
  let old := leNat (smRead 0 s.mem.cells h z)
  let cells := cellsAt h (leBytes z (atomNew op f z old x y))
  if isCellHome h then (old, s.poke cells)
  else
    let n := s.mem.nextSeq
    let s := s.put (.strand t) (homeScope h) cells
    let fl := (List.range z).map fun k => (h + k, n + k)
    (old, s.modStrand t fun st => { st with floors := fl.foldl raiseFloor st.floors })

/-! ### Remote requests (R52, R374, R375) -/

/-- The device behind a home in host or peer memory (R371). -/
def State.windowDev (s : State) (h : Nat) : BitVec 20 :=
  (s.window h).1

/-- The words of a value written into a vector register's awaited lanes. -/
def Regs.wrLanes (r : Regs) (d : Nat) (f : Fmt) (vals : List (Nat × Lane)) : Regs :=
  let n := BitVec.ofNat 6 d
  let v := r.rdV n
  let lanes := v.lanes.zipIdx.map fun p => ((vals.find? (·.1 == p.2)).map (·.2)).getD p.1
  r.wrV n ⟨lanes, f, sideFresh v.lanes.length⟩

/-- Whether an earlier request of the same strand to the same device is still under way (R375). -/
def State.earlierReq (s : State) (t : StrandId) (dev : BitVec 20) (n : Nat) : Bool :=
  (s.hub.remote.any fun q => q.owner == t && q.dev == dev && decide (q.num < n))
    || s.hub.xsts.any fun q => q.owner == t && q.dev == dev && decide (q.num < n)

/-- The homes of `z` bytes of a context's GLOBAL space on this device for an access; none when the home
refuses it (R374). -/
def State.homeBytes (s : State) (c : BitVec 12) (va z access : Nat) : Option (List Nat) :=
  (List.range z).mapM fun k =>
    match s.xlat c ((va + k) % 2 ^ 56) access with
    | .ok h _ => some h
    | _ => none

/-- A load or atomic of a strand on its own device, at the home: the old value, or none when refused. -/
def State.ownAccess (s : State) (q : RemoteReq) : Option (Nat × State) :=
  match q.acc with
  | .xld va _ f _ =>
    let z := (loadInfo f).1
    (s.homeBytes q.ctx va.toNat z 1).map fun hs =>
      (leNat (hs.map (s.mem.newest (.strand q.owner))), s.hubMark q.ctx va.toNat z false)
  | .xatom va _ op f x _ =>
    let z := (loadInfo f).1
    (s.homeBytes q.ctx va.toNat z 3).map fun hs =>
      (s.hubMark q.ctx va.toNat z true).atomic q.owner (hs.headD 0) z op.toNat f x.toNat 0
  | _ => none

/-- Whether a page that is being moved holds a request of a strand at its own device (R358). -/
def State.ownHeld (s : State) (q : RemoteReq) : Bool :=
  match q.acc with
  | .xld va _ f _ => s.hubHeld q.ctx va.toNat (loadInfo f).1 1
  | .xatom va _ _ f _ _ => s.hubHeld q.ctx va.toNat (loadInfo f).1 3
  | _ => false

/-- A remote request ended: it is no longer pending (R52). -/
def State.endRemote (s : State) (q : RemoteReq) : State :=
  let s := { s with hub := { s.hub with remote := s.hub.remote.filter (·.num != q.num) } }
  s.modStrand q.owner fun st => { st with pend := st.pend.filter (·.req != q.num) }

/-- A remote request replaced by a function of it. -/
def State.modRemote (s : State) (n : Nat) (f : RemoteReq → RemoteReq) : State :=
  { s with hub := { s.hub with remote := modFirst (·.num == n) f s.hub.remote } }

/-- Whether another request is of the same ATOMV, at another device (R178). -/
def RemoteReq.sameAccess (q p : RemoteReq) : Bool :=
  p.owner == q.owner && p.block == q.block && p.index == q.index && p.issue == q.issue

/-- A remote request that failed: the destination keeps its value, whatever the other requests of the same access
answer, and REMOTE is reported with the device number (R52, R374). -/
def State.failRemote (s : State) (q : RemoteReq) : State :=
  let s := s.endRemote q
  let fail (p : RemoteReq) : RemoteReq := if q.sameAccess p then { p with failed := true } else p
  let s := { s with hub := { s.hub with remote := s.hub.remote.map fail } }
  s.lateFault q.owner q.rid q.ctx
    { code := .remote, access := (match q.acc with | .xld .. => 1 | _ => 3)
      block := q.block.setWidth 56, index := q.index, aux := q.dev.toNat }

/-- A reply's words written to the destination of the request (R52, R176, R178, R375). -/
def State.replyRemote (s : State) (q : RemoteReq) (vals : List Word) : State :=
  let v : Nat := (vals.headD 0).toNat
  let s := s.endRemote q
  match q.acc with
  | .atom _ z _ f _ _ d _ =>
    s.updRegs q.owner fun r => r.wrS (BitVec.ofNat 6 d) (extendLoad f (v % 2 ^ (8 * z)))
  | .atomv lanes _ f d =>
    let got := q.got ++ (lanes.map (·.1)).zip (vals.map fun w => (w.setWidth 32 : Lane))
    match s.hub.remote.find? q.sameAccess with
    | some p => s.modRemote p.num fun p => { p with got := p.got ++ got }
    | none => if q.failed then s else s.updRegs q.owner fun r => r.wrLanes d f got
  | .xld _ _ f d | .xatom _ _ _ f _ d =>
    s.updRegs q.owner fun r => r.wrS (BitVec.ofNat 6 d) (extendLoad f (v % 2 ^ (8 * (loadInfo f).1)))
  | .launch .. => s

/-- REMOTE_REPLY: the peer's reply, or its failure, through a port that is ready (R369). A request to this device itself is answered by its own
memory, in the order of its strand's requests (R375). -/
def execRemoteReply (s : State) : Out :=
  match s.arg with
  | .reply n vals failed =>
    match s.hub.remote.find? (·.num == n) with
    | none => .next s
    | some q =>
      let own : Bool := q.dev == s.hub.boot.device &&
        (match q.acc with | .xld .. | .xatom .. => true | _ => false)
      if own then
        if s.earlierReq q.owner q.dev n || s.ownHeld q then .next s
        else
          match s.ownAccess q with
          | some (v, s) => .next (s.replyRemote q [BitVec.ofNat 64 v])
          | none => .next (s.failRemote q)
      else if !s.linked q.dev then .next s
      else if failed then .next (s.failRemote q)
      else .next (s.replyRemote q vals)
  | _ => .next s

/-- RTO of a region's queue in ticks (R323); a device-side launch's region has the default. -/
def State.rtoOf (s : State) (rid : Nat) : Nat :=
  let ms := (((s.region rid).bind (·.queue)).bind s.queue).elim 0 (·.rto)
  (if ms = 0 then 2000 else ms) * ticksPerMs

/-- A page's service that has been outstanding for RTO: the region faults REMOTE, at the node or the job that waits for
the page (R331, R332). -/
def State.failService (s : State) (r : Region) : State :=
  let i : IslandId := ⟨r.die, r.cluster 0, 0⟩
  let s := s.modRegion r.rid fun r => { r with service := none }
  match r.nodes.find? (·.stuck), s.eng.jobs.find? (fun j => j.rid == r.rid && j.state == .paused) with
  | some u, _ =>
    s.deliver r.rid r.ctx (engineSource i 6 u.el) { code := .remote, element := u.el, ea := BitVec.ofNat 64 u.stuckAt }
  | none, some j =>
    s.deliver r.rid r.ctx (engineSource i 6 0)
      { code := .remote, access := 5, block := j.block, index := j.req.index, ea := BitVec.ofNat 64 j.pausedAt }
  | none, none => s.deliver r.rid r.ctx (engineSource i 6 0) { code := .remote }

/-- REMOTE_TIMEOUT: an external request outstanding for RTO fails: a remote request, or the service of a page
(R331, R332). -/
def execRemoteTimeout (s : State) : Out :=
  match s.arg with
  | .service rid =>
    match s.region rid with
    | none => .next s
    | some r =>
      match r.service with
      | some t => if r.state.live && decide (t + s.rtoOf rid ≤ s.tick) then .next (s.failService r) else .next s
      | none => .next s
  | .num n =>
    match s.hub.remote.find? (·.num == n) with
    | none => .next s
    | some q => if q.since + s.rtoOf q.rid ≤ s.tick then .next (s.failRemote q) else .next s
  | _ => .next s

/-- A store that arrives at this device's memory as one published at .ssys (R375, R435); none when the home
refuses it. -/
def State.arriveStore (s : State) (by_ : Place) (c : BitVec 12) (va z : Nat) (v : Word) :
    Option State :=
  (s.homeBytes c va z 2).map fun hs =>
    (s.hubMark c va z true).put by_ 5 (hs.zip (leBytes z v.toNat))

/-- A remote store that failed: a record in the fault queue, and REMOTE in a live region (R375). -/
def State.failXst (s : State) (q : Xst) : State :=
  let f : FaultInfo :=
    { code := .remote, access := 2, block := q.block.setWidth 56, index := q.index, ea := q.va
      aux := q.dev.toNat, late := true }
  match s.region q.rid with
  | some r =>
    if r.state.live then s.lateFault q.owner q.rid q.ctx f
    else s.hubFault q.ctx (sourceOf q.owner) (faultRecord s.tick q.ctx (sourceOf q.owner) f)
  | none => s.hubFault q.ctx (sourceOf q.owner) (faultRecord s.tick q.ctx (sourceOf q.owner) f)

/-- XST_DELIVERY: a remote store delivered or failed, through a port that is ready (R369), or failed when RTO has passed
(R54). One to this device itself is applied to its memory, in
the order of its strand's requests (R375, R376). -/
def execXstDelivery (s : State) : Out :=
  match s.arg with
  | .delivery n ok =>
    match s.hub.xsts.find? (·.num == n) with
    | none => .next s
    | some q =>
      if q.dev == s.hub.boot.device && (s.earlierReq q.owner q.dev n || s.hubHeld q.ctx q.va.toNat q.z 2) then .next s
      else
        let t := { s with hub := { s.hub with xsts := s.hub.xsts.filter (·.num != n) } }
        if q.dev == s.hub.boot.device then
          match t.arriveStore (.strand q.owner) q.ctx q.va.toNat q.z q.data with
          | some t => .next t
          | none => .next (t.failXst q)
        else if q.since + s.rtoOf q.rid ≤ s.tick then .next (if ok && s.linked q.dev then t else t.failXst q)
        else if !s.linked q.dev then .next s
        else .next (if ok then t else t.failXst q)
  | _ => .next s

/-- REMOTE_HOME_ACCESS: another device's store, load or atomic at this device's memory, while a ready port joins the two
(R369); the reply leaves over
the fabric, empty for a store, and with no bytes for an access that the home refuses (R374, R375). -/
def execRemoteHomeAccess (s : State) : Out :=
  match s.arg with
  | .peer a =>
    let z := (loadInfo a.fmt).1
    let va := a.va.toNat
    let reply (s : State) (bs : List Byte) : Out := .next (s.send a.device (a.va.setWidth 64) bs)
    if !s.linked a.device then .next s
    else if va % z ≠ 0 then reply s []
    else if s.hubHeld a.ctx va z (match a.kind.toNat with | 0 => 2 | 1 => 1 | _ => 3) then .next s
    else match a.kind.toNat with
      | 0 =>
        (match s.arriveStore .outside a.ctx va z a.data with
         | some s => reply s [0]
         | none => reply s [])
      | 1 =>
        (match s.homeBytes a.ctx va z 1 with
         | some hs => reply (s.hubMark a.ctx va z false) (hs.map (s.mem.newest .outside))
         | none => reply s [])
      | _ =>
        (match s.homeBytes a.ctx va z 3 with
         | some hs =>
           let h := hs.headD 0
           let old := leNat (smRead 0 s.mem.cells h z)
           reply ((s.hubMark a.ctx va z true).put .outside 5
             (cellsAt h (leBytes z (atomNew a.op.toNat a.fmt z old a.data.toNat 0)))) (leBytes z old)
         | none => reply s [])
  | _ => .next s

end Sys2Proof.Machine
end

