-- ==== Sys2Proof/Machine/JobTools.lean ====
section
/-!
DEFINITION. What every job shares (R191, R192, R208, R209, R233, R317, R336, R363, R436, R437): the capture
of its record, its footprint and its place in the cluster's matcher, the bytes it reads and writes, its
completion with its barrier event and its record, and its failure.
-/
namespace Sys2Proof.Machine

/-! ### The fields a job takes from its command -/

/-- An argument of a command as a number. -/
def JobReq.arg (j : JobReq) (k : Nat) : Nat := ((j.args[k]?).getD 0).toNat

/-- A field of a job's record or descriptor. -/
def JobReq.fld (j : JobReq) (k n : Nat) : Nat := fieldN j.bytes k n

/-- The barrier a job names, where its kind holds the index (R437); `some` of an index above 31 is
malformed. -/
def JobReq.barIx (j : JobReq) : Option Nat :=
  let opt (v : Nat) : Option Nat := if v = 0xff then none else some v
  match j.kind with
  | .task => if bit (j.fld 4 1) 2 then none else some (j.fld 6 1)
  | .mzero => none
  | .tdstep | .tdleaf => opt (j.fld 57 1)
  | .skpred | .skfetch | .skchk | .skrpl => opt (j.fld 59 1)
  | .rtjob => opt (j.fld 14 1)
  | _ => j.bar

/-- Whether the index stands in a record or descriptor, and is checked at dispatch (R437). -/
def JobReq.barLate (j : JobReq) : Bool :=
  match j.kind with
  | .task | .tdstep | .tdleaf | .skpred | .skfetch | .skchk | .skrpl | .rtjob => true
  | _ => false

/-! ### Capture (R436) -/

/-- Bytes at homes as a load of a strand reads them after its block's stores and publication (R436). -/
def State.captureAt (s : State) (t : StrandId) (draw : Nat) (hs : List Nat) : List Byte :=
  (loadBytes s { Flight.idle with active := true, who := t, issue := draw } hs).1

/-- An address from a pointer: bits 63:56 are ignored (R160). -/
def ptr (v : Nat) : Nat := v % 2 ^ 56

/-- A pointer as a job goes on with it: its address, to which offsets are added, with bits 63:56 of the pointer above
bit 64, for the report of a failed translation (R355). -/
def wide (v : Nat) : Nat := v / 2 ^ 56 * 2 ^ 64 + ptr v

/-- The address that a pointer and offsets have made. -/
def lin (a : Nat) : Nat := a % 2 ^ 64

/-- The table entries that a routing record names (R377, R378). -/
def rtEntries (recd : List Byte) : List Nat := (List.range 5).map fun k => fieldN recd (4 + k) 1 % 64

/-- The home bytes of the shape-and-stride entries that a routing record names; the failed translation when
one does not translate. -/
def State.rtTable (s : State) (c : BitVec 12) (table : Nat) (recd : List Byte) :
    List Nat ⊕ Option (FaultCode × (BitVec 3 × BitVec 2) × Nat) :=
  let as := (rtEntries recd).flatMap fun e => (List.range 64).map fun b => wide table + 64 * e + b
  as.foldr (fun a acc =>
    match acc with
    | .inr f => .inr f
    | .inl hs =>
      match s.xlat c (lin a) 1 with
      | .ok h _ => .inl (h :: hs)
      | .held => .inr none
      | .bad code page => .inr (some (code, page, a))) (.inl [])

/-- A job's command with its record captured: `none` beside it, or the translation that failed (R436). -/
def State.capture (s : State) (t : StrandId) (c : BitVec 12) (r : Regs) (draw : Nat) (j : JobReq) :
    JobReq × Option (Option (FaultCode × (BitVec 3 × BitVec 2) × Nat)) :=
  match j.recAt with
  | none => (j, none)
  | some (h, n) =>
    let recd := s.captureAt t draw ((List.range n).map (h + ·))
    match j.kind with
    | .task =>
      let fl := fieldN recd 4 1
      let k := fieldN recd 16 1
      let tile := if bits fl 4 3 = 0 ∧ k < 8 then some (r.rdT (BitVec.ofNat 4 k)) else none
      ({ j with bytes := recd, ev := bit fl 1, tile := tile, args := [BitVec.ofNat 64 (fieldN recd 5 1 % 4)] },
        none)
    | .rtjob =>
      let table := r.rtsst.toNat
      let j := { j with args := [r.rtsst] }
      if table = 0 then ({ j with bytes := recd }, none)
      else
        match s.rtTable c table recd with
        | .inl hs => ({ j with bytes := recd ++ s.captureAt t draw hs }, none)
        | .inr f => ({ j with bytes := recd }, some f)
    | _ => ({ j with bytes := recd }, none)

/-! ### Footprints (R191) -/

/-- Storage width of an element format's code in bytes' bits. -/
def codeWidth (c : Nat) : Nat := fmtWidth ((Fmt.ofCode (BitVec.ofNat 5 c)).getD .raw)

/-- Whether an element format's code is one of the MX formats. -/
def codeMx (c : Nat) : Bool := decide (0x09 ≤ c ∧ c ≤ 0x0e)

/-- A cluster-store address of a home (R165). -/
def clusterOff (h : Nat) : Nat := (h - 2 ^ 61) % 2 ^ 24

/-- Whether a job's record or descriptor lies in data of its cluster's store (R165, R272, R384). -/
def State.recordIsData (s : State) (j : Job) : Bool :=
  j.req.recAt.all fun p => (s.clusterKind j.die j.cl (clusterOff p.1) p.2).isNone

/-- A byte range of a space. -/
def span (sp lo n : Nat) : Foot := .bytes (BitVec.ofNat 3 sp) lo (lo + n)

/-- A range of the B-store slices of the islands of a mask. -/
def sliceSpan (mask lo n : Nat) : List Foot :=
  ((List.finRange 4).filter fun i => bit mask i.val).map fun i => .slice i lo (lo + n)

/-- Slice bytes of B of a tile task: values, scales and masks (R227, R228, R231). -/
def taskSlices (recd : List Byte) : List (Nat × Nat) :=
  let k := fieldN recd 8 2
  let ws := codeWidth (fieldN recd 3 1)
  let nsp := fieldN recd 7 1
  let rows := if nsp = 0 then k else k / 12 * nsp
  (fieldN recd 10 2, ceilDiv (rows * ws) 8)
    :: ((if codeMx (fieldN recd 3 1) then [(fieldN recd 12 2, k / 32)] else [])
      ++ (if nsp = 0 then [] else [(fieldN recd 14 2, 2 * (k / 12))]))

/-- Bytes of one row of a tile task's A (R230). -/
def taskRowBytes (recd : List Byte) : Nat := ceilDiv (fieldN recd 8 2 * codeWidth (fieldN recd 2 1)) 8

/-- The whole range of a handle as captured (R212). -/
def handleSpan (hs : Vector Handle 16) (k : Nat) : Nat × Nat :=
  let h := hs[k % 16]'(Nat.mod_lt _ (by decide))
  (h.base.toNat, h.limit.toNat - h.base.toNat)

/-- Row strides of a skive layer (R261). -/
def skWstr (d : List Byte) : Nat := alignUp (ceilDiv (fieldN d 48 2 * codeWidth (fieldN d 51 1)) 8) 16

/-- The row stride of P and Q. -/
def skPstr (d : List Byte) : Nat := alignUp (ceilDiv (fieldN d 50 1 * codeWidth (fieldN d 52 1)) 8) 16

/-- The row stride of the shadow. -/
def skSstr (d : List Byte) : Nat := alignUp (17 * ceilDiv (fieldN d 48 2) 32 + 2) 16

/-- Neurons of a skive layer. -/
def skNeurons (d : List Byte) : Nat := fieldN d 56 2 + 1

/-- Bytes of a bitmap of the work area, and of its keys (R262). -/
def skNb (d : List Byte) : Nat := alignUp (ceilDiv (skNeurons d) 8) 64

/-- Bytes of the keys of the work area. -/
def skKb (d : List Byte) : Nat := alignUp (4 * skNeurons d) 64

/-- Bytes of a work area (R262). -/
def skArea (d : List Byte) : Nat := 576 + 3 * skNb d + skKb d + 4 * fieldN d 48 2 * fieldN d 58 1

/-- The address span of a shape-and-stride entry (R377): its lowest byte and the bytes to its highest. -/
def entrySpan (e : List Byte) : Nat × Nat :=
  let nd := min (fieldN e 9 1) 4
  let ext := (List.range nd).map fun i =>
    ((fieldN e (16 + 4 * i) 4 : Int) - 1) * toSigned 64 (fieldN e (32 + 8 * i) 8)
  let lo := ext.foldl (fun a x => a + min x 0) (0 : Int)
  let hi := ext.foldl (fun a x => a + max x 0) (0 : Int)
  ((ptr (fieldN e 0 8) + lo).toNat, (hi - lo).toNat + ceilDiv (codeWidth (fieldN e 8 1)) 8)

/-- The footprint of a job: what it reads and what it writes. `at_` is the cluster address of its record. -/
def footprint (t : Option StrandId) (at_ : Nat) (j : JobReq) : List Foot × List Foot :=
  let own (f : StrandId → List Foot) : List Foot := (t.map f).getD []
  let tileA : List Foot :=
    match j.kind with
    | .task =>
      (match j.tile, j.ring with
       | some _, _ => own fun t => [.tile t ⟨j.fld 16 1 % 8, Nat.mod_lt _ (by decide)⟩]
       | none, some (r, n) => [.slot r n]
       | none, none => [])
    | .tdstep | .tdleaf =>
      if j.tile.isSome then own fun t => [.tile t ⟨j.arg 4 % 8, Nat.mod_lt _ (by decide)⟩] else []
    | .skpred | .skfetch | .skchk | .skrpl =>
      own fun t => [.tile t ⟨j.arg 0 % 8, Nat.mod_lt _ (by decide)⟩]
    | _ => []
  let acc (k : Nat) : List Foot := own fun t => [.acc t ⟨k % 4, Nat.mod_lt _ (by decide)⟩]
  let path : List Foot := own fun t => [.path t ⟨j.arg 0 % 4, Nat.mod_lt _ (by decide)⟩]
  let recd (n : Nat) : List Foot := [span 1 at_ n]
  let d := j.bytes
  match j.kind with
  | .copyLinear => ([span (j.arg 4) (j.arg 1 % 2 ^ 56) (j.arg 2)], [span (j.arg 3) (j.arg 0 % 2 ^ 56) (j.arg 2)])
  | .copyTensor =>
    let (tb, tn) := handleSpan j.hs (j.arg 3)
    let (db, dn) := handleSpan j.hs (j.arg 4)
    let dense := span (j.arg 2) (j.arg 0 % 2 ^ 56) (db + dn - j.arg 0 % 2 ^ 56)
    let tens := span (j.arg 1) tb tn
    if j.arg 5 = 0 then (recd 96 ++ [tens], [dense]) else (recd 96 ++ [dense], [tens])
  | .copyRing =>
    let (tb, tn) := handleSpan j.hs (j.arg 3)
    (recd 96 ++ [span (j.arg 2) tb tn], match j.ring with | some (r, _) => [.ring r] | none => [])
  | .cpyb =>
    let ws := cpybWidth (j.arg 6) (j.arg 5)
    ([span (j.arg 1) (j.arg 0 % 2 ^ 56) (j.arg 4 * 16 * ws)],
      sliceSpan (bits (j.arg 3) 19 16) (bits (j.arg 3) 15 0) (ceilDiv (j.arg 4 * ws) 8))
  | .task =>
    let b := (taskSlices d).flatMap fun p => sliceSpan (bits (fieldN d 17 1) 3 0) p.1 p.2
    let a := if bits (fieldN d 4 1) 4 3 = 2 then
        (List.range 128).flatMap fun i =>
          span 1 (ptr (fieldN d 24 8) + i * fieldN d 20 4) (taskRowBytes d)
            :: (if codeMx (fieldN d 2 1) then [span 1 (ptr (fieldN d 32 8) + i * (fieldN d 8 2 / 32)) (fieldN d 8 2 / 32)]
                else [])
      else tileA
    (a ++ (if fieldN d 0 2 = 0x12 then [] else b), acc (j.arg 0))
  | .mzero => ([], acc (j.arg 0))
  | .mrdWrite =>
    ([], (List.range 128).map fun i => span 1 ((j.arg 0 + i * j.arg 1) % 2 ^ 56) (j.arg 2))
  | .tdstep =>
    let w := fieldN d 48 2
    let ws := codeWidth (fieldN d 52 1)
    (recd 64 ++ tileA
      ++ (if j.tile.isSome then [] else
            (List.range 128).map fun i => span 1 (ptr (fieldN d 32 8) + i * fieldN d 24 4)
              (ceilDiv (w * codeWidth (j.arg 2)) 8))
      ++ [span (bits (fieldN d 56 1) 2 0) (ptr (fieldN d 0 8)) ((2 ^ fieldN d 50 1 - 1) * fieldN d 16 4)] ++ path,
      path ++ sliceSpan (j.arg 1) (fieldN d 58 2) (ceilDiv (w * ws) 8))
  | .tdleaf =>
    let w := fieldN d 48 2
    let out : List Foot :=
      if j.arg 5 < 8 then own fun t => [.tile t ⟨j.arg 5 % 8, Nat.mod_lt _ (by decide)⟩]
      else (List.range 128).map fun i => span 1 (ptr (fieldN d 40 8) + i * fieldN d 28 4)
        (ceilDiv (w * codeWidth (fieldN d 54 1)) 8)
    (recd 64 ++ tileA
      ++ (if j.tile.isSome then [] else
            (List.range 128).map fun i => span 1 (ptr (fieldN d 32 8) + i * fieldN d 24 4)
              (ceilDiv (w * codeWidth (j.arg 2)) 8))
      ++ [span (bits (fieldN d 56 1) 5 3) (ptr (fieldN d 8 8)) (2 ^ fieldN d 50 1 * fieldN d 20 4)] ++ path,
      out)
  | .skpred | .skfetch | .skchk | .skrpl =>
    let wsp := bits (fieldN d 55 1) 2 0
    let psp := bits (fieldN d 55 1) 5 3
    let n := skNeurons d
    let w12 := [span wsp (ptr (fieldN d 0 8)) (n * skWstr d), span wsp (ptr (fieldN d 8 8)) (n * skWstr d)]
    let sh := [span wsp (ptr (fieldN d 32 8)) (n * skSstr d)]
    let pq := [span psp (ptr (fieldN d 16 8)) (fieldN d 48 2 * skPstr d), span psp (ptr (fieldN d 24 8)) (n * skPstr d)]
    let ws := codeWidth (fieldN d 51 1)
    let scr := sliceSpan (j.arg 1) (fieldN d 60 2) (2 * ceilDiv (fieldN d 48 2 * ws) 8)
    let area := [span 1 (ptr (fieldN d 40 8)) (skArea d)]
    let rd := recd 64 ++ tileA
    match j.kind with
    | .skpred => (rd ++ pq, area)
    | .skfetch => (rd ++ w12, area ++ scr)
    | .skchk => (rd ++ sh, area)
    | _ => (rd ++ sh ++ w12, area ++ scr)
  | .rtjob =>
    let e (k : Nat) : List Byte := (d.drop (64 + 64 * k)).take 64
    let f (k : Nat) : Foot := let (lo, n) := entrySpan (e k); span (fieldN (e k) 10 1) lo n
    (recd 64 ++ (rtEntries d).map (fun k => span 0 (ptr (j.arg 0) + 64 * k) 64) ++ [f 0], [f 1, f 2, f 3, f 4])
  | .capsGet => ([], [span 0 (j.arg 0 % 2 ^ 56) (j.arg 1)])

/-- Whether two regions meet: byte ranges of one space, rounded out to 64-byte granules (R191). DEDUCED: a slot that
a task takes as A (R231) meets no copy into its ring, which writes free slots alone (R196). -/
def Foot.meets (a b : Foot) : Bool :=
  match a, b with
  | .bytes s lo hi, .bytes t l h =>
    s == t && decide (lo < hi) && decide (l < h)
      && decide (lo / 64 * 64 < alignUp h 64) && decide (l / 64 * 64 < alignUp hi 64)
  | .slice i lo hi, .slice k l h => i == k && decide (lo < h) && decide (l < hi)
  | a, b => a == b

/-- Whether a later job gets an edge from an earlier one: their regions meet where either writes. GLOBAL
addresses of two contexts do not meet (R191, R192). -/
def hasEdge (same : Bool) (r1 w1 r2 w2 : List Foot) : Bool :=
  let ok (f : Foot) : Bool := same || (match f with | .bytes s _ _ => s != 0 | _ => true)
  let x (l m : List Foot) : Bool := (l.filter ok).any fun a => m.any a.meets
  x w1 (r2 ++ w2) || x r1 w2

/-! ### Submission -/

/-- A job taken by its cluster's matcher, with edges from the incomplete jobs it overlaps (R192) and the
strand's publications that come before it (R187). -/
def State.enqueue (s : State) (owner : Option StrandId) (node : Option NodeId) (rid : Nat) (c : BitVec 12)
    (die : Fin 4) (cl rc : Fin 16) (block : Addr) (j : JobReq) : State :=
  let at_ := match j.recAt with | some (h, _) => clusterOff h | none => 0
  let (rs, ws) := footprint owner at_ j
  let before := s.eng.jobs.filter fun q =>
    q.die == die && q.cl == cl && hasEdge (q.ctx == c) q.reads q.writes rs ws
  let job : Job := {
    num := s.eng.nextJob, owner := owner, node := node, rid := rid, ctx := c, die := die, cl := cl, rc := rc
    seqno := j.seqno, block := block, req := j, reads := rs, writes := ws, preds := before.map (·.num)
    pubs := (owner.map s.pubsOf).getD [], state := .waiting, since := 0, engine := 0, island := 0, slot := 0
    nextK := 0, left := 0, sub := s.mem.nextSeq }
  { s with eng := { s.eng with jobs := s.eng.jobs ++ [job], nextJob := s.eng.nextJob + 1 } }

/-! ### Fault records that do not freeze (R362, R363) -/

/-- A MEM_FAULT record (R391). -/
def State.memFault (s : State) (i : IslandId) (c : BitVec 12) (code : FaultCode) (va access el page : Nat) :
    State :=
  s.record (unitId i 1 0) (some c) 3 code.num 8
    (leBytes 7 va ++ leBytes 1 access ++ leBytes 4 el ++ leBytes 1 page)

/-- The island whose Gaffer core records a job's events. -/
def Job.isl (j : Job) : IslandId := match j.owner with | some t => t.seq.isl | none => ⟨j.die, j.cl, 0⟩

/-- The unit that runs a job (R217): copy engines by number, matrix islands, which run tasks, descent steps and leaves
(R251), the skive unit, the routing engine. Its records go to the Gaffer core of the submitting island (R391). -/
def Job.source (j : Job) : Source :=
  let kind : Nat × Nat :=
    match j.req.kind with
    | .copyLinear | .copyTensor | .copyRing | .cpyb => (0, j.engine)
    | .task | .mzero | .mrdWrite | .tdstep | .tdleaf => (1, j.island.val)
    | .skpred | .skfetch | .skchk | .skrpl => (2, 0)
    | .rtjob => (3, 0)
    | .capsGet => (6, 0)
  let isl : IslandId := ⟨j.die, j.cl, if kind.1 = 1 then j.island else 0⟩
  { engineSource isl kind.1 kind.2 with unit := unitId j.isl 1 0 }

/-- A job's translation that failed: the job pauses there, and one record is written for the pause; its
region is not FROZEN (R363). `va` is the address as `wide` carries it, with bits 63:56 of its pointer, which the
record gives (R355). -/
def State.pauseJob (s : State) (j : Job) (code : FaultCode) (page : BitVec 3 × BitVec 2) (va : Nat) : State :=
  if j.state = .paused ∧ j.pausedAt = lin va then s
  else
    let s := s.erred j.die j.ctx code (lin va)
    let f : FaultInfo := { code := code, access := 5, block := j.block, index := j.req.index
                           ea := BitVec.ofNat 64 (va / 2 ^ 64 * 2 ^ 56 + lin va), pageAt := some page }
    let f := match j.node with | some n => { f with block := 0, index := 0xff, element := n.el.toNat } | none => f
    let s := s.queueFault j.rid j.source (faultRecord s.tick j.ctx j.source f)
    let s := s.memFault j.isl j.ctx code (lin va) 5 f.element page.1.toNat
    s.modJob j.num fun j => { j with state := .paused, pausedAt := lin va }

/-! ### Reading and writing as a job -/

/-- What a job's address comes to. -/
inductive JobXlat
  | ok (hs : List Nat) (es : List (Nat × Nat))
  | held
  | bad (code : FaultCode) (page : BitVec 3 × BitVec 2) (va : Nat)
  /-- a fenced bank group of the weight store (R419), or another context's window (R371): no page's fault -/
  | fail (code : FaultCode)
  deriving DecidableEq, Repr, Inhabited

/-- The homes of listed GLOBAL addresses for a job. -/
def State.jobGlobal (s : State) (c : BitVec 12) (access : Nat) : List Nat → JobXlat
  | [] => .ok [] []
  | a :: as =>
    match s.xlat c (lin a) access with
    | .held => .held
    | .bad code page =>
      if code = .protect || (code = .poison && page.1 != 5 && !s.meetsError c (lin a)) then .fail code
      else .bad code page a
    | .ok h e =>
      match s.jobGlobal c access as with
      | .ok hs es => .ok (h :: hs) (if es.any (·.1 == e) then es else (e, lin a) :: es)
      | o => o

/-- The homes of listed addresses of a space for a job, as `wide` carries them: a fenced bank
group of the weight store is poisoned (R419). -/
def State.jobHomes (s : State) (die : Fin 4) (cl : Fin 16) (c : BitVec 12) (sp access : Nat) (as : List Nat) :
    JobXlat :=
  match sp with
  | 0 => s.jobGlobal c access as
  | 1 => .ok (as.map (homeCluster die cl)) []
  | _ =>
    let hs := as.map (homeWeight die)
    if hs.any fun h => (s.die die).fenced.any fun g => g.val == (weightBank h).2 then .fail .poison else .ok hs []

/-- A run of addresses. -/
def addrs (a n : Nat) : List Nat := (List.range n).map (a + ·)

/-- Whether a handle as captured passes a range for a job (R162), its space and end included. -/
def handleOk (hs : Vector Handle 16) (k sp : Nat) (perm : Perm) (a n : Nat) : Bool :=
  let a := lin a
  (hs[k % 16]'(Nat.mod_lt _ (by decide))).passes (BitVec.ofNat 3 sp) perm a n
    && decide (a + n ≤ (match sp with | 0 => 2 ^ 56 | 1 => 2 ^ 24 | 3 => 0x300000000 | _ => 0))

/-- The engine that a job runs on, as a reader and a publisher (R184). -/
def Job.place (j : Job) : Place := if j.req.kind = .rtjob then .die j.die else .cluster j.die j.cl

/-- Whether a unit that began before store `since` is certain to see a store: its publication had completed then at
the unit's scope, or a later publication of the same strand that reaches the unit had (R185 rule 2, R192). `near` are
stores that reach it whatever their scope. -/
def Memory.certain (m : Memory) (scope : BitVec 4) (pl : Place) (since : Nat) (near : Ver → Bool) (v : Ver) : Bool :=
  let sure (v : Ver) : Bool :=
    m.done v.pub && decide (v.seq < since) && (near v || reaches scope pl v.by_)
  sure v || m.hist.any fun w =>
    w.by_ == v.by_ && decide (v.pub < w.pub) && reaches w.scope w.by_ pl && sure w

/-- The store of one byte that a job reads: what was published at its scope before its dispatch and its
predecessors' writes, which the engines of its cluster made, are certain; whether anything newer is seen is free,
byte by byte (R192). -/
def State.jobByte (s : State) (j : Job) (a : Nat) : Byte :=
  let near (v : Ver) : Bool := v.by_ == .cluster j.die j.cl || v.by_ == j.place
  let sure (v : Ver) : Bool :=
    s.mem.certain j.req.scope j.place j.since near v || Config.pick s.free v.seq % 2 == 0
  match (s.mem.hist.filter fun v => v.addr == a && (near v || reaches v.scope v.by_ j.place)).filter sure with
  | v :: _ => v.val
  | [] =>
    if isFabHome a then Config.outsideByte (Config.pick s.free a) else s.mem.first a

/-- Bytes at homes as a job reads them. -/
def State.jobBytes (s : State) (j : Job) (hs : List Nat) : List Byte := hs.map (s.jobByte j)

/-- Bytes a job writes, published at its scope at its completion (R192, R208). -/
def State.jobPut (s : State) (j : Job) (l : List Host.Cell) : State := s.put j.place j.req.scope l

/-- The marks of several translations. -/
def State.markAll (s : State) (die : Fin 4) (c : BitVec 12) (es : List (Nat × Nat)) (dirty : Bool) : State :=
  es.foldl (fun s e => s.markPage die c e.1 e.2 dirty) s

/-! ### Completion and failure (R209, R232, R233) -/

/-- A record put into the event queue of an island, into a reserved entry (R317). -/
def State.postEvent (s : State) (i : IslandId) (recd : List Byte) (reserved : Bool) : State :=
  let q := s.events i
  s.setEvents { q with
    recs := q.recs ++ [(recd, false)], reserved := if reserved then q.reserved - 1 else q.reserved }

/-- A barrier event of an engine put on the barrier network (R219). -/
def State.sendArrive (s : State) (src : Source) (b : BarId) (n : Nat) : State :=
  let m : BarMsg := ⟨s.chan.nextMsg, b, .arrive n, none, src, 0, 0, []⟩
  { s with chan := { s.chan with msgs := s.chan.msgs ++ [m], nextMsg := s.chan.nextMsg + 1 } }

/-- The barrier that a job names, as an object of its region's cluster. -/
def Job.barId (j : Job) : Option BarId :=
  j.req.barIx.map fun b => ⟨j.rid, j.rc, ⟨b % 32, Nat.mod_lt _ (by decide)⟩⟩

/-- Whether a barrier index that stands in a job's record names a barrier of its region (R437). -/
def State.barOk (s : State) (j : Job) : Bool :=
  !j.req.barLate ||
    match j.req.barIx with
    | none => true
    | some b => decide (b < 32) && s.chan.bars.any fun q => some q.id == j.barId && q.ctx == j.ctx

/-- The 32-byte record of a job (R209): kind, sequence number, status, engine, barrier, clipping, bytes 8 to
15, bytes 16 to 23, and the tick. -/
def jobRecord (kind seq status engine bar clip b8 b16 tick : Nat) : List Byte :=
  leBytes 2 kind ++ leBytes 2 seq ++ leBytes 1 status ++ leBytes 1 engine ++ leBytes 1 bar
    ++ leBytes 1 clip ++ leBytes 8 b8 ++ leBytes 8 b16 ++ leBytes 6 tick ++ leBytes 2 0

/-- A slot that a job holds given back. -/
def State.dropHeld (s : State) (n : Nat) : State := s.freeSlots (· == .held n)

/-- Slots bound to a strand that has ended are freed once no job of the strand names them (R229). -/
def State.freeEnded (s : State) (t : StrandId) : State :=
  match s.strand t with
  | some st =>
    if st.ended then
      s.freeSlots fun a => match a with
        | .bound u c => u == t && !s.eng.jobs.any fun j => j.owner == some t && j.req.accName == some c
        | _ => false
    else s
  | none => s

/-- A job gone from the matcher: progress, and what it held given back. -/
def State.endJob (s : State) (j : Job) : State :=
  let s := (s.dropJob j.num).dropHeld j.num
  let s := match j.owner with | some t => s.freeEnded t | none => s
  s.progress j.rid

/-- A job completed: its arrival with its bytes, and its record when EV = 1 (R209, R232). -/
def State.completeJob (s : State) (j : Job) (credit : Nat) (recd : List Byte) : State :=
  let s := match j.barId with | some b => s.sendArrive j.source b credit | none => s
  let s := match j.owner with
    | some t => if j.req.ev then s.postEvent t.seq.isl recd true else s
    | none => s
  s.endJob j

/-- A job that fails: nothing written, no barrier event, its record with the status, and the fault reported
against its strand's next block boundary, or for a node with its element address (R209, R233). `held` says
that its event entry was reserved. -/
def State.failJob (s : State) (j : Job) (code : FaultCode) (held : Bool) (recd : List Byte) : State :=
  let s := match j.owner with
    | some t => if j.req.ev then s.postEvent t.seq.isl recd held else s
    | none => s
  let s := s.endJob j
  match j.owner with
  | some t =>
    s.lateFault t j.rid j.ctx
      { code := code, access := 5, block := j.block, index := j.req.index }
  | none =>
    s.deliver j.rid j.ctx j.source
      { code := code, access := 5, element := (j.node.map (·.el.toNat)).getD 0 }

/-- The kind code of a job's record (R209, R232, R245, R252, R254, R272, R384). -/
def JobReq.code (j : JobReq) : Nat :=
  match j.kind with
  | .copyLinear => 1
  | .copyTensor => 2
  | .copyRing => 3
  | .cpyb => 4
  | .task | .mzero => j.fld 0 2
  | .tdstep => 0x20
  | .tdleaf => 0x21
  | .skpred => 0x30
  | .skfetch => 0x31
  | .skchk => 0x32
  | .skrpl => 0x33
  | .rtjob => 0x50
  | .mrdWrite | .capsGet => 0

/-- Byte 6 of a job's record. -/
def JobReq.barByte (j : JobReq) : Nat := j.barIx.getD 0xff

/-- Slots that a ring-fed copy has filled, of which nothing has been credited (R213). -/
def Job.filled (j : Job) : Nat := if j.req.kind = .copyRing then j.nextK else 0

/-- A job failed at dispatch or in execution, with its own kind of record (R209, R233). -/
def State.failWith (s : State) (j : Job) (code : FaultCode) (held : Bool) : State :=
  s.failJob j code held
    (jobRecord j.req.code j.seqno.toNat code.num j.engine j.req.barByte (if j.clipped = 0 then 0 else 1) 0
      (j.clipped % 2 ^ 32 + j.filled % 2 ^ 32 * 2 ^ 32) s.tick)

/-! ### Dispatch (R192, R317) -/

/-- Whether a region's jobs may run: its region has not been saved, retired or killed. -/
def State.jobsRun (s : State) (rid : Nat) : Bool :=
  match s.region rid with
  | some r => r.state.live || r.state == .frozen
  | none => false

/-- Whether a routing job has yet to capture its table entries, whose page failed its translation (R436). -/
def Job.uncaptured (j : Job) : Bool :=
  j.req.kind == .rtjob && j.req.arg 0 != 0 && j.req.bytes.length == 64

/-- Whether every job and publication that comes before a job has completed, and its event entry is free
(R187, R192, R317); an earlier job of its cluster whose footprint is still to be captured holds it too (R384, R436). -/
def State.dispatchable (s : State) (j : Job) : Bool :=
  j.state == .waiting && s.jobsRun j.rid
    && !(s.eng.jobs.any fun q => q.die == j.die && q.cl == j.cl && decide (q.num < j.num) && q.uncaptured)
    && (j.preds.all fun n => !s.eng.jobs.any (·.num == n)) && s.pubsDone j.pubs
    && (!j.req.ev || j.owner.elim true fun t => decide (0 < (s.events t.seq.isl).room))

/-- The routing jobs that have come to their die's engine in a tick, once its predecessors are complete (R384). -/
def State.arrivals (s : State) : State :=
  let come (j : Job) : Job :=
    if j.req.kind == .rtjob && j.arrived.isNone && s.dispatchable j then { j with arrived := some s.tick } else j
  { s with eng := { s.eng with jobs := s.eng.jobs.map come } }

/-- Whether a job goes on: a paused one does so once its page is RESIDENT or PINNED again (R363). -/
def Job.goes (j : Job) : Bool := j.state == .running

/-- Whether a job has been dispatched and is not complete. -/
def Job.underWay (j : Job) : Bool := j.state == .running || (j.state == .paused && j.since != 0)

/-- The number of the tile register that a job reads as A. -/
def JobReq.tileNum (j : JobReq) : Nat :=
  match j.kind with
  | .task => j.fld 16 1
  | .tdstep | .tdleaf => j.arg 4
  | _ => j.arg 0

/-- A job with its tile A as the register stands at dispatch, with what its predecessors wrote there (R192); no block
writes it before the job has read it (R234). A node's token stays as it is. -/
def State.readTile (s : State) (j : Job) : Job :=
  match j.owner.bind s.strand, j.req.tile with
  | some st, some _ => { j with req := { j.req with tile := some (st.regs.rdT (BitVec.ofNat 4 j.req.tileNum)) } }
  | _, _ => j

/-- A job that passes its checks begins: it runs on an engine, and its event entry is reserved (R317). -/
def State.startJob (s : State) (j : Job) (f : Job → Job) : State :=
  let s := match j.owner with
    | some t =>
      if j.req.ev then
        let q := s.events t.seq.isl
        s.setEvents { q with reserved := q.reserved + 1 }
      else s
    | none => s
  let n := s.mem.nextSeq
  s.modJob j.num fun j => f { j with state := .running, since := n }

/-- One byte of a table entry as a load of the submitting strand reads it, of what stood in the order of its home at the
submission and of what others have stored since; which of them is free (R185, R436). -/
def State.captureLate (s : State) (j : Job) (a : Nat) : Byte :=
  let pl : Place := match j.owner with | some t => .strand t | none => j.place
  let fl := floorOf ((j.owner.bind s.strand).elim [] (·.floors)) a
  let mine (v : Ver) : Bool := v.by_ == pl && decide (j.sub ≤ v.seq) && !j.pubs.contains v.pub
  let l := (s.mem.visible pl a).filter fun v => !mine v
  let new := l.filter fun v => decide (fl ≤ v.seq)
  let l := if new.isEmpty then l.take 1 else new
  if isFabHome a then Config.outsideByte (Config.pick s.free a)
  else ((l[Config.pick s.free a % max 1 l.length]?).map (·.val)).getD (s.mem.first a)

/-- A job with new footprints among the others of its matcher: its own edges and those to it of later jobs that still
wait (R192). -/
def State.reEdge (s : State) (j : Job) : State :=
  let near (q : Job) : Bool := q.die == j.die && q.cl == j.cl
  let meets (p q : Job) : Bool := hasEdge (p.ctx == q.ctx) p.reads p.writes q.reads q.writes
  let before := s.eng.jobs.filter fun q => near q && decide (q.num < j.num) && meets q j
  let set (q : Job) : Job :=
    if q.num = j.num then { j with preds := before.map (·.num) }
    else if near q && decide (j.num < q.num) && q.state == .waiting && meets j q then { q with preds := j.num :: q.preds }
    else q
  { s with eng := { s.eng with jobs := s.eng.jobs.map set } }

/-- A routing job's capture made good while it waits, when its table's page had failed (R436): the table is read as a
load of the submitting strand at its submission, and the job takes its place among the edges. -/
def State.recapture (s : State) (j : Job) : State :=
  if !j.uncaptured || j.state != .waiting then s
  else
    match s.rtTable j.ctx (j.req.arg 0) j.req.bytes with
    | .inl hs =>
      let req := { j.req with bytes := j.req.bytes ++ hs.map (s.captureLate j) }
      let (rs, ws) := footprint j.owner ((j.req.recAt.map fun p => clusterOff p.1).getD 0) req
      { s.reEdge { j with req := req, reads := rs, writes := ws } with free := s.free + 1 }
    | .inr none => s
    | .inr (some (code, page, va)) => s.pauseJob j code page va

/-- The scope of a job that a node runs; its commands carry .scluster, a routing job .sdie (R384). -/
def nodeScope (k : JobKind) : BitVec 4 := if k = .rtjob then 3 else 2

end Sys2Proof.Machine
end

