-- ==== Sys2Proof/Machine/VecFloat.lean ====
section
/-!
DEFINITION. Group 2: floating-point arithmetic, comparison, approximation, conversion, dot products and
reductions of vectors (R128-R146).
-/
namespace Sys2Proof.Machine

/-- Whether FMODE.FTZ is set, as the block has left it (R91, R92). -/
def Flight.ftz (x : Flight) : Bool := x.r.fmode.getLsbD 0

/-- Whether FMODE.SR is set (R91). -/
def Flight.sr (x : Flight) : Bool := x.r.fmode.getLsbD 1

/-- The rounding mode of a group 2 instruction (R132). -/
def vmode (i : VInsn) : Rnd := Rnd.ofField i.rnd.toNat

/-- An element-wise instruction over sources of one format: `f` takes FTZ and the elements' bits of the
sources (R129, R131). Flags raised by converting a broadcast literal or immediate count too (R70, R71). -/
def vecMap (i : VInsn) (srcs : List Src) (sf df : Fmt) (f : Bool → List Nat → Res) (x : Flight) : Flight :=
  x.laneAct i.g fun m x =>
    let (ts, x) := fireAll [i.a, i.b, i.c] [] x
    let step := fun (p : List (List Nat) × BitVec 5 × Flight) (src : Src) =>
      let (es, fl, x) := p.2.2.srcElems i ts sf src
      (p.1 ++ [es], p.2.1 ||| fl, x)
    let (cols, fl, x) := srcs.foldl step ([], 0, x)
    let n := x.nlanes * (32 / fmtWidth sf)
    let rs := (List.range n).map fun k => f x.ftz (cols.map fun q => (q[k]?).getD 0)
    x.elementwise i m df rs fl

/-- The k-th operand's value under FTZ (R95). -/
def opVal (ftz : Bool) (f : Fmt) (es : List Nat) (k : Nat) : Num :=
  flushIn ftz f (elemVal f ((es[k]?).getD 0))

/-- A result with further flags. -/
def Res.also (r : Res) (f : BitVec 5) : Res := { r with flags := r.flags ||| f }

/-- An arithmetic result from an exact value and the flags of forming it (R94-R96). -/
def arithWith (ftz : Bool) (f : Fmt) (p : Num × BitVec 5) (mode : Rnd) : Res :=
  (arith ftz f p.1 mode).also p.2

/-- VADD (R133). -/
def execVadd (i : VInsn) (s : State) : Out :=
  act s (vecMap i [i.a, i.b] i.fmt i.fmt (fun z es =>
    arithWith z i.fmt (addNum (opVal z i.fmt es 0) (opVal z i.fmt es 1) (vmode i)) (vmode i)) s.x)

/-- VSUB (R133). -/
def execVsub (i : VInsn) (s : State) : Out :=
  act s (vecMap i [i.a, i.b] i.fmt i.fmt (fun z es =>
    arithWith z i.fmt (addNum (opVal z i.fmt es 0) (opVal z i.fmt es 1).negate (vmode i)) (vmode i)) s.x)

/-- VMUL (R133). -/
def execVmul (i : VInsn) (s : State) : Out :=
  act s (vecMap i [i.a, i.b] i.fmt i.fmt (fun z es =>
    arithWith z i.fmt (mulNum (opVal z i.fmt es 0) (opVal z i.fmt es 1)) (vmode i)) s.x)

/-- A product plus an addend, exact, with the flags of both (R133). -/
def mulAdd (a b c : Num) (mode : Rnd) : Num × BitVec 5 :=
  let (p, f) := mulNum a b
  let (t, g) := addNum p c mode
  (t, f ||| g ||| sigFlag [a, b, c])

/-- VFMA: a x b + c, rounded once (R133). -/
def execVfma (i : VInsn) (s : State) : Out :=
  act s (vecMap i [i.a, i.b, i.c] i.fmt i.fmt (fun z es =>
    arithWith z i.fmt (mulAdd (opVal z i.fmt es 0) (opVal z i.fmt es 1) (opVal z i.fmt es 2) (vmode i))
      (vmode i)) s.x)

/-- VFMS: a x b - c, rounded once (R133). -/
def execVfms (i : VInsn) (s : State) : Out :=
  act s (vecMap i [i.a, i.b, i.c] i.fmt i.fmt (fun z es =>
    arithWith z i.fmt
      (mulAdd (opVal z i.fmt es 0) (opVal z i.fmt es 1) (opVal z i.fmt es 2).negate (vmode i))
      (vmode i)) s.x)

/-- VFNMA: c - a x b, rounded once (R133). -/
def execVfnma (i : VInsn) (s : State) : Out :=
  act s (vecMap i [i.a, i.b, i.c] i.fmt i.fmt (fun z es =>
    arithWith z i.fmt
      (mulAdd (opVal z i.fmt es 0).negate (opVal z i.fmt es 1) (opVal z i.fmt es 2) (vmode i))
      (vmode i)) s.x)

/-- VDIV (R133). -/
def execVdiv (i : VInsn) (s : State) : Out :=
  act s (vecMap i [i.a, i.b] i.fmt i.fmt (fun z es =>
    arithWith z i.fmt (divNum (opVal z i.fmt es 0) (opVal z i.fmt es 1)) (vmode i)) s.x)

/-- The square root in a format (R133). -/
def sqrtRes (ftz : Bool) (f : Fmt) (a : Num) (mode : Rnd) : Res :=
  match floatInfo f with
  | none => ⟨0, 0, false⟩
  | some i =>
    match a with
    | .nan _ => toFloat i a mode false
    | .inf neg => if neg then (canonNan i).also fNV else toFloat i a mode false
    | .fin neg n d =>
      if n = 0 then ⟨signBit i neg, 0, false⟩
      else if neg then (canonNan i).also fNV
      else flushOut ftz f (roundMag i false ⟨n, d, true⟩ mode false)

/-- VSQRT (R133). -/
def execVsqrt (i : VInsn) (s : State) : Out :=
  act s (vecMap i [i.a] i.fmt i.fmt (fun z es => sqrtRes z i.fmt (opVal z i.fmt es 0) (vmode i)) s.x)

/-- VSCALE: a x 2^b, b from an INT32-tagged register per lane or an immediate or literal, clamped to
-1024..1024 (R133). -/
def execVscale (i : VInsn) (s : State) : Out :=
  act s (s.x.laneAct i.g fun m x =>
    let (ts, x) := fireAll [i.a, i.b, i.c] [] x
    let (es, fl, x) := x.srcElems i ts i.fmt i.a
    let (ks, _, x) := x.srcElems i ts .int32 i.b
    let n := 32 / fmtWidth i.fmt
    let rs := es.zipIdx.map fun p =>
      let k := clampI (-1024) 1024 (toSigned 32 ((ks[p.2 / n]?).getD 0))
      arith x.ftz i.fmt (scaleNum (flushIn x.ftz i.fmt (elemVal i.fmt p.1)) k) (vmode i)
    x.elementwise i m i.fmt rs fl)

/-- Rounding to an integral value of a format (R133). -/
def rintRes (ftz : Bool) (f : Fmt) (b : Nat) (a : Num) (mode : Rnd) (ex : Bool) : Res :=
  match a, floatInfo f with
  | .fin neg n d, some i =>
    if n = 0 then (flushOut ftz f ⟨signBit i neg, 0, false⟩)
    else if (i.mbits : Int) ≤ log2Q n d then ⟨b, 0, false⟩
    else
      let (k, nx) := roundAt neg ⟨n, d, false⟩ 0 mode
      let r := roundMag i neg ⟨k, 1, false⟩ .rne false
      ⟨r.bits, if nx && ex then fNX else 0, false⟩
  | .nan _, some i => toFloat i a mode false
  | _, _ => ⟨b, 0, false⟩

/-- VRINT; `.x` reports inexact (R133). -/
def execVrint (i : VInsn) (s : State) : Out :=
  act s (vecMap i [i.a] i.fmt i.fmt (fun z es =>
    rintRes z i.fmt ((es[0]?).getD 0) (opVal z i.fmt es 0) (vmode i) i.bit5) s.x)

/-- The sign bit's weight in an element. -/
def signWeight (f : Fmt) : Nat := 2 ^ (fmtWidth f - 1)

/-- VABS: the sign bit alone (R133). -/
def execVabs (i : VInsn) (s : State) : Out :=
  act s (vecMap i [i.a] i.fmt i.fmt (fun _ es =>
    ⟨((es[0]?).getD 0) % signWeight i.fmt, 0, false⟩) s.x)

/-- VNEG (R133). -/
def execVneg (i : VInsn) (s : State) : Out :=
  act s (vecMap i [i.a] i.fmt i.fmt (fun _ es =>
    ⟨((es[0]?).getD 0) ^^^ signWeight i.fmt, 0, false⟩) s.x)

/-- VCPYS: the bits of a with the sign bit of b (R133). -/
def execVcpys (i : VInsn) (s : State) : Out :=
  act s (vecMap i [i.a, i.b] i.fmt i.fmt (fun _ es =>
    let w := signWeight i.fmt
    ⟨((es[0]?).getD 0) % w + ((es[1]?).getD 0) / w * w, 0, false⟩) s.x)

/-- The lesser (or greater) of two values by bits, -0 below +0 (R134). -/
def minMaxRes (f : Fmt) (greater nanWins : Bool) (a b : Nat) (ftz : Bool) : Res :=
  let va := flushIn ftz f (elemVal f a)
  let vb := flushIn ftz f (elemVal f b)
  let nan := (match floatInfo f with | some i => place f (canonNan i) | none => ⟨0, 0, false⟩)
  let fl := sigFlag [va, vb]
  let bitsOf := fun (v : Num) (b : Nat) =>
    match v, floatInfo f with
    | .fin neg 0 _, some i => signBit i neg
    | _, _ => b
  if va.isNan && vb.isNan then nan.also fl
  else if va.isNan then (if nanWins then nan else ⟨bitsOf vb b, 0, false⟩).also fl
  else if vb.isNan then (if nanWins then nan else ⟨bitsOf va a, 0, false⟩).also fl
  else
    let o := va.cmp vb
    let aLess := decide (o < 0) || (decide (o = 0) && va.isNeg && !vb.isNeg)
    let pickA := if greater then !aLess else aLess || (decide (o = 0) && va.isNeg == vb.isNeg)
    ⟨if pickA then bitsOf va a else bitsOf vb b, fl, false⟩

/-- VMIN (R134). -/
def execVmin (i : VInsn) (s : State) : Out :=
  act s (vecMap i [i.a, i.b] i.fmt i.fmt (fun z es =>
    minMaxRes i.fmt false i.bit5 ((es[0]?).getD 0) ((es[1]?).getD 0) z) s.x)

/-- VMAX (R134). -/
def execVmax (i : VInsn) (s : State) : Out :=
  act s (vecMap i [i.a, i.b] i.fmt i.fmt (fun z es =>
    minMaxRes i.fmt true i.bit5 ((es[0]?).getD 0) ((es[1]?).getD 0) z) s.x)

/-- The result of an element test: a MASK-tagged register of all ones and zeros, or a predicate that is
true where it holds for every element of the lane (R135, R148). -/
def Flight.putTest (x : Flight) (i : VInsn) (m : BitVec 128) (w : Nat) (ts : List Bool) : Flight :=
  match i.d with
  | .alt k => x.putPred k m (laneAll (32 / w) ts)
  | d =>
    let es := ts.map fun t => if t then 2 ^ w - 1 else 0
    x.putVec d m (packElems w x.nlanes es) .mask none

/-- VCMP: the condition stands in C (R135). -/
def execVcmp (i : VInsn) (s : State) : Out :=
  act s (s.x.laneAct i.g fun m x =>
    let (ts, x) := fireAll [i.a, i.b] [] x
    let (as, f1, x) := x.srcElems i ts i.fmt i.a
    let (bs, f2, x) := x.srcElems i ts i.fmt i.b
    let c := match i.c with | .imm n => n.toNat | _ => 0
    let w := fmtWidth i.fmt
    let vs := as.zip bs |>.map fun p =>
      (flushIn x.ftz i.fmt (elemVal i.fmt p.1), flushIn x.ftz i.fmt (elemVal i.fmt p.2))
    let on := (vs.zipIdx.filter fun p => laneOn m (p.2 / (32 / w))).map (·.1)
    let fl := on.foldl (fun f p => f ||| cmpFlags c p.1 p.2) (f1 ||| f2)
    (x.flag fl).putTest i m w (vs.map fun p => cmpHolds c p.1 p.2))

/-- VSEL: by a predicate per lane, or by a MASK-tagged value bit by bit (R136). -/
def execVsel (i : VInsn) (s : State) : Out :=
  act s (s.x.laneAct i.g fun m x =>
    let srcs := if i.bit5 then [i.a, i.b, i.c] else [i.a, i.b]
    let (ts, x) := fireAll srcs [] x
    let w := fmtWidth i.fmt
    let (as, f1, x) := x.srcElems i ts i.fmt i.a
    let (bs, f2, x) := x.srcElems i ts i.fmt i.b
    let la := packElems w x.nlanes as
    let lb := packElems w x.nlanes bs
    let (lanes, x) :=
      if i.bit5 then
        let (ms, _, x) := x.srcElems i ts .mask i.c
        (((la.zip lb).zip ms).map fun p =>
          let k := BitVec.ofNat 32 p.2
          (p.1.1 &&& k) ||| (p.1.2 &&& ~~~k), x)
      else
        let p := srcPredV x i.c
        ((la.zip lb).zipIdx.map fun q => if laneOn p q.2 then q.1.1 else q.1.2, x)
    (x.flag (f1 ||| f2)).putMoved i m lanes i.fmt none)
where
  /-- the predicate a C field names -/
  srcPredV (x : Flight) (src : Src) : BitVec 128 :=
    match src with
    | .reg n => x.r.rdP x.nlanes (n.setWidth 4)
    | _ => 0

/-- The class of an element as its bit number (R137). -/
def classBit (f : Fmt) (b : Nat) : Nat :=
  match elemVal f b, floatInfo f with
  | .nan sig, _ => if sig then 8 else 9
  | .inf neg, _ => if neg then 0 else 7
  | .fin neg n d, some i =>
    if n = 0 then (if neg then 3 else 4)
    else if log2Q n d < 1 - (i.bias : Int) then (if neg then 2 else 5)
    else if neg then 1 else 6
  | _, _ => 4

/-- VCLASS (R137). -/
def execVclass (i : VInsn) (s : State) : Out :=
  act s (s.x.laneAct i.g fun m x =>
    let (ts, x) := fireAll [i.a] [] x
    let (as, fl, x) := x.srcElems i ts i.fmt i.a
    let w := fmtWidth i.fmt
    let cs := as.map fun b => 2 ^ classBit i.fmt b
    let x := x.flag fl
    match i.d with
    | .alt k =>
      let mask := match i.b with
        | .imm n => ofInt 10 n.toInt
        | _ => (i.lit.getD 0).toNat % 1024
      x.putPred k m (laneAll (32 / w) (cs.map fun c => c &&& mask != 0))
    | d => x.putVec d m (packElems w x.nlanes cs) (if w = 32 then .uint32 else .uint16) none)

/-- FP32's exponent range with 11 stored fraction bits (R138). -/
def fp32Short : FloatInfo := ⟨8, 11, 127, 0x7f7ff, true, true⟩

/-- A finite positive real in a format, short in FP32 (R138). -/
def approxRound (f : Fmt) (neg : Bool) (a : Mag) : Res :=
  if f = .fp32 then
    let r := roundMag fp32Short neg a .rne false
    { r with bits := r.bits * 2 ^ 12 }
  else
    match floatInfo f with
    | some i => roundMag i neg a .rne false
    | none => ⟨0, 0, false⟩

/-- VRCP's result (R138). -/
def rcpRes (ftz : Bool) (f : Fmt) (a : Num) : Res :=
  match floatInfo f with
  | none => ⟨0, 0, false⟩
  | some i =>
    match a with
    | .nan _ => toFloat i a .rne false
    | .inf neg => ⟨signBit i neg, 0, false⟩
    | .fin neg n d =>
      if n = 0 then ⟨infBits i neg, fDZ, false⟩
      else flushOut ftz f (approxRound f neg ⟨d, n, false⟩)

/-- VRCP (R138). -/
def execVrcp (i : VInsn) (s : State) : Out :=
  act s (vecMap i [i.a] i.fmt i.fmt (fun z es => rcpRes z i.fmt (opVal z i.fmt es 0)) s.x)

/-- VRSQ's result (R138). -/
def rsqRes (ftz : Bool) (f : Fmt) (a : Num) : Res :=
  match floatInfo f with
  | none => ⟨0, 0, false⟩
  | some i =>
    match a with
    | .nan _ => toFloat i a .rne false
    | .inf neg => if neg then (canonNan i).also fNV else ⟨0, 0, false⟩
    | .fin neg n d =>
      if n = 0 then ⟨infBits i neg, fDZ, false⟩
      else if neg then (canonNan i).also fNV
      else flushOut ftz f (approxRound f false ⟨d, n, true⟩)

/-- VRSQ (R138). -/
def execVrsq (i : VInsn) (s : State) : Out :=
  act s (vecMap i [i.a] i.fmt i.fmt (fun z es => rsqRes z i.fmt (opVal z i.fmt es 0)) s.x)

/-- One Newton step on an estimate y; `half` for the root (R139). DEDUCED: an exactly zero result takes the sign of y, and
a subnormal y that FTZ reads as zero is left as its bits are. -/
def newtonRes (ftz : Bool) (f : Fmt) (half : Bool) (x y : Num) (yb : Nat) (mode : Rnd) : Res :=
  match x, y with
  | .fin s n d, .fin t m e =>
    if n = 0 ∨ m = 0 then ⟨yb, 0, false⟩
    else
      let sx := signed s n
      let sy := signed t m
      -- one = 1 - x*y (*y), as num / den
      let den : Nat := if half then d * e * e else d * e
      let num : Int := (den : Int) - (if half then sx * sy * sy else sx * sy)
      -- y + y * one (/2)
      let k : Nat := if half then 2 else 1
      let rn : Int := sy * (k * den : Nat) + sy * num
      let rd : Nat := e * (k * den)
      arith ftz f (.fin (if rn = 0 then t else decide (rn < 0)) rn.natAbs rd) mode
  | _, _ => ⟨yb, 0, false⟩

/-- VRCPN (R139). -/
def execVrcpn (i : VInsn) (s : State) : Out :=
  act s (vecMap i [i.a, i.b] i.fmt i.fmt (fun z es =>
    newtonRes z i.fmt false (opVal z i.fmt es 0) (opVal z i.fmt es 1) ((es[1]?).getD 0) (vmode i)) s.x)

/-- VRSQN (R139). -/
def execVrsqn (i : VInsn) (s : State) : Out :=
  act s (vecMap i [i.a, i.b] i.fmt i.fmt (fun z es =>
    newtonRes z i.fmt true (opVal z i.fmt es 0) (opVal z i.fmt es 1) ((es[1]?).getD 0) (vmode i)) s.x)

end Sys2Proof.Machine
end

