-- ==== Sys2Proof/Machine/VecConv.lean ====
section
/-!
DEFINITION. Group 2: conversions, MX blocks, dot products and reductions (R141-R146).
-/
namespace Sys2Proof.Machine

/-! ### Generators (R98, R99) -/

/-- The generator of a lane. -/
def Regs.gen (r : Regs) (lane : Nat) : Lane := (r.gens[lane]?).getD 1

/-- A generator stepped once. -/
def Regs.stepGen (r : Regs) (lane : Nat) : Regs :=
  { r with gens := r.gens.set lane (genStep (r.gen lane)) }

/-- What a conversion of the block at work reads of its strand. -/
def Flight.cvtMode (x : Flight) (mode : Rnd) (sat : Bool) : CvtMode := ⟨mode, sat, x.ftz, x.sr⟩

/-! ### Conversion of a vector (R141, R142) -/

/-- The pairs of destination and source element numbers of a conversion of part `p` (R141). -/
def cvtPairs (lanes ws wd p : Nat) : List (Nat × Nat) :=
  let ns := lanes * (32 / ws)
  let nd := lanes * (32 / wd)
  if wd < ws then
    let base := p % (ws / wd) * ns
    (List.range ns).map fun k => (base + k, k)
  else
    let base := if ws < wd then p % (wd / ws) * nd else 0
    (List.range nd).map fun k => (k, base + k)

/-- What a conversion over elements has come to: the destination's elements, the block with its
generators and flags, and the source elements that overflowed. -/
structure CvtRun where
  out : List Nat
  x   : Flight
  ovf : List Nat

/-- One element converted in its place: a lane that is off neither converts nor steps (R99, R141). -/
def cvtOne (c : CvtMode) (dst src : Fmt) (m : BitVec 128) (es : List Nat) (r : CvtRun) (p : Nat × Nat) :
    CvtRun :=
  let lane := p.1 / (32 / fmtWidth dst)
  if !laneOn m lane then r
  else
    let x := if usesSr c dst src then { r.x with r := r.x.r.stepGen lane } else r.x
    let v := cvtVal c dst src (elemVal src ((es[p.2]?).getD 0)) (x.r.gen lane)
    ⟨r.out.set p.1 v.bits, x.flag v.flags, if v.ovf then p.2 :: r.ovf else r.ovf⟩

/-- The bytes of an overflow token (R142). -/
def overflowToken (dst src : Fmt) (p : Nat) (lanes : List Nat) : List Byte :=
  let mask := (lanes.eraseDups.map fun l => 2 ^ l).foldl (· + ·) 0
  leBytes 16 mask ++ [BitVec.ofNat 8 dst.code.toNat, BitVec.ofNat 8 src.code.toNat, BitVec.ofNat 8 p, 0]
    ++ leBytes 4 lanes.length

/-- A small immediate part number. -/
def partOf (s : Src) : Nat :=
  match s with
  | .imm n => n.toNat % 8
  | _ => 0

/-- Free values of `w` bits, as many as asked for, where the spec states none. -/
def freeVals (x : Flight) (w n : Nat) : List Nat × Flight :=
  ((List.range n).map fun k => Config.pick x.issue (x.nonce + k) % 2 ^ w, { x with nonce := x.nonce + n })

/-- The value a destination holds before the instruction: a register's; a token has none, and its bits and
scale bytes are free (R141, R143). -/
def Flight.oldValue (x : Flight) (d : Dst) : VReg × Flight :=
  match d with
  | .reg k => (x.r.rdV k, x)
  | _ =>
    let (ls, x) := freeVals x 32 x.nlanes
    let (bs, x) := freeVals x 8 (x.nlanes / 4)
    (⟨ls.map (BitVec.ofNat 32), .raw, bs.map (BitVec.ofNat 8)⟩, x)

/-- VCVT (R141, R142): the data token is pushed before the overflow token. -/
def execVcvt (i : VInsn) (s : State) : Out :=
  act s (s.x.laneAct i.g fun m x =>
    let (ts, x) := fireAll [i.a] [] x
    let (v, x) := x.srcVec ts i.a
    let src := v.tag
    if !src.inF then x.failCode .formatTag
    else
      let p := partOf i.b
      let sat := !i.bit5
      let c := x.cvtMode (vmode i) sat
      let (old, x) := x.oldValue i.d
      let r := (cvtPairs x.nlanes (fmtWidth src) (fmtWidth i.fmt) p).foldl
        (cvtOne c i.fmt src m (elemsOf (fmtWidth src) v.lanes))
        ⟨elemsOf (fmtWidth i.fmt) old.lanes, x, []⟩
      let x := r.x.putVec i.d m (packElems (fmtWidth i.fmt) x.nlanes r.out) i.fmt none
      match i.c with
      | .ring h _ =>
        match x.view h.toNat true with
        | none => x.failCode .ringState
        | some w =>
          if w.slotsz < 32 then x.failCode .ringState
          else if sat && !r.ovf.isEmpty then
            x.push h.toNat .raw
              (overflowToken i.fmt src p (r.ovf.map fun k => k / (32 / fmtWidth src))) 32
          else x
      | _ => x)

/-! ### MX blocks (R143, R144) -/

/-- The exponent of the largest magnitude of an MX element format (R37). -/
def mxEmax : Fmt → Int
  | .mxe4m3 => 8
  | .mxe5m2 => 15
  | .mxe3m2 => 4
  | .mxe2m3 => 2
  | .mxe2m1 => 2
  | _ => 0

/-- The larger magnitude of two values that are not NaN. -/
def maxMag (a b : Num) : Num := if a.abs.cmp b.abs < 0 then b else a

/-- The scale byte a block needs for its largest magnitude (R143). -/
def scaleNeed (f : Fmt) (a : Num) : Nat :=
  match a with
  | .nan _ => 0
  | .inf _ => (clampI 0 254 (128 - mxEmax f + 127)).toNat
  | .fin _ n d => if n = 0 then 0 else (clampI 0 254 (log2Q n d - mxEmax f + 127)).toNat

/-- A value quantised under a scale byte (R143): always saturating. -/
def mxQuant (c : CvtMode) (f : Fmt) (v : Num) (scale : Nat) (g : Lane) : Res :=
  let q := scaleNum v (127 - (scale : Int))
  match mxElem f with
  | some e =>
    match floatInfo e with
    | none => ⟨0, 0, false⟩
    | some i =>
      match q with
      | .fin neg n d =>
        if c.sr then roundSr i neg ⟨n, d, false⟩ g c.mode true else roundMag i neg ⟨n, d, false⟩ c.mode true
      | q => toFloat i q c.mode true
  | none => toMxint8 (-128) q c.mode

/-- Scale pass of one part: sidecar bytes and flags (R143). -/
def mxScalePass (f : Fmt) (m : BitVec 128) (w base : Nat) (vals : List Num) (side : List Byte) :
    List Byte × BitVec 5 :=
  let on := (vals.zipIdx.map fun p => (p.1, base + p.2)).filter fun p => laneOn m (p.2 / (32 / w))
  let fl : BitVec 5 := if on.any (·.1.isNan) then fNV else 0
  let bytes := side.zipIdx.map fun p =>
    let blk := on.filter fun e => e.2 / 32 == p.2 && !e.1.isNan
    let top := blk.foldl (fun a e => maxMag a e.1) (.fin false 0 1)
    if decide (base ≤ 32 * p.2 + 31 ∧ 32 * p.2 < base + vals.length) then
      BitVec.ofNat 8 (max p.1.toNat (scaleNeed f top))
    else p.1
  (bytes, fl)

/-- Quantise pass of one element (R143). -/
def mxQuantOne (c : CvtMode) (f : Fmt) (m : BitVec 128) (side : List Byte) (r : CvtRun) (p : Num × Nat) :
    CvtRun :=
  let lane := p.2 / (32 / fmtWidth f)
  if !laneOn m lane then r
  else
    let c := if f == .mxint8 then { c with sr := false } else c
    let x := if c.sr then { r.x with r := r.x.r.stepGen lane } else r.x
    let v := mxQuant c f p.1 ((side[p.2 / 32]?).getD 0).toNat (x.r.gen lane)
    ⟨r.out.set p.2 v.bits, x.flag v.flags, r.ovf⟩

/-- VMXQ: the scale pass and the quantise pass (R143). A discarded result leaves its flags. -/
def execVmxq (i : VInsn) (s : State) : Out :=
  act s (s.x.laneAct i.g fun m x =>
    let (ts, x) := fireAll [i.a] [] x
    let (v, x) := x.srcVec ts i.a
    if !v.tag.isArith then x.failCode .formatTag
    else
      let ws := fmtWidth v.tag
      let w := fmtWidth i.fmt
      let ratio := ws / w
      let p := partOf i.b
      let base := p % ratio * (x.nlanes * (32 / ws))
      let (old, x) := x.oldValue i.d
      let vals := (elemsOf ws v.lanes).map fun b => flushIn x.ftz v.tag (elemVal v.tag b)
      if i.bit5 then
        let side := if p % ratio = 0 then old.side.map fun _ => 0 else old.side
        let (side, fl) := mxScalePass i.fmt m w base vals side
        (x.flag fl).putVec i.d m old.lanes i.fmt (some side)
      else
        let r := (vals.zipIdx.map fun q => (q.1, base + q.2)).foldl
          (mxQuantOne (x.cvtMode (vmode i) true) i.fmt m old.side) ⟨elemsOf w old.lanes, x, []⟩
        r.x.putVec i.d m (packElems w x.nlanes r.out) i.fmt (some old.side))

/-- VMXDQ (R144). DEDUCED: it rounds under its mode with FMODE.SR set too, and steps no generator, since R99 lists the
makers of the conversions that it covers. -/
def execVmxdq (i : VInsn) (s : State) : Out :=
  act s (s.x.laneAct i.g fun m x =>
    let (ts, x) := fireAll [i.a] [] x
    let (v, x) := x.srcVec ts i.a
    if !v.tag.isMx then x.failCode .formatTag
    else
      let ws := fmtWidth v.tag
      let wd := fmtWidth i.fmt
      let es := elemsOf ws v.lanes
      let rs := (cvtPairs x.nlanes ws wd (partOf i.b)).map fun p =>
        arith x.ftz i.fmt (mxVal v.tag ((es[p.2]?).getD 0) ((v.side[p.2 / 32]?).getD 0x7f)) (vmode i)
      x.elementwise i m i.fmt rs 0)

/-! ### Dot products and reductions (R102, R145, R146) -/

/-- One level of the pairwise tree (R102). -/
def treeLevel {α : Type} (f : α → α → α) : List α → List α
  | a :: b :: rest => f a b :: treeLevel f rest
  | l => l

/-- The pairwise tree over a list whose length is a power of two (R102). -/
def treeOf {α : Type} (f : α → α → α) (dflt : α) : Nat → List α → α
  | 0, l => l.headD dflt
  | n + 1, l => treeOf f dflt n (treeLevel f l)

/-- Flags travel with the values of a tree. -/
def combineRes (f : Nat → Nat → Res) (a b : Res) : Res :=
  let r := f a.bits b.bits
  ⟨r.bits, r.flags ||| a.flags ||| b.flags, false⟩

/-- A value broadcast to every element or sent to a scalar zero-extended (R145, R146, R156). -/
def Flight.putReduced (x : Flight) (d : Dst) (m : BitVec 128) (f : Fmt) (v : Nat) (sc : Word) : Flight :=
  match d with
  | .alt k => x.wrS k sc
  | d =>
    let w := fmtWidth f
    x.putVec d m (packElems w x.nlanes (List.replicate (x.nlanes * (32 / w)) v)) f none

/-- The sum of two FP32 elements (R102). -/
def addFp32 (ftz : Bool) (mode : Rnd) (a b : Nat) : Res :=
  arithWith ftz .fp32 (let u := flushIn ftz .fp32 (elemVal .fp32 a)
    let v := flushIn ftz .fp32 (elemVal .fp32 b)
    let r := addNum u v mode
    (r.1, r.2 ||| sigFlag [u, v])) mode

/-- The signed integer of an int8 element. -/
def int8Of (b : Nat) : Int := toSigned 8 b

/-- The exact sum of the products of one lane onto a start value, with the flags of forming it. -/
def laneDot (mode : Rnd) (c : Num) : List (Num × Num) → Num × BitVec 5
  | [] => (c, sigFlag [c])
  | (a, b) :: rest =>
    let (p, f) := mulNum a b
    let (t, g) := addNum c p mode
    let (r, h) := laneDot mode t rest
    (r, f ||| g ||| h ||| sigFlag [a, b])

/-- VDOT: the full form and the lane form (R145). -/
def execVdot (i : VInsn) (s : State) : Out :=
  act s (s.x.laneAct i.g fun m x =>
    let (ts, x) := fireAll (if i.bit5 then [i.a, i.b, i.c] else [i.a, i.b]) [] x
    let isInt := i.fmt == .int8
    let rf : Fmt := if isInt then .int32 else .fp32
    let n := 32 / fmtWidth i.fmt
    let mode := vmode i
    let (as, f1, x) := x.srcElems i ts i.fmt i.a
    let (bs, f2, x) := x.srcElems i ts i.fmt i.b
    let val := fun b => flushIn x.ftz i.fmt (elemVal i.fmt b)
    if i.bit5 then
      let (cs, f3, x) := x.srcElems i ts rf i.c
      let rs := (List.range x.nlanes).map fun l =>
        let ab := ((as.zip bs).drop (l * n)).take n
        if isInt then
          ⟨ofInt 32 (toSigned 32 ((cs[l]?).getD 0) + (ab.map fun p => int8Of p.1 * int8Of p.2).sum), 0,
            false⟩
        else
          arithWith x.ftz .fp32 (laneDot mode (flushIn x.ftz .fp32 (elemVal .fp32 ((cs[l]?).getD 0)))
            (ab.map fun p => (val p.1, val p.2))) mode
      x.elementwise i m rf rs (f1 ||| f2 ||| f3)
    else if isInt then
      let on := ((as.zip bs).zipIdx.filter fun p => laneOn m (p.2 / n)).map (·.1)
      let v := ofInt 32 (on.map fun p => int8Of p.1 * int8Of p.2).sum
      (x.flag (f1 ||| f2)).putReduced i.d m rf v (BitVec.ofNat 64 v)
    else
      let ident : Nat := if mode == .rdn then 0 else 2 ^ 31
      let ps := (as.zip bs).zipIdx.map fun p =>
        if laneOn m (p.2 / n) then
          let a := val p.1.1
          let b := val p.1.2
          (arithWith x.ftz .fp32 (mulNum a b) mode).also (sigFlag [a, b])
        else ⟨ident, 0, false⟩
      let r := treeOf (combineRes (addFp32 x.ftz mode)) ⟨0, 0, false⟩ (Nat.log2 ps.length) ps
      (x.flag (r.flags ||| f1 ||| f2)).putReduced i.d m rf r.bits (BitVec.ofNat 64 r.bits))

/-- VREDF: add, max and min by the tree (R146). -/
def execVredf (i : VInsn) (s : State) : Out :=
  act s (s.x.laneAct i.g fun m x =>
    let (ts, x) := fireAll [i.a] [] x
    let (as, f1, x) := x.srcElems i ts i.fmt i.a
    match floatInfo i.fmt with
    | none => x
    | some fi =>
      let op := match i.b with | .imm n => n.toNat | _ => 0
      let mode := vmode i
      let ident : Nat := match op with
        | 0 => if mode == .rdn then 0 else signBit fi true
        | 1 => infBits fi true
        | _ => infBits fi false
      let comb : Nat → Nat → Res := fun a b =>
        match op with
        | 0 =>
          let u := flushIn x.ftz i.fmt (elemVal i.fmt a)
          let v := flushIn x.ftz i.fmt (elemVal i.fmt b)
          (arithWith x.ftz i.fmt (addNum u v mode) mode).also (sigFlag [u, v])
        | k => minMaxRes i.fmt (k == 1) false a b x.ftz
      let es : List Res := as.zipIdx.map fun p =>
        ⟨if laneOn m (p.2 / (32 / fmtWidth i.fmt)) then p.1 else ident, 0, false⟩
      let r := treeOf (combineRes comb) ⟨0, 0, false⟩ (Nat.log2 es.length) es
      (x.flag (r.flags ||| f1)).putReduced i.d m i.fmt r.bits (BitVec.ofNat 64 r.bits))

end Sys2Proof.Machine
end

