-- ==== Sys2Proof/Machine/Mem.lean ====
section
/-!
DEFINITION. Group 4: loads, stores, tiles, atomics, prefetch, bounds handles, and the phase boundaries
(R160-R181, R189).
-/
namespace Sys2Proof.Machine

/-! ### Scalars (R171) -/

/-- LD (R171). -/
def execLd (i : MInsn) (s : State) : Out :=
  let sp := spaceCode i.space
  act s (s.x.scalarAct i.g fun x =>
    let z := (loadInfo i.fmt).1
    x.withAccess (s.access x i.bh sp .load (x.ea i i.sh.toNat) z z 0) false fun hs x =>
      let (bs, x) := loadBytes s x hs
      x.putScalar i.d (extendLoad i.fmt (leNat bs)))

/-- The addresses of `z` bytes from an effective address on (R160). -/
def addrsFrom (ea : Word) (z : Nat) : List Nat := (List.range z).map (ea.toNat % 2 ^ 56 + ·)

/-- The scalar a destination field names as data. -/
def dataReg (d : Dst) : BitVec 6 :=
  match d with
  | .reg n => n
  | _ => 0

/-- ST (R171, R182). -/
def execSt (i : MInsn) (s : State) : Out :=
  act s (s.x.scalarAct i.g fun x =>
    let z := (loadInfo i.fmt).1
    x.withAccess (s.access x i.bh (spaceCode i.space) .store (x.ea i i.sh.toNat) z z 0) true fun hs x =>
      x.store (spaceCode i.space) (addrsFrom (x.ea i i.sh.toNat) z)
        (hs.zip (leBytes z (x.rdS (dataReg i.d)).toNat)))

/-! ### Vectors (R172) -/

/-- The lanes on and, for MX, the sidecar bytes whose block has a lane on, as accesses of LDV and STV in
order: each offset from the effective address with its width, lane and alignment (R172). -/
def spanParts (f : Fmt) (n : Nat) (m : BitVec 128) : List (Nat × Nat × Nat) :=
  let on := lanesOf m n
  let w := fmtWidth f
  let js := (List.range (sideCount f n)).filter fun j => on.any fun l => l / w == j
  on.map (fun l => (4 * l, 4, l)) ++ js.map fun j => (4 * n + j, 1, ((on.find? fun l => l / w == j).getD 0))

/-- The accesses of LDV and STV, in ascending lane order and then in sidecar order: the first that fails
or is held stands (R162, R172). -/
def spanAccess (s : State) (x : Flight) (i : MInsn) (perm : Perm) (m : BitVec 128) : Access :=
  let ea := x.ea i i.sh.toNat
  laneAccesses (fun k =>
    match (spanParts i.fmt x.nlanes m)[k]? with
    | some (off, z, lane) =>
      s.accessAt x i.bh (spaceCode i.space) perm (ea + BitVec.ofNat 64 off) (ea.toNat % 2 ^ 56 + off) z
        (if z = 4 then 4 else 1) lane
    | none => .ok [] []) (List.range (spanParts i.fmt x.nlanes m).length)

/-- Loaded bytes by offset: the lanes' words and the sidecar bytes that were loaded. -/
def spanBytes (parts : List (Nat × Nat × Nat)) (bs : List Byte) : List (Nat × Byte) :=
  (parts.flatMap fun p => (List.range p.2.1).map (p.1 + ·)).zip bs

/-- A byte at an offset among listed ones. -/
def byteOf (l : List (Nat × Byte)) (k : Nat) : Option Byte := (l.find? (·.1 == k)).map (·.2)

/-- LDV (R172). A pushed token's sidecar bytes of blocks with no lane on are free. -/
def execLdv (i : MInsn) (s : State) : Out :=
  act s (s.x.laneAct i.g fun m x =>
    x.withAccess (spanAccess s x i .load m) false fun hs x =>
      let n := x.nlanes
      let (bs, x) := loadBytes s x hs
      let got := spanBytes (spanParts i.fmt n m) bs
      let lanes := (List.range n).map fun l =>
        BitVec.ofNat 32 (leNat ((List.range 4).map fun k => (byteOf got (4 * l + k)).getD 0))
      let (old, x) := x.oldValue i.d
      let side := old.side.zipIdx.map fun p => (byteOf got (4 * n + p.2)).getD p.1
      x.putVec i.d m lanes i.fmt (if i.fmt.isMx then some side else none))

/-- STV (R172). -/
def execStv (i : MInsn) (s : State) : Out :=
  act s (s.x.laneAct i.g fun m x =>
    let v := x.r.rdV (dataReg i.d)
    if !tagOk i.fmt v.tag then x.failCode .formatTag
    else
      x.withAccess (spanAccess s x i .store m) true fun hs x =>
        let n := x.nlanes
        let bytes := (spanParts i.fmt n m).flatMap fun p =>
          if p.2.1 = 4 then leBytes 4 (wordAt4 v p.1) else [(v.side[p.1 - 4 * n]?).getD 0x7f]
        let as := (spanParts i.fmt n m).flatMap fun p =>
          (List.range p.2.1).map ((x.ea i i.sh.toNat).toNat % 2 ^ 56 + p.1 + ·)
        x.store (spaceCode i.space) as (hs.zip bytes))
where
  /-- the lane word at a byte offset -/
  wordAt4 (v : VReg) (off : Nat) : Nat := ((v.lanes[off / 4]?).getD 0).toNat

/-! ### Gather and scatter (R173) -/

/-- The accesses of the lanes that are on at their own addresses (R160, R162). -/
def gatherAccess (s : State) (x : Flight) (i : MInsn) (perm : Perm) (u : Bool) (sh : Nat)
    (m : BitVec 128) : Access :=
  let v := x.r.rdV i.index
  laneAccesses (fun l =>
    s.access x i.bh (spaceCode i.space) perm (x.eaLane i u sh ((v.lanes[l]?).getD 0)) 4 4 l)
    (lanesOf m x.nlanes)

/-- LDG (R173). -/
def execLdg (i : MInsn) (s : State) : Out :=
  act s (s.x.laneAct i.g fun m x =>
    x.withAccess (gatherAccess s x i .load i.bit15 i.sh.toNat m) false fun hs x =>
      let (bs, x) := loadBytes s x hs
      let on := lanesOf m x.nlanes
      let lanes := (List.range x.nlanes).map fun l =>
        match on.idxOf? l with
        | some k => BitVec.ofNat 32 (fieldN bs (4 * k) 4)
        | none => 0
      x.putVec i.d m lanes i.fmt none)

/-- STG: of several lanes that name one word the highest supplies it (R173). -/
def execStg (i : MInsn) (s : State) : Out :=
  act s (s.x.laneAct i.g fun m x =>
    let v := x.r.rdV (dataReg i.d)
    if !tagOk i.fmt v.tag then x.failCode .formatTag
    else
      x.withAccess (gatherAccess s x i .store i.bit15 i.sh.toNat m) true fun hs x =>
        let bytes := (lanesOf m x.nlanes).flatMap fun l => leBytes 4 ((v.lanes[l]?).getD 0).toNat
        let ix := x.r.rdV i.index
        let as := (lanesOf m x.nlanes).flatMap fun l =>
          addrsFrom (x.eaLane i i.bit15 i.sh.toNat ((ix.lanes[l]?).getD 0)) 4
        x.store (spaceCode i.space) as (hs.zip bytes))

/-! ### Tiles (R174) -/

/-- The tile a D field names, none when the strand has no such tile (R79). -/
def Flight.tileOk (x : Flight) (f : BitVec 4) : Bool := decide (f.toNat % 8 < x.ntiles)

/-- The tile field of LDT and STT. -/
def tileD (d : Dst) : BitVec 4 :=
  match d with
  | .alt n => n.setWidth 4
  | _ => 0

/-- How many bytes of a row's scale entry a format uses: 4 at 8 bits and fewer, 8 at 4 bits, none above, and all
of them for raw, which has no elements (R90). -/
def scaleCount (f : Fmt) : Nat :=
  if f = .raw then 8 else if fmtWidth f ≤ 4 then 8 else if fmtWidth f ≤ 8 then 4 else 0

/-- A scale plane under a format: the entries past those that it uses are 0x7F (R90). -/
def planeKept (f : Fmt) (m : SMap 8) : SMap 8 := m.filter fun c => decide (c.1 % 8 < scaleCount f)

/-- The offsets of a tile's bytes from its address in row or scale order (R174). -/
def tileOffsets (sc : Bool) (st : Nat) : List Nat :=
  if sc then List.range 1024
  else (List.range 128).flatMap fun r => (List.range 128).map fun b => r * st + b

/-- The row stride of LDT and STT (R174). -/
def tileStride (x : Flight) (i : MInsn) : Nat := if i.index = 0 then 128 else (x.rdS i.index).toNat

/-- The addresses of the bytes that LDT and STT move (R174). -/
def tileAddrs (x : Flight) (i : MInsn) : List Nat :=
  (tileOffsets i.bit15 (tileStride x i)).map ((x.eaBase i).toNat % 2 ^ 56 + ·)

/-- The access of LDT and STT: the bounds cover every byte moved, then the kind of cluster store, the
alignment of the address and of the stride, and translation (R162, R174). -/
def tileAccess (s : State) (x : Flight) (i : MInsn) (perm : Perm) : Access :=
  let ea := x.eaBase i
  let a := ea.toNat % 2 ^ 56
  let sp := spaceCode i.space
  let st := tileStride x i
  let span := if i.bit15 then 1024 else 127 * st + 128
  let f : FaultInfo :=
    { code := .bounds, access := perm.code, handle := i.bh.toNat, ea := ea }
  if !(x.r.rdB i.bh).passes sp perm a span || decide (x.spaceEnd sp < a + span) then .fail f
  else
    let isl := x.who.seq.isl
    let kind := if sp = 1 then
        (if i.bit15 then s.clusterKind isl.die isl.cluster a 1024
         else (List.range 128).findSome? fun r => s.clusterKind isl.die isl.cluster (a + r * st) 128)
      else none
    match kind with
    | some c => .fail { f with code := c }
    | none =>
      if a % 16 ≠ 0 ∨ st % 16 ≠ 0 then .fail { f with code := .align }
      else s.spaceHomes x sp perm f (tileAddrs x i)

/-- LDT: rows, or the scale plane (R174). -/
def execLdt (i : MInsn) (s : State) : Out :=
  act s (s.x.scalarAct i.g fun x =>
    let t := tileD i.d
    if !x.tileOk t then x.failCode .tileAlloc
    else
      x.withAccess (tileAccess s x i .load) false fun hs x =>
        let (bs, x) := loadBytes s x hs
        let old := x.r.rdT t
        let new : Tile :=
          if i.bit15 then { old with scale := planeKept i.fmt (smOfList 0x7f bs), tag := i.fmt }
          else ⟨smOfList 0 bs, if i.fmt.isMx then planeKept i.fmt old.scale else [], i.fmt⟩
        { x with r := x.r.wrT t new })

/-- STT (R174). -/
def execStt (i : MInsn) (s : State) : Out :=
  act s (s.x.scalarAct i.g fun x =>
    let t := tileD i.d
    if !x.tileOk t then x.failCode .tileAlloc
    else
      let v := x.r.rdT t
      x.withAccess (tileAccess s x i .store) true fun hs x =>
        if !tagOk i.fmt v.tag then x.failCode .formatTag
        else
          let bs := if i.bit15 then smExpand 0x7f v.scale 0 1024 else smExpand 0 v.data 0 16384
          x.store (spaceCode i.space) (tileAddrs x i) (hs.zip bs))

/-! ### Atomics (R175-R178): at the commit point (R52) -/

/-- A commit-point access staged. -/
def Flight.atCommit (x : Flight) (a : CommitAccess) : Flight := { x with access := some a, accIdx := x.idx }

/-- ATOM (R176). -/
def execAtom (i : MInsn) (s : State) : Out :=
  act s (s.x.scalarAct i.g fun x =>
    let z := (loadInfo i.fmt).1
    x.withAccess (s.access x i.bh (spaceCode i.space) .atomic (x.ea i 0) z z 0) true fun hs x =>
      let h := hs.headD 0
      let d := dataReg i.d
      x.atCommit (.atom h z (i.mod.setWidth 4) i.fmt (x.rdS d) 0 d.toNat (isFabHome h)))

/-- CAS: the comparand and the new value stand in an even pair (R177). -/
def execCas (i : MInsn) (s : State) : Out :=
  act s (s.x.scalarAct i.g fun x =>
    let z := (loadInfo i.fmt).1
    x.withAccess (s.access x i.bh (spaceCode i.space) .atomic (x.ea i 0) z z 0) true fun hs x =>
      let h := hs.headD 0
      let d := dataReg i.d
      x.atCommit (.atom h z 8 i.fmt (x.rdS d) (x.rdS (d + 1)) d.toNat (isFabHome h)))

/-- ATOMV: one atomic per lane that is on (R178). -/
def execAtomv (i : MInsn) (s : State) : Out :=
  act s (s.x.laneAct i.g fun m x =>
    let d := dataReg i.d
    let v := x.r.rdV d
    if !tagOk i.fmt v.tag then x.failCode .formatTag
    else
      x.withAccess (gatherAccess s x i .atomic false 0 m) true fun hs x =>
        let ls := (lanesOf m x.nlanes).zipIdx.map fun p =>
          let h := (hs[4 * p.2]?).getD 0
          (p.1, h, (v.lanes[p.1]?).getD 0, isFabHome h)
        x.atCommit (.atomv ls i.mod i.fmt d.toNat))

/-! ### Prefetch and bounds handles (R179-R181) -/

/-- PREF: translation of the page of its span begins at commit; what fails drops it silently (R179). -/
def execPref (i : MInsn) (s : State) : Out :=
  act s (s.x.scalarAct i.g fun x =>
    let ea := x.ea i 0
    let span := match i.sh.toNat with | 0 => 64 | 1 => 4096 | _ => 65536
    let a := ea.toNat % 2 ^ 56 / span * span
    if i.space == .global then
      match s.accessAt x i.bh 0 .load ea a span 1 0 with
      | .ok _ _ => x.stage (.prefetch (BitVec.ofNat 56 a) span)
      | _ => x
    else x)

/-- The start of the range BND and BNDQ.test name (R180, R181). -/
def bndStart (x : Flight) (i : MInsn) : Nat := (x.eaBase i).toNat % 2 ^ 56

/-- BND (R180). -/
def execBnd (i : MInsn) (s : State) : Out :=
  act s (s.x.scalarAct i.g fun x =>
    let h := x.r.rdB i.bh
    let nb := bndStart x i
    let nl := nb + (x.rdS i.index).toNat
    if !h.v || spaceCode i.space != h.space || decide (2 ^ 56 < nl) || decide (nb < h.base.toNat)
        || decide (h.limit.toNat < nl) then
      x.fail { code := .bounds, handle := i.bh.toNat, ea := BitVec.ofNat 64 nb }
    else
      match i.d with
      | .alt n =>
        let new : Handle := ⟨BitVec.ofNat 56 nb, BitVec.ofNat 56 nl, true, h.space,
          h.a && i.mod.getLsbD 0, h.w && i.mod.getLsbD 1, h.r && i.mod.getLsbD 2⟩
        { x with r := x.r.wrB (n.setWidth 4) new }
      | _ => x)

/-- The attribute word of a handle (R161). -/
def Handle.attr (h : Handle) : Nat :=
  (if h.v then 128 else 0) + h.space.toNat * 16 + (if h.a then 4 else 0) + (if h.w then 2 else 0)
    + (if h.r then 1 else 0)

/-- BNDQ (R181). -/
def execBndq (i : MInsn) (s : State) : Out :=
  act s (s.x.scalarAct i.g fun x =>
    let h := x.r.rdB i.bh
    let v : Word := match i.mod.toNat with
      | 0 => h.base.setWidth 64
      | 1 => h.limit.setWidth 64
      | 2 => BitVec.ofNat 64 h.attr
      | _ =>
        let a := bndStart x i
        let z := (x.rdS i.index).toNat
        let sp := spaceCode i.space
        if h.passes sp .load a z && decide (a + z ≤ x.spaceEnd sp) then 1 else 0
    x.wrS (dataReg i.d) v)

/-! ### Phase boundaries (R189) -/

/-- PHASE: a publication and then a refresh at its scope, at commit (R186, R189). -/
def execPhase (i : SInsn) (s : State) : Out :=
  act s (s.x.scalarAct i.g fun x => (x.stage (.publish i.mod)).stage (.refresh i.mod))

/-- PUBL (R189). -/
def execPubl (i : SInsn) (s : State) : Out :=
  act s (s.x.scalarAct i.g fun x => x.stage (.publish i.mod))

/-- SNAP (R189). -/
def execSnap (i : SInsn) (s : State) : Out :=
  act s (s.x.scalarAct i.g fun x => x.stage (.refresh i.mod))

end Sys2Proof.Machine
end

