-- ==== Sys2Proof/Machine/Matrix.lean ====
section
/-!
DEFINITION. The instructions of matrix islands and tile registers (R237-R244).
-/
namespace Sys2Proof.Machine

/-! ### Tiles as rows -/

/-- Elements per tile row of a format by its width (R90). -/
def rowLen (f : Fmt) : Nat := 1024 / fmtWidth f

/-- The rows of a tile as numbers of 1,024 bits, element k of width w in bits w*k and up (R90). -/
def Tile.rows (t : Tile) : List Nat :=
  let bs := smExpand 0 t.data 0 16384
  (List.range 128).map fun r => leNat ((bs.drop (128 * r)).take 128)

/-- The eight scale bytes of each row. -/
def Tile.scales (t : Tile) : List (List Byte) :=
  let bs := smExpand 0x7f t.scale 0 1024
  (List.range 128).map fun r => (bs.drop (8 * r)).take 8

/-- A tile from its rows, its scale bytes and its tag. -/
def Tile.ofRows (rows : List Nat) (scales : List (List Byte)) (tag : Fmt) : Tile :=
  ⟨smOfList 0 (rows.flatMap (leBytes 128)), planeKept tag (smOfList 0x7f scales.flatten), tag⟩

/-- The elements of a row of width `w`. -/
def rowElemsOf (w : Nat) (row : Nat) : List Nat :=
  (List.range (1024 / w)).map fun k => row / 2 ^ (w * k) % 2 ^ w

/-- A row from its elements. -/
def rowOf (w : Nat) (es : List Nat) : Nat := packLane w es

/-- A list with a stretch replaced from a position on. -/
def spliceAt {α : Type} (l : List α) (k : Nat) (new : List α) : List α :=
  l.take k ++ new ++ l.drop (k + new.length)

/-! ### Converting rows (R99, R241, R243) -/

/-- One element converted for a lane's generator; `scale` is the scale byte of an MX destination. -/
def convElem (c : CvtMode) (dst src : Fmt) (scale : Option Nat) (lane : Nat) (p : List Nat × Flight)
    (v : Num) : List Nat × Flight :=
  let x := p.2
  let sr : Bool := match scale with
    | none => usesSr c dst src
    | some _ => c.sr && dst != .mxint8
  let x := if sr then { x with r := x.r.stepGen lane } else x
  let r := match scale with
    | none => cvtVal c dst src v (x.r.gen lane)
    | some k => mxQuant { c with sr := sr } dst (flushIn c.ftz src v) k (x.r.gen lane)
  (p.1 ++ [r.bits], x.flag r.flags)

/-- The blocks of 32 of an MX destination, each with the scale its values need (R143): a skipped NaN sets
NV. -/
def convBlocks (c : CvtMode) (dst src : Fmt) (lane : Nat) :
    List (List Num) → List Nat × List Byte × Flight → List Nat × List Byte × Flight
  | [], p => p
  | b :: bs, (es, ss, x) =>
    let vs := b.map (flushIn c.ftz src)
    let top := (vs.filter fun v => !v.isNan).foldl maxMag (.fin false 0 1)
    let k := scaleNeed dst top
    let x := if vs.any Num.isNan then x.flag fNV else x
    let (es', x) := b.foldl (convElem c dst src (some k) lane) ([], x)
    convBlocks c dst src lane bs (es ++ es', ss ++ [BitVec.ofNat 8 k], x)

/-- A list in blocks of 32. -/
def blocks32 {α : Type} (l : List α) : List (List α) :=
  (List.range (ceilDiv l.length 32)).map fun g => (l.drop (32 * g)).take 32

/-- One row's values converted: the elements, the scale bytes of an MX destination, and the block at work
with its generators and flags. -/
def convRow (c : CvtMode) (dst src : Fmt) (lane : Nat) (vals : List Num) (x : Flight) :
    List Nat × List Byte × Flight :=
  if dst.isMx then convBlocks c dst src lane (blocks32 vals) ([], [], x)
  else
    let (es, x) := vals.foldl (convElem c dst src none lane) ([], x)
    (es, [], x)

/-- Rows converted in ascending order, row i by lane i mod L (R99). -/
def convRows (c : CvtMode) (dst src : Fmt) (lanes : Nat) :
    List (Nat × List Num) → Flight → List (List Nat × List Byte) × Flight
  | [], x => ([], x)
  | (i, vals) :: rest, x =>
    let (es, ss, x) := convRow c dst src (i % max lanes 1) vals x
    let (out, x) := convRows c dst src lanes rest x
    ((es, ss) :: out, x)

/-! ### Tile registers (R242-R244) -/

/-- A tile written. -/
def Flight.wrT (x : Flight) (f : BitVec 4) (t : Tile) : Flight := { x with r := x.r.wrT f t }

/-- TZERO (R242). -/
def execTzero (i : TInsn) (s : State) : Out :=
  act s (s.x.scalarAct i.g fun x =>
    if !x.tileOk i.td then x.failCode .tileAlloc
    else x.wrT i.td { Tile.fresh with tag := i.fmta })

/-- TMOV (R242). -/
def execTmov (i : TInsn) (s : State) : Out :=
  act s (s.x.scalarAct i.g fun x =>
    if !x.tileOk i.td || !x.tileOk i.ta then x.failCode .tileAlloc
    else x.wrT i.td (x.r.rdT i.ta))

/-- The values of a tile row: MX elements under their scale bytes. -/
def tileVals (f : Fmt) (es : List Nat) (ss : List Byte) : List Num :=
  if f.isMx then es.zipIdx.map fun p => mxVal f p.1 ((ss[p.2 / 32]?).getD 0x7f)
  else es.map (elemVal f)

/-- TCVT: a whole tile (R243). DEDUCED: a result that is not MX sets the scale plane to 0x7F, as LDT and
MRD do. -/
def execTcvt (i : TInsn) (s : State) : Out :=
  act s (s.x.scalarAct i.g fun x =>
    if !x.tileOk i.td || !x.tileOk i.ta then x.failCode .tileAlloc
    else
      let a := x.r.rdT i.ta
      let d := x.r.rdT i.td
      let src := a.tag
      let dst := i.fmta
      if src == .raw || src == .mask || (src.isMx && dst.isMx) then x.failCode .formatTag
      else
        let ns := rowLen src
        let nd := rowLen dst
        let p := (i.aux.extractLsb' 0 3).toNat
        let c := x.cvtMode (Rnd.ofField i.rnd.toNat) (!i.mod.getLsbD 3)
        let sbase := if nd < ns then p % (ns / nd) * nd else 0
        let dbase := if ns < nd then p % (nd / ns) * ns else 0
        let rows := (a.rows.zip a.scales).zipIdx.map fun q =>
          (q.2, ((tileVals src (rowElemsOf (fmtWidth src) q.1.1) q.1.2).drop sbase).take nd)
        let (out, x) := convRows c dst src x.nlanes rows x
        let new := (d.rows.zip out).map fun q =>
          rowOf (fmtWidth dst) (spliceAt (rowElemsOf (fmtWidth dst) q.1) dbase q.2.1)
        let scales := if dst.isMx then
            (d.scales.zip out).map fun q => spliceAt q.1 (dbase / 32) q.2.2
          else []
        x.wrT i.td (Tile.ofRows new scales dst))

/-- The index of TSLICE: s(SX) plus the signed immediate (R244). -/
def sliceIndex (x : Flight) (i : TInsn) : Word := x.rdS i.sx + i.aux.signExtend 64

/-- The result of reading a row or a column into lanes (R244). -/
def sliceRead (f : Fmt) (col : Bool) (t : Tile) (idx lanes : Nat) : List Lane :=
  let w := fmtWidth f
  if col then
    packElems w lanes ((List.range (lanes * (32 / w))).map fun k =>
      match t.rows[k]? with
      | some r => r / 2 ^ (w * idx) % 2 ^ w
      | none => 0)
  else
    let r := (t.rows[idx]?).getD 0
    (List.range lanes).map fun l => if l < 32 then BitVec.ofNat 32 (r / 2 ^ (32 * l)) else 0

/-- A tile with a row or a column written from the lanes that are on (R244, R69). -/
def sliceWrite (f : Fmt) (col : Bool) (t : Tile) (idx : Nat) (m : BitVec 128) (v : List Lane) : Tile :=
  let w := fmtWidth f
  let rows :=
    if col then
      let es := elemsOf w v
      t.rows.zipIdx.map fun p =>
        match es[p.2]? with
        | some e =>
          if laneOn m (p.2 / (32 / w)) then rowOf w ((rowElemsOf w p.1).set idx e) else p.1
        | none => p.1
    else
      t.rows.zipIdx.map fun p =>
        if p.2 = idx then
          rowOf 32 ((rowElemsOf 32 p.1).zipIdx.map fun q =>
            match v[q.2]? with
            | some l => if laneOn m q.2 then l.toNat else q.1
            | none => q.1)
        else p.1
  { t with data := smOfList 0 (rows.flatMap (leBytes 128)) }

/-- TSLICE (R244): MAINT_ONLY in SERVICE mode. -/
def execTslice (i : TInsn) (s : State) : Out :=
  act s (s.x.scalarAct i.g fun x =>
    if !x.maint then x.failCode .maintOnly
    else
      let wr := i.mod.getLsbD 3
      let col := i.mod.getLsbD 2
      let tf := if wr then i.td else i.ta
      let lim := if col then rowLen i.fmta else 128
      let idx := sliceIndex x i
      let m := x.guard i.g
      if !x.tileOk tf then x.failCode .tileAlloc
      else
        let t := x.r.rdT tf
        let v := x.r.rdV i.sy
        if !tagOk i.fmta t.tag || (wr && !tagOk i.fmta v.tag) then x.failCode .formatTag
        else if decide (lim ≤ idx.toNat) then x.fail { code := .bounds, handle := 0, ea := idx }
        else if wr then x.wrT tf (sliceWrite i.fmta col t idx.toNat m v.lanes)
        else x.putVec (.reg i.sy) m (sliceRead i.fmta col t idx.toNat x.nlanes) i.fmta none)

/-! ### Tile tasks (R230, R238-R240) -/

/-- An accumulator name with a binding made pending, when it is unbound (R231, R238). -/
def Regs.pendAcc (r : Regs) (c : Fin 4) : Regs :=
  if r.acc[c] = .unbound then { r with acc := r.acc.set c .pending } else r

/-- Bytes of a ring A: 128 rows of K elements, and for MX the scales (R230). -/
def tokenALen (f : Fmt) (k : Nat) : Nat := 16 * k * fmtWidth f + (if f.isMx then 4 * k else 0)

/-- The 64-byte record that MTASK, MTASKS and MZERO build (R230, R238, R239). Bits 63:54 of s(SX) stand in
the reserved byte 19, where the check at dispatch finds them. -/
def taskRecord (kind : Nat) (fa fb : Fmt) (z ev nb : Bool) (asrc : Nat) (acc bar nsp k : Nat)
    (boff soff moff asel imask : Nat) (bad : Bool) : List Byte :=
  leBytes 2 kind ++ leBytes 1 fa.code.toNat ++ leBytes 1 fb.code.toNat
    ++ leBytes 1 ((if z then 1 else 0) + (if ev then 2 else 0) + (if nb then 4 else 0) + 8 * asrc)
    ++ leBytes 1 acc ++ leBytes 1 bar ++ leBytes 1 nsp ++ leBytes 2 k ++ leBytes 2 boff
    ++ leBytes 2 soff ++ leBytes 2 moff ++ leBytes 1 asel ++ leBytes 1 imask ++ leBytes 1 0
    ++ leBytes 1 (if bad then 1 else 0) ++ leBytes 44 0

/-- The token a ring A takes: the one at the head of the handle's reservation after the tokens passed,
whether or not a firing has reached it (R232). -/
def Flight.takeA (x : Flight) (h : Nat) : Option (Token × RView × Nat) :=
  match x.view h false with
  | none => none
  | some v =>
    match v.toks[v.pos]? with
    | none => none
    | some t =>
      some (t, { v.goto (v.pos + 1) with
          taken := v.pos :: v.taken, reach := max v.reach (v.pos + 1) }, (v.nums[v.pos]?).getD 0)

/-- MTASK and MTASKS: the record of K, N and the fields of s(SX) (R238). -/
def submitTask (i : TInsn) (x : Flight) (sparse : Bool) (k nsp : Nat) : Flight :=
  let c := accOf i.td
  let z := i.mod.getLsbD 3
  let ev := i.mod.getLsbD 2
  let ring := i.mod.getLsbD 0
  let sx := (x.rdS i.sx).toNat
  let nb := bit sx 53
  if !z && x.r.acc[c] = .unbound then x.failCode .tileAlloc
  else
    x.withJobBar (if nb then none else some (bits sx 52 48)) fun x =>
      let recd := taskRecord (if sparse then 0x11 else 0x10) i.fmta i.fmtb z ev nb (if ring then 1 else 0)
        c.val (bits sx 52 48) nsp k (bits sx 15 0) (bits sx 31 16) (bits sx 47 32)
        (if ring then i.sy.toNat else i.ta.toNat) i.imask.toNat (decide (bits sx 63 54 ≠ 0))
      let j := { x.newJob .task 2 with
        bar := if nb then none else some (bits sx 52 48), ev := ev, bytes := recd
        args := [c.val] }
      let done := fun (x : Flight) (j : JobReq) =>
        let x := x.submit j
        if z then { x with r := x.r.pendAcc c } else x
      if ring then
        match x.takeA i.sy.toNat with
        | none => x.failCode .ringState
        | some (t, v, n) =>
          if t.tag ≠ i.fmta then x.failCode .formatTag
          else if t.bytes.length < tokenALen i.fmta k then x.failCode .ringState
          else done (x.setView v) { j with ring := some (v.id, n) }
      else if !x.tileOk i.ta then x.failCode .tileAlloc
      else if (x.r.rdT i.ta).tag ≠ i.fmta then x.failCode .formatTag
      else done x { j with tile := some (x.r.rdT i.ta) }

/-- MTASK (R238). -/
def execMtask (i : TInsn) (s : State) : Out :=
  act s (s.x.scalarAct i.g fun x =>
    submitTask i x false (32 * ((i.aux.extractLsb' 0 8).toNat + 1)) 0)

/-- MTASKS (R238). -/
def execMtasks (i : TInsn) (s : State) : Out :=
  act s (s.x.scalarAct i.g fun x =>
    submitTask i x true (96 * ((i.aux.extractLsb' 0 6).toNat + 1))
      (match (i.aux.extractLsb' 6 2).toNat with | 0 => 3 | 1 => 4 | _ => 6))

/-- MZERO (R239). -/
def execMzero (i : TInsn) (s : State) : Out :=
  act s (s.x.scalarAct i.g fun x =>
    let c := accOf i.td
    let ev := i.mod.getLsbD 2
    let recd := taskRecord 0x12 .fp32 .fp32 true ev true 0 c.val 0 0 0 0 0 0 0 i.imask.toNat false
    let x := x.submit { x.newJob .mzero 2 with ev := ev, bytes := recd, args := [c.val] }
    { x with r := x.r.pendAcc c })

/-- MWAIT: its wait is an issue condition (R240). -/
def execMwait (i : TInsn) (s : State) : Out := act s (s.x.scalarAct i.g id)

/-! ### MRD (R241) -/

/-- A row of an accumulator as values. -/
def accRow (vals : SMap 32) (r : Nat) : List Num :=
  (smExpand 0 vals (128 * r) 128).map fun b => elemVal .fp32 b.toNat

/-- Every row of an accumulator as values. -/
def accRows (vals : SMap 32) : List (List Num) :=
  let all := (smExpand 0 vals 0 16384).map fun b => elemVal .fp32 b.toNat
  (List.range 128).map fun r => (all.drop (128 * r)).take 128

/-- The tile form of MRD: the part of each row that is written. -/
def mrdTile (i : TInsn) (vals : SMap 32) (x : Flight) : Flight :=
  if !x.tileOk i.td then x.failCode .tileAlloc
  else
    let dst := i.fmta
    let nd := rowLen dst
    let p := (i.aux.extractLsb' 0 3).toNat
    let cbase := if nd ≤ 128 then p % max 1 (128 / nd) * nd else 0
    let dbase := if nd ≤ 128 then 0 else p % 2 * 128
    let d := x.r.rdT i.td
    let c := x.cvtMode (Rnd.ofField i.rnd.toNat) (!i.mod.getLsbD 2)
    let rows := (accRows vals).zipIdx.map fun q => (q.2, (q.1.drop cbase).take nd)
    let (out, x) := convRows c dst .fp32 x.nlanes rows x
    let new := (d.rows.zip out).map fun q =>
      rowOf (fmtWidth dst) (spliceAt (rowElemsOf (fmtWidth dst) q.1) dbase q.2.1)
    let scales := if dst.isMx then
        (d.scales.zip out).map fun q => spliceAt q.1 (dbase / 32) q.2.2
      else []
    x.wrT i.td (Tile.ofRows new scales dst)

/-- The vector form of MRD: only elements of lanes that are on are converted. DEDUCED: the lane that serves the row
(R99, R241) steps its generator for each of them, whether or not that lane itself is on. -/
def mrdVec (i : TInsn) (vals : SMap 32) (x : Flight) : Flight :=
  let dst := i.fmta
  let w := fmtWidth dst
  let n := 32 / w
  let m := x.guard i.g
  let r := (i.aux.extractLsb' 0 7).toNat
  let c0 := (x.rdS i.sx).toNat % 128
  let row := accRow vals r
  let ks := (List.range (x.nlanes * n)).filter fun k => decide (c0 + k < 128) && laneOn m (k / n)
  let c := x.cvtMode (Rnd.ofField i.rnd.toNat) (!i.mod.getLsbD 2)
  let (es, _, x) := convRow c dst .fp32 (r % max x.nlanes 1)
    (ks.map fun k => (row[c0 + k]?).getD (.fin false 0 1)) x
  let all := (List.range (x.nlanes * n)).map fun k =>
    match ks.idxOf? k with
    | some p => (es[p]?).getD 0
    | none => 0
  x.putVec (.reg i.sy) m (packElems w x.nlanes all) dst none

/-- The cluster form of MRD: the image is captured now and written by a job (R241). Its command carries
the address, the stride, the bytes of a row and the accumulator name. -/
def mrdStore (s : State) (i : TInsn) (vals : SMap 32) (x : Flight) : Flight :=
  let dst := i.fmta
  let w := fmtWidth dst
  let size := 16 * w + (if dst.isMx then 4 else 0)
  let base := x.rdS i.sx
  let st := x.rdS i.sy
  let bh := i.aux.extractLsb' 0 4
  let acc := laneAccesses (fun r =>
    s.access x bh 1 .store (base + BitVec.ofNat 64 (r * st.toNat)) size 16 0) (List.range 128)
  x.withAccess acc true fun _ x =>
    let c := x.cvtMode (Rnd.ofField i.rnd.toNat) (!i.mod.getLsbD 2)
    let rows := (accRows vals).zipIdx.map fun q => (q.2, q.1)
    let (out, x) := convRows c dst .fp32 x.nlanes rows x
    let image := out.flatMap fun q => leBytes (16 * w) (rowOf w q.1) ++ q.2
    x.submit { x.newJob .mrdWrite 2 with
      bytes := image
      args := [base, st, BitVec.ofNat 64 size, (accOf i.ta).val] }

/-- MRD: the flag byte goes into FFLAGS, and `.rel` unbinds the name (R241, R229). -/
def execMrd (i : TInsn) (s : State) : Out :=
  act s (s.x.scalarAct i.g fun x =>
    let c := accOf i.ta
    match x.r.acc[c], x.accs.find? (·.1 == c) with
    | .bound _ _, some (_, vals, fl) =>
      let x := match (i.mod.extractLsb' 0 2).toNat with
        | 0 => mrdTile i vals x
        | 1 => mrdVec i vals x
        | _ => mrdStore s i vals x
      let x := x.flag (matrixFlags fl)
      if i.mod.getLsbD 3 then
        { x.stage (.accRelease c) with r := { x.r with acc := x.r.acc.set c .unbound } }
      else x
    | _, _ => x.failCode .tileAlloc)

end Sys2Proof.Machine
end

