-- ==== Sys2Proof/Machine/Commit.lean ====
section
/-!
DEFINITION. The commit of a block (R51, R52, R186) with the exit that wins (R56, R118, R119, R124-R126,
R354), the end of a strand and of its gang (R119, R311, R313), the first half of a kernel's draining (R286),
and the abort of a block that faulted (R53).
-/
namespace Sys2Proof.Machine

/-! ### Rings at a commit (R66, R67, R195, R197, R207) -/

/-- The notices that the passed tokens carry: each stands at the last token it covers. -/
def noteMarks : List Nat → List Nat → List (Nat × Nat)
  | [], _ => []
  | n :: ns, l =>
    match (l.take n).getLast? with
    | some k => (k, n) :: noteMarks ns (l.drop n)
    | none => noteMarks ns l

/-- Popped tokens at the head leave their slots: RP goes forward, and their notices are sent (R195, R197). -/
def Ring.dropGone (q : Ring) : Ring :=
  let g := q.slots.takeWhile (·.gone)
  { q with
    slots := q.slots.drop g.length
    rp := advancePtr q.nslot q.rp g.length
    popped := q.popped + g.length
    notices := q.notices ++ (g.map (·.note)).filter (· != 0) }

/-- A consumer's passage through a ring put into it: tokens passed are popped, tokens that matrix tasks took
stay reserved, the sticky state of the token reached is kept, and the other reservations are given back. -/
def Ring.applyView (q : Ring) (v : RView) : Ring :=
  let own := v.nums.take v.mine
  let passed := ((v.nums.take v.pos).zipIdx.filter fun p => !v.taken.contains p.2).map (·.1)
  let tk := (v.nums.zipIdx.filter fun p => v.taken.contains p.2).map (·.1)
  let notes := noteMarks v.frees passed
  let head : Option Nat := if v.pos < v.mine then v.nums[v.pos]? else none
  let f (t : Slot) : Slot :=
    if passed.contains t.num then
      { t with gone := true, res := false, note := ((notes.find? (·.1 == t.num)).map (·.2)).getD 0 }
    else if tk.contains t.num then t
    else
      let t := if own.contains t.num then { t with res := false } else t
      if head = some t.num then { t with lim := v.lim, cnt := v.cnt, loop := v.loop } else t
  { q with slots := q.slots.map f }.dropGone

/-- A block's reservations on one handle given back unused (R53). -/
def Ring.unreserve (q : Ring) (v : RView) : Ring :=
  if v.prod then { q with fresv := q.fresv - v.mine }
  else
    let own := v.nums.take v.mine
    { q with slots := q.slots.map fun t => if own.contains t.num then { t with res := false } else t }

/-- How many tokens of a ring have been popped, those that an older one still holds in their slots included. -/
def Ring.pops (q : Ring) : Nat := q.popped + (q.slots.filter (·.gone)).length

/-- A ring changed; a token popped by the change is progress (R331). -/
def State.popRing (s : State) (id : RingId) (f : Ring → Ring) : State :=
  match s.ring id with
  | none => s
  | some q =>
    let t := s.modRing id f
    if q.pops < (f q).pops then t.progress id.rid else t

/-- A block's passage through all its rings; a producer's reservation ends, as its pushes are made. -/
def State.applyViews (s : State) (vs : List RView) : State :=
  vs.foldl (fun s v => s.popRing v.id fun q => if v.prod then q.unreserve v else q.applyView v) s

/-- RFLUSH: the tokens that nothing has reserved leave, behind the reserved ones; the count (R207). -/
def Ring.flush (q : Ring) : Ring × Nat :=
  let k := (q.slots.zipIdx.filter fun p => p.1.res).foldl (fun n p => max n (p.2 + 1)) 0
  let keep (p : Slot × Nat) : Bool := p.1.res || (p.1.gone && decide (p.2 < k))
  let out := q.slots.zipIdx.filter fun p => !keep p
  let n := (out.filter fun p => !p.1.gone).length
  ({ q with
      slots := (q.slots.zipIdx.filter keep).map (·.1)
      notices := q.notices ++ ((out.map (·.1.note)) ++ [n]).filter (· != 0) }, n)

/-- Tokens that a strand holds for `:loop` whose loop has ended are popped (R66). -/
def Ring.loopEnds (q : Ring) (n : StrandId) (depth : Nat) : Ring :=
  let f (t : Slot) : Slot :=
    match t.loop with
    | some (m, d) =>
      if m = n && !t.gone && decide (depth < d) then { t with gone := true, note := 1, res := false } else t
    | none => t
  { q with slots := q.slots.map f }.dropGone

/-- The loops of a strand that have ended pop the tokens held for them, in whichever ring (R66). -/
def State.loopsEnd (s : State) (t : StrandId) (depth : Nat) : State :=
  let held (q : Ring) : Bool := q.slots.any fun p => p.loop.any fun l => l.1 == t && decide (depth < l.2)
  ((s.chan.rings.filter held).map (·.id)).foldl (fun s id => s.popRing id fun q => q.loopEnds t depth) s

/-! ### Nodes that have reached their COUNT, and DRAINING (R286) -/

/-- A node's run in a region; one not listed has not begun. -/
def Region.run (r : Region) (el : Nat) : NodeRun :=
  (r.nodes.find? (·.el == el)).getD
    ⟨el, elCluster el, 0, 0, [], false, [], [], [], [], [], [], false, 0, false, 0⟩

/-- Elements of a streaming memory node's stream: the product of its counts; a count of zero adds no
dimension. -/
def Region.streamLen (r : Region) (el : Nat) : Nat :=
  ((List.range 4).map fun k => max 1 (r.field el (12 + k))).foldl (· * ·) 1

/-- Whether a copy node has a record of its own: one without serves the CPYQ of strands alone (R213, R281). -/
def Region.hasRec (r : Region) (el : Nat) : Bool := r.config.any fun p => p.1 == el && p.2.1 == 2

/-- Whether a copy node or a streaming memory node has reached its COUNT; none for every other node. A copy
node without a limit never does, and a repeat node and a copy node without a record have none (R236, R281,
R286). -/
def Region.atCount (r : Region) (el : Nat) : Option Bool :=
  match elKind el with
  | some .copy =>
    let n := r.field el 4
    if r.field el 1 = 1 || !r.hasRec el then none else some (n != 0 && decide (n ≤ ((r.run el).iter.headD 0)))
  | some .memory =>
    if r.field el 1 = 0 then some (decide (r.streamLen el ≤ (r.run el).iter.headD 0)) else none
  | _ => none

/-- The enabled nodes of a region. -/
def Region.nodeEls (r : Region) : List Nat := cfgNodes r.config

/-- A kernel enters DRAINING when every gang strand has ended and every node with a COUNT has reached it
(R286). DEDUCED: not while a switch is requested, which may start gangs anew (R290). -/
def State.checkDraining (s : State) (rid : Nat) : State :=
  match s.region rid with
  | none => s
  | some r =>
    let gangs := s.fab.gangs.filter fun g => g.rid == rid && !g.seq.gaffer
    let ended := gangs.all fun g => g.strands.all (·.ended)
    let counts := r.nodeEls.all fun el => (r.atCount el).getD true
    if (r.state == .filling || r.state == .steady) && !r.pend && r.asks.isEmpty && ended && counts then
      s.modRegion rid fun r => { r with state := .draining }
    else s

/-! ### Local commit-point accesses (R52, R176-R178, R334) -/

/-- The pending-launch entry that an accepted launch makes, and what its destination receives (R334, R330). -/
def State.launch (s : State) (x : Flight) (home : Nat) : Nat × State :=
  let isl := x.who.seq.isl
  let free := s.entriesFree isl.die isl.cluster
  if free = 0 && !x.entry then (1, s)
  else
    let key := 16 * isl.die.val + isl.cluster.val
    let t : BitVec 16 := smGet 0 s.hub.tickets key
    let recd := (List.range 128).map fun k =>
      if isFabHome (home + k) then Config.outsideByte (Config.pick s.free (home + k))
      else s.mem.newest (.cluster isl.die isl.cluster) (home + k)
    let prio := (s.region x.rid).elim 0 (·.prio)
    let e : PendingLaunch := ⟨isl.die, isl.cluster, t, s.hub.nextReq, recd, x.ctx, min (fieldN recd 71 1) prio, false⟩
    (t.toNat * 256, { s with hub := { s.hub with
      nextReq := s.hub.nextReq + 1
      pending := s.hub.pending ++ [e], tickets := smSet 0 s.hub.tickets key (t + 1) } })

/-- The lanes of an ATOMV whose home is on the device, acting in order: their old values (R178). -/
def State.localLanes (s : State) (t : StrandId) (op : BitVec 3) (f : Fmt) :
    List (Nat × Nat × Lane × Bool) → List (Nat × Lane) × State
  | [] => ([], s)
  | (n, h, x, far) :: rest =>
    if far then s.localLanes t op f rest
    else
      let (old, s) := s.atomic t h 4 op.toNat f x.toNat 0
      let (vs, s) := s.localLanes t op f rest
      ((n, BitVec.ofNat 32 old) :: vs, s)

/-- A request sent to a remote home: its destination is pending (R52). -/
def State.sendRequest (s : State) (x : Flight) (dev : BitVec 20) (d : Nat) (vec : Option (List Nat)) (f : Fmt)
    (got : List (Nat × Lane)) (a : CommitAccess) : State :=
  let n := s.hub.nextReq
  let q : RemoteReq := ⟨n, x.who, x.rid, x.ctx, dev, s.tick, x.pc, x.accIdx, a, got, x.issue, false⟩
  let s := { s with hub := { s.hub with remote := s.hub.remote ++ [q], nextReq := n + 1 } }
  s.modStrand x.who fun st => { st with pend := st.pend ++ [⟨n, d, vec, f⟩] }

/-- A change of the registers that the block at work commits. -/
def State.regX (s : State) (f : Regs → Regs) : State := { s with x := { s.x with r := f s.x.r } }

/-- The commit-point access of the block at work acts (R52). -/
def State.accessX (s : State) : State :=
  let x := s.x
  match x.access with
  | none => s
  | some a =>
    match a with
    | .atom h z op f v y d far =>
      if far then (s.flushGranule x.who h).sendRequest x (s.windowDev h) d none f [] a
      else
        let (old, s) := s.atomic x.who h z op.toNat f v.toNat y.toNat
        s.regX fun r => r.wrS (BitVec.ofNat 6 d) (extendLoad f (old % 2 ^ (8 * z)))
    | .atomv ls op f d =>
      let (got, s) := s.localLanes x.who op f ls
      let far := ls.filter fun l => l.2.2.2
      if far.isEmpty then s.regX fun r => r.wrLanes d f got
      else
        let s := far.foldl (fun s l => s.flushGranule x.who l.2.1) s
        let devs := (far.map fun l => s.windowDev l.2.1).eraseDups
        (devs.foldl (fun (p : State × List (Nat × Lane)) dev =>
          let mine := far.filter fun l => s.windowDev l.2.1 == dev
          (p.1.sendRequest x dev d (some (ls.map (·.1))) f p.2 (.atomv mine op f d), [])) (s, got)).1
    | .xld _ dev f d => s.sendRequest x dev d none f [] a
    | .xatom _ dev _ f _ d => s.sendRequest x dev d none f [] a
    | .launch h d _ =>
      let (v, s) := s.launch x h
      s.regX fun r => r.wrS (BitVec.ofNat 6 d) (BitVec.ofNat 64 v)

/-! ### Publication and refresh of a block (R186, R311) -/

/-- The widest of listed scopes. -/
def widest (l : List (BitVec 4)) : Option (BitVec 4) :=
  l.foldl (fun m k => match m with
    | none => some k
    | some j => some (if j.toNat < k.toNat then k else j)) none

/-- The scope at which END publishes: that of the innermost GANG, STRAND or LANE level, else of the finest
level (R311). -/
def endScope (recd : List Byte) : BitVec 4 :=
  let ls := levelsOf recd
  match ((ls.filter fun l => decide (5 ≤ l.dom)).getLast?).or ls.getLast? with
  | some l => BitVec.ofNat 4 l.scope
  | none => 3

/-- The scope at which the block at work publishes, when it does. -/
def State.pubScope (s : State) : Option (BitVec 4) :=
  let named := s.x.fx.filterMap fun f => match f with | .publish k => some k | _ => none
  let fin : List (BitVec 4) := if s.x.exit = some .stop then
      [(s.region s.x.rid).elim 3 fun r => endScope r.recd] else []
  widest (named ++ fin)

/-- Steps 2 to 4 of a commit: stores, the one publication, the one refresh (R186). What the block's loads
saw is a floor for the strand from then on (R185). -/
def State.storesX (s : State) : State :=
  let x := s.x
  let s := x.fx.foldl (fun s f => match f with
    | .store cells => s.modStrand x.who fun st => { st with buf := cells.foldl bufSet st.buf }
    | .storeCell cells => s.poke cells
    | _ => s) s
  let s := s.modStrand x.who fun st => { st with grans := x.grans.foldl addGranule st.grans }
  let s := s.modStrand x.who fun st => { st with floors := x.seen.foldl raiseFloor st.floors }
  let s := match s.pubScope with
    | some k => s.publish x.who x.rid x.ctx k
    | none => s
  match widest (x.fx.filterMap fun f => match f with | .refresh k => some k | _ => none) with
  | some k => s.refresh x.who x.ctx k
  | none => s

/-! ### Submissions (R186 step 5) -/

/-- The next number of a message. -/
def State.bumpMsg (s : State) : State := { s with chan := { s.chan with nextMsg := s.chan.nextMsg + 1 } }

/-- An accumulator name that TASK's record gives a pending binding (R335). -/
def JobReq.pends (j : JobReq) : Option (Fin 4) :=
  if j.kind = .task && j.recAt.isSome && bit (j.fld 4 1) 0 && decide (j.fld 5 1 < 4) then
    some ⟨j.fld 5 1 % 4, Nat.mod_lt _ (by decide)⟩
  else none

/-- A job of the block at work captured, the strand's handles as the commit leaves them among what it captures, and
taken by the matcher (R436, R192, R248). -/
def State.submitX (s : State) (j : JobReq) : State :=
  let x := s.x
  let isl := x.who.seq.isl
  let (j, bad) := s.capture x.who x.ctx x.r (8 * s.free + x.who.num.val) { j with hs := x.r.b }
  let s := match j.pends with
    | some c => s.regX fun r => r.pendAcc c
    | none => s
  let n := s.eng.nextJob
  let s := s.enqueue (some x.who) none x.rid x.ctx isl.die isl.cluster (s.rcOf x) (x.pc.setWidth 56) j
  match bad with
  | some (some (code, page, va)) => (s.job n).elim s fun j => s.pauseJob j code page va
  | _ => s

/-- A token pushed: it is on its way, and FREESEEN falls by one (R196). -/
def Ring.push (q : Ring) (t : Token) : Ring :=
  { q with transit := q.transit ++ [t], freeseen := q.freeseen - 1, merge := q.merge + 1 }

/-- The record of an EVPUSH (R322). -/
def pushRecord (t : StrandId) (code : BitVec 16) (a b : Word) (tick : Nat) : List Byte :=
  leBytes 2 0x100 ++ leBytes 2 code.toNat ++ leBytes 1 0
    ++ leBytes 1 (t.num.val + (if t.seq.gaffer then 128 else 0))
    ++ leBytes 1 (if t.seq.gaffer then 0xff else t.seq.base.val) ++ leBytes 1 0
    ++ leBytes 8 a.toNat ++ leBytes 8 b.toNat ++ leBytes 6 tick ++ leBytes 2 0

/-- The walks that a prefetch of a span starts (R361): one for each page of it that the die's page unit neither holds
nor walks already. -/
def State.prefetch (s : State) (die : Fin 4) (c : BitVec 12) (va n : Nat) : State :=
  let pages := ((List.range (n / 65536 + 2)).map fun k => (va / 65536 + k) * 65536).filter fun p =>
    decide (p < va + n)
  pages.foldl (fun s p => if s.translates die c p then s else s.askWalk die c p false) s

/-- A write of a special register by the block at work, at its commit: one of the strand range in the strand's own
registers, any other where it stands (R80, R352). -/
def State.commitSr (s : State) (num : BitVec 12) (v : Word) : State :=
  let x := s.x
  if num.toNat < 0x100 then s.regX fun r => r.setSr x.nlanes num.toNat v else s.setShared x.who num.toNat v

/-- One effect of the block at work beyond its stores and boundaries (R186 step 5). -/
def State.fxX (s : State) (f : Fx) : State :=
  let x := s.x
  let isl := x.who.seq.isl
  match f with
  | .store _ | .storeCell _ | .publish _ | .refresh _ | .brk .. => s
  | .push r t => (s.modRing r fun q => q.push t).progress r.rid
  | .flush r _ =>
    (match s.ring r with
     | none => s
     | some q =>
       let (q, n) := q.flush
       let s := s.modRing r fun _ => q
       s.record (unitId isl 1 0) (some x.ctx) 4 0 8
         (leBytes 4 (ringElem r) ++ leBytes 2 q.wp.toNat ++ leBytes 2 q.rp.toNat ++ leBytes 4 n))
  | .barrier b e index =>
    let m : BarMsg := ⟨s.chan.nextMsg, b, e, some x.who, sourceOf x.who, x.pc.setWidth 56, index, s.pubsOf x.who⟩
    { s with chan := { s.chan with msgs := s.chan.msgs ++ [m] } }.bumpMsg
  | .job j => s.submitX j
  | .xst va dev z data index =>
    let q : Xst := ⟨s.hub.nextReq, x.who, x.rid, x.ctx, dev, va, z, data, x.pc, index, s.tick⟩
    { s with hub := { s.hub with xsts := s.hub.xsts ++ [q], nextReq := s.hub.nextReq + 1 } }
  | .xdrain =>
    let n := s.hub.nextReq
    s.modStrand x.who fun st => { st with drain := some n }
  | .event dest code a b =>
    let p : EventPending := ⟨s.chan.nextMsg, x.who, dest, pushRecord x.who code a b s.tick, s.pubsOf x.who⟩
    { s with
      x := { s.x with evres := s.x.evres.erase dest }
      fab := { s.fab with pushes := s.fab.pushes ++ [p] } }.bumpMsg
  | .popEvent _ =>
    let q := s.events isl
    let i := q.recs.findIdx fun p => p.2 && some p.1 == x.evhead
    { s with x := { s.x with evhead := none } }.setEvents { q with recs := q.recs.eraseIdx i }
  | .stage k =>
    s.modRegion x.rid fun r => { r with asks := r.asks ++ [⟨k % 8, Nat.mod_lt _ (by decide)⟩] }
  | .swr num v => s.commitSr num v
  | .user code a b =>
    s.record (seqUnit x.who.seq) (some x.ctx) 12 code.toNat (sourceOf x.who).num
      (leBytes 8 a.toNat ++ leBytes 8 b.toNat)
  | .dstopArm a _ =>
    if a.toNat % 2 ^ 48 < s.tick + 1024 then s
    else { s with dbg := { s.dbg with stop := some (a.toNat % 2 ^ 48) } }
  | .dstopOff _ => { s with dbg := { s.dbg with stop := none } }
  | .dstopQuery _ => s
  | .capsAck _ => { s with dbg := { s.dbg with capsule := Capsule.empty } }
  | .accRelease c =>
    (match x.r0.acc[c] with
     | .bound i k => s.setSlot ⟨isl.die, isl.cluster, i⟩ k ⟨.free, [], 0⟩
     | _ => s)
  | .walked e va dirty => s.markPage isl.die x.ctx e va dirty
  | .prefetch va n => s.prefetch isl.die x.ctx va.toNat n
  | .loopPush e n =>
    s.regX fun r => { r with lc := r.lc.set e.k n, loops := e :: r.loops }

/-- An effect on the strand's own special registers and loop counters. -/
def Fx.own (f : Fx) : Bool :=
  match f with
  | .swr n _ => decide (n.toNat < 0x100)
  | .loopPush .. => true
  | _ => false

/-- The effects of the block at work in the order in which they take place: the strand's own special registers and
loop counters in index order, the higher index being left (R49), so that a job captures them as the block leaves them
(R436), then the others in index order. -/
def Flight.inOrder (x : Flight) : List Fx := x.fx.filter (·.own) ++ x.fx.filter fun f => !f.own

/-- The effects of the block at work. -/
def State.effectsX (s : State) : State := s.x.inOrder.foldl State.fxX s

/-- The value that an effect settles at commit, with the index of its instruction (R207, R406). -/
def State.settles (s : State) (f : Fx) : Option (Nat × Word) :=
  match f with
  | .flush r i => some (i, BitVec.ofNat 64 ((s.ring r).elim 0 fun q => q.flush.2))
  | .dstopArm a i => some (i, if a.toNat % 2 ^ 48 < s.tick + 1024 then 1 else 0)
  | .dstopOff i => some (i, if s.dbg.stop.isSome then 1 else 0)
  | .dstopQuery i => some (i, BitVec.ofNat 64 (s.dbg.stop.getD (2 ^ 64 - 1)))
  | _ => none

/-! ### The exit (R56, R118, R119, R124-R126, R354) -/

/-- The end-of-pass test, innermost loop first: the loops that remain, the counters, and where a repeated
loop starts (R124). -/
def endPass (pc : Addr) : List LoopEntry → Vector (BitVec 32) 3 →
    List LoopEntry × Vector (BitVec 32) 3 × Option Addr
  | [], lc => ([], lc, none)
  | l :: ls, lc =>
    if pc ≠ l.last then (l :: ls, lc, none)
    else if lc[l.k].toNat ≤ 1 then endPass pc ls (lc.set l.k 0)
    else (l :: ls, lc.set l.k (lc[l.k] - 1), some l.start)

/-- Loops whose body holds an address (R125). -/
def loopsAt (pc : Addr) (l : List LoopEntry) : List LoopEntry :=
  l.filter fun e => decide (e.start.toNat ≤ pc.toNat) && decide (pc.toNat ≤ e.last.toNat + 8 * e.endWords)

/-- What the exit of a block leaves: the registers, the next PC, whether the strand ends, and a trap that is
not taken. -/
structure Left where
  r    : Regs
  pc   : Addr
  ends : Bool := false
  soft : Option (BitVec 16 × Nat) := none
  deriving DecidableEq, Repr, Inhabited

/-- A taken exit to an address: loops whose bodies do not hold it end (R125). -/
def goTo (r : Regs) (pc : Addr) : Left := ⟨{ r with loops := loopsAt pc r.loops }, pc, false, none⟩

/-- The exit that won, acting after every other write of the block. -/
def Flight.leave (x : Flight) : Left :=
  let r := x.r
  let l : Left := match x.exit with
    | none =>
      let (ls, lc, t) := endPass x.pc r.loops r.lc
      ⟨{ r with loops := ls, lc := lc }, t.getD x.nextBlock, false, none⟩
    | some (.jump t) => goTo r t
    | some (.loopx k t) => goTo { r with loops := (r.loops.dropWhile (·.k.val != k)).drop 1 } t
    | some .stop => ⟨{ r with loops := [] }, x.nextBlock, true, none⟩
    | some (.trap code i) =>
      if r.trapvec = 0 || r.intrap then { goTo r x.nextBlock with soft := some (code, i) }
      else goTo { r with trappc := x.nextBlock, trapcode := code, intrap := true } r.trapvec
    | some (.eret _) => goTo { r with intrap := false } r.trappc
  { l with r := { l.r with lbuf := if l.r.loops.isEmpty then [] else l.r.lbuf } }

/-! ### The end of a strand and of its gang (R119, R313) -/

/-- The GANG index that a gang's end record holds: its group's index at the GANG level, else its ordinal
among the gangs of its region (R313, R310). -/
def State.gangIndex (s : State) (x : Flight) : Nat :=
  (s.region x.rid).elim 0 fun r =>
    match (levelsOf r.recd).findIdx? (·.dom == 5) with
    | some k => s.groupIndex x r k
    | none => ((unitsIn (kernelNodes r.streams) 5 2 (s.placeOf x)).idxOf? (s.placeOf x)).getD 0

/-- A gang of which every strand has ended releases what it holds and posts its record (R313). A slot that
held its parked registers is freed when no other gang parks there. -/
def State.gangDone (s : State) (x : Flight) : State :=
  match s.gang x.who.seq with
  | none => s
  | some g =>
    if g.done || !g.strands.all (·.ended) then s
    else
      let isl := g.seq.isl
      let ix := s.gangIndex x
      let s := s.modGang g.seq fun g => { g with done := true, parked := [] }
      let cols := g.parked.filterMap fun p => match p.2.2 with | .column i k _ => some (i, k) | _ => none
      let s := cols.eraseDups.foldl (fun s c =>
        let used := s.fab.gangs.any fun h =>
          h.seq.isl.die == isl.die && h.seq.isl.cluster == isl.cluster
            && h.parked.any fun p => match p.2.2 with | .column i k _ => (i, k) == c | _ => false
        if used then s else s.setSlot ⟨isl.die, isl.cluster, c.1⟩ c.2 ⟨.free, [], 0⟩) s
      if g.seq.gaffer then s
      else
        (s.postEvent isl (leBytes 2 0x40 ++ leBytes 4 0 ++ leBytes 1 g.seq.base.val ++ leBytes 1 0
          ++ leBytes 8 ix ++ leBytes 16 0) false).progress x.rid

/-- A strand ended at its commit (R119). -/
def State.strandEnd (s : State) (x : Flight) : State :=
  let s := s.modStrand x.who fun st => { st with ended := true }
  let s := s.freeEnded x.who
  let s := (s.region x.rid).elim s fun r =>
    s.record hubUnit (some x.ctx) 7 5 (sourceOf x.who).num
      (leBytes 2 ((r.queue.map (·.toNat)).getD 0) ++ leBytes 2 0 ++ leBytes 4 (fieldN r.recd 4 4)
        ++ leBytes 1 r.prio)
  ((s.progress x.rid).gangDone x).checkDraining x.rid

/-! ### Commit and abort -/

/-- What a block reserved beside its rings given back: event entries it did not use, and a record it did not
pop (R53, R321, R322). -/
def State.giveBack (s : State) (x : Flight) : State :=
  let s := x.evres.foldl (fun s k =>
    let q := s.events k
    s.setEvents { q with reserved := q.reserved - 1 }) s
  match x.evhead with
  | none => s
  | some h =>
    let q := s.events x.who.seq.isl
    s.setEvents { q with recs := modFirst (fun p => p.2 && p.1 == h) (fun p => (p.1, false)) q.recs }

/-- The abort of the block at work with a fault: no effect, its reservations given back, the fault taken
(R53, R343). -/
def State.abortX (s : State) (f : FaultInfo) : State :=
  let x := s.x
  let s := x.views.foldl (fun s v => s.modRing v.id fun q => q.unreserve v) s
  let s := { s.giveBack x with x := Flight.idle }
  ((s.erredBy x.who.seq.isl.die x.ctx f |>.deliver x.rid x.ctx (sourceOf x.who) f).flushLate x.who x.rid x.ctx).killDying x.rid

/-- The commit counted, and recorded when its turn in the sampling has come (R392). -/
def State.countCommit (s : State) (x : Flight) : State :=
  match s.strand x.who with
  | none => s
  | some st =>
    let n := st.commits + 1
    let due := s.dbg.sample ≠ 0 ∧ s.dbg.sample.toNat ≤ st.sinceRec + 1
    let s := s.modStrand x.who fun st =>
      { st with commits := n, sinceRec := if due then 0 else st.sinceRec + 1 }
    if due then
      s.record (seqUnit x.who.seq) (some x.ctx) 0 x.ninsnM1 (sourceOf x.who).num
        (leBytes 8 x.pc.toNat ++ leBytes 4 n)
    else s

/-- Faults of a block that are reported against the boundary it makes: BREAK and SOFT_TRAP (R354, R405). -/
def boundaryFaults (x : Flight) (l : Left) : List FaultInfo :=
  let base (c : FaultCode) (i aux : Nat) : FaultInfo :=
    { code := c, block := x.pc.setWidth 56, index := i, aux := aux }
  (x.fx.filterMap fun f => match f with | .brk code i => some (base .brk i code) | _ => none)
    ++ (match l.soft with | some (code, i) => [base .softTrap i code.toNat] | none => [])

/-- The commit of the block at work, in the order of R186. -/
def State.commitX (s : State) : State :=
  let s := s.accessX
  let s := s.applyViews s.x.views
  let s := s.storesX
  let s := s.effectsX
  let x := s.x
  let l := x.leave
  let s := s.modStrand x.who fun st =>
    { st with regs := l.r, pc := l.pc, yielded := st.yielded || x.yield, reqseq := st.reqseq + BitVec.ofNat 16 x.reqs }
  let depth := l.r.loops.length
  let s := s.loopsEnd x.who depth
  let s := (s.giveBack x).countCommit x
  let s := if l.ends then s.strandEnd x else s
  let s := { s with x := Flight.idle, free := s.free + 1 }
  let s := s.flushLate x.who x.rid x.ctx
  ((boundaryFaults x l).foldl (fun s f => s.lateFault x.who x.rid x.ctx f) s).killDying x.rid

/-- The values that the commit of the block at work settles, if it came now (R49). -/
def State.lateValues (s : State) : List (Nat × Word) :=
  let s := (s.accessX.applyViews s.accessX.x.views).storesX
  (s.x.inOrder.foldl (fun p f => (p.1 ++ (p.2.settles f).toList, p.2.fxX f)) ([], s)).1

/-- Whether the instructions of the block at work have used the values that its commit settles. DESIGN CHOICE: a block
run again sixteen times, whose values depend on themselves, goes on with those it has. -/
def State.lateRight (s : State) : Bool :=
  s.x.late.isEmpty || decide (16 ≤ s.x.again) ||
    let l := s.lateValues
    s.x.late.all fun p => ((l.find? (·.1 == p.1)).map (·.2)).getD p.2 == p.2

/-- A view as it stood at issue. -/
def RView.atIssue (v : RView) : RView := { v.goto 0 with reach := 0, taken := [], frees := [] }

/-- The block at work as it was issued, its fetch kept, to run again with the values that its commit settles. -/
def Flight.restart (x : Flight) (l : List (Nat × Word)) : Flight :=
  { x with
    todo := x.first, idx := 0, nextIdx := 0, r := { x.r0 with lbuf := x.r.lbuf }, views := x.views.map RView.atIssue
    staged := [], grans := [], fx := x.fx.filter (fun f => match f with | .walked .. => true | _ => false), exit := none
    access := none, accIdx := 0, fault := none, held := false, yield := false, reqs := 0, late := l, again := x.again + 1 }

/-- BLOCK_COMMIT: the block at work commits, or aborts with the fault its instructions raised; words that no
instruction matches are ILLEGAL_OP (R76). Where an instruction has used a value that the commit settles otherwise, the
block runs again with it first (R49). A commit-point access waits for the strand's publications (R187). -/
def execBlockCommit (s : State) : Out :=
  let x := s.x
  if !x.active then .next s
  else if (x.fault.isSome || x.todo.isEmpty) && !s.lateRight then .next (s.setX (x.restart s.lateValues))
  else
    match x.fault with
    | some f => .next (s.abortX f)
    | none =>
      if !x.todo.isEmpty && (decodeHead x.todo).isNone then
        .next (s.abortX { code := .illegalOp, block := x.pc.setWidth 56, index := x.nextIdx })
      else if !x.todo.isEmpty then .next s
      else if x.access.isSome && !(s.pubsOf x.who).isEmpty then .next s
      else .next s.commitX

end Sys2Proof.Machine
end

