-- ==== Sys2Proof/Machine/Ports.lean ====
section
/-!
DEFINITION. The ports of nodes (R279, R285, R286): the rings at them, the tokens a firing takes and pushes
(R195-R197), where a node stands on the die (R278), when it may fire (R290), and bridge endpoints (R281).
-/
namespace Sys2Proof.Machine

/-! ### Places (R278) -/

/-- The physical index of a region's unit in its cluster. -/
def Region.phys (r : Region) (rc ty ix : Nat) : Nat := ((r.imap.find? (·.1 == (rc, ty, ix))).map (·.2)).getD ix

/-- The island of a node's element. -/
def Region.nodeIsl (r : Region) (el : Nat) : IslandId :=
  ⟨r.die, r.cluster (elCluster el), ⟨r.phys (elCluster el) (elType el) (elIndex el) % 4, Nat.mod_lt _ (by decide)⟩⟩

/-- The key of a streamer island (R408). -/
def streamKey (die : Fin 4) (cl : Fin 16) : IslandKey :=
  ⟨die, ⟨128 + cl.val, by have := cl.isLt; omega⟩⟩

/-- The clock island of a node; none for the units of a cluster or a die that stand on no island. -/
def Region.nodeKey (r : Region) (el : Nat) : Option IslandKey :=
  match elType el with
  | 0 => some (fabKey (r.nodeIsl el))
  | 1 => some (matKey (r.nodeIsl el))
  | 2 => some (streamKey r.die (r.cluster (elCluster el)))
  | _ => none

/-- Whether a node may start a firing: its region runs, its stage enables it, no pending switch stops it, and
its island's clock runs (R286, R290, R302). -/
def State.nodeRuns (s : State) (r : Region) (el : Nat) : Bool :=
  r.state.live && cfgOn r.config el && !r.stops el &&
    (r.nodeKey el).elim true fun k => (s.island k).running

/-! ### Ports -/

/-- The in ports of a node, ascending. -/
def Region.inPorts (r : Region) (el : Nat) : List Nat :=
  (List.range 16).filter fun p => (portCount r.config el p false).isSome

/-- The out ports of a node, ascending. -/
def Region.outPorts (r : Region) (el : Nat) : List Nat :=
  (List.range 16).filter fun p => (portCount r.config el p true).isSome

/-- The element and port at an end of a ring, region-relative. -/
def Region.ringEnd (r : Region) (id : RingId) (prod : Bool) : Nat × Nat :=
  portOf (r.field (ringElem id) (if prod then 1 else 2))

/-- The ring bound to a port: one whose consumer it is, or whose producer. -/
def State.ringOn (s : State) (rid el p : Nat) (prod : Bool) : Option Ring :=
  (s.region rid).bind fun r =>
    s.chan.rings.find? fun q => q.id.rid == rid && !q.saved && r.ringEnd q.id prod == (el, p)

/-- The ring bound to an in port. -/
def State.ringInto (s : State) (rid el p : Nat) : Option Ring := s.ringOn rid el p false

/-- The ring bound to an out port. -/
def State.ringFrom (s : State) (rid el p : Nat) : Option Ring := s.ringOn rid el p true

/-- The first tokens of a ring taken by a node, with the ring after it: one notice for all (R197). -/
def Ring.takeHead (q : Ring) (n : Nat) : Option (List Token × Ring) :=
  let ts := (q.slots.filter fun t => !t.gone && !t.res).take n
  if ts.length < n ∨ n = 0 then none
  else
    let last := (ts.getLast?).elim 0 (·.num)
    let f (t : Slot) : Slot :=
      if ts.any (·.num == t.num) then { t with gone := true, note := if t.num = last then n else 0 } else t
    some (ts.map (·.tok), { q with slots := q.slots.map f }.dropGone)

/-- Tokens that a node could take at an in port, in order. -/
def State.waitingAt (s : State) (rid el p : Nat) : List Token :=
  (s.ringInto rid el p).elim [] fun q => q.open_.map (·.tok)

/-- `n` tokens taken at an in port; none when fewer are there. -/
def State.takeAt (s : State) (rid el p n : Nat) : Option (List Token × State) :=
  (s.ringInto rid el p).bind fun q =>
    (q.takeHead n).map fun o => (o.1, s.modRing q.id fun _ => o.2)

/-- Whether `n` tokens may be pushed at an out port; a port with no ring takes any number. -/
def State.roomAt (s : State) (rid el p n : Nat) : Bool :=
  (s.ringFrom rid el p).elim true fun q => decide (n ≤ q.freeseen - q.fresv)

/-- Bytes of a slot at an out port. -/
def State.slotAt (s : State) (rid el p : Nat) : Option Nat := (s.ringFrom rid el p).map (·.slotsz)

/-- A token pushed at an out port, its slot filled up with zeros; a token longer than the slot is cut
(DEDUCED). With no ring there the token is lost. -/
def State.pushAt (s : State) (rid el p : Nat) (t : Token) : State :=
  match s.ringFrom rid el p with
  | some q => s.modRing q.id fun q => q.push { t with bytes := padTo q.slotsz t.bytes }
  | none => s

/-- Tokens pushed in order. -/
def State.pushAll (s : State) (rid el p : Nat) (ts : List Token) : State :=
  ts.foldl (fun s t => s.pushAt rid el p t) s

/-- A node's progress counted. -/
def Region.modRun (r : Region) (el : Nat) (f : NodeRun → NodeRun) : Region :=
  { r with nodes := f (r.run el) :: r.nodes.filter (·.el != el) }

/-- A node's run changed. -/
def State.modRun (s : State) (rid el : Nat) (f : NodeRun → NodeRun) : State :=
  s.modRegion rid fun r => r.modRun el f

/-- A firing counted, which is progress (R331). -/
def State.fired (s : State) (rid el : Nat) : State :=
  (s.modRun rid el fun u => { u with fired := u.fired + 1, winFired := u.winFired + 1 }).progress rid

/-- A fault of a node: reported with its element in place of a block (R169, R209). -/
def State.nodeFault (s : State) (r : Region) (el : Nat) (f : FaultInfo) : State :=
  s.deliver r.rid r.ctx (engineSource (r.nodeIsl el) 6 el) { f with element := el }

/-! ### Bridge endpoints (R281) -/

/-- Whether an element is a bridge endpoint. -/
def Region.isBridge (r : Region) (el : Nat) : Bool :=
  elKind el == some .endpoint && bits (r.field el 2) 1 0 == 0

/-- The region and element at the other end of a bridge: DEDUCED, the region of the same launch on the peer
die. -/
def State.bridgeEnd (s : State) (r : Region) (el : Nat) : Option (Region × Nat) :=
  let v := r.field el 1
  (s.kern.find? fun q => q.launch == r.launch && q.die.val == bits v 23 22 && q.state.live).map fun q =>
    (q, bits v 21 0)

/-- One token carried across a bridge when one waits and the peer's out ring has room. -/
def State.bridgeOne (s : State) (rid el : Nat) : State :=
  match s.region rid with
  | none => s
  | some r =>
    if !r.isBridge el || !s.nodeRuns r el then s
    else
      match s.bridgeEnd r el, (r.inPorts el)[0]? with
      | some (q, peer), some p =>
        match (q.outPorts peer)[0]? with
        | none => s
        | some o =>
          if !s.roomAt q.rid peer o 1 then s
          else match s.takeAt rid el p 1 with
            | some (ts, s) => (s.pushAll q.rid peer o ts).fired rid el
            | none => s
      | _, _ => s

/-- The bridges that touch a ring moved on: the one at its consumer, and those whose peer feeds it. -/
def State.bridgeRing (s : State) (id : RingId) : State :=
  match s.region id.rid with
  | some r =>
    let s := s.bridgeOne id.rid (r.ringEnd id false).1
    (s.kern.filter fun k => k.launch == r.launch).foldl (fun s k =>
      ((cfgKind k.config .endpoint).filter fun el => bits (k.field el 1) 21 0 == (r.ringEnd id true).1
        && bits (k.field el 1) 23 22 == r.die.val).foldl (fun s el => s.bridgeOne k.rid el) s) s
  | none => s

end Sys2Proof.Machine
end

