-- ==== Sys2Proof/Machine/JobsMem.lean ====
section
/-!
DEFINITION. The jobs of the streamer island (R166, R208-R214, R241, R245, R246): linear, tensor and ring-fed
copies, CPYB and the write-back of MRD, with their checks at dispatch and what they do at completion.
-/
namespace Sys2Proof.Machine

/-- What the checks of a job at dispatch come to: it starts, it fails ENGINE, or it waits. -/
inductive Check
  | go (f : Job → Job)
  | fail
  | wait

/-! ### Copy engines (R208) -/

/-- Whether a kind of job runs on a copy engine. -/
def JobKind.isCopy : JobKind → Bool
  | .copyLinear | .copyTensor | .copyRing | .cpyb => true
  | _ => false

/-- The copy engines of a cluster that copy and repeat nodes hold, by number: a repeat node's, and a ring-fed node's
while its job stands (R236, R281). -/
def State.nodeEngines (s : State) (die : Fin 4) (cl : Fin 16) : List Nat :=
  ((s.kern.filter fun r => r.die == die && (r.state.live || r.state == .frozen)).flatMap fun r =>
    (cfgKind r.config .copy).filterMap fun el =>
      if r.cluster (elCluster el) = cl && r.field el 1 == 1 then some (elNum el) else none)
    ++ (s.eng.jobs.filter fun j => j.die == die && j.cl == cl && j.req.kind.isCopy).filterMap fun j =>
      j.node.map fun n => elNum n.el.toNat

/-- The engines that are busy. -/
def State.busyEngines (s : State) (die : Fin 4) (cl : Fin 16) : List Nat :=
  s.nodeEngines die cl ++ (s.eng.jobs.filter fun j =>
    j.die == die && j.cl == cl && j.req.kind.isCopy && j.underWay).map (·.engine)

/-- The lowest-numbered free engine (R208). -/
def State.freeEngine (s : State) (die : Fin 4) (cl : Fin 16) : Option Nat :=
  (List.range 8).find? fun n => !(s.busyEngines die cl).contains n

/-- Engines that hold ring-fed jobs or nodes: at most six (R208, R236). -/
def State.ringEngines (s : State) (die : Fin 4) (cl : Fin 16) : Nat :=
  (s.nodeEngines die cl).length + (s.eng.jobs.filter fun j =>
    j.die == die && j.cl == cl && j.req.kind == .copyRing && j.node.isNone && j.underWay).length

/-- Whether a repeat node has an engine within the limit of six: the nodes before it and the ring-fed jobs under way
come first (R236). -/
def State.repeatHolds (s : State) (r : Region) (el : Nat) : Bool :=
  let cl := r.cluster (elCluster el)
  let before := (cfgKind r.config .copy).filter fun e =>
    decide (elNum e < elNum el) && r.cluster (elCluster e) == cl && r.field e 1 == 1
  let jobs := s.eng.jobs.filter fun j => j.die == r.die && j.cl == cl && j.req.kind == .copyRing && j.underWay
  decide (before.length + jobs.length < 6)

/-- A job started on the lowest free engine; it waits while there is none. -/
def State.onEngine (s : State) (j : Job) (f : Job → Job) : Check :=
  match j.node, s.freeEngine j.die j.cl with
  | some n, _ => .go fun j => f { j with engine := elNum n.el.toNat }
  | none, some e => .go fun j => f { j with engine := e }
  | none, none => .wait

/-- Whether a write of a range of a space falls in a mapped or a fenced bank group (R166, R419). -/
def State.hitsMapped (s : State) (die : Fin 4) (sp lo n : Nat) : Bool :=
  sp == 3 && n != 0 && (List.range 32).any fun g =>
    decide (lo < (g + 1) * 402653184) && decide (g * 402653184 < lo + n)
      && (s.groupMapped die g || (s.die die).fenced.any (·.val == g))

/-! ### Running a copy: reading, writing, pausing -/

/-- A job's addresses, as `wide` carries them, translated, with the marks made, and gone on with; a
failure pauses the job there, and a page being moved holds it (R358, R363). -/
def State.withHomes (s : State) (j : Job) (sp access : Nat) (as : List Nat) (f : List Nat → State → State) :
    State :=
  match s.jobHomes j.die j.cl j.ctx sp access as with
  | .held => s.modJob j.num fun j => { j with held := true }
  | .bad code page va => s.pauseJob j code page va
  | .fail code => s.failWith j code true
  | .ok hs es =>
    let s := s.countReq j.source.die j.source.strand
    f hs ((s.modJob j.num fun j => { j with held := false }).markAll j.die j.ctx es (access != 1))

/-- The record of a copy job (R209). -/
def copyRecord (j : Job) (credit clipped slots tick : Nat) : List Byte :=
  jobRecord j.req.code j.seqno.toNat 0 j.engine j.req.barByte (if clipped = 0 then 0 else 1) credit
    (clipped % 2 ^ 32 + slots % 2 ^ 32 * 2 ^ 32) tick

/-! ### Linear copies (R211) -/

/-- The checks of CPY at dispatch (R166, R211). -/
def State.checkLinear (s : State) (j : Job) : Check :=
  if s.hitsMapped j.die (j.req.arg 3) (j.req.arg 0 % 2 ^ 56) (j.req.arg 2) then .fail
  else s.onEngine j id

/-- A linear copy completes: every source byte is read before any destination byte is written (R211). -/
def State.finishLinear (s : State) (j : Job) : State :=
  let n := j.req.arg 2
  s.withHomes j (j.req.arg 4) 1 (addrs (wide (j.req.arg 1)) n) fun src s =>
    s.withHomes j (j.req.arg 3) 2 (addrs (wide (j.req.arg 0)) n) fun dst s =>
      (s.jobPut j (dst.zip (s.jobBytes j src))).completeJob j n (copyRecord j n 0 0 s.tick)

/-! ### Boxes of a tensor (R212) -/

/-- A tensor job's record: its fields by the names of R212. -/
structure Box where
  /-- bits 63:56 of BASE, and the address -/
  top  : Nat
  base : Nat
  fmt  : Nat
  ndim : Nat
  fill : Nat
  dim  : List Nat
  str  : List Int
  org  : List Int
  ext  : List Nat
  deriving DecidableEq, Repr, Inhabited

/-- The box of a record. -/
def boxOf (r : List Byte) : Box :=
  let n := fieldN r 9 1
  let ix := List.range n
  ⟨fieldN r 7 1, fieldN r 0 7, fieldN r 8 1, n, fieldN r 12 4, ix.map fun i => fieldN r (16 + 3 * i) 3,
    ix.map fun i => toSigned 48 (fieldN r (32 + 6 * i) 6), ix.map fun i => toSigned 32 (fieldN r (64 + 4 * i) 4),
    ix.map fun i => fieldN r (84 + 2 * i) 2⟩

/-- The width of a box's elements. -/
def Box.w (b : Box) : Nat := codeWidth b.fmt

/-- Elements of a box. -/
def Box.count (b : Box) : Nat := b.ext.foldl (· * ·) 1

/-- Dense bytes of a box (R212). -/
def Box.bytes (b : Box) : Nat := ceilDiv (b.count * b.w) 8

/-- The box that slot `k` of a ring-fed copy receives (R213). -/
def Box.slot (b : Box) (ax k : Nat) : Box :=
  { b with org := b.org.zipIdx.map fun p => if p.2 = ax then p.1 + k * ((b.ext[ax]?).getD 0 : Nat) else p.1 }

/-- Whether a record breaks R212 in itself: a reserved byte or an unused field, NDIM, FMT, an extent, or an
odd 4-bit box. -/
def boxBad (r : List Byte) : Bool :=
  let b := boxOf r
  let unused := (List.range 5).filter fun i => decide (b.ndim ≤ i)
  fieldN r 10 2 != 0 || fieldN r 31 1 != 0 || fieldN r 62 2 != 0 || fieldN r 94 2 != 0
    || b.ndim == 0 || decide (5 < b.ndim) || decide (0x15 < b.fmt) || (decide (0x08 < b.fmt) && decide (b.fmt < 0x0f))
    || b.ext.any (· == 0)
    || unused.any (fun i => fieldN r (16 + 3 * i) 3 != 0 || fieldN r (32 + 6 * i) 6 != 0
        || fieldN r (64 + 4 * i) 4 != 0 || fieldN r (84 + 2 * i) 2 != 0)
    || (b.w == 4 && (b.ext.headD 0 % 2 != 0 || b.org.headD 0 % 2 != 0))

/-- The place of a box's elements in dense order: none for a clipped one, else its byte address, which may lie
anywhere, and whether it is the high nibble (R212). -/
def Box.places (b : Box) : List (Option (Int × Bool)) :=
  (List.range b.count).map fun e =>
    let ys := (b.ext.foldl (fun (p : Nat × List Nat) n => (p.1 / n, p.2 ++ [p.1 % n])) (e, [])).2
    let xs := (b.org.zip ys).map fun p => p.1 + (p.2 : Int)
    if (xs.zip b.dim).any fun p => decide (p.1 < 0) || decide ((p.2 : Int) ≤ p.1) then none
    else
      let x0 := xs.headD 0
      let ws := if b.w = 4 then (x0 / 2) :: xs.drop 1 else xs
      some ((ws.zip b.str).foldl (fun a p => a + p.1 * p.2) (b.base : Int), b.w = 4 && x0 % 2 != 0)

/-- Bytes of one element. -/
def Box.unit (b : Box) : Nat := max 1 (b.w / 8)

/-- Whether a handle as captured is valid, of the space named, and gives the right named (R212). -/
def handleGives (hs : Vector Handle 16) (k sp : Nat) (perm : Perm) : Bool :=
  let h := hs[k % 16]'(Nat.mod_lt _ (by decide))
  h.v && h.space == BitVec.ofNat 3 sp && h.grants perm

/-- Whether every unclipped element's bytes pass a handle (R212). -/
def Box.inside (b : Box) (hs : Vector Handle 16) (k sp : Nat) (perm : Perm) : Bool :=
  b.places.all fun p => match p with
    | none => true
    | some (a, _) => decide (0 ≤ a) && handleOk hs k sp perm a.toNat b.unit

/-- Clipped elements of a box. -/
def Box.clipped (b : Box) : Nat := (b.places.filter (·.isNone)).length

/-- The tensor bytes of a box's unclipped elements, in dense order, with bits 63:56 of BASE. -/
def Box.addrs (b : Box) : List Nat :=
  b.places.flatMap fun p => match p with
    | none => []
    | some (a, _) => (List.range b.unit).map (b.top * 2 ^ 64 + a.toNat + ·)

/-- The elements of a box from its tensor bytes: FILL where clipped (R212). -/
def pullElems (w unit fill : Nat) : List (Option (Int × Bool)) → List Byte → List Nat
  | [], _ => []
  | none :: ps, bs => fill % 2 ^ w :: pullElems w unit fill ps bs
  | some (_, hi) :: ps, bs =>
    let v := leNat (bs.take unit)
    (if w = 4 then (if hi then v / 16 else v % 16) else v) :: pullElems w unit fill ps (bs.drop unit)

/-- Dense bytes of elements in the packing of R90. -/
def denseBytes (w : Nat) (es : List Nat) : List Byte := leBytes (ceilDiv (es.length * w) 8) (packLane w es)

/-- Elements of dense bytes. -/
def denseElems (w n : Nat) (bs : List Byte) : List Nat :=
  let v := leNat bs
  (List.range n).map fun e => v / 2 ^ (w * e) % 2 ^ w

/-- The tensor bytes that a store of elements leaves: a nibble alone keeps the other one of its byte. -/
def pushElems (w unit : Nat) : List (Option (Int × Bool)) → List Nat → List Byte → List Byte
  | none :: ps, _ :: es, old => pushElems w unit ps es old
  | some (_, hi) :: ps, e :: es, old =>
    let o := leNat (old.take 1)
    (if w = 4 then leBytes 1 (if hi then o % 16 + 16 * e else o / 16 * 16 + e) else leBytes unit e)
      ++ pushElems w unit ps es (old.drop unit)
  | _, _, _ => []

/-- Consecutive writes of one byte's two nibbles joined: the high nibble of the later with the low of the
earlier. -/
def joinNibbles : List (Nat × Byte × Bool) → List Host.Cell
  | (h, b, false) :: (k, c, true) :: rest =>
    if h = k then (h, BitVec.ofNat 8 (c.toNat / 16 * 16 + b.toNat % 16)) :: joinNibbles rest
    else (h, b) :: joinNibbles ((k, c, true) :: rest)
  | (h, b, _) :: rest => (h, b) :: joinNibbles rest
  | [] => []

/-- The checks of CPYT at dispatch (R212, R166). -/
def State.checkTensor (s : State) (j : Job) : Check :=
  let b := boxOf j.req.bytes
  let store := j.req.arg 5 != 0
  let d := j.req.arg 0 % 2 ^ 56
  if boxBad j.req.bytes || !handleGives j.req.hs (j.req.arg 3) (j.req.arg 1) (if store then .store else .load)
      || !b.inside j.req.hs (j.req.arg 3) (j.req.arg 1) (if store then .store else .load)
      || !handleOk j.req.hs (j.req.arg 4) (j.req.arg 2) (if store then .load else .store) d b.bytes
      || (!store && s.hitsMapped j.die (j.req.arg 2) d b.bytes) then .fail
  else s.onEngine j id

/-- A tensor copy completes (R212). -/
def State.finishTensor (s : State) (j : Job) : State :=
  let b := boxOf j.req.bytes
  let d := addrs (wide (j.req.arg 0)) b.bytes
  let fin (s : State) (cells : List Host.Cell) : State :=
    (s.jobPut j cells).completeJob j b.bytes (copyRecord j b.bytes b.clipped 0 s.tick)
  if j.req.arg 5 = 0 then
    s.withHomes j (j.req.arg 1) 1 b.addrs fun src s =>
      s.withHomes j (j.req.arg 2) 2 d fun dst s =>
        fin s (dst.zip (denseBytes b.w (pullElems b.w b.unit b.fill b.places (s.jobBytes j src))))
  else
    s.withHomes j (j.req.arg 2) 1 d fun src s =>
      s.withHomes j (j.req.arg 1) 2 b.addrs fun dst s =>
        let es := denseElems b.w b.count (s.jobBytes j src)
        let new := pushElems b.w b.unit b.places es (s.jobBytes j dst)
        if b.w = 4 then
          let his := b.places.filterMap fun p => p.map (·.2)
          fin s (joinNibbles ((dst.zip (new.zip his)).map fun p => (p.1, p.2.1, p.2.2)))
        else fin s (dst.zip new)

/-! ### Ring-fed copies (R213, R214) -/

/-- The checks of CPYQ at dispatch: those of a load into every slot, and a box no longer than the slot. A
node's slots, whose number may have no limit, are checked one by one as they are written. -/
def State.checkRing (s : State) (j : Job) : Check :=
  let b := boxOf j.req.bytes
  let n := j.req.arg 0
  match j.req.ring.bind fun p => s.ring p.1 with
  | none => .wait
  | some q =>
    let slots := if j.node.isSome then [] else List.range n
    if boxBad j.req.bytes || decide (q.slotsz < b.bytes)
        || !handleGives j.req.hs (j.req.arg 3) (j.req.arg 2) .load || !slots.all (fun k => (b.slot (j.req.arg 1) k).inside j.req.hs (j.req.arg 3) (j.req.arg 2) .load) then
      .fail
    else if j.node.isNone && decide (6 ≤ s.ringEngines j.die j.cl) then .wait
    else s.onEngine j fun j => { j with nextK := 0, left := n }

/-- Whether a ring-fed copy has slots left; a node of COUNT 0 has no limit (R281). -/
def Job.feeds (j : Job) : Bool := j.left != 0 || (j.node.isSome && j.req.arg 0 == 0)

/-- Whether a pending switch stops the copy node that a job belongs to (R290). -/
def State.nodeStopped (s : State) (j : Job) : Bool :=
  match j.node, s.region j.rid with
  | some n, some r => r.stops n.el.toNat
  | _, _ => false

/-- COPY_SLOT_START: a ring-fed engine writes its next slot when there is demand (R196, R197, R213). -/
def State.feedSlot (s : State) (n : Nat) : State :=
  match s.job n with
  | none => s
  | some j =>
    match j.req.ring.bind fun p => s.ring p.1 with
    | none => s
    | some q =>
      let b := (boxOf j.req.bytes).slot (j.req.arg 1) j.nextK
      if !j.goes || !j.feeds || q.freeseen - q.fresv = 0 || !s.jobsRun j.rid || s.nodeStopped j then s
      else if j.node.isSome && !b.inside j.req.hs (j.req.arg 3) (j.req.arg 2) .load then s.failWith j .engine true
      else
        s.withHomes j (j.req.arg 2) 1 b.addrs fun src s =>
          let bs := denseBytes b.w (pullElems b.w b.unit b.fill b.places (s.jobBytes j src))
          let tag := (Fmt.ofCode (BitVec.ofNat 5 b.fmt)).getD .raw
          let s := s.modRing q.id fun q => q.push ⟨tag, padTo q.slotsz bs⟩
          let s := s.modJob n fun j =>
            { j with state := .running, nextK := j.nextK + 1, left := j.left - 1, clipped := j.clipped + b.clipped }
          let s := s.progress j.rid
          match j.node with
          | none => s
          | some nd =>
            (s.modRegion j.rid fun r => r.modRun nd.el.toNat fun u =>
              { u with iter := [u.iter.headD 0 + 1], fired := u.fired + 1, winFired := u.winFired + 1 }).checkDraining
                j.rid

/-- Slots written while demand lasts. -/
def State.feedSlots : Nat → Nat → State → State
  | 0, _, s => s
  | k + 1, n, s => State.feedSlots k n (s.feedSlot n)

/-- The ring-fed job of a ring that is under way. -/
def State.feeder (s : State) (r : RingId) : Option Nat :=
  (s.eng.jobs.find? fun j =>
    j.req.kind == .copyRing && j.underWay && (j.req.ring.map (·.1)) == some r).map (·.num)

/-- A ring-fed copy completes when every slot has been written, its last token in the ring (R209, R213): s(B) boxes
credited. -/
def State.finishRing (s : State) (j : Job) : State :=
  if j.feeds then s.feedSlots 256 j.num
  else if (j.req.ring.bind fun p => s.ring p.1).elim false fun q => !q.transit.isEmpty then s
  else
    let credit := j.req.arg 0 * (boxOf j.req.bytes).bytes
    s.completeJob j credit (copyRecord j credit j.clipped (j.req.arg 0) s.tick)

/-- COPY_JOB_COMPLETE (R209). -/
def execCopyJobComplete (s : State) : Out :=
  match s.arg with
  | .num n =>
    match s.job n with
    | none => .next s
    | some j =>
      if !j.goes || !s.jobsRun j.rid then .next s
      else match j.req.kind with
        | .copyLinear => .next (s.finishLinear j)
        | .copyTensor => .next (s.finishTensor j)
        | .copyRing => .next (s.finishRing j)
        | _ => .next s
  | _ => .next s

/-! ### CPYB (R245, R246) -/

/-- The slice bytes a CPYB fills: their first and how many. -/
def cpybRange (j : JobReq) : Nat × Nat :=
  (j.arg 3 % 65536, ceilDiv (j.arg 4 * cpybWidth (j.arg 6) (j.arg 5)) 8)

/-- Whether a format suits a kind of CPYB: an operand format of R226 for values, e8m0 for scales, uint16 for
masks. -/
def cpybSuits (kind fmt : Nat) : Bool :=
  match kind with
  | 0 => decide (fmt ≤ 0x0f)
  | 1 => fmt == 0x16
  | _ => fmt == 0x13

/-- The live entries of a replay log that a CPYB leaves: those whose range it does not wholly cover (R246). -/
def replayKept (l : List ReplayEntry) (cl : Fin 16) (j : JobReq) : List ReplayEntry :=
  let (lo, n) := cpybRange j
  let m := bits (j.arg 3) 19 16
  l.filter fun e =>
    !(e.cl == cl && e.isls.toNat &&& m == e.isls.toNat && decide (lo ≤ e.lo) && decide (e.hi ≤ lo + n))

/-- A replay log with a CPYB entered at its end (R246). -/
def replayAdd (l : List ReplayEntry) (cl : Fin 16) (j : JobReq) : List ReplayEntry :=
  let (lo, n) := cpybRange j
  replayKept l cl j ++ [⟨cl, j, BitVec.ofNat 4 (bits (j.arg 3) 19 16), lo, lo + n⟩]

/-- The replay log of a region as the CPYBs that are under way leave it (R246). -/
def State.replayAhead (s : State) (r : Region) : List ReplayEntry :=
  (s.eng.jobs.filter fun j => j.rid == r.rid && j.req.kind == .cpyb && j.underWay).foldl
    (fun l j => replayAdd l j.rc j.req) r.replay

/-- The checks of CPYB at dispatch (R245, R246). DEDUCED: a row count outside 1 to 49,152 faults too. -/
def State.checkCpyb (s : State) (j : Job) : Check :=
  let (lo, n) := cpybRange j.req
  let rows := j.req.arg 4
  let full : Bool := (s.region j.rid).elim true fun r => decide (256 < (replayAdd (s.replayAhead r) j.rc j.req).length)
  if bits (j.req.arg 3) 19 16 = 0 || decide (49152 < lo + n) || bits (j.req.arg 3) 63 20 != 0
      || !cpybSuits (j.req.arg 6) (j.req.arg 5) || rows == 0 || decide (49152 < rows) || full then .fail
  else s.onEngine j id

/-- The B-store cells that rows of 128 elements fill (R245, R227). -/
def cpybCells (s : State) (i : IslandId) (lo w rows : Nat) (bs : List Byte) : List Host.Cell :=
  let n := ceilDiv (rows * w) 8
  (List.range 128).flatMap fun col =>
    let es := (List.range rows).map fun r => leNat ((bs.drop (r * 16 * w + col * w / 8)).take (max 1 (w / 8)))
    let es := if w = 4 then es.map fun e => if col % 2 = 0 then e % 16 else e / 16 else es
    let new := denseBytes w es
    let new := if w = 4 && rows % 2 != 0 then
        let old : Nat := (smGet 0 s.mem.cells (homeB i col (lo + n - 1)) : Byte).toNat
        new.take (n - 1) ++ leBytes 1 (old / 16 * 16 + (es.getLastD 0))
      else new
    cellsAt (homeB i col lo) new

/-- B-store slices filled from source bytes. -/
def State.fillB (s : State) (die : Fin 4) (cl : Fin 16) (j : JobReq) (bs : List Byte) : State :=
  let (lo, _) := cpybRange j
  ((List.finRange 4).filter fun i => bit (bits (j.arg 3) 19 16) i.val).foldl (fun s i =>
    s.poke (cpybCells s ⟨die, cl, i⟩ lo (cpybWidth (j.arg 6) (j.arg 5)) (j.arg 4) bs)) s

/-- CPYB_COMPLETE (R245, R246). -/
def execCpybComplete (s : State) : Out :=
  match s.arg with
  | .num n =>
    match s.job n with
    | none => .next s
    | some j =>
      if j.req.kind ≠ .cpyb ∨ !j.goes ∨ !s.jobsRun j.rid then .next s
      else
        let bytes := j.req.arg 4 * 16 * cpybWidth (j.req.arg 6) (j.req.arg 5)
        .next (s.withHomes j (j.req.arg 1) 1 (addrs (wide (j.req.arg 0)) bytes) fun src s =>
          let s := s.fillB j.die j.cl j.req (s.jobBytes j src)
          let s := s.modRegion j.rid fun r => { r with replay := replayAdd r.replay j.rc j.req }
          s.completeJob j bytes (copyRecord j bytes 0 0 s.tick))
  | _ => .next s

/-! ### The write-back of MRD (R241) -/

/-- The cells of an image of 128 rows in cluster store. -/
def imageCells (j : Job) : List Host.Cell :=
  let n := j.req.arg 2
  (List.range 128).flatMap fun r =>
    cellsAt (homeCluster j.die j.cl ((j.req.arg 0 + r * j.req.arg 1) % 2 ^ 24)) ((j.req.bytes.drop (r * n)).take n)

/-- MRD_WRITEBACK_COMPLETE: the image captured by the block is written and published at .scluster (R241). -/
def execMrdWritebackComplete (s : State) : Out :=
  match s.arg with
  | .num n =>
    match s.job n with
    | none => .next s
    | some j =>
      if j.req.kind ≠ .mrdWrite ∨ !j.goes ∨ !s.jobsRun j.rid then .next s
      else .next ((s.jobPut j (imageCells j)).endJob j)
  | _ => .next s

end Sys2Proof.Machine
end

