-- ==== Sys2Proof/Machine/Rings.lean ====
section
/-!
DEFINITION. What arrives on the channel network and the barrier network: tokens (R195, R198), carried on
across bridges (R281), with the stage triggers and the first push at the stage output (R286, R288, R289), freed-slot notices (R197), barrier events
(R216-R219) and EVPUSH records (R318, R322).
-/
namespace Sys2Proof.Machine

/-! ### Switch requests (R288-R290) -/

/-- A STAGE record (R391). -/
def State.stageRecord (s : State) (r : Region) (code from_ into : Nat) : State :=
  s.record (unitId r.firstIsland 1 0) (some r.ctx) 8 code 8
    (leBytes 1 from_ ++ leBytes 1 into ++ leBytes 2 0 ++ leBytes 4 r.switches.toNat)

/-- A switch request reaches the loader: the first sets PEND and TARGET, one that finds PEND set is ignored (R289). Of
the requests of one tick a trigger comes before STAGE, and the lower stage's trigger first (R288, R289): `place` is its
place among them. -/
def State.requestStage (s : State) (rid : Nat) (k : Fin 8) (place : Nat) : State :=
  match s.region rid with
  | none => s
  | some r =>
    let take (s : State) : State :=
      (s.modRegion rid fun r => { r with pend := true, target := k, pendAt := (s.tick, place) }).stageRecord r 2 r.cur.val k.val
    if !r.pend then take s
    else if r.pendAt.1 == s.tick && decide (place < r.pendAt.2) then take (s.stageRecord r 1 r.cur.val r.target.val)
    else s.stageRecord r 1 r.cur.val k.val

/-- The trigger element of stage `k` in a region cluster. -/
def triggerEl (rc k : Nat) : Nat := elAddr rc 3 0 (0x300 + k)

/-- Whether a trigger is armed (R288). -/
def Region.armed (r : Region) (el : Nat) : Bool :=
  let k := elNum el - 0x300
  cfgOn r.config el && k != r.cur.val && cfgOn r.config (portOf (r.field el 1)).1

/-- The armed triggers of a region, by stage and then by cluster. -/
def Region.armedTriggers (r : Region) : List Nat :=
  ((List.range 8).flatMap fun k => (List.range 16).map fun c => triggerEl c k).filter r.armed

/-- The place of a trigger's counter in a region's list. -/
def trigIx (el : Nat) : Nat := elCluster el * 8 + (elNum el - 0x300)

/-- A list with one entry replaced, made long enough with zeros. -/
def putAt (l : List Nat) (k v : Nat) : List Nat := (l ++ List.replicate (k + 1 - l.length) 0).set k v

/-- A push at a port counted by the triggers armed there; one whose count comes to COUNT requests its switch,
the lowest stage first (R288). -/
def State.countPush (s : State) (rid port : Nat) : State :=
  match s.region rid with
  | none => s
  | some r =>
    let ts := r.armedTriggers.filter fun el => r.field el 1 == port
    ts.foldl (fun s el =>
      let n := ((s.region rid).elim 0 fun r => (r.trig[trigIx el]?).getD 0) + 1
      let s := s.modRegion rid fun r => { r with trig := putAt r.trig (trigIx el) n }
      if n = r.field el 2 then
        s.requestStage rid ⟨(elNum el - 0x300) % 8, Nat.mod_lt _ (by decide)⟩ (elNum el - 0x300)
      else s) s

/-- The element of the rate fields (R282). -/
def rateEl : Nat := elAddr 0 4 1 0

/-- Whether a port is the output of the current stage: the `.rate` port when the stage enables its node, else
the port of a trigger that leaves the stage (R285). -/
def Region.isOutput (r : Region) (port : Nat) : Bool :=
  let out := r.field rateEl 1
  if cfgOn r.config (portOf out).1 then port == out
  else r.armedTriggers.any fun el => r.field el 1 == port

/-- The first push at the stage output ends FILLING (R286). -/
def State.outputPush (s : State) (rid port : Nat) : State :=
  s.modRegion rid fun r =>
    if r.state == .filling && r.isOutput port then { r with state := .steady } else r

/-- RING_TOKEN_ARRIVAL: the oldest token under way lands in its slot and WP goes forward (R195, R198). -/
def execRingTokenArrival (s : State) : Out :=
  match s.arg with
  | .ring id =>
    match s.ring id with
    | none => .next s
    | some q =>
      match q.transit with
      | [] => .next s
      | t :: rest =>
        if q.saved then .next s
        else
          let s := s.modRing id fun q =>
            { q with
              transit := rest, slots := q.slots ++ [{ tok := t, num := q.arrived }], arrived := q.arrived + 1
              pushes := q.pushes + 1, winPush := q.winPush + 1 }
          let port := (s.region id.rid).elim 0 fun r => r.field (ringElem id) 1
          .next ((((s.countPush id.rid port).outputPush id.rid port).progress id.rid).bridgeRing id)
  | _ => .next s

/-- FREED_SLOT_NOTICE: the oldest notice under way adds its slots to FREESEEN, and a copy engine that feeds
the ring goes on (R197, R213). -/
def execFreedSlotNotice (s : State) : Out :=
  match s.arg with
  | .ring id =>
    match s.ring id with
    | none => .next s
    | some q =>
      match q.notices with
      | [] => .next s
      | n :: rest =>
        if q.saved then .next s
        else
          let s := s.modRing id fun q => { q with notices := rest, freeseen := q.freeseen + n }
          match s.feeder id with
          | some j => .next (s.feedSlots n j)
          | none => .next (s.bridgeRing id)
  | _ => .next s

/-! ### Barrier events (R216-R219) -/

/-- The completion test (R216): the object after it, and whether it completed. -/
def BarObj.test (b : BarObj) : BarObj × Bool :=
  if !b.ovf && b.arr == b.exparr && b.bytes == (b.expbytes : Int) then
    ({ b with phase := !b.phase, arr := 0, bytes := 0 }, true)
  else (b, false)

/-- Counts after arrivals and bytes, none where the event is refused (R218). -/
def BarObj.count (b : BarObj) (arr : Nat) (n : Int) : Option BarObj :=
  let bytes := b.bytes + n
  if b.exparr < b.arr + arr || decide (bytes < -(2 ^ 43 : Int)) || decide ((2 ^ 43 : Int) ≤ bytes) then none
  else some { b with arr := b.arr + arr, bytes := bytes }

/-- An event's change, none where it is refused (R216, R218). -/
def BarObj.apply (b : BarObj) : BarEvent → Option BarObj
  | .arrive n => b.count 1 n
  | .credit n => b.count 0 n
  | .debit n => b.count 0 (-(n : Int))
  | .debitArrive n => b.count 1 (-(n : Int))
  | .init x y => some ⟨false, false, x, 0, y, 0⟩

/-- The barrier of an index. -/
def State.barrier (s : State) (b : BarId) : Option Barrier := s.chan.bars.find? (·.id == b)

/-- A barrier's object replaced. -/
def State.setBar (s : State) (b : BarId) (o : BarObj) : State :=
  { s with chan := { s.chan with bars := modFirst (·.id == b) (fun q => { q with obj := o }) s.chan.bars } }

/-- The kind of a barrier event as a number, in the order of R216's table. -/
def BarEvent.kind : BarEvent → Nat
  | .arrive _ => 0
  | .credit _ => 1
  | .debit _ => 2
  | .debitArrive _ => 3
  | .init .. => 4

/-- The recorder of the Gaffer core of the island that sends a barrier event (R391): its strand's island, or, for an
engine's, the one that its source names. -/
def BarMsg.recorder (m : BarMsg) : BitVec 20 :=
  match m.sender with
  | some t => unitId t.seq.isl 1 0
  | none => m.src.unit

/-- A BARRIER record (R391). -/
def State.barRecord (s : State) (m : BarMsg) (c : BitVec 12) (code : Nat) (o : BarObj) : State :=
  s.record m.recorder (some c) 5 code 8
    (leBytes 1 m.bar.ix.val ++ leBytes 1 (if o.phase then 1 else 0) ++ leBytes 2 o.arr ++ leBytes 4 0
      ++ leBytes 8 (ofInt 64 o.bytes))

/-- A refused event faults BARRIER_STATE: against its strand's next block boundary, or for an engine at
once. The report names the barrier index in its auxiliary field and the event kind in its element field; the
sending unit is the strand field of the record (R218, R343). -/
def State.refuseBar (s : State) (m : BarMsg) (c : BitVec 12) : State :=
  let f : FaultInfo := { code := .barrierState, aux := m.bar.ix.val, element := m.ev.kind }
  match m.sender with
  | some t => s.lateFault t m.bar.rid c { f with block := m.block, index := m.index }
  | none => s.deliver m.bar.rid c m.src f

/-- An earlier event of the same unit still under way: events from one unit arrive in order (R217). -/
def State.barBehind (s : State) (m : BarMsg) : Bool :=
  s.chan.msgs.any fun k =>
    k.sender == m.sender && k.src.die == m.src.die && k.src.strand == m.src.strand && decide (k.num < m.num)

/-- BARRIER_EVENT: one event reaches its barrier, once the strand's publications have completed (R219), and
is applied or refused, followed by the completion test (R216). -/
def execBarrierEvent (s : State) : Out :=
  match s.arg with
  | .num n =>
    match s.chan.msgs.find? (·.num == n) with
    | none => .next s
    | some m =>
      if !s.pubsDone m.pubs || s.barBehind m then .next s
      else
        match s.barrier m.bar with
        | none => .next { s with chan := { s.chan with msgs := s.chan.msgs.filter (·.num != n) } }
        | some b =>
          if b.saved then .next s
          else
            let s := { s with chan := { s.chan with msgs := s.chan.msgs.filter (·.num != n) } }
            match b.obj.apply m.ev with
            | none =>
              let o := { b.obj with ovf := true }
              .next (((s.setBar m.bar o).barRecord m b.ctx 1 o).refuseBar m b.ctx)
            | some o =>
              let (t, full) := o.test
              let s := s.setBar m.bar t
              let s := match m.ev with
                | .init .. => s.barRecord m b.ctx 2 o
                | _ => s
              .next ((if full then s.barRecord m b.ctx 0 t else s).progress m.bar.rid)
  | _ => .next s

/-! ### EVPUSH records (R318, R322) -/

/-- An earlier record of the same strand still under way to the same queue: it enters first (R217, R318). -/
def State.pushBehind (s : State) (p : EventPending) : Bool :=
  s.fab.pushes.any fun q => q.by_ == p.by_ && q.dest == p.dest && decide (q.num < p.num)

/-- EVPUSH_RECORD_ENTRY: a record enters its reserved entry once its strand's publications have completed
(R322). -/
def execEvpushRecordEntry (s : State) : Out :=
  match s.arg with
  | .num n =>
    match s.fab.pushes.find? (·.num == n) with
    | none => .next s
    | some p =>
      if !s.pubsDone p.pubs || s.pushBehind p then .next s
      else
        let s := { s with fab := { s.fab with pushes := s.fab.pushes.filter (·.num != n) } }
        let s := s.postEvent p.dest p.recd true
        let rid := (s.fab.gangs.find? fun g => g.seq.isl == p.dest).map (·.rid)
        .next (rid.elim s s.progress)
  | _ => .next s

end Sys2Proof.Machine
end

