-- ==== Sys2Proof/Machine/JobsTile.lean ====
section
/-!
DEFINITION. Tile tasks and MZERO from dispatch to completion (R226-R233, R239): the checks of their record, the
choice of a slot, the array, and the sums of R103.
-/
namespace Sys2Proof.Machine

/-! ### The record (R226-R230) -/

/-- A format of a record's code. -/
def codeFmt (c : Nat) : Fmt := (Fmt.ofCode (BitVec.ofNat 5 c)).getD .raw

/-- ASRC of a record. -/
def taskSrc (r : List Byte) : Nat := bits (fieldN r 4 1) 4 3

/-- Whether a record is one of R230's, its operands aside; `task` says that TASK submitted it (R335). -/
def taskBad (r : List Byte) (task : Bool) : Bool :=
  let kind := fieldN r 0 2
  let fa := fieldN r 2 1
  let fb := fieldN r 3 1
  let fl := fieldN r 4 1
  let nsp := fieldN r 7 1
  let k := fieldN r 8 2
  let zero := kind == 0x12
  kind < 0x10 || 0x12 < kind || decide (0x0f < fa) || decide (0x0f < fb)
    || taskSrc r == 3 || (task && taskSrc r == 1) || !(nsp == 0 || nsp == 3 || nsp == 4 || nsp == 6)
    || (fieldN r 12 2 != 0 && !codeMx fb) || (fieldN r 14 2 != 0 && kind != 0x11)
    || decide ([7, 30, 0].getD (taskSrc r) 0 < fieldN r 16 1) || fieldN r 20 4 % 16 != 0 || fieldN r 24 8 % 16 != 0
    || bits fl 7 5 != 0 || bits (fieldN r 5 1) 7 2 != 0
    || (!bit fl 2 && decide (31 < fieldN r 6 1)) || fieldN r 17 1 == 0 || bits (fieldN r 17 1) 7 4 != 0
    || bits (fieldN r 18 1) 7 4 != 0 || fieldN r 19 1 != 0 || !zeroIn r 48 16
    || (!zero &&
      (!arrayPair (codeFmt fa) (codeFmt fb)
        || (if kind = 0x10 then nsp != 0 || k % 32 != 0 || k < 32 || decide (8192 < k)
            else !(nsp == 3 || nsp == 4 || nsp == 6) || k % 96 != 0 || k < 96 || decide (6144 < k))
        || (taskSlices r).any fun p => decide (49152 < p.1 + p.2)))

/-- The name a task names. -/
def Job.acc (j : Job) : Fin 4 := ⟨j.req.arg 0 % 4, Nat.mod_lt _ (by decide)⟩

/-- How a task's name stands. -/
def State.accState (s : State) (j : Job) : AccName :=
  ((j.owner.bind s.strand).map fun st => st.regs.acc[j.acc]).getD .unbound

/-- The cluster bytes of a cluster-store A: the rows, and the scales of an MX A (R230). -/
def taskASpans (r : List Byte) : List (Nat × Nat) :=
  (List.range 128).flatMap fun i =>
    (ptr (fieldN r 24 8) + i * fieldN r 20 4, taskRowBytes r)
      :: (if codeMx (fieldN r 2 1) then [(ptr (fieldN r 32 8) + i * (fieldN r 8 2 / 32), fieldN r 8 2 / 32)] else [])

/-- Whether a task's A is what its record says (R230). DEDUCED: a record's tile that is not allocated, or whose
tag is not FMTA, faults ENGINE at dispatch as any other failed check does. -/
def State.taskABad (s : State) (j : Job) : Bool :=
  let r := j.req.bytes
  match taskSrc r with
  | 0 =>
    let n := ((j.owner.bind s.strand).map (·.ntiles)).getD 0
    (match j.req.tile with
     | some t => decide (n ≤ fieldN r 16 1) || t.tag != codeFmt (fieldN r 2 1)
         || decide (rowLen (codeFmt (fieldN r 2 1)) < fieldN r 8 2)
     | none => true)
  | 1 => j.req.ring.isNone
  | _ => !(taskASpans r).all fun p => handleOk j.req.hs (fieldN r 18 1) 1 .load p.1 p.2

/-! ### The slot (R229, R231) -/

/-- Whether a region's stage binds a matrix island of a cluster to the stream entrance (R282). -/
def Region.streamBound (r : Region) (rc isl : Nat) : Bool :=
  let el := elAddr rc 3 0 0x310
  cfgOn r.config el && bit (r.field el 1) isl

/-- The slot a task with Z takes: a FREE one of the eligible island whose sensor reads lowest (R231). -/
def State.coolest (s : State) (j : Job) (mask : Nat) : Option (Fin 4 × Fin 4) :=
  let isl (i : Fin 4) : IslandId := ⟨j.die, j.cl, i⟩
  let ok (i : Fin 4) : Bool :=
    bit mask i.val && !((s.region j.rid).elim false fun r => r.streamBound j.rc.val i.val)
      && (s.mat (isl i)).slots.toList.any (·.state == .free)
  let best := ((List.finRange 4).filter ok).foldl (fun (b : Option (Fin 4)) i =>
    match b with
    | none => some i
    | some k =>
      if (s.sensor (sensorOf (matKey (isl i)))).toInt < (s.sensor (sensorOf (matKey (isl k)))).toInt then some i
      else b) none
  match best with
  | none => none
  | some i => ((List.finRange 4).find? fun k => ((s.mat (isl i)).slots[k]).state == .free).map fun k => (i, k)

/-- A TASK record of the recorder at a matrix island (R391). -/
def State.taskRec (s : State) (j : Job) (code : Nat) : State :=
  s.record (unitId ⟨j.die, j.cl, j.island⟩ 2 0) (some j.ctx) 6 code 8
    (leBytes 2 (j.req.fld 0 2) ++ leBytes 2 j.seqno.toNat ++ leBytes 1 j.slot.val ++ leBytes 3 0
      ++ leBytes 8 (j.req.fld 40 8))

/-- The token that a task took, as it stands in its ring (R232). -/
def State.taken (s : State) (j : Job) : Option Token :=
  j.req.ring.bind fun p => (s.ring p.1).bind fun q => (q.slots.find? (·.num == p.2)).map (·.tok)

/-- The token a task took leaves its ring: its slot is freed and its notice sent (R232). -/
def State.popTaken (s : State) (j : Job) : State :=
  match j.req.kind, j.req.ring with
  | .task, some (id, n) =>
    let f (t : Slot) : Slot := if t.num = n then { t with gone := true, res := false, note := 1 } else t
    (s.modRing id fun q => { q with slots := q.slots.map f }.dropGone).progress id.rid
  | _, _ => s

/-- The completion record of a task (R232). The spec states no engine number for it, so byte 5 is free. -/
def taskDone (s : State) (j : Job) (status : Nat) : List Byte :=
  jobRecord (j.req.fld 0 2) j.seqno.toNat status ((Config.freeWord s.free).toNat % 256) j.req.barByte 0
    (j.req.fld 40 8) (j.island.val + 256 * j.slot.val + 65536 * j.req.fld 8 2) s.tick

/-- A task that fails (R233). DEDUCED: a token it took leaves its ring all the same. -/
def State.failTask (s : State) (j : Job) (held : Bool) : State :=
  let s := (s.taskRec j 2).popTaken j
  { s with free := s.free + 1 }.failJob j .engine held (taskDone s j FaultCode.engine.num)

/-- TILE_TASK_DISPATCH: a task or MZERO whose predecessors have completed is checked and takes its slot; a Z
task releases its name's old slot first, and waits when no slot is FREE (R229, R231). -/
def execTileTaskDispatch (s : State) : Out :=
  match s.arg with
  | .num n =>
    match s.job n with
    | none => .next s
    | some j =>
      if !(j.req.kind == .task || j.req.kind == .mzero) || !s.dispatchable j then .next s
      else
        let j := s.readTile j
        let s := s.modJob n fun _ => j
        let r := j.req.bytes
        let zero := fieldN r 0 2 == 0x12
        let z := bit (fieldN r 4 1) 0
        if taskBad r j.req.recAt.isSome || !s.barOk j || (!zero && s.taskABad j) then .next (s.failTask j false)
        else
          match z, s.accState j with
          | false, .bound i k =>
            let s := s.startJob j fun j => { j with island := i, slot := k }
            .next (s.taskRec { j with island := i, slot := k } 0)
          | false, _ => .next (s.failTask j false)
          | true, a =>
            let t := match a with
              | .bound i k => s.setSlot ⟨j.die, j.cl, i⟩ k ⟨.free, [], 0⟩
              | _ => s
            match t.coolest j (fieldN r 17 1), j.owner with
            | some (i, k), some o =>
              let t := t.setSlot ⟨j.die, j.cl, i⟩ k ⟨.bound o j.acc, [], 0⟩
              let t := t.updRegs o fun r => { r with acc := r.acc.set j.acc (.bound i k) }
              let t := t.startJob j fun j => { j with island := i, slot := k }
              .next (t.taskRec { j with island := i, slot := k } 0)
            | _, _ => .next s
  | _ => .next s

/-! ### The array (R103, R226-R228) -/

/-- Elements of width `w` from a bit offset of bytes read as one number. -/
def elemsAt (w k : Nat) (v : Nat) : List Nat := (List.range k).map fun i => v / 2 ^ (w * i) % 2 ^ w

/-- The values of one row of A or one column of B: MX elements under the scale of their block of 32. -/
def operandVals (f : Fmt) (es : List Nat) (scales : List Byte) : List Num :=
  if f.isMx then es.zipIdx.map fun p => mxVal f p.1 ((scales[p.2 / 32]?).getD 0x7f) else es.map (elemVal f)

/-- A's rows of `k` elements from packed rows and, for MX, the scales that follow them (R230). -/
def packedA (f : Fmt) (k : Nat) (bs : List Byte) : List (List Num) :=
  let n := k * fmtWidth f / 8
  (List.range 128).map fun i =>
    operandVals f (elemsAt (fmtWidth f) k (leNat ((bs.drop (i * n)).take n)))
      ((bs.drop (128 * n + i * (k / 32))).take (k / 32))

/-- A task's A (R230). -/
def State.taskA (s : State) (j : Job) : List (List Num) :=
  let r := j.req.bytes
  let f := codeFmt (fieldN r 2 1)
  let k := fieldN r 8 2
  match taskSrc r with
  | 0 =>
    let t := j.req.tile.getD Tile.fresh
    (t.rows.zip t.scales).map fun p => operandVals f (elemsAt (fmtWidth f) k p.1) p.2
  | 1 =>
    packedA f k ((j.tok.or (s.taken j)).getD ⟨.raw, []⟩).bytes
  | _ =>
    (List.range 128).map fun i =>
      let at_ (a n : Nat) : List Byte := s.jobBytes j ((addrs a n).map (homeCluster j.die j.cl))
      operandVals f (elemsAt (fmtWidth f) k (leNat (at_ (fieldN r 24 8 + i * fieldN r 20 4) (taskRowBytes r))))
        (if f.isMx then at_ (fieldN r 32 8 + i * (k / 32)) (k / 32) else [])

/-- Bytes of a column's slice. -/
def State.sliceBytes (s : State) (i : IslandId) (col off n : Nat) : List Byte :=
  smRead 0 s.mem.cells (homeB i col off) n

/-- The bits of a mask, ascending. -/
def maskBits (m : Nat) : List Nat := (List.range 12).filter fun p => bit m p

/-- One column of B, dense along K; none when a mask is malformed (R227, R228). -/
def State.columnB (s : State) (i : IslandId) (f : Fmt) (col k nsp boff soff moff : Nat) : Option (List Num) :=
  let w := fmtWidth f
  let scales := if f.isMx then s.sliceBytes i col soff (k / 32) else []
  if nsp = 0 then
    some (operandVals f (elemsAt w k (leNat (s.sliceBytes i col boff (ceilDiv (k * w) 8)))) scales)
  else
    let kept := elemsAt w (k / 12 * nsp) (leNat (s.sliceBytes i col boff (ceilDiv (k / 12 * nsp * w) 8)))
    let masks := (List.range (k / 12)).map fun g => leNat (s.sliceBytes i col (moff + 2 * g) 2)
    if masks.any fun m => decide (4096 ≤ m) || (maskBits m).length != nsp then none
    else
      some ((List.range k).map fun r =>
        let bs := maskBits ((masks[r / 12]?).getD 0)
        match bs.idxOf? (r % 12) with
        | some t =>
          let e := (kept[r / 12 * nsp + t]?).getD 0
          if f.isMx then mxVal f e ((scales[r / 32]?).getD 0x7f) else elemVal f e
        | none => .fin false 0 1)

/-- An accumulator after a product is added (R103): its values, and the flags raised. -/
def arrayAdd (vals : SMap 32) (a b : List (List Num)) : SMap 32 × BitVec 5 :=
  let out := a.zipIdx.flatMap fun p => b.zipIdx.map fun q =>
    dotFrom (smGet 0 vals (128 * p.2 + q.2)).toNat (p.1.zip q.1)
  (smOfList 0 (out.map fun r => BitVec.ofNat 32 r.1), out.foldl (fun f r => f ||| r.2) 0)

/-- Every column of B on a matrix island. -/
def State.columnsB (s : State) (i : IslandId) (f : Fmt) (k nsp boff soff moff : Nat) : Option (List (List Num)) :=
  (List.range 128).mapM fun col => s.columnB i f col k nsp boff soff moff

/-- A task's product added to its slot; none when a mask is malformed. -/
def State.taskSum (s : State) (j : Job) : Option AccSlot :=
  let r := j.req.bytes
  let i : IslandId := ⟨j.die, j.cl, j.island⟩
  let sl := s.slot i j.slot
  (s.columnsB i (codeFmt (fieldN r 3 1)) (fieldN r 8 2) (fieldN r 7 1) (fieldN r 10 2) (fieldN r 12 2)
    (fieldN r 14 2)).map fun b =>
      let (v, f) := arrayAdd sl.vals (s.taskA j) b
      { sl with vals := v, flags := matrixFlags (sl.flags ||| f) }

/-- Whether an earlier task still occupies a job's array (R226). -/
def State.arrayBusy (s : State) (j : Job) : Bool :=
  s.eng.jobs.any fun k =>
    k.die == j.die && k.cl == j.cl && k.island == j.island && k.req.kind == .task && k.state == .running
      && (decide (k.since < j.since) || (k.since == j.since && decide (k.num < j.num)))

/-- TILE_TASK_ARRAY_END: a task's array occupancy ends, and a ring A's token, which the array has read, is popped; the
island's tasks follow one another (R226, R232). -/
def execTileTaskArrayEnd (s : State) : Out :=
  match s.arg with
  | .num n =>
    match s.job n with
    | none => .next s
    | some j =>
      if j.req.kind ≠ .task ∨ j.req.fld 0 2 = 0x12 ∨ j.state ≠ .running ∨ s.arrayBusy j ∨ !s.jobsRun j.rid
          ∨ !(s.island (matKey ⟨j.die, j.cl, j.island⟩)).running then .next s
      else .next ((s.popTaken j).modJob n fun k => { k with state := .arrayDone, tok := s.taken j })
  | _ => .next s

/-- TILE_TASK_COMPLETE: the accumulator has the sum, the barrier event is sent and
the record posted (R232); a malformed mask fails the task (R228). -/
def execTileTaskComplete (s : State) : Out :=
  match s.arg with
  | .num n =>
    match s.job n with
    | none => .next s
    | some j =>
      if j.req.kind ≠ .task ∨ j.state ≠ .arrayDone ∨ !s.jobsRun j.rid then .next s
      else
        match s.taskSum j with
        | none => .next (s.failTask j true)
        | some a =>
          let s := (s.setSlot ⟨j.die, j.cl, j.island⟩ j.slot a).taskRec j 1
          .next ({ s with free := s.free + 1 }.completeJob j 0 (taskDone s j 0))
  | _ => .next s

/-- MZERO_COMPLETE: the slot stands zeroed with its flag byte cleared (R239). -/
def execMzeroComplete (s : State) : Out :=
  match s.arg with
  | .num n =>
    match s.job n with
    | none => .next s
    | some j =>
      if j.req.fld 0 2 ≠ 0x12 ∨ !(j.req.kind == .mzero || j.req.kind == .task) ∨ j.state ≠ .running
          ∨ !s.jobsRun j.rid then .next s
      else
        let i : IslandId := ⟨j.die, j.cl, j.island⟩
        let a := s.slot i j.slot
        let s := (s.setSlot i j.slot { a with vals := [], flags := 0 }).taskRec j 1
        .next ({ s with free := s.free + 1 }.completeJob j 0 (taskDone s j 0))
  | _ => .next s

end Sys2Proof.Machine
end

