-- ==== Sys2Proof/Machine/Special.lean ====
section
/-!
DEFINITION. The special functions of R140. The true value is computed in fixed point to 448 fraction
bits; the result is any value of the format within the stated error, chosen by `Config.deviation`, so
that one input always gives the same bits; what R140 makes exact or special is exact here.
-/
namespace Sys2Proof.Machine

/-! ### Fixed point with 448 fraction bits -/

/-- The number of fraction bits. -/
def fxP : Nat := 448

/-- One. -/
def fxOne : Nat := 2 ^ fxP

/-- The circle number. -/
def fxPi : Nat :=
  0x3243f6a8885a308d313198a2e03707344a4093822299f31d0082efa98ec4e6c89452821e638d01377be5466cf34e90c6cc0ac29b7c97c50dd

/-- The natural logarithm of 2. -/
def fxLn2 : Nat :=
  0xb17217f7d1cf79abc9e3b39803f2f6af40f343267298b62d8a0d175b8baafa2be7b876206debac98559552fb4afa1b10ed2eae35c1382144

/-- A product of fixed-point numbers. -/
def fxMul (a b : Nat) : Nat := a * b / fxOne

/-- A quotient of naturals in fixed point. -/
def fxDiv (n d : Nat) : Nat := n * fxOne / d

/-- The sum of `term`, `term * x / k`, ... for `fuel` terms: e^x for x below 1. -/
def expSeries (x : Nat) : Nat → Nat → Nat → Nat
  | 0, _, _ => 0
  | fuel + 1, k, term => term + expSeries x fuel (k + 1) (fxMul term x / (k + 1))

/-- e^x, 0 ≤ x < 1. -/
def fxExp (x : Nat) : Nat := expSeries x 100 0 fxOne

/-- The terms of an alternating series in x², from one term on: the even or the odd ones. -/
def altSeries (x2 : Nat) : Nat → Nat → Nat → Int
  | 0, _, _ => 0
  | fuel + 1, k, term => (term : Int) - altSeries x2 fuel (k + 2) (fxMul term x2 / ((k + 1) * (k + 2)))

/-- sin x, 0 ≤ x < 2. -/
def fxSin (x : Nat) : Nat := (altSeries (fxMul x x) 60 1 x).toNat

/-- cos x, 0 ≤ x < 2. -/
def fxCos (x : Nat) : Nat := (altSeries (fxMul x x) 60 0 fxOne).toNat

/-- The sum of z^k / k over odd k. -/
def atanhSeries (z2 : Nat) : Nat → Nat → Nat → Nat
  | 0, _, _ => 0
  | fuel + 1, k, pw => pw / k + atanhSeries z2 fuel (k + 2) (fxMul pw z2)

/-- The natural logarithm of n / d, 1 ≤ n / d < 2. -/
def fxLn (n d : Nat) : Nat :=
  let z := fxDiv (n - d) (n + d)
  2 * atanhSeries (fxMul z z) 160 1 z

/-- e^(-n / d). -/
def fxExpNeg (n d : Nat) : Nat :=
  let y := fxDiv n d
  let q := y / fxLn2
  if 1000 < q then 0 else fxOne * fxOne / fxExp (y - q * fxLn2) / 2 ^ q

/-- The quadrant of n / d radians and the angle within it. -/
def fxQuadrant (n d : Nat) : Nat × Nat :=
  let y := n * fxOne / d
  let h := fxPi / 2
  (y / h % 4, y % h)

/-! ### Results within a bound -/

/-- The magnitude that magnitude bits stand for, going on past the largest finite value. -/
def magOf (f : FloatInfo) (m : Nat) : Num :=
  let e := m / 2 ^ f.mbits
  let base : Int := 1 - (f.bias : Int) - f.mbits
  if e = 0 then dyadic false m base else dyadic false (2 ^ f.mbits + m % 2 ^ f.mbits) (base + e - 1)

/-- A result of magnitude bits with the flags of its range: past the largest finite value an infinity
with OF and NX. -/
def magRes (f : FloatInfo) (neg : Bool) (m : Nat) (nx : Bool) : Res :=
  if f.max < m then ⟨infBits f neg, fOF ||| fNX, false⟩
  else
    ⟨signBit f neg + m, (if nx then fNX else 0) ||| (if nx && decide (m < 2 ^ f.mbits) then fUF else 0),
      false⟩

/-- A result within `bound` units in the last place of a positive value, the unit being the spacing of
the format at the value: which one is the deviation's choice, but where the true value overflows the result is an
infinity. `exact` says that `x` is the true value and not an approximation of it. -/
def nearRes (f : FloatInfo) (neg : Bool) (x : Mag) (exact : Bool) (bound : Nat) (dev : Int) : Res :=
  let r := roundMag f neg x .rne false
  let u := gridExp f x
  let m0 := magBits f (x.floorAt u) u
  let ms := (List.range 9).filterMap fun j => if m0 + j < 5 then none else some (m0 + j - 5)
  let ok := ms.filter fun m =>
    decide ((addNum (magOf f m) (.fin true x.n x.d) .rne).1.abs.cmp (dyadic false bound u) ≤ 0)
  let m := (ok[(dev % (max ok.length 1 : Nat)).toNat]?).getD m0
  if r.flags &&& fOF != 0 then r else magRes f neg m (!(exact && (magOf f m).cmp (.fin false x.n x.d) == 0))

/-- The bound of R140 in a format. -/
def ulpBound (f : Fmt) : Nat := if f = .fp32 then 2 else 1

/-- The deviation of an opcode for an element of a format. -/
def devOf (op : Nat) (f : Fmt) (b : Nat) : Int := Config.deviation (op * 32 + f.code.toNat) b

/-- 2^a (R140): in fp32 exact for an integer a. -/
def exp2Res (f : Fmt) (a : Num) (b : Nat) : Res :=
  match floatInfo f with
  | none => ⟨0, 0, false⟩
  | some i =>
    match a with
    | .nan _ => toFloat i a .rne false
    | .inf neg => if neg then ⟨0, 0, false⟩ else ⟨infBits i false, 0, false⟩
    | .fin neg n d =>
      let whole := n % d == 0
      let q := n / d
      if decide (1000 < q) then
        (if neg then
          if whole && f == .fp32 then roundMag i false ⟨1, 2 ^ 1000, false⟩ .rne false
          else nearRes i false ⟨1, 2 ^ 1000, false⟩ false (ulpBound f) (devOf 0x93 f b)
         else ⟨infBits i false, fOF ||| fNX, false⟩)
      else
        let e := if whole then fxOne else
          let r := fxExp (fxMul (fxDiv (n % d) d) fxLn2)
          if neg then fxOne * fxOne / r else r
        let x : Mag := if neg then ⟨e, fxOne * 2 ^ q, false⟩ else ⟨e * 2 ^ q, fxOne, false⟩
        if whole && f == .fp32 then roundMag i false x .rne false
        else nearRes i false x whole (ulpBound f) (devOf 0x93 f b)

/-- log2 a (R140): in fp32 exact for a power of two. -/
def log2Res (f : Fmt) (a : Num) (b : Nat) : Res :=
  match floatInfo f with
  | none => ⟨0, 0, false⟩
  | some i =>
    match a with
    | .nan _ => toFloat i a .rne false
    | .inf neg => if neg then (canonNan i).also fNV else ⟨infBits i false, 0, false⟩
    | .fin neg n d =>
      if n = 0 then ⟨infBits i true, fDZ, false⟩
      else if neg then (canonNan i).also fNV
      else
        let e := log2Q n d
        let s := scaled n d e
        let pow := s.1 == s.2
        if pow && e == 0 then ⟨0, 0, false⟩
        else
          let v : Int := e * fxOne + (if pow then 0 else (fxDiv (fxLn s.1 s.2) fxLn2 : Nat))
          let x : Mag := ⟨v.natAbs, fxOne, false⟩
          if pow && f == .fp32 then roundMag i (decide (v < 0)) x .rne false
          else nearRes i (decide (v < 0)) x pow (ulpBound f) (devOf 0x94 f b)

/-- A sine or cosine whose true value is `v` in fixed point (R140): within the unit bound, or within
2^-22 in fp32 beyond 2^15. -/
def trigRes (f : Fmt) (far : Bool) (v : Int) (dev : Int) : Res :=
  match floatInfo f with
  | none => ⟨0, 0, false⟩
  | some i =>
    if far && f == .fp32 then
      let lim : Int := ((2 ^ (fxP - 22) : Nat) : Int)
      let y := v + clampI (-lim) lim dev
      (toFloat i (.fin (decide (y < 0)) y.natAbs fxOne) (if v < y then .rdn else .rup) false).also fNX
    else nearRes i (decide (v < 0)) ⟨v.natAbs, fxOne, false⟩ false (ulpBound f) dev

/-- Whether |a| is beyond 2^15. -/
def farAngle (n d : Nat) : Bool := decide (2 ^ 15 * d < n)

/-- sin a (R140). -/
def sinRes (f : Fmt) (a : Num) (b : Nat) : Res :=
  match floatInfo f with
  | none => ⟨0, 0, false⟩
  | some i =>
    match a with
    | .nan _ => toFloat i a .rne false
    | .inf _ => (canonNan i).also fNV
    | .fin neg n d =>
      if n = 0 then ⟨signBit i neg, 0, false⟩
      else
        let (q, r) := fxQuadrant n d
        let v : Int := if q % 2 = 0 then fxSin r else fxCos r
        let v := if decide (2 ≤ q) != neg then -v else v
        trigRes f (farAngle n d) v (devOf 0x95 f b)

/-- cos a (R140). -/
def cosRes (f : Fmt) (a : Num) (b : Nat) : Res :=
  match floatInfo f with
  | none => ⟨0, 0, false⟩
  | some i =>
    match a with
    | .nan _ => toFloat i a .rne false
    | .inf _ => (canonNan i).also fNV
    | .fin _ n d =>
      if n = 0 then toFloat i (ofInteger 1) .rne false
      else
        let (q, r) := fxQuadrant n d
        let v : Int := if q % 2 = 0 then fxCos r else fxSin r
        let v := if q = 1 || q = 2 then -v else v
        trigRes f (farAngle n d) v (devOf 0x96 f b)

/-- tanh a (R140). -/
def tanhRes (f : Fmt) (a : Num) (b : Nat) : Res :=
  match floatInfo f with
  | none => ⟨0, 0, false⟩
  | some i =>
    match a with
    | .nan _ => toFloat i a .rne false
    | .inf neg => toFloat i (ofInteger (if neg then -1 else 1)) .rne false
    | .fin neg n d =>
      if n = 0 then ⟨signBit i neg, 0, false⟩
      else
        -- below one however large the argument is, so that the unit in the last place is that below one
        let q := max 1 (fxExpNeg (2 * n) d)
        nearRes i neg ⟨fxOne - q, fxOne + q, false⟩ false (ulpBound f) (devOf 0x97 f b)

/-- A special function of one source: under FTZ a subnormal reads and is written as zero (R95). -/
def specialMap (i : VInsn) (f : Fmt → Num → Nat → Res) (x : Flight) : Flight :=
  vecMap i [i.a] i.fmt i.fmt (fun z es =>
    let b := (es[0]?).getD 0
    let v := elemVal i.fmt b
    (flushOut z i.fmt (f i.fmt (flushIn z i.fmt v) b)).also (sigFlag [v])) x

/-- VEXP2 (R140). -/
def execVexp2 (i : VInsn) (s : State) : Out := act s (specialMap i exp2Res s.x)

/-- VLOG2 (R140). -/
def execVlog2 (i : VInsn) (s : State) : Out := act s (specialMap i log2Res s.x)

/-- VSIN (R140). -/
def execVsin (i : VInsn) (s : State) : Out := act s (specialMap i sinRes s.x)

/-- VCOS (R140). -/
def execVcos (i : VInsn) (s : State) : Out := act s (specialMap i cosRes s.x)

/-- VTANH (R140). -/
def execVtanh (i : VInsn) (s : State) : Out := act s (specialMap i tanhRes s.x)

end Sys2Proof.Machine
end

