-- ==== Sys2Proof/Machine/Tree.lean ====
section
/-!
DEFINITION. The instructions of tree layers (R249, R255-R260).
-/
namespace Sys2Proof.Machine

/-! ### Path-trace registers (R249) -/

/-- LEVEL of a header. -/
def PathReg.level (d : PathReg) : Nat := bits d.hdr.toNat 4 0

/-- ROWS of a header. -/
def PathReg.nrows (d : PathReg) : Nat := bits d.hdr.toNat 15 8

/-- FLG of a header in the places of FFLAGS. -/
def PathReg.flg (d : PathReg) : BitVec 5 :=
  (if d.hdr.getLsbD 20 then fNV else 0) ||| (if d.hdr.getLsbD 21 then fOF else 0)
    ||| (if d.hdr.getLsbD 22 then fUF else 0) ||| (if d.hdr.getLsbD 23 then fNX else 0)

/-- Flags as FLG holds them. -/
def flgBits (f : BitVec 5) : Nat :=
  (if f.getLsbD 0 then 2 ^ 20 else 0) + (if f.getLsbD 2 then 2 ^ 21 else 0)
    + (if f.getLsbD 3 then 2 ^ 22 else 0) + (if f.getLsbD 4 then 2 ^ 23 else 0)

/-- A header from LEVEL, ROWS and flags. -/
def pathHdr (level rows : Nat) (f : BitVec 5) : Word := BitVec.ofNat 64 (level + 256 * rows + flgBits f)

/-- Row record i. -/
def PathReg.row (d : PathReg) (i : Nat) : BitVec 288 := smGet 0 d.rows i

/-- NODE of a row. -/
def PathReg.node (d : PathReg) (i : Nat) : Nat := bits (d.row i).toNat 15 0

/-- PATH of a row. -/
def PathReg.pathBits (d : PathReg) (i : Nat) : Nat := bits (d.row i).toNat 31 16

/-- MARGIN l of a row. -/
def PathReg.margin (d : PathReg) (i l : Nat) : Nat := bits (d.row i).toNat (32 + 16 * l + 15) (32 + 16 * l)

/-- A 16-bit field of a row record replaced, from bit `lo` up. -/
def setField16 (r : BitVec 288) (lo v : Nat) : BitVec 288 :=
  BitVec.ofNat 288 (r.toNat - bits r.toNat (lo + 15) lo * 2 ^ lo + v % 65536 * 2 ^ lo)

/-- A field of one row written. -/
def PathReg.setRow (d : PathReg) (i lo v : Nat) : PathReg :=
  { d with rows := smSet 0 d.rows i (setField16 (d.row i) lo v) }

/-! ### TDNODE (R257) -/

/-- TDNODE's result. -/
def tdnodeVal (op n base k : Nat) : Nat :=
  match op with
  | 0 => 2 * n + 1
  | 1 => 2 * n + 2
  | 2 => if n = 0 then 2 ^ 64 - 1 else (n - 1) / 2
  | 3 => if n = 2 ^ 64 - 1 then 63 else Nat.log2 (n + 1)
  | 4 => if n ≤ 63 then 2 ^ n - 1 else 2 ^ 64 - 1
  | _ => base + n * 64 * (k + 1)

/-- TDNODE (R257). -/
def execTdnode (i : TInsn) (s : State) : Out :=
  act s (s.x.scalarAct i.g fun x =>
    x.wrS i.sx (BitVec.ofNat 64
      (tdnodeVal i.mod.toNat (x.rdS i.sy).toNat (x.rdS i.sx).toNat i.aux.toNat)))

/-! ### TDSTEP and TDLEAF (R255, R256) -/

/-- The descriptor of a step or a leaf, read at commit (R255, R436). -/
def withDescriptor (s : State) (i : TInsn) (x : Flight) (f : Nat → Flight → Flight) : Flight :=
  Flight.withRecord s x (i.aux.extractLsb' 0 4) 1 (x.rdS i.sx) 64 64 f

/-- The tile A of a step or a leaf: allocated, and tagged FMTA (R255). -/
def withTileA (i : TInsn) (cluster : Bool) (f : BitVec 4) (x : Flight) (k : Option Tile → Flight) :
    Flight :=
  if cluster then k none
  else if !x.tileOk f then x.failCode .tileAlloc
  else if (x.r.rdT f).tag ≠ i.fmta then x.failCode .formatTag
  else k (some (x.r.rdT f))

/-- TDSTEP. Its command carries the path-trace register, IMASK and the codes of FMTA and FMTB. -/
def execTdstep (i : TInsn) (s : State) : Out :=
  act s (s.x.scalarAct i.g fun x =>
    withDescriptor s i x fun h x =>
      withTileA i (i.mod.getLsbD 1) i.ta x fun t =>
        x.submit { x.newJob .tdstep 2 with
          ev := i.mod.getLsbD 3, recAt := some (h, 64), tile := t
          args := [(i.td.extractLsb' 0 2).setWidth 64, i.imask.setWidth 64, i.fmta.code.setWidth 64,
            i.fmtb.code.setWidth 64, i.ta.setWidth 64] })

/-- TDLEAF. Its command carries the path-trace register, IMASK, the codes of FMTA and FMTB, the tile A,
the output tile or 16 for cluster store, and RELU. -/
def execTdleaf (i : TInsn) (s : State) : Out :=
  act s (s.x.scalarAct i.g fun x =>
    withDescriptor s i x fun h x =>
      withTileA i (i.mod.getLsbD 1) i.tb x fun t =>
        if !i.mod.getLsbD 0 && !x.tileOk i.td then x.failCode .tileAlloc
        else
          x.submit { x.newJob .tdleaf 2 with
            ev := i.mod.getLsbD 3, recAt := some (h, 64), tile := t
            args := [(i.ta.extractLsb' 0 2).setWidth 64, i.imask.setWidth 64, i.fmta.code.setWidth 64,
              i.fmtb.code.setWidth 64, i.tb.setWidth 64,
              if i.mod.getLsbD 0 then 16 else i.td.setWidth 64, if i.mod.getLsbD 2 then 1 else 0] })

/-! ### TDGRP (R258) -/

/-- Insertion of a row into rows ordered by NODE, behind equals. -/
def insertRow (d : PathReg) (i : Nat) : List Nat → List Nat
  | [] => [i]
  | j :: js => if d.node i < d.node j then i :: j :: js else j :: insertRow d i js

/-- The 128 rows ordered stably by NODE, active rows first (R258). -/
def groupRows (d : PathReg) : List Nat :=
  let n := min d.nrows 128
  (List.range n).foldl (fun l i => insertRow d i l) [] ++ (List.range (128 - n)).map (n + ·)

/-- The distinct NODE values of the active rows, ascending. -/
def activeNodes (d : PathReg) : List Nat :=
  (((groupRows d).take (min d.nrows 128)).map d.node).eraseDups

/-- First row of a part of a 16-bit vector (R258). -/
def partBase (lanes p : Nat) : Nat :=
  let n := 2 * lanes
  p % max 1 (128 / n) * n

/-- TDGRP (R258). -/
def execTdgrp (i : TInsn) (s : State) : Out :=
  act s (s.x.scalarAct i.g fun x =>
    let d := x.r.rdD i.ta
    let order := groupRows d
    let base := partBase x.nlanes (i.aux.extractLsb' 0 3).toNat
    let es := (List.range (2 * x.nlanes)).map fun k => (order[base + k]?).getD 0
    let m := x.guard i.g
    let x := x.putVec (.reg i.sy) m (packElems 16 x.nlanes es) .uint16 none
    x.wrS i.sx (BitVec.ofNat 64 (activeNodes d).length))

/-! ### TDPATH (R259) -/

/-- A field of rows read into a vector. -/
def pathRead (i : TInsn) (x : Flight) (f : PathReg → Nat → Nat) : Flight :=
  let d := x.r.rdD i.ta
  let base := partBase x.nlanes (i.aux.extractLsb' 0 3).toNat
  let es := (List.range (2 * x.nlanes)).map fun k => if base + k < 128 then f d (base + k) else 0
  x.putVec (.reg i.sy) (x.guard i.g) (packElems 16 x.nlanes es) i.fmta none

/-- A field of rows written from a vector: lanes that are off are skipped. -/
def pathWrite (i : TInsn) (x : Flight) (lo : Nat) : Flight :=
  let v := x.r.rdV i.sy
  if !tagOk i.fmta v.tag then x.failCode .formatTag
  else
    let m := x.guard i.g
    let base := partBase x.nlanes (i.aux.extractLsb' 0 3).toNat
    let d := ((elemsOf 16 v.lanes).zipIdx).foldl (fun d p =>
      if laneOn m (p.2 / 2) && decide (base + p.2 < 128) then d.setRow (base + p.2) lo p.1 else d)
      (x.r.rdD i.td)
    { x with r := x.r.wrD i.td d }

/-- A header written: BOUNDS for a value outside R259. -/
def pathHeader (i : TInsn) (x : Flight) (init : Bool) : Flight :=
  let v := x.rdS i.sx
  let n := v.toNat
  if 16 < bits n 4 0 ∨ 128 < bits n 15 8 ∨ bits n 7 5 ≠ 0 ∨ bits n 63 16 ≠ 0 then
    x.fail { code := .bounds, handle := 0, ea := v }
  else
    let d := x.r.rdD i.td
    let new : PathReg :=
      if init then ⟨pathHdr 0 (bits n 15 8) 0, []⟩
      else { d with hdr := pathHdr (bits n 4 0) (bits n 15 8) d.flg }
    { x with r := x.r.wrD i.td new }

/-- TDPATH (R259). -/
def execTdpath (i : TInsn) (s : State) : Out :=
  act s (s.x.scalarAct i.g fun x =>
    let l := (i.aux.extractLsb' 3 4).toNat
    match i.mod.toNat with
    | 0 => pathRead i x PathReg.node
    | 1 => pathRead i x PathReg.pathBits
    | 2 => pathRead i x fun d r => d.margin r l
    | 3 =>
      let d := x.r.rdD i.ta
      (x.wrS i.sx d.hdr).flag d.flg
    | 8 => pathWrite i x 0
    | 9 => pathWrite i x 16
    | 10 => pathWrite i x (32 + 16 * l)
    | 11 => pathHeader i x false
    | _ => pathHeader i x true)

/-! ### TDGRAD (R260) -/

/-- σ'(z) of a magnitude: within a relative 2^-20 of the true value, as the deviation chooses. -/
def gradMag (n d : Nat) (dev : Int) : Mag :=
  let q := fxExpNeg n d
  let k := (clampI (-(2 ^ 20)) (2 ^ 20) dev + 2 ^ 40).toNat
  if q = 0 then ⟨1, 2 ^ 1000, false⟩
  else ⟨q * fxOne * k, (fxOne + q) * (fxOne + q) * 2 ^ 40, false⟩

/-- One coefficient (R260). -/
def gradRes (f : Fmt) (margin : Nat) (tau : Num) : Res :=
  match floatInfo f with
  | none => ⟨0, 0, false⟩
  | some i =>
    let bad := match tau with
      | .fin neg n d => neg || n == 0 || decide (log2Q n d < -126)
      | _ => true
    let v := elemVal .fp16 margin
    if bad || v.isNan then (canonNan i).also fNV
    else
      let z := toFloat fp32Info (divNum v tau).1 .rne false
      match elemVal .fp32 z.bits with
      | .fin _ n d =>
        if n = 0 then (toFloat i (.fin false 1 4) .rne false).also z.flags
        else (roundMag i false (gradMag n d (devOf 0x18e f z.bits)) .rne false).also (z.flags ||| fNX)
      | _ => ⟨0, z.flags, false⟩

/-- TDGRAD (R260). -/
def execTdgrad (i : TInsn) (s : State) : Out :=
  act s (s.x.scalarAct i.g fun x =>
    if !x.tileOk i.td then x.failCode .tileAlloc
    else
      let d := x.r.rdD i.ta
      let tau := elemVal .fp32 ((x.rdS i.sx).toNat % 2 ^ 32)
      let rows := (List.range 128).map fun r =>
        if r < d.nrows then
          (List.range (rowLen i.fmta)).map fun l =>
            if l < d.level then gradRes i.fmta (d.margin r l) tau else ⟨0, 0, false⟩
        else []
      let x := x.flag (orFlags rows.flatten)
      x.wrT i.td (Tile.ofRows (rows.map fun es => rowOf (fmtWidth i.fmta) (es.map (·.bits))) [] i.fmta))

end Sys2Proof.Machine
end

