-- ==== Sys2Proof/Machine/JobsTree.lean ====
section
/-!
DEFINITION. Descent steps and leaves from dispatch to completion (R247-R255).
-/
namespace Sys2Proof.Machine

/-! ### The layer descriptor (R248) -/

/-- Whether a descriptor is outside R248, or disagrees with its submission (R255). -/
def layerBad (j : JobReq) (leaf : Bool) : Bool :=
  let d := j.bytes
  let w := fieldN d 48 2
  let depth := fieldN d 50 1
  let l := fieldN d 51 1
  let nf := fieldN d 52 1
  let lf := fieldN d 53 1
  let yf := fieldN d 54 1
  let sp := fieldN d 56 1
  let spOk (v : Nat) : Bool := v == 0 || v == 3
  w % 32 != 0 || w < 32 || decide (8192 < w) || depth == 0 || decide (16 < depth) || l == 0 || decide (64 < l)
    || decide (5 < nf) || decide (5 < lf) || !(yf == 0 || yf == 2 || yf == 3)
    || !spOk (bits sp 2 0) || !spOk (bits sp 5 3) || bits sp 7 6 != 0
    || (decide (31 < fieldN d 57 1) && fieldN d 57 1 != 0xff) || !zeroIn d 60 4
    || fieldN d 24 4 % 16 != 0 || fieldN d 28 4 % 16 != 0 || fieldN d 32 8 % 16 != 0 || fieldN d 40 8 % 16 != 0
    || fieldN d 16 4 % 64 != 0 || fieldN d 16 4 < w * codeWidth nf / 8 + 4
    || fieldN d 20 4 % 64 != 0 || fieldN d 20 4 < 2 * l * w * codeWidth lf / 8
    || decide (49152 < fieldN d 58 2 + w * codeWidth nf / 8)
    || !arrayPair (codeFmt (j.arg 2)) (codeFmt (if leaf then lf else nf))
    || j.arg 3 != (if leaf then yf else nf)
    || (j.tile.isSome && decide (rowLen (codeFmt (j.arg 2)) < w))
    || (leaf && decide (j.arg 5 < 8) && decide (rowLen (codeFmt yf) < w))

/-- The path-trace register of a step or leaf. -/
def State.jobPath (s : State) (j : Job) : PathReg :=
  ((j.owner.bind s.strand).map fun st => st.regs.rdD (BitVec.ofNat 4 (j.req.arg 0 % 4))).getD PathReg.zero

/-- The path-trace register of a step or leaf written. -/
def State.setPath (s : State) (j : Job) (p : PathReg) : State :=
  match j.owner with
  | some t => s.updRegs t fun r => r.wrD (BitVec.ofNat 4 (j.req.arg 0 % 4)) p
  | none => s

/-- Active rows of a register. -/
def PathReg.active (p : PathReg) : List Nat := List.range (min p.nrows 128)

/-- The record of node or leaf `n`: its address and its bytes. -/
def layerRecord (d : List Byte) (leaf : Bool) (n : Nat) : Nat × Nat :=
  let w := fieldN d 48 2
  if leaf then (wide (fieldN d 8 8) + n * fieldN d 20 4, 2 * fieldN d 51 1 * w * codeWidth (fieldN d 53 1) / 8)
  else (wide (fieldN d 0 8) + n * fieldN d 16 4, w * codeWidth (fieldN d 52 1) / 8 + 4)

/-- The space of the nodes or of the leaves. -/
def layerSpace (d : List Byte) (leaf : Bool) : Nat :=
  if leaf then bits (fieldN d 56 1) 5 3 else bits (fieldN d 56 1) 2 0

/-- The bytes of row i of a cluster-store A or output: its address, and its length for a format. -/
def layerRow (d : List Byte) (out : Bool) (f i : Nat) : Nat × Nat :=
  let n := ceilDiv (fieldN d 48 2 * codeWidth f) 8
  if out then (ptr (fieldN d 40 8) + i * fieldN d 28 4, n) else (ptr (fieldN d 32 8) + i * fieldN d 24 4, n)

/-- Whether the bytes a step or leaf reads and writes pass their handles (R248, R254). -/
def layerInside (j : JobReq) (leaf : Bool) (p : PathReg) : Bool :=
  let d := j.bytes
  let h := fieldN d 55 1
  (p.active.all fun i =>
      let (a, n) := layerRecord d leaf (p.node i)
      handleOk j.hs (bits h 3 0) (layerSpace d leaf) .load a n)
    && (j.tile.isSome || p.active.all fun i =>
      let (a, n) := layerRow d false (j.arg 2) i
      handleOk j.hs (bits h 7 4) 1 .load a n)
    && (!leaf || decide (j.arg 5 < 8) || p.active.all fun i =>
      let (a, n) := layerRow d true (fieldN d 54 1) i
      handleOk j.hs (bits h 7 4) 1 .store a n)

/-- A job that runs on a matrix island starts on the coolest one with a FREE slot; it waits while there is none
(R251, R231). -/
def State.onIsland (s : State) (j : Job) (mask : Nat) : Check :=
  match s.coolest j mask with
  | some (i, k) => .go fun j => { j with island := i, slot := k }
  | none => .wait

/-- The checks of TDSTEP at dispatch (R250, R255). -/
def State.checkStep (s : State) (j : Job) : Check :=
  let p := s.jobPath j
  let l := p.level
  let out (i : Nat) : Bool := p.node i < 2 ^ l - 1 || decide (2 ^ (l + 1) - 2 < p.node i)
  if layerBad j.req false || decide (fieldN j.req.bytes 50 1 ≤ l) || p.active.any out
      || !layerInside j.req false p then .fail
  else s.onIsland j (j.req.arg 1)

/-- Whether a leaf's cluster output would touch a barrier or ring storage (R254, R165). -/
def State.leafKindBad (s : State) (j : Job) (p : PathReg) : Bool :=
  decide (8 ≤ j.req.arg 5) && p.active.any fun i =>
    let (a, n) := layerRow j.req.bytes true (fieldN j.req.bytes 54 1) i
    (s.clusterKind j.die j.cl a n).isSome

/-- The checks of TDLEAF at dispatch (R254, R255). -/
def State.checkLeaf (s : State) (j : Job) : Check :=
  let p := s.jobPath j
  let d := j.req.bytes
  if layerBad j.req true || fieldN d 50 1 != p.level
      || !layerInside j.req true p || s.leafKindBad j p then .fail
  else s.onIsland j (j.req.arg 1)

/-! ### Reading (R192) -/

/-- The bytes of the records of the distinct nodes or leaves, in ascending order, and what is done with them;
a failed translation pauses the job (R252). -/
def State.withRecords (s : State) (j : Job) (leaf : Bool) (ns : List Nat) (f : List (Nat × List Byte) → State → State) :
    State :=
  let d := j.req.bytes
  let spans := ns.map (layerRecord d leaf)
  s.withHomes j (layerSpace d leaf) 1 (spans.flatMap fun p => addrs p.1 p.2) fun hs s =>
    let bs := s.jobBytes j hs
    let n := (spans.headD (0, 0)).2
    f (ns.zipIdx.map fun p => (p.1, (bs.drop (p.2 * n)).take n)) s

/-- Row i of a step's or leaf's A as values. -/
def State.layerA (s : State) (j : Job) (i : Nat) : List Num :=
  let d := j.req.bytes
  let f := codeFmt (j.req.arg 2)
  let row : Nat := match j.req.tile with
    | some t => leNat (smExpand 0 t.data (128 * i) 128)
    | none =>
      let (a, n) := layerRow d false (j.req.arg 2) i
      leNat (s.jobBytes j ((addrs a n).map (homeCluster j.die j.cl)))
  (elemsAt (fmtWidth f) (fieldN d 48 2) row).map (elemVal f)

/-- The elements of a record as values, from element `k` on. -/
def recordVals (f : Fmt) (k n : Nat) (bs : List Byte) : List Num :=
  (elemsAt (fmtWidth f) n (leNat (bs.drop (k * fmtWidth f / 8)))).map (elemVal f)

/-! ### TDSTEP (R250-R252) -/

/-- FP32 addition rounded to nearest even, keeping subnormals. -/
def addF32 (a b : Nat) : Res :=
  let va := elemVal .fp32 a
  let vb := elemVal .fp32 b
  let (t, h) := addNum va vb .rne
  (toFloat fp32Info t .rne false).also (h ||| sigFlag [va, vb])

/-- A value converted to a floating-point format under RNE and SAT; a NaN sets NV. -/
def satTo (f : Fmt) (bits32 : Nat) : Res :=
  let v := elemVal .fp32 bits32
  match floatInfo f with
  | some i => (place f (toFloat i v .rne true)).also (sigFlag [v])
  | none => ⟨0, 0, false⟩

/-- One row's step: its node, the sign, the FP16 margin and the flags (R250). -/
def stepRow (depth l node : Nat) (a b : List Num) (bias : Nat) : Nat × Nat × Nat × BitVec 5 :=
  let (acc, f) := dotFrom 0 (a.zip b)
  let m := addF32 acc bias
  let v := elemVal .fp32 m.bits
  let sgn := if v.isNan || (v.isNeg && !v.isZero) then 0 else 1
  let h := satTo .fp16 m.bits
  let next := 2 * node + 1 + sgn - (if l + 1 = depth then 2 ^ depth - 1 else 0)
  (next, sgn, h.bits, f ||| m.flags ||| h.flags ||| (if v.isNan then fNV else 0))

/-- The record of a step or leaf (R252, R254). -/
def layerDone (s : State) (j : Job) (user m : Nat) : List Byte :=
  jobRecord j.req.code j.seqno.toNat 0 ((Config.freeWord s.free).toNat % 256) j.req.barByte 0 user
    (j.island.val + 256 * j.slot.val + 65536 * m) s.tick

/-- A step's effects: the gathered columns, the register, and its completion. -/
def State.finishStep (s : State) (j : Job) : State :=
  let d := j.req.bytes
  let p := s.jobPath j
  let l := p.level
  let w := fieldN d 48 2
  let nf := codeFmt (fieldN d 52 1)
  let nb := w * fmtWidth nf / 8
  let ns := activeNodes p
  s.withRecords j false ns fun recs s =>
    let i : IslandId := ⟨j.die, j.cl, j.island⟩
    let s := recs.zipIdx.foldl (fun s q =>
      s.poke (cellsAt (homeB i q.2 (fieldN d 58 2)) (q.1.2.take nb))) s
    let out := p.active.map fun r =>
      let rb := ((recs.find? (·.1 == p.node r)).map (·.2)).getD []
      (r, stepRow (fieldN d 50 1) l (p.node r) (s.layerA j r) (recordVals nf 0 w rb) (fieldN rb nb 4))
    let q := out.foldl (fun (q : PathReg) o =>
      let (r, next, sgn, mg, _) := o
      ((q.setRow r (32 + 16 * l) mg).setRow r 16
        (q.pathBits r - (if bit (q.pathBits r) l then 2 ^ l else 0) + sgn * 2 ^ l)).setRow r 0 next) p
    let fl := out.foldl (fun f o => f ||| o.2.2.2.2) 0
    let s := s.setPath j { q with hdr := pathHdr (l + 1) p.nrows (p.flg ||| matrixFlags fl) }
    { s with free := s.free + 1 }.completeJob j 0 (layerDone s j (l + 1) ns.length)

/-- TDSTEP_COMPLETE (R250). -/
def execTdstepComplete (s : State) : Out :=
  match s.arg with
  | .num n =>
    match s.job n with
    | none => .next s
    | some j => if j.req.kind ≠ .tdstep ∨ !j.goes ∨ !s.jobsRun j.rid then .next s else .next (s.finishStep j)
  | _ => .next s

/-! ### TDLEAF (R254) -/

/-- One row through its leaf: the output elements and the flags (R254). -/
def leafRow (lf yf : Fmt) (relu : Bool) (l w : Nat) (a : List Num) (leaf : List Byte) : List Nat × BitVec 5 :=
  let hid := (List.range l).map fun k =>
    let (h, f) := dotFrom 0 (a.zip (recordVals lf (k * w) w leaf))
    let h := if relu then (minMaxRes .fp32 true false h 0 false).also f else ⟨h, f, false⟩
    (satTo lf h.bits).also h.flags
  let hv := hid.map fun r => elemVal lf r.bits
  let w2 := (List.range l).map fun k => recordVals lf ((l + k) * w) w leaf
  let out := (List.range w).map fun k =>
    let (y, f) := dotFrom 0 (hv.zip (w2.map fun q => (q[k]?).getD (.fin false 0 1)))
    (satTo yf y).also f
  (out.map (·.bits), orFlags hid ||| orFlags out)

/-- A tile that a leaf has written, as the strand's later jobs that still wait read it as A (R192). -/
def State.passTile (s : State) (t : StrandId) (n num : Nat) : State :=
  let new := (s.strand t).map fun st => st.regs.rdT (BitVec.ofNat 4 n)
  let set (k : Job) : Job :=
    if k.owner == some t && decide (num < k.num) && k.state == .waiting && k.tileA == some n then
      { k with req := { k.req with tile := new } }
    else k
  { s with eng := { s.eng with jobs := s.eng.jobs.map set } }

/-- A leaf's effects: its output, FLG, and its completion. -/
def State.finishLeaf (s : State) (j : Job) : State :=
  let d := j.req.bytes
  let p := s.jobPath j
  let w := fieldN d 48 2
  let lf := codeFmt (fieldN d 53 1)
  let yf := codeFmt (fieldN d 54 1)
  let qs := activeNodes p
  s.withRecords j true qs fun recs s =>
    let out := p.active.map fun r =>
      let rb := ((recs.find? (·.1 == p.node r)).map (·.2)).getD []
      (r, leafRow lf yf (j.req.arg 6 != 0) (fieldN d 51 1) w (s.layerA j r) rb)
    let fl := out.foldl (fun f o => f ||| o.2.2) 0
    let s :=
      if j.req.arg 5 < 8 then
        match j.owner with
        | some t =>
          let n := BitVec.ofNat 4 (j.req.arg 5)
          let s := s.updRegs t fun r =>
            let old := r.rdT n
            let rows := old.rows.zipIdx.map fun q =>
              match out.find? (·.1 == q.2) with
              | some o => rowOf (fmtWidth yf) o.2.1
              | none => q.1
            r.wrT n (Tile.ofRows rows [] yf)
          s.passTile t (j.req.arg 5) j.num
        | none => s
      else
        s.jobPut j (out.flatMap fun o =>
          cellsAt (homeCluster j.die j.cl (layerRow d true (fieldN d 54 1) o.1).1)
            (denseBytes (fmtWidth yf) o.2.1))
    let q := s.jobPath j
    let s := s.setPath j { q with hdr := pathHdr q.level q.nrows (q.flg ||| matrixFlags fl) }
    { s with free := s.free + 1 }.completeJob j 0 (layerDone s j qs.length qs.length)

/-- TDLEAF_COMPLETE (R254). -/
def execTdleafComplete (s : State) : Out :=
  match s.arg with
  | .num n =>
    match s.job n with
    | none => .next s
    | some j => if j.req.kind ≠ .tdleaf ∨ !j.goes ∨ !s.jobsRun j.rid then .next s else .next (s.finishLeaf j)
  | _ => .next s

end Sys2Proof.Machine
end

