-- ==== Sys2Proof/Machine/Skive.lean ====
section
/-!
DEFINITION. The instructions of the skive unit (R271-R273).
-/
namespace Sys2Proof.Machine

/-- Submitting a skive job (R271, R272). Its command carries the tile, IMASK, the codes of FMTA and FMTB,
and s(SY) where the form has one. -/
def submitSkive (kind : JobKind) (useY : Bool) (i : TInsn) (s : State) (x : Flight) : Flight :=
  withDescriptor s i x fun h x =>
    withTileA i false i.ta x fun t =>
      x.submit { x.newJob kind 2 with
        ev := i.mod.getLsbD 3, recAt := some (h, 64), tile := t
        args := [i.ta.setWidth 64, i.imask.setWidth 64, i.fmta.code.setWidth 64,
          i.fmtb.code.setWidth 64, if useY then x.rdS i.sy else 0] }

/-- SKPRED: s(SY) holds the threshold (R271). -/
def execSkpred (i : TInsn) (s : State) : Out :=
  act s (s.x.scalarAct i.g (submitSkive .skpred true i s))

/-- SKFETCH (R271). -/
def execSkfetch (i : TInsn) (s : State) : Out :=
  act s (s.x.scalarAct i.g (submitSkive .skfetch false i s))

/-- SKCHK (R271). -/
def execSkchk (i : TInsn) (s : State) : Out :=
  act s (s.x.scalarAct i.g (submitSkive .skchk false i s))

/-- SKRPL: s(SY) holds the bound and the budget (R271). -/
def execSkrpl (i : TInsn) (s : State) : Out :=
  act s (s.x.scalarAct i.g (submitSkive .skrpl true i s))

/-- FLG of a work-area header in the places of FFLAGS (R263). -/
def skiveFlags (n : Nat) : BitVec 5 :=
  (if bit n 0 then fNV else 0) ||| (if bit n 1 then fOF else 0) ||| (if bit n 2 then fUF else 0)
    ||| (if bit n 3 then fNX else 0)

/-- The field of a work-area header that a query reads (R263, R273). -/
def skiveQuery (q : Nat) (hdr : List Byte) : Nat :=
  match q with
  | 0 => fieldN hdr 4 4
  | 1 => fieldN hdr 8 4
  | 2 => fieldN hdr 12 4
  | 3 => fieldN hdr 16 4
  | 4 => fieldN hdr 20 4
  | 5 => fieldN hdr 1 1
  | _ => fieldN hdr 0 1

/-- SKSTAT: the header at its home, past the snapshot (R273). -/
def execSkstat (i : TInsn) (s : State) : Out :=
  act s (s.x.scalarAct i.g fun x =>
    x.withAccess (s.access x (i.aux.extractLsb' 0 4) 1 .load (x.rdS i.sx) 64 64 0 false) false fun hs x =>
      let hdr := hs.map (smGet 0 s.mem.cells)
      (x.flag (skiveFlags (fieldN hdr 2 1))).wrS i.sy
        (BitVec.ofNat 64 (skiveQuery i.mod.toNat hdr)))

end Sys2Proof.Machine
end

