-- ==== Sys2Proof/Machine/JobsSkive.lean ====
section
/-!
DEFINITION. The jobs of the skive unit from dispatch to completion (R261-R272, R432, R433).
-/
namespace Sys2Proof.Machine

/-! ### The layer (R261-R263) -/

/-- WIDTH of a layer. -/
def skD (d : List Byte) : Nat := fieldN d 48 2

/-- ROWS of a layer. -/
def skRows (d : List Byte) : Nat := fieldN d 58 1

/-- Bytes of a row of W1 or W2. -/
def skRowBytes (d : List Byte) : Nat := ceilDiv (skD d * codeWidth (fieldN d 51 1)) 8

/-- The spaces of W1, W2 and the shadow, and of P and Q. -/
def skSpace (d : List Byte) (pq : Bool) : Nat := if pq then bits (fieldN d 55 1) 5 3 else bits (fieldN d 55 1) 2 0

/-- The offset of FBM, MBM or RBM (numbers 0 to 2) in the work area (R262). -/
def skMap (d : List Byte) (k : Nat) : Nat := 576 + k * skNb d

/-- The offset of KEY. -/
def skKeyAt (d : List Byte) : Nat := 576 + 3 * skNb d

/-- The offset of Y. -/
def skYAt (d : List Byte) : Nat := skKeyAt d + skKb d

/-- Whether a bit of a bitmap of a work area is 1. -/
def skBit (d w : List Byte) (map i : Nat) : Bool := bit (fieldN w (skMap d map + i / 8) 1) (i % 8)

/-- A bitmap from its members. -/
def skBitmap (d : List Byte) (p : Nat → Bool) : List Byte :=
  (List.range (skNb d)).map fun q =>
    BitVec.ofNat 8 ((List.range 8).foldl (fun a k => a + (if decide (8 * q + k < skNeurons d) && p (8 * q + k)
      then 2 ^ k else 0)) 0)

/-- Flags as the header's FLG holds them (R263). -/
def skFlg (f : BitVec 5) : Nat := flgBits f / 2 ^ 20

/-- Whether a descriptor, the formats or s(SY) are outside R261 and R272. -/
def skiveBad (j : JobReq) : Bool :=
  let d := j.bytes
  let w := skD d
  let wf := fieldN d 51 1
  let pf := fieldN d 52 1
  let sp (v : Nat) : Bool := v == 0 || v == 3
  let sy := j.arg 4
  let lo := elemVal .fp32 (bits sy 31 0)
  let hi := elemVal .fp32 (bits sy 63 32)
  w % 8 != 0 || w < 8 || decide (8192 < w) || fieldN d 50 1 == 0 || decide (64 < fieldN d 50 1)
    || !(wf == 0 || wf == 2 || wf == 3 || wf == 4 || wf == 5) || !(pf == 0 || pf == 2 || pf == 3)
    || decide (1 < fieldN d 53 1) || !sp (skSpace d false) || !sp (skSpace d true)
    || bits (fieldN d 55 1) 7 6 != 0 || skRows d == 0 || decide (128 < skRows d)
    || (decide (31 < fieldN d 59 1) && fieldN d 59 1 != 0xff) || !zeroIn d 62 2
    || fieldN d 40 8 % 64 != 0 || decide (49152 < fieldN d 60 2 + 2 * skRowBytes d)
    || j.arg 3 != wf || decide (rowLen (codeFmt (j.arg 2)) < w)
    || (j.kind == .skpred && (bits sy 63 32 != 0 || lo.isNan))
    || (j.kind == .skrpl && (bits sy 31 17 != 0 || decide (65536 < bits sy 16 0) || hi.isNan
          || (hi.isNeg && !hi.isZero)))

/-- A row at its stride. -/
def skSpan (d : List Byte) (base stride n i : Nat) : Nat × Nat := (wide (fieldN d base 8) + i * stride, n)

/-- Rows of W1 and then of W2. -/
def skWSpans (d : List Byte) (ns : List Nat) : List (Nat × Nat) :=
  ns.map (skSpan d 0 (skWstr d) (skRowBytes d)) ++ ns.map (skSpan d 8 (skWstr d) (skRowBytes d))

/-- Rows of P and then of Q. -/
def skPSpans (d : List Byte) : List (Nat × Nat) :=
  let n := ceilDiv (fieldN d 50 1 * codeWidth (fieldN d 52 1)) 8
  (List.range (skD d)).map (skSpan d 16 (skPstr d) n) ++ (List.range (skNeurons d)).map (skSpan d 24 (skPstr d) n)

/-- Rows of the shadow. -/
def skShSpans (d : List Byte) : List (Nat × Nat) :=
  (List.range (skNeurons d)).map (skSpan d 32 (skSstr d) (17 * ceilDiv (skD d) 32 + 2))

/-- Whether rows pass the handle of the weights, the shadow and the predictor. -/
def skReads (j : JobReq) (pq : Bool) (l : List (Nat × Nat)) : Bool :=
  l.all fun p => handleOk j.hs (bits (fieldN j.bytes 54 1) 3 0) (skSpace j.bytes pq) .load p.1 p.2

/-- Whether the bytes that a job reads and writes whatever its data pass their handles and are data
(R162, R165, R272). -/
def State.skiveInside (s : State) (j : Job) : Bool :=
  let d := j.req.bytes
  let h := bits (fieldN d 54 1) 7 4
  handleOk j.req.hs h 1 .load (ptr (fieldN d 40 8)) (skArea d)
    && handleOk j.req.hs h 1 .store (ptr (fieldN d 40 8)) (skArea d)
    && (s.clusterKind j.die j.cl (fieldN d 40 8) (skArea d)).isNone && s.recordIsData j
    && (match j.req.kind with
        | .skpred => skReads j.req true (skPSpans d)
        | .skfetch => true
        | _ => skReads j.req false (skShSpans d))

/-- The work area as a job reads it. -/
def State.skiveArea (s : State) (j : Job) : List Byte :=
  s.jobBytes j ((addrs (fieldN j.req.bytes 40 8) (skArea j.req.bytes)).map (homeCluster j.die j.cl))

/-- Whether STATE of the work area takes a job (R265). -/
def skStateOk (k : JobKind) (w : List Byte) : Bool :=
  let v := fieldN w 0 1
  match k with
  | .skfetch => v == 1
  | .skchk => v == 2
  | .skrpl => v == 3 || v == 4
  | _ => true

/-! ### Arithmetic -/

/-- A product rounded to FP32 under RNE. -/
def mulF32 (a b : Num) : Res :=
  let (p, f) := mulNum a b
  (toFloat fp32Info p .rne false).also (f ||| sigFlag [a, b])

/-- act of R261. -/
def skAct (square : Bool) (h : Nat) : Res :=
  let v := elemVal .fp32 h
  if v.isNan then ⟨0, fNV, false⟩
  else if v.isNeg || v.isZero then ⟨0, 0, false⟩
  else if square then mulF32 v v
  else ⟨h, 0, false⟩

/-- Whether one FP32 value is greater than another; a NaN never is. -/
def gtF32 (a b : Nat) : Bool :=
  let va := elemVal .fp32 a
  let vb := elemVal .fp32 b
  !va.isNan && !vb.isNan && decide (va.cmp vb > 0)

/-- Whether one FP32 value is at most another; a NaN never is. -/
def leF32 (a b : Nat) : Bool :=
  let va := elemVal .fp32 a
  let vb := elemVal .fp32 b
  !va.isNan && !vb.isNan && decide (va.cmp vb ≤ 0)

/-- The greatest of FP32 values; with a NaN among them the spec states none, and it is free. -/
def maxF32 (free : Nat) : List Nat → Nat
  | [] => 0
  | e :: es =>
    if (e :: es).any fun x => (elemVal .fp32 x).isNan then (Config.freeWord free).toNat % 2 ^ 32
    else es.foldl (fun m x => if gtF32 x m then x else m) e

/-- The rows of x as values. -/
def skX (j : JobReq) : List (List Num) :=
  let f := codeFmt (j.arg 2)
  ((j.tile.getD Tile.fresh).rows.take (skRows j.bytes)).map fun r =>
    (elemsAt (fmtWidth f) (skD j.bytes) r).map (elemVal f)

/-- A row of weights as values. -/
def skVals (d : List Byte) (bs : List Byte) : List Num := recordVals (codeFmt (fieldN d 51 1)) 0 (skD d) bs

/-! ### The shadow (R269) -/

/-- What the shadow says of one neuron in one row. -/
structure Guess where
  hat   : Nat
  c     : Nat
  flags : BitVec 5
  deriving DecidableEq, Repr, Inhabited

/-- The guesses of one shadow row, one for each active row of x. -/
def skGuess (d : List Byte) (xs : List (List Num)) (bs : List Byte) : List Guess :=
  let nb := ceilDiv (skD d) 32
  let v := operandVals .mxe2m1 (elemsAt 4 (skD d) (leNat (bs.take (16 * nb)))) ((bs.drop (16 * nb)).take nb)
  let norm := elemVal .fp16 (fieldN bs (17 * nb) 2)
  xs.map fun x =>
    let (h, f) := dotFrom 0 (x.zip v)
    let a := skAct (fieldN d 53 1 == 1) h
    let c : Res := match norm with
      | .fin _ _ _ => mulF32 (elemVal .fp32 a.bits) norm
      | _ => ⟨0x7f800000, fNV, false⟩
    ⟨h, c.bits, f ||| a.flags ||| c.flags⟩

/-- The guess for a neuron in a row. -/
def guessAt (g : List (List Guess)) (i b : Nat) : Guess := (((g[i]?).getD [])[b]?).getD ⟨0, 0, 0⟩

/-- The miss set of each active row (R269). -/
def skMisses (d w : List Byte) (g : List (List Guess)) : List (List Nat) :=
  (List.range (skRows d)).map fun b => (List.range (skNeurons d)).filter fun i =>
    !skBit d w 0 i && !skBit d w 2 i && gtF32 (guessAt g i b).hat 0

/-- e_row over a miss set, with its flags. -/
def skERow (g : List (List Guess)) (b : Nat) (miss : List Nat) : Res :=
  miss.foldl (fun (e : Res) i => (addF32 e.bits (guessAt g i b).c).also e.flags) ⟨0, 0, false⟩

/-- All the flags of the guesses. -/
def guessFlags (g : List (List Guess)) : BitVec 5 := g.flatten.foldl (fun f q => f ||| q.flags) 0

/-! ### The replay (R270) -/

/-- A replay under way: each row's miss set and error, the neurons replayed, and BUDGET. -/
structure Replay where
  miss   : List (List Nat)
  e      : List Nat
  done   : List Nat
  budget : Bool
  flags  : BitVec 5
  deriving DecidableEq, Repr, Inhabited

/-- The neurons of an order taken one by one (R270). -/
def replayRun (g : List (List Guess)) (eps beta : Nat) : List Nat → Replay → Replay
  | [], r => r
  | i :: is, r =>
    if r.e.all fun e => leF32 e eps then r
    else if !((r.miss.zip r.e).any fun p => p.1.contains i && gtF32 p.2 eps) then replayRun g eps beta is r
    else if r.done.length = beta then { r with budget := true }
    else
      let miss := r.miss.map (·.filter (· != i))
      let es := miss.zipIdx.map fun p => skERow g p.2 p.1
      replayRun g eps beta is
        { r with miss := miss, e := es.map (·.bits), done := r.done ++ [i], flags := r.flags ||| orFlags es }

/-- A neuron put in its place by KEY descending, then index ascending. -/
def keyInsert (i : Nat) (k : Num) : List (Nat × Num) → List (Nat × Num)
  | [] => [(i, k)]
  | (j, q) :: l => if q.cmp k < 0 then (i, k) :: (j, q) :: l else (j, q) :: keyInsert i k l

/-- The order of R270; a key that is NaN has a free place. -/
def skOrder (d w : List Byte) (free : Nat) : List Nat :=
  let key (i : Nat) : Num :=
    let v := elemVal .fp32 (fieldN w (skKeyAt d + 4 * i) 4)
    if v.isNan then .fin false (Config.pick free i) 1 else v
  (((List.range (skNeurons d)).filter fun i => skBit d w 1 i && !skBit d w 2 i).foldl
    (fun l i => keyInsert i (key i) l) []).map (·.1)

/-- The replay of a job from its work area and the shadow; it reads no weight row (R270, R433). -/
def skReplay (j : JobReq) (w : List Byte) (g : List (List Guess)) (free : Nat) : Replay :=
  let d := j.bytes
  replayRun g (bits (j.arg 4) 63 32) (bits (j.arg 4) 16 0) (skOrder d w free)
    ⟨skMisses d w g, (List.range (skRows d)).map fun b => fieldN w (64 + 4 * b) 4, [], false, 0⟩

/-! ### Dispatch (R272) -/

/-- Bytes of spans of one length, cut one by one. -/
def cutSpans (n : Nat) (spans : List (Nat × Nat)) (bs : List Byte) : List (List Byte) :=
  spans.zipIdx.map fun p => (bs.drop (p.2 * n)).take n

/-- Spans read, their translations marked; a failed one pauses the job. -/
def State.withSpans (s : State) (j : Job) (pq : Bool) (spans : List (Nat × Nat))
    (f : List (List Byte) → State → State) : State :=
  s.withHomes j (skSpace j.req.bytes pq) 1 (spans.flatMap fun p => addrs p.1 p.2) fun hs s =>
    f (cutSpans (spans.headD (0, 0)).2 spans (s.jobBytes j hs)) s

/-- The neurons whose weight rows a job gathers, ascending or in replay order; none while the shadow cannot be
read yet. -/
def State.skGathered (s : State) (j : Job) : Option (List Nat) :=
  let d := j.req.bytes
  let w := s.skiveArea j
  match j.req.kind with
  | .skfetch => some ((List.range (skNeurons d)).filter (skBit d w 0))
  | .skrpl =>
    let sh := skShSpans d
    match s.jobHomes j.die j.cl j.ctx (skSpace d false) 1 (sh.flatMap fun p => addrs p.1 p.2) with
    | .ok hs _ =>
      let g := (cutSpans (sh.headD (0, 0)).2 sh (s.jobBytes j hs)).map (skGuess d (skX j.req))
      some (skReplay j.req w g s.free).done
    | _ => none
  | _ => some []

/-- The checks of a skive job at dispatch (R272): a cluster's unit runs one job at a time, and SKFETCH and
SKRPL hold a matrix island too. -/
def State.checkSkive (s : State) (j : Job) : Check :=
  let k := { j with since := s.mem.nextSeq }
  if s.eng.jobs.any fun q => q.die == j.die && q.cl == j.cl && q.req.kind.isSkive && q.underWay then .wait
  else if skiveBad j.req || !s.skiveInside j || !skStateOk j.req.kind (s.skiveArea k)
      || !((s.skGathered k).elim true fun ns => skReads j.req false (skWSpans j.req.bytes ns)) then .fail
  else if j.req.kind = .skfetch ∨ j.req.kind = .skrpl then s.onIsland j (j.req.arg 1)
  else .go id

/-! ### Completion -/

/-- A skive job's effects: pieces of its work area written, STATE and FLG among them (R263, R265), and its
completion with the record of R272; what R232 puts into bytes 5, 16 to 19 of it and R272 does not state of
this job is free. -/
def State.skiveDone (s : State) (j : Job) (w : List Byte) (st : Nat) (fl : BitVec 5) (user : Nat)
    (patch : List (Nat × List Byte)) : State :=
  let old := if j.req.kind = .skpred then 0 else fieldN w 2 1
  let all := patch ++ [(0, leBytes 1 st), (2, leBytes 1 (old ||| skFlg fl))]
  let r := (Config.freeWord s.free).toNat
  let b16 := if j.req.kind = .skfetch ∨ j.req.kind = .skrpl then
      j.island.val + 256 * j.slot.val + 65536 * (bits r 31 16)
    else bits r 31 0
  let recd := jobRecord j.req.code j.seqno.toNat 0 (bits r 39 32) j.req.barByte 0 user b16 s.tick
  let s := s.jobPut j (all.flatMap fun p => cellsAt (homeCluster j.die j.cl (fieldN j.req.bytes 40 8 + p.1)) p.2)
  { s with free := s.free + 1 }.completeJob j 0 recd

/-- Weight rows gathered into columns of the scratch (R268, R270). -/
def State.skGather (s : State) (j : Job) (rows : List (Nat × List Byte × List Byte)) : State :=
  let d := j.req.bytes
  let i : IslandId := ⟨j.die, j.cl, j.island⟩
  rows.foldl (fun s r =>
    s.poke (cellsAt (homeB i r.1 (fieldN d 60 2)) r.2.1
      ++ cellsAt (homeB i r.1 (fieldN d 60 2 + skRowBytes d)) r.2.2)) s

/-- SKPRED's effects (R267). -/
def State.finishPred (s : State) (j : Job) : State :=
  let d := j.req.bytes
  s.withSpans j true (skPSpans d) fun rows s =>
    let r := fieldN d 50 1
    let pf := codeFmt (fieldN d 52 1)
    let ps := (rows.take (skD d)).map (recordVals pf 0 r)
    let qs := (rows.drop (skD d)).map (recordVals pf 0 r)
    let cols := (List.range r).map fun k => ps.map fun p => (p[k]?).getD (.fin false 0 1)
    let out := (skX j.req).map fun x =>
      let us := cols.map fun c => dotFrom 0 (x.zip c)
      let uv := us.map fun u => elemVal .fp32 u.1
      let ss := qs.map fun q => dotFrom 0 (uv.zip q)
      (ss.map (·.1), (us ++ ss).foldl (fun f q => f ||| q.2) (0 : BitVec 5))
    let theta := bits (j.req.arg 4) 31 0
    let hit (i : Nat) : Bool := out.any fun o => gtF32 ((o.1[i]?).getD 0) theta
    let pred := ((List.range (skNeurons d)).filter hit).length
    s.skiveDone j [] 1 (out.foldl (fun f o => f ||| o.2) 0) pred
      [(1, [0]), (3, [0]), (4, leBytes 4 pred), (8, List.replicate 568 0), (576, skBitmap d hit),
        (skMap d 1, List.replicate (skArea d - skMap d 1) 0)]

/-- SKFETCH's effects (R268). -/
def State.finishFetch (s : State) (j : Job) : State :=
  let d := j.req.bytes
  let w := s.skiveArea j
  let ns := (List.range (skNeurons d)).filter (skBit d w 0)
  if !skReads j.req false (skWSpans d ns) then s.failWith j .engine true
  else s.withSpans j false (skWSpans d ns) fun rows s =>
    let r1 := rows.take ns.length
    let r2 := rows.drop ns.length
    let w1 := r1.map (skVals d)
    let w2 := r2.map (skVals d)
    let cols := (List.range (skD d)).map fun k => w2.map fun q => (q[k]?).getD (.fin false 0 1)
    let out := (skX j.req).map fun x =>
      let hs := w1.map fun q => dotFrom 0 (x.zip q)
      let as := hs.map fun h => skAct (fieldN d 53 1 == 1) h.1
      let av := as.map fun a => elemVal .fp32 a.bits
      let ys := cols.map fun c => dotFrom 0 (av.zip c)
      (hs.map (·.1), ys.map (·.1), orFlags as ||| (hs ++ ys).foldl (fun f q => f ||| q.2) (0 : BitVec 5))
    let hit := (List.range ns.length).filter fun k => out.any fun o => gtF32 ((o.1[k]?).getD 0) 0
    let s := s.skGather j ((r1.zip r2).zipIdx.map fun p => (p.2 % 128, p.1))
    s.skiveDone j w 2 (out.foldl (fun f o => f ||| o.2.2) 0) (fieldN w 4 4)
      [(skYAt d, out.flatMap fun o => o.2.1.flatMap (leBytes 4)), (8, leBytes 4 hit.length)]

/-- SKCHK's effects (R269). -/
def State.finishChk (s : State) (j : Job) : State :=
  let d := j.req.bytes
  let w := s.skiveArea j
  s.withSpans j false (skShSpans d) fun rows s =>
    let g := rows.map (skGuess d (skX j.req))
    let miss := skMisses d w g
    let es := miss.zipIdx.map fun p => skERow g p.2 p.1
    let missed (i : Nat) : Bool := miss.any (·.contains i)
    let key (i : Nat) : Nat :=
      if missed i then
        maxF32 (s.free + 1 + i) ((miss.zipIdx.filter fun p => p.1.contains i).map fun p => (guessAt g i p.2).c)
      else 0
    let n := ((List.range (skNeurons d)).filter missed).length
    let t := s.skiveDone j w 3 (guessFlags g ||| orFlags es) n
      [(skMap d 1, skBitmap d missed), (skKeyAt d, (List.range (skNeurons d)).flatMap fun i => leBytes 4 (key i)),
        (64, es.flatMap fun e => leBytes 4 e.bits), (12, leBytes 4 n),
        (20, leBytes 4 (maxF32 (s.free + 1 + skNeurons d) (es.map (·.bits))))]
    { t with free := t.free + skNeurons d + 2 }

/-- One replayed neuron added to every active row of Y (R270). -/
def skAddNeuron (d : List Byte) (xs : List (List Num)) (y : List (List Nat) × BitVec 5)
    (r : List Byte × List Byte) : List (List Nat) × BitVec 5 :=
  let w1 := skVals d r.1
  let w2 := skVals d r.2
  let out : List (List Nat × BitVec 5) := (y.1.zip xs).map fun (p : List Nat × List Num) =>
    let (h, f) := dotFrom 0 (p.2.zip w1)
    let a := skAct (fieldN d 53 1 == 1) h
    let row : List Res := (p.1.zip w2).map fun (q : Nat × Num) =>
      let m := mulF32 (elemVal .fp32 a.bits) q.2
      (addF32 q.1 m.bits).also m.flags
    (row.map (·.bits), f ||| a.flags ||| orFlags row)
  (out.map (·.1), out.foldl (fun f o => f ||| o.2) y.2)

/-- SKRPL's effects (R270, R432, R433). -/
def State.finishRpl (s : State) (j : Job) : State :=
  let d := j.req.bytes
  let w := s.skiveArea j
  s.withSpans j false (skShSpans d) fun rows s =>
    let xs := skX j.req
    let g := rows.map (skGuess d xs)
    let p := skReplay j.req w g s.free
    let spans := skWSpans d p.done
    if !skReads j.req false spans then s.failWith j .engine true
    else s.withSpans j false spans fun ws s =>
      let pairs := (ws.take p.done.length).zip (ws.drop p.done.length)
      let y0 := (List.range (skRows d)).map fun b => (List.range (skD d)).map fun k =>
        fieldN w (skYAt d + 4 * (skD d * b + k)) 4
      let (y, fy) := pairs.foldl (skAddNeuron d xs) (y0, 0)
      let rbm (i : Nat) : Bool := skBit d w 2 i || p.done.contains i
      let rpl := ((List.range (skNeurons d)).filter rbm).length
      let eps := bits (j.req.arg 4) 63 32
      let status := (if p.e.any fun e => gtF32 e eps then 1 else 0) + (if p.budget then 2 else 0)
      let s := s.skGather j ((pairs.getLast?).toList.map fun q => (0, q))
      let t := s.skiveDone j w 4 (guessFlags g ||| p.flags ||| fy) rpl
        [(skYAt d, y.flatMap fun r => r.flatMap (leBytes 4)), (skMap d 2, skBitmap d rbm),
          (64, p.e.flatMap (leBytes 4)), (16, leBytes 4 rpl),
          (20, leBytes 4 (maxF32 (s.free + 1) p.e)), (1, leBytes 1 status)]
      { t with free := t.free + 1 }

/-- SKPRED_COMPLETE (R267). -/
def execSkpredComplete (s : State) : Out :=
  match s.arg with
  | .num n =>
    match s.job n with
    | none => .next s
    | some j => if j.req.kind ≠ .skpred ∨ !j.goes ∨ !s.jobsRun j.rid then .next s else .next (s.finishPred j)
  | _ => .next s

/-- SKFETCH_COMPLETE (R268). -/
def execSkfetchComplete (s : State) : Out :=
  match s.arg with
  | .num n =>
    match s.job n with
    | none => .next s
    | some j => if j.req.kind ≠ .skfetch ∨ !j.goes ∨ !s.jobsRun j.rid then .next s else .next (s.finishFetch j)
  | _ => .next s

/-- SKCHK_COMPLETE (R269). -/
def execSkchkComplete (s : State) : Out :=
  match s.arg with
  | .num n =>
    match s.job n with
    | none => .next s
    | some j => if j.req.kind ≠ .skchk ∨ !j.goes ∨ !s.jobsRun j.rid then .next s else .next (s.finishChk j)
  | _ => .next s

/-- SKRPL_COMPLETE (R270). -/
def execSkrplComplete (s : State) : Out :=
  match s.arg with
  | .num n =>
    match s.job n with
    | none => .next s
    | some j => if j.req.kind ≠ .skrpl ∨ !j.goes ∨ !s.jobsRun j.rid then .next s else .next (s.finishRpl j)
  | _ => .next s

end Sys2Proof.Machine
end

