-- ==== Sys2Proof/Machine/JobsRoute.lean ====
section
/-!
DEFINITION. Routing jobs (R377-R387), retrieval jobs of the capsule (R398, R407), and the dispatch of every job
that is no tile task (R191, R192).
-/
namespace Sys2Proof.Machine

/-! ### Shape-and-stride entries (R377) -/

/-- A table entry: its fields by the names of R377. -/
structure Shape where
  /-- bits 63:56 of the base, and the address -/
  top    : Nat
  base   : Nat
  fmt    : Nat
  ndim   : Nat
  space  : Nat
  handle : Nat
  dim    : List Nat
  stride : List Int
  deriving DecidableEq, Repr, Inhabited

/-- The entry of 64 bytes; dimensions at or above NDIM have extent 1. -/
def shapeOf (e : List Byte) : Shape :=
  let n := fieldN e 9 1
  ⟨fieldN e 7 1, fieldN e 0 7, fieldN e 8 1, n, fieldN e 10 1, fieldN e 11 1,
    (List.range 4).map fun i => if i < n then fieldN e (16 + 4 * i) 4 else 1,
    (List.range 4).map fun i => toSigned 64 (fieldN e (32 + 8 * i) 8)⟩

/-- Whether an entry breaks R377 in itself. -/
def shapeBad (e : List Byte) : Bool :=
  let h := shapeOf e
  h.ndim == 0 || decide (4 < h.ndim) || decide (1 < h.space) || decide (15 < h.handle) || !zeroIn e 12 4
    || h.dim.any (· == 0)

/-- An extent of an entry. -/
def Shape.ext (h : Shape) (k : Nat) : Nat := (h.dim[k]?).getD 1

/-- The place of element (x0, x1). -/
def Shape.at_ (h : Shape) (x0 x1 : Nat) : Int :=
  h.base + x0 * (h.stride[0]?).getD 0 + x1 * (h.stride[1]?).getD 0

/-- The places of elements (x0, x1), x0 the faster. -/
def Shape.grid (h : Shape) (n0 n1 : Nat) : List Int :=
  (List.range n1).flatMap fun x1 => (List.range n0).map fun x0 => h.at_ x0 x1

/-! ### The record (R378, R379) -/

/-- Entry k of a routing job: 0 scores, 1 IDX, 2 WGT, 3 HIST, 4 RESID. -/
def rtShape (d : List Byte) (k : Nat) : Shape := shapeOf ((d.drop (64 + 64 * k)).take 64)

/-- Experts of a routing job. -/
def rtE (d : List Byte) : Nat := (rtShape d 0).ext 0

/-- Tokens of a routing job. -/
def rtT (d : List Byte) : Nat := (rtShape d 0).ext 1

/-- Whether a job is in EXPERT mode. -/
def rtExpert (d : List Byte) : Bool := fieldN d 2 1 == 1

/-- Slots of a row or column. -/
def rtSlots (d : List Byte) : Nat := if rtExpert d then fieldN d 10 2 else fieldN d 9 1

/-- Rows (TOKEN) or columns (EXPERT). -/
def rtRows (d : List Byte) : Nat := if rtExpert d then rtE d else rtT d

/-- Whether an expert is excluded. -/
def rtDead (d : List Byte) (e : Nat) : Bool := bit (fieldN d 16 32) e

/-- Whether a record or its entries break R377 to R379. DEDUCED: IDX and WGT, whose shape has two extents, have
no others. -/
def rtBad (d : List Byte) : Bool :=
  let s := rtShape d 0
  let idx := rtShape d 1
  let wgt := rtShape d 2
  let hist := rtShape d 3
  let res := rtShape d 4
  let x := rtExpert d
  let g := fieldN d 12 1
  let two (h : Shape) : Bool := h.ext 0 == rtSlots d && h.ext 1 == rtRows d && h.ext 2 == 1 && h.ext 3 == 1
  (List.range 5).any (fun k => decide (63 < fieldN d (4 + k) 1) || shapeBad ((d.drop (64 + 64 * k)).take 64))
    || fieldN d 0 2 != 0x50 || decide (1 < fieldN d 2 1) || decide (2 < fieldN d 3 1) || !zeroIn d 15 1
    || !zeroIn d 48 16
    || (if x then fieldN d 9 1 != 0 || fieldN d 10 2 == 0 || decide (4096 < fieldN d 10 2) || g != 1
        else fieldN d 9 1 == 0 || decide (16 < fieldN d 9 1) || fieldN d 10 2 != 0)
    || g == 0 || decide (16 < g) || rtE d % g != 0 || fieldN d 13 1 == 0 || decide (g < fieldN d 13 1)
    || decide (256 < rtE d) || decide (65536 < rtT d) || fieldN d 16 32 / 2 ^ rtE d != 0
    || !(s.fmt == 0 || s.fmt == 2 || s.fmt == 3) || idx.fmt != (if x then 0x11 else 0x13) || !two idx
    || wgt.fmt != 0 || !two wgt || hist.fmt != 0x11 || hist.ext 0 != rtE d + 4
    || res.fmt != 0x14 || res.ext 0 != ceilDiv (rtT d) 8

/-- The elements of entry k that a job reads or writes, in the order of `Shape.grid`. -/
def rtPlaces (d : List Byte) (k : Nat) : List Int :=
  let h := rtShape d k
  match k with
  | 0 => h.grid (rtE d) (rtT d)
  | 1 | 2 => h.grid (rtSlots d) (rtRows d)
  | 3 => h.grid (rtE d + 4) 1
  | _ => h.grid (ceilDiv (rtT d) 8) 1

/-- Bytes of the elements of entry k that stand at places, with bits 63:56 of the entry's base. -/
def rtAddrs (d : List Byte) (k n : Nat) : List Nat :=
  (rtPlaces d k).flatMap fun a => addrs ((rtShape d k).top * 2 ^ 64 + a.toNat) n

/-- Bytes of an element of entry k. -/
def rtUnit (d : List Byte) (k : Nat) : Nat := codeWidth (rtShape d k).fmt / 8

/-- Whether every byte of entry k passes its handle and is data (R162, R165). -/
def State.rtInside (s : State) (j : Job) (k : Nat) : Bool :=
  let d := j.req.bytes
  let h := rtShape d k
  let n := rtUnit d k
  (rtPlaces d k).all fun a =>
    decide (0 ≤ a) && handleOk j.req.hs h.handle h.space (if k = 0 then .load else .store) a.toNat n
      && (h.space != 1 || (s.clusterKind j.die j.cl a.toNat n).isNone)

/-- Whether a routing job has come to its die's engine before another: by the tick, then by ascending cluster, then in
the order of submission (R384). -/
def Job.comesBefore (q j : Job) : Bool :=
  match q.arrived, j.arrived with
  | some a, some b => decide (a < b ∨ a = b ∧ (q.cl < j.cl ∨ q.cl = j.cl ∧ q.num < j.num))
  | _, _ => false

/-- Whether a die's routing engine takes a job next: it has come to the engine in a tick that is over, nothing runs there,
and no job that waits there came before it (R384). -/
def State.routeTurn (s : State) (j : Job) : Bool :=
  j.arrived.isSome && !s.eng.jobs.any fun q =>
    q.die == j.die && q.req.kind == .rtjob && (q.underWay || (q.state == .waiting && q.comesBefore j))

/-- The checks of a routing job at dispatch (R377, R384); a die's engine runs one job at a time. -/
def State.checkRoute (s : State) (j : Job) : Check :=
  if !s.routeTurn j then .wait
  else if j.req.arg 0 == 0 || rtBad j.req.bytes || !s.recordIsData j || !(List.range 5).all (s.rtInside j) then .fail
  else .go id

/-! ### Selection (R380) -/

/-- The scores as values, expert e of token t at `t * E + e`; one that is NaN or of a dead expert is not live. -/
def rtLive (d : List Byte) (sc : List Num) (e t : Nat) : Option Num :=
  match (sc[t * rtE d + e]?).getD (.nan false) with
  | .nan _ => none
  | v => if rtDead d e then none else some v

/-- Candidates ordered by score descending, then by number ascending. -/
def rtOrder (l : List (Nat × Num)) : List (Nat × Num) := l.foldl (fun o p => keyInsert p.1 p.2 o) []

/-- The slots of a token's row: its experts with their scores, in slot order. -/
def rtRow (d : List Byte) (sc : List Num) (t : Nat) : List (Nat × Num) :=
  let g := fieldN d 12 1
  let per := rtE d / g
  let live := (List.range (rtE d)).filterMap fun e => (rtLive d sc e t).map fun v => (e, v)
  let best := (List.range g).filterMap fun k =>
    ((rtOrder (live.filter fun p => p.1 / per == k)).head?).map fun p => (k, p.2)
  let kept := ((rtOrder best).take (fieldN d 13 1)).map (·.1)
  (rtOrder (if 1 < g then live.filter fun p => kept.contains (p.1 / per) else live)).take (fieldN d 9 1)

/-- The slots of an expert's column: its tokens with their scores. -/
def rtCol (d : List Byte) (sc : List Num) (e : Nat) : List (Nat × Num) :=
  (rtOrder ((List.range (rtT d)).filterMap fun t => (rtLive d sc e t).map fun v => (t, v))).take (fieldN d 10 2)

/-- Every row or column. -/
def rtChosen (d : List Byte) (sc : List Num) : List (List (Nat × Num)) :=
  (List.range (rtRows d)).map (if rtExpert d then rtCol d sc else rtRow d sc)

/-! ### Weights (R381) -/

/-- A value widened or rounded to FP32 under RNE. -/
def toF32 (v : Num) : Nat := (toFloat fp32Info v .rne false).bits

/-- An FP32 value within relative error 2^-20 of a positive one: which one is the deviation's choice. -/
def relNear (x : Mag) (dev : Int) : Nat :=
  let u := gridExp fp32Info x
  let m0 := magBits fp32Info (x.floorAt u) u
  let ok := (List.range 37).filterMap fun k =>
    let m := m0 + k
    if m < 18 ∨ fp32Info.max < m - 18 then none
    else
      let e := (addNum (magOf fp32Info (m - 18)) (.fin true x.n x.d) .rne).1.abs
      if e.cmp (.fin false x.n (x.d * 2 ^ 20)) ≤ 0 then some (m - 18) else none
  (ok[(dev % (max ok.length 1 : Nat)).toNat]?).getD m0

/-- A value's input to the deviation of exp and σ: equal for equal values. -/
def devKey (v : Num) : Nat :=
  match v with
  | .fin s n d => let g := Nat.gcd n d; (if s then 1 else 0) + 2 * (n / g + 2 ^ 700 * (d / g))
  | _ => 0

/-- exp of a value that is at most 0 (R381); exp(0) is exactly 1, exp(-inf) is +0, and a NaN gives a NaN. -/
def rtExp (v : Num) : Nat :=
  match v with
  | .nan _ => 0x7fc00000
  | .inf s => if s then 0 else 0x7f800000
  | .fin _ n d => if n = 0 then 0x3f800000 else relNear ⟨fxExpNeg n d, fxOne, false⟩ (Config.deviation 0x3280 (devKey v))

/-- σ of a value (R381). DEDUCED: σ(0) is exactly one half, since exp(0), the addition and the division are exact
there. -/
def rtSigma (v : Num) : Nat :=
  match v with
  | .nan _ => 0x7fc00000
  | .inf s => if s then 0 else 0x3f800000
  | .fin s n d =>
    let e := fxExpNeg n d
    if n = 0 then 0x3f000000 else relNear (if s then ⟨e, fxOne + e, false⟩ else ⟨fxOne, fxOne + e, false⟩) (Config.deviation 0x3281 (devKey v))

/-- The weights of the chosen slots. DEDUCED: `s_j - m` is taken exactly, since only the division and the
additions of the sum are said to round. -/
def rtWeights (norm : Nat) (vs : List Num) : List Nat :=
  match norm with
  | 0 => vs.map toF32
  | 2 => vs.map rtSigma
  | _ =>
    let m := (vs.headD (.fin false 0 1)).negate
    let es := vs.map fun v => rtExp (addNum v m .rne).1
    let t := es.foldl (fun a e => (addF32 a e).bits) 0
    es.map fun e => toF32 (divNum (elemVal .fp32 e) (elemVal .fp32 t)).1

/-! ### Completion (R382, R384, R387) -/

/-- HIST and the residual tokens. -/
def rtHist (d : List Byte) (ch : List (List (Nat × Num))) : List Nat × List Nat :=
  let x := rtExpert d
  let held : List Nat := if x then ch.flatMap fun r => r.map (·.1) else
    (List.range (rtT d)).filter fun t => !((ch[t]?).getD []).isEmpty
  let resid := (List.range (rtT d)).filter fun t => !held.contains t
  let short := (ch.zipIdx.filter fun p => decide (p.1.length < rtSlots d) && !(x && rtDead d p.2)).length
  let counts := if x then ch.map (·.length) else
    let all := ch.flatMap fun r => r.map (·.1)
    (List.range (rtE d)).map fun e => all.count e
  (counts ++ [if short = 0 then 0 else 1, resid.length, short, 0], resid)

/-- The expert slots after a job that completes at a tick; an SWR of that tick stands (R387). -/
def Die.reuse (d : Die) (tick e : Nat) (hist : List Nat) : Die :=
  { d with exslots := Vector.ofFn fun g =>
      let x := d.exslots[g]
      if (d.exslot g).valid && x.wrote != tick + 1 then
        let hit : Int := if decide (x.expert.toNat < e) && (hist[x.expert.toNat]?).getD 0 != 0 then 255 else 0
        { x with prob := BitVec.ofInt 8 (x.prob.toNat + (hit - x.prob.toNat).tdiv 8) }
      else x }

/-- The bytes of a routing job's outputs, entry by entry. -/
def rtOutput (d : List Byte) (ch : List (List (Nat × Num))) : List (List (List Byte)) :=
  let n := rtSlots d
  let w := rtUnit d 1
  let fill (l : List Nat) (v : Nat) : List Nat := l.take n ++ List.replicate (n - l.length) v
  let (hist, resid) := rtHist d ch
  [ch.flatMap fun r => (fill (r.map (·.1)) (2 ^ (8 * w) - 1)).map (leBytes w),
    ch.flatMap fun r => (fill (rtWeights (fieldN d 3 1) (r.map (·.2))) 0).map (leBytes 4),
    hist.map (leBytes 4),
    (List.range (ceilDiv (rtT d) 8)).map fun q =>
      leBytes 1 ((List.range 8).foldl (fun a k => a + (if resid.contains (8 * q + k) then 2 ^ k else 0)) 0)]

/-- Outputs written entry after entry once all translate; a failed translation pauses the job. -/
def State.rtWrite (s : State) (j : Job) (f : List Host.Cell → State → State) :
    List (Nat × List (List Byte)) → List Host.Cell → State
  | [], cells => f cells s
  | (k, es) :: rest, cells =>
    let n := rtUnit j.req.bytes k
    let as := rtAddrs j.req.bytes k n
    match s.jobHomes j.die j.cl j.ctx (rtShape j.req.bytes k).space 2 as with
    | .held => s.modJob j.num fun j => { j with held := true }
    | .bad code page va => s.pauseJob j code page va
    | .fail code => s.failWith j code true
    | .ok hs ms => State.rtWrite (s.markAll j.die j.ctx ms true) j f rest (cells ++ hs.zip es.flatten)

/-- A routing job's effects; what R232 puts into bytes 5 and 16 to 19 of its record is free. -/
def State.finishRoute (s : State) (j : Job) : State :=
  let d := j.req.bytes
  let n := rtUnit d 0
  s.withHomes j (rtShape d 0).space 1 (rtAddrs d 0 n) fun hs s =>
    let bs := s.jobBytes j hs
    let f := codeFmt (rtShape d 0).fmt
    let sc := (List.range (rtE d * rtT d)).map fun k => elemVal f (fieldN bs (n * k) n)
    let ch := rtChosen d sc
    let hist := rtHist d ch
    s.rtWrite j (fun cells s =>
      let r := (Config.freeWord s.free).toNat
      let recd := jobRecord 0x50 j.seqno.toNat 0 (bits r 39 32) j.req.barByte 0 hist.2.length (bits r 31 0) s.tick
      let s := (s.jobPut j cells).modDie j.die fun d' => d'.reuse s.tick (rtE d) hist.1
      { s with free := s.free + 1 }.completeJob j 0 recd)
      ((rtOutput d ch).zipIdx.map fun p => (p.2 + 1, p.1)) []

/-- RTJOB_COMPLETE (R384). -/
def execRtjobComplete (s : State) : Out :=
  match s.arg with
  | .num n =>
    match s.job n with
    | none => .next s
    | some j => if j.req.kind ≠ .rtjob ∨ !j.goes ∨ !s.jobsRun j.rid then .next s else .next (s.finishRoute j)
  | _ => .next s

/-! ### Retrieval (R398, R407) -/

/-- The checks of CAPS.get at dispatch. -/
def State.checkCaps (s : State) (j : Job) : Check :=
  if s.dbg.capsule.ready && decide (s.capsSize j.ctx (j.req.arg 3 != 0) ≤ j.req.arg 1) then .go id else .fail

/-- CAPS_GET_COMPLETE: the image is written, and a SEALED capsule becomes RETRIEVED (R399). -/
def execCapsGetComplete (s : State) : Out :=
  match s.arg with
  | .num n =>
    match s.job n with
    | none => .next s
    | some j =>
      if j.req.kind ≠ .capsGet ∨ !j.goes ∨ !s.jobsRun j.rid then .next s
      else
        let img := s.capsImage j.ctx (j.req.arg 3 != 0)
        .next (s.withHomes j 0 2 (addrs (wide (j.req.arg 0)) img.length) fun hs s =>
          let c := s.dbg.capsule
          let c := if c.state = .sealed_ then { c with state := .retrieved } else c
          let s := { s with dbg := { s.dbg with capsule := c } }
          (s.jobPut j (hs.zip img)).completeJob j 0 [])
  | _ => .next s

/-! ### Dispatch (R192) -/

/-- The checks of a job that is no tile task, by its kind. -/
def State.checkJob (s : State) (j : Job) : Check :=
  match j.req.kind with
  | .copyLinear => s.checkLinear j
  | .copyTensor => s.checkTensor j
  | .copyRing => s.checkRing j
  | .cpyb => s.checkCpyb j
  | .mrdWrite => .go id
  | .tdstep => s.checkStep j
  | .tdleaf => s.checkLeaf j
  | .skpred | .skfetch | .skchk | .skrpl => s.checkSkive j
  | .rtjob => s.checkRoute j
  | .capsGet => s.checkCaps j
  | .task | .mzero => .wait

/-- Whether a kind of job holds a slot of a matrix island (R251, R254, R272). -/
def JobKind.holdsSlot : JobKind → Bool
  | .tdstep | .tdleaf | .skfetch | .skrpl => true
  | _ => false

/-- A job started: its slot held, and a ring-fed copy's first slots written. -/
def State.beginJob (s : State) (j : Job) (f : Job → Job) : State :=
  let s := s.startJob j f
  let k := f j
  let s := if j.req.kind.holdsSlot then s.setSlot ⟨k.die, k.cl, k.island⟩ k.slot ⟨.held k.num, [], 0⟩ else s
  if j.req.kind = .copyRing then s.feedSlots 256 k.num else s

/-- JOB_DISPATCH: a job whose predecessors have completed passes its checks and starts, or fails ENGINE; tile
tasks have an event of their own (R192, R233, R437). -/
def execJobDispatch (s : State) : Out :=
  match s.arg with
  | .num n =>
    match s.job n with
    | none => .next s
    | some j =>
      if j.req.kind = .task ∨ j.req.kind = .mzero then .next s
      else
        let s := s.recapture j
        let j := (s.job n).getD j
        if !s.dispatchable j || j.uncaptured then .next s
        else
        let j := s.readTile j
        let s := s.modJob n fun _ => j
        if !s.barOk j then .next (s.failWith j .engine false)
        else match s.checkJob j with
          | .wait => .next s
          | .fail => .next (s.failWith j .engine false)
          | .go f => .next (s.beginJob j f)
  | _ => .next s

end Sys2Proof.Machine
end

