-- ==== Sys2Proof/Machine/Nodes.lean ====
section
/-!
DEFINITION. The firings of nodes that are no gang (R235, R236, R281, R284), the accesses and fences of memory
nodes (R169, R193, R360, R362) and collective units (R372, R373).
-/
namespace Sys2Proof.Machine

/-- The region and element of a node that may fire and is of a kind. -/
def State.nodeOf (s : State) (n : NodeId) (k : ElKind) : Option (Region × Nat) :=
  match s.region n.rid with
  | some r =>
    if elKind n.el.toNat == some k && s.nodeRuns r n.el.toNat then some (r, n.el.toNat) else none
  | none => none

/-! ### Stream nodes (R235) -/

/-- Whether an incomplete job of a node's cluster writes the slices of B that a stream node reads (R235, R191). -/
def State.sliceBusy (s : State) (i : IslandId) (l : List (Nat × Nat)) : Bool :=
  let rs := l.flatMap fun p => sliceSpan (2 ^ i.island.val) p.1 p.2
  s.eng.jobs.any fun j => j.die == i.die && j.cl == i.cluster && j.writes.any fun w => rs.any w.meets

/-- The slices of B that a stream node reads: values, scales and masks. -/
def Region.nodeSlices (r : Region) (el : Nat) : List (Nat × Nat) :=
  let fb := bits (r.field el 1) 9 5
  let k := r.field el 2
  let nsp := r.field el 6
  let rows := if nsp = 0 then k else k / 12 * nsp
  (r.field el 3, ceilDiv (rows * codeWidth fb) 8)
    :: ((if codeMx fb then [(r.field el 4, k / 32)] else [])
      ++ (if nsp = 0 then [] else [(r.field el 5, 2 * (k / 12))]))

/-- STREAM_NODE_FIRING (R235). DEDUCED: a malformed mask faults ENGINE as a task's does (R228). -/
def execStreamNodeFiring (s : State) : Out :=
  match s.arg with
  | .node n =>
    match s.nodeOf n .stream with
    | none => .next s
    | some (r, el) =>
      match (r.inPorts el)[0]?, (r.outPorts el)[0]? with
      | some p, some o =>
        let i := r.nodeIsl el
        if !s.roomAt r.rid el o 1 || s.sliceBusy i (r.nodeSlices el) then .next s
        else
          match s.takeAt r.rid el p (r.field el 8 1) with
          | none => .next s
          | some (ts, s) =>
            let fm := r.field el 1
            let k := r.field el 2
            let out := codeFmt (bits fm 14 10)
            match s.columnsB i (codeFmt (bits fm 9 5)) k (r.field el 6) (r.field el 3) (r.field el 4) (r.field el 5) with
            | none => .next (s.nodeFault r el { code := .engine })
            | some b =>
              let slot : Fin 4 := ⟨r.field el 7 % 4, Nat.mod_lt _ (by decide)⟩
              let a := s.slot i slot
              let (v, f) := ts.foldl (fun (q : SMap 32 × BitVec 5) t =>
                let (v, g) := arrayAdd q.1 (packedA (codeFmt (bits fm 4 0)) k t.bytes) b
                (v, q.2 ||| g)) (a.vals, 0)
              let res := (accRows v).map fun row => row.map fun x => cvtVal ⟨.rne, true, false, false⟩ out .fp32 x 1
              let bytes := res.flatMap fun row => denseBytes (fmtWidth out) (row.map (·.bits))
              let f := res.foldl (fun f row => f ||| orFlags row) f
              let s := s.setSlot i slot ⟨.stream, [], 0⟩
              let m := s.mat i
              let s := s.setMat { m with msflg := m.msflg ||| matrixFlags f }
              .next ((s.pushAt r.rid el o ⟨out, bytes⟩).fired r.rid el)
      | _, _ => .next s
  | _ => .next s

/-! ### Repeat nodes (R236) -/

/-- A count token's count. -/
def countOf (t : Token) : Nat := fieldN t.bytes 0 4

/-- A repeat node's firing ends: its count token is popped. -/
def State.endRepeat (s : State) (rid el cnt : Nat) : State :=
  match s.takeAt rid el cnt 1 with
  | some (_, s) => (s.modRun rid el fun u => { u with buffer := [], iter := [] }).fired rid el
  | none => s

/-- REPEAT_NODE_FIRING: one move of a firing. While tokens are wanting one is absorbed into the buffer; then
one is pushed, as often as the count says; at the end the count token is popped. DEDUCED: the ports stand in
the order cnt, in, out, and the buffer holds the tokens' slots one after another from BUF. -/
def execRepeatNodeFiring (s : State) : Out :=
  match s.arg with
  | .node n =>
    match s.nodeOf n .copy with
    | none => .next s
    | some (r, el) =>
      match (r.inPorts el)[0]?, (r.inPorts el)[1]?, (r.outPorts el)[0]? with
      | some pc, some pi, some po =>
        let u := r.run el
        let len := r.field el 6
        match (s.waitingAt r.rid el pc).head? with
        | none => .next s
        | some t =>
          let c := countOf t
          if r.field el 1 ≠ 1 ∨ !s.repeatHolds r el then .next s
          else if 65535 < c then .next (s.nodeFault r el { code := .engine })
          else if u.buffer.length < len then
            match s.takeAt r.rid el pi 1 with
            | none => .next s
            | some (ts, s) =>
              let at_ := r.field el 8 + (ts.foldl (fun a t => a + t.bytes.length) 0) * u.buffer.length
              let s := s.put (.cluster r.die (r.cluster (elCluster el))) 2
                (ts.flatMap fun t => cellsAt (homeCluster r.die (r.cluster (elCluster el)) at_) t.bytes)
              let s := s.modRun r.rid el fun u =>
                { u with buffer := u.buffer ++ ts, iter := [c * len] }
              .next (if c = 0 && decide (len ≤ u.buffer.length + 1) then s.endRepeat r.rid el pc else s)
          else
            match u.iter.headD 0 with
            | 0 => .next (s.endRepeat r.rid el pc)
            | k + 1 =>
              if !s.roomAt r.rid el po 1 then .next s
              else
                let t := (u.buffer[(c * len - (k + 1)) % max len 1]?).getD ⟨.raw, []⟩
                let s := (s.pushAt r.rid el po t).modRun r.rid el fun u => { u with iter := [k] }
                let s := s.progress r.rid
                .next (if k = 0 then s.endRepeat r.rid el pc else s)
      | _, _, _ => .next s
  | _ => .next s

/-! ### Bit-field nodes (R284) -/

/-- The outputs of tables from LUTBASE on, each in turn from those below it. -/
def lutRun (r : Region) (unit base : Nat) (tok : List Byte) : List Nat → List Bool → List Bool
  | [], out => out
  | t :: ts, out =>
    let g := r.field (unit + 0x400 + base + t) 1
    let input (v : Nat) : Bool :=
      if v ≤ 0x1ff then bit (fieldN tok (v / 8) 1) (v % 8)
      else if v = 0x200 then false
      else if v = 0x201 then true
      else (out[v - 0x400]?).getD false
    let k := (if input (bits g 26 16) then 1 else 0) + (if input (bits g 37 27) then 2 else 0)
      + (if input (bits g 48 38) then 4 else 0) + (if input (bits g 59 49) then 8 else 0)
    lutRun r unit base tok ts (out ++ [bit (bits g 15 0) k])

/-- The out token of a bit-field node. -/
def bitfieldOut (r : Region) (el : Nat) (tok : List Byte) : List Byte :=
  let n := r.field el 2
  let out := lutRun r (el / 8192 * 8192) (r.field el 1) tok (List.range (n + 1)) []
  let v := (List.range (r.field el 4 + 1)).foldl (fun a j =>
    a + (if (out[r.field el 3 + j]?).getD false then 2 ^ j else 0)) 0
  leBytes (ceilDiv (r.field el 4 + 1) 8) v

/-- BITFIELD_NODE_FIRING: one token on port 0, one on port 1 (R284). -/
def execBitfieldNodeFiring (s : State) : Out :=
  match s.arg with
  | .node n =>
    match s.nodeOf n .bitfield with
    | none => .next s
    | some (r, el) =>
      if !s.roomAt r.rid el 1 1 then .next s
      else
        match s.takeAt r.rid el 0 1 with
        | none => .next s
        | some (ts, s) =>
          let out := ts.map fun t => Token.mk .raw (bitfieldOut r el t.bytes)
          .next ((s.pushAll r.rid el 1 out).fired r.rid el)
  | _ => .next s

/-! ### Converter nodes (R281, R141, R142) -/

/-- A block that converts for a converter node: it keeps subnormals, and its generators are free, since a node
has no FMODE and no seed. -/
def convFlight (lanes free : Nat) : Flight :=
  { Flight.idle with
    nlanes := lanes
    r := { Regs.launch lanes with gens := (List.range lanes).map fun k => (Config.freeWord (free + k)).setWidth 32 } }

/-- CONVERTER_NODE_FIRING: each in token converted as VCVT with P = 0 does, its lanes the words of its slot.
DEDUCED: the first in port and the first out port other than 1 carry the data, port 1 the overflow tokens. The
elements of a narrowed token that the part does not fill are free. -/
def execConverterNodeFiring (s : State) : Out :=
  match s.arg with
  | .node n =>
    match s.nodeOf n .converter with
    | none => .next s
    | some (r, el) =>
      match (r.inPorts el)[0]?, (r.outPorts el).find? (· != 1) with
      | some p, some o =>
        if !s.roomAt r.rid el o 1 || !s.roomAt r.rid el 1 1 then .next s
        else
          match s.takeAt r.rid el p 1 with
          | none => .next s
          | some (ts, t) =>
            let tok := ts.headD ⟨.raw, []⟩
            let v := r.field el 1
            let dst := codeFmt (bits v 4 0)
            let sat := !bit v 5
            let lanes := min 128 (tok.bytes.length / 4)
            let words := (List.range lanes).map fun k => BitVec.ofNat 32 (fieldN tok.bytes (4 * k) 4)
            if !tok.tag.inF || !dst.inF then .next (s.nodeFault r el { code := .formatTag })
            else
              let c : CvtMode := ⟨Rnd.ofField (bits v 8 6), sat, false, bit v 9⟩
              let x := convFlight lanes s.free
              let old := (List.range lanes).map fun k => (Config.freeWord (s.free + 128 + k)).setWidth 32
              let run := (cvtPairs lanes (fmtWidth tok.tag) (fmtWidth dst) 0).foldl
                (cvtOne c dst tok.tag (BitVec.allOnes 128) (elemsOf (fmtWidth tok.tag) words))
                ⟨elemsOf (fmtWidth dst) old, x, []⟩
              let bytes := (packElems (fmtWidth dst) lanes run.out).flatMap fun (l : Lane) => leBytes 4 l.toNat
              let t := { t with free := t.free + 256 }.pushAt r.rid el o ⟨dst, bytes⟩
              if sat && !run.ovf.isEmpty then
                if (t.slotAt r.rid el 1).elim false fun n => decide (n < 32) then
                  .next (s.nodeFault r el { code := .ringState })
                else
                  .next ((t.pushAt r.rid el 1 ⟨.raw, overflowToken dst tok.tag 0
                    (run.ovf.map fun k => k / (32 / fmtWidth tok.tag))⟩).fired r.rid el)
              else .next (t.fired r.rid el)
      | _, _ => .next s
  | _ => .next s

/-! ### Memory nodes (R169, R193, R360, R362) -/

/-- The scope of a region: that of its DIE level, .sdie where it has none (R169). -/
def regionScope (recd : List Byte) : BitVec 4 :=
  match (levelsOf recd).find? (·.dom == 2) with
  | some l => BitVec.ofNat 4 l.scope
  | none => 3

/-- The bytes of one element of a node's format. -/
def unitBytes (f : Fmt) : Nat := max 1 (fmtWidth f / 8)

/-- The counts of a stream's dimensions; a count of zero adds none. -/
def Region.counts (r : Region) (el : Nat) : List Nat := (List.range 4).map fun k => max 1 (r.field el (12 + k))

/-- The iteration vector of element `k` of a stream, innermost first. -/
def Region.iterOf (r : Region) (el k : Nat) : List Nat :=
  ((r.counts el).foldl (fun (p : Nat × List Nat) n => (p.1 / n, p.2 ++ [p.1 % n])) (k, [])).2

/-- The address of element `k` of a stream (R169). -/
def Region.streamAddr (r : Region) (el k : Nat) : Nat :=
  let d := ((r.iterOf el k).zipIdx.map fun p => (p.1 : Int) * toSigned 48 (r.field el (8 + p.2))).foldl (· + ·) 0
  ofInt 56 ((r.field el 2 : Int) + d)

/-- The lowest address that a stream's remaining iterations touch (R360). -/
def Region.streamLow (r : Region) (el : Nat) : Option Nat :=
  let it := (r.run el).iter.headD 0
  ((List.range (r.streamLen el - it)).map fun k => r.streamAddr el (it + k)).min?

/-- An entry of an extent table: the page's address with its size code in the low bits, and its leaf with the
state found (R360). -/
def extentOf (w : WalkRes) (va : Nat) : Nat × Word :=
  (va / 2 ^ w.shift * 2 ^ w.shift + (w.shift - 16) / 10,
    BitVec.ofNat 64 (w.leaf.toNat % 2 ^ 61 + w.state.toNat * 2 ^ 61))

/-- The translation an entry gives. -/
def extentWalk (e : Nat × Word) : WalkRes :=
  ⟨BitVec.ofNat 3 (bits e.2.toNat 63 61), 3 - e.1 % 65536, e.2, 0, shiftOf (e.1 % 65536)⟩

/-- The next distinct pages of a stream, up to 64 (R360). -/
def fillFrom (s : State) (r : Region) (el : Nat) : Nat → Nat → List (Nat × Word) → List (Nat × Word)
  | 0, _, l => l
  | n + 1, k, l =>
    if 64 ≤ l.length then l
    else
      let va := r.streamAddr el k
      fillFrom s r el n (k + 1) (if l.any (extentHit · va) then l else l ++ [extentOf (s.lookup r.ctx va) va])

/-- Whether a stream writes memory: its node has no out port (R169). -/
def Region.streamWrites (r : Region) (el : Nat) : Bool := (r.outPorts el).isEmpty

/-- The pages of entries marked as a stream's translation marks them: those that let its accesses pass (R361, R367). -/
def State.markExtents (s : State) (r : Region) (el : Nat) (l : List (Nat × Word)) : State :=
  let write := r.streamWrites el
  (l.filter fun e => (bits e.2.toNat 63 61 == 1 || bits e.2.toNat 63 61 == 3) && leafGrants e.2 (if write then 2 else 1)).foldl
    (fun s e => s.markPage r.die r.ctx (s.lookup r.ctx (e.1 / 65536 * 65536)).entry (e.1 / 65536 * 65536) write) s

/-- The first page that a stream has yet to touch and its table lacks, while the table has room (R360). -/
def Region.nextMissing (r : Region) (el : Nat) : Option Nat :=
  let u := r.run el
  let it := u.iter.headD 0
  if 64 ≤ u.extent.length then none
  else ((List.range (r.streamLen el - it)).map fun k => r.streamAddr el (it + k)).find? fun va => !u.extent.any (extentHit · va)

/-- The page unit refills a stream's table ahead of its generator: a walk for the first page wanting (R360). -/
def State.fillAhead (s : State) (rid el : Nat) : State :=
  match s.region rid with
  | none => s
  | some r =>
    match r.nextMissing el with
    | some va => s.askWalk r.die r.ctx va (r.streamWrites el)
    | none => s

/-- The extent table of a stream filled from its current access (R286, R360). -/
def State.fillExtent (s : State) (rid el : Nat) : State :=
  match s.region rid with
  | none => s
  | some r =>
    if r.field el 1 ≠ 0 ∨ r.field el 4 ≠ 0 then s
    else
      let it := (r.run el).iter.headD 0
      let l := fillFrom s r el (r.streamLen el - it) it []
      (s.markExtents r el l).modRun rid el fun u => { u with extent := l }

/-- A page put into a stream's table, which has room for it, as its walk found it (R360). -/
def State.addExtent (s : State) (rid el va : Nat) : State :=
  match s.region rid with
  | none => s
  | some r =>
    let e := extentOf (s.lookup r.ctx va) va
    (s.markExtents r el [e]).modRun rid el fun u => { u with extent := u.extent ++ [e] }

/-- Entries of pages that a stream has left for good, freed. -/
def Region.trimExtent (r : Region) (el : Nat) : Region :=
  let it := (r.run el).iter.headD 0
  let live (e : Nat × Word) : Bool :=
    (List.range (r.streamLen el - it)).any fun k => extentHit e (r.streamAddr el (it + k))
  r.modRun el fun u => { u with extent := u.extent.filter live }

/-- What a memory node's access comes to. -/
inductive NodeXlat
  | ok (hs : List Nat) (es : List (Nat × Nat))
  | wait
  /-- a page of a stream that its table does not hold yet -/
  | miss (va : Nat)
  | bad (code : FaultCode) (state : BitVec 3) (va : Nat)
  deriving DecidableEq, Repr, Inhabited

/-- One byte of a stream through its extent table (R360, R358). -/
def State.extentByte (s : State) (r : Region) (el va access : Nat) : NodeXlat :=
  match (r.run el).extent.find? (extentHit · va) with
  | none => .miss va
  | some e =>
    match s.xlatBy r.ctx (extentWalk e) va access with
    | .ok h _ => .ok [h] []
    | .held => .wait
    | .bad c p => .bad c p.1 va

/-- One byte of a node's access: its home, and the page entry its translation marks. A random node's access whose
page its die's page unit does not hold waits for a walk (R361). -/
def State.nodeXlat (s : State) (r : Region) (el va access : Nat) : NodeXlat :=
  match r.field el 4 with
  | 0 =>
    if r.field el 1 = 0 then s.extentByte r el va access
    else match s.xlat r.ctx va access with
      | .ok h e => if s.translates r.die r.ctx va then .ok [h] [(e, va)] else .miss va
      | .held => .wait
      | .bad c p => .bad c p.1 va
  | 1 => .ok [homeCluster r.die (r.cluster (elCluster el)) va] []
  | _ =>
    let h := homeWeight r.die va
    if (s.die r.die).fenced.any fun g => g.val == (weightBank h).2 then .bad .poison 5 va else .ok [h] []

/-- Consecutive bytes of a node's access. -/
def State.nodeHomes (s : State) (r : Region) (el access : Nat) : List Nat → NodeXlat
  | [] => .ok [] []
  | va :: rest =>
    match s.nodeXlat r el va access with
    | .ok h e =>
      (match s.nodeHomes r el access rest with
       | .ok hs es => .ok (h ++ hs) (e ++ es)
       | o => o)
    | o => o

/-- Whether an access passes the bounds of its node (R162, R169): the space's end included. -/
def Region.nodeBounds (r : Region) (el va n : Nat) (write : Bool) : Bool :=
  let sp := r.field el 4
  decide (r.field el 5 ≤ va) && decide (va + n ≤ r.field el 6) && bit (r.field el 7) (if write then 1 else 0)
    && decide (va + n ≤ (match sp with | 0 => 2 ^ 56 | 1 => 2 ^ 24 | _ => 0x300000000))
    && !(sp == 3 && write)

/-- A value reported in 24 bits, and whether it was cut. -/
def cap24 (v : Nat) : Nat × Bool := (min v 0xffffff, decide (0xffffff < v))

/-- The 64-byte page-fault record of a node (R362). -/
def nodeRecord (r : Region) (el : Nat) (code : FaultCode) (access : Nat) (state : BitVec 3) (va it : Nat) : List Byte :=
  let strides := (List.range 4).map fun k => toSigned 48 (r.field el (8 + k))
  let counts := (List.range 4).map fun k => cap24 (r.field el (12 + k))
  let iters := (r.iterOf el it).map cap24
  let far (x : Int) : Bool := decide (x < -(2 ^ 31 : Int)) || decide ((2 ^ 31 : Int) ≤ x)
  let flags := (List.range 4).foldl (fun a k =>
    a + (if far ((strides[k]?).getD 0) then 2 ^ k else 0)
      + (if ((counts[k]?).getD (0, false)).2 || ((iters[k]?).getD (0, false)).2 then 2 ^ (4 + k) else 0)) 0
  let i := r.nodeIsl el
  let addr := r.die.val * 2 ^ 22 + i.cluster.val * 2 ^ 18 + el % 2 ^ 18
  leBytes 2 0x301 ++ leBytes 1 code.num ++ leBytes 1 (access + 8 * state.toNat) ++ leBytes 2 r.ctx.toNat
    ++ leBytes 3 addr ++ leBytes 1 flags ++ leBytes 7 va ++ leBytes 7 (r.field el 2)
    ++ strides.flatMap (fun x => leBytes 4 (ofInt 32 x)) ++ counts.flatMap (fun x => leBytes 3 x.1)
    ++ iters.flatMap (fun x => leBytes 3 x.1)

/-- NODE_PAGE_FAULT: the node's address stream stops, and one record is written; its region is not FROZEN
(R362). -/
def State.nodePage (s : State) (r : Region) (el : Nat) (code : FaultCode) (access : Nat) (state : BitVec 3) (va : Nat) :
    State :=
  let s := s.queueFault r.rid (engineSource (r.nodeIsl el) 6 el) (nodeRecord r el code access state va ((r.run el).iter.headD 0))
  let s := s.memFault (r.nodeIsl el) r.ctx code va access el state.toNat
  s.modRun r.rid el fun u => { u with stuck := true, stuckAt := va }

/-- A byte that a memory node reads: what was published at its region's scope before its stage or start token
is certain; how far beyond that the access sees into the order of the homes is free (R169, R185). -/
def State.nodeByte (s : State) (r : Region) (el a : Nat) : Byte :=
  let pl : Place := .cluster r.die (r.cluster (elCluster el))
  let cut := Config.pick s.free el % (s.mem.nextSeq + 1)
  let sure (v : Ver) : Bool :=
    s.mem.certain (regionScope r.recd) pl (r.run el).since (fun _ => false) v || decide (v.seq < cut)
  match (s.mem.visible pl a).filter sure with
  | v :: _ => v.val
  | [] => if isFabHome a then Config.outsideByte (Config.pick s.free a) else s.mem.first a

/-- A node's writes of the stage published at its region's scope (R169). -/
def State.publishNode (s : State) (rid el : Nat) : State :=
  match s.region rid with
  | none => s
  | some r =>
    let w := (r.run el).wrote
    if w.isEmpty then s
    else
      let s := s.put (.cluster r.die (r.cluster (elCluster el))) (regionScope r.recd) w
      s.modRun rid el fun u => { u with wrote := [] }

/-- The result of an ordered update in a format: 0 add, 1 max, 2 min, 3 exchange (R169, R281). -/
def updateVal (f : Fmt) (op old x : Nat) : Nat :=
  let w := fmtWidth f
  let a := old % 2 ^ w
  let b := x % 2 ^ w
  let v := match op with
    | 3 => b
    | 0 =>
      (match floatInfo f with
       | some i => (place f (toFloat i (addNum (elemVal f a) (elemVal f b) .rne).1 .rne false)).bits
       | none => a + b)
    | _ =>
      if (floatInfo f).isSome then (minMaxRes f (op == 1) false a b false).bits
      else
        let o := (elemVal f a).cmp (elemVal f b)
        if (op == 1 && decide (o < 0)) || (op == 2 && decide (o > 0)) then b else a
  old - a + v % 2 ^ w

/-- What an access to translated homes goes on with, the marks made; a failed one stops the node. -/
def State.withAccess (s : State) (r : Region) (el va : Nat) (access : Nat) (poison : Bool)
    (f : List Nat → State → State) : State :=
  let n := unitBytes (codeFmt (r.field el 3))
  let write := access != 1
  if !r.nodeBounds el va n write then
    s.nodeFault r el { code := .bounds, access := access, ea := BitVec.ofNat 64 va }
  else
    let s := if poison && r.field el 4 == 0 then s.poisonPage r.die r.ctx va else s
    let r := (s.region r.rid).getD r
    match s.nodeHomes r el (if write then 2 else 1) (addrs va n) with
    | .wait => s.modRun r.rid el fun u => { u with held := true }
    | .miss va => s.askWalk r.die r.ctx va write
    | .bad .protect _ va => s.nodeFault r el { code := .protect, access := access, ea := BitVec.ofNat 64 va }
    | .bad code st va => (s.erred r.die r.ctx code va).nodePage r el code access st va
    | .ok hs es =>
      let src := engineSource (r.nodeIsl el) 6 el
      let s := s.countReq src.die src.strand
      f hs ((s.modRun r.rid el fun u => { u with held := false }).markAll r.die r.ctx es write)

/-- One element of a stream read into a token or written from one (R169): a node with an out port reads, its
in port carrying the start token; one without writes a token's element. -/
def State.streamAccess (s : State) (r : Region) (el : Nat) (poison : Bool) : State :=
  let it := (r.run el).iter.headD 0
  let f := codeFmt (r.field el 3)
  let n := unitBytes f
  let va := r.streamAddr el it
  let step (s : State) : State :=
    let s := (s.modRun r.rid el fun u => { u with iter := [it + 1] }).fired r.rid el
    let s := (s.modRegion r.rid fun r => r.trimExtent el).fillAhead r.rid el
    if it + 1 = r.streamLen el then (s.publishNode r.rid el).checkDraining r.rid else s
  if r.streamLen el ≤ it then s
  else
    match (r.outPorts el)[0]?, (r.inPorts el)[0]? with
    | some o, p =>
      let started : Option State :=
        match p with
        | some p =>
          if (r.run el).iter.isEmpty then
            (s.takeAt r.rid el p 1).map fun q =>
              q.2.modRun r.rid el fun u => { u with iter := [0], since := s.mem.nextSeq }
          else some s
        | none => some s
      match started with
      | none => s
      | some s =>
        let r := (s.region r.rid).getD r
        if !s.roomAt r.rid el o 1 then s
        else s.withAccess r el va 1 poison fun hs s =>
          let bs := hs.map (s.nodeByte r el)
          step ({ s with free := s.free + 1 }.pushAt r.rid el o ⟨f, bs⟩)
    | none, some p =>
      match (s.waitingAt r.rid el p).head? with
      | none => s
      | some t =>
        s.withAccess r el va 2 poison fun hs s =>
          match s.takeAt r.rid el p 1 with
          | some (_, s) =>
            step (s.modRun r.rid el fun u => { u with wrote := u.wrote ++ hs.zip (padTo n t.bytes) })
          | none => s
    | none, none => s

/-- The footprint region that an address lies in (R193). -/
def Region.fenceRegion (r : Region) (el va : Nat) : Option Nat :=
  (List.range 4).find? fun k =>
    decide (r.field el (17 + k) ≤ va) && decide (va < r.field el (17 + k) + r.field el (21 + k))

/-- A token of a random or ordered-update node taken from its address stream to the memory port. -/
def State.takeAddress (s : State) (r : Region) (el : Nat) : State :=
  match (r.inPorts el)[0]? with
  | none => s
  | some p =>
    match s.takeAt r.rid el p 1 with
    | none => s
    | some (ts, s) =>
      let es := ts.map fun t =>
        let (va, _, fence) := Config.memToken t.bytes
        match fence with
        | some k => (some k.val, true, t)
        | none => (r.fenceRegion el va, false, t)
      (s.modRun r.rid el fun u => { u with parked := u.parked ++ es }).progress r.rid

/-- Whether an access at the port waits: behind a fence of its region, or, for an ordered update, behind any
earlier access (R169, R193). -/
def portWaits (ordered : Bool) (l : List (Option Nat × Bool × Token)) (k : Nat) (reg : Option Nat) : Bool :=
  (l.take k).any fun e => (e.2.1 && e.1 == reg && reg.isSome) || (ordered && !e.2.1)

/-- An access at the port performed: a random node with an out port reads, one without writes, and an
ordered-update node reads, modifies and writes. -/
def State.portAccess (s : State) (r : Region) (el k : Nat) (poison : Bool) : State :=
  let u := r.run el
  let ordered := r.field el 1 == 2
  match u.parked[k]? with
  | none => s
  | some (reg, fence, t) =>
    if fence || portWaits ordered u.parked k reg then s
    else
      let (va, x, _) := Config.memToken t.bytes
      let va := va % 2 ^ 56
      let f := codeFmt (r.field el 3)
      let n := unitBytes f
      let fin (s : State) : State :=
        (s.modRun r.rid el fun u => { u with parked := u.parked.eraseIdx k }).fired r.rid el
      if ordered then
        s.withAccess r el va 3 poison fun hs s =>
          let old := leNat (hs.map fun h =>
            if isFabHome h then Config.outsideByte (Config.pick s.free h) else smGet 0 s.mem.cells h)
          let new := updateVal f (r.field el 16) old x
          fin ({ s with free := s.free + 1 }.put (.cluster r.die (r.cluster (elCluster el)))
            (homeScope (hs.headD 0)) (hs.zip (leBytes n new)))
      else
        match (r.outPorts el)[0]? with
        | some o =>
          if !s.roomAt r.rid el o 1 then s
          else s.withAccess r el va 1 poison fun hs s =>
            let bs := hs.map (s.nodeByte r el)
            fin ({ s with free := s.free + 1 }.pushAt r.rid el o ⟨f, bs⟩)
        | none =>
          s.withAccess r el va 2 poison fun hs s =>
            fin (s.modRun r.rid el fun u => { u with wrote := u.wrote ++ hs.zip (leBytes n x) })

/-- MEMORY_NODE_ACCESS: one access of a memory node. Which of the accesses at a random node's port is performed,
or whether its next address token is taken first, is free (R193). -/
def execMemoryNodeAccess (s : State) : Out :=
  match s.arg with
  | .nodePoison n poison =>
    match s.nodeOf n .memory with
    | none => .next s
    | some (r, el) =>
      if (r.run el).stuck then .next s
      else if r.field el 1 = 0 then .next (s.streamAccess r el poison)
      else
        let len := (r.run el).parked.length
        let k := Config.pick s.free 0 % (len + 1)
        let s := { s with free := s.free + 1 }
        let s := if k = len then s.takeAddress r el else s
        .next (s.portAccess ((s.region r.rid).getD r) el k poison)
  | _ => .next s

/-- FENCE_TOKEN_RELEASE: a held fence behind no earlier access of its region leaves by the completion port
(R193). DESIGN CHOICE: the completion port is the node's first out port. -/
def execFenceTokenRelease (s : State) : Out :=
  match s.arg with
  | .node n =>
    match s.nodeOf n .memory with
    | none => .next s
    | some (r, el) =>
      let l := (r.run el).parked
      let free (p : (Option Nat × Bool × Token) × Nat) : Bool :=
        p.1.2.1 && !(l.take p.2).any fun e => e.1 == p.1.1
      match l.zipIdx.find? free with
      | none => .next s
      | some (e, k) =>
        let s' := s.modRun r.rid el fun u => { u with parked := u.parked.eraseIdx k }
        match (r.outPorts el)[0]? with
        | some o =>
          if !s.roomAt r.rid el o 1 then .next s
          else .next ((s'.pushAt r.rid el o e.2.2).progress r.rid)
        | none => .next (s'.progress r.rid)
  | _ => .next s

/-! ### Skive and routing nodes (R281, R384, R436) -/

/-- Whether a node's jobs are all complete. -/
def State.nodeIdle (s : State) (n : NodeId) : Bool := !s.eng.jobs.any fun j => j.node == some n

/-- A job of a node. -/
def nodeReq (r : Region) (k : JobKind) (recAt : Option (Nat × Nat)) (bs : List Byte) (args : List Word)
    (tile : Option Tile) : JobReq where
  kind := k
  index := 0xff
  scope := nodeScope k
  bar := none
  ev := false
  recAt := recAt
  bytes := bs
  args := args
  hs := r.handles
  tile := tile
  path := none
  ring := none
  seqno := 0

/-- Tokens taken at every in port of a node, by its declared counts; none while some are wanting. -/
def State.takeAll (s : State) (r : Region) (el : Nat) : Option (List Token × State) :=
  (r.inPorts el).foldl (fun acc p =>
    acc.bind fun q =>
      (q.2.takeAt r.rid el p ((portCount r.config el p false).getD 1)).map fun o => (q.1 ++ o.1, o.2)) (some ([], s))

/-- The end of a firing whose jobs are complete: the declared tokens are pushed at every out port. What they
hold the spec does not state; it is free. -/
def State.endFiring (s : State) (r : Region) (el : Nat) : State :=
  let out := (r.outPorts el).map fun p => (p, (portCount r.config el p true).getD 1)
  if !out.all fun p => s.roomAt r.rid el p.1 p.2 then s
  else
    let s := out.foldl (fun s p =>
      let n := (s.slotAt r.rid el p.1).getD 0
      let tok (s : State) (k : Nat) : Token :=
        ⟨.raw, (List.range n).map fun q => (Config.freeWord (s.free + n * k + q)).setWidth 8⟩
      let ts := (List.range p.2).map (tok s)
      { s.pushAll r.rid el p.1 ts with free := s.free + n * p.2 + 1 }) s
    (s.modRun r.rid el fun u => { u with iter := [] }).fired r.rid el

/-- A record in cluster store as a node captures it when it fires (R436). -/
def State.nodeCapture (s : State) (r : Region) (el off n : Nat) : List Byte :=
  (addrs (homeCluster r.die (r.cluster (elCluster el)) off) n).map
    (s.mem.newest (.cluster r.die (r.cluster (elCluster el))))

/-- SKIVE_NODE_FIRING: SKPRED, SKFETCH, SKCHK and SKRPL in order on the node's descriptor; a second move ends
the firing once they are complete. The spec does not say where the node's x comes from: here it is the first
in token, its slot as rows of 128 bytes under the token's tag (DESIGN CHOICE), and free with no in ring. -/
def execSkiveNodeFiring (s : State) : Out :=
  match s.arg with
  | .node n =>
    match s.nodeOf n .skive with
    | none => .next s
    | some (r, el) =>
      if !s.nodeIdle n then .next s
      else if !(r.run el).iter.isEmpty then .next (s.endFiring r el)
      else if !s.matcherRoom r.die (r.cluster (elCluster el)) 4 then .next s
      else
        match s.takeAll r el with
        | none => .next s
        | some (ts, s) =>
          let d := r.field el 1
          let h := homeCluster r.die (r.cluster (elCluster el)) d
          let bs := s.nodeCapture r el d 64
          let x : Tile := match ts.head? with
            | some t => ⟨smOfList 0 (padTo 16384 t.bytes), [], t.tag⟩
            | none =>
              ⟨smOfList 0 ((List.range 16384).map fun k => (Config.freeWord (s.free + k)).setWidth 8), [], .fp32⟩
          let w := fieldN bs 51 1
          let args (sy : Nat) : List Word :=
            [0, 15, x.tag.code.setWidth 64, BitVec.ofNat 64 w, BitVec.ofNat 64 sy]
          let jobs : List (JobKind × Nat) := [(.skpred, r.field el 2), (.skfetch, 0), (.skchk, 0),
            (.skrpl, r.field el 3 * 2 ^ 32 + r.field el 4)]
          let s := { s with free := s.free + 16385 }.modRun r.rid el fun u => { u with iter := [1] }
          .next (jobs.foldl (fun s p =>
            s.enqueue none (some n) r.rid r.ctx r.die (r.cluster (elCluster el))
              ⟨elCluster el % 16, Nat.mod_lt _ (by decide)⟩ 0
              (nodeReq r p.1 (some (h, 64)) bs (args p.2) (some x))) s)
  | _ => .next s

/-- ROUTING_NODE_FIRING: the record and its table entries captured, and a routing job run with the handle
images of the launch record (R281, R384); a second move ends the firing. -/
def execRoutingNodeFiring (s : State) : Out :=
  match s.arg with
  | .node n =>
    match s.nodeOf n .routing with
    | none => .next s
    | some (r, el) =>
      if !s.nodeIdle n then .next s
      else if !(r.run el).iter.isEmpty then .next (s.endFiring r el)
      else if !s.matcherRoom r.die (r.cluster (elCluster el)) 1 then .next s
      else
        match s.takeAll r el with
        | none => .next s
        | some (_, s) =>
          let d := r.field el 1
          let h := homeCluster r.die (r.cluster (elCluster el)) d
          let recd := s.nodeCapture r el d 64
          let sst := r.field el 2
          let (bs, bad) : List Byte × Option (Option (FaultCode × (BitVec 3 × BitVec 2) × Nat)) :=
            if sst = 0 then (recd, none)
            else match s.rtTable r.ctx sst recd with
              | .inl hs => (recd ++ hs.map (s.mem.newest (.die r.die)), none)
              | .inr f => (recd, some f)
          let s := s.modRun r.rid el fun u => { u with iter := [1] }
          let k := s.eng.nextJob
          let s := s.enqueue none (some n) r.rid r.ctx r.die (r.cluster (elCluster el))
            ⟨elCluster el % 16, Nat.mod_lt _ (by decide)⟩ 0
            (nodeReq r .rtjob (some (h, 64)) bs [BitVec.ofNat 64 sst] none)
          .next (match bad with
            | some (some (code, page, va)) => (s.job k).elim s fun j => s.pauseJob j code page va
            | _ => s)
  | _ => .next s

/-! ### Collective units (R372, R373, R341, R348) -/

/-- The combine of a collective unit: 1 add, 2 max, 3 min (R372). -/
def collCombine (f : Fmt) (op : Nat) (a b : Nat) : Nat :=
  match floatInfo f with
  | some i =>
    if op = 1 then (place f (toFloat i (addNum (elemVal f a) (elemVal f b) .rne).1 .rne false)).bits
    else (minMaxRes f (op == 2) false a b false).bits
  | none => updateVal f (op - 1) a b

/-- The identity of a collective unit's operation, as a reduction has it (R102). -/
def collIdentity (f : Fmt) (op : Nat) : Nat :=
  match floatInfo f with
  | some i =>
    if op = 1 then (place f ⟨signBit i true, 0, false⟩).bits
    else (place f ⟨infBits i (op == 2), 0, false⟩).bits
  | none => if op = 1 then 0 else if op = 2 then 2 ^ (fmtWidth f - 1) else 2 ^ (fmtWidth f - 1) - 1

/-- One element of a reduction: in arrival order, or under DET by the pairwise tree over the members in
ascending device number, missing leaves the identity (R373). -/
def collElem (f : Fmt) (op : Nat) (det : Bool) (arrived : List (BitVec 20 × Nat)) : Nat :=
  let w := fmtWidth f
  if det then
    let vs := (sortBy (fun a b => decide (a.1.toNat ≤ b.1.toNat)) arrived).map fun p => p.2 % 2 ^ w
    let n := 2 ^ (Nat.log2 (2 * max 1 vs.length - 1))
    treeOf (collCombine f op) 0 20 (vs ++ List.replicate (n - vs.length) (collIdentity f op))
  else
    match arrived with
    | [] => 0
    | a :: rest => rest.foldl (fun v p => collCombine f op v (p.2 % 2 ^ w)) (a.2 % 2 ^ w)

/-- Whether a launch runs in deterministic mode (R325). -/
def Region.det (r : Region) : Bool := bit (fieldN r.recd 2 1) 1

/-- The members' first contributions reduced into one token, while every member has one. -/
def State.collReduce (s : State) (r : Region) (el : Nat) : State :=
  let ms := Config.members r.rid el
  let l := (r.run el).contrib
  match (r.outPorts el)[0]? with
  | none => s
  | some o =>
    if ms.isEmpty || !ms.all (fun m => l.any (·.1 == m)) || !s.roomAt r.rid el o 1 then s
    else
      let firsts := l.zipIdx.filter fun p => ms.contains p.1.1 && !(l.take p.2).any (·.1 == p.1.1)
      let v := r.field el 2
      let f := codeFmt (bits v 6 2)
      let n := (firsts.map fun p => p.1.2.length).foldl max 0
      let out := (List.range n).map fun k =>
        collElem f (bits v 1 0) r.det (firsts.map fun p => (p.1.1, ((p.1.2[k]?).getD 0).toNat))
      let s := s.modRun r.rid el fun u =>
        { u with contrib := (u.contrib.zipIdx.filter fun p => !firsts.any (·.2 == p.2)).map (·.1) }
      (s.pushAt r.rid el o ⟨f, denseBytes (fmtWidth f) out⟩).fired r.rid el

/-- A token of the unit's in stream sent to every other member, its elements counted as delivered to each
(R372, R348). -/
def State.collBroadcast (s : State) (r : Region) (el : Nat) : State :=
  match (r.inPorts el)[0]? with
  | none => s
  | some p =>
    match s.takeAt r.rid el p 1 with
    | none => s
    | some (ts, s) =>
      let ms := (Config.members r.rid el).filter (· != s.hub.boot.device)
      let bs := ts.flatMap (·.bytes)
      let n := bs.length * 8 / fmtWidth (codeFmt (bits (r.field el 2) 6 2))
      let s := ms.foldl (fun s m => s.send m (BitVec.ofNat 64 (r.field el 1)) bs) s
      (s.modRun r.rid el fun u =>
        { u with delivered := ms.map fun m => (m, ((u.delivered.find? (·.1 == m)).map (·.2)).getD 0 + n) }).fired
          r.rid el

/-- COLLECTIVE_CONTRIBUTION: a member's elements join the reduction. A turn of the device's own number takes a
token of the unit's in stream: with COLL[7] it is broadcast, else it is the device's own contribution; with no token
there it reduces what has waited for room. -/
def execCollectiveContribution (s : State) : Out :=
  match s.arg with
  | .contribution n m elems =>
    match s.nodeOf n .endpoint with
    | none => .next s
    | some (r, el) =>
      let v := r.field el 2
      if bits v 1 0 = 0 || (r.run el).failed then .next s
      else if m = s.hub.boot.device then
        if bit v 7 then .next (s.collBroadcast r el)
        else
          match (r.inPorts el)[0]? with
          | none => .next (s.collReduce r el)
          | some p =>
            match s.takeAt r.rid el p 1 with
            | none => .next (s.collReduce r el)
            | some (ts, s) =>
              let w := fmtWidth (codeFmt (bits v 6 2))
              let es := ts.flatMap fun t => (denseElems w (t.bytes.length * 8 / w) t.bytes).map (BitVec.ofNat 32)
              let s := s.modRun r.rid el fun u => { u with contrib := u.contrib ++ [(m, es)] }
              .next (s.collReduce ((s.region r.rid).getD r) el)
      else
        let s := s.modRun r.rid el fun u => { u with contrib := u.contrib ++ [(m, elems)] }
        .next (s.collReduce ((s.region r.rid).getD r) el)
  | _ => .next s

/-- COLLECTIVE_FAILURE: a member's partition was reset, and the unit fails with REMOTE at this peer, the member's
device number in the auxiliary field (R341). -/
def execCollectiveFailure (s : State) : Out :=
  match s.arg with
  | .member n m =>
    match s.nodeOf n .endpoint with
    | none => .next s
    | some (r, el) =>
      if bits (r.field el 2) 1 0 = 0 || (r.run el).failed then .next s
      else
        let s := s.modRun r.rid el fun u => { u with failed := true }
        .next (s.nodeFault r el { code := .remote, aux := m.toNat })
  | _ => .next s

end Sys2Proof.Machine
end

