-- ==== Sys2Proof/Machine/Solve.lean ====
section
/-!
DEFINITION. The Lehr's solve: the balance equations of a stage's graph (R294-R296), the islands' fractions and
the check of rings between islands (R297, R298, R301), the lowest ratio that admits a fraction (R299), and the
target cut to the caps (R300). Every number is exact.
-/
namespace Sys2Proof.Machine

/-! ### The graph (R294-R296) -/

/-- Island cycles of one task or firing (R226, R228). -/
def arrayCost (fa fb k nsp : Nat) : Nat :=
  let dense : Nat :=
    match fa with
    | 0 => 8 * k
    | 1 => 4 * k
    | 2 | 3 => 2 * k
    | 0x0f | 0x0e => k
    | _ => if codeWidth fa = 8 ∨ codeWidth fb = 8 then k else k / 2
  match nsp with
  | 0 => dense
  | 6 => ceilDiv (dense * 6) 12
  | _ => ceilDiv dense 3

/-- The initiation interval of a node in island cycles (R279, R295). -/
def Region.interval (r : Region) (el : Nat) : Nat :=
  match elKind el with
  | some .stream =>
    let f := r.field el 1
    r.field el 8 1 * arrayCost (bits f 4 0) (bits f 9 5) (r.field el 2) (r.field el 6)
  | _ => r.field el 47 1

/-- Tokens per firing at a port (R279, R295). -/
def Region.tokens (r : Region) (el p : Nat) (out : Bool) : Nat :=
  match elKind el with
  | some .stream => if out then 1 else r.field el 8 1
  | some .copy =>
    if r.field el 1 = 1 then
      if out then r.field el 6 * r.field el 7
      else if (r.inPorts el)[0]? == some p then 1 else r.field el 6
    else (portCount r.config el p out).getD 0
  | _ => (portCount r.config el p out).getD 0

/-- A ring as an edge of the graph: its element, its ends with their tokens per firing, its slot size in bytes and
its bonded lanes. -/
structure Edge where
  ring  : Nat
  u     : Nat
  pa    : Nat
  v     : Nat
  pb    : Nat
  slot  : Nat
  lanes : Nat
  deriving DecidableEq, Repr, Inhabited

/-- The edges of a region's stage, by ascending element address. -/
def Region.edges (r : Region) : List Edge :=
  (cfgKind r.config .ring).map fun q =>
    let (u, a) := portOf (r.field q 1)
    let (v, b) := portOf (r.field q 2)
    let g := r.field q 3
    ⟨q, u, r.tokens u a true, v, r.tokens v b false, 16 * (bits g 11 0 + 1), 2 ^ bits g 21 20⟩

/-- The stage output (R285). DEDUCED: with several triggers that leave the stage it is that of the lowest. -/
def Region.stageOut (r : Region) : Option (Nat × Nat) :=
  let out := portOf (r.field rateEl 1)
  if cfgOn r.config out.1 then some out else (r.armedTriggers.head?).map fun t => portOf (r.field t 1)

/-- A fraction in lowest terms. -/
def lowest (n d : Nat) : Nat × Nat := let g := max 1 (Nat.gcd n d); (n / g, d / g)

/-- One edge carried from the end whose rate is known to the other. -/
def spreadEdge (l : List (Nat × Nat × Nat)) (e : Edge) : List (Nat × Nat × Nat) :=
  if e.pa = 0 ∨ e.pb = 0 then l
  else
    match l.find? (·.1 == e.u), l.find? (·.1 == e.v) with
    | some (_, n, d), none => (e.v, lowest (n * e.pa) (d * e.pb)) :: l
    | none, some (_, n, d) => (e.u, lowest (n * e.pb) (d * e.pa)) :: l
    | _, _ => l

/-- The rates of the component of a node, relative to it, after some passes over the edges. -/
def spread (es : List Edge) : Nat → List (Nat × Nat × Nat) → List (Nat × Nat × Nat)
  | 0, l => l
  | k + 1, l => spread es k (es.foldl spreadEdge l)

/-- The component of the stage output: its repetition vector by element (a set of copies by copy 0), the output's
node and its tokens per firing. -/
structure Flow where
  q  : List (Nat × Nat)
  z  : Nat
  po : Nat
  deriving DecidableEq, Repr, Inhabited

/-- The smallest positive integers in the proportion of some fractions. -/
def smallest (l : List (Nat × Nat × Nat)) : List (Nat × Nat) :=
  let m := l.foldl (fun a p => Nat.lcm a p.2.2) 1
  let ns := l.map fun p => (p.1, p.2.1 * (m / p.2.2))
  let g := max 1 (ns.foldl (fun a p => Nat.gcd a p.2) 0)
  ns.map fun p => (p.1, p.2 / g)

/-- The repetition vector of a stage (R296): the first ring whose balance equation fails where there is none, and
nothing where the stage has no output. -/
def Region.flow (r : Region) : Option Flow ⊕ Nat :=
  match r.stageOut with
  | none => .inl none
  | some (el, p) =>
    let z := if elKind el = some .gang then leaderOf r.config el else el
    let es := r.edges
    let l := spread es (es.length + 1) [(z, 1, 1)]
    let q := smallest l
    let val (e : Nat) : Option Nat := (q.find? (·.1 == e)).map (·.2)
    match es.find? (fun e => match val e.u, val e.v with
        | some a, some b => a * e.pa != b * e.pb
        | none, none => false
        | _, _ => true) with
    | some e => .inr e.ring
    | none => .inl (some ⟨q, z, max 1 (r.tokens el p true)⟩)

/-- The repetitions of a node's set; none outside the component. -/
def Region.reps (r : Region) (fl : Flow) (el : Nat) : Option Nat :=
  let lead := if elKind el = some .gang then leaderOf r.config el else el
  (fl.q.find? (·.1 == lead)).map (·.2)

/-- The copies of a node's set. -/
def Region.copies (r : Region) (el : Nat) : Nat := if elKind el = some .gang then (gangCopy r.config el).2 else 1

/-! ### Islands of a region, in region order (R298) -/

/-- An island of a region: its region cluster, its kind (0 fabric, 1 matrix, 2 streamer), its index. -/
structure RIsl where
  rc : Nat
  ty : Nat
  ix : Nat
  deriving DecidableEq, Repr, Inhabited

/-- The island of a node; none for the units of a cluster or a die. -/
def islOf (el : Nat) : Option RIsl := if elType el ≤ 2 then some ⟨elCluster el, elType el, elIndex el⟩ else none

/-- Its place in region order. -/
def RIsl.ord (i : RIsl) : Nat := i.rc * 16 + i.ty * 4 + i.ix

/-- Its physical key. -/
def Region.keyOf (r : Region) (i : RIsl) : IslandKey := (r.nodeKey (elAddr i.rc i.ty i.ix 0)).getD ⟨r.die, 0⟩

/-- Islands with their fractions m. -/
abbrev Fracs := List (RIsl × Nat)

/-- An island's fraction. -/
def Fracs.get (m : Fracs) (i : RIsl) : Nat := ((m.find? (·.1 == i)).map (·.2)).getD 0

/-- An island's fraction replaced. -/
def Fracs.put (m : Fracs) (i : RIsl) (v : Nat) : Fracs := m.map fun p => if p.1 = i then (i, v) else p

/-! ### Edges and coincidence (R301) -/

/-- Whether an island at `m` has a clock edge in master cycle `c` of a frame. -/
def hasEdgeAt (m c : Nat) : Bool := (c + 1) * m / 64 - c * m / 64 == 1

/-- Master cycles of a frame at which both have an edge. -/
def coincident (a b : Nat) : Nat := ((List.range 64).filter fun c => hasEdgeAt a c && hasEdgeAt b c).length

/-- The lowest ratio that admits a fraction (R299): 0 for 1/2, 1 for 2/3, 2 for 3/4. -/
def ratioFor (m : Nat) : BitVec 2 := if m ≤ 24 then 0 else if m ≤ 48 then 1 else 2

/-! ### The solve (R297, R298) -/

/-- A die's master frequency in force (R302). -/
def Die.freq (d : Die) : Nat := if d.boost then 2700000000 else 2400000000

/-- 256 times one plus the headroom (R294). -/
def Region.margin (r : Region) : Nat := 256 + (if r.field rateEl 4 = 1 then 0 else r.field rateEl 3)

/-- What a solve counts with: the target T (48.16), the master frequency, and, at a re-solve, the firings of each
node and the tokens at the output in the window (R304). -/
structure Load where
  rate  : Nat
  freq  : Nat
  meas  : Option (List (Nat × Nat) × Nat)
  deriving DecidableEq, Repr, Inhabited

/-- Island cycles per frame that a node needs, as a fraction (R297, R304). -/
def Region.need (r : Region) (fl : Flow) (ld : Load) (el : Nat) : Option (Nat × Nat) :=
  (r.reps fl el).map fun q =>
    let qz := ((r.reps fl fl.z)).getD 1
    let k := r.copies el
    match ld.meas with
    | some (fires, out) =>
      let lead := if elKind el = some .gang then leaderOf r.config el else el
      let f := ((fires.find? (·.1 == lead)).map (·.2)).getD 0
      (f * r.interval el * ld.rate * 64, k * max 1 out * ld.freq * 65536)
    | none => (q * ld.rate * 64 * r.interval el, 65536 * ld.freq * qz * fl.po * k)

/-- The fractions that the needs of a component ask for, in region order (R297). -/
def Region.asked (r : Region) (fl : Flow) (ld : Load) : Fracs :=
  let needs := r.nodeEls.filterMap fun el =>
    match islOf el, r.need fl ld el with
    | some i, some (n, d) => some (i, max 1 (ceilDiv (n * r.margin) (d * 256)))
    | _, _ => none
  let isls := (sortBy (fun a b => decide (a.ord ≤ b.ord)) (needs.map (·.1))).eraseDups
  isls.map fun i => (i, ((needs.filter (·.1 == i)).map (·.2)).foldl max 0)

/-- Whether a ring between islands carries less than its demand (R298). DEDUCED: a set of copies stands where its
copy 0 does. -/
def Region.short_ (r : Region) (fl : Flow) (ld : Load) (m : Fracs) (e : Edge) : Bool :=
  match islOf e.u, islOf e.v, r.reps fl e.u with
  | some p, some c, some q =>
    let qz := (r.reps fl fl.z).getD 1
    p != c && decide (coincident (m.get p) (m.get c) * e.lanes * (8 * 65536 * ld.freq * qz * fl.po)
      < q * e.pa * ld.rate * 64 * e.slot)
  | _, _, _ => false

/-- The island that a short ring raises (R298): the smaller fraction's, or the first in region order; the other
one where that stands at 64; none where both do. -/
def raised (m : Fracs) (e : Edge) : Option RIsl :=
  match islOf e.u, islOf e.v with
  | some p, some c =>
    let a := m.get p
    let b := m.get c
    let pick := if a < b then p else if b < a then c else if p.ord ≤ c.ord then p else c
    let other := if pick = p then c else p
    if m.get pick < 64 then some pick else if m.get other < 64 then some other else none
  | _, _ => none

/-- The check of the rings, again from the first after every raise (R298); none where the rate is infeasible. -/
def Region.joined (r : Region) (fl : Flow) (ld : Load) (es : List Edge) : Nat → Fracs → Option Fracs
  | 0, m => if es.any (r.short_ fl ld m) then none else some m
  | k + 1, m =>
    match es.find? (r.short_ fl ld m) with
    | none => some m
    | some e =>
      match raised m e with
      | none => none
      | some i => r.joined fl ld es k (m.put i (m.get i + 1))

/-- The fractions of a component; none where the rate is infeasible (R297, R298). -/
def Region.solve (r : Region) (fl : Flow) (ld : Load) : Option Fracs :=
  let m := r.asked fl ld
  if m.any fun p => decide (64 < p.2) then none else r.joined fl ld r.edges (64 * m.length) m

/-- The largest target up to `T` whose solution fits the caps (R300). -/
def Region.fitting (r : Region) (fl : Flow) (ld : Load) (cap : RIsl → Nat) : Nat → Option (Nat × Fracs)
  | 0 => ((r.solve fl { ld with rate := 0 }).filter fun m => m.all fun p => decide (p.2 ≤ cap p.1)).map fun m => (0, m)
  | t + 1 =>
    match (r.solve fl { ld with rate := t + 1 }).filter fun m => m.all fun p => decide (p.2 ≤ cap p.1) with
    | some m => some (t + 1, m)
    | none => r.fitting fl ld cap t

/-- A solution for a region under the caps in force (R300, R304): the target and the fractions that fit, or, when
the target falls below MIN, every island at its cap, with SHORT set. DEDUCED: T then stays as it was. -/
def State.solution (s : State) (r : Region) (fl : Flow) (ld : Load) : Solution :=
  let part := (s.ctx r.ctx).part
  let cap (i : RIsl) : Nat := s.capOf (r.keyOf i) part
  let at_ (m : Fracs) : List (Nat × Nat) := m.map fun p => ((r.keyOf p.1).num.val, p.2)
  match (r.fitting fl ld cap ld.rate).filter fun p => decide (r.field rateEl 5 ≤ p.1) with
  | some (t, m) => ⟨at_ m, false, t, s.tick + 2048⟩
  | none => ⟨at_ ((r.asked fl ld).map fun p => (p.1, cap p.1)), true, ld.rate, s.tick + 2048⟩

/-- The tokens pushed in the window at a port. -/
def State.pushedAt (s : State) (r : Region) (el p : Nat) : Nat := ((s.ringFrom r.rid el p).map (·.winPush)).getD 0

/-- The firings of each node of a component in the window (R304). DEDUCED: the firings of a gang, which moves
tokens and has no counter of its own, are the pushes at its first ring divided by the port's count. -/
def State.firings (s : State) (r : Region) (fl : Flow) : List (Nat × Nat) :=
  fl.q.map fun p =>
    if elKind p.1 = some .gang ∨ elKind p.1 = some .gaffer then
      match r.edges.find? (·.u == p.1), r.edges.find? (·.v == p.1) with
      | some e, _ =>
        (p.1, (s.chan.rings.find? fun q => q.id.rid == r.rid && ringElem q.id == e.ring).elim 0 fun q => q.winPush / max 1 e.pa)
      | none, some e =>
        (p.1, (s.chan.rings.find? fun q => q.id.rid == r.rid && ringElem q.id == e.ring).elim 0 fun q => q.winPush / max 1 e.pb)
      | none, none => (p.1, 0)
    else (p.1, (r.run p.1).winFired)

/-- A re-solve for a target: from declared counts, as ever under EXACT (R294), or from the measured counts of the window so far; with no push
at the output the solution stays (R304). -/
def State.resolve (s : State) (rid : Nat) (declared : Bool) : State :=
  match s.region rid with
  | none => s
  | some r =>
    match r.flow with
    | .inl (some fl) =>
      let declared := declared || r.field rateEl 4 == 1
      let out := (r.stageOut).elim 0 fun p => s.pushedAt r p.1 p.2
      let meas := if declared then none else some (s.firings r fl, out)
      if !declared && out == 0 then s
      else
        let sol := s.solution r fl ⟨r.rate, (s.die r.die).freq, meas⟩
        s.modRegion rid fun r => { r with solution := some sol }
    | _ => s

end Sys2Proof.Machine
end

