-- ==== Sys2Proof/Machine/Kernel.lean ====
section
/-!
DEFINITION. The life of a kernel (R285-R290): loading, what a stage binds and starts (R79, R82, R164, R200, R215,
R312), switch requests and switches, and its retirement.
-/
namespace Sys2Proof.Machine

/-! ### Binding rings and barriers (R194, R200, R215, R278) -/

/-- The physical element address of an element of a region. -/
def Region.physEl (r : Region) (el : Nat) : BitVec 22 :=
  let rc := elCluster el
  if elType el = 4 then BitVec.ofNat 22 el
  else
    let ix := if elType el ≤ 1 then r.phys rc (elType el) (elIndex el) % 4 else elIndex el
    BitVec.ofNat 22 (elAddr (r.cluster rc).val (elType el) ix (elNum el))

/-- The name of a ring element of a region. -/
def ringIdOf (rid el : Nat) : RingId :=
  ⟨rid, ⟨elCluster el % 16, Nat.mod_lt _ (by decide)⟩, ⟨elNum el % 512, Nat.mod_lt _ (by decide)⟩⟩

/-- A ring as the loader binds it: EMPTY, every slot free at the producer (R194, R200). A route of zero lets the
loader choose one (R434): it is free. -/
def State.newRing (s : State) (r : Region) (el : Nat) : Ring :=
  let (pe, pp) := portOf (r.field el 1)
  let (ce, cp) := portOf (r.field el 2)
  let g := r.field el 3
  let route := r.field el 7
  { id := ringIdOf r.rid el, ctx := r.ctx
    prodEl := r.physEl pe, prodPort := BitVec.ofNat 6 pp, consEl := r.physEl ce, consPort := BitVec.ofNat 6 cp
    route := BitVec.ofNat 8 (if route = 0 then Config.pick s.free el else route)
    store := bit g 23, base := BitVec.ofNat 24 (r.field el 4), slotszM1 := BitVec.ofNat 12 g
    nslotM1 := BitVec.ofNat 8 (bits g 19 12), bond := BitVec.ofNat 2 (bits g 21 20)
    rp := 0, freeseen := bits g 19 12 + 1, slots := [], arrived := 0, popped := 0, fresv := 0, transit := []
    notices := [], stall := 0, starve := 0, pushes := 0, winPush := 0, merge := 0, saved := false }

/-- A RING record in the Gaffer core's recorder of the consumer's island (R391). -/
def State.ringRecord (s : State) (q : Ring) (die : Fin 4) (code : Nat) : State :=
  let e := q.consEl.toNat
  let i : IslandId := ⟨die, ⟨elCluster e % 16, Nat.mod_lt _ (by decide)⟩,
    ⟨(if elType e = 0 then elIndex e else 0) % 4, Nat.mod_lt _ (by decide)⟩⟩
  s.record (unitId i 1 0) (some q.ctx) 4 code 8
    (leBytes 4 (ringElem q.id) ++ leBytes 2 q.wp.toNat ++ leBytes 2 q.rp.toNat ++ leBytes 4 q.slots.length)

/-- A ring bound. -/
def State.bindRing (s : State) (r : Region) (el : Nat) : State :=
  let q := s.newRing r el
  { s with free := s.free + 1, chan := { s.chan with rings := s.chan.rings ++ [q] } }.ringRecord q r.die 1

/-- A ring unbound. -/
def State.unbindRing (s : State) (r : Region) (el : Nat) : State :=
  match s.ring (ringIdOf r.rid el) with
  | none => s
  | some q => { s with chan := { s.chan with rings := s.chan.rings.filter (·.id != q.id) } }.ringRecord q r.die 2

/-- The barriers of a kernel, allocated and COUNTING (R215, R220). -/
def State.bindBars (s : State) (r : Region) : State :=
  let new := (cfgKind r.config .barrier).map fun el =>
    Barrier.mk ⟨r.rid, ⟨elCluster el % 16, Nat.mod_lt _ (by decide)⟩, ⟨elNum el % 32, Nat.mod_lt _ (by decide)⟩⟩
      r.ctx (BitVec.ofNat 24 (r.field el 3)) ⟨false, false, r.field el 1, 0, r.field el 2, 0⟩ false
  { s with chan := { s.chan with bars := s.chan.bars ++ new } }

/-! ### Spilled registers (R82) -/

/-- Vector registers that a strand's CFG allocates (R280). -/
def cfgVregs (cfg : Nat) : Nat := 8 * 2 ^ bits cfg 3 2

/-- The registers of a gang's strands that find no room in its lanes' files: from the highest number downwards,
strand 0 first. -/
def spills : Nat → List (Fin 8 × Nat) → List (Fin 8 × Nat)
  | _, [] => []
  | room, (k, n) :: rest =>
    ((List.range (n - room)).map fun j => (k, n - 1 - j)) ++ spills (room - n) rest

/-- Whether a gang's cells meet a range of cells of its island. -/
def Gang.overlaps (g : Gang) (i : IslandId) (base n : Nat) : Bool :=
  g.seq.isl == i && !g.seq.gaffer && rangesMeet g.seq.base.val g.cells base n

/-- Whether a gang node of a region holds cells of a range of its island (R82). -/
def Region.heldCells (r : Region) (i : IslandId) (base n : Nat) : Bool :=
  (cfgKind r.config .gang).any fun el =>
    cfgOn r.config el && r.nodeIsl el == i && rangesMeet (elNum el) (gangCells r.config el) base n

/-- The parking places in idle register banks of a gang's island, in order: idle cells are those that no gang of any
region holds, a gang of the stage that is starting included. -/
def State.bankPlaces (s : State) (r : Region) (i : IslandId) (cells : Nat) : List Park :=
  ((List.range (64 / max 1 cells)).filter fun k =>
    !(r.heldCells i (k * cells) cells) && !s.fab.gangs.any fun g => g.overlaps i (k * cells) cells).flatMap fun k =>
      ((List.range 256).map fun w => Park.bank (k * cells) w).filter fun p =>
        match p with
        | .bank b w => !s.fab.gangs.any fun g => g.seq.isl == i && g.parked.any fun e =>
            (match e.2.2 with | .bank c v => v == w && rangesMeet c g.cells b cells | _ => false)
        | _ => true

/-- The parking places in accumulator columns of a gang's cluster, in order. DEDUCED: a slot in which another gang
parks is PARKED, so it offers no place. -/
def State.columnPlaces (s : State) (i : IslandId) : List Park :=
  let four : List (Fin 4) := [0, 1, 2, 3]
  four.flatMap fun m => four.flatMap fun k =>
    if (s.slot ⟨i.die, i.cluster, m⟩ k).state != .free then []
    else (List.range 128).map fun c => Park.column m k c

/-- A gang's spill map, none when some register finds no place. -/
def State.spillMap (s : State) (r : Region) (i : IslandId) (cells : Nat) (strands : List (Fin 8 × Nat)) :
    Option (List (Fin 8 × Nat × Park)) :=
  match spills 256 strands with
  | [] => some []
  | l =>
    let places := s.bankPlaces r i cells ++ s.columnPlaces i
    if places.length < l.length then none else some ((l.zip places).map fun p => (p.1.1, p.1.2, p.2))

/-- The slots of parked columns become PARKED (R229). -/
def State.parkSlots (s : State) (i : IslandId) (l : List (Fin 8 × Nat × Park)) : State :=
  l.foldl (fun s e =>
    match e.2.2 with
    | .column m k _ => s.setSlot ⟨i.die, i.cluster, m⟩ k ⟨.parked, [], 0⟩
    | _ => s) s

/-! ### Starting gangs and Gaffer cores (R79, R164, R312) -/

/-- The tile registers that the gangs of an island hold. -/
def State.tilesUsed (s : State) (i : IslandId) : Nat :=
  ((s.fab.gangs.filter fun g => g.seq.isl == i && !g.done).flatMap fun g => g.strands.map (·.ntiles)).foldl (· + ·) 0

/-- A strand at launch: its registers with the handle images, s1 := ARG, its role and ageing limit, and the stack of
its rank (R164, R280, R325). -/
def strandAt (r : Region) (lanes cells num rank entry cfg tiles : Nat) (gaffer : Bool) : Strand :=
  let top := cells * 32768
  let stack := fieldN r.recd 64 4
  let hi := top - rank * stack
  let base := { Regs.launch lanes with b := r.handles, agelim := BitVec.ofNat 16 (bits cfg 19 4), role := BitVec.ofNat 2 cfg }
  let regs := base.wrS 1 (BitVec.ofNat 64 (fieldN r.recd 88 8))
  let regs := if gaffer || stack == 0 then regs
    else (regs.wrS 63 (BitVec.ofNat 64 hi)).wrB 15
      ⟨BitVec.ofNat 56 (hi - stack), BitVec.ofNat 56 hi, true, 2, false, true, true⟩
  { num := ⟨num % 8, Nat.mod_lt _ (by decide)⟩, regs := regs, pc := BitVec.ofNat 56 entry
    nvregs := if gaffer then 0 else cfgVregs cfg, ntiles := tiles, ended := false, wait := 0, yielded := false, fetchHeld := false
    buf := [], grans := [], floors := [], kept := [], pend := [], late := [], sinceRec := 0, commits := 0, drain := none, reqseq := 0 }

/-- The harness loader of a region's die as the source of a fault. -/
def Region.loader (r : Region) : Source := engineSource r.firstIsland

/-- GROUP_START: a gang leaves CREATED. Its spill map is fixed, its tiles are allocated and its strands stand at
their ENTRY; where no place or no tile is left the region faults and no strand issues (R312). DESIGN CHOICE: a gang that
lacks both reports SPILL_FULL alone (R79, R82). -/
def State.startGang (s : State) (r : Region) (el : Nat) : State :=
  let i := r.nodeIsl el
  let cells := gangCells r.config el
  let ks := cfgStrands r.config el
  let strands := ks.zipIdx.map fun p =>
    strandAt r (8 * cells) cells p.1 p.2 (r.field el (4 + p.1)) (r.field el (12 + p.1)) (r.field el (20 + p.1)) false
  let tiles := (strands.map (·.ntiles)).foldl (· + ·) 0
  let fault (c : FaultCode) : State :=
    s.deliver r.rid r.ctx r.loader { code := c, element := (r.physEl el).toNat }
  match s.spillMap r i cells (strands.map fun t => (t.num, t.nvregs)) with
  | none => fault .spillFull
  | some l =>
    if 32 < s.tilesUsed i + tiles then fault .tileAlloc
    else
      let g : Gang := {
        seq := ⟨i, false, ⟨elNum el % 64, Nat.mod_lt _ (by decide)⟩⟩, rid := r.rid, rc := elCluster el, el := el
        cells := cells, strands := strands, parked := l, done := ks.isEmpty, fenced := false }
      { s with fab := { s.fab with gangs := s.fab.gangs ++ [g] } }.parkSlots i l

/-- A Gaffer core starts its strand at ENTRY; an ENTRY of zero leaves it idle (R280, R317). -/
def State.startGaffer (s : State) (r : Region) (el : Nat) : State :=
  let e := r.field el 1
  if e = 0 then s
  else
    let g : Gang := {
      seq := ⟨r.nodeIsl el, true, 0⟩, rid := r.rid, rc := elCluster el, el := el, cells := 0
      strands := [strandAt r 0 0 0 0 e (2 + 16 * 16) 0 true], parked := [], done := false, fenced := false }
    { s with fab := { s.fab with gangs := s.fab.gangs ++ [g] } }

/-! ### Starting the other nodes -/

/-- A ring-fed copy node's job: the record it names, with the handle images of the launch record, feeding the ring
that it produces (R208, R213, R281). The space and the handle of its tensor have no field: they are free. -/
def State.startCopy (s : State) (r : Region) (el : Nat) : State :=
  if r.field el 1 ≠ 0 ∨ !r.hasRec el then s
  else
    let rc : Fin 16 := ⟨elCluster el % 16, Nat.mod_lt _ (by decide)⟩
    let ring := (cfgKind r.config .ring).find? fun q => (portOf (r.field q 1)).1 == el
    let rec_ := s.nodeCapture r el (r.field el 2) 96
    let args : List Word := [BitVec.ofNat 64 (r.field el 4), BitVec.ofNat 64 (r.field el 3),
      BitVec.ofNat 64 (Config.pick el r.rid % 4), BitVec.ofNat 64 (Config.pick el (r.rid + 1) % 16)]
    let j : JobReq := {
      kind := .copyRing, index := 0xff, scope := BitVec.ofNat 4 (r.field el 5), bar := none, ev := false
      recAt := some (homeCluster r.die (r.cluster (elCluster el)) (r.field el 2), 96), bytes := rec_, args := args
      hs := r.handles, tile := none, path := none, ring := ring.map fun q => (ringIdOf r.rid q, 0), seqno := 0 }
    s.enqueue none (some ⟨r.rid, BitVec.ofNat 22 el⟩) r.rid r.ctx r.die (r.cluster (elCluster el)) rc 0 j

/-- A memory node applied: its reads count from here, and the page unit fills the extent table of its stream (R169,
R286, R360). -/
def State.startMemory (s : State) (r : Region) (el : Nat) : State :=
  (s.modRun r.rid el fun u => { u with since := s.mem.nextSeq }).fillExtent r.rid el

/-- A stream node holds its slot with +0 in every element, and MSFLG is cleared when a stage binds it, a node that the
stage before had not enabled (R229, R235). -/
def State.startStream (s : State) (r : Region) (el : Nat) (kept : Bool) : State :=
  let i := r.nodeIsl el
  let s := s.setSlot i ⟨r.field el 7 % 4, Nat.mod_lt _ (by decide)⟩ ⟨.stream, [], 0⟩
  let m := s.mat i
  if kept then s else s.setMat { m with msflg := 0 }

/-- A node of a stage starts; `kept` says that the stage before had enabled it too. -/
def State.startNode (s : State) (r : Region) (el : Nat) (kept : Bool) : State :=
  match elKind el with
  | some .gang => s.startGang r el
  | some .gaffer => s.startGaffer r el
  | some .copy => s.startCopy r el
  | some .memory => s.startMemory r el
  | some .stream => s.startStream r el kept
  | _ => s

/-! ### KERNEL_LOAD (R286) -/

/-- A check that only placement or the solve can make fails: the fault ENGINE names the stage and the offset of the
word that writes the failing element, and the kernel is KILLED with nothing run (R286, R343). -/
def State.refuseLoad (s : State) (r : Region) (stage : Nat) (ws : List Wr) (el : Nat) : State :=
  let off := ((ws.reverse.find? (·.el == el)).map (·.off)).getD 0
  (s.deliver r.rid r.ctx r.loader
    { code := .engine, element := (r.physEl el).toNat, aux := stage * 2 ^ 20 + off }).killRegion r.rid (some 0x0d)

/-- The first element that the physical units of a region cannot hold: a ring past its unit's port buffers, or with a
route that does not join its ends (R434). -/
def Region.unplaced (r : Region) : Option Nat :=
  (cfgKind r.config .ring).find? fun q =>
    let g := r.field q 3
    let size := (bits g 19 12 + 1) * 16 * (bits g 11 0 + 1)
    (!bit g 23 && decide (Config.portBytes < r.field q 4 + size))
      || (r.field q 7 != 0 &&
          !Config.routeJoins (r.field q 7) (r.physEl (portOf (r.field q 1)).1).toNat (r.physEl (portOf (r.field q 2)).1).toNat)

/-- What a stage's configuration makes of a region: the first element that fails, or none (R286, R296). -/
def Region.misfit (r : Region) : Option Nat :=
  match r.unplaced with
  | some e => some e
  | none => match r.flow with | .inr e => some e | .inl _ => none

/-- The first stage after stage 0 whose configuration a region cannot hold, with its writes and the element that fails
(R286, R434). DEDUCED: a partial stream is taken over stage 0's configuration, as at its check. -/
def Region.laterMisfit (r : Region) (c0 : Cfg) : Option (Nat × List Wr × Nat) :=
  (r.streams.zipIdx.drop 1).findSome? fun p =>
    match p.1.map (loadStream p.2 c0) with
    | some (.inl (c, ws)) =>
      ({ r with config := c, cur := ⟨p.2 % 8, Nat.mod_lt _ (by decide)⟩ } : Region).misfit.map fun el => (p.2, ws, el)
    | _ => none

/-- The boosts that must be gone before a region loads (R413): of every die that hosts a region of a context in
deterministic mode, and of the region's own die under NOBOOST. -/
def State.boostInWay (s : State) (r : Region) : Bool :=
  ((s.detCtx r.ctx || bit (fieldN r.recd 2 1) 2) && (s.die r.die).boost)
    || (s.detCtx r.ctx && s.kern.any fun k =>
          k.ctx == r.ctx && k.state != .retired && k.state != .killed && (s.die k.die).boost)

/-- Whether a stage must still be held: a matrix island that it binds to the stream entrance anew has a slot that is not
FREE (R229), or a cluster's matcher has no room for the jobs of its ring-fed copy nodes (R192). -/
def State.stageHeld (s : State) (r : Region) (old new : Cfg) : Bool :=
  let copies (rc : Nat) : Nat := ((cfgKind new .copy).filter fun el => elCluster el == rc && cfgGet new el 1 != 1).length
  ((cfgKind new .stream).any fun el =>
    !cfgOn old el && (s.mat (r.nodeIsl el)).slots.toList.any (·.state != .free))
    || (List.range 16).any fun rc => !s.matcherRoom r.die (r.cluster rc) (copies rc)

/-- KERNEL_LOAD: stage 0 applied, rings and barriers bound, the Lehr's first solution made, and every node started
(R286). -/
def execKernelLoad (s : State) : Out :=
  match s.arg with
  | .num rid =>
    match s.region rid with
    | none => .next s
    | some r =>
      if r.state ≠ .loading ∨ s.boostInWay r then .next s
      else
        match (r.streams.headD none).map (loadStream 0 []) with
        | some (.inl (c, ws)) =>
          let r : Region := { r with
            config := c, cur := 0, pend := false, target := 0, switches := 0, nodes := [], trig := []
            rate := cfgGet c rateEl 2, solves := 0, short := false, solution := none, targets := []
            stallI := [], starveI := [], winAt := s.tick, winEdges := (0, 0) }
          match (r.misfit.map fun el => (0, ws, el)).or (r.laterMisfit c) with
          | some (stage, ws, el) => .next (s.refuseLoad r stage ws el)
          | none =>
            if s.stageHeld r [] c then .next s else
            let s := s.modRegion rid fun _ => { r with state := .filling }
            let s := (cfgKind c .ring).foldl (fun s q => s.bindRing r q) s
            let s := s.bindBars r
            let s := (cfgNodes c).foldl (fun s el => s.startNode r el false) s
            .next ((s.resolve rid true).checkDraining rid)
        | _ => .next (s.killRegion rid (some 0x0d))
  | _ => .next s

/-! ### Switches (R287-R290) -/

/-- STAGE_REQUEST: the oldest request of a region's strands reaches the loader (R289, R292). -/
def execStageRequest (s : State) : Out :=
  match s.arg with
  | .num rid =>
    match s.region rid with
    | none => .next s
    | some r =>
      match r.asks with
      | [] => .next s
      | k :: rest => .next ((s.modRegion rid fun r => { r with asks := rest }).requestStage rid k 8)
  | _ => .next s

/-- Whether a gang's strands have ended; a gang that was never started has none. -/
def State.gangEnded (s : State) (r : Region) (el : Nat) : Bool :=
  (s.fab.gangs.filter fun g => g.rid == r.rid && g.el == el && !g.seq.gaffer).all fun g => g.strands.all (·.ended)

/-- Whether a ring-fed copy node that a switch stops stands between two slots: its job ends with it (R290). -/
def State.copyStopped (s : State) (r : Region) (el : Nat) : Bool :=
  elKind el == some .copy && r.stops el && !s.eng.jobs.any fun j =>
    j.node == some ⟨r.rid, BitVec.ofNat 22 el⟩ && (j.req.kind != .copyRing || j.state == .paused || j.held)

/-- Whether a node that is no gang holds nothing over: no job, no access, no firing half done. -/
def State.nodeAtRest (s : State) (r : Region) (el : Nat) : Bool :=
  let u := r.run el
  (s.nodeIdle ⟨r.rid, BitVec.ofNat 22 el⟩ || s.copyStopped r el) && u.parked.isEmpty &&
    (match elKind el with
     | some .copy => r.field el 1 != 1 || u.buffer.isEmpty
     | some .skive | some .routing => u.iter.isEmpty
     | _ => true)

/-- Whether a node's in rings hold too few tokens for one firing, with none under way to them. -/
def State.starved (s : State) (r : Region) (el : Nat) : Bool :=
  let ports := r.inPorts el
  ports.isEmpty || ports.any fun p =>
    match s.ringInto r.rid el p with
    | none => true
    | some q => q.transit.isEmpty && decide ((q.slots.filter fun t => !t.gone).length < r.tokens el p false)

/-- The rings that a switch unbinds: those enabled and not kept. -/
def dropped (old new : Cfg) : List Nat := (cfgKind old .ring).filter fun q => !ringKept old new q

/-- Whether a Gaffer core has ended or idles: it has no in ring, or too few tokens there, and no block in flight
(R290). -/
def State.gafferIdle (s : State) (r : Region) (el : Nat) : Bool :=
  (s.fab.gangs.filter fun g => g.rid == r.rid && g.el == el && g.seq.gaffer).all fun g =>
    g.strands.all (·.ended)
      || (s.starved r el && !(s.x :: s.fab.flights).any fun x => x.active && x.who.seq == g.seq)

/-- Whether a gang that a switch starts would take cells in whose register banks a gang that goes on has parked
registers (R82). -/
def State.cellsParked (s : State) (r : Region) (new : Cfg) : Bool :=
  ((cfgKind new .gang).filter fun el => !cfgOn r.config el).any fun el =>
    s.fab.gangs.any fun g => g.seq.isl == r.nodeIsl el && g.parked.any fun e =>
      (match e.2.2 with
       | .bank b _ => rangesMeet b g.cells (elNum el) (gangCells new el)
       | _ => false)

/-- Whether a pending switch may be applied (R290): every ring to be unbound EMPTY, every disabled gang ended, every
disabled node idle and every job of a disabled node complete. A stage that binds a stream entrance is held until the
island's slots are FREE (R229); one whose new gangs take cells that hold another gang's parked registers waits until that
gang has ended (R82, DEDUCED). -/
def State.drained (s : State) (r : Region) (new : Cfg) : Bool :=
  (dropped r.config new).all (fun q =>
    (s.ring (ringIdOf r.rid q)).elim true fun k => k.slots.isEmpty && k.transit.isEmpty)
    && ((r.nodeEls.filter fun el => !cfgOn new el).all fun el =>
      match elKind el with
      | some .gang => s.gangEnded r el
      | some .gaffer => s.gafferIdle r el
      | _ => s.nodeAtRest r el && s.starved r el)
    && !s.stageHeld r r.config new && !s.cellsParked r new

/-- Nodes that a switch starts: new ones and rewritten ones. -/
def fresh (old : Cfg) (ws : List Wr) (el : Nat) : Bool := !cfgOn old el || ws.any (·.el == el)

/-- Nodes and slots of a stage put away at a switch: a disabled or rewritten stream node's slot is FREE again
(R229), the job of a copy node that is gone or rewritten ends, the writes of memory nodes are published (R169), gangs whose cells a new gang takes and Gaffer cores
that are disabled are gone (R313). -/
def State.putAway (s : State) (r : Region) (new : Cfg) (ws : List Wr) : State :=
  let gone (el : Nat) : Bool := !cfgOn new el || ws.any (·.el == el)
  let s := (cfgKind r.config .memory).foldl (fun s el => s.publishNode r.rid el) s
  let s := ((cfgKind r.config .stream).filter gone).foldl (fun s el =>
    s.setSlot (r.nodeIsl el) ⟨r.field el 7 % 4, Nat.mod_lt _ (by decide)⟩ ⟨.free, [], 0⟩) s
  let s := { s with eng := { s.eng with jobs := s.eng.jobs.filter fun (j : Job) =>
    !(j.rid == r.rid && decide (j.req.kind = JobKind.copyRing) && j.node.elim false fun n => gone n.el.toNat) } }
  let starts := (cfgKind new .gang).filter fun el => !cfgOn r.config el
  let stay (g : Gang) : Bool :=
    g.rid != r.rid ||
      (if g.seq.gaffer then cfgOn new g.el
       else !g.done || !starts.any fun el => g.overlaps (r.nodeIsl el) (elNum el) (gangCells new el))
  { s with fab := { s.fab with gangs := s.fab.gangs.filter stay } }

/-- STAGE_SWITCH_APPLY: once the drain conditions hold, at a frame boundary of the die, the loader unbinds, writes and
rebinds, the counters return to zero, the Lehr re-solves, and new and rewritten nodes start; newly enabled gangs
start at ENTRY (R287, R290). A gang kept and rewritten goes on where it stands. -/
def execStageSwitchApply (s : State) : Out :=
  match s.arg with
  | .num rid =>
    match s.region rid with
    | none => .next s
    | some r =>
      match r.coming with
      | none => .next s
      | some (c, ws) =>
        if (r.state != .filling && r.state != .steady) || !(s.die r.die).boundary || !s.drained r c then .next s
        else
          match ({ r with config := c } : Region).misfit with
          | some el =>
            .next (s.deliver rid r.ctx r.loader { code := .engine, element := (r.physEl el).toNat
                                                  aux := r.target.val * 2 ^ 20 + ((ws.reverse.find? (·.el == el)).map (·.off)).getD 0 })
          | none =>
            let old := r.config
            let from_ := r.cur.val
            let start := (cfgNodes c).filter (fresh old ws)
            let s := s.putAway r c ws
            let s := (dropped old c).foldl (fun s q => s.unbindRing r q) s
            let s := s.modRegion rid fun r =>
              { r with
                config := c, cur := r.target, pend := false, switches := r.switches + 1, trig := []
                state := .filling, stallI := [], starveI := []
                rate := cfgGet c rateEl 2
                nodes := r.nodes.filter fun u => cfgOn c u.el && !(start.contains u.el && elKind u.el != some .gang) }
            let r := (s.region rid).getD r
            let s := ((cfgKind c .ring).filter fun q => !ringKept old c q).foldl (fun s q => s.bindRing r q) s
            let s := { s with chan := { s.chan with rings := s.chan.rings.map fun (q : Ring) =>
              if q.id.rid == rid then { q with pushes := 0 } else q } }
            let s := (cfgKind c .memory).foldl (fun s el =>
              s.modRun rid el fun u => { u with since := s.mem.nextSeq }) s
            let s := start.foldl (fun s el =>
              if (elKind el == some .gang || elKind el == some .gaffer) && cfgOn old el then s else s.startNode r el (cfgOn old el)) s
            let s := s.resolve rid (start.any fun el => elKind el != none)
            .next (((s.stageRecord r 0 from_ r.cur.val).progress rid).checkDraining rid)
  | _ => .next s

/-! ### KERNEL_RETIRE (R286) -/

/-- One pass of R286's last bullet over the nodes not yet known to be finished. -/
def State.finishPass (s : State) (r : Region) (done : List Nat) : List Nat :=
  let into (el : Nat) : List Nat :=
    ((cfgKind r.config .ring).filter fun q => (portOf (r.field q 2)).1 == el).map fun q => (portOf (r.field q 1)).1
  done ++ (r.nodeEls.filter fun el => !done.contains el).filter fun el =>
    match elKind el with
    | some .gang => s.gangEnded r el
    | k =>
      match r.atCount el with
      | some b => b && (k != some .memory || (r.run el).wrote.isEmpty)
      | none => (into el).all (fun u => done.contains (r.leader u)) && s.starved r el && s.nodeAtRest r el

/-- The nodes that are finished (R286). -/
def State.finishedNodes (s : State) (r : Region) : Nat → List Nat → List Nat
  | 0, l => l
  | n + 1, l => s.finishedNodes r n (s.finishPass r l)

/-- Whether every node of a region is finished. -/
def State.allFinished (s : State) (r : Region) : Bool :=
  let l := s.finishedNodes r r.nodeEls.length []
  r.nodeEls.all l.contains

/-- Jobs that must be complete: a copy node's ring-fed job has ended when its node has reached its COUNT. -/
def State.jobsOver (s : State) (rid : Nat) : Bool := !s.eng.jobs.any (·.rid == rid)

/-- Tokens still in the rings of a region. -/
def State.tokensLeft (s : State) (rid : Nat) : Nat :=
  ((s.chan.rings.filter (·.id.rid == rid)).map fun q =>
    (q.slots.filter fun t => !t.gone).length + q.transit.length).foldl (· + ·) 0

/-- KERNEL_RETIRE: with every node finished, every job complete and every publication of the region complete, the
kernel retires: tokens still in rings are discarded and the region is free. When the last region of its launch
retires the completion record is posted with the tokens discarded and the remote stores still out (R286, R326). -/
def execKernelRetire (s : State) : Out :=
  match s.arg with
  | .num rid =>
    match s.region rid with
    | none => .next s
    | some r =>
      if r.state ≠ .draining ∨ !s.allFinished r ∨ !s.jobsOver rid ∨ (s.mem.pubs.any fun p => p.rid == rid) then
        .next s
      else
        let s := (cfgKind r.config .memory).foldl (fun s el => s.publishNode rid el) s
        let s := (cfgKind r.config .stream).foldl (fun s el =>
          s.setSlot (r.nodeIsl el) ⟨r.field el 7 % 4, Nat.mod_lt _ (by decide)⟩ ⟨.free, [], 0⟩) s
        let lost := s.tokensLeft rid
        let s := s.discardRegion rid
        let s := s.modRegion rid fun r =>
          { r with state := .retired, lost := lost, pend := false, solution := none, targets := [] }
        let kin := s.kern.filter fun k => k.launch == r.launch
        if kin.all fun k => k.state == .retired || (k.state == .killed && !k.again) then
          let lost := (kin.map (·.lost)).foldl (· + ·) 0
          let out := (kin.map fun k => s.xstsOf k.rid).foldl (· + ·) 0
          .next (s.endLaunch r 0 out lost 0)
        else .next s
  | _ => .next s

end Sys2Proof.Machine
end

