-- ==== Sys2Proof/Machine/Lehr.lean ====
section
/-!
DEFINITION. Solutions and their application: re-solve windows (R304), collectives under deterministic mode (R305),
idle, gated and waking islands (R306), ratio switches and changes of m at frame boundaries (R302, R307).
-/
namespace Sys2Proof.Machine

/-! ### What an island holds (R296, R306) -/

/-- A region that stands on the chip. -/
def KState.onChip (k : KState) : Bool := k.live || k == .frozen

/-- The enabled nodes on an island, with their regions. -/
def State.nodesOn (s : State) (k : IslandKey) : List (Region × Nat) :=
  (s.kern.filter fun r => r.state.onChip && r.die == k.die).flatMap fun r =>
    (r.nodeEls.filter fun el => r.nodeKey el == some k).map (r, ·)

/-- Whether an unfinished node stands on an island (R286, R306). -/
def State.busyNodes (s : State) (k : IslandKey) : Bool :=
  (s.nodesOn k).any fun p => !(s.finishedNodes p.1 p.1.nodeEls.length []).contains p.2

/-- The cluster of an island, and its index in it. -/
def keyPlace (k : IslandKey) : Fin 16 × Fin 4 :=
  if k.num.val < 128 then (⟨k.num.val % 64 / 4, by omega⟩, ⟨k.num.val % 4, by omega⟩)
  else (⟨(k.num.val - 128) % 16, by omega⟩, 0)

/-- The island of a fabric or matrix key. -/
def keyIsl (k : IslandKey) : IslandId := ⟨k.die, (keyPlace k).1, (keyPlace k).2⟩

/-- Whether an island holds other work of a region (R296): an engine job, a tile task, a descent, leaf or skive
step, a write-back, or a slot that is not FREE. -/
def State.otherWork (s : State) (k : IslandKey) : Bool :=
  let cl := (keyPlace k).1
  let here (j : Job) : Bool := j.die == k.die && j.cl == cl
  if k.num.val < 64 then false
  else if k.num.val < 128 then
    ((s.mat (keyIsl k)).slots.toList.any fun a => a.state != .free)
      || s.eng.jobs.any fun j => here j &&
          (match j.req.kind with
           | .task | .mzero | .tdstep | .tdleaf | .skfetch | .skrpl => j.underWay && j.island == (keyPlace k).2
           | .cpyb | .mrdWrite => j.underWay
           | _ => false)
  else
    s.eng.jobs.any fun j => here j && j.underWay &&
      (match j.req.kind with
       | .copyLinear | .copyTensor | .copyRing | .cpyb => true
       | _ => false)

/-- The region whose solution governs an island, with the fraction it asks for (R297). -/
def State.governed (s : State) (k : IslandKey) : Option (Region × Nat) :=
  s.kern.findSome? fun r =>
    if r.state.onChip && r.die == k.die then (r.targets.find? (·.1 == k.num.val)).map fun p => (r, p.2) else none

/-- Whether an island hosts a node of a component whose solution is still being made (R296, R304). -/
def State.awaited (s : State) (k : IslandKey) : Bool :=
  s.kern.any fun r => r.state.onChip && r.die == k.die &&
    r.solution.elim false fun x => x.targets.any fun p => p.1 == k.num.val

/-- The partition whose caps apply to an island: that of the first region on its cluster, else of the first on its
die. -/
def State.partOn (s : State) (k : IslandKey) : BitVec 5 :=
  let rs := s.kern.filter fun r => r.state.onChip && r.die == k.die
  match (rs.find? fun r => r.cmap.contains (keyPlace k).1).or rs.head? with
  | some r => (s.ctx r.ctx).part
  | none => 0

/-- The fraction that an island is to run at (R296, R300, R306, R410): its solution's, but never above its cap, while a
node of the component on it is unfinished, and what it has until its first solution completes; its cap while it holds other work or another
unfinished node, else 0; 0 while its allowance is 0. -/
def State.wantM (s : State) (k : IslandKey) : Nat :=
  let cap := s.capOf k (s.partOn k)
  if (s.island k).allow = 0 then 0
  else
    match s.governed k with
    | some (r, m) => if s.busyNodes k then min m (s.capOf k (s.ctx r.ctx).part) else if s.otherWork k then cap else 0
    | none => if s.awaited k then (s.island k).m else if s.busyNodes k || s.otherWork k then cap else 0

/-- Whether an island holds any state of a region (R306). -/
def State.holdsState (s : State) (k : IslandKey) : Bool :=
  !(s.nodesOn k).isEmpty || s.otherWork k || (decide (k.num.val < 64) && s.fab.gangs.any fun g => g.seq.isl == (keyIsl k))

/-! ### Records (R391) -/

/-- The recorder of an island: its Gaffer core's, its own for a matrix island, the hub's for a streamer island,
which has none. -/
def keyUnit (k : IslandKey) : BitVec 20 :=
  if k.num.val < 64 then unitId (keyIsl k) 1 0 else if k.num.val < 128 then unitId (keyIsl k) 2 0 else hubUnit

/-- A POWER record of an island: its number and a value. -/
def State.powerRecord (s : State) (k : IslandKey) (code v : Nat) : State :=
  s.record (keyUnit k) none 11 code 15 (leBytes 8 (k.die.val * 256 + k.num.val) ++ leBytes 8 v)

/-! ### Moving an island (R299, R306, R307) -/

/-- A ratio switch begun: it takes 1,800 ticks (R307). -/
def State.startSwitch (s : State) (k : IslandKey) (r : BitVec 2) : State :=
  s.setIsland { s.island k with switch := some (s.tick + 1800, r) }

/-- An island made ready for a fraction: a gated one is woken, and one whose ratio does not admit the fraction begins
its switch at the old m (R306, R307). -/
def State.prepare (s : State) (k : IslandKey) (m : Nat) : State :=
  let i := s.island k
  if m = 0 ∨ i.waking.isSome then s
  else if i.gated then s.setIsland { i with waking := some (s.tick + 2400) }
  else if i.switch.isNone && decide (i.ratio.toNat < (ratioFor m).toNat) then s.startSwitch k (ratioFor m)
  else s

/-- The m of an island changed, with its RATE record; when the new fraction admits a lower ratio its switch begins
(R307). -/
def State.setM (s : State) (k : IslandKey) (m : Nat) : State :=
  let i := s.island k
  let t := (s.governed k).elim 0 fun p => p.1.rate
  let s := s.setIsland { i with m := m, idleAt := none }
  let s := s.record (keyUnit k) none 9 0 15
    (leBytes 1 i.m ++ leBytes 1 m ++ leBytes 1 i.ratio.toNat ++ leBytes 5 0 ++ leBytes 8 t)
  if m != 0 && i.switch.isNone && decide ((ratioFor m).toNat < i.ratio.toNat) then s.startSwitch k (ratioFor m) else s

/-- Whether an island counts towards gating: it is at m = 0 and holds no enabled node and no state of any region
(R306). -/
def State.idle (s : State) (k : IslandKey) : Bool := (s.island k).m == 0 && !s.holdsState k

/-- The idle count of an island in a tick: it runs from the first tick at which the island is idle (R306). -/
def State.idleTick (s : State) (i : Island) : Island :=
  { i with idleAt := if s.idle i.key then i.idleAt.or (some s.tick) else none }

/-- The islands that the enabled nodes of the regions on the chip stand on. -/
def State.usedKeys (s : State) : List IslandKey :=
  ((s.kern.filter (·.state.onChip)).flatMap fun r => r.nodeEls.filterMap r.nodeKey).eraseDups

/-- The idle counts of the islands in a tick: of those listed, and of those that a region now uses. -/
def State.idleTicks (s : State) : State :=
  let new := s.usedKeys.filter fun k => !s.clk.islands.any (·.key == k)
  { s with clk := { s.clk with islands := (s.clk.islands ++ new.map s.island).map s.idleTick } }

/-- Whether an island's new fraction may take effect at this boundary: it is not gated or waking, no switch is in
progress, and its ratio admits the fraction. -/
def State.mayTake (s : State) (k : IslandKey) (m : Nat) : Bool :=
  let i := s.island k
  m == 0 || (!i.gated && i.waking.isNone && i.switch.isNone && decide ((ratioFor m).toNat ≤ i.ratio.toNat))

/-- Whether an island is due to rise at this boundary. -/
def State.rising (s : State) (k : IslandKey) : Bool :=
  let m := s.wantM k
  decide ((s.island k).m < m) && s.mayTake k m

/-- Every island of a die. -/
def dieKeys (d : Fin 4) : List IslandKey := (List.finRange 144).map fun n => ⟨d, n⟩

/-- Whether an island that is to rise is served at this boundary: at most 8 of a die rise, in ascending die island
number (R307). -/
def State.riseTurn (s : State) (k : IslandKey) : Bool :=
  decide ((s.die k.die).rises < 8) &&
    !(dieKeys k.die).any fun j => decide (j.num.val < k.num.val) && s.rising j

/-- ISLAND_M_APPLY: an island's new fraction takes effect at a frame boundary of its die (R302, R307). One that its
ratio does not admit waits for its switch, and a gated island for its wake-up. -/
def execIslandMApply (s : State) : Out :=
  match s.arg with
  | .island k =>
    let m := s.wantM k
    let i := s.island k
    if !(s.die k.die).boundary then .next s
    else if i.m = m then
      .next (if m != 0 && i.switch.isNone && decide ((ratioFor m).toNat < i.ratio.toNat) then s.startSwitch k (ratioFor m)
        else s)
    else if !s.mayTake k m then .next (s.prepare k m)
    else if i.m < m then
      if !s.riseTurn k then .next s
      else .next ((s.modDie k.die fun d => { d with rises := d.rises + 1 }).setM k m)
    else .next (s.setM k m)
  | _ => .next s

/-- ISLAND_IDLE: an island whose enabled nodes have all finished, or that holds none, and that holds no other work
takes m = 0 at a frame boundary (R306). -/
def execIslandIdle (s : State) : Out :=
  match s.arg with
  | .island k =>
    if !(s.die k.die).boundary || (s.island k).m == 0 || s.busyNodes k || s.otherWork k then .next s
    else .next (s.setM k 0)
  | _ => .next s

/-- ISLAND_POWER_GATE: an island at m = 0 for 1,200,000 ticks with no enabled node and no state of any region is
gated (R306). DESIGN CHOICE: its ratio is then the lowest. -/
def execIslandPowerGate (s : State) : Out :=
  match s.arg with
  | .island k =>
    let i := s.island k
    match i.idleAt with
    | some t =>
      if i.m != 0 || i.gated || i.waking.isSome || s.holdsState k || decide (s.tick < t + 1200000) then .next s
      else .next ((s.setIsland { i with gated := true, ratio := 0, switch := none }).powerRecord k 1 0)
    | none => .next s
  | _ => .next s

/-- ISLAND_WAKE: a wake-up of 2,400 ticks ends, at the ratio that the island's fraction asks for; the fraction takes
effect at the next frame boundary (R306). -/
def execIslandWake (s : State) : Out :=
  match s.arg with
  | .island k =>
    let i := s.island k
    match i.waking with
    | some t =>
      if s.tick < t then .next s
      else .next ((s.setIsland { i with gated := false, waking := none, ratio := ratioFor (s.wantM k) }).powerRecord k 2 0)
    | none => .next s
  | _ => .next s

/-- RATIO_SWITCH_END: a ratio switch ends (R307). -/
def execRatioSwitchEnd (s : State) : Out :=
  match s.arg with
  | .island k =>
    let i := s.island k
    match i.switch with
    | some (t, r) =>
      if s.tick < t then .next s
      else .next ((s.setIsland { i with switch := none, ratio := r }).powerRecord k 0 r.toNat)
    | none => .next s
  | _ => .next s

/-! ### Solutions (R304, R305, R307) -/

/-- The islands of a region that host an edge of a collective endpoint (R305). DEDUCED: an endpoint stands on no
island; its edge is hosted by the island of the node at the other end of its ring. -/
def Region.collIslands (r : Region) : List Nat :=
  let coll (e : Nat) : Bool := elKind e == some .endpoint && bits (r.field e 2) 1 0 != 0
  (r.edges.filterMap fun e =>
    let other := if coll e.u then some e.v else if coll e.v then some e.u else none
    (other.bind islOf).map r.keyOf).map (·.num.val)

/-- A solution in force: each island's target, and the ratio switches and wake-ups that it asks for (R307). Under
deterministic mode an island that hosts a collective's edge keeps its fraction, FROZEN, while some member's Lehr has
not computed the same one; whether they have is free (R305). -/
def State.completeSolution (s : State) (rid : Nat) : State :=
  match s.region rid with
  | none => s
  | some r =>
    match r.solution with
    | none => s
    | some sol =>
      let held := if s.detCtx r.ctx then r.collIslands else []
      let keep (n : Nat) : Bool := held.contains n && Config.pick s.free n % 2 == 1
      let old (n : Nat) : Option Nat := (r.targets.find? (·.1 == n)).map (·.2)
      let ts := sol.targets.map fun p => if keep p.1 then (p.1, (old p.1).getD p.2) else p
      let s := s.modRegion rid fun r =>
        { r with targets := ts, solution := none, rate := sol.rate, short := sol.short, solves := r.solves + 1 }
      ts.foldl (fun s p =>
        let k : IslandKey := ⟨r.die, ⟨p.1 % 144, Nat.mod_lt _ (by decide)⟩⟩
        let s := s.setIsland { s.island k with target := p.2, frozen := keep p.1 }
        s.prepare k p.2) { s with free := s.free + 1 }

/-- LEHR_SOLUTION_COMPLETE (R304, R307). -/
def execLehrSolutionComplete (s : State) : Out :=
  match s.arg with
  | .num rid => .next (s.completeSolution rid)
  | _ => .next s

/-- The counts of a region's window restarted (R304). -/
def State.restartWindow (s : State) (rid : Nat) : State :=
  let s := { s with chan := { s.chan with rings := s.chan.rings.map fun (q : Ring) =>
    if q.id.rid == rid then { q with stall := 0, starve := 0, winPush := 0 } else q } }
  s.modRegion rid fun r =>
    { r with winAt := s.tick, winEdges := (0, 0), nodes := r.nodes.map fun u => { u with winFired := 0 } }

/-- The target at a window's end (R304): doubled up to MAX when the output's consumer starved for more than half its
cycles and the producer never stalled, halved down to MIN in the opposite case. MAX = 0 stands for RATE (R294). -/
def State.nextTarget (s : State) (r : Region) : Nat :=
  match r.stageOut.bind fun p => s.ringFrom r.rid p.1 p.2 with
  | none => r.rate
  | some q =>
    let max_ := if r.field rateEl 6 = 0 then r.field rateEl 2 else r.field rateEl 6
    let (u, v) := r.winEdges
    if v < 2 * q.starve.toNat ∧ q.stall = 0 then min (2 * r.rate) max_
    else if q.starve = 0 ∧ u < 2 * q.stall.toNat then max (r.rate / 2) (r.field rateEl 5)
    else r.rate

/-- LEHR_RESOLVE_WINDOW: at the end of a window the target moves and the region is re-solved from the measured
counts, unless EXACT = 1; the counts restart (R304). -/
def execLehrResolveWindow (s : State) : Out :=
  match s.arg with
  | .num rid =>
    match s.region rid with
    | none => .next s
    | some r =>
      if !r.state.live || decide (s.tick < r.winAt + 65536) then .next s
      else if r.field rateEl 4 = 1 then .next (s.restartWindow rid)
      else
        let s := s.modRegion rid fun r => { r with rate := s.nextTarget r }
        .next ((s.resolve rid false).restartWindow rid)
  | _ => .next s

/-! ### Boost (R302) -/

/-- BOOST_CHANGE: at a frame boundary the master setting changes; the regions of the die are re-solved with the new
frequency, and their fractions take effect at the same boundary, each island's turn following at once (R302). -/
def execBoostChange (s : State) : Out :=
  match s.arg with
  | .die d =>
    let x := s.die d
    if !x.boundary || x.want == x.boost then .next s
    else
      let s := s.modDie d fun x => { x with boost := x.want }
      let s := ((s.kern.filter fun r => r.die == d && r.state.live).map (·.rid)).foldl (fun s rid =>
        (s.resolve rid false).completeSolution rid) s
      let due := (dieKeys d).filter fun k => (s.island k).m != s.wantM k
      .next { s with agenda := (due.map fun k => Turn.event .islandMApply (.island k)) ++ s.agenda }
  | _ => .next s

end Sys2Proof.Machine
end

