-- ==== Sys2Proof/Machine/QueueOps.lean ====
section
/-!
DEFINITION. Hardware queues (R323, R324), the check of a launch record (R325, R326), arbitration, placement and
pre-emption (R327-R330), and the watchdogs (R331, R332).
-/
namespace Sys2Proof.Machine

/-! ### The queue's own events (R324) -/

/-- Records that wait in a queue. -/
def Queue.waiting (q : Queue) : Nat := (q.tail - q.head).toNat

/-- QUEUE_TAIL_WRITE: a count above the queue's size stops the queue and records PROTECT in its context's fault
queue (R324). -/
def execQueueTailWrite (s : State) : Out :=
  match s.arg with
  | .queueVal n v =>
    let q := s.queueAt n
    let s := s.modQueue n fun q => { q with tail := v }
    if q.enable && decide (2 ^ q.size < (v - q.head).toNat) then
      let f : FaultInfo := { code := .protect, aux := n.toNat }
      .next ((s.modQueue n fun q => { q with faulted := true }).hubFault q.ctx hubSource
        (faultRecord s.tick q.ctx hubSource f))
    else .next s
  | _ => .next s

/-- Queues that a context has enabled. -/
def State.queuesOf (s : State) (c : BitVec 12) : Nat := (s.hub.queues.filter fun q => q.ctx == c && q.enable).length

/-- QUEUE_ENABLE: ENABLE written 1. A descriptor with a non-zero reserved byte is refused and stays DISABLED (R323),
as one whose SIZE or PRIO is out of range or that passes its context's MAXQ is (R337, DEDUCED). HEAD is kept. -/
def execQueueEnable (s : State) : Out :=
  match s.arg with
  | .queue n =>
    match s.queue n with
    | none => .next s
    | some q =>
      if q.enable || q.bad || q.size == 0 || decide (16 < q.size) || decide (47 < q.prio)
          || decide ((s.ctx q.ctx).maxq ≤ s.queuesOf q.ctx) then .next s
      else .next (s.modQueue n fun q => { q with enable := true, faulted := false })
  | _ => .next s

/-- QUEUE_DISABLE: ENABLE written 0. -/
def execQueueDisable (s : State) : Out :=
  match s.arg with
  | .queue n => .next (s.modQueue n fun q => { q with enable := false, faulted := false })
  | _ => .next s

/-- QUEUE_HEAD_WRITE: HEAD is written only while the queue is DISABLED (R324). -/
def execQueueHeadWrite (s : State) : Out :=
  match s.arg with
  | .queueVal n v => .next (s.modQueue n fun q => if q.enable then q else { q with head := v })
  | _ => .next s

/-! ### The check of a record (R325, R326) -/

/-- A handle image (R161); none where it is refused. One with V = 0 is zero in every byte but its attribute word. -/
def handleOf (b : List Byte) : Option Handle :=
  let lo := fieldN b 0 8
  let hi := fieldN b 8 8
  let a := fieldN b 16 1
  if (b.drop 17).any (· != 0) || decide (2 ^ 56 ≤ lo) || decide (2 ^ 56 ≤ hi) || bit a 3 || decide (3 < bits a 6 4)
      || (bits a 6 4 == 3 && bit a 2) || (!bit a 7 && (lo != 0 || hi != 0)) then none
  else some ⟨BitVec.ofNat 56 lo, BitVec.ofNat 56 hi, bit a 7, BitVec.ofNat 3 (bits a 6 4), bit a 2, bit a 1, bit a 0⟩

/-- The 16 handles of a record; none where an image is refused. -/
def State.readHandles (s : State) (c : BitVec 12) (at_ : Nat) : Option (Vector Handle 16) :=
  let l := (List.range 16).map fun k => handleOf (s.hubRead c (at_ + 32 * k) 32)
  if l.any (·.isNone) then none
  else some (Vector.ofFn fun k => ((l[k.val]?).join).getD Handle.none)

/-- The stage streams of a record: an entry of no words is absent; none where an entry has a set zero bit or more
words than a stream may have (R276, R325). -/
def State.readStreams (s : State) (c : BitVec 12) (at_ : Nat) : Option (List (Option (List (BitVec 32)))) :=
  let l := (List.range 8).map fun k =>
    let e := s.hubRead c (at_ + 16 * k) 16
    let n := fieldN e 8 4
    if fieldN e 12 4 ≠ 0 ∨ 2 ^ 20 < n then none
    else if n = 0 then some none
    else
      let bs := s.hubRead c (fieldN e 0 8) (4 * n)
      some (some ((List.range n).map fun j => BitVec.ofNat 32 (fieldN bs (4 * j) 4)))
  if l.any (·.isNone) then none else some (l.map Option.join)

/-- Whether a record's levels break R309 or R310, the finer levels' extents aside. -/
def levelsBad (recd : List Byte) : Bool :=
  let l := levelsOf recd
  decide (8 < fieldN recd 3 1)
    || (l.any fun v => decide (7 < v.dom) || decide (5 < v.scope) || decide (v.scope < ownScope v.dom) || v.ext == 0
          || (v.dom == 0 && v.ext != 1) || (v.dom == 1 && v.ext != fieldN recd 80 4) || (v.dom == 2 && decide (4 < v.ext)))
    || anyPair (fun a b => decide (b.dom ≤ a.dom)) l

/-- Whether a record has a reserved bit set. DEDUCED: so counts an address that is not aligned as R325 states, and a
stack that is no multiple of 16. -/
def recordReserved (recd : List Byte) : Bool :=
  decide (63 < fieldN recd 2 1) || fieldN recd 84 4 != 0 || (recd.drop 96).any (· != 0)
    || fieldN recd 24 8 % 32 != 0 || fieldN recd 64 4 % 16 != 0

/-- The configurations that the stages of a kernel come to, each later one from stage 0's (R287). -/
def stageCfgs (streams : List (Option (List (BitVec 32)))) : List Cfg :=
  let c0 : Cfg := match streams.headD none with
    | some w => (match loadStream 0 [] w with | .inl (c, _) => c | .inr _ => [])
    | none => []
  c0 :: ((streams.zipIdx.drop 1).filterMap fun p =>
    p.1.bind fun ws => match loadStream p.2 c0 ws with | .inl (c, _) => some c | .inr _ => none)

/-- Whether the stacks of some gang of some stage pass its LOCAL (R164). -/
def stacksBad (recd : List Byte) (streams : List (Option (List (BitVec 32)))) : Bool :=
  (stageCfgs streams).any fun c => (cfgKind c .gang).any fun el =>
    decide (gangCells c el * 32768 < (cfgStrands c el).length * fieldN recd 64 4)

/-- The device numbers that a record's DEVTAB names (R325). -/
def State.readDevs (s : State) (c : BitVec 12) (recd : List Byte) : List Nat :=
  (List.range (fieldN recd 80 4)).map fun k => leNat (s.hubRead c (fieldN recd 72 8 + 4 * k) 4)

/-- Whether a page that is being moved holds what a record's check reads: its handles, its stages with their streams,
its device numbers (R358). -/
def State.checkHeld (s : State) (c : BitVec 12) (recd : List Byte) : Bool :=
  let st := fieldN recd 8 8
  fieldN recd 0 2 == 0x200 &&
    (s.hubHeld c (fieldN recd 16 8) 512 1 || s.hubHeld c st 128 1
      || s.hubHeld c (fieldN recd 72 8) (4 * fieldN recd 80 4) 1
      || (List.range 8).any fun k =>
          let e := s.hubRead c (st + 16 * k) 16
          decide (fieldN e 8 4 ≤ 2 ^ 20) && s.hubHeld c (fieldN e 0 8) (4 * fieldN e 8 4) 1)

/-- What the check of a record comes to (R326). -/
inductive Checked
  /-- refused, with the stage and the offset of a refused stream's first offending word -/
  | refused (extra : Nat)
  | marker
  | kernel (streams : List (Option (List (BitVec 32)))) (hs : Vector Handle 16)
  deriving DecidableEq, Repr, Inhabited

/-- The check of a record that is taken (R326, R338). -/
def State.checkRecord (s : State) (c : BitVec 12) (recd : List Byte) : Checked :=
  if (s.ctx c).state ≠ .open_ ∨ recordReserved recd then .refused 0
  else
    match fieldN recd 0 2 with
    | 0x201 => .marker
    | 0x200 =>
      if levelsBad recd || (s.readDevs c recd).any fun d => decide (2 ^ 20 ≤ d) then .refused 0
      else
        match s.readHandles c (fieldN recd 16 8), s.readStreams c (fieldN recd 8 8) with
        | some hs, some streams =>
          (match checkStreams streams with
           | some (stage, off) => .refused (off % 2 ^ 20 + stage * 2 ^ 32)
           | none =>
             if stacksBad recd streams || !extentsOk (kernelNodes streams) (stageCfgs streams) (levelsOf recd) then
               .refused 0
             else .kernel streams hs)
        | _, _ => .refused 0
    | _ => .refused 0

/-! ### Placement (R328, R346, R350) -/

/-- The islands that a region holds. -/
def Region.held (r : Region) : List IslandKey :=
  r.imap.map fun p =>
    let c := r.cluster p.1.1
    let i : IslandId := ⟨r.die, c, ⟨p.2 % 4, Nat.mod_lt _ (by decide)⟩⟩
    match p.1.2.1 with
    | 0 => fabKey i
    | 1 => matKey i
    | _ => streamKey r.die c

/-- A region that holds its islands. -/
def KState.holds (k : KState) : Bool := k.onChip || k == .loading

/-- The units of a kernel that stand on islands, and its region clusters. -/
def unitsOf (nodes : List Nat) : List (Nat × Nat × Nat) :=
  ((nodes.filter fun e => decide (elType e ≤ 2)).map fun e =>
    (elCluster e, elType e, if elType e = 2 then 0 else elIndex e)).eraseDups

/-- A list turned by a free number of places. -/
def rotate {α : Type} (l : List α) (k : Nat) : List α :=
  let n := k % max 1 l.length
  l.drop n ++ l.take n

/-- Clusters for region clusters in turn, each taking one that is not yet used. -/
def fitClusters (ok : Nat → Fin 16 → Bool) (order : List (Fin 16)) : List Nat → List (Fin 16) → Option (List (Fin 16))
  | [], used => some used.reverse
  | rc :: rest, used =>
    order.findSome? fun c => if used.contains c || !ok rc c then none else fitClusters ok order rest (c :: used)

/-- Whether an island is free, some regions counted as gone. DEDUCED: an island with cells that a gang still holds,
or that are fenced (R332), is not. -/
def State.islandFree (s : State) (gone : List Nat) (k : IslandKey) : Bool :=
  !(s.kern.any fun r => r.state.holds && !gone.contains r.rid && r.held.contains k)
    && !(decide (k.num.val < 64) && s.fab.gangs.any fun g => g.seq.isl == keyIsl k && !gone.contains g.rid)

/-- Whether a gang parks registers in a slot of a matrix island (R82, R229). -/
def State.parkedOn (s : State) (gone : List Nat) (i : IslandId) : Bool :=
  s.fab.gangs.any fun g => !gone.contains g.rid && g.seq.isl.die == i.die && g.seq.isl.cluster == i.cluster
    && g.parked.any fun e => (match e.2.2 with | .column m _ _ => m == i.island | _ => false)

/-- Physical indices of a unit kind that are free in a cluster. A matrix island is a unit of a kernel for its stream
node, so one with PARKED slots is not chosen (R229). -/
def State.freeUnits (s : State) (gone : List Nat) (d : Fin 4) (c : Fin 16) (ty : Nat) : List (Fin 4) :=
  let four : List (Fin 4) := [0, 1, 2, 3]
  match ty with
  | 0 => four.filter fun k => s.islandFree gone (fabKey ⟨d, c, k⟩)
  | 1 => four.filter fun k => s.islandFree gone (matKey ⟨d, c, k⟩) && !s.parkedOn gone ⟨d, c, k⟩
  | _ => if s.islandFree gone (streamKey d c) then [0] else []

/-- A place for a kernel's units on a die: the clusters and the physical index of each unit, chosen freely; none where
they do not fit. An isolated partition shares no cluster with another (R350). -/
def State.place (s : State) (gone : List Nat) (p : BitVec 5) (d : Fin 4) (nodes : List Nat) :
    Option (List (Fin 16) × List ((Nat × Nat × Nat) × Nat)) :=
  let us := unitsOf nodes
  let apart (c : Fin 16) : Bool := s.kern.all fun r =>
    !r.state.holds || gone.contains r.rid || r.die != d || !r.cmap.contains c || (s.ctx r.ctx).part == p
      || (!(s.partition p).iso && !(s.partition (s.ctx r.ctx).part).iso)
  let ok (rc : Nat) (c : Fin 16) : Bool :=
    apart c && [0, 1, 2].all fun ty =>
      decide ((us.filter fun u => u.1 == rc && u.2.1 == ty).length ≤ (s.freeUnits gone d c ty).length)
  let order := rotate (List.finRange 16) (Config.pick s.free d.val)
  (fitClusters ok order (List.range (clustersOf nodes)) []).map fun cs =>
    (cs, (List.range (clustersOf nodes)).flatMap fun rc => [0, 1, 2].flatMap fun ty =>
      let free := rotate (s.freeUnits gone d ((cs[rc]?).getD 0) ty) (Config.pick s.free (64 + 4 * rc + ty))
      ((us.filter fun u => u.1 == rc && u.2.1 == ty).zip free).map fun q => (q.1, q.2.val))

/-- Whether islands for some more regions pass the limits of a context and of its partition's share, and leave every
isolated partition what is reserved to it (R337, R340, R350); a share of 0 is none given (DESIGN CHOICE). -/
def State.islandsAllowed (s : State) (gone : List Nat) (c : BitVec 12) (n : Nat) : Bool :=
  let count (f : Region → Bool) : Nat :=
    ((s.kern.filter fun r => r.state.holds && !gone.contains r.rid && f r).map fun r => r.held.length).foldl (· + ·) 0
  let p := (s.ctx c).part
  let of (q : BitVec 5) : Nat := count fun r => (s.ctx r.ctx).part == q
  let share := (s.partition p).island.toNat
  let kept := ((s.hub.parts.filter fun q => q.iso && q.num != p).map fun q =>
    q.island.toNat * 576 / 256 - of q.num).foldl (· + ·) 0
  decide (count (fun r => r.ctx == c) + n ≤ (s.ctx c).maxisl)
    && (share == 0 || decide (256 * (of p + n) ≤ share * 576))
    && decide (count (fun _ => true) + n + kept ≤ 576)

/-- A region as placement makes it, LOADING. -/
def newRegion (rid launch idx : Nat) (d : Fin 4) (l : Launch) (devs : List Nat)
    (streams : List (Option (List (BitVec 32)))) (hs : Vector Handle 16) (pl : List (Fin 16) × List ((Nat × Nat × Nat) × Nat)) : Region where
  rid := rid
  die := d
  ctx := l.ctx
  queue := l.queue
  ticket := l.ticket
  prio := l.prio
  launch := launch
  dieIdx := idx
  recd := l.recd
  devs := devs
  handles := hs
  streams := streams
  config := []
  cmap := pl.1
  imap := pl.2
  state := .loading
  before := .loading
  cur := 0
  pend := false
  target := 0
  pendAt := (0, 8)
  switches := 0
  nodes := []
  trig := []
  rate := 0
  solves := 0
  short := false
  solution := none
  targets := []
  winAt := 0
  winEdges := (0, 0)
  ktime := []
  stallI := []
  starveI := []
  dog := 0
  slice := 0
  ran := 0
  firstFault := none
  faultAt := (0, 0)
  waiting := []
  dying := none
  saving := false
  dogSave := false
  dogAsked := false
  again := false
  restore := false
  service := none
  asks := []
  replay := []
  area := none
  lost := 0

/-- Whether a kernel's declared rate is feasible on a die (R297, R298, R328): at base where its boost would be
withdrawn (R413). A kernel without a repetition vector fails only in LOADING (R286). -/
def State.feasible (s : State) (l : Launch) (streams : List (Option (List (BitVec 32)))) (hs : Vector Handle 16)
    (d : Fin 4) : Bool :=
  match (streams.headD none).map (loadStream 0 []) with
  | some (.inl (c, _)) =>
    let r := { newRegion 0 0 0 d l [] streams hs ([], []) with config := c, rate := cfgGet c rateEl 2 }
    let base := bit (fieldN l.recd 2 1) 1 || bit (fieldN l.recd 2 1) 2 || s.detCtx l.ctx
    (match r.flow with
     | .inl (some fl) => (r.solve fl ⟨r.rate, if base then 2400000000 else (s.die d).freq, none⟩).isSome
     | _ => true)
  | _ => true

/-- Copies that a launch places on this device (R310): its DIE level's extent, where its PACKAGE level names this
device or it has none. -/
def State.copiesOf (s : State) (c : BitVec 12) (recd : List Byte) : Nat :=
  let l := levelsOf recd
  let named : Bool := !(l.any (·.dom == 1)) || (s.readDevs c recd).contains s.hub.boot.device.toNat
  if named then ((l.find? (·.dom == 2)).map (·.ext)).getD 1 else 0

/-- The dies and places for a launch's copies, in ascending die; none where they do not fit (R310, R328). -/
def State.placeAll (s : State) (gone : List Nat) (l : Launch) (streams : List (Option (List (BitVec 32))))
    (hs : Vector Handle 16) : Option (List (Fin 4 × (List (Fin 16) × List ((Nat × Nat × Nat) × Nat)))) :=
  let n := s.copiesOf l.ctx l.recd
  let nodes := kernelNodes streams
  let fits := (rotate (List.finRange 4) (Config.pick s.free 99)).filterMap fun d =>
    if s.feasible l streams hs d then (s.place gone (s.ctx l.ctx).part d nodes).map (d, ·) else none
  if fits.length < n || !s.islandsAllowed gone l.ctx (n * (unitsOf nodes).length) then none
  else some (sortBy (fun a b => decide (a.1.val ≤ b.1.val)) (fits.take n))

/-- Boost withdrawn before regions of a launch load, or are restored, on listed dies (R413, R14). -/
def State.dropBoost (s : State) (c : BitVec 12) (recd : List Byte) (ds : List (Fin 4)) : State :=
  let det := s.detCtx c || bit (fieldN recd 2 1) 1
  let all := if det then ds ++ ((s.kern.filter fun r => r.ctx == c && r.state.holds).map (·.die))
    else if bit (fieldN recd 2 1) 2 then ds else []
  all.foldl (fun s d => s.modDie d fun x => { x with want := false }) s

/-- A launch's regions made at their places, each with its DIE index. -/
def State.makeRegions (s : State) (l : Launch) (devs : List Nat) (streams : List (Option (List (BitVec 32))))
    (hs : Vector Handle 16) (pls : List (Nat × Fin 4 × (List (Fin 16) × List ((Nat × Nat × Nat) × Nat)))) : State :=
  let new := pls.zipIdx.map fun p => newRegion (s.hub.nextRid + p.2) l.num p.1.1 p.1.2.1 l devs streams hs p.1.2.2
  let s := { s with free := s.free + 1, kern := s.kern ++ new, hub := { s.hub with nextRid := s.hub.nextRid + pls.length } }
  let s := s.dropBoost l.ctx l.recd (pls.map (·.2.1))
  match new.head? with
  | some r => s.schedRecord r 0
  | none => s

/-! ### Candidates (R327, R329, R330, R431) -/

/-- What waits for the queue engine. -/
inductive Cand
  | queue (q : BitVec 11)
  | entry (die : Fin 4) (cl : Fin 16) (t : BitVec 16)
  /-- a killed idempotent region that re-enters arbitration (R329) -/
  | again (rid : Nat)
  /-- a SAVED region that re-enters arbitration (R328, R431) -/
  | saved (rid : Nat)
  deriving DecidableEq, Repr, Inhabited

/-- A candidate with its level, its partition, its queue, and its place in the rotation: a queue's number, and after
every queue the age of an entry (R327). -/
structure Waiter where
  cand : Cand
  prio : Nat
  part : BitVec 5
  queue : Option (BitVec 11)
  key  : Nat
  deriving DecidableEq, Repr, Inhabited

/-- The head record of a queue. -/
def State.headRecord (s : State) (q : Queue) : List Byte :=
  s.hubRead q.ctx (q.base.toNat + 128 * (q.head.toNat % 2 ^ q.size)) 128

/-- Whether every launch of a queue before a point has completed (R325). -/
def State.queueQuiet (s : State) (q : BitVec 11) (before : Nat) : Bool :=
  s.hub.launches.all fun l => l.queue != some q || l.done || decide (before ≤ l.num)

/-- Whether the page of an address is RESIDENT or PINNED. -/
def State.there (s : State) (c : BitVec 12) (va : Nat) : Bool :=
  let w := (s.lookup c va).state.toNat
  w == 1 || w == 3

/-- Whether the page that a saved region waited for is RESIDENT again (R348): every node that had stopped at a page
and every paused job may go on. -/
def State.served (s : State) (r : Region) : Bool :=
  let there := s.there r.ctx
  match r.area with
  | none => true
  | some a =>
    (a.nodes.all fun u => !u.stuck || there u.stuckAt)
      && a.jobs.all fun j => j.state != .paused || there j.pausedAt

/-- The place in the rotation of a region that re-enters arbitration: its queue's, or after every queue its entry's. -/
def State.regionKey (s : State) (r : Region) : Nat :=
  match r.queue, r.ticket with
  | some q, _ => q.toNat
  | none, some (t, d, c) =>
    2048 + ((s.hub.pending.find? fun e => e.die == d && e.cl == c && e.ticket == t).map (·.age)).getD 0
  | none, none => 2048

/-- Everything that waits for the queue engine: heads held by ORD, or behind a record of their queue that re-enters
arbitration ahead of them, do not. -/
def State.waiters (s : State) : List Waiter :=
  let back : List Waiter := s.kern.filterMap fun r =>
    if r.state == .killed && r.again && !(s.hub.launches.any fun l => l.num == r.launch && l.done) then
      some ⟨.again r.rid, r.prio, (s.ctx r.ctx).part, r.queue, s.regionKey r⟩
    else if r.state == .saved && !r.restore && s.served r then
      some ⟨.saved r.rid, r.prio, (s.ctx r.ctx).part, r.queue, s.regionKey r⟩
    else none
  let heads : List Waiter := s.hub.queues.filterMap fun q =>
    if !q.enable || q.faulted || q.waiting == 0 || back.any (fun w => w.queue == some q.num)
        || s.hubHeld q.ctx (q.base.toNat + 128 * (q.head.toNat % 2 ^ q.size)) 128 1
        || (bit (fieldN (s.headRecord q) 2 1) 5 && !s.queueQuiet q.num s.hub.nextLaunch) then none
    else some ⟨.queue q.num, q.prio, q.part, some q.num, q.num.toNat⟩
  let entries : List Waiter := s.hub.pending.filterMap fun e =>
    if e.taken then none else some ⟨.entry e.die e.cl e.ticket, e.prio, (s.ctx e.ctx).part, none, 2048 + e.age⟩
  back ++ heads ++ entries

/-- The turns of a partition in one round of a level. DESIGN CHOICE: R327 does not say which of its shares weighs; its
share of islands, which placement gives out, does, and a share of 0 counts as one. -/
def State.weight (s : State) (p : BitVec 5) : Nat := max 1 (s.partition p).island.toNat

/-- The turns that a partition has had in the round of a level, and one past the key that it last served. -/
def State.turnsOf (s : State) (level : Nat) (p : BitVec 5) : Nat × Nat :=
  ((s.hub.turns.find? fun t => t.1 == level && t.2.1 == p).map (·.2.2)).getD (0, 0)

/-- Whether the round of a level is over: every partition that waits there has had its turns. -/
def State.roundOver (s : State) (level : Nat) : Bool :=
  (s.waiters.filter (·.prio == level)).all fun w => decide (s.weight w.part ≤ (s.turnsOf level w.part).1)

/-- A waiter's rank: the highest level first, then the partitions in ascending number that have turns left in the round,
and within one its queues in ascending number and its entries by age, from after the one last served (R327). -/
def State.rank (s : State) (w : Waiter) : Nat :=
  let (used, last) := s.turnsOf w.prio w.part
  let spent : Nat := if !s.roundOver w.prio && decide (s.weight w.part ≤ used) then 1 else 0
  let before : Nat := if w.key < last then 1 else 0
  ((((47 - w.prio) * 2 + spent) * 32 + w.part.toNat) * 2 + before) * 2 ^ 64 + w.key

/-- Waiters in the order in which they are considered (R327). -/
def State.considered (s : State) : List Waiter := sortBy (fun a b => decide (s.rank a ≤ s.rank b)) s.waiters

/-- A turn taken by a waiter; a new round begins where the last one is over (R327). -/
def State.tookTurn (s : State) (w : Waiter) : State :=
  let newRound := s.roundOver w.prio
  let ts := if newRound then s.hub.turns.map (fun t => if t.1 == w.prio then (t.1, t.2.1, 0, t.2.2.2) else t) else s.hub.turns
  let used := if newRound then 0 else (s.turnsOf w.prio w.part).1
  { s with hub := { s.hub with turns :=
      (w.prio, w.part, used + 1, w.key + 1) :: ts.filter fun t => !(t.1 == w.prio && t.2.1 == w.part) } }

/-! ### Taking a record (R326-R330) -/

/-- A pending-launch entry freed (R330). -/
def State.freeEntry (s : State) (ticket : Option (BitVec 16 × Fin 4 × Fin 16)) : State :=
  match ticket with
  | none => s
  | some (t, d, c) => { s with hub := { s.hub with pending := s.hub.pending.filter fun e =>
      !(e.die == d && e.cl == c && e.ticket == t) } }

/-- Markers whose earlier records have all completed complete in turn, and their entries are freed (R325, R330). -/
def State.settle (s : State) : State :=
  (s.hub.launches.filter fun l =>
    !l.done && fieldN l.recd 0 2 == 0x201 && l.queue.elim true fun q => s.queueQuiet q l.num).foldl (fun s l =>
      let s := { s with hub := { s.hub with launches := s.hub.launches.map fun (k : Launch) =>
        if k.num = l.num then { k with done := true } else k } }
      (s.completeLaunch l.ctx l.recd 0 0 0 0).freeEntry l.ticket) s

/-- The launch that a waiter's record becomes. -/
def State.launchOf (s : State) (w : Waiter) : Option Launch :=
  match w.cand with
  | .queue n => (s.queue n).map fun q => ⟨s.hub.nextLaunch, some n, q.head, none, s.headRecord q, q.ctx, q.prio, true, false⟩
  | .entry d c t =>
    (s.hub.pending.find? fun e => e.die == d && e.cl == c && e.ticket == t).map fun e =>
      ⟨s.hub.nextLaunch, none, 0, some (t, d, c), e.recd, e.ctx, e.prio, true, false⟩
  | .again _ | .saved _ => none

/-- A launch entered among those taken; its queue's HEAD goes on, or its entry is marked taken. -/
def State.enter (s : State) (l : Launch) : State :=
  let hub := s.hub
  let s := { s with hub := { hub with
    launches := hub.launches ++ [l], nextLaunch := hub.nextLaunch + 1
    pending := hub.pending.map fun (e : PendingLaunch) => if l.ticket = some (e.ticket, e.die, e.cl) then { e with taken := true } else e } }
  match l.queue with
  | some q => s.modQueue q fun q => { q with head := q.head + 1 }
  | none => s

/-- A launch completed without a region: 0x40 refused, 0x41 infeasible; a refused head record stops its queue with
HEAD where it stands, and a pending-launch entry is freed (R324, R326, R330). -/
def State.turnAway (s : State) (l : Launch) (status extra : Nat) : State :=
  let s := (s.completeLaunch l.ctx l.recd status 0 0 extra).freeEntry l.ticket
  match l.queue with
  | none => s
  | some q => if status = 0x40 then s.modQueue q fun q => { q with faulted := true } else s

/-- Whether a region may be killed to make room: its launch set IDEM (R328, R347). -/
def Region.idem (r : Region) : Bool := bit (fieldN r.recd 2 1) 0

/-- Whether a region is on its way off the chip: its save is under way, or a kill waits for its blocks. -/
def Region.leaving (r : Region) : Bool := r.saving || r.dying.isSome

/-- A region pre-empted: saved, or, when idempotent, killed, after the blocks that it has issued, or saved as the queue
engine likes; a killed one is relaunched (R54, R328, R329). One that is already on its way is pre-empted once. -/
def State.preempt (s : State) (rid : Nat) : State :=
  match s.region rid with
  | none => s
  | some r =>
    if r.leaving || !r.state.live then s
    else if r.idem && Config.pick s.free (512 + rid) % 2 == 0 then
      let s := s.modRegion rid fun r => { r with again := true }
      let s := { s with hub := { s.hub with launches := s.hub.launches.map fun (l : Launch) =>
        if l.num = r.launch then { l with placed := false } else l } }
      s.killAfter rid none
    else s.modRegion rid fun r => { r with saving := true }

/-- The running regions that a record at a level may pre-empt, the lowest level first and then the longest running
(R328). -/
def State.victims (s : State) (prio : Nat) : List Region :=
  sortBy (fun a b => decide (a.prio < b.prio) || (a.prio == b.prio && decide (b.ran ≤ a.ran)))
    (s.kern.filter fun r => r.state.live && !r.leaving && decide (r.prio + 8 ≤ prio))

/-- The fewest victims, in order, whose leaving makes room for a test. -/
def fewest (fits : List Nat → Bool) (vs : List Nat) : Option (List Nat) :=
  ((List.range (vs.length + 1)).map fun n => vs.take n).find? fits

/-- Room made for a waiter: nothing more where the regions already on their way leave room enough, else the fewest
victims pre-empted; none where it cannot be made. -/
def State.makeRoom (s : State) (prio : Nat) (fits : List Nat → Bool) : Option State :=
  let off := (s.kern.filter fun r => r.state.onChip && r.leaving).map (·.rid)
  (fewest (fun vs => fits (off ++ vs)) ((s.victims prio).map (·.rid))).map fun vs =>
    vs.foldl (fun s v => s.preempt v) { s with free := s.free + 1 }

/-- The dies on which a killed region may be launched again: none that holds another region of its launch, and the DIE
copies keep the order of their dies (R310, R329). -/
def State.againDies (s : State) (r : Region) : List (Fin 4) :=
  (List.finRange 4).filter fun d => (s.kern.filter fun k => k.launch == r.launch && k.state != .killed && k.rid != r.rid).all
    fun k => k.die != d && decide (k.die.val < d.val) == decide (k.dieIdx < r.dieIdx)

/-- A killed region launched again, from the record and the streams that were checked when it was taken (R329). -/
def State.relaunch (s : State) (r : Region) (d : Fin 4) (pl : List (Fin 16) × List ((Nat × Nat × Nat) × Nat)) : State :=
  match s.hub.launches.find? (·.num == r.launch) with
  | none => s
  | some l =>
    let s := s.modRegion r.rid fun r => { r with again := false }
    let more := s.kern.any fun k => k.launch == r.launch && k.again
    let s := { s with hub := { s.hub with launches := s.hub.launches.map fun (k : Launch) =>
      if k.num = l.num then { k with placed := !more } else k } }
    s.makeRegions l r.devs r.streams r.handles [(r.dieIdx, d, pl)]

/-- What the engine does with one waiter, and whether that was its turn: `none` where it keeps its turn and cannot
pre-empt, so that others may be served past it. -/
def State.serve (s : State) (w : Waiter) : Option (State × Bool) :=
  match w.cand with
  | .saved rid =>
    (match s.region rid with
     | none => none
     | some r =>
       let fits (gone : List Nat) : Bool :=
         (s.place gone (s.ctx r.ctx).part r.die (kernelNodes r.streams)).isSome
           && s.islandsAllowed gone r.ctx (unitsOf (kernelNodes r.streams)).length
       if fits [] then
         some ((s.modRegion rid fun r => { r with restore := true }).dropBoost r.ctx r.recd [r.die], true)
       else (s.makeRoom w.prio fits).map (·, false))
  | .again rid =>
    (match s.region rid, (s.region rid).bind fun r => s.hub.launches.find? (·.num == r.launch) with
     | some r, some l =>
       let nodes := kernelNodes r.streams
       let ds := (s.againDies r).filter fun d => s.feasible l r.streams r.handles d
       let spot (gone : List Nat) : Option (Fin 4 × (List (Fin 16) × List ((Nat × Nat × Nat) × Nat))) :=
         if s.islandsAllowed gone r.ctx (unitsOf nodes).length then
           (rotate ds (Config.pick s.free 99)).findSome? fun d => (s.place gone (s.ctx r.ctx).part d nodes).map (d, ·)
         else none
       if ds.isEmpty then
         some ((s.modRegion rid fun r => { r with again := false }).endLaunch r 0x41 0 0 0, true)
       else
         match spot [] with
         | some (d, pl) => some (s.relaunch r d pl, true)
         | none => (s.makeRoom w.prio fun gone => (spot gone).isSome).map (·, false)
     | _, _ => none)
  | _ =>
    match s.launchOf w with
    | none => none
    | some l =>
      if s.checkHeld l.ctx l.recd then none
      else match s.checkRecord l.ctx l.recd with
      | .refused extra => some (s.turnAway l 0x40 extra, true)
      | .marker => some ((s.enter l).settle, true)
      | .kernel streams hs =>
        if s.copiesOf l.ctx l.recd = 0 then
          some (((s.enter { l with done := true }).completeLaunch l.ctx l.recd 0 0 0 0).freeEntry l.ticket, true)
        else if (List.finRange 4).all (fun d => !s.feasible l streams hs d) then
          some ((s.enter { l with done := true }).turnAway l 0x41 0, true)
        else
          match s.placeAll [] l streams hs with
          | some pls =>
            some ((s.enter l).makeRegions l (s.readDevs l.ctx l.recd) streams hs (pls.zipIdx.map fun p => (p.2, p.1)), true)
          | none => (s.makeRoom w.prio fun gone => (s.placeAll gone l streams hs).isSome).map (·, false)

/-- QUEUE_RECORD_TAKE: the queue engine takes one candidate: the highest level first, lower ones only past a
candidate that can neither be placed nor pre-empt (R327, R328). -/
def execQueueRecordTake (s : State) : Out :=
  let s := s.settle
  .next ((s.considered.findSome? fun w => (s.serve w).map fun o =>
    let t := if o.2 then o.1.tookTurn w else o.1
    { t with free := t.free + 1 }).getD s)

/-! ### Time slices (R329) -/

/-- QUANT of a region in ticks (R325). -/
def Region.quant (r : Region) : Nat :=
  let q := fieldN r.recd 68 2
  (if q = 0 then 100 else q) * 120000

/-- QUANT_EXPIRY: a slice ends; while a record of equal or higher level waits unplaced the region is pre-empted, else
its slice starts again (R329). A region whose save is under way is pre-empted once. -/
def execQuantExpiry (s : State) : Out :=
  match s.arg with
  | .num rid =>
    match s.region rid with
    | none => .next s
    | some r =>
      if !r.state.live || decide (r.slice < r.quant) then .next s
      else
        let s := s.modRegion rid fun r => { r with slice := 0 }
        if s.waiters.any fun w => decide (r.prio ≤ w.prio) then .next { s.preempt rid with free := s.free + 1 }
        else .next s
  | _ => .next s

/-! ### Watchdogs (R331, R332) -/

/-- The watchdog's steps of a region's queue in ticks: T1, T1 + T2 and T1 + T2 + T3; none without a queue that has
one. -/
def State.dogSteps (s : State) (r : Region) : Option (Nat × Nat × Nat) :=
  match r.queue.bind s.queue with
  | none => none
  | some q =>
    let ms (v d : Nat) : Nat := (if v = 0 then d else v) * ticksPerMs
    if !q.wden then none
    else some (ms q.t1 100, ms q.t1 100 + ms q.t2 50, ms q.t1 100 + ms q.t2 50 + ms q.t3 10)

/-- WATCHDOG_SAVE_REQUEST: at T1 the watchdog requests a save (R332). -/
def execWatchdogSaveRequest (s : State) : Out :=
  match s.arg with
  | .num rid =>
    match s.region rid with
    | none => .next s
    | some r =>
      match s.dogSteps r with
      | none => .next s
      | some (t1, _, _) =>
        if !r.state.onChip || r.dogAsked || decide (r.dog < t1) then .next s
        else .next ((s.modRegion rid fun r => { r with saving := true, dogSave := true, dogAsked := true }).schedRecord r 4)
  | _ => .next s

/-- The gangs of a region whose cells stay held after a kill, with nothing in them (R332). -/
def State.cellsHeld (s : State) (rid : Nat) : List Gang :=
  (s.fab.gangs.filter fun g => g.rid == rid && !g.seq.gaffer).map fun g => { g with strands := [], parked := [], done := true }

/-- WATCHDOG_KILL: at T1 + T2 the fault WATCHDOG is delivered and the region is killed, a save in progress abandoned;
its cells stay held until the fence (R332, R347). -/
def execWatchdogKill (s : State) : Out :=
  match s.arg with
  | .num rid =>
    match s.region rid with
    | none => .next s
    | some r =>
      match s.dogSteps r with
      | none => .next s
      | some (_, t2, _) =>
        if !r.state.onChip || decide (r.dog < t2) then .next s
        else
          let held := s.cellsHeld rid
          let s := s.schedRecord r 4
          let s := (s.deliver rid r.ctx r.loader { code := .watchdog }).killRegion rid (some 0x10)
          .next { s with fab := { s.fab with gangs := s.fab.gangs ++ held } }
  | _ => .next s

/-- WATCHDOG_FENCE: at T1 + T2 + T3 the region's gangs are fenced until a partition reset (R332). -/
def execWatchdogFence (s : State) : Out :=
  match s.arg with
  | .num rid =>
    match s.region rid with
    | none => .next s
    | some r =>
      match s.dogSteps r with
      | none => .next s
      | some (_, _, t3) =>
        if r.state != .killed || decide (r.dog < t3) then .next s
        else
          let s := s.schedRecord r 4
          .next { s with fab := { s.fab with gangs := s.fab.gangs.map fun (g : Gang) =>
            if g.rid == rid then { g with fenced := true } else g } }
  | _ => .next s

end Sys2Proof.Machine
end

