-- ==== Sys2Proof/Machine/Context.lean ====
section
/-!
DEFINITION. Contexts and partitions (R337-R341), the host's tables (R323, R337, R340, R371, R415), waiting fault
records (R343), and resume, save, kill and restore of a region (R344-R348).
-/
namespace Sys2Proof.Machine

/-! ### Host tables -/

/-- The fields of a queue descriptor written by the host (R323): CTRL's ENABLE, HEAD and TAIL have events of their
own. -/
def Queue.descriptor (q : Queue) (b : List Byte) : Queue :=
  { q with
    base := BitVec.ofNat 64 (fieldN b 0 8), size := fieldN b 8 1, prio := fieldN b 9 1
    ctx := BitVec.ofNat 12 (fieldN b 10 2), part := BitVec.ofNat 5 (fieldN b 12 1), wden := bit (fieldN b 13 1) 1
    t1 := fieldN b 24 2, t2 := fieldN b 26 2, t3 := fieldN b 28 2, rto := fieldN b 30 2
    bad := bits (fieldN b 10 2) 15 12 != 0 || decide (31 < fieldN b 12 1) || bits (fieldN b 13 1) 7 2 != 0
      || fieldN b 14 2 != 0 || (b.drop 32).any (· != 0) || fieldN b 0 8 % 128 != 0 }

/-- A context descriptor (R337); FQTAIL is the device's. DEDUCED: a field outside its stated range or alignment is
refused at open as a reserved byte is. -/
def Ctx.descriptor (c : Ctx) (b : List Byte) : Ctx :=
  let fl := fieldN b 18 1
  { c with
    ptroot := BitVec.ofNat 64 (fieldN b 0 8), fqbase := BitVec.ofNat 64 (fieldN b 8 8), fqsize := fieldN b 16 1
    part := BitVec.ofNat 5 (fieldN b 17 1), maint := bit fl 0, priv := bit fl 1, fie := bit fl 2
    fiv := BitVec.ofNat 8 (fieldN b 19 1), fsave := fieldN b 20 4, fatal := BitVec.ofNat 32 (fieldN b 24 4)
    maxisl := fieldN b 28 2, maxq := fieldN b 30 2, carea := BitVec.ofNat 64 (fieldN b 32 8)
    casize := BitVec.ofNat 64 (fieldN b 40 8), fqhead := BitVec.ofNat 64 (fieldN b 48 8)
    bad := bits fl 7 3 != 0 || decide (31 < fieldN b 17 1) || decide (fieldN b 16 1 < 4) || decide (16 < fieldN b 16 1)
      || fieldN b 28 2 == 0 || decide (256 < fieldN b 28 2) || fieldN b 30 2 == 0 || decide (2048 < fieldN b 30 2)
      || fieldN b 0 8 % 8192 != 0 || fieldN b 8 8 % 64 != 0 || fieldN b 32 8 % 4096 != 0 }

/-- The writable fields of an interrupt vector (R340). -/
def IntVec.write (v : IntVec) (b : BitVec 128) : IntVec :=
  { v with
    node := b.extractLsb' 100 20, addr := b.extractLsb' 44 56, cnt := b.extractLsb' 36 8
    time := b.extractLsb' 20 16, en := b.getLsbD 0 }

/-- Whether an id is an island sensor (R408). -/
def islandSensor (id : Nat) : Bool := decide (id < 0x100) || decide (0x200 ≤ id ∧ id < 0x340)

/-- Whether an id is a sensor (R408). -/
def isSensor (id : Nat) : Bool :=
  islandSensor id || decide (0x100 ≤ id ∧ id < 0x105) || decide (0x108 ≤ id ∧ id < 0x10c)
    || decide (0x110 ≤ id ∧ id < 0x118)

/-- A subscription entry as the host writes it (R415): one that breaks a rule stays disabled. DEDUCED: so does one
whose id is no sensor or whose ADDR is not aligned; an entry is armed when it is enabled. -/
def subscriptionOf (p : BitVec 5) (k : BitVec 6) (b : List Byte) : Subscription :=
  let id := fieldN b 0 2
  let ctl := fieldN b 6 1
  let bad := !isSensor id || (p != 0 && islandSensor id) || bits ctl 7 3 != 0 || (b.drop 16).any (· != 0)
    || fieldN b 8 8 % 8 != 0
  { part := p, num := k, sensor := BitVec.ofNat 12 id, value := BitVec.ofNat 16 (fieldN b 2 2)
    hyst := BitVec.ofNat 16 (fieldN b 4 2), en := bit ctl 0 && !bad, falling := bit ctl 1, int := bit ctl 2
    ivec := BitVec.ofNat 8 (fieldN b 7 1), addr := BitVec.ofNat 64 (fieldN b 8 8), armed := bit ctl 0 && !bad }

/-- HOST_TABLE_WRITE: a context descriptor is written only while the context is CLOSED (R337); a vector that becomes
enabled sends what it has counted (R340). -/
def execHostTableWrite (s : State) : Out :=
  match s.arg with
  | .table w =>
    match w with
    | .queueDesc n b =>
      let q := (s.queueAt n).descriptor b
      .next { s with hub := { s.hub with queues := q :: s.hub.queues.filter (·.num != n) } }
    | .ctxDesc c b =>
      let d := s.ctx c
      if d.state = .closed then .next (s.setCtx (d.descriptor b)) else .next s
    | .fqHead c h => .next (s.setCtx { s.ctx c with fqhead := h })
    | .vector p n b =>
      let old := s.vector p n
      let v := old.write b
      if v.en && !old.en && v.pend != 0 then .next (s.deliverVector v) else .next (s.tryVector v)
    | .window k d base c =>
      .next { s with hub := { s.hub with windows := ⟨k, d, base, c⟩ :: s.hub.windows.filter (·.num != k) } }
    | .subscription p k b =>
      .next { s with hub := { s.hub with
        subs := subscriptionOf p k b :: s.hub.subs.filter fun e => !(e.part == p && e.num == k) } }
    | .partition p sh iso =>
      .next { s with hub := { s.hub with
        parts := ⟨p, sh.getD 0 0, sh.getD 1 0, sh.getD 2 0, sh.getD 3 0, iso⟩ :: s.hub.parts.filter (·.num != p) } }
  | _ => .next s

/-- INTERRUPT_TIME_EXPIRY: the oldest pending event of a vector is TIME µs old (R340). -/
def execInterruptTimeExpiry (s : State) : Out :=
  match s.arg with
  | .vector p n =>
    let v := s.vector p n
    if v.en && v.pend != 0 && v.time != 0 && decide (v.oldest + v.time.toNat * 1200 ≤ s.tick) then .next (s.deliverVector v)
    else .next s
  | _ => .next s

/-! ### Waiting fault records (R343) -/

/-- FAULT_RECORD_WRITE: the first record of an earlier tick that waits for room in a context's fault queue is written;
those of the tick itself are written as it ends, in the unit order (R343). -/
def execFaultRecordWrite (s : State) : Out :=
  match s.arg with
  | .ctx c =>
    match s.nextFault c with
    | some (_, w) => if w.tick < s.tick then .next (s.writeFault c) else .next s
    | none => .next s
  | _ => .next s

/-! ### Opening and closing contexts (R337, R338) -/

/-- CONTEXT_OPEN: the descriptor is checked and the context opens (R337, R338). MAINT and PRIV belong to partition 0
alone. Contexts open only once the firmware has reported the part ready and only in a life-cycle state that runs
them (R421, R423). -/
def execContextOpen (s : State) : Out :=
  match s.arg with
  | .ctx c =>
    let d := s.ctx c
    let life := s.hub.boot.life
    if d.state ≠ .closed ∨ d.bad ∨ ((d.maint || d.priv) && d.part != 0) ∨ s.hub.boot.status ≠ 3
        ∨ (life ≠ .deployed ∧ life ≠ .diagnostic) then .next s
    else .next ((s.setCtx { d with state := .open_, hand := 0 }).takeTables c 0 (2 ^ 56))
  | _ => .next s

/-- Every region of a context killed with a status (R338, R347). -/
def State.killAll (s : State) (c : BitVec 12) (status : Nat) : State :=
  ((s.kern.filter fun r => r.ctx == c).map (·.rid)).foldl (fun s rid => s.killRegion rid (some status)) s

/-- A context taken to TEARDOWN: its regions killed, and what waits of it for the queue engine dropped, a launch that
was to be relaunched completed as killed (R338, R347, R324). -/
def State.tearDown (s : State) (c : BitVec 12) : State :=
  let s := s.killAll c 0x43
  let back := s.hub.launches.filter fun l => l.ctx == c && !l.done
  let s := { s with hub := { s.hub with
    launches := s.hub.launches.map fun (l : Launch) => if l.ctx == c then { l with done := true } else l
    pending := s.hub.pending.filter fun e => e.ctx != c } }
  let s := back.foldl (fun s l => if l.placed then s else s.completeLaunch c l.recd 0x43 0 0 0) s
  let s := { s with kern := s.kern.map fun (r : Region) => if r.ctx == c then { r with again := false } else r }
  s.setCtx { s.ctx c with state := .teardown }

/-- CONTEXT_CLOSE: the host writes CLOSE (R338). -/
def execContextClose (s : State) : Out :=
  match s.arg with
  | .ctx c =>
    if (s.ctx c).state ≠ .open_ then .next s
    else
      let s := { s with hub := { s.hub with queues := s.hub.queues.map fun (q : Queue) =>
        if q.ctx == c then { q with enable := false, faulted := false } else q } }
      .next (s.tearDown c)
  | _ => .next s

/-! ### Pages of a context (R338, R341, R359) -/

/-- A mapped page: its address, log2 of its size, its leaf, and the leaf's physical address. -/
structure Page where
  va    : Nat
  shift : Nat
  leaf  : Word
  entry : Nat
  deriving DecidableEq, Repr, Inhabited

/-- The leaves under a table, in ascending address, through entries as `entry` reads them (R355-R357). -/
def pagesFrom (entry : Nat → Word) : List (Nat × Nat) → Nat → Nat → List Page
  | [], _, _ => []
  | (level, shift) :: rest, table, va =>
    (List.range 1024).flatMap fun k =>
      let pa := table + 8 * k
      let e := entry pa
      let n := e.toNat
      let at_ := va + k * 2 ^ shift
      if !bit n 0 then []
      else if bit n 1 then if leafBad level shift e then [] else [⟨at_, shift, e, pa⟩]
      else if level == 3 || bits n 63 52 != 0 || bits n 12 2 != 0 then []
      else pagesFrom entry rest (bits n 51 13 * 8192) at_

/-- The leaves of a context's tables as they stand, and as translation reads any span of them. -/
def State.leaves (s : State) (c : BitVec 12) : List Page :=
  (s.ptEntry :: (s.tableViews c).map s.ptEntryBefore).flatMap fun f =>
    pagesFrom f [(0, 46), (1, 36), (2, 26), (3, 16)] (s.ctx c).ptroot.toNat 0

/-- The pages of a context as translation has them, in ascending address, with ACC and DIRTY as they stand. -/
def State.pages (s : State) (c : BitVec 12) : List Page :=
  let vas := sortBy (fun a b => decide (a ≤ b)) ((s.leaves c).map (·.va)).eraseDups
  (vas.filterMap fun va =>
    let w := s.lookup c va
    let marks := (s.ptEntry w.entry).toNat / 64 % 4 * 64
    if w.state.toNat == 0 || w.state.toNat == 6 then none
    else some (⟨va / 2 ^ w.shift * 2 ^ w.shift, w.shift,
      BitVec.ofNat 64 (w.leaf.toNat - w.leaf.toNat / 64 % 4 * 64 + marks), w.entry⟩ : Page)).eraseDups

/-- The state of a page (R356). -/
def Page.state (p : Page) : Nat := bits p.leaf.toNat 63 61

/-- The first home of a page's frame and how many bytes it has. -/
def Page.frame (p : Page) : Nat × Nat := (leafHome ⟨0, 0, p.leaf, 0, p.shift⟩ 0, 2 ^ p.shift)

/-- The bytes of listed frames gone: they read zero, and nothing remembers what was stored there. -/
def State.wipe (s : State) (l : List (Nat × Nat)) : State :=
  let hit (a : Nat) : Bool := l.any fun f => decide (f.1 ≤ a) && decide (a < f.1 + f.2)
  { s with mem := { s.mem with
      cells := s.mem.cells.filter fun c => !hit c.1
      hist := s.mem.hist.filter fun v => !hit v.addr } }

/-- Every page of a context wiped where it lies in the package, its errors with it, and its translations dropped. -/
def State.wipeCtx (s : State) (c : BitVec 12) : State :=
  let l := (((s.leaves c).map Page.frame).filter fun f => !isFabHome f.1).eraseDups
  let s := s.wipe l
  { s with
    mem := { s.mem with bad := s.mem.bad.filter fun k => !l.any fun f => decide (f.1 ≤ 64 * k) && decide (64 * k < f.1 + f.2) }
    hub := { s.hub with pages := { s.hub.pages with
      since := s.hub.pages.since.filter (·.1 != c), tlb := s.hub.pages.tlb.filter (·.ctx != c)
      walks := s.hub.pages.walks.filter (·.ctx != c) } } }

/-- CONTEXT_TEARDOWN_DONE: with every region KILLED, every remote store delivered or reported, and the publications
committed before the kill complete (R188), the context's pages are wiped and it is CLOSED (R338). -/
def execContextTeardownDone (s : State) : Out :=
  match s.arg with
  | .ctx c =>
    let d := s.ctx c
    if d.state ≠ .teardown ∨ (s.hub.xsts.any fun x => x.ctx == c) ∨ (s.mem.pubs.any fun p => p.ctx == c)
        ∨ (s.kern.any fun r => r.ctx == c && r.state != .killed && r.state != .retired) then .next s
    else .next ((s.wipeCtx c).setCtx { d with state := .closed })
  | _ => .next s

/-- PARTITION_RESET: the partition's queues are disabled and their waiting records dropped, its regions killed, what
the watchdog had fenced given back, and its pages wiped; its contexts enter TEARDOWN (R341, R324, R332). Its peers'
collectives fail at the peers. -/
def execPartitionReset (s : State) : Out :=
  match s.arg with
  | .part p =>
    let s := { s with hub := { s.hub with queues := s.hub.queues.map fun (q : Queue) =>
      if q.part == p then { q with enable := false, faulted := false, head := q.tail } else q } }
    let cs := (s.hub.ctxs.filter fun c => c.part == p && c.state == .open_).map (·.num)
    let s := cs.foldl (fun s c => (s.tearDown c).wipeCtx c) s
    let keep (g : Gang) : Bool := (s.region g.rid).elim true fun r => r.state != .killed || (s.ctx r.ctx).part != p
    .next { s with fab := { s.fab with gangs := s.fab.gangs.filter keep } }
  | _ => .next s

/-! ### Resume and kill (R344, R347) -/

/-- Gangs of a stage that are still CREATED, because their start had faulted, started again (R312). -/
def State.startCreated (s : State) (rid : Nat) : State :=
  match s.region rid with
  | none => s
  | some r =>
    ((cfgKind r.config .gang).filter fun el => !s.fab.gangs.any fun g => g.rid == rid && g.el == el && !g.seq.gaffer).foldl
      (fun s el => s.startGang r el) s

/-- REGION_RESUME: a frozen region whose fault records have all been written goes on (R343, R344). -/
def execRegionResume (s : State) : Out :=
  match s.arg with
  | .num rid =>
    match s.region rid with
    | none => .next s
    | some r =>
      if r.state ≠ .frozen ∨ !r.waiting.isEmpty then .next s
      else .next (((s.resumeRegion rid).startCreated rid).checkDraining rid)
  | _ => .next s

/-- REGION_KILL: the host's KILL; the status is the code of the fault that froze the region, or 0x42 (R347). -/
def execRegionKill (s : State) : Out :=
  match s.arg with
  | .num rid =>
    match s.region rid with
    | none => .next s
    | some r => .next (s.killAfter rid (some ((r.firstFault.map (·.num)).getD 0x42)))
  | _ => .next s

/-! ### Save (R345, R346) -/

/-- The spans of cluster store that a region's launch handed it: those of its CLUSTER handles, in each of its
clusters. -/
def Region.stores (r : Region) : List (Nat × Nat) :=
  r.cmap.flatMap fun c => r.handles.toList.filterMap fun h =>
    if h.v && h.space == 1 then some (homeCluster r.die c h.base.toNat, h.limit.toNat - h.base.toNat) else none

/-- The spans of cell memory of a region's gangs. -/
def State.cellSpans (s : State) (rid : Nat) : List (Nat × Nat) :=
  (s.fab.gangs.filter fun g => g.rid == rid && !g.seq.gaffer).map fun g =>
    (homeCell g.seq.isl (g.seq.base.val * 32768), g.cells * 32768)

/-- Whether an address lies in one of listed spans. -/
def inSpans (l : List (Nat × Nat)) (a : Nat) : Bool := l.any fun f => decide (f.1 ≤ a) && decide (a < f.1 + f.2)

/-- Whether everything that a save waits for is over (R345, R214, R220, R253, R265): issued blocks with the replies they
await, publications, every job but the ring-fed ones, whose slots are written whole, barrier events and records under
way, fault records that are not yet written, whose units stay frozen (R343), and a switch that is pending. -/
def State.saveReady (s : State) (r : Region) : Bool :=
  !r.pend && r.asks.isEmpty && r.waiting.isEmpty
    && !(s.fab.flights.any fun x => x.rid == r.rid) && !(s.mem.pubs.any fun p => p.rid == r.rid)
    && !(s.hub.remote.any fun q => q.rid == r.rid)
    && !(s.chan.msgs.any fun m => m.bar.rid == r.rid)
    && !(s.fab.pushes.any fun p => (r.islands 0).contains p.dest)
    && (s.chan.rings.all fun q => q.id.rid != r.rid || q.transit.isEmpty)
    && s.eng.jobs.all fun j => j.rid != r.rid || decide (j.req.kind = JobKind.copyRing)

/-- A ring as it is saved: every notice under way delivered into FREESEEN (R201). -/
def Ring.saveForm (q : Ring) : Ring := { q with freeseen := q.freeseen + q.notices.foldl (· + ·) 0, notices := [] }

/-- A matrix island's slots that a region holds, the others shown FREE (R229). -/
def State.ownSlots (s : State) (r : Region) (m : MatIsland) : MatIsland :=
  { m with slots := Vector.ofFn fun k =>
      let a := m.slots[k]
      let mine : Bool := match a.state with
        | .bound t _ => (s.gang t.seq).elim false fun g => g.rid == r.rid
        | .stream => (r.islands 1).contains m.isl
        | _ => false
      if mine then a else ⟨.free, [], 0⟩ }

/-- A gang whose strands keep what had reached them (R185): every completed store of an instance no wider than the die
that held them. -/
def State.keepStores (s : State) (g : Gang) : Gang :=
  { g with strands := g.strands.map fun st =>
      let me := Place.strand ⟨g.seq, st.num⟩
      { st with kept := (s.mem.hist.filter fun v =>
          st.kept.contains v.seq || (decide (v.scope.toNat < 4) && s.mem.done v.pub && reaches v.scope v.by_ me)).map (·.seq) } }

/-- What a save captures of a region (R346). -/
def State.captureArea (s : State) (r : Region) (at_ : Nat) (image : List Byte) : SaveArea where
  at_ := at_
  image := image
  gangs := (s.fab.gangs.filter (·.rid == r.rid)).map s.keepStores
  events := (r.islands 0).map s.events
  mats := (s.eng.mats.map (s.ownSlots r)).filter fun m =>
    m.slots.toList.any (fun a => a.state != .free) || (r.islands 1).contains m.isl
  rings := (s.chan.rings.filter (·.id.rid == r.rid)).map Ring.saveForm
  bars := s.chan.bars.filter (·.id.rid == r.rid)
  jobs := s.eng.jobs.filter (·.rid == r.rid)
  nodes := r.nodes
  cells := s.mem.cells.filter fun c => inSpans (s.cellSpans r.rid ++ r.stores) c.1

/-- The number of a kernel's state (R346). -/
def KState.num : KState → Nat
  | .loading => 0
  | .filling => 1
  | .steady => 2
  | .draining => 3
  | .retired => 4
  | .frozen => 5
  | .saved => 6
  | .killed => 7

/-- Bytes of a strand's part of a section (R346): its registers at their widths, its tiles and path-trace registers, its
loop state, handles, special registers, generators and phase buffer. -/
def Strand.areaBytes (t : Strand) : Nat :=
  let lanes := t.regs.gens.length
  64 * 8 + 16 * 16 + t.nvregs * (4 * lanes + lanes / 4 + 1) + t.ntiles * (16384 + 1024 + 1) + 4 * (8 + 128 * 36)
    + 24 * t.regs.loops.length + 16 * t.regs.lbuf.length + 16 * 32 + 16 * 8 + 4 * lanes + 9 * t.buf.length

/-- Bytes of the section of a region cluster (R346). -/
def State.sectionBytes (s : State) (r : Region) (rc : Nat) : Nat :=
  let sum (l : List Nat) : Nat := l.foldl (· + ·) 0
  let cl := r.cluster rc
  let gangs := s.fab.gangs.filter fun g => g.rid == r.rid && g.rc == rc
  let rings := s.chan.rings.filter fun q => q.id.rid == r.rid && q.id.rc.val == rc
  sum (gangs.map fun g => 32 + sum (g.strands.map Strand.areaBytes) + g.cells * 32768)
    + sum (((r.islands 0).filter (·.cluster == cl)).map fun i => 32 * (s.events i).recs.length)
    + sum (((r.islands 1).filter (·.cluster == cl)).map fun i =>
        65552 * ((s.mat i).slots.toList.filter fun a => a.state != .free).length)
    + sum (rings.map fun q => 64 + q.slots.length * (q.slotsz + 1))
    + 16 * (s.chan.bars.filter fun b => b.id.rid == r.rid && b.id.rc.val == rc).length
    + 256 * (s.eng.jobs.filter fun j => j.rid == r.rid && j.rc.val == rc).length
    + sum (r.handles.toList.map fun h => if h.v && h.space == 1 then h.limit.toNat - h.base.toNat else 0)
    + 128 * (r.replay.filter fun e => e.cl.val == rc).length

/-- Where the sections of a region's area begin, and its bytes in all. DESIGN CHOICE: R346 orders the parts of a section
and gives no layout of them; a section takes the bytes of its parts at their widths. -/
def State.areaLayout (s : State) (r : Region) : List Nat × Nat :=
  (List.range r.cmap.length).foldl (fun p rc => (p.1 ++ [p.2], p.2 + s.sectionBytes r rc)) ([], 4096)

/-- The header of a context area (R346). -/
def State.areaHeader (s : State) (r : Region) : List Byte :=
  let (offs, n) := s.areaLayout r
  padTo 4096 (leBytes 4 0x41524331 ++ leBytes 4 n ++ leBytes 8 s.tick ++ leBytes 1 r.state.num
    ++ leBytes 7 0 ++ leBytes 8 r.kstg ++ leBytes 8 (fieldN r.recd 8 8) ++ leBytes 8 r.rate ++ leBytes 8 r.dog
    ++ leBytes 8 0 ++ offs.flatMap (leBytes 8))

/-- The sections of a context area as a save writes them: which bytes hold what is not laid down, so that they are free. -/
def State.areaSections (s : State) (r : Region) : List Byte :=
  (List.range ((s.areaLayout r).2 - 4096)).map fun k => (Config.freeWord (s.free + 16 + k)).setWidth 8

/-- A place for an area of a size in a context's pool, at a multiple of 4 KiB that meets no other region's area; none
when the pool has none. -/
def State.areaPlace (s : State) (c : BitVec 12) (n : Nat) : Option Nat :=
  let d := s.ctx c
  let taken := s.kern.filterMap fun r => if r.ctx == c then r.area.map fun a => (a.at_, a.image.length) else none
  let open_ := ((List.range (d.casize.toNat / 4096)).map fun k => d.carea.toNat + 4096 * k).filter fun a =>
    decide (a + n ≤ d.carea.toNat + d.casize.toNat)
      && taken.all fun t => decide (a + n ≤ t.1) || decide (t.1 + t.2 ≤ a)
  open_[Config.pick s.free 11 % max 1 open_.length]?

/-- RING records of a region's rings: 3 saved, 4 restored (R391). -/
def State.ringRecords (s : State) (die : Fin 4) (qs : List Ring) (code : Nat) : State :=
  qs.foldl (fun s q => s.ringRecord q die code) s

/-- REGION_SAVE: a save is begun on a region that stands on the chip; once everything it waits for is over the region
is scanned into its area, the area's header is written last, its islands are given up and it is SAVED (R345, R346). It
returns to the state it had before any fault. While the pool has no room for the area, or its pages are not there, the
save goes on. -/
def execRegionSave (s : State) : Out :=
  match s.arg with
  | .num rid =>
    match s.region rid with
    | none => .next s
    | some r =>
      if !r.state.onChip then .next s
      else if !r.saving then .next (s.modRegion rid fun r => { r with saving := true })
      else if !s.saveReady r then .next s
      else
        let head := s.areaHeader r
        let body := s.areaSections r
        match s.areaPlace r.ctx (4096 + body.length) with
        | none => .next s
        | some a =>
          match (s.hubWrite r.ctx (a + 4096) body).bind fun t => t.hubWrite r.ctx a head with
          | none => .next s
          | some t =>
            let area := s.captureArea r a (head ++ body)
            let t := t.discardRegion rid
            let t := t.modRegion rid fun r =>
              { r with
                state := .saved, before := if r.state.live then r.state else r.before, area := some area
                saving := false, dogSave := false, service := none, solution := none, targets := [] }
            let t := t.ringRecords r.die area.rings 3
            .next ({ t with free := s.free + 16 + body.length }.schedRecord r 1)
  | _ => .next s

/-- PAGE_SERVICE_SAVE: the service of a page has taken longer than the context's FSAVE, and the region is saved
(R348, R337). -/
def execPageServiceSave (s : State) : Out :=
  match s.arg with
  | .num rid =>
    match s.region rid with
    | none => .next s
    | some r =>
      let us := if (s.ctx r.ctx).fsave = 0 then 500 else (s.ctx r.ctx).fsave
      match r.service with
      | some t =>
        if !r.state.live || r.saving || decide (s.tick < t + us * 1200) then .next s
        else .next (s.modRegion rid fun r => { r with saving := true })
      | none => .next s
  | _ => .next s

/-! ### Restore (R346) -/

/-- Where a restored region's parts stand: old and new clusters, fabric islands and accumulator slots. -/
structure Reloc where
  cls   : List (Fin 16 × Fin 16)
  fabs  : List (IslandId × IslandId)
  slots : List ((IslandId × Fin 4) × (IslandId × Fin 4))
  deriving DecidableEq, Repr, Inhabited

/-- A key's image in a list of pairs. -/
def imageIn {α : Type} [BEq α] (l : List (α × α)) (a : α) : α := ((l.find? (·.1 == a)).map (·.2)).getD a

/-- A cluster's image. -/
def Reloc.cl (m : Reloc) (c : Fin 16) : Fin 16 := imageIn m.cls c

/-- A fabric island's image. -/
def Reloc.isl (m : Reloc) (i : IslandId) : IslandId := imageIn m.fabs i

/-- A sequencer's image. -/
def Reloc.seq (m : Reloc) (q : Seq) : Seq := { q with isl := m.isl q.isl }

/-- A strand's image. -/
def Reloc.strand (m : Reloc) (t : StrandId) : StrandId := { t with seq := m.seq t.seq }

/-- The image of a home address: cluster store and cell memory move with their units. -/
def Reloc.home (m : Reloc) (h : Nat) : Nat :=
  if 2 ^ 61 ≤ h ∧ h < 2 ^ 62 then
    let u := (h - 2 ^ 61) / 2 ^ 24
    homeCluster ⟨u / 16 % 4, Nat.mod_lt _ (by decide)⟩ (m.cl ⟨u % 16, Nat.mod_lt _ (by decide)⟩) ((h - 2 ^ 61) % 2 ^ 24)
  else if isCellHome h then
    let u := (h - 2 ^ 62) / 2 ^ 21
    homeCell (m.isl ⟨⟨u / 64 % 4, Nat.mod_lt _ (by decide)⟩, ⟨u / 4 % 16, Nat.mod_lt _ (by decide)⟩,
      ⟨u % 4, Nat.mod_lt _ (by decide)⟩⟩) ((h - 2 ^ 62) % 2 ^ 21)
  else h

/-- An accumulator name's image: its slot may stand on any matrix island of its cluster (R346). -/
def Reloc.acc (m : Reloc) (die : Fin 4) (c : Fin 16) : AccName → AccName
  | .bound i k =>
    let (j, n) := imageIn m.slots (⟨die, c, i⟩, k)
    .bound j.island n
  | a => a

/-- A strand's image, on a cluster. -/
def Reloc.body (m : Reloc) (die : Fin 4) (c : Fin 16) (st : Strand) : Strand :=
  { st with
    regs := { st.regs with acc := st.regs.acc.map (m.acc die c) }
    buf := st.buf.map fun p => (m.home p.1, p.2), grans := st.grans.map fun p => (p.1, m.home (64 * p.2) / 64)
    floors := st.floors.map fun p => (m.home p.1, p.2) }

/-- A gang's image, its spilled registers not yet parked. -/
def Reloc.gang (m : Reloc) (g : Gang) : Gang :=
  { g with seq := m.seq g.seq, strands := g.strands.map (m.body g.seq.isl.die g.seq.isl.cluster), parked := [] }

/-- A footprint's image. -/
def Reloc.foot (m : Reloc) : Foot → Foot
  | .acc t c => .acc (m.strand t) c
  | .tile t n => .tile (m.strand t) n
  | .path t n => .path (m.strand t) n
  | f => f

/-- A job's image. -/
def Reloc.job (m : Reloc) (j : Job) : Job :=
  { j with
    owner := j.owner.map m.strand, cl := m.cl j.cl, reads := j.reads.map m.foot, writes := j.writes.map m.foot
    req := { j.req with recAt := j.req.recAt.map fun p => (m.home p.1, p.2) } }

/-- Slots of a saved matrix island that are to be restored, a stage's stream slots first. -/
def savedSlots (a : SaveArea) : List (IslandId × Fin 4 × AccSlot) :=
  let l := a.mats.flatMap fun m => (List.finRange 4).filterMap fun k =>
    if m.slots[k].state == .free then none else some (m.isl, k, m.slots[k])
  l.filter (fun p => p.2.2.state == .stream) ++ l.filter fun p => p.2.2.state != .stream

/-- Saved slots given a place: a stream's on its own island's image, any other on a free slot of its cluster; none
when one finds no place. -/
def State.placeSlots (s : State) (m : Reloc) (mats : List (IslandId × IslandId)) : List (IslandId × Fin 4 × AccSlot) →
    Option (State × List ((IslandId × Fin 4) × (IslandId × Fin 4)))
  | [] => some (s, [])
  | (i, k, a) :: rest =>
    let cl := m.cl i.cluster
    let four : List (Fin 4) := [0, 1, 2, 3]
    let cand : List (IslandId × Fin 4) :=
      if a.state == .stream then [(imageIn mats i, k)]
      else rotate (four.flatMap fun x => four.map fun y => ((⟨i.die, cl, x⟩ : IslandId), y)) (Config.pick s.free (200 + k.val))
    match cand.find? fun p => (s.slot p.1 p.2).state == .free with
    | none => none
    | some p =>
      let st := match a.state with | .bound t c => .bound (m.strand t) c | x => x
      ((s.setSlot p.1 p.2 { a with state := st }).placeSlots m mats rest).map fun o => (o.1, ((i, k), p) :: o.2)

/-- Gangs put back with their spilled registers parked anew (R83); none when a register finds no place. -/
def State.placeGangs (s : State) (r : Region) : List Gang → Option State
  | [] => some s
  | g :: rest =>
    match (if g.done then some [] else s.spillMap r g.seq.isl g.cells (g.strands.map fun t => (t.num, t.nvregs))) with
    | none => none
    | some l =>
      let s := { s with fab := { s.fab with gangs := s.fab.gangs ++ [{ g with parked := l }] } }
      (s.parkSlots g.seq.isl l).placeGangs r rest

/-- Ring-fed jobs given an engine anew; none when no engine is free. -/
def State.placeJobs (s : State) : List Job → Option State
  | [] => some s
  | j :: rest =>
    let e := if decide (j.req.kind = JobKind.copyRing) && j.node.isNone && j.underWay then
        if s.ringEngines j.die j.cl < 6 then s.freeEngine j.die j.cl else none
      else some j.engine
    match e with
    | none => none
    | some n => { s with eng := { s.eng with jobs := s.eng.jobs ++ [{ j with engine := n }] } }.placeJobs rest

/-- The replay log gone through in order: each live entry fills its slices from its source as it stands; none while a
source does not translate (R246). -/
def State.replayLog (s : State) (r : Region) : List ReplayEntry → Option State
  | [] => some s
  | e :: rest =>
    let cl := r.cluster e.cl.val
    let bytes := e.req.arg 4 * 16 * cpybWidth (e.req.arg 6) (e.req.arg 5)
    match s.jobHomes r.die cl r.ctx (e.req.arg 1) 1 (addrs (e.req.arg 0 % 2 ^ 56) bytes) with
    | .ok hs _ =>
      let bs := hs.map fun h =>
        if isFabHome h then Config.outsideByte (Config.pick s.free h) else s.mem.newest (.cluster r.die cl) h
      (s.fillB r.die cl e.req bs).replayLog r rest
    | _ => none

/-- A region's parts put back at a place, everything but its state; none when something does not fit yet. -/
def State.rebuild (s : State) (r old : Region) (a : SaveArea) : Option State :=
  let cls := old.cmap.zip r.cmap
  let pairs (ty : Nat) : List (IslandId × IslandId) := (old.islands ty).zip ((old.imap.filter fun p => p.1.2.1 == ty).map fun p =>
    (⟨r.die, r.cluster p.1.1, ⟨r.phys p.1.1 ty p.1.2.2 % 4, Nat.mod_lt _ (by decide)⟩⟩ : IslandId))
  let m0 : Reloc := ⟨cls, pairs 0, []⟩
  (s.placeSlots m0 (pairs 1) (savedSlots a)).bind fun o =>
    let s := o.1
    let m : Reloc := { m0 with slots := o.2 }
    let s := (pairs 1).foldl (fun s p =>
      s.setMat { s.mat p.2 with msflg := ((a.mats.find? (·.isl == p.1)).map (·.msflg)).getD 0 }) s
    let moved := a.cells.map fun c => (m.home c.1, c.2)
    let spans := ((a.gangs.filter fun g => !g.seq.gaffer).map fun g =>
      (homeCell (m.isl g.seq.isl) (g.seq.base.val * 32768), g.cells * 32768)) ++ r.stores
    let s := (s.wipe spans).poke moved
    let s := (a.events.map fun q => { q with isl := m.isl q.isl }).foldl (fun (s : State) q => s.setEvents q) s
    (s.placeGangs r (a.gangs.map m.gang)).bind fun s =>
      let rings := a.rings.map fun (q : Ring) =>
        { q with
          slots := q.slots.map fun t => { t with loop := t.loop.map fun l => (m.strand l.1, l.2) }
          prodEl := r.physEl (portOf (r.field (ringElem q.id) 1)).1
          consEl := r.physEl (portOf (r.field (ringElem q.id) 2)).1 }
      let s := { s with
        mem := { s.mem with hist := s.mem.hist.map fun (v : Ver) => match v.by_ with
          | .gone rid t => if rid == r.rid then { v with by_ := .strand (m.strand t) } else v
          | _ => v }
        chan := { s.chan with rings := s.chan.rings ++ rings, bars := s.chan.bars ++ a.bars }
        hub := { s.hub with xsts := s.hub.xsts.map fun (x : Xst) =>
          if x.rid == r.rid then { x with owner := m.strand x.owner } else x } }
      let back (j : Job) : Job := if j.state == .paused && s.there r.ctx j.pausedAt then
          { m.job j with state := if j.since = 0 then .waiting else .running }
        else m.job j
      (s.placeJobs (a.jobs.map back)).bind fun s =>
        (s.replayLog r r.replay).map fun s =>
          s.modRegion r.rid fun _ =>
            { r with nodes := a.nodes.map fun u =>
              { u with
                wrote := u.wrote.map fun c => (m.home c.1, c.2), stuck := u.stuck && !s.there r.ctx u.stuckAt } }

/-- REGION_RESTORE: a SAVED region that the queue engine has chosen is rebuilt on its die, at any clusters and
islands, and its clocks start at a frame boundary (R346). A boost that must be withdrawn is gone first (R14, R413).
Where it does not fit after all, or its area does not hold what the save wrote, it waits again. Gangs that had not been
started are started (R312). -/
def execRegionRestore (s : State) : Out :=
  match s.arg with
  | .num rid =>
    match s.region rid with
    | none => .next s
    | some old =>
      match old.area with
      | none => .next s
      | some a =>
        if old.state ≠ .saved ∨ !old.restore ∨ !(s.die old.die).boundary ∨ s.boostInWay old
            ∨ s.hubHeld old.ctx a.at_ a.image.length 1 then .next s
        else if s.hubRead old.ctx a.at_ a.image.length != a.image then
          .next (s.modRegion rid fun r => { r with restore := false })
        else
          let fail : Out := .next { s.modRegion rid fun r => { r with restore := false } with free := s.free + 1 }
          match s.place [] (s.ctx old.ctx).part old.die (kernelNodes old.streams) with
          | none => fail
          | some (cm, im) =>
            if !s.islandsAllowed [] old.ctx im.length then fail
            else
              let r : Region := { old with
                cmap := cm, imap := im, state := old.before, area := none, restore := false, service := none
                firstFault := none, faultAt := (0, 0), slice := 0 }
              match s.rebuild r old a with
              | none => fail
              | some s =>
                let s := (cfgKind r.config .memory).foldl (fun s el => s.fillExtent rid el) s
                let s := (s.resolve rid false).restartWindow rid
                let s := (s.ringRecords r.die a.rings 4).schedRecord r 3
                .next (({ s with free := s.free + 1 }.startCreated rid).checkDraining rid)
  | _ => .next s

end Sys2Proof.Machine
end

