-- ==== Sys2Proof/Machine/PageOps.lean ====
section
/-!
DEFINITION. The page unit's own steps (R357, R360, R361), the host's page commands (R364-R366, R368) and its writes
of the package's memory (R435).
-/
namespace Sys2Proof.Machine

/-! ### Walks (R357, R361) -/

/-- Streams of a context on a die that have yet to touch the page that a walk was for and whose table lacks it: they
take it up, and the next page that each lacks is walked (R360). -/
def State.refill (s : State) (die : Fin 4) (c : BitVec 12) (va : Nat) : State :=
  (s.kern.filter fun r => r.ctx == c && r.die == die && r.state.onChip).foldl (fun s r =>
    ((cfgKind r.config .memory).filter fun el =>
      let u := r.run el
      let it := u.iter.headD 0
      r.field el 1 == 0 && r.field el 4 == 0 && decide (u.extent.length < 64) && !u.extent.any (extentHit · va)
        && (List.range (r.streamLen el - it)).any fun k => r.streamAddr el (it + k) / 65536 == va / 65536).foldl
      (fun s el => (s.addExtent r.rid el va).fillAhead r.rid el) s) s

/-- Whether a walk has one of its die's 512 places: later ones wait for a free walk in arrival order (R361). -/
def State.walking (s : State) (w : Walk) : Bool :=
  decide ((s.hub.pages.walks.filter fun k => k.die == w.die && decide (k.num < w.num)).length < 512)

/-- PAGE_WALK_COMPLETE: a walk ends; a leaf that lets accesses pass is marked and held, and the streams that waited
for it go on (R357, R360, R361, R367). -/
def execPageWalkComplete (s : State) : Out :=
  match s.arg with
  | .num n =>
    match s.hub.pages.walks.find? (·.num == n) with
    | none => .next s
    | some w =>
      if !s.walking w then .next s
      else
        let s := { s with hub := { s.hub with pages := { s.hub.pages with
          walks := s.hub.pages.walks.filter (·.num != n) } } }
        let res := s.lookup w.ctx w.va.toNat
        let pass := res.state.toNat == 1 || res.state.toNat == 3
        let s := if pass then s.markPage w.die w.ctx res.entry w.va.toNat (w.write && leafGrants res.leaf 2) else s
        .next (s.refill w.die w.ctx w.va.toNat)
  | _ => .next s

/-! ### What holds translations of a range (R365) -/

/-- Whether two spans of addresses meet. -/
def meets (a n b m : Nat) : Bool := decide (a < b + m) && decide (b < a + n)

/-- Page size of an extent entry in bytes. -/
def extentSize (e : Nat × Word) : Nat := 2 ^ shiftOf (e.1 % 65536)

/-- First address of an extent entry. -/
def extentBase (e : Nat × Word) : Nat := e.1 / 65536 * 65536

/-- Every run of a context's nodes, those of saved regions included. -/
def State.runsOf (s : State) (c : BitVec 12) : List NodeRun :=
  (s.kern.filter (·.ctx == c)).flatMap fun r => r.nodes ++ r.area.elim [] (·.nodes)

/-- Whether a home lies in the frame of a page. -/
def Page.holds (p : Page) (h : Nat) : Bool := decide (p.frame.1 ≤ h) && decide (h < p.frame.1 + p.frame.2)

/-- Homes that an access at a commit point acts at. -/
def CommitAccess.homes : CommitAccess → List Nat
  | .atom h _ _ _ _ _ _ _ => [h]
  | .atomv ls _ _ _ => ls.map (·.2.1)
  | .launch h _ _ => [h]
  | .xld .. | .xatom .. => []

/-- Homes of accesses under way: stores and commit-point accesses of blocks in flight, publications in flight,
requests to other devices, and what nodes have written and not yet published. -/
def State.homesUnderWay (s : State) : List Nat :=
  ((s.x :: s.fab.flights).flatMap fun x => x.staged.map (·.1) ++ x.access.elim [] (·.homes))
    ++ (s.mem.pubs.flatMap fun p => p.cells.map (·.1)) ++ (s.hub.remote.flatMap fun q => q.acc.homes)
    ++ s.kern.flatMap fun r => (r.nodes ++ r.area.elim [] (·.nodes)).flatMap fun u => u.wrote.map (·.1)

/-- The virtual addresses of granules of GLOBAL that phase buffers of a context hold, those of saved regions included
(R188). -/
def State.buffered (s : State) (c : BitVec 12) : List Nat :=
  (s.kern.filter (·.ctx == c)).flatMap fun r =>
    ((s.fab.gangs.filter (·.rid == r.rid)) ++ r.area.elim [] (·.gangs)).flatMap fun g => g.strands.flatMap fun t =>
      t.grans.filterMap fun q => if q.1 < 2 ^ 60 then some (64 * q.1) else none

/-- Whether an INVAL of a range may complete (R365): every access by an old entry is over, and, where the new state
is MIGRATING, EVICTING or ABSENT, no phase buffer holds stores to it. -/
def State.invalReady (s : State) (c : BitVec 12) (lo n : Nat) : Bool :=
  let old := (s.pages c).filter fun p => meets p.va (2 ^ p.shift) lo n
  !(s.homesUnderWay.any fun h => old.any fun p => p.holds h)
    && (s.buffered c).all fun va =>
      let new := (s.walk c va).state.toNat
      !(decide (lo ≤ va) && decide (va < lo + n)) || !(new == 0 || new == 2 || new == 4)

/-! ### INVAL (R365, R366) -/

/-- A run after an INVAL of a range: its table patched, and going on where its page is there again (R359, R362). -/
def State.patchRun (s : State) (c : BitVec 12) (lo n : Nat) (u : NodeRun) : NodeRun :=
  { u with
    extent := u.extent.map fun e =>
      if meets (extentBase e) (extentSize e) lo n then extentOf (s.lookup c (extentBase e)) (extentBase e) else e
    stuck := u.stuck && !(decide (lo ≤ u.stuckAt) && decide (u.stuckAt < lo + n) && s.there c u.stuckAt)
    held := false }

/-- A job after an INVAL of a range: a paused one goes on where its page is there again (R363). -/
def State.patchJob (s : State) (c : BitVec 12) (lo n : Nat) (j : Job) : Job :=
  if j.ctx == c && j.state == .paused && decide (lo ≤ j.pausedAt) && decide (j.pausedAt < lo + n) && s.there c j.pausedAt then
    { j with state := if j.since = 0 then .waiting else .running }
  else { j with held := false }

/-- Data errors in frames of pages that were POISONED and are so no more: the host has replaced their data. DESIGN
CHOICE: the spec says of the page's state alone that it ends (R359). -/
def State.clearBad (s : State) (old : List Page) (c : BitVec 12) : State :=
  let gone := old.filter fun p => p.state == 5 && (s.lookup c p.va).state.toNat != 5
  { s with mem := { s.mem with bad := s.mem.bad.filter fun k => !gone.any fun p => p.holds (64 * k) } }

/-- The effect of an INVAL of a range on all four dies (R365, R366): the tables are taken as they stand, what the
package held of the old ones is dropped or patched, and what a page that was being moved held goes on. -/
def State.inval (s : State) (c : BitVec 12) (lo n : Nat) : State :=
  let old := (s.pages c).filter fun p => meets p.va (2 ^ p.shift) lo n
  let s := (s.takeTables c lo n).clearBad old c
  let pages := s.hub.pages
  let s := { s with
    hub := { s.hub with pages := { pages with
      tlb := pages.tlb.filter fun t => !(t.ctx == c && meets t.va.toNat (2 ^ shiftOf t.size) lo n)
      walks := pages.walks.filter fun w => !(w.ctx == c && decide (lo ≤ w.va.toNat) && decide (w.va.toNat < lo + n)) } }
    eng := { s.eng with jobs := s.eng.jobs.map (s.patchJob c lo n) } }
  (s.mapRuns c (s.patchRun c lo n)).hubResume

/-! ### The page-command queue (R364) -/

/-- A command's completion word (R364), written to the host node of the context's partition. -/
def State.pageDone (s : State) (p : PageCmd) (status count : Nat) : State :=
  s.send (Config.hostNode (s.ctx (p.ctx.setWidth 12)).part) p.done
    (leBytes 8 (1 + status * 256 + count * 2 ^ 32))

/-- Whether a command's record is refused, its COUNT and its address aside (R364). DEDUCED: an unaligned DONE is
refused as a reserved byte is. -/
def pageCmdBad (p : PageCmd) : Bool :=
  p.rsv != 0 || decide (2 < p.size.toNat) || decide (4096 ≤ p.ctx.toNat) || p.done.toNat % 8 != 0

/-- The command INVAL of one page: none while it may not complete, and until then nothing of it has happened. -/
def State.invalCmd (s : State) (p : PageCmd) : Option State :=
  let n := 2 ^ shiftOf p.size.toNat
  let lo := p.va.toNat
  let c := p.ctx.setWidth 12
  if pageCmdBad p || p.count != 0 || lo % n != 0 || decide (2 ^ 56 ≤ lo) then some (s.pageDone p 0x40 0)
  else if !s.invalReady c lo n then none
  else some ((s.inval c lo n).pageDone p 0 0)

/-- The command INVAL of every page of a context (R364, R365). -/
def State.invalAllCmd (s : State) (p : PageCmd) : Option State :=
  let c := p.ctx.setWidth 12
  if pageCmdBad p || p.count != 0 then some (s.pageDone p 0x40 0)
  else if !s.invalReady c 0 (2 ^ 56) then none
  else some ((s.inval c 0 (2 ^ 56)).pageDone p 0 0)

/-! ### EVICT (R368) -/

/-- Whether the evictor may choose a page: RESIDENT, with no stores buffered or under way, and no paused job. -/
def State.evictable (s : State) (c : BitVec 12) (p : Page) : Bool :=
  p.state == 1 && !(s.homesUnderWay.any p.holds)
    && !((s.buffered c).any fun va => decide (p.va ≤ va) && decide (va < p.va + 2 ^ p.shift))
    && !(s.eng.jobs.any fun j => j.ctx == c && j.state == .paused
          && decide (p.va ≤ j.pausedAt) && decide (j.pausedAt < p.va + 2 ^ p.shift))

/-- The lowest address that an open stream of a context has yet to touch (R360, R368). -/
def State.lowest (s : State) (c : BitVec 12) : Option Nat :=
  ((s.kern.filter fun r => r.ctx == c && r.state.onChip).flatMap fun r =>
    (cfgKind r.config .memory).filterMap fun el =>
      if r.field el 1 = 0 ∧ r.field el 4 = 0 then r.streamLow el else none).min?

/-- Whether an extent table holds part of a page. -/
def State.inExtent (s : State) (c : BitVec 12) (p : Page) : Bool :=
  (s.runsOf c).any fun u => u.extent.any fun e => meets (extentBase e) (extentSize e) p.va (2 ^ p.shift)

/-- The leaf of a page rewritten by the device (R359, R368). -/
def State.writeLeaf (s : State) (p : Page) (leaf : Nat) : State :=
  s.put (.die 0) 4 (cellsAt (homeHbm p.entry) (leBytes 8 leaf))

/-- The clock over pages in order: which are chosen, which have ACC cleared, and where the hand rests. -/
def clockGo : Nat → List Page → List Nat → List Page → Nat → List Page × List Nat × Nat
  | _, [], cleared, chosen, hand => (chosen, cleared, hand)
  | want, p :: rest, cleared, chosen, hand =>
    if want = 0 then (chosen, cleared, hand)
    else if chosen.any (·.va == p.va) then clockGo want rest cleared chosen hand
    else if bit p.leaf.toNat 7 && !cleared.contains p.va then
      clockGo want rest (p.va :: cleared) chosen (p.va + 2 ^ p.shift)
    else clockGo (want - 1) rest cleared (chosen ++ [p]) (p.va + 2 ^ p.shift)

/-- A chosen page made EVICTING, with the device's own INVAL and its record of kind 0x0303 (R359, R368). -/
def State.evictPage (s : State) (c : BitVec 12) (p : Page) : State :=
  let leaf := (s.ptEntry p.entry).toNat % 2 ^ 61 + 4 * 2 ^ 61
  let s := (s.writeLeaf p leaf).inval c p.va (2 ^ p.shift)
  s.hubFault c hubSource (leBytes 2 0x303 ++ leBytes 6 0 ++ leBytes 8 p.va ++ leBytes 1 ((p.shift - 16) / 10) ++ leBytes 47 0)

/-- The command EVICT: pages below every stream first, then by the clock, at most two revolutions of it (R368). -/
def State.evictCmd (s : State) (p : PageCmd) : State :=
  let c := p.ctx.setWidth 12
  let want := p.count.toNat
  if pageCmdBad p || want == 0 || decide (4096 < want) || p.va != 0 then s.pageDone p 0x40 0
  else
    let ps := (s.pages c).filter (s.evictable c)
    let first := match s.lowest c with
      | some w => (ps.filter fun q => decide (q.va + 2 ^ q.shift ≤ w)).take want
      | none => []
    let hand := (s.ctx c).hand.toNat
    let free := ps.filter fun q => !s.inExtent c q && !first.any (·.va == q.va)
    let round := free.filter (fun q => decide (hand ≤ q.va)) ++ free.filter fun q => decide (q.va < hand)
    let (chosen, cleared, hand) := clockGo (want - first.length) (round ++ round) [] [] hand
    let s := (free.filter fun q => cleared.contains q.va).foldl (fun s q =>
      s.writeLeaf q ((s.ptEntry q.entry).toNat - (if bit (s.ptEntry q.entry).toNat 7 then 128 else 0))) s
    let s := s.setCtx { s.ctx c with hand := BitVec.ofNat 56 hand }
    let all := first ++ chosen
    (all.foldl (fun s q => s.evictPage c q) s).pageDone p 0 all.length

/-! ### The commands in order (R364) -/

/-- The command at the head of the queue carried out; none while it may not complete. A record of another OP is
refused. -/
def State.pageHead (s : State) (p : PageCmd) : Option State :=
  match p.op.toNat with
  | 1 => s.invalCmd p
  | 2 => s.invalAllCmd p
  | 3 => some (s.evictCmd p)
  | _ => some (s.pageDone p 0x40 0)

/-- Commands carried out from the head of the queue on, as far as they may complete. -/
def State.servePages : Nat → State → State
  | 0, s => s
  | n + 1, s =>
    match s.hub.pages.cmds with
    | [] => s
    | p :: ps =>
      match s.pageHead p with
      | none => s
      | some t => State.servePages n { t with hub := { t.hub with pages := { t.hub.pages with cmds := ps } } }

/-- A record submitted to the page-command queue, and the queue served; without a record the queue alone is. -/
def State.submitPage (s : State) (p : Option PageCmd) : State :=
  let g := s.hub.pages
  let s := { s with hub := { s.hub with pages := { g with cmds := g.cmds ++ p.toList } } }
  s.servePages s.hub.pages.cmds.length

/-- INVAL_PAGE: a record of OP 0x01, or of an OP that is none of the three, is submitted; without a record the queue's
head, which had to wait, is carried out when R365 lets it. -/
def execInvalPage (s : State) : Out :=
  match s.arg with
  | .page p => if p.op = 2 ∨ p.op = 3 then .next s else .next (s.submitPage (some p))
  | .none => .next (s.submitPage none)
  | _ => .next s

/-- INVAL_CONTEXT: a record of OP 0x02 is submitted: every page of a context (R364, R365). -/
def execInvalContext (s : State) : Out :=
  match s.arg with
  | .page p => if p.op = 2 then .next (s.submitPage (some p)) else .next s
  | _ => .next s

/-- EVICT: a record of OP 0x03 is submitted (R368). -/
def execEvict (s : State) : Out :=
  match s.arg with
  | .page p => if p.op = 3 then .next (s.submitPage (some p)) else .next s
  | _ => .next s

/-! ### The host's reads and writes (R435, R159, R166) -/

/-- The home of a byte that the host names, a physical HBM address or a weight-store offset, none where no such byte
exists. -/
def hostHome (weight : Bool) (a : Nat) : Option Nat :=
  if !weight then (if a < hbmBytes then some (homeHbm a) else none)
  else if bits a 49 34 ≠ 0 ∨ 0x300000000 ≤ a % 2 ^ 34 ∨ 2 ^ 52 ≤ a then none
  else some (homeWeight ⟨a / 2 ^ 50 % 4, Nat.mod_lt _ (by decide)⟩ (a % 2 ^ 34))

/-- HOST_MEMORY_WRITE: a host write counts as a store published at .ssys when it arrives (R435). A host read of the
same addresses is answered over the fabric to the node that asks, at the address it names. -/
def execHostMemoryWrite (s : State) : Out :=
  match s.arg with
  | .host w =>
    let hs := (List.range w.bytes.length).map fun k => hostHome w.weight (w.addr.toNat + k)
    if hs.any (·.isNone) then .fault .noSuchAddress
    else .next (s.put .outside 5 ((hs.zip w.bytes).filterMap fun p => p.1.map fun h => (h, p.2)))
  | .hostRead node weight a n =>
    let hs := (List.range n).map fun k => hostHome weight (a.toNat + k)
    if hs.any (·.isNone) then .fault .noSuchAddress
    else .next (s.send node (a.setWidth 64) (hs.filterMap fun h => h.map (s.mem.newest .outside)))
  | _ => .next s

end Sys2Proof.Machine
end

