-- ==== Sys2Proof/Machine/LinkOps.lean ====
section
/-!
DEFINITION. The Fariq Link ports (R369) and the hub's error log (R418).
-/
namespace Sys2Proof.Machine

/-- A detected error written to the hub's log, which holds the newest 1,024 records, and counted on partition 0's
vector 0 (R418). -/
def State.logError (s : State) (class_ stage die place n at_ : Nat) (c : Option (BitVec 12)) : State :=
  let e := leBytes 2 0x400 ++ leBytes 1 class_ ++ leBytes 1 stage ++ leBytes 1 die ++ leBytes 1 place ++ leBytes 2 n
    ++ leBytes 8 at_ ++ leBytes 6 s.tick ++ leBytes 2 (c.elim 0xffff (·.toNat)) ++ leBytes 8 0
  let l := s.hub.errors ++ [e]
  { s with hub := { s.hub with errors := l.drop (l.length - 1024) } }.interrupt 0 0

/-- The number of a port's state, in the order of R369's table. -/
def PortState.num : PortState → Nat
  | .down => 0
  | .training => 1
  | .up => 2
  | .half => 3
  | .fenced => 4

/-- A port's state changed, with its LINK record (R391); writes that a ready port now reaches leave. -/
def State.setPort (s : State) (p : Fin 24) (st : PortState) : State :=
  let old := s.hub.ports[p].state
  let s := { s with hub := { s.hub with ports := s.hub.ports.set p ⟨st, 0⟩ } }
  let w := s.hub.unsent
  let s := { s with hub := { s.hub with unsent := [] } }.sendAll w
  s.record hubUnit none 10 st.num 15 (leBytes 1 p.val ++ leBytes 1 old.num)

/-- PORT_ENABLE: the host enables a port that is DOWN (R369). -/
def execPortEnable (s : State) : Out :=
  match s.arg with
  | .port p => if s.hub.ports[p].state = .down then .next (s.setPort p .training) else .next s
  | _ => .next s

/-- PORT_TRAINING_DONE: UP with all eight lanes, HALF with four to seven, else DOWN (R369). -/
def execPortTrainingDone (s : State) : Out :=
  match s.arg with
  | .portLanes p n =>
    if s.hub.ports[p].state ≠ .training then .next s
    else .next (s.setPort p (if n.val = 8 then .up else if 4 ≤ n.val then .half else .down))
  | _ => .next s

/-- PORT_FENCE: the flits in flight at a port are failed to their senders (R369). Which requests have a flit there is
free. -/
def State.fencePort (s : State) (p : Fin 24) : State :=
  let hit (n : Nat) : Bool := Config.pick s.free n % 2 == 1
  let qs := s.hub.remote.filter fun q => hit q.num
  let xs := s.hub.xsts.filter fun q => hit q.num
  let s := { s with free := s.free + 1, hub := { s.hub with xsts := s.hub.xsts.filter fun q => !hit q.num } }.setPort p .fenced
  let s := qs.foldl (fun s q => s.failRemote q) s
  xs.foldl (fun s q => s.failXst q) s

/-- FLIT_RECEIVE: a flit whose check fails is asked for again; when 8 retries of it have failed the port is FENCED
(R369, R418). -/
def execFlitReceive (s : State) : Out :=
  match s.arg with
  | .flit p ok =>
    let port := s.hub.ports[p]
    if port.state ≠ .up ∧ port.state ≠ .half then .next s
    else if ok then .next { s with hub := { s.hub with ports := s.hub.ports.set p { port with retries := 0 } } }
    else
      let n := port.retries + 1
      let s := { s with hub := { s.hub with ports := s.hub.ports.set p { port with retries := n } } }
      let s := s.logError 8 5 0xff p.val n 0 none
      if n ≤ 8 then .next s else .next (s.fencePort p)
  | _ => .next s

/-- PORT_RESET: the host resets a FENCED port (R369). -/
def execPortReset (s : State) : Out :=
  match s.arg with
  | .port p => if s.hub.ports[p].state = .fenced then .next (s.setPort p .training) else .next s
  | _ => .next s

end Sys2Proof.Machine
end

