-- ==== Sys2Proof/Machine/CapsuleOps.lean ====
section
/-!
DEFINITION. Resets (R420), the sealing of the crash capsule (R393, R395, R396, R399) and the debug stop (R400).
-/
namespace Sys2Proof.Machine

/-! ### Wiping (R420) -/

/-- Every memory and every table of the package wiped, with a capsule kept or empty. Fuses, the boot store, fenced
bank groups (R419), the global tick and what has left over the fabric stay; the part stands in ROM. -/
def State.wiped (s : State) (cap : Capsule) : State :=
  let hub := { Hub.reset with outbox := s.hub.outbox, boot := { s.hub.boot with status := 0 } }
  let dies := Vector.ofFn fun d => { Die.reset with fenced := s.clk.dies[d].fenced, wsTick := s.tick + 146 }
  { State.reset with
    hub := hub, tick := s.tick, free := s.free, clk := { State.reset.clk with dies := dies, since := s.tick }
    dbg := { Debug.reset with capsule := cap } }

/-- A warm reset applied: a SEALED capsule is spared, a RETRIEVED one is wiped (R399, R420). -/
def State.warmReset (s : State) : State :=
  s.wiped (if s.dbg.capsule.state = .sealed_ then s.dbg.capsule else Capsule.empty)

/-- COLD_RESET: power-on. What is fused, and the boot store, stay; everything else is as after reset, the fences of
the weight store and the capsule included (R419, R420). -/
def execColdReset (s : State) : Out :=
  .next { State.reset with hub := { Hub.reset with boot := { s.hub.boot with status := 0 } }, free := s.free }

/-- WARM_RESET: held while a capsule is FROZEN (R399, R420). -/
def execWarmReset (s : State) : Out :=
  if s.dbg.capsule.state = .frozen then .next { s with dbg := { s.dbg with resetHeld := true } } else .next s.warmReset

/-! ### The capsule (R393-R396, R399) -/

/-- RECORDER_HORIZON_STOP: a recorder that the freeze has reached stops once T + H has passed, and its records past
T + H are discarded (R393). -/
def execRecorderHorizonStop (s : State) : Out :=
  match s.arg with
  | .unit u =>
    let c := s.dbg.capsule
    if c.state ≠ .frozen ∨ s.tick ≤ c.t + c.h then .next s
    else
      .next { s with dbg := { s.dbg with recorders := s.dbg.recorders.map fun (r : Recorder) =>
        if r.unit == u && !r.stopped then
          { r with stopped := true, recs := r.recs.filter fun e => decide (recTick e ≤ c.t + c.h) }
        else r } }
  | _ => .next s

/-- Records in capsule order: tick, die with the hub last, cluster, unit, then the recorder's own order (R396). -/
def capsuleOrder (l : List (BitVec 256)) : List (BitVec 256) :=
  sortBy (fun a b =>
    decide (recTick a < recTick b) || (recTick a == recTick b && decide ((recUnit a).toNat ≤ (recUnit b).toNat))) l

/-- Bytes of the body of the carve-out (R396). -/
def bodyRoom : Nat := 64 * 1048576 - 512 * 1024

/-- Bytes that a record takes in the body: once in the device-wide section, and once in its context's. -/
def bodyBytes (r : BitVec 256) : Nat := if (recCtx r).isSome then 64 else 32

/-- The newest ticks, from the newest down, whose records fit into a number of bytes (R396). -/
def keepTicks (l : List (BitVec 256)) : Nat → List Nat → List Nat
  | _, [] => []
  | room, t :: ts =>
    let n := ((l.filter fun r => recTick r == t).map bodyBytes).foldl (· + ·) 0
    if room < n then [] else t :: keepTicks l (room - n) ts

/-- The sections of kept records: device-wide first, then one for each context that appears (R396, R397). -/
def State.sectionsOf (s : State) (l : List (BitVec 256)) : List Section :=
  let cs := sortBy (fun a b => decide (a.toNat ≤ b.toNat)) (l.filterMap recCtx).eraseDups
  ⟨0, 0, l.map recDevice, true⟩ :: cs.map fun c =>
    ⟨c, 1, l.filter fun r => recCtx r == some c, (s.ctx c).part == 0⟩

/-- CAPSULE_SEAL: once every recorder has stopped, the newest ticks that fit are kept, the index is signed while the
device has a key, the capsule is SEALED and the recorders restart empty; a reset that was held is then applied (R393,
R395, R396, R399). -/
def execCapsuleSeal (s : State) : Out :=
  let c := s.dbg.capsule
  if c.state ≠ .frozen ∨ s.tick ≤ c.t + max c.h 900 ∨ s.dbg.recorders.any (fun r => !r.stopped) then .next s
  else
    let all := capsuleOrder (s.dbg.recorders.flatMap (·.recs))
    let ts := keepTicks all bodyRoom ((all.map recTick).reverse.eraseDups)
    let kept := all.filter fun r => ts.contains (recTick r)
    let s := { s with dbg := { s.dbg with
      recorders := [], capsule := { c with tcut := ts.getLastD 0, sections := s.sectionsOf kept } } }
    let sig : List Byte := match s.hub.boot.life with
      | .provisioned | .deployed | .diagnostic => Config.signature s.capsDigest
      | _ => []
    let s := { s with dbg := { s.dbg with capsule := { s.dbg.capsule with state := .sealed_, signature := sig } } }
    if s.dbg.resetHeld then .next s.warmReset else .next s

/-! ### The debug stop (R400) -/

/-- Whether the tick of the armed stop is reached and the clocks still run (R400). -/
def State.stopDue (s : State) : Bool := !s.dbg.stopped && s.dbg.stop.any fun t => decide (t ≤ s.tick)

/-- Every clock domain of the package gated, after the faults of the tick are recorded (R350, R400). -/
def State.gateClocks (s : State) : State :=
  let s := s.endTick
  { s with dbg := { s.dbg with stopped := true, stop := some s.tick } }

/-- DEBUG_STOP: at the armed tick every clock domain of the package is gated (R400). -/
def execDebugStop (s : State) : Out := .next (if s.stopDue then s.gateClocks else s)

/-- DEBUG_RELEASE: the host writes the release; each die begins a frame, remote timeouts go on where they paused, and
the stop is disarmed (R400). DEDUCED: the weight store's refresh has gone on. -/
def execDebugRelease (s : State) : Out :=
  if !s.dbg.stopped then .next s
  else
    let gone := s.tick - s.dbg.stop.getD s.tick
    let fresh (d : Die) : Die :=
      let (t, bg) := d.nextWindow (s.tick - 1)
      { d with phase := 0, frame := d.frame + 1, rises := 0, wsTick := t
               wsBg := ⟨bg % 32, Nat.mod_lt _ (by decide)⟩, wsBusy := d.wsBusy.filter fun w => decide (s.tick < w.2) }
    .next { s with
      dbg := { s.dbg with stopped := false, stop := none }
      clk := { s.clk with dies := s.clk.dies.map fresh }
      kern := s.kern.map fun (r : Region) => { r with service := r.service.map (· + gone) }
      hub := { s.hub with
        remote := s.hub.remote.map fun (q : RemoteReq) => { q with since := q.since + gone }
        xsts := s.hub.xsts.map fun (q : Xst) => { q with since := q.since + gone } } }

end Sys2Proof.Machine
end

