-- ==== Sys2Proof/Machine/Power.lean ====
section
/-!
DEFINITION. Writes of special registers at a commit (R80), the weight store's refresh (R167), sensors, allowances,
power shares and boost (R408-R416), the vertical bus (R418, R419), the life cycle and the boot (R421-R424).
-/
namespace Sys2Proof.Machine

/-! ### Special registers written at a commit (R80, R98, R235, R392, R409) -/

/-- A write of a special register that the block at work has staged, made; it comes about inside the block's commit
alone, so that with no such write staged nothing happens. -/
def State.srEvent (s : State) (mine : Nat → Bool) : Out :=
  match s.arg with
  | .srWrite t num v =>
    let staged := s.x.fx.any fun f => match f with | .swr n w => n == num && w == v | _ => false
    if s.x.active && s.x.who == t && staged && mine num.toNat then .next (s.commitSr num v) else .next s
  | _ => .next s

/-- Whether a number is MSFLG's (R235). -/
def isMsflg (n : Nat) : Bool := decide (0x340 ≤ n ∧ n < 0x344)

/-- SPECIAL_REGISTER_WRITE: a register with no row of its own (R80, R352). -/
def execSpecialRegisterWrite (s : State) : Out :=
  s.srEvent fun n => n != 0x012 && !isMsflg n && n != 0x880 && n != 0x888

/-- SRSEED_WRITE: the generators of every lane seeded (R98). -/
def execSrseedWrite (s : State) : Out := s.srEvent (· == 0x012)

/-- MSFLG_CLEAR: ones written clear a matrix island's stream flags (R235). -/
def execMsflgClear (s : State) : Out := s.srEvent isMsflg

/-- RECCFG_WRITE (R392). -/
def execReccfgWrite (s : State) : Out := s.srEvent (· == 0x880)

/-- PWRCFG_WRITE (R409). -/
def execPwrcfgWrite (s : State) : Out := s.srEvent (· == 0x888)

/-! ### Refresh of the weight store (R167) -/

/-- The sensor of a die's weight-store layer (R408). -/
def layerSensor (d : Fin 4) : Nat := 0x108 + d.val

/-- WS_REFRESH_WINDOW_START: the next window of a die begins at its tick; from it on windows are spaced as the layer's
newest sample asks (R167). -/
def execWsRefreshWindowStart (s : State) : Out :=
  match s.arg with
  | .bank d bg =>
    let x := s.die d
    if s.tick < x.wsTick ∨ bg ≠ x.wsBg then .next s
    else
      let hot := decide ((0x5500 : Int) < (s.sensor (layerSensor d)).toInt)
      .next (s.modDie d fun x =>
        { x with
          hot := hot, wsTick := x.wsTick + (if hot then 73 else 146), wsBg := x.wsBg + 1
          wsBusy := x.wsBusy ++ [(bg, x.wsTick + 288)] })
  | _ => .next s

/-- WS_REFRESH_WINDOW_END: a window ends after 288 ticks (R167). -/
def execWsRefreshWindowEnd (s : State) : Out :=
  match s.arg with
  | .bank d bg =>
    .next (s.modDie d fun x => { x with wsBusy := x.wsBusy.filter fun w => !(w.1 == bg && decide (w.2 ≤ s.tick)) })
  | _ => .next s

/-! ### Samples (R408, R410, R416) -/

/-- The sensors of a die, in the order in which its readings stand: fabric, matrix and streamer islands, die power,
the weight-store layer, its two HBM stacks; die 0 brings the package power last (R408). -/
def dieSensors (d : Fin 4) : List Nat :=
  (List.range 64).map (fun k => d.val * 64 + k) ++ (List.range 64).map (fun k => 0x200 + d.val * 64 + k)
    ++ (List.range 16).map (fun k => 0x300 + d.val * 16 + k)
    ++ [0x100 + d.val, layerSensor d, 0x110 + 2 * d.val, 0x111 + 2 * d.val]
    ++ (if d.val = 0 then [0x104] else [])

/-- A reading as a number: temperatures are signed, powers are not (R408). -/
def reading (id : Nat) (v : BitVec 16) : Int := if 0x100 ≤ id ∧ id < 0x105 then (v.toNat : Int) else v.toInt

/-- The trip temperature in force (R409). -/
def State.ttrip (s : State) : Int := (s.hub.pwrcfg.extractLsb' 32 16).toInt

/-- The throttle temperature in force (R409). -/
def State.tlim (s : State) : Int := (s.hub.pwrcfg.extractLsb' 16 16).toInt

/-- THERMAL_TRIP: the first island of a die whose sample is at or above TTRIP takes the whole die's allowance to 0
(R410). -/
def State.thermalTrip (s : State) (d : Fin 4) : State :=
  match (dieKeys d).find? fun k => decide (s.ttrip ≤ (s.sensor (sensorOf k)).toInt) with
  | none => s
  | some k =>
    let s := (dieKeys d).foldl (fun s j => s.setIsland { s.island j with allow := 0, trip := true }) s
    s.powerRecord k 3 (s.sensor (sensorOf k)).toNat

/-- One threshold entry at a sample: it fires and disarms, or re-arms beyond its hysteresis (R416). -/
def State.threshold (s : State) (e : Subscription) : State :=
  let id := e.sensor.toNat
  let raw := s.sensor id
  let now := reading id raw
  let was := reading id (smGet 0 s.clk.before id)
  let v := reading id e.value
  let h : Int := e.hyst.toNat
  let same (x : Subscription) : Bool := x.part == e.part && x.num == e.num
  let set (s : State) (armed : Bool) : State :=
    { s with hub := { s.hub with subs := modFirst same (fun x => { x with armed := armed }) s.hub.subs } }
  let fires := e.armed && (if e.falling then decide (now ≤ v) && decide (v < was) else decide (v ≤ now) && decide (was < v))
  if fires then
    let word := id * 2 ^ 52 + raw.toNat * 2 ^ 36 + s.tick % 2 ^ 36
    let s := (set s false).send (Config.hostNode e.part) e.addr (leBytes 8 word)
    let s := s.record hubUnit none 11 4 15 (leBytes 8 id ++ leBytes 8 raw.toNat)
    if e.int then s.interrupt e.part e.ivec else s
  else if if e.falling then decide (v + h < now) else decide (now < v - h) then set s true
  else s

/-- SENSOR_SAMPLE: the sensors of a die take their readings at a multiple of 4,096 ticks, once (R408); what follows
from them is made at the same tick, the subscriptions once every die has sampled (R416). -/
def execSensorSample (s : State) : Out :=
  match s.arg with
  | .readings d vals =>
    let x := s.die d
    if s.tick % 4096 ≠ 0 ∨ x.sampled = s.tick + 1 then .next s
    else
      let new := (dieSensors d).zip (vals ++ List.replicate 150 0)
      let s := new.foldl (fun s p =>
        { s with clk := { s.clk with
          before := smSet 0 s.clk.before p.1 (s.sensor p.1), sensors := smSet 0 s.clk.sensors p.1 p.2 } }) s
      let n := if s.tick = 0 then 0 else (s.sensor (0x100 + d.val)).toNat
      let s := s.modDie d fun x => { x with sampled := s.tick + 1, powSum := x.powSum + n }
      let s := if d.val = 0 && s.tick != 0 then
        { s with clk := { s.clk with pkgSum := s.clk.pkgSum + (s.sensor 0x104).toNat } } else s
      let s := s.thermalTrip d
      if (List.finRange 4).any fun k => (s.die k).sampled != s.tick + 1 then .next s
      else
        let due := sortBy (fun a b => decide (a.num.toNat ≤ b.num.toNat)) (s.hub.subs.filter (·.en))
        .next (due.foldl State.threshold s)
  | _ => .next s

/-! ### Control windows (R410-R413) -/

/-- An island's allowance after a window (R410). -/
def nextAllow (tlim θ : Int) (a : Nat) : Nat :=
  if tlim ≤ θ then max 8 (a - 8)
  else if tlim - 0x500 ≤ θ then a
  else if a = 0 then 8 else min 64 (a + 8)

/-- A power cap after a window, from the mean power and the share (R412). -/
def nextCap (p share cap : Nat) : Nat :=
  if share < p then max 1 (cap - 4) else if 100 * p < 95 * share then min 64 (cap + 4) else cap

/-- ENVELOPE in force (R409). -/
def State.envelope (s : State) : Nat := s.hub.pwrcfg.toNat % 65536

/-- The allowances of a die's islands moved, with a POWER record for each that changes; whether any does (R410). -/
def State.moveAllow (s : State) (d : Fin 4) : State × Bool :=
  (dieKeys d).foldl (fun (acc : State × Bool) k =>
    let (s, any) := acc
    let i := s.island k
    let a := nextAllow s.tlim (s.sensor (sensorOf k)).toInt i.allow
    if a = i.allow then (s, any)
    else ((s.setIsland { i with allow := a, trip := i.trip && a == 0 }).powerRecord k 3 a, true)) (s, false)

/-- A die's share and cap moved by its mean power, and those of the partitions with a power share. What the device
measures of a partition's power the spec does not say: it is free (R412). -/
def State.movePower (s : State) (d : Fin 4) (total : Nat) : State × Bool :=
  let x := s.die d
  let p := x.powSum / 16
  let e := s.envelope
  let share := max (e / 8) (if total = 0 then 0 else e * p / total)
  let cap := nextCap p share x.pcap
  let caps := (s.hub.parts.filter fun q => q.power != 0).map fun q =>
    (q.num, nextCap (Config.pick s.free (1000 + 32 * d.val + q.num.toNat)) (share * q.power.toNat / 256) (x.partCap q.num))
  let changed := cap != x.pcap || caps.any fun c => c.2 != x.partCap c.1
  let s := s.modDie d fun x => { x with pcap := cap, share := share, meas := p, pcaps := caps, powSum := 0 }
  (if cap = x.pcap then s else s.record hubUnit none 11 3 15 (leBytes 8 (0x100 + d.val) ++ leBytes 8 cap), changed)

/-- Whether a die may be granted boost, the package's power aside (R413). -/
def State.boostOk (s : State) (d : Fin 4) : Bool :=
  s.kern.all fun r => r.die != d || !(r.state.holds || r.restore) || !(bit (fieldN r.recd 2 1) 2 || s.detCtx r.ctx)

/-- Whether an island of a die has tripped at this tick's sample (R410). -/
def State.tripsNow (s : State) (d : Fin 4) : Bool :=
  (dieKeys d).any fun k => decide (s.ttrip ≤ (s.sensor (sensorOf k)).toInt)

/-- BOOST_DECISION: withdrawn where the package has drawn too much, else granted to the first die that may have it
(R413). -/
def State.decideBoost (s : State) : State :=
  let sum := s.clk.pkgSum
  let e := s.envelope
  let want (d : Fin 4) (b : Bool) (s : State) : State := s.modDie d fun x => { x with want := b }
  let dies := List.finRange 4
  if 100 * sum > 105 * 16 * e then dies.foldl (fun s d => want d false s) s
  else if sum > 16 * e then
    match (dies.filter fun d => (s.die d).want).getLast? with
    | some d => want d false s
    | none => s
  else if 10 * sum ≤ 9 * 16 * e ∧ s.hub.pwrcfg.getLsbD 48 then
    match dies.find? fun d => !(s.die d).want && s.boostOk d with
    | some d => want d true s
    | none => s
  else s

/-- CONTROL_WINDOW: at a multiple of 65,536 ticks, after that tick's samples, the limits written come into force,
allowances (but those of a die that has tripped at this tick), shares and caps move, boost is decided, and the regions of dies whose caps have changed are re-solved
(R408-R413, R304). -/
def execControlWindow (s : State) : Out :=
  if s.tick = 0 ∨ s.tick % 65536 ≠ 0 ∨ s.clk.winAt = s.tick
      ∨ (List.finRange 4).any (fun d => (s.die d).sampled != s.tick + 1) then .next s
  else
    let tripped := (List.finRange 4).filter s.tripsNow
    let s := { s with hub := { s.hub with pwrcfg := s.hub.pwrnext }, clk := { s.clk with winAt := s.tick } }
    let total := ((List.finRange 4).map fun d => (s.die d).powSum / 16).foldl (· + ·) 0
    let (s, dies) := (List.finRange 4).foldl (fun (acc : State × List (Fin 4)) d =>
      let (s, a) := if tripped.contains d then (acc.1, false) else acc.1.moveAllow d
      let (s, b) := s.movePower d total
      (s, if a || b then d :: acc.2 else acc.2)) (s, [])
    let s := s.decideBoost
    let s := { s with clk := { s.clk with pkgSum := 0 }, free := s.free + 1 }
    .next (((s.kern.filter fun r => r.state.live && dies.contains r.die).map (·.rid)).foldl (fun s rid => s.resolve rid false) s)

/-! ### The vertical bus (R417-R419) -/

/-- BUS_BEAT_RETRY: a beat that fails parity is resent alone and logged; the fifth failed transfer fences its bank
group, whose reads fault POISON from then on, the access at hand included (R418, R419). -/
def execBusBeatRetry (s : State) : Out :=
  match s.arg with
  | .beat d off n c =>
    let bg : Fin 32 := ⟨off.toNat / 402653184 % 32, Nat.mod_lt _ (by decide)⟩
    if n.val = 0 ∨ 0x300000000 ≤ off.toNat then .next s
    else
      let s := s.logError (if n.val = 5 then 3 else 2) 1 d.val bg.val n.val off.toNat (some c)
      if n.val = 5 then
        .next (s.modDie d fun x => { x with fenced := if x.fenced.contains bg then x.fenced else bg :: x.fenced })
      else .next s
  | _ => .next s

/-! ### The life cycle (R420, R421) -/

/-- A change of the life-cycle state: its POWER record, whose code the spec does not give, then the wipe of a warm
reset with the capsule emptied (R399, R420, R421). -/
def State.changeLife (s : State) (l : Life) : State :=
  let s := s.record hubUnit none 11 ((Config.freeWord s.free).toNat % 256) 15 []
  let s := { s with free := s.free + 1 }.wiped Capsule.empty
  { s with hub := { s.hub with boot := { s.hub.boot with life := l } } }

/-- Whether an authorisation for a command (1 diagnostic, 2 decommission) is Vrelid's, for this device number
(R421). -/
def State.authorised (s : State) (cmd : Nat) (auth : List Byte) : Bool :=
  Config.verifies Config.firmwareKey (leBytes 1 cmd ++ leBytes 4 s.hub.boot.device.toNat) auth

/-- LIFECYCLE_PROVISION: the identity key is fused and its certificate stored (R421, R422). -/
def execLifecycleProvision (s : State) : Out :=
  match s.arg with
  | .provision key cert =>
    if s.hub.boot.life ≠ .manufacture ∨ key.length ≠ 32 ∨ 16256 < cert.length then .next s
    else
      let s := s.changeLife .provisioned
      .next { s with hub := { s.hub with boot := { s.hub.boot with pubkey := key, cert := cert } } }
  | _ => .next s

/-- LIFECYCLE_DIAGNOSTIC: a partition 0 command with a Vrelid-signed authorisation (R421). -/
def execLifecycleDiagnostic (s : State) : Out :=
  match s.arg with
  | .bytes a =>
    if s.hub.boot.life = .deployed ∧ s.authorised 1 a then .next (s.changeLife .diagnostic) else .next s
  | _ => .next s

/-- LIFECYCLE_REDEPLOY: a partition 0 command (R421). -/
def execLifecycleRedeploy (s : State) : Out :=
  if s.hub.boot.life = .diagnostic then .next (s.changeLife .deployed) else .next s

/-- LIFECYCLE_DECOMMISSION: a partition 0 command with a Vrelid-signed authorisation, from any state (R421). -/
def execLifecycleDecommission (s : State) : Out :=
  match s.arg with
  | .bytes a =>
    if s.hub.boot.life ≠ .decommissioned ∧ s.authorised 2 a then .next (s.changeLife .decommissioned) else .next s
  | _ => .next s

/-- The code of the key's state in the identity window (R422). -/
def Life.keyState : Life → Nat
  | .manufacture => 0
  | .decommissioned => 2
  | _ => 1

/-- The identity window as a host reads it, 16 KiB (R422): in MANUFACTURE nothing but its first four bytes. -/
def State.identityWindow (s : State) : List Byte :=
  let b := s.hub.boot
  padTo 16384 (leBytes 4 0x54494452 ++
    (if b.life = .manufacture then []
     else leBytes 1 b.life.keyState ++ leBytes 3 0 ++ leBytes 4 b.device.toNat ++ leBytes 4 b.cert.length
       ++ padTo 32 b.pubkey ++ padTo 80 [] ++ b.cert))

/-! ### Boot (R423, R424) -/

/-- Bytes of the boot store. -/
def State.bootBytes (s : State) (off n : Nat) : List Byte := smRead 0 s.hub.boot.store off n

/-- Whether the loader accepts the firmware image (R423). DEDUCED: an SVN above 63 is no SVN. -/
def State.imageOk (s : State) : Bool :=
  let h := s.bootBytes 0 64
  let body := s.bootBytes (64 + 17088) (fieldN h 16 8)
  fieldN h 0 4 == 0x57465250 && fieldN h 12 4 == 0 && fieldN h 56 8 == 0
    && decide (fieldN h 8 4 ≤ 63) && decide (s.hub.boot.minSvn ≤ fieldN h 8 4)
    && Config.verifies Config.firmwareKey (sha256 (h.take 56)) (s.bootBytes 64 17088)
    && (h.drop 24).take 32 == sha256 body

/-- ROM_BOOT: the loader verifies the image; an accepted one moves PROVISIONED to DEPLOYED, raises the fused minimum
in DEPLOYED, wipes, and leaves the part ready for contexts; any other leaves it in recovery (R421, R423, R424). -/
def execRomBoot (s : State) : Out :=
  let b := s.hub.boot
  if b.status = 2 ∨ b.status = 3 then .next s
  else if !s.imageOk then .next { s with hub := { s.hub with boot := { b with status := 1 } } }
  else
    let svn := fieldN (s.bootBytes 0 64) 8 4
    let s := if b.life = .provisioned then s.changeLife .deployed else s.warmReset
    let b := s.hub.boot
    let b := if b.life = .deployed then { b with minSvn := max b.minSvn svn } else b
    .next { s with hub := { s.hub with boot := { b with status := 3 } } }

/-- RECOVERY_IMAGE_WRITE: in recovery the host of partition 0 writes the boot store (R424). -/
def execRecoveryImageWrite (s : State) : Out :=
  match s.arg with
  | .image off bs =>
    let b := s.hub.boot
    if b.status ≠ 1 then .next s
    else .next { s with hub := { s.hub with boot := { b with store := smSetAll 0 b.store (cellsAt off bs) } } }
  | _ => .next s

end Sys2Proof.Machine
end

