-- ==== Sys2Proof/Machine/Routing.lean ====
section
/-!
DEFINITION. The instructions of the routing engine (R383-R387).
-/
namespace Sys2Proof.Machine

/-- RTJOB: a job whose record, table entries and handles the commit captures, its command carrying RTSST;
`.evict` writes the victim sampled at issue (R383, R384, R387). -/
def execRtjob (i : TInsn) (s : State) : Out :=
  act s (s.x.scalarAct i.g fun x =>
    if i.mod.getLsbD 0 then x.wrS i.sy x.victim
    else
      withDescriptor s i x fun h x =>
        x.submit { x.newJob .rtjob 3 with
          ev := i.mod.getLsbD 3, recAt := some (h, 64), args := [x.r.rtsst] })

/-- RTWAIT: its wait is an issue condition (R385). -/
def execRtwait (i : TInsn) (s : State) : Out := act s (s.x.scalarAct i.g id)

end Sys2Proof.Machine
end

