-- ==== Sys2Proof/Machine/Scalar.lean ====
section
/-!
DEFINITION. Group 0: scalar arithmetic, division, fields, addresses, moves, comparison and predicate
logic (R104-R115).
-/
namespace Sys2Proof.Machine

/-- A scalar instruction of one source: `f` takes W and the operand read as unsigned (R105). -/
def scalar1 (i : VInsn) (f : Nat → Nat → Int) (x : Flight) : Flight :=
  x.scalarAct i.g fun x =>
    let w := widthOf i.fmt
    x.putScalar i.d (scalarResult i.fmt (f w (x.scalarU i w i.a)))

/-- A scalar instruction of two sources (R105). -/
def scalar2 (i : VInsn) (f : Nat → Nat → Nat → Int) (x : Flight) : Flight :=
  x.scalarAct i.g fun x =>
    let w := widthOf i.fmt
    x.putScalar i.d (scalarResult i.fmt (f w (x.scalarU i w i.a) (x.scalarU i w i.b)))

/-- A scalar instruction of three sources (R105). -/
def scalar3 (i : VInsn) (f : Nat → Nat → Nat → Nat → Int) (x : Flight) : Flight :=
  x.scalarAct i.g fun x =>
    let w := widthOf i.fmt
    x.putScalar i.d
      (scalarResult i.fmt (f w (x.scalarU i w i.a) (x.scalarU i w i.b) (x.scalarU i w i.c)))

/-- Leading zero bits within `w` bits. -/
def clzN (w v : Nat) : Nat := if v = 0 then w else w - 1 - Nat.log2 v

/-- Trailing zero bits within `w` bits. -/
def ctzN : Nat → Nat → Nat
  | 0, _ => 0
  | w + 1, v => if v % 2 = 1 then 0 else 1 + ctzN w (v / 2)

/-- One bits within `w` bits. -/
def popcN : Nat → Nat → Nat
  | 0, _ => 0
  | w + 1, v => v % 2 + popcN w (v / 2)

/-- The low `w` bits reversed. -/
def brevN : Nat → Nat → Nat
  | 0, _ => 0
  | w + 1, v => v % 2 * 2 ^ w + brevN w (v / 2)

/-- Rotation left within `w` bits. -/
def rolN (w a b : Nat) : Nat :=
  let k := b % w
  (a * 2 ^ k % 2 ^ w) + a / 2 ^ (w - k)

/-- Truncated division of integers (R107). -/
def truncDiv (a b : Int) : Int := a.tdiv b

/-- DIV: the quotient of R107. -/
def divS (w a b : Nat) : Int :=
  let sa := toSigned w a
  let sb := toSigned w b
  if b = 0 then -1
  else if sa = -(2 ^ (w - 1) : Nat) ∧ sb = -1 then -(2 ^ (w - 1) : Nat)
  else truncDiv sa sb

/-- REM: the remainder of R107. -/
def remS (w a b : Nat) : Int :=
  let sa := toSigned w a
  let sb := toSigned w b
  if b = 0 then sa
  else if sa = -(2 ^ (w - 1) : Nat) ∧ sb = -1 then 0
  else sa - truncDiv sa sb * sb

/-- The low `len` bits from `pos`, the length cut at `n`; `signed` extends by the top bit kept
(R108). -/
def fieldOf (n a pos len : Nat) (sgn : Bool) : Int :=
  let len := if pos < n then min len (n - pos) else 0
  if len = 0 then 0
  else
    let v := a / 2 ^ pos % 2 ^ len
    if sgn then toSigned len v else v

/-- `old` with bits `pos + len - 1 : pos` replaced by the low bits of `a` (R108). -/
def insertField (n old a pos len : Nat) : Nat :=
  let len := if pos < n then min len (n - pos) else 0
  if len = 0 then old
  else old % 2 ^ pos + (a % 2 ^ len) * 2 ^ pos + old / 2 ^ (pos + len) * 2 ^ (pos + len)

/-- SEXT and ZEXT (R108). -/
def extField (n a b : Nat) (sgn : Bool) : Int :=
  let k := b % 128
  if k = 0 then 0 else if n ≤ k then a else if sgn then toSigned k a else (a % 2 ^ k : Nat)

/-- ADD (R106). -/
def execAdd (i : VInsn) (s : State) : Out := act s (scalar2 i (fun _ a b => a + b) s.x)

/-- SUB (R106). -/
def execSub (i : VInsn) (s : State) : Out := act s (scalar2 i (fun _ a b => (a : Int) - b) s.x)

/-- MUL (R106). -/
def execMul (i : VInsn) (s : State) : Out := act s (scalar2 i (fun _ a b => a * b) s.x)

/-- MULH (R106). -/
def execMulh (i : VInsn) (s : State) : Out :=
  act s (scalar2 i (fun w a b => toSigned w a * toSigned w b / (2 ^ w : Nat)) s.x)

/-- MULHU (R106). -/
def execMulhu (i : VInsn) (s : State) : Out := act s (scalar2 i (fun w a b => (a * b / 2 ^ w : Nat)) s.x)

/-- DIV (R107). -/
def execDiv (i : VInsn) (s : State) : Out := act s (scalar2 i divS s.x)

/-- DIVU (R107). -/
def execDivu (i : VInsn) (s : State) : Out :=
  act s (scalar2 i (fun w a b => if b = 0 then (2 ^ w - 1 : Nat) else (a / b : Nat)) s.x)

/-- REM (R107). -/
def execRem (i : VInsn) (s : State) : Out := act s (scalar2 i remS s.x)

/-- REMU (R107). -/
def execRemu (i : VInsn) (s : State) : Out :=
  act s (scalar2 i (fun _ a b => if b = 0 then a else (a % b : Nat)) s.x)

/-- AND (R106). -/
def execAnd (i : VInsn) (s : State) : Out := act s (scalar2 i (fun _ a b => (a &&& b : Nat)) s.x)

/-- OR (R106). -/
def execOr (i : VInsn) (s : State) : Out := act s (scalar2 i (fun _ a b => (a ||| b : Nat)) s.x)

/-- XOR (R106). -/
def execXor (i : VInsn) (s : State) : Out := act s (scalar2 i (fun _ a b => (a ^^^ b : Nat)) s.x)

/-- ANDN (R106). -/
def execAndn (i : VInsn) (s : State) : Out :=
  act s (scalar2 i (fun w a b => (a &&& (2 ^ w - 1 - b) : Nat)) s.x)

/-- SHL (R106). -/
def execShl (i : VInsn) (s : State) : Out :=
  act s (scalar2 i (fun w a b => (a * 2 ^ (b % w) : Nat)) s.x)

/-- SHR (R106). -/
def execShr (i : VInsn) (s : State) : Out :=
  act s (scalar2 i (fun w a b => (a / 2 ^ (b % w) : Nat)) s.x)

/-- SAR (R106). -/
def execSar (i : VInsn) (s : State) : Out :=
  act s (scalar2 i (fun w a b => toSigned w a / (2 ^ (b % w) : Nat)) s.x)

/-- ROL (R106). -/
def execRol (i : VInsn) (s : State) : Out := act s (scalar2 i (fun w a b => (rolN w a b : Nat)) s.x)

/-- ROR (R106). -/
def execRor (i : VInsn) (s : State) : Out :=
  act s (scalar2 i (fun w a b => (rolN w a (w - b % w) : Nat)) s.x)

/-- MIN (R106). -/
def execMin (i : VInsn) (s : State) : Out :=
  act s (scalar2 i (fun w a b => min (toSigned w a) (toSigned w b)) s.x)

/-- MAX (R106). -/
def execMax (i : VInsn) (s : State) : Out :=
  act s (scalar2 i (fun w a b => max (toSigned w a) (toSigned w b)) s.x)

/-- MINU (R106). -/
def execMinu (i : VInsn) (s : State) : Out := act s (scalar2 i (fun _ a b => (min a b : Nat)) s.x)

/-- MAXU (R106). -/
def execMaxu (i : VInsn) (s : State) : Out := act s (scalar2 i (fun _ a b => (max a b : Nat)) s.x)

/-- ABS (R106). -/
def execAbs (i : VInsn) (s : State) : Out :=
  act s (scalar1 i (fun w a => ((toSigned w a).natAbs : Int)) s.x)

/-- NEG (R106). -/
def execNeg (i : VInsn) (s : State) : Out := act s (scalar1 i (fun w a => -(toSigned w a)) s.x)

/-- CLZ (R106). -/
def execClz (i : VInsn) (s : State) : Out := act s (scalar1 i (fun w a => (clzN w a : Nat)) s.x)

/-- CTZ (R106). -/
def execCtz (i : VInsn) (s : State) : Out := act s (scalar1 i (fun w a => (ctzN w a : Nat)) s.x)

/-- POPC (R106). -/
def execPopc (i : VInsn) (s : State) : Out := act s (scalar1 i (fun w a => (popcN w a : Nat)) s.x)

/-- BREV (R106). -/
def execBrev (i : VInsn) (s : State) : Out := act s (scalar1 i (fun w a => (brevN w a : Nat)) s.x)

/-- BSWAP (R106). -/
def execBswap (i : VInsn) (s : State) : Out :=
  act s (scalar1 i (fun w a => (leNat (leBytes (w / 8) a).reverse : Nat)) s.x)

/-- SEXT (R108). -/
def execSext (i : VInsn) (s : State) : Out := act s (scalar2 i (fun w a b => extField w a b true) s.x)

/-- ZEXT (R108). -/
def execZext (i : VInsn) (s : State) : Out := act s (scalar2 i (fun w a b => extField w a b false) s.x)

/-- BFX (R108). -/
def execBfx (i : VInsn) (s : State) : Out :=
  act s (scalar3 i (fun w a b c => fieldOf w a (b % 64) (c % 128) true) s.x)

/-- BFXU (R108). -/
def execBfxu (i : VInsn) (s : State) : Out :=
  act s (scalar3 i (fun w a b c => fieldOf w a (b % 64) (c % 128) false) s.x)

/-- BFI: the destination is a fourth source (R108). -/
def execBfi (i : VInsn) (s : State) : Out :=
  act s (scalar3 i (fun w a b c =>
    let old := match i.d with | .reg n => (s.x.rdS n).toNat % 2 ^ w | _ => 0
    (insertField w old a (b % 64) (c % 128) : Nat)) s.x)

/-- MAD (R106). -/
def execMad (i : VInsn) (s : State) : Out := act s (scalar3 i (fun _ a b c => (a * b + c : Nat)) s.x)

/-- ADDX: the pointer's top byte is kept (R109). -/
def execAddx (i : VInsn) (s : State) : Out :=
  act s (scalar2 i (fun _ a b =>
    let u := bit i.mod.toNat 3
    let k : Int := if u then (b % 2 ^ 32 : Nat) else toSigned 32 b
    let low := ofInt 56 ((a % 2 ^ 56 : Nat) + k * (2 ^ (i.mod.toNat % 8) : Nat))
    (low + a / 2 ^ 56 * 2 ^ 56 : Nat)) s.x)

/-- SEL: `a` when lane 0 of pC is true, else `b` (R112). -/
def execSel (i : VInsn) (s : State) : Out :=
  act s (scalar2 i (fun _ a b =>
    match i.c with
    | .reg n => if (s.x.r.rdP s.x.nlanes (n.setWidth 4)).getLsbD 0 then a else b
    | _ => b) s.x)

/-- MOV, which alone in group 0 takes and pushes ring tokens (R110). -/
def execMov (i : VInsn) (s : State) : Out :=
  act s (s.x.scalarAct i.g fun x =>
    let (ts, x) := fireAll [i.a] [] x
    let w := widthOf i.fmt
    let a := match i.a with
      | .ring h _ => fieldN (tokenOf ts h).bytes 0 8 % 2 ^ w
      | src => x.scalarU i w src
    let v := scalarResult i.fmt a
    match i.d with
    | .push h => x.push h.toNat .raw (leBytes 8 v.toNat) 8
    | d => x.putScalar d v)

/-- MOVL, .lo and .hi keeping the other half of sD (R111). -/
def execMovl (i : VInsn) (s : State) : Out :=
  act s (s.x.scalarAct i.g fun x =>
    let l := i.lit.getD 0
    let old := match i.d with | .reg n => x.rdS n | _ => 0
    let v : Word := match i.mod.toNat with
      | 0 => l
      | 1 => old.extractLsb' 32 32 ++ l.extractLsb' 0 32
      | _ => l.extractLsb' 0 32 ++ old.extractLsb' 0 32
    x.putScalar i.d v)

/-- A comparison result: every lane of pD, or sD (R113). -/
def Flight.putCond (x : Flight) (d : Dst) (t : Bool) : Flight :=
  match d with
  | .alt n => x.putPred n (laneMask 128) fun _ => t
  | d => x.putScalar d (if t then 1 else 0)

/-- CMP: signed (R113). -/
def execCmp (i : VInsn) (s : State) : Out :=
  act s (s.x.scalarAct i.g fun x =>
    let w := widthOf i.fmt
    x.putCond i.d (intCond i.mod.toNat (toSigned w (x.scalarU i w i.a)) (toSigned w (x.scalarU i w i.b))))

/-- CMPU: unsigned (R113). -/
def execCmpu (i : VInsn) (s : State) : Out :=
  act s (s.x.scalarAct i.g fun x =>
    let w := widthOf i.fmt
    x.putCond i.d (intCond i.mod.toNat (x.scalarU i w i.a) (x.scalarU i w i.b)))

/-- A predicate source. -/
def Flight.srcPred (x : Flight) (src : Src) : BitVec 128 :=
  match src with
  | .reg n => x.r.rdP x.nlanes (n.setWidth 4)
  | _ => 0

/-- A whole predicate written (R114). -/
def Flight.putWholePred (x : Flight) (d : Dst) (v : BitVec 128) : Flight :=
  match d with
  | .alt n => { x with r := x.r.wrP x.nlanes (n.setWidth 4) v }
  | _ => x

/-- PAND (R114). -/
def execPand (i : VInsn) (s : State) : Out :=
  act s (s.x.scalarAct i.g fun x => x.putWholePred i.d (x.srcPred i.a &&& x.srcPred i.b))

/-- POR (R114). -/
def execPor (i : VInsn) (s : State) : Out :=
  act s (s.x.scalarAct i.g fun x => x.putWholePred i.d (x.srcPred i.a ||| x.srcPred i.b))

/-- PXOR (R114). -/
def execPxor (i : VInsn) (s : State) : Out :=
  act s (s.x.scalarAct i.g fun x => x.putWholePred i.d (x.srcPred i.a ^^^ x.srcPred i.b))

/-- PNOT (R114). -/
def execPnot (i : VInsn) (s : State) : Out :=
  act s (s.x.scalarAct i.g fun x => x.putWholePred i.d (~~~(x.srcPred i.a)))

/-- PMOV in its five forms (R115). -/
def execPmov (i : VInsn) (s : State) : Out :=
  act s (s.x.scalarAct i.g fun x =>
    let sa : Word := match i.a with | .reg n => x.rdS n | _ => 0
    let pa := x.srcPred i.a
    let old := match i.d with | .alt n => x.r.rdP x.nlanes (n.setWidth 4) | _ => 0
    match i.mod.toNat with
    | 0 => x.putWholePred i.d pa
    | 1 => x.putWholePred i.d (old.extractLsb' 64 64 ++ sa)
    | 3 => x.putWholePred i.d (sa ++ old.extractLsb' 0 64)
    | 2 => x.putScalar i.d (pa.extractLsb' 0 64)
    | _ => x.putScalar i.d (pa.extractLsb' 64 64))

end Sys2Proof.Machine
end

