-- ==== Sys2Proof/Machine/VecInt.lean ====
section
/-!
DEFINITION. Group 3: integer, bit and movement instructions of vectors (R147-R158).
-/
namespace Sys2Proof.Machine

/-! ### Element arithmetic (R147) -/

/-- The k-th operand of an element as an unsigned number. -/
def uOp (es : List Nat) (k : Nat) : Nat := (es[k]?).getD 0

/-- The k-th operand of an element as a signed number. -/
def sOp (w : Nat) (es : List Nat) (k : Nat) : Int := toSigned w (uOp es k)

/-- Whether a format is a signed integer. -/
def isSignedFmt (f : Fmt) : Bool :=
  match intInfo f with
  | some (s, _) => s
  | none => false

/-- An element as its format's integer (R88). -/
def intOf (f : Fmt) (b : Nat) : Int :=
  if isSignedFmt f then toSigned (fmtWidth f) b else ((b % 2 ^ fmtWidth f : Nat) : Int)

/-- Least and greatest value of an integer format. -/
def intRange (f : Fmt) : Int × Int :=
  let w := fmtWidth f
  if isSignedFmt f then (-((2 ^ (w - 1) : Nat) : Int), ((2 ^ (w - 1) : Nat) : Int) - 1)
  else (0, ((2 ^ w : Nat) : Int) - 1)

/-- An integer clamped to a format's range, as bits. -/
def satInt (f : Fmt) (v : Int) : Nat := ofInt (fmtWidth f) (clampI (intRange f).1 (intRange f).2 v)

/-- An element-wise integer instruction: modular at width w, no flag (R147). -/
def intMap (i : VInsn) (srcs : List Src) (f : Nat → List Nat → Int) (s : State) : Out :=
  let w := fmtWidth i.fmt
  act s (vecMap i srcs i.fmt i.fmt (fun _ es => ⟨ofInt w (f w es), 0, false⟩) s.x)

/-- VIADD (R147). -/
def execViadd (i : VInsn) (s : State) : Out :=
  intMap i [i.a, i.b] (fun _ es => (uOp es 0 : Int) + uOp es 1) s

/-- VISUB (R147). -/
def execVisub (i : VInsn) (s : State) : Out :=
  intMap i [i.a, i.b] (fun _ es => (uOp es 0 : Int) - uOp es 1) s

/-- VIMUL (R147). -/
def execVimul (i : VInsn) (s : State) : Out :=
  intMap i [i.a, i.b] (fun _ es => (uOp es 0 : Int) * uOp es 1) s

/-- VIMAD (R147). -/
def execVimad (i : VInsn) (s : State) : Out :=
  intMap i [i.a, i.b, i.c] (fun _ es => (uOp es 0 : Int) * uOp es 1 + uOp es 2) s

/-- VIMIN (R147). -/
def execVimin (i : VInsn) (s : State) : Out :=
  intMap i [i.a, i.b] (fun w es => min (sOp w es 0) (sOp w es 1)) s

/-- VIMAX (R147). -/
def execVimax (i : VInsn) (s : State) : Out :=
  intMap i [i.a, i.b] (fun w es => max (sOp w es 0) (sOp w es 1)) s

/-- VIMINU (R147). -/
def execViminu (i : VInsn) (s : State) : Out :=
  intMap i [i.a, i.b] (fun _ es => (min (uOp es 0) (uOp es 1) : Nat)) s

/-- VIMAXU (R147). -/
def execVimaxu (i : VInsn) (s : State) : Out :=
  intMap i [i.a, i.b] (fun _ es => (max (uOp es 0) (uOp es 1) : Nat)) s

/-- VAND (R147). -/
def execVand (i : VInsn) (s : State) : Out :=
  intMap i [i.a, i.b] (fun _ es => (uOp es 0 &&& uOp es 1 : Nat)) s

/-- VOR (R147). -/
def execVor (i : VInsn) (s : State) : Out :=
  intMap i [i.a, i.b] (fun _ es => (uOp es 0 ||| uOp es 1 : Nat)) s

/-- VXOR (R147). -/
def execVxor (i : VInsn) (s : State) : Out :=
  intMap i [i.a, i.b] (fun _ es => (uOp es 0 ^^^ uOp es 1 : Nat)) s

/-- VSHL (R147). -/
def execVshl (i : VInsn) (s : State) : Out :=
  intMap i [i.a, i.b] (fun w es => (uOp es 0 * 2 ^ (uOp es 1 % w) : Nat)) s

/-- VSHR (R147). -/
def execVshr (i : VInsn) (s : State) : Out :=
  intMap i [i.a, i.b] (fun w es => (uOp es 0 / 2 ^ (uOp es 1 % w) : Nat)) s

/-- VSAR: rounding towards minus infinity (R147). -/
def execVsar (i : VInsn) (s : State) : Out :=
  intMap i [i.a, i.b] (fun w es => sOp w es 0 / ((2 ^ (uOp es 1 % w) : Nat) : Int)) s

/-- One bits of the low `w` bits of a number. -/
def popCount : Nat → Nat → Nat
  | 0, _ => 0
  | w + 1, v => v % 2 + popCount w (v / 2)

/-- VPOPC (R147). -/
def execVpopc (i : VInsn) (s : State) : Out :=
  intMap i [i.a] (fun w es => (popCount w (uOp es 0) : Nat)) s

/-- VCLZ (R147). -/
def execVclz (i : VInsn) (s : State) : Out :=
  intMap i [i.a] (fun w es =>
    (if uOp es 0 = 0 then w else w - 1 - Nat.log2 (uOp es 0) : Nat)) s

/-- VSADD: clamped to the range of FMT (R147). -/
def execVsadd (i : VInsn) (s : State) : Out :=
  intMap i [i.a, i.b] (fun _ es => satInt i.fmt (intOf i.fmt (uOp es 0) + intOf i.fmt (uOp es 1))) s

/-- VSSUB (R147). -/
def execVssub (i : VInsn) (s : State) : Out :=
  intMap i [i.a, i.b] (fun _ es => satInt i.fmt (intOf i.fmt (uOp es 0) - intOf i.fmt (uOp es 1))) s

/-! ### Comparison and bit fields (R148, R149) -/

/-- VICMP (R148). -/
def execVicmp (i : VInsn) (s : State) : Out :=
  act s (s.x.laneAct i.g fun m x =>
    let (ts, x) := fireAll [i.a, i.b] [] x
    let (as, _, x) := x.srcElems i ts i.fmt i.a
    let (bs, _, x) := x.srcElems i ts i.fmt i.b
    x.putTest i m (fmtWidth i.fmt)
      ((as.zip bs).map fun p => intCond i.mod.toNat (intOf i.fmt p.1) (intOf i.fmt p.2)))

/-- Position and length of a bit field within width `w` (R108). -/
def fieldSpan (w b c : Nat) : Nat × Nat :=
  let pos := b % 64
  (pos, if pos < w then min (c % 128) (w - pos) else 0)

/-- VBFX: sign-extended for int formats (R149). -/
def execVbfx (i : VInsn) (s : State) : Out :=
  intMap i [i.a, i.b, i.c] (fun w es =>
    let (pos, len) := fieldSpan w (uOp es 1) (uOp es 2)
    let v := uOp es 0 / 2 ^ pos % 2 ^ len
    if isSignedFmt i.fmt then toSigned len v else (v : Int)) s

/-- VBFI: the destination's old value is a fourth source, its tag checked (R149). -/
def execVbfi (i : VInsn) (s : State) : Out :=
  act s (s.x.laneAct i.g fun m x =>
    let (ts, x) := fireAll [i.a, i.b, i.c] [] x
    let w := fmtWidth i.fmt
    let (as, _, x) := x.srcElems i ts i.fmt i.a
    let (bs, _, x) := x.srcElems i ts i.fmt i.b
    let (cs, _, x) := x.srcElems i ts i.fmt i.c
    match i.d with
    | .reg k =>
      let old := x.r.rdV k
      if !tagOk i.fmt old.tag then x.failCode .formatTag
      else
        let rs := ((elemsOf w old.lanes).zip (as.zip (bs.zip cs))).map fun p =>
          let (pos, len) := fieldSpan w p.2.2.1 p.2.2.2
          let mask := (2 ^ len - 1) * 2 ^ pos
          p.1 - (p.1 &&& mask) + (p.2.1 * 2 ^ pos &&& mask)
        x.putVec i.d m (packElems w x.nlanes rs) i.fmt none
    | _ => x)

/-! ### Movement across the gang (R150-R158) -/

/-- A source's words with its tag and sidecar, checked against a format (R81, R150): a literal or an
immediate is broadcast with its format's tag. -/
def Flight.srcWords (x : Flight) (i : VInsn) (ts : List (Nat × Token)) (f : Fmt) (src : Src) :
    VReg × BitVec 5 × Flight :=
  match src with
  | .reg _ | .ring _ _ =>
    let (v, x) := x.srcVec ts src
    (v, 0, if tagOk f v.tag then x else x.failCode .formatTag)
  | src =>
    let (es, fl, x) := x.srcElems i ts f src
    (⟨packElems (fmtWidth f) x.nlanes es, f, sideFresh x.nlanes⟩, fl, x)

/-- VMOV, and VMOV.raw.retag (R150). -/
def execVmov (i : VInsn) (s : State) : Out :=
  act s (s.x.laneAct i.g fun m x =>
    let (ts, x) := fireAll [i.a] [] x
    let (v, fl, x) := x.srcWords i ts i.fmt i.a
    let tag : Fmt :=
      if i.mod = 0 then (if i.fmt = .raw then v.tag else i.fmt)
      else match i.b with
        | .imm n => (Fmt.ofCode (n.setWidth 5)).getD .raw
        | _ => .raw
    (x.flag fl).putMoved i m v.lanes tag (if tag.isMx then some v.side else none))

/-- A scalar, immediate or literal operand of a vector instruction. -/
def Flight.scalarOp (x : Flight) (i : VInsn) (src : Src) : Nat := x.scalarU i 64 src

/-- VBCAST (R151). -/
def execVbcast (i : VInsn) (s : State) : Out :=
  act s (s.x.laneAct i.g fun m x =>
    let w := fmtWidth i.fmt
    let n := x.nlanes * (32 / w)
    let (v, fl, x) :=
      if i.mod = 0 then
        match i.a with
        | .reg k => ((x.rdS k).toNat % 2 ^ w, (0 : BitVec 5), x)
        | .lit => let r := litElem i.fmt (i.lit.getD 0).toNat; (r.bits, r.flags, x)
        | .imm k => let r := immElem i.fmt k; (r.bits, r.flags, x)
        | .ring _ _ => (0, (0 : BitVec 5), x)
      else
        let (ts, x) := fireAll [i.a] [] x
        let (es, fl, x) := x.srcElems i ts i.fmt i.a
        ((es[x.scalarOp i i.b % n]?).getD 0, fl, x)
    (x.flag fl).putMoved i m (packElems w x.nlanes (List.replicate n v)) i.fmt none)

/-- An element extended to 64 bits as VEXTR does (R151). -/
def extendElem (f : Fmt) (b : Nat) : Word :=
  if isSignedFmt f then BitVec.ofInt 64 (toSigned (fmtWidth f) b) else BitVec.ofNat 64 b

/-- VEXTR: the element is read whether or not its lane is on (R151). -/
def execVextr (i : VInsn) (s : State) : Out :=
  act s (s.x.laneAct i.g fun _ x =>
    let (ts, x) := fireAll [i.a] [] x
    let (es, fl, x) := x.srcElems i ts i.fmt i.a
    let v := (es[x.scalarOp i i.b % es.length]?).getD 0
    match i.d with
    | .alt k => (x.flag fl).wrS k (extendElem i.fmt v)
    | _ => x)

/-- The word at an index of a list. -/
def wordAt (l : List Lane) (k : Nat) : Lane := (l[k]?).getD 0

/-- VSHUF (R152). -/
def execVshuf (i : VInsn) (s : State) : Out :=
  act s (s.x.laneAct i.g fun m x =>
    let (ts, x) := fireAll [i.a, i.b] [] x
    let (a, f1, x) := x.srcWords i ts i.fmt i.a
    let (b, f2, x) := x.srcWords i ts .uint32 i.b
    let l := x.nlanes
    let out := (List.range l).map fun k =>
      let b := wordAt b.lanes k
      if b.msb then 0 else wordAt a.lanes (b.toNat % l)
    (x.flag (f1 ||| f2)).putMoved i m out i.fmt none)

/-- VSLIDE (R153). -/
def execVslide (i : VInsn) (s : State) : Out :=
  act s (s.x.laneAct i.g fun m x =>
    let (ts, x) := fireAll [i.a, i.b] [] x
    let (a, f1, x) := x.srcWords i ts i.fmt i.a
    let (b, f2, x) := x.srcWords i ts i.fmt i.b
    let l := x.nlanes
    let sh := x.scalarOp i i.c % (2 * l)
    let out := (List.range l).map fun k => wordAt (a.lanes ++ b.lanes) (k + sh)
    (x.flag (f1 ||| f2)).putMoved i m out i.fmt none)

/-- VPACK: clamped, or the low bits (R154). -/
def execVpack (i : VInsn) (s : State) : Out :=
  act s (s.x.laneAct i.g fun m x =>
    let (ts, x) := fireAll [i.a, i.b] [] x
    let (a, x) := x.srcVec ts i.a
    let (b, x) := x.srcVec ts i.b
    let w := fmtWidth i.fmt
    if a.tag ≠ b.tag ∨ !a.tag.isInt ∨ fmtWidth a.tag ≠ 2 * w then x.failCode .formatTag
    else
      let es := (elemsOf (2 * w) a.lanes ++ elemsOf (2 * w) b.lanes).map fun e =>
        if i.mod = 0 then satInt i.fmt (intOf a.tag e) else e % 2 ^ w
      x.putVec i.d m (packElems w x.nlanes es) i.fmt none)

/-- VUNPK (R154). -/
def execVunpk (i : VInsn) (s : State) : Out :=
  act s (s.x.laneAct i.g fun m x =>
    let (ts, x) := fireAll [i.a] [] x
    let (a, x) := x.srcVec ts i.a
    let w := fmtWidth i.fmt
    let ws := fmtWidth a.tag
    if !a.tag.isInt ∨ w ≤ ws then x.failCode .formatTag
    else
      let n := x.nlanes * (32 / w)
      let base := partOf i.b % (w / ws) * n
      let es := ((elemsOf ws a.lanes).drop base).take n
      x.putVec i.d m (packElems w x.nlanes (es.map fun e => ofInt w (intOf a.tag e))) i.fmt none)

/-- Running values of a scan, inclusive or exclusive. -/
def scanList (f : Int → Int → Int) (excl : Bool) : Int → List Int → List Int
  | _, [] => []
  | acc, v :: vs =>
    let r := f acc v
    (if excl then acc else r) :: scanList f excl r vs

/-- VSCAN (R155). -/
def execVscan (i : VInsn) (s : State) : Out :=
  act s (s.x.laneAct i.g fun m x =>
    let (ts, x) := fireAll [i.a] [] x
    let (as, _, x) := x.srcElems i ts i.fmt i.a
    let w := fmtWidth i.fmt
    let (lo, hi) := intRange i.fmt
    let (f, ident) : (Int → Int → Int) × Int := match i.mod.toNat with
      | 0 | 1 => ((· + ·), 0)
      | 2 => (max, lo)
      | _ => (min, hi)
    let vs := as.zipIdx.map fun p => if laneOn m (p.2 / (32 / w)) then intOf i.fmt p.1 else ident
    x.putVec i.d m (packElems w x.nlanes ((scanList f (i.mod == 1) ident vs).map (ofInt w))) i.fmt none)

/-- VREDI (R156). -/
def execVredi (i : VInsn) (s : State) : Out :=
  act s (s.x.laneAct i.g fun m x =>
    let (ts, x) := fireAll [i.a] [] x
    let (as, _, x) := x.srcElems i ts i.fmt i.a
    let w := fmtWidth i.fmt
    let (lo, hi) := intRange i.fmt
    let bitwise := fun (f : Nat → Nat → Nat) (a b : Int) => ((f (ofInt w a) (ofInt w b) : Nat) : Int)
    let (f, ident) : (Int → Int → Int) × Int := match i.mod.toNat with
      | 0 => ((· + ·), 0)
      | 1 => (max, lo)
      | 2 => (min, hi)
      | 3 => (bitwise (· &&& ·), ((2 ^ w - 1 : Nat) : Int))
      | 4 => (bitwise (· ||| ·), 0)
      | _ => (bitwise (· ^^^ ·), 0)
    let vs := as.zipIdx.map fun p => if laneOn m (p.2 / (32 / w)) then intOf i.fmt p.1 else ident
    let v := ofInt w (treeOf f 0 (Nat.log2 vs.length) vs)
    x.putReduced i.d m i.fmt v (extendElem i.fmt v))

/-- VLANE (R157). -/
def execVlane (i : VInsn) (s : State) : Out :=
  act s (s.x.laneAct i.g fun m x =>
    let w := fmtWidth i.fmt
    let a := x.scalarOp i i.a
    let b := x.scalarOp i i.b
    x.putVec i.d m
      (packElems w x.nlanes ((List.range (x.nlanes * (32 / w))).map fun k => (a + k * b) % 2 ^ w))
      i.fmt none)

/-- VCOMPR: the guard has no part in choosing source words (R158). -/
def execVcompr (i : VInsn) (s : State) : Out :=
  act s (s.x.laneAct i.g fun m x =>
    let (ts, x) := fireAll [i.a] [] x
    let (a, fl, x) := x.srcWords i ts i.fmt i.a
    let p := match i.c with
      | .reg n => x.r.rdP x.nlanes (n.setWidth 4)
      | _ => 0
    let src := (a.lanes.zipIdx.filter fun q => laneOn p q.2).map (·.1)
    (x.flag fl).putMoved i m (src ++ List.replicate (x.nlanes - src.length) 0) i.fmt none)

end Sys2Proof.Machine
end

