-- ==== Sys2Proof/Machine/Dispatch.lean ====
section
/-!
DEFINITION. The dispatch: one arm per row of the table of operations and events.
-/
namespace Sys2Proof.Machine

/-- The meaning of each step. -/
def exec (i : Instr) (s : State) : Host.Outcome State Fault Refusal :=
  match i with
  | .add f => Sys2Proof.Machine.execAdd f s
  | .sub f => Sys2Proof.Machine.execSub f s
  | .mul f => Sys2Proof.Machine.execMul f s
  | .mulh f => Sys2Proof.Machine.execMulh f s
  | .mulhu f => Sys2Proof.Machine.execMulhu f s
  | .div f => Sys2Proof.Machine.execDiv f s
  | .divu f => Sys2Proof.Machine.execDivu f s
  | .rem f => Sys2Proof.Machine.execRem f s
  | .remu f => Sys2Proof.Machine.execRemu f s
  | .and f => Sys2Proof.Machine.execAnd f s
  | .or f => Sys2Proof.Machine.execOr f s
  | .xor f => Sys2Proof.Machine.execXor f s
  | .andn f => Sys2Proof.Machine.execAndn f s
  | .shl f => Sys2Proof.Machine.execShl f s
  | .shr f => Sys2Proof.Machine.execShr f s
  | .sar f => Sys2Proof.Machine.execSar f s
  | .rol f => Sys2Proof.Machine.execRol f s
  | .ror f => Sys2Proof.Machine.execRor f s
  | .min f => Sys2Proof.Machine.execMin f s
  | .max f => Sys2Proof.Machine.execMax f s
  | .minu f => Sys2Proof.Machine.execMinu f s
  | .maxu f => Sys2Proof.Machine.execMaxu f s
  | .abs f => Sys2Proof.Machine.execAbs f s
  | .neg f => Sys2Proof.Machine.execNeg f s
  | .clz f => Sys2Proof.Machine.execClz f s
  | .ctz f => Sys2Proof.Machine.execCtz f s
  | .popc f => Sys2Proof.Machine.execPopc f s
  | .brev f => Sys2Proof.Machine.execBrev f s
  | .bswap f => Sys2Proof.Machine.execBswap f s
  | .sext f => Sys2Proof.Machine.execSext f s
  | .zext f => Sys2Proof.Machine.execZext f s
  | .bfx f => Sys2Proof.Machine.execBfx f s
  | .bfxu f => Sys2Proof.Machine.execBfxu f s
  | .bfi f => Sys2Proof.Machine.execBfi f s
  | .mad f => Sys2Proof.Machine.execMad f s
  | .addx f => Sys2Proof.Machine.execAddx f s
  | .sel f => Sys2Proof.Machine.execSel f s
  | .mov f => Sys2Proof.Machine.execMov f s
  | .movl f => Sys2Proof.Machine.execMovl f s
  | .cmp f => Sys2Proof.Machine.execCmp f s
  | .cmpu f => Sys2Proof.Machine.execCmpu f s
  | .pand f => Sys2Proof.Machine.execPand f s
  | .por f => Sys2Proof.Machine.execPor f s
  | .pxor f => Sys2Proof.Machine.execPxor f s
  | .pnot f => Sys2Proof.Machine.execPnot f s
  | .pmov f => Sys2Proof.Machine.execPmov f s
  | .br f => Sys2Proof.Machine.execBr f s
  | .brc f => Sys2Proof.Machine.execBrc f s
  | .call f => Sys2Proof.Machine.execCall f s
  | .ret f => Sys2Proof.Machine.execRet f s
  | .jmpi f => Sys2Proof.Machine.execJmpi f s
  | .loop f => Sys2Proof.Machine.execLoop f s
  | .loopx f => Sys2Proof.Machine.execLoopx f s
  | .endStrand f => Sys2Proof.Machine.execEndStrand f s
  | .yield f => Sys2Proof.Machine.execYield f s
  | .nop f => Sys2Proof.Machine.execNop f s
  | .vadd f => Sys2Proof.Machine.execVadd f s
  | .vsub f => Sys2Proof.Machine.execVsub f s
  | .vmul f => Sys2Proof.Machine.execVmul f s
  | .vfma f => Sys2Proof.Machine.execVfma f s
  | .vfms f => Sys2Proof.Machine.execVfms f s
  | .vfnma f => Sys2Proof.Machine.execVfnma f s
  | .vmin f => Sys2Proof.Machine.execVmin f s
  | .vmax f => Sys2Proof.Machine.execVmax f s
  | .vabs f => Sys2Proof.Machine.execVabs f s
  | .vneg f => Sys2Proof.Machine.execVneg f s
  | .vcpys f => Sys2Proof.Machine.execVcpys f s
  | .vcmp f => Sys2Proof.Machine.execVcmp f s
  | .vsel f => Sys2Proof.Machine.execVsel f s
  | .vclass f => Sys2Proof.Machine.execVclass f s
  | .vrint f => Sys2Proof.Machine.execVrint f s
  | .vrcp f => Sys2Proof.Machine.execVrcp f s
  | .vrsq f => Sys2Proof.Machine.execVrsq f s
  | .vrcpn f => Sys2Proof.Machine.execVrcpn f s
  | .vrsqn f => Sys2Proof.Machine.execVrsqn f s
  | .vexp2 f => Sys2Proof.Machine.execVexp2 f s
  | .vlog2 f => Sys2Proof.Machine.execVlog2 f s
  | .vsin f => Sys2Proof.Machine.execVsin f s
  | .vcos f => Sys2Proof.Machine.execVcos f s
  | .vtanh f => Sys2Proof.Machine.execVtanh f s
  | .vdiv f => Sys2Proof.Machine.execVdiv f s
  | .vsqrt f => Sys2Proof.Machine.execVsqrt f s
  | .vcvt f => Sys2Proof.Machine.execVcvt f s
  | .vscale f => Sys2Proof.Machine.execVscale f s
  | .vmxq f => Sys2Proof.Machine.execVmxq f s
  | .vmxdq f => Sys2Proof.Machine.execVmxdq f s
  | .vdot f => Sys2Proof.Machine.execVdot f s
  | .vredf f => Sys2Proof.Machine.execVredf f s
  | .viadd f => Sys2Proof.Machine.execViadd f s
  | .visub f => Sys2Proof.Machine.execVisub f s
  | .vimul f => Sys2Proof.Machine.execVimul f s
  | .vimad f => Sys2Proof.Machine.execVimad f s
  | .vimin f => Sys2Proof.Machine.execVimin f s
  | .vimax f => Sys2Proof.Machine.execVimax f s
  | .viminu f => Sys2Proof.Machine.execViminu f s
  | .vimaxu f => Sys2Proof.Machine.execVimaxu f s
  | .vand f => Sys2Proof.Machine.execVand f s
  | .vor f => Sys2Proof.Machine.execVor f s
  | .vxor f => Sys2Proof.Machine.execVxor f s
  | .vshl f => Sys2Proof.Machine.execVshl f s
  | .vshr f => Sys2Proof.Machine.execVshr f s
  | .vsar f => Sys2Proof.Machine.execVsar f s
  | .vpopc f => Sys2Proof.Machine.execVpopc f s
  | .vclz f => Sys2Proof.Machine.execVclz f s
  | .vbfx f => Sys2Proof.Machine.execVbfx f s
  | .vbfi f => Sys2Proof.Machine.execVbfi f s
  | .vicmp f => Sys2Proof.Machine.execVicmp f s
  | .vsadd f => Sys2Proof.Machine.execVsadd f s
  | .vssub f => Sys2Proof.Machine.execVssub f s
  | .vmov f => Sys2Proof.Machine.execVmov f s
  | .vbcast f => Sys2Proof.Machine.execVbcast f s
  | .vextr f => Sys2Proof.Machine.execVextr f s
  | .vshuf f => Sys2Proof.Machine.execVshuf f s
  | .vslide f => Sys2Proof.Machine.execVslide f s
  | .vpack f => Sys2Proof.Machine.execVpack f s
  | .vunpk f => Sys2Proof.Machine.execVunpk f s
  | .vscan f => Sys2Proof.Machine.execVscan f s
  | .vredi f => Sys2Proof.Machine.execVredi f s
  | .vlane f => Sys2Proof.Machine.execVlane f s
  | .vcompr f => Sys2Proof.Machine.execVcompr f s
  | .ld f => Sys2Proof.Machine.execLd f s
  | .st f => Sys2Proof.Machine.execSt f s
  | .ldv f => Sys2Proof.Machine.execLdv f s
  | .stv f => Sys2Proof.Machine.execStv f s
  | .ldg f => Sys2Proof.Machine.execLdg f s
  | .stg f => Sys2Proof.Machine.execStg f s
  | .ldt f => Sys2Proof.Machine.execLdt f s
  | .stt f => Sys2Proof.Machine.execStt f s
  | .atom f => Sys2Proof.Machine.execAtom f s
  | .cas f => Sys2Proof.Machine.execCas f s
  | .atomv f => Sys2Proof.Machine.execAtomv f s
  | .pref f => Sys2Proof.Machine.execPref f s
  | .phase f => Sys2Proof.Machine.execPhase f s
  | .publ f => Sys2Proof.Machine.execPubl f s
  | .snap f => Sys2Proof.Machine.execSnap f s
  | .bnd f => Sys2Proof.Machine.execBnd f s
  | .bndq f => Sys2Proof.Machine.execBndq f s
  | .rwaitf f => Sys2Proof.Machine.execRwaitf f s
  | .rwaite f => Sys2Proof.Machine.execRwaite f s
  | .rrels f => Sys2Proof.Machine.execRrels f s
  | .radvw f => Sys2Proof.Machine.execRadvw f s
  | .rstat f => Sys2Proof.Machine.execRstat f s
  | .rflush f => Sys2Proof.Machine.execRflush f s
  | .binit f => Sys2Proof.Machine.execBinit f s
  | .barv f => Sys2Proof.Machine.execBarv f s
  | .bexp f => Sys2Proof.Machine.execBexp f s
  | .bwait f => Sys2Proof.Machine.execBwait f s
  | .btest f => Sys2Proof.Machine.execBtest f s
  | .cpy f => Sys2Proof.Machine.execCpy f s
  | .cpyt f => Sys2Proof.Machine.execCpyt f s
  | .cpyb f => Sys2Proof.Machine.execCpyb f s
  | .cpyq f => Sys2Proof.Machine.execCpyq f s
  | .mtask f => Sys2Proof.Machine.execMtask f s
  | .mtasks f => Sys2Proof.Machine.execMtasks f s
  | .mwait f => Sys2Proof.Machine.execMwait f s
  | .mzero f => Sys2Proof.Machine.execMzero f s
  | .mrd f => Sys2Proof.Machine.execMrd f s
  | .tzero f => Sys2Proof.Machine.execTzero f s
  | .tmov f => Sys2Proof.Machine.execTmov f s
  | .tcvt f => Sys2Proof.Machine.execTcvt f s
  | .tslice f => Sys2Proof.Machine.execTslice f s
  | .tdnode f => Sys2Proof.Machine.execTdnode f s
  | .tdstep f => Sys2Proof.Machine.execTdstep f s
  | .tdgrp f => Sys2Proof.Machine.execTdgrp f s
  | .tdleaf f => Sys2Proof.Machine.execTdleaf f s
  | .tdpath f => Sys2Proof.Machine.execTdpath f s
  | .tdgrad f => Sys2Proof.Machine.execTdgrad f s
  | .skpred f => Sys2Proof.Machine.execSkpred f s
  | .skfetch f => Sys2Proof.Machine.execSkfetch f s
  | .skchk f => Sys2Proof.Machine.execSkchk f s
  | .skrpl f => Sys2Proof.Machine.execSkrpl f s
  | .skstat f => Sys2Proof.Machine.execSkstat f s
  | .rtjob f => Sys2Proof.Machine.execRtjob f s
  | .rtwait f => Sys2Proof.Machine.execRtwait f s
  | .launch f => Sys2Proof.Machine.execLaunch f s
  | .task f => Sys2Proof.Machine.execTask f s
  | .twait f => Sys2Proof.Machine.execTwait f s
  | .evpop f => Sys2Proof.Machine.execEvpop f s
  | .evpush f => Sys2Proof.Machine.execEvpush f s
  | .gid f => Sys2Proof.Machine.execGid f s
  | .srd f => Sys2Proof.Machine.execSrd f s
  | .swr f => Sys2Proof.Machine.execSwr f s
  | .trap f => Sys2Proof.Machine.execTrap f s
  | .eret f => Sys2Proof.Machine.execEret f s
  | .brk f => Sys2Proof.Machine.execBrk f s
  | .tick f => Sys2Proof.Machine.execTick f s
  | .evrec f => Sys2Proof.Machine.execEvrec f s
  | .stage f => Sys2Proof.Machine.execStage f s
  | .xst f => Sys2Proof.Machine.execXst f s
  | .xld f => Sys2Proof.Machine.execXld f s
  | .xatom f => Sys2Proof.Machine.execXatom f s
  | .xdrain f => Sys2Proof.Machine.execXdrain f s
  | .dstop f => Sys2Proof.Machine.execDstop f s
  | .capsSt f => Sys2Proof.Machine.execCapsSt f s
  | .capsSz f => Sys2Proof.Machine.execCapsSz f s
  | .capsGet f => Sys2Proof.Machine.execCapsGet f s
  | .capsAck f => Sys2Proof.Machine.execCapsAck f s
  | .ill low => Sys2Proof.Machine.execIll low s
  | .blockIssue => Sys2Proof.Machine.execBlockIssue s
  | .blockCommit => Sys2Proof.Machine.execBlockCommit s
  | .publicationComplete => Sys2Proof.Machine.execPublicationComplete s
  | .remoteReply => Sys2Proof.Machine.execRemoteReply s
  | .remoteTimeout => Sys2Proof.Machine.execRemoteTimeout s
  | .xstDelivery => Sys2Proof.Machine.execXstDelivery s
  | .ringTokenArrival => Sys2Proof.Machine.execRingTokenArrival s
  | .freedSlotNotice => Sys2Proof.Machine.execFreedSlotNotice s
  | .barrierEvent => Sys2Proof.Machine.execBarrierEvent s
  | .jobDispatch => Sys2Proof.Machine.execJobDispatch s
  | .copyJobComplete => Sys2Proof.Machine.execCopyJobComplete s
  | .tileTaskDispatch => Sys2Proof.Machine.execTileTaskDispatch s
  | .tileTaskArrayEnd => Sys2Proof.Machine.execTileTaskArrayEnd s
  | .tileTaskComplete => Sys2Proof.Machine.execTileTaskComplete s
  | .mzeroComplete => Sys2Proof.Machine.execMzeroComplete s
  | .mrdWritebackComplete => Sys2Proof.Machine.execMrdWritebackComplete s
  | .cpybComplete => Sys2Proof.Machine.execCpybComplete s
  | .tdstepComplete => Sys2Proof.Machine.execTdstepComplete s
  | .tdleafComplete => Sys2Proof.Machine.execTdleafComplete s
  | .skpredComplete => Sys2Proof.Machine.execSkpredComplete s
  | .skfetchComplete => Sys2Proof.Machine.execSkfetchComplete s
  | .skchkComplete => Sys2Proof.Machine.execSkchkComplete s
  | .skrplComplete => Sys2Proof.Machine.execSkrplComplete s
  | .rtjobComplete => Sys2Proof.Machine.execRtjobComplete s
  | .capsGetComplete => Sys2Proof.Machine.execCapsGetComplete s
  | .evpushRecordEntry => Sys2Proof.Machine.execEvpushRecordEntry s
  | .streamNodeFiring => Sys2Proof.Machine.execStreamNodeFiring s
  | .repeatNodeFiring => Sys2Proof.Machine.execRepeatNodeFiring s
  | .bitfieldNodeFiring => Sys2Proof.Machine.execBitfieldNodeFiring s
  | .converterNodeFiring => Sys2Proof.Machine.execConverterNodeFiring s
  | .memoryNodeAccess => Sys2Proof.Machine.execMemoryNodeAccess s
  | .fenceTokenRelease => Sys2Proof.Machine.execFenceTokenRelease s
  | .skiveNodeFiring => Sys2Proof.Machine.execSkiveNodeFiring s
  | .routingNodeFiring => Sys2Proof.Machine.execRoutingNodeFiring s
  | .collectiveContribution => Sys2Proof.Machine.execCollectiveContribution s
  | .kernelLoad => Sys2Proof.Machine.execKernelLoad s
  | .kernelRetire => Sys2Proof.Machine.execKernelRetire s
  | .stageRequest => Sys2Proof.Machine.execStageRequest s
  | .stageSwitchApply => Sys2Proof.Machine.execStageSwitchApply s
  | .lehrResolveWindow => Sys2Proof.Machine.execLehrResolveWindow s
  | .lehrSolutionComplete => Sys2Proof.Machine.execLehrSolutionComplete s
  | .islandMApply => Sys2Proof.Machine.execIslandMApply s
  | .ratioSwitchEnd => Sys2Proof.Machine.execRatioSwitchEnd s
  | .islandIdle => Sys2Proof.Machine.execIslandIdle s
  | .islandPowerGate => Sys2Proof.Machine.execIslandPowerGate s
  | .islandWake => Sys2Proof.Machine.execIslandWake s
  | .boostChange => Sys2Proof.Machine.execBoostChange s
  | .queueTailWrite => Sys2Proof.Machine.execQueueTailWrite s
  | .queueEnable => Sys2Proof.Machine.execQueueEnable s
  | .queueDisable => Sys2Proof.Machine.execQueueDisable s
  | .queueHeadWrite => Sys2Proof.Machine.execQueueHeadWrite s
  | .queueRecordTake => Sys2Proof.Machine.execQueueRecordTake s
  | .quantExpiry => Sys2Proof.Machine.execQuantExpiry s
  | .watchdogSaveRequest => Sys2Proof.Machine.execWatchdogSaveRequest s
  | .watchdogKill => Sys2Proof.Machine.execWatchdogKill s
  | .watchdogFence => Sys2Proof.Machine.execWatchdogFence s
  | .contextOpen => Sys2Proof.Machine.execContextOpen s
  | .contextClose => Sys2Proof.Machine.execContextClose s
  | .contextTeardownDone => Sys2Proof.Machine.execContextTeardownDone s
  | .partitionReset => Sys2Proof.Machine.execPartitionReset s
  | .faultRecordWrite => Sys2Proof.Machine.execFaultRecordWrite s
  | .regionResume => Sys2Proof.Machine.execRegionResume s
  | .regionSave => Sys2Proof.Machine.execRegionSave s
  | .regionKill => Sys2Proof.Machine.execRegionKill s
  | .regionRestore => Sys2Proof.Machine.execRegionRestore s
  | .pageServiceSave => Sys2Proof.Machine.execPageServiceSave s
  | .pageWalkComplete => Sys2Proof.Machine.execPageWalkComplete s
  | .invalPage => Sys2Proof.Machine.execInvalPage s
  | .invalContext => Sys2Proof.Machine.execInvalContext s
  | .evict => Sys2Proof.Machine.execEvict s
  | .hostMemoryWrite => Sys2Proof.Machine.execHostMemoryWrite s
  | .hostTableWrite => Sys2Proof.Machine.execHostTableWrite s
  | .specialRegisterWrite => Sys2Proof.Machine.execSpecialRegisterWrite s
  | .srseedWrite => Sys2Proof.Machine.execSrseedWrite s
  | .msflgClear => Sys2Proof.Machine.execMsflgClear s
  | .reccfgWrite => Sys2Proof.Machine.execReccfgWrite s
  | .pwrcfgWrite => Sys2Proof.Machine.execPwrcfgWrite s
  | .interruptTimeExpiry => Sys2Proof.Machine.execInterruptTimeExpiry s
  | .wsRefreshWindowStart => Sys2Proof.Machine.execWsRefreshWindowStart s
  | .wsRefreshWindowEnd => Sys2Proof.Machine.execWsRefreshWindowEnd s
  | .sensorSample => Sys2Proof.Machine.execSensorSample s
  | .controlWindow => Sys2Proof.Machine.execControlWindow s
  | .busBeatRetry => Sys2Proof.Machine.execBusBeatRetry s
  | .portEnable => Sys2Proof.Machine.execPortEnable s
  | .portTrainingDone => Sys2Proof.Machine.execPortTrainingDone s
  | .flitReceive => Sys2Proof.Machine.execFlitReceive s
  | .portReset => Sys2Proof.Machine.execPortReset s
  | .coldReset => Sys2Proof.Machine.execColdReset s
  | .warmReset => Sys2Proof.Machine.execWarmReset s
  | .lifecycleProvision => Sys2Proof.Machine.execLifecycleProvision s
  | .lifecycleDiagnostic => Sys2Proof.Machine.execLifecycleDiagnostic s
  | .lifecycleRedeploy => Sys2Proof.Machine.execLifecycleRedeploy s
  | .lifecycleDecommission => Sys2Proof.Machine.execLifecycleDecommission s
  | .romBoot => Sys2Proof.Machine.execRomBoot s
  | .recoveryImageWrite => Sys2Proof.Machine.execRecoveryImageWrite s
  | .recorderHorizonStop => Sys2Proof.Machine.execRecorderHorizonStop s
  | .capsuleSeal => Sys2Proof.Machine.execCapsuleSeal s
  | .debugStop => Sys2Proof.Machine.execDebugStop s
  | .debugRelease => Sys2Proof.Machine.execDebugRelease s
  | .remoteHomeAccess => Sys2Proof.Machine.execRemoteHomeAccess s
  | .collectiveFailure => Sys2Proof.Machine.execCollectiveFailure s

end Sys2Proof.Machine
end

