-- ==== Sys2Proof/Machine/Turns.lean ====
section
/-!
DEFINITION. What stands around one step: bringing a strand's block to work, the next instruction of
the block, and the global tick going forward by one (R1), with what runs and what falls due with it.
-/
namespace Sys2Proof.Machine

/-- A strand's block brought to work; when it has none in flight, no block is at work. -/
def State.bring (s : State) (t : StrandId) : State :=
  if s.x.active && s.x.who == t then s
  else
    let s := s.parkX
    match s.fab.flights.find? (·.who == t) with
    | some f =>
      { s with x := f, fab := { s.fab with flights := s.fab.flights.filter (·.who != t) } }
    | none => s

/-- Whether the block at work has an instruction to execute: a raised fault ends it (R53). -/
def Flight.busy (x : Flight) : Bool := x.active && x.fault.isNone && !x.todo.isEmpty

/-- The block at work with its next instruction taken out: its words leave `todo`, and its index is the
one a fault reports (R51, R53). -/
def Flight.advance (x : Flight) (rest : List Word) : Flight :=
  { x with todo := rest, idx := x.nextIdx, nextIdx := x.nextIdx + 1, held := false }

/-- An instruction's words put at the head of the block at work; where no block is at work, one of
strand 0 of the gang at cell 0 of the first fabric island of die 0, 8 lanes wide, with the registers a
launch leaves. -/
def Flight.withWords (x : Flight) (ws : List Word) : Flight :=
  if x.active then { x with todo := ws, fault := none, held := false }
  else
    { Flight.idle with
      active := true, nlanes := 8, nvregs := 64, ntiles := 8, words := ws.length
      r0 := Regs.launch 8, r := Regs.launch 8, granFree := 64, todo := ws, first := ws }

/-- The words of an instruction alone: a second word stands only where the first claims a literal
(R47). -/
def oneInstr : List Word → List Word
  | [] => []
  | w :: rest => if claimsLiteral w then w :: rest.take 1 else [w]

/-! ### What runs with the tick -/

/-- A die's frame counter goes on by the master cycles of one tick (R1, R302). -/
def Die.onTick (d : Die) : Die :=
  let p := d.phase + d.quarters
  if p < 256 then { d with phase := p } else { d with phase := p - 256, frame := d.frame + 1, rises := 0 }

/-- Whether a region waits for the service of a page (R331, R348, R358): a stopped stream, a paused job, or an access
held at its port. -/
def State.inService (s : State) (r : Region) : Bool :=
  (r.nodes.any fun u => u.stuck || u.held)
    || (s.eng.jobs.any fun j => j.rid == r.rid && (j.state == .paused || j.held))
    || ((s.x :: s.fab.flights).any fun x => x.active && x.rid == r.rid && x.held)
    || (s.fab.gangs.any fun g => g.rid == r.rid && g.strands.any (·.fetchHeld))

/-- Whether the watchdog's count of a region runs (R331, R332): not while a request of it is outside the package or a
page of it is in service, while a save other than the watchdog's own runs, or while it is SAVED; after a kill until
the fence. -/
def State.dogRuns (s : State) (r : Region) : Bool :=
  (s.dogSteps r).isSome &&
    (if r.state == .killed then s.fab.gangs.any fun g => g.rid == r.rid && !g.fenced
     else r.state.onChip && !s.inService r && !(s.hub.remote.any fun q => q.rid == r.rid) && (!r.saving || r.dogSave))

/-- A saturating 48-bit count by key raised (R401). -/
def bump48 (l : List (Nat × BitVec 48)) (k n : Nat) : List (Nat × BitVec 48) :=
  if n = 0 then l else (k, BitVec.ofNat 48 (min (2 ^ 48 - 1) (countAt l k + n))) :: l.filter (·.1 != k)

/-- The KTIME counters that run in a tick: load of the stage asked for, fill, steady, and drain, which a pending
switch is for the stage it leaves (R401). -/
def Region.timed (r : Region) : List Nat :=
  match r.state with
  | .loading => [0]
  | .filling => if r.pend then [4 * r.target.val, 4 * r.cur.val + 3] else [4 * r.cur.val + 1]
  | .steady => if r.pend then [4 * r.target.val, 4 * r.cur.val + 3] else [4 * r.cur.val + 2]
  | .draining => [4 * r.cur.val + 3]
  | _ => []

/-- The clock edges of an island in a tick (R301). -/
def State.edgesIn (s : State) (k : IslandKey) : Nat :=
  ((s.die k.die).cycles.filter (hasEdgeAt (s.island k).m)).length

/-- The island cycles of a node in a tick; a unit that stands on no island counts every master cycle (DEDUCED). -/
def State.nodeEdges (s : State) (r : Region) (el : Nat) : Nat :=
  (r.nodeKey el).elim (s.die r.die).cycles.length s.edgesIn

/-- The cycles of the output's producer and consumer in a window, after a tick (R304). -/
def State.windowEdges (s : State) (r : Region) : Nat × Nat :=
  match r.stageOut.bind fun p => s.ringFrom r.rid p.1 p.2 with
  | none => r.winEdges
  | some q => (r.winEdges.1 + s.nodeEdges r (r.ringEnd q.id true).1, r.winEdges.2 + s.nodeEdges r (r.ringEnd q.id false).1)

/-- The counts of a region that run with the tick (R304, R329, R331, R348, R401). -/
def State.regionTick (s : State) (r : Region) : Region :=
  { r with
    dog := if s.dogRuns r then r.dog + 1 else r.dog
    slice := if r.state.live then r.slice + 1 else r.slice
    ran := if r.state.live then r.ran + 1 else r.ran
    winEdges := if r.state.live then s.windowEdges r else r.winEdges
    service := if r.state.onChip && s.inService r then r.service.or (if r.state.live then some s.tick else none) else none
    ktime := r.timed.foldl (fun l k => bump48 l k 1) r.ktime }

/-- Whether a node would fire but for one port: its region and its clock run, its other in ports hold the tokens of a
firing and its other out ports have room for them (R304). -/
def State.wouldFire (s : State) (r : Region) (el p : Nat) (out : Bool) : Bool :=
  s.nodeRuns r el
    && (r.inPorts el).all (fun i => (!out && i == p) || decide (r.tokens el i false ≤ (s.waitingAt r.rid el i).length))
    && (r.outPorts el).all fun o => (out && o == p) || s.roomAt r.rid el o (r.tokens el o true)

/-- The island cycles of a tick in which a node would fire but for one port that is short (R304). How many they are is
free for a strand, and for a node whose interval is longer than a cycle. -/
def State.blockedCycles (s : State) (r : Region) (el p : Nat) (out : Bool) (salt : Nat) : Nat :=
  let n := s.nodeEdges r el
  let some_ := Config.pick s.free salt % (n + 1)
  match elKind el with
  | some .gang | some .gaffer => some_
  | _ => if !s.wouldFire r el p out then 0 else if r.interval el ≤ 1 then n else some_

/-- The stall and starve cycles of a ring in a tick, each with the island that it counts for (R304): the producer's
when FREESEEN is short of a firing, the consumer's when the ring holds fewer tokens than one. -/
structure RingCycles where
  id     : RingId
  stall  : Nat
  starve : Nat
  prod   : Option Nat
  cons   : Option Nat
  deriving DecidableEq, Repr, Inhabited

/-- The cycles that a ring counts in a tick. -/
def State.ringCycles (s : State) (q : Ring) : Option RingCycles :=
  match s.region q.id.rid with
  | none => none
  | some r =>
    if !r.state.live || q.saved then none
    else
      let (u, a) := r.ringEnd q.id true
      let (v, b) := r.ringEnd q.id false
      let key (el : Nat) : Option Nat := (r.nodeKey el).map (·.num.val)
      let stall := if q.freeseen - q.fresv < r.tokens u a true then s.blockedCycles r u a true (2 * ringElem q.id) else 0
      let starve := if q.open_.length < r.tokens v b false then s.blockedCycles r v b false (2 * ringElem q.id + 1) else 0
      some ⟨q.id, stall, starve, key u, key v⟩

/-- A saturating 32-bit count raised. -/
def bump32 (v : BitVec 32) (n : Nat) : BitVec 32 := BitVec.ofNat 32 (min (2 ^ 32 - 1) (v.toNat + n))

/-- The counts of islands raised in a tick: a cycle in which several nodes of an island are blocked counts once
(R401). -/
def bumpIslands (l : List (Nat × BitVec 48)) (cs : List (Option Nat × Nat)) : List (Nat × BitVec 48) :=
  (cs.filterMap (·.1)).eraseDups.foldl (fun l k => bump48 l k (((cs.filter (·.1 == some k)).map (·.2)).foldl max 0)) l

/-- The stall and starve counts of the rings in a tick, and of their ends' islands (R304, R401). -/
def State.ringTicks (s : State) : State :=
  let cs := s.chan.rings.filterMap s.ringCycles
  let s := cs.foldl (fun s c => s.modRing c.id fun q =>
    { q with stall := bump32 q.stall c.stall, starve := bump32 q.starve c.starve }) s
  let count (r : Region) : Region :=
    let mine := cs.filter (·.id.rid == r.rid)
    { r with
      stallI := bumpIslands r.stallI (mine.map fun c => (c.prod, c.stall))
      starveI := bumpIslands r.starveI (mine.map fun c => (c.cons, c.starve)) }
  { s with kern := s.kern.map count }

/-! ### What falls due with the tick -/

/-- The steps of a die that are due: its refresh windows, a change of boost, and at a frame boundary its islands
(R167, R302, R306, R307). -/
def State.dueOfDie (s : State) (d : Fin 4) : List Turn :=
  let x := s.die d
  let frame : List Turn :=
    if !x.boundary then []
    else
      (if x.want == x.boost then [] else [.event .boostChange (.die d)])
        ++ (dieKeys d).filterMap fun k =>
          let m := (s.island k).m
          let w := s.wantM k
          if m == w then none
          else if w == 0 && !s.busyNodes k && !s.otherWork k then some (.event .islandIdle (.island k))
          else some (.event .islandMApply (.island k))
  (x.wsBusy.filterMap fun w => if w.2 ≤ s.tick then some (.event .wsRefreshWindowEnd (.bank d w.1)) else none)
    ++ (if x.wsTick ≤ s.tick then [.event .wsRefreshWindowStart (.bank d x.wsBg)] else [])
    ++ frame

/-- The steps of islands that are due: the ends of ratio switches and wake-ups, and gating (R306, R307). -/
def State.dueOfIsland (s : State) (i : Island) : List Turn :=
  (match i.switch with
   | some (t, _) => if t ≤ s.tick then [.event .ratioSwitchEnd (.island i.key)] else []
   | none => [])
    ++ (match i.waking with
        | some t => if t ≤ s.tick then [.event .islandWake (.island i.key)] else []
        | none => [])
    ++ (match i.idleAt with
        | some t =>
          if i.m == 0 && !i.gated && i.waking.isNone && decide (t + 1200000 ≤ s.tick) && !s.holdsState i.key then
            [.event .islandPowerGate (.island i.key)] else []
        | none => [])

/-- The steps of a region that are due (R290, R304, R329, R332, R346, R348). -/
def State.dueOfRegion (s : State) (r : Region) : List Turn :=
  let n : EvArg := .num r.rid
  let bound := (s.die r.die).boundary
  (match r.solution with
   | some x => if x.due ≤ s.tick then [.event .lehrSolutionComplete n] else []
   | none => [])
    ++ (if r.state.live && decide (r.winAt + 65536 ≤ s.tick) then [.event .lehrResolveWindow n] else [])
    ++ (if bound && r.pend then [.event .stageSwitchApply n] else [])
    ++ (if bound && r.restore then [.event .regionRestore n] else [])
    ++ (if r.state.live && decide (r.quant ≤ r.slice) then [.event .quantExpiry n] else [])
    ++ (if r.service.isSome && !r.saving then [.event .pageServiceSave n] else [])
    ++ (match s.dogSteps r with
        | none => []
        | some (t1, t2, t3) =>
          if r.state == .killed then if t3 ≤ r.dog && s.dogRuns r then [.event .watchdogFence n] else []
          else if !r.state.onChip then []
          else if t2 ≤ r.dog then [.event .watchdogKill n]
          else if t1 ≤ r.dog && !r.dogAsked then [.event .watchdogSaveRequest n] else [])
    ++ (if r.state.live && r.service.any fun t => t + s.rtoOf r.rid ≤ s.tick then
          [.event .remoteTimeout (.service r.rid)] else [])

/-- The hub's own steps that are due: samples, the control window, timeouts, interrupts that wait, and recorders that
a freeze stops (R332, R340, R393, R408, R410). The readings that a sample takes are free. -/
def State.dueOfHub (s : State) : List Turn :=
  let read (d : Fin 4) : List (BitVec 16) :=
    (List.range (dieSensors d).length).map fun k => (Config.freeWord (s.free + 200 * d.val + k)).setWidth 16
  let c := s.dbg.capsule
  (if s.tick % 4096 = 0 then (List.finRange 4).map fun d => Turn.event .sensorSample (.readings d (read d)) else [])
    ++ (if s.tick % 65536 = 0 then [.event .controlWindow .none] else [])
    ++ (s.hub.remote.filterMap fun q =>
          if q.since + s.rtoOf q.rid ≤ s.tick then some (.event .remoteTimeout (.num q.num)) else none)
    ++ (s.hub.xsts.filterMap fun q =>
          if q.since + s.rtoOf q.rid ≤ s.tick then some (.event .xstDelivery (.delivery q.num false)) else none)
    ++ (if s.hub.pages.cmds.isEmpty then [] else [.event .invalPage .none])
    ++ (s.hub.vectors.filterMap fun v =>
          if v.en && v.pend != 0 && v.time != 0 && decide (v.oldest + v.time.toNat * 1200 ≤ s.tick) then
            some (.event .interruptTimeExpiry (.vector v.part v.num)) else none)
    ++ (if c.state == .frozen then
          s.dbg.recorders.filterMap fun r =>
            if r.stopped || decide (s.tick ≤ c.t + max c.h (c.reach r.unit)) then none
            else some (.event .recorderHorizonStop (.unit r.unit))
        else [])

/-- The islands never used since reset, when they are to be gated (R306). -/
def State.dueUnused (s : State) : List Turn :=
  if s.tick < s.clk.since + 1200000 then []
  else
    (((List.finRange 4).flatMap dieKeys).filter fun k => !s.clk.islands.any (·.key == k)).map fun k =>
      .event .islandPowerGate (.island k)

/-- Everything that is due at a tick. -/
def State.due (s : State) : List Turn :=
  s.dueOfHub ++ s.dueUnused ++ (List.finRange 4).flatMap s.dueOfDie ++ s.clk.islands.flatMap s.dueOfIsland
    ++ s.kern.flatMap s.dueOfRegion

/-- The publication of which some stores land during a tick, and how many: free, and none as often as
some (R185, R438). Only a strand's oldest publication with stores under way may land any. -/
def State.landing (s : State) : Option (Nat × Nat) :=
  let heads := s.mem.pubs.filter fun p =>
    !p.cells.isEmpty && !s.mem.pubs.any fun q =>
      q.by_ == p.by_ && decide (q.num < p.num) && !q.cells.isEmpty
  let n := heads.length
  let k := Config.pick s.free 0 % (2 * n + 1)
  (heads[k]?).map fun p => (p.num, Config.pick s.free 1 % (p.cells.length + 1))

/-- The counts that run with the tick. -/
def State.countTick (s : State) : State :=
  let s := s.ringTicks.idleTicks
  { s with kern := s.kern.map s.regionTick, clk := { s.clk with dies := s.clk.dies.map Die.onTick } }

/-- The global tick goes forward by one (R1): the tick that ends writes its fault records; then counts run, stores under
way may land, and what is due at the new tick is next. A debug stop due by then gates the clocks first (R350), and while
it holds the package only the tick itself goes on (R400). -/
def State.onTick (s : State) : State :=
  let s := if s.stopDue then s.gateClocks else if s.dbg.stopped then s else s.endTick.arrivals
  let t := { s with tick := s.tick + 1 }
  if s.dbg.stopped then t
  else
    let t := t.countTick
    let t := match s.landing with
      | some (n, k) => t.landSome k n
      | none => t
    { t with agenda := t.due ++ t.agenda, free := t.free + 1000 }

/-- Whether a debug stop holds a turn back: while every clock is gated only the tick, the release, and resets go on
(R400); in the tick of the stop a save or a kill waits for the release (R350). -/
def State.gates (s : State) (t : Turn) : Bool :=
  match t with
  | .tick | .event .debugRelease _ | .event .coldReset _ | .event .warmReset _ => false
  | .event .regionSave _ | .event .regionKill _ | .event .watchdogKill _ | .event .watchdogSaveRequest _
  | .event .pageServiceSave _ | .event .quantExpiry _ => s.stopDue || s.dbg.stopped
  | _ => s.dbg.stopped

end Sys2Proof.Machine
end

