-- ==== Sys2Proof/Machine/Step.lean ====
section
/-!
DEFINITION. One step of the machine: the agent whose turn it is moves. A strand whose block is in flight
executes the block's next instruction, or commits or aborts it when none is left; a strand with no block
in flight has its sequencer issue one. Other turns run one of the part's own steps, an action of the
outside world, or let the global tick go forward.
-/
namespace Sys2Proof.Machine

/-- The outcome of an instruction, run again later when a page holds its access (R358). -/
def orHeld (s : State) (o : Host.Outcome State Fault Refusal) : Host.Outcome State Fault Refusal :=
  match o with
  | .next s' => if s'.x.held then .next (s.setX { s.x with held := true }) else .next s'
  | o => o

/-- Whether the block's next instruction waits at its own index: not guarded off, and its gate shut (R49, R237, R255,
R271, R333, R383). -/
def State.waits (s : State) (i : Instr) : Bool := s.x.on0 (guardOf i) && !s.gateOn s.x i

/-- The block at work moves: its next instruction, unless its gate is shut, or its commit (R51). -/
def stepBlock (s : State) : Host.Outcome State Fault Refusal :=
  if s.x.busy then
    match decodeHead s.x.todo with
    | some (i, rest) => if s.waits i then .next s else orHeld s (exec i (s.setX (s.x.advance rest)))
    | none => exec .blockCommit s
  else exec .blockCommit s

/-- A turn taken; a turn that a debug stop holds back changes nothing (R400). -/
def take (t : Turn) (s : State) : Host.Outcome State Fault Refusal :=
  if s.gates t then .next s
  else match t with
  | .strand t =>
    let s := s.bring t
    if s.x.active then stepBlock s else exec .blockIssue { s with arg := .seq t.seq }
  | .event i a => exec i { s.parkX with arg := a }
  | .tick => .next s.onTick

/-- One step: the head of the agenda moves, or, when it is empty, whoever the outside and the part's
own timing choose. -/
def step (s : State) : Host.Outcome State Fault Refusal :=
  match s.agenda with
  | t :: rest => take t { s with agenda := rest }
  | [] => take (Config.turn s.free) { s with free := s.free + 1 }

/-- The state with an instruction put where the next step fetches. -/
def State.withFetchWord (s : State) (nbits w : Nat) : State :=
  let x := s.x.withWords (oneInstr (tableWords nbits w))
  { s with x := x, agenda := [.strand x.who] }

end Sys2Proof.Machine
end

