-- ==== Sys2Proof/WellFormed.lean ====
section
/-!
DEFINITION. The well-formed instructions: those whose words the part executes (R58-R65, R75, R76). Each
check has an ill-formed term in Sys2Proof/Tests/Slice0.lean that it refuses.
-/
namespace Sys2Proof

/-- A guard the encoding admits: p15 is not read inverted (R58). -/
def Guard.wf (g : Guard) : Bool := !(g.pred == 15 && g.neg)

/-- The guard of decoded fields. -/
def Body.guard : Body → Guard
  | .v i => i.g
  | .m i => i.g
  | .x i => i.g
  | .t i => i.g
  | .s i => i.g

/-- A well-formed instruction: an instruction with words of its own, ILL aside; its guard is one the
encoding admits; its fields are ones its entry defines (R75); and no field names h31 where the decode
rejects it (R65). -/
def Instr.wf (i : Instr) : Bool :=
  (match i.parts with
   | some (_, b) => b.guard.wf
   | none => false)
  && i.entryOk && !i.ringRejects

end Sys2Proof
end

