-- ==== Sys2Proof/Laws/Encode.lean ====
section
/-!
SUPPORT. The encoder and the decoder agree field by field: the fields of an encoded word, the decode of
each format's word, and the decode of a whole instruction.
-/
namespace Sys2Proof.Laws.Encode

open BitVec

/-! ### Codes -/

theorem guard_ofFields {g : Guard} (h : g.wf = true) : Guard.ofFields g.pred g.negBit = some g := by
  obtain ⟨p, n⟩ := g
  cases n <;> simp_all [Guard.wf, Guard.ofFields, Guard.negBit]

theorem fmt_ofCode (f : Fmt) : Fmt.ofCode f.code = some f := by cases f <;> rfl

theorem space_ofCode (s : Space) : Space.ofCode s.code = some s := by cases s <;> rfl

theorem src_ofFields (s : Src) : Src.ofFields s.fields.1 s.fields.2.1 s.fields.2.2 = some s := by
  cases s <;> simp [Src.fields, Src.ofFields]

theorem dst_ofFields (d : Dst) : Dst.ofFields d.fields.1 d.fields.2 = some d := by
  cases d <;> simp [Dst.fields, Dst.ofFields]

theorem src_isLit (s : Src) : (s.fields.1 == 2) = (s == .lit) := by
  cases s <;> simp [Src.fields]

/-! ### Fields of encoded words -/

theorem encodeX_fields (op : BitVec 9) (i : XInsn) :
    (encodeX op i).extractLsb' 55 9 = op ∧ (encodeX op i).extractLsb' 51 4 = i.g.pred ∧
    (encodeX op i).extractLsb' 50 1 = i.g.negBit ∧ (encodeX op i).extractLsb' 44 6 = i.s1 ∧
    (encodeX op i).extractLsb' 38 6 = i.s2 ∧ (encodeX op i).extractLsb' 36 2 = i.cm ∧
    (encodeX op i).extractLsb' 32 4 = i.aux ∧ (encodeX op i).extractLsb' 0 32 = i.tgt := by
  unfold encodeX
  refine ⟨?_, ?_, ?_, ?_, ?_, ?_, ?_, ?_⟩ <;>
   ((repeat' first
      | rw [extractLsb'_append_eq_of_le (by decide)]
      | rw [extractLsb'_append_eq_of_add_le (by decide)]); exact extractLsb'_eq_self)

theorem encodeS_fields (op : BitVec 9) (i : SInsn) :
    (encodeS op i).extractLsb' 55 9 = op ∧ (encodeS op i).extractLsb' 51 4 = i.g.pred ∧
    (encodeS op i).extractLsb' 50 1 = i.g.negBit ∧ (encodeS op i).extractLsb' 44 6 = i.d ∧
    (encodeS op i).extractLsb' 38 6 = i.a ∧ (encodeS op i).extractLsb' 32 6 = i.b ∧
    (encodeS op i).extractLsb' 27 5 = i.h ∧ (encodeS op i).extractLsb' 21 6 = i.c ∧
    (encodeS op i).extractLsb' 17 4 = i.mod ∧ (encodeS op i).extractLsb' 0 17 = i.imm := by
  unfold encodeS
  refine ⟨?_, ?_, ?_, ?_, ?_, ?_, ?_, ?_, ?_, ?_⟩ <;>
   ((repeat' first
      | rw [extractLsb'_append_eq_of_le (by decide)]
      | rw [extractLsb'_append_eq_of_add_le (by decide)]); exact extractLsb'_eq_self)

theorem encodeT_fields (op : BitVec 9) (i : TInsn) :
    (encodeT op i).extractLsb' 55 9 = op ∧ (encodeT op i).extractLsb' 51 4 = i.g.pred ∧
    (encodeT op i).extractLsb' 50 1 = i.g.negBit ∧ (encodeT op i).extractLsb' 46 4 = i.td ∧
    (encodeT op i).extractLsb' 42 4 = i.ta ∧ (encodeT op i).extractLsb' 38 4 = i.tb ∧
    (encodeT op i).extractLsb' 32 6 = i.sx ∧ (encodeT op i).extractLsb' 26 6 = i.sy ∧
    (encodeT op i).extractLsb' 21 5 = i.fmta.code ∧ (encodeT op i).extractLsb' 16 5 = i.fmtb.code ∧
    (encodeT op i).extractLsb' 12 4 = i.mod ∧ (encodeT op i).extractLsb' 0 12 = i.aux := by
  unfold encodeT
  refine ⟨?_, ?_, ?_, ?_, ?_, ?_, ?_, ?_, ?_, ?_, ?_, ?_⟩ <;>
   ((repeat' first
      | rw [extractLsb'_append_eq_of_le (by decide)]
      | rw [extractLsb'_append_eq_of_add_le (by decide)]); exact extractLsb'_eq_self)

theorem encodeM_fields (op : BitVec 9) (i : MInsn) :
    (encodeM op i).extractLsb' 55 9 = op ∧ (encodeM op i).extractLsb' 51 4 = i.g.pred ∧
    (encodeM op i).extractLsb' 50 1 = i.g.negBit ∧ (encodeM op i).extractLsb' 48 2 = i.d.fields.1 ∧
    (encodeM op i).extractLsb' 42 6 = i.d.fields.2 ∧ (encodeM op i).extractLsb' 36 6 = i.base ∧
    (encodeM op i).extractLsb' 30 6 = i.index ∧ (encodeM op i).extractLsb' 27 3 = i.space.code ∧
    (encodeM op i).extractLsb' 23 4 = i.bh ∧ (encodeM op i).extractLsb' 18 5 = i.fmt.code ∧
    (encodeM op i).extractLsb' 15 3 = i.mod ∧ (encodeM op i).extractLsb' 0 15 = i.off := by
  unfold encodeM
  refine ⟨?_, ?_, ?_, ?_, ?_, ?_, ?_, ?_, ?_, ?_, ?_, ?_⟩ <;>
   ((repeat' first
      | rw [extractLsb'_append_eq_of_le (by decide)]
      | rw [extractLsb'_append_eq_of_add_le (by decide)]); exact extractLsb'_eq_self)

theorem encodeV_guard (op : BitVec 9) (i : VInsn) :
    (encodeV op i).extractLsb' 55 9 = op ∧ (encodeV op i).extractLsb' 51 4 = i.g.pred ∧
    (encodeV op i).extractLsb' 50 1 = i.g.negBit ∧ (encodeV op i).extractLsb' 48 2 = i.d.fields.1 ∧
    (encodeV op i).extractLsb' 42 6 = i.d.fields.2 ∧ (encodeV op i).extractLsb' 5 4 = i.mod ∧
    (encodeV op i).extractLsb' 0 5 = i.fmt.code := by
  unfold encodeV
  refine ⟨?_, ?_, ?_, ?_, ?_, ?_, ?_⟩ <;>
   ((repeat' first
      | rw [extractLsb'_append_eq_of_le (by decide)]
      | rw [extractLsb'_append_eq_of_add_le (by decide)]); exact extractLsb'_eq_self)

theorem encodeV_sources (op : BitVec 9) (i : VInsn) :
    (encodeV op i).extractLsb' 40 2 = i.a.fields.1 ∧ (encodeV op i).extractLsb' 34 6 = i.a.fields.2.1 ∧
    (encodeV op i).extractLsb' 32 2 = i.b.fields.1 ∧ (encodeV op i).extractLsb' 26 6 = i.b.fields.2.1 ∧
    (encodeV op i).extractLsb' 24 2 = i.c.fields.1 ∧ (encodeV op i).extractLsb' 18 6 = i.c.fields.2.1 ∧
    (encodeV op i).extractLsb' 15 3 = i.a.fields.2.2 ∧ (encodeV op i).extractLsb' 12 3 = i.b.fields.2.2 ∧
    (encodeV op i).extractLsb' 9 3 = i.c.fields.2.2 := by
  unfold encodeV
  refine ⟨?_, ?_, ?_, ?_, ?_, ?_, ?_, ?_, ?_⟩ <;>
   ((repeat' first
      | rw [extractLsb'_append_eq_of_le (by decide)]
      | rw [extractLsb'_append_eq_of_add_le (by decide)]); exact extractLsb'_eq_self)

/-! ### One word of each format -/

theorem decodeX_encodeX (op : BitVec 9) {i : XInsn} (h : i.g.wf = true) : decodeX (encodeX op i) = some i := by
  obtain ⟨_, e1, e2, e3, e4, e5, e6, e7⟩ := encodeX_fields op i
  simp [decodeX, e1, e2, e3, e4, e5, e6, e7, guard_ofFields h]

theorem decodeS_encodeS (op : BitVec 9) {i : SInsn} (h : i.g.wf = true) : decodeS (encodeS op i) = some i := by
  obtain ⟨_, e1, e2, e3, e4, e5, e6, e7, e8, e9⟩ := encodeS_fields op i
  simp [decodeS, e1, e2, e3, e4, e5, e6, e7, e8, e9, guard_ofFields h]

theorem decodeT_encodeT (op : BitVec 9) {i : TInsn} (h : i.g.wf = true) : decodeT (encodeT op i) = some i := by
  obtain ⟨_, e1, e2, e3, e4, e5, e6, e7, e8, e9, e10, e11⟩ := encodeT_fields op i
  simp [decodeT, e1, e2, e3, e4, e5, e6, e7, e8, e9, e10, e11, guard_ofFields h, fmt_ofCode]

theorem decodeM_encodeM (op : BitVec 9) {i : MInsn} (h : i.g.wf = true) : decodeM (encodeM op i) = some i := by
  obtain ⟨_, e1, e2, e3, e4, e5, e6, e7, e8, e9, e10, e11⟩ := encodeM_fields op i
  simp [decodeM, e1, e2, e3, e4, e5, e6, e7, e8, e9, e10, e11, guard_ofFields h, fmt_ofCode,
    space_ofCode, dst_ofFields]

theorem decodeV_encodeV (op : BitVec 9) {i : VInsn} (h : i.g.wf = true) :
    decodeV (encodeV op i) i.lit = some i := by
  obtain ⟨_, e1, e2, e3, e4, e5, e6⟩ := encodeV_guard op i
  obtain ⟨f1, f2, f3, f4, f5, f6, f7, f8, f9⟩ := encodeV_sources op i
  simp [decodeV, e1, e2, e3, e4, e5, e6, f1, f2, f3, f4, f5, f6, f7, f8, f9, guard_ofFields h, fmt_ofCode,
    src_ofFields, dst_ofFields]

theorem claims_encodeV (op : BitVec 9) (i : VInsn) :
    claimsLiteralV (encodeV op i) = (i.a == .lit || i.b == .lit || i.c == .lit) := by
  obtain ⟨f1, -, f3, -, f5, -⟩ := encodeV_sources op i
  simp only [claimsLiteralV, f1, f3, f5, src_isLit]

/-! ### Whole instructions -/

/-- A decoded instruction that its entry admits is the one at the head. -/
theorem decodeWord_of {w : Word} {lit : Option Word} {i : Instr} (hd : decodeFields w lit = some i)
    (hi : ∀ l, i ≠ .ill l) (hw : i.wf = true) : decodeWord w lit = .ok i := by
  simp only [Instr.wf, Bool.and_eq_true, Bool.not_eq_true'] at hw
  unfold decodeWord
  rw [hd]
  cases i <;> first | exact absurd rfl (hi _) | simp [hw.1.2, hw.2]

theorem decodeHead_of {w : Word} {rest tail : List Word} {lit : Option Word} {i : Instr}
    (hc : (if claimsLiteral w then (rest.head?, rest.tail) else (none, rest)) = (lit, tail))
    (hd : decodeFields w lit = some i) (hi : ∀ l, i ≠ .ill l) (hw : i.wf = true) :
    decodeHead (w :: rest) = some (i, tail) := by
  have h := decodeWord_of hd hi hw
  simp only [decodeHead, hc, hd, h]
  cases i <;> first | exact absurd rfl (hi _) | rfl

/-- The guard of a well-formed instruction is one the encoding admits. -/
theorem guard_of_wf {i : Instr} {op : BitVec 9} {b : Body} (hp : i.parts = some (op, b)) (hw : i.wf = true) :
    b.guard.wf = true := by
  simp only [Instr.wf, hp, Bool.and_eq_true] at hw
  exact hw.1.1

theorem round_x {i : Instr} {op : BitVec 9} {f : XInsn} (rest : List Word) (hp : i.parts = some (op, .x f))
    (hf : opForm op = some .x) (ho : ofX op f = some i) (hn : op ≠ 0x1ff) (hi : ∀ l, i ≠ .ill l)
    (hw : i.wf = true) : decodeHead (encodeX op f :: rest) = some (i, rest) := by
  have e := (encodeX_fields op f).1
  refine decodeHead_of (lit := none) ?_ ?_ hi hw
  · simp [claimsLiteral, e, hf]
  · simp only [decodeFields, e, if_neg hn, hf, decodeX_encodeX op (guard_of_wf hp hw), Option.bind_some, ho]

theorem round_s {i : Instr} {op : BitVec 9} {f : SInsn} (rest : List Word) (hp : i.parts = some (op, .s f))
    (hf : opForm op = some .s) (ho : i.wf = true → ofS op f = some i) (hn : op ≠ 0x1ff) (hi : ∀ l, i ≠ .ill l)
    (hw : i.wf = true) : decodeHead (encodeS op f :: rest) = some (i, rest) := by
  have e := (encodeS_fields op f).1
  refine decodeHead_of (lit := none) ?_ ?_ hi hw
  · simp [claimsLiteral, e, hf]
  · simp only [decodeFields, e, if_neg hn, hf, decodeS_encodeS op (guard_of_wf hp hw), Option.bind_some, ho hw]

theorem round_t {i : Instr} {op : BitVec 9} {f : TInsn} (rest : List Word) (hp : i.parts = some (op, .t f))
    (hf : opForm op = some .t) (ho : ofT op f = some i) (hn : op ≠ 0x1ff) (hi : ∀ l, i ≠ .ill l)
    (hw : i.wf = true) : decodeHead (encodeT op f :: rest) = some (i, rest) := by
  have e := (encodeT_fields op f).1
  refine decodeHead_of (lit := none) ?_ ?_ hi hw
  · simp [claimsLiteral, e, hf]
  · simp only [decodeFields, e, if_neg hn, hf, decodeT_encodeT op (guard_of_wf hp hw), Option.bind_some, ho]

theorem round_m {i : Instr} {op : BitVec 9} {f : MInsn} (rest : List Word) (hp : i.parts = some (op, .m f))
    (hf : opForm op = some .m) (ho : ofM op f = some i) (hn : op ≠ 0x1ff) (hi : ∀ l, i ≠ .ill l)
    (hw : i.wf = true) : decodeHead (encodeM op f :: rest) = some (i, rest) := by
  have e := (encodeM_fields op f).1
  refine decodeHead_of (lit := none) ?_ ?_ hi hw
  · simp [claimsLiteral, e, hf]
  · simp only [decodeFields, e, if_neg hn, hf, decodeM_encodeM op (guard_of_wf hp hw), Option.bind_some, ho]

/-- The words of a format V instruction: a literal word stands exactly where a source claims it (R47). -/
theorem round_v {i : Instr} {op : BitVec 9} {f : VInsn} (rest : List Word) (hp : i.parts = some (op, .v f))
    (hf : opForm op = some .v) (ho : ofV op f = some i) (hn : op ≠ 0x1ff) (hi : ∀ l, i ≠ .ill l)
    (hs : i.entryOk = true → f.shapeOk = true) (hw : i.wf = true) :
    decodeHead (encodeV op f :: ((match f.lit with | some l => [l] | none => []) ++ rest)) = some (i, rest) := by
  have e := (encodeV_guard op f).1
  have hs' : f.shapeOk = true := hs (by simp only [Instr.wf, Bool.and_eq_true] at hw; exact hw.1.2)
  simp only [VInsn.shapeOk, Bool.and_eq_true, beq_iff_eq] at hs'
  refine decodeHead_of (lit := f.lit) ?_ ?_ hi hw
  · rw [claimsLiteral, e, hf, claims_encodeV, ← hs'.2]
    cases f.lit <;> simp
  · simp only [decodeFields, e, if_neg hn, hf, decodeV_encodeV op (guard_of_wf hp hw), Option.bind_some, ho]

end Sys2Proof.Laws.Encode
end

