-- ==== Sys2Proof/Laws/PerInstr.lean ====
section
/-!
SUPPORT. The per-instruction family RoundTrip: the words of a well-formed instruction decode to it, whatever
words follow, with one lemma per constructor.
-/
set_option Elab.async false

namespace Sys2Proof.Laws.RoundTrip

open Sys2Proof.Laws.Encode

/-- A well-formed instruction has words, and they decode to it whatever words follow (R47, R58-R65). -/
def Statement (i : Instr) : Prop :=
  i.wf = true → ∃ ws, encode i = some ws ∧ ∀ rest, decodeHead (ws ++ rest) = some (i, rest)

/-- A row with no words is not well-formed. -/
theorem of_no_parts {i : Instr} (h : i.parts = none) : Statement i := by
  intro hw; simp [Instr.wf, h] at hw

theorem add (f : VInsn) : Statement (.add f) := fun hw =>
  ⟨_, rfl, fun rest => round_v rest rfl rfl rfl (by decide) (fun _ h => by cases h)
    (fun h => by simp only [Instr.entryOk, Bool.and_eq_true] at h; exact h.1) hw⟩

theorem sub (f : VInsn) : Statement (.sub f) := fun hw =>
  ⟨_, rfl, fun rest => round_v rest rfl rfl rfl (by decide) (fun _ h => by cases h)
    (fun h => by simp only [Instr.entryOk, Bool.and_eq_true] at h; exact h.1) hw⟩

theorem mul (f : VInsn) : Statement (.mul f) := fun hw =>
  ⟨_, rfl, fun rest => round_v rest rfl rfl rfl (by decide) (fun _ h => by cases h)
    (fun h => by simp only [Instr.entryOk, Bool.and_eq_true] at h; exact h.1) hw⟩

theorem mulh (f : VInsn) : Statement (.mulh f) := fun hw =>
  ⟨_, rfl, fun rest => round_v rest rfl rfl rfl (by decide) (fun _ h => by cases h)
    (fun h => by simp only [Instr.entryOk, Bool.and_eq_true] at h; exact h.1) hw⟩

theorem mulhu (f : VInsn) : Statement (.mulhu f) := fun hw =>
  ⟨_, rfl, fun rest => round_v rest rfl rfl rfl (by decide) (fun _ h => by cases h)
    (fun h => by simp only [Instr.entryOk, Bool.and_eq_true] at h; exact h.1) hw⟩

theorem div (f : VInsn) : Statement (.div f) := fun hw =>
  ⟨_, rfl, fun rest => round_v rest rfl rfl rfl (by decide) (fun _ h => by cases h)
    (fun h => by simp only [Instr.entryOk, Bool.and_eq_true] at h; exact h.1) hw⟩

theorem divu (f : VInsn) : Statement (.divu f) := fun hw =>
  ⟨_, rfl, fun rest => round_v rest rfl rfl rfl (by decide) (fun _ h => by cases h)
    (fun h => by simp only [Instr.entryOk, Bool.and_eq_true] at h; exact h.1) hw⟩

theorem rem (f : VInsn) : Statement (.rem f) := fun hw =>
  ⟨_, rfl, fun rest => round_v rest rfl rfl rfl (by decide) (fun _ h => by cases h)
    (fun h => by simp only [Instr.entryOk, Bool.and_eq_true] at h; exact h.1) hw⟩

theorem remu (f : VInsn) : Statement (.remu f) := fun hw =>
  ⟨_, rfl, fun rest => round_v rest rfl rfl rfl (by decide) (fun _ h => by cases h)
    (fun h => by simp only [Instr.entryOk, Bool.and_eq_true] at h; exact h.1) hw⟩

theorem and (f : VInsn) : Statement (.and f) := fun hw =>
  ⟨_, rfl, fun rest => round_v rest rfl rfl rfl (by decide) (fun _ h => by cases h)
    (fun h => by simp only [Instr.entryOk, Bool.and_eq_true] at h; exact h.1) hw⟩

theorem or (f : VInsn) : Statement (.or f) := fun hw =>
  ⟨_, rfl, fun rest => round_v rest rfl rfl rfl (by decide) (fun _ h => by cases h)
    (fun h => by simp only [Instr.entryOk, Bool.and_eq_true] at h; exact h.1) hw⟩

theorem xor (f : VInsn) : Statement (.xor f) := fun hw =>
  ⟨_, rfl, fun rest => round_v rest rfl rfl rfl (by decide) (fun _ h => by cases h)
    (fun h => by simp only [Instr.entryOk, Bool.and_eq_true] at h; exact h.1) hw⟩

theorem andn (f : VInsn) : Statement (.andn f) := fun hw =>
  ⟨_, rfl, fun rest => round_v rest rfl rfl rfl (by decide) (fun _ h => by cases h)
    (fun h => by simp only [Instr.entryOk, Bool.and_eq_true] at h; exact h.1) hw⟩

theorem shl (f : VInsn) : Statement (.shl f) := fun hw =>
  ⟨_, rfl, fun rest => round_v rest rfl rfl rfl (by decide) (fun _ h => by cases h)
    (fun h => by simp only [Instr.entryOk, Bool.and_eq_true] at h; exact h.1) hw⟩

theorem shr (f : VInsn) : Statement (.shr f) := fun hw =>
  ⟨_, rfl, fun rest => round_v rest rfl rfl rfl (by decide) (fun _ h => by cases h)
    (fun h => by simp only [Instr.entryOk, Bool.and_eq_true] at h; exact h.1) hw⟩

theorem sar (f : VInsn) : Statement (.sar f) := fun hw =>
  ⟨_, rfl, fun rest => round_v rest rfl rfl rfl (by decide) (fun _ h => by cases h)
    (fun h => by simp only [Instr.entryOk, Bool.and_eq_true] at h; exact h.1) hw⟩

theorem rol (f : VInsn) : Statement (.rol f) := fun hw =>
  ⟨_, rfl, fun rest => round_v rest rfl rfl rfl (by decide) (fun _ h => by cases h)
    (fun h => by simp only [Instr.entryOk, Bool.and_eq_true] at h; exact h.1) hw⟩

theorem ror (f : VInsn) : Statement (.ror f) := fun hw =>
  ⟨_, rfl, fun rest => round_v rest rfl rfl rfl (by decide) (fun _ h => by cases h)
    (fun h => by simp only [Instr.entryOk, Bool.and_eq_true] at h; exact h.1) hw⟩

theorem min (f : VInsn) : Statement (.min f) := fun hw =>
  ⟨_, rfl, fun rest => round_v rest rfl rfl rfl (by decide) (fun _ h => by cases h)
    (fun h => by simp only [Instr.entryOk, Bool.and_eq_true] at h; exact h.1) hw⟩

theorem max (f : VInsn) : Statement (.max f) := fun hw =>
  ⟨_, rfl, fun rest => round_v rest rfl rfl rfl (by decide) (fun _ h => by cases h)
    (fun h => by simp only [Instr.entryOk, Bool.and_eq_true] at h; exact h.1) hw⟩

theorem minu (f : VInsn) : Statement (.minu f) := fun hw =>
  ⟨_, rfl, fun rest => round_v rest rfl rfl rfl (by decide) (fun _ h => by cases h)
    (fun h => by simp only [Instr.entryOk, Bool.and_eq_true] at h; exact h.1) hw⟩

theorem maxu (f : VInsn) : Statement (.maxu f) := fun hw =>
  ⟨_, rfl, fun rest => round_v rest rfl rfl rfl (by decide) (fun _ h => by cases h)
    (fun h => by simp only [Instr.entryOk, Bool.and_eq_true] at h; exact h.1) hw⟩

theorem abs (f : VInsn) : Statement (.abs f) := fun hw =>
  ⟨_, rfl, fun rest => round_v rest rfl rfl rfl (by decide) (fun _ h => by cases h)
    (fun h => by simp only [Instr.entryOk, Bool.and_eq_true] at h; exact h.1) hw⟩

theorem neg (f : VInsn) : Statement (.neg f) := fun hw =>
  ⟨_, rfl, fun rest => round_v rest rfl rfl rfl (by decide) (fun _ h => by cases h)
    (fun h => by simp only [Instr.entryOk, Bool.and_eq_true] at h; exact h.1) hw⟩

theorem clz (f : VInsn) : Statement (.clz f) := fun hw =>
  ⟨_, rfl, fun rest => round_v rest rfl rfl rfl (by decide) (fun _ h => by cases h)
    (fun h => by simp only [Instr.entryOk, Bool.and_eq_true] at h; exact h.1) hw⟩

theorem ctz (f : VInsn) : Statement (.ctz f) := fun hw =>
  ⟨_, rfl, fun rest => round_v rest rfl rfl rfl (by decide) (fun _ h => by cases h)
    (fun h => by simp only [Instr.entryOk, Bool.and_eq_true] at h; exact h.1) hw⟩

theorem popc (f : VInsn) : Statement (.popc f) := fun hw =>
  ⟨_, rfl, fun rest => round_v rest rfl rfl rfl (by decide) (fun _ h => by cases h)
    (fun h => by simp only [Instr.entryOk, Bool.and_eq_true] at h; exact h.1) hw⟩

theorem brev (f : VInsn) : Statement (.brev f) := fun hw =>
  ⟨_, rfl, fun rest => round_v rest rfl rfl rfl (by decide) (fun _ h => by cases h)
    (fun h => by simp only [Instr.entryOk, Bool.and_eq_true] at h; exact h.1) hw⟩

theorem bswap (f : VInsn) : Statement (.bswap f) := fun hw =>
  ⟨_, rfl, fun rest => round_v rest rfl rfl rfl (by decide) (fun _ h => by cases h)
    (fun h => by simp only [Instr.entryOk, Bool.and_eq_true] at h; exact h.1) hw⟩

theorem sext (f : VInsn) : Statement (.sext f) := fun hw =>
  ⟨_, rfl, fun rest => round_v rest rfl rfl rfl (by decide) (fun _ h => by cases h)
    (fun h => by simp only [Instr.entryOk, Bool.and_eq_true] at h; exact h.1) hw⟩

theorem zext (f : VInsn) : Statement (.zext f) := fun hw =>
  ⟨_, rfl, fun rest => round_v rest rfl rfl rfl (by decide) (fun _ h => by cases h)
    (fun h => by simp only [Instr.entryOk, Bool.and_eq_true] at h; exact h.1) hw⟩

theorem bfx (f : VInsn) : Statement (.bfx f) := fun hw =>
  ⟨_, rfl, fun rest => round_v rest rfl rfl rfl (by decide) (fun _ h => by cases h)
    (fun h => by simp only [Instr.entryOk, Bool.and_eq_true] at h; exact h.1) hw⟩

theorem bfxu (f : VInsn) : Statement (.bfxu f) := fun hw =>
  ⟨_, rfl, fun rest => round_v rest rfl rfl rfl (by decide) (fun _ h => by cases h)
    (fun h => by simp only [Instr.entryOk, Bool.and_eq_true] at h; exact h.1) hw⟩

theorem bfi (f : VInsn) : Statement (.bfi f) := fun hw =>
  ⟨_, rfl, fun rest => round_v rest rfl rfl rfl (by decide) (fun _ h => by cases h)
    (fun h => by simp only [Instr.entryOk, Bool.and_eq_true] at h; exact h.1.1) hw⟩

theorem mad (f : VInsn) : Statement (.mad f) := fun hw =>
  ⟨_, rfl, fun rest => round_v rest rfl rfl rfl (by decide) (fun _ h => by cases h)
    (fun h => by simp only [Instr.entryOk, Bool.and_eq_true] at h; exact h.1) hw⟩

theorem addx (f : VInsn) : Statement (.addx f) := fun hw =>
  ⟨_, rfl, fun rest => round_v rest rfl rfl rfl (by decide) (fun _ h => by cases h)
    (fun h => by simp only [Instr.entryOk, Bool.and_eq_true] at h; exact h.1.1.1.1.1.1) hw⟩

theorem sel (f : VInsn) : Statement (.sel f) := fun hw =>
  ⟨_, rfl, fun rest => round_v rest rfl rfl rfl (by decide) (fun _ h => by cases h)
    (fun h => by simp only [Instr.entryOk, Bool.and_eq_true] at h; exact h.1.1.1.1.1.1) hw⟩

theorem mov (f : VInsn) : Statement (.mov f) := fun hw =>
  ⟨_, rfl, fun rest => round_v rest rfl rfl rfl (by decide) (fun _ h => by cases h)
    (fun h => by simp only [Instr.entryOk, Bool.and_eq_true] at h; exact h.1.1.1.1.1) hw⟩

theorem movl (f : VInsn) : Statement (.movl f) := fun hw =>
  ⟨_, rfl, fun rest => round_v rest rfl rfl rfl (by decide) (fun _ h => by cases h)
    (fun h => by simp only [Instr.entryOk, Bool.and_eq_true] at h; exact h.1.1.1.1.1.1) hw⟩

theorem cmp (f : VInsn) : Statement (.cmp f) := fun hw =>
  ⟨_, rfl, fun rest => round_v rest rfl rfl rfl (by decide) (fun _ h => by cases h)
    (fun h => by simp only [Instr.entryOk, Bool.and_eq_true] at h; exact h.1) hw⟩

theorem cmpu (f : VInsn) : Statement (.cmpu f) := fun hw =>
  ⟨_, rfl, fun rest => round_v rest rfl rfl rfl (by decide) (fun _ h => by cases h)
    (fun h => by simp only [Instr.entryOk, Bool.and_eq_true] at h; exact h.1) hw⟩

theorem pand (f : VInsn) : Statement (.pand f) := fun hw =>
  ⟨_, rfl, fun rest => round_v rest rfl rfl rfl (by decide) (fun _ h => by cases h)
    (fun h => by simp only [Instr.entryOk, Bool.and_eq_true] at h; exact h.1) hw⟩

theorem por (f : VInsn) : Statement (.por f) := fun hw =>
  ⟨_, rfl, fun rest => round_v rest rfl rfl rfl (by decide) (fun _ h => by cases h)
    (fun h => by simp only [Instr.entryOk, Bool.and_eq_true] at h; exact h.1) hw⟩

theorem pxor (f : VInsn) : Statement (.pxor f) := fun hw =>
  ⟨_, rfl, fun rest => round_v rest rfl rfl rfl (by decide) (fun _ h => by cases h)
    (fun h => by simp only [Instr.entryOk, Bool.and_eq_true] at h; exact h.1) hw⟩

theorem pnot (f : VInsn) : Statement (.pnot f) := fun hw =>
  ⟨_, rfl, fun rest => round_v rest rfl rfl rfl (by decide) (fun _ h => by cases h)
    (fun h => by simp only [Instr.entryOk, Bool.and_eq_true] at h; exact h.1.1) hw⟩

theorem pmov (f : VInsn) : Statement (.pmov f) := fun hw =>
  ⟨_, rfl, fun rest => round_v rest rfl rfl rfl (by decide) (fun _ h => by cases h)
    (fun h => by simp only [Instr.entryOk, Bool.and_eq_true] at h; exact h.1) hw⟩

theorem br (f : XInsn) : Statement (.br f) := fun hw =>
  ⟨_, rfl, fun rest => round_x rest rfl rfl rfl (by decide) (fun _ h => by cases h) hw⟩

theorem brc (f : XInsn) : Statement (.brc f) := fun hw =>
  ⟨_, rfl, fun rest => round_x rest rfl rfl rfl (by decide) (fun _ h => by cases h) hw⟩

theorem call (f : XInsn) : Statement (.call f) := fun hw =>
  ⟨_, rfl, fun rest => round_x rest rfl rfl rfl (by decide) (fun _ h => by cases h) hw⟩

theorem ret (f : XInsn) : Statement (.ret f) := fun hw =>
  ⟨_, rfl, fun rest => round_x rest rfl rfl rfl (by decide) (fun _ h => by cases h) hw⟩

theorem jmpi (f : XInsn) : Statement (.jmpi f) := fun hw =>
  ⟨_, rfl, fun rest => round_x rest rfl rfl rfl (by decide) (fun _ h => by cases h) hw⟩

theorem loop (f : XInsn) : Statement (.loop f) := fun hw =>
  ⟨_, rfl, fun rest => round_x rest rfl rfl rfl (by decide) (fun _ h => by cases h) hw⟩

theorem loopx (f : XInsn) : Statement (.loopx f) := fun hw =>
  ⟨_, rfl, fun rest => round_x rest rfl rfl rfl (by decide) (fun _ h => by cases h) hw⟩

theorem endStrand (f : XInsn) : Statement (.endStrand f) := fun hw =>
  ⟨_, rfl, fun rest => round_x rest rfl rfl rfl (by decide) (fun _ h => by cases h) hw⟩

theorem yield (f : XInsn) : Statement (.yield f) := fun hw =>
  ⟨_, rfl, fun rest => round_x rest rfl rfl rfl (by decide) (fun _ h => by cases h) hw⟩

theorem nop (f : XInsn) : Statement (.nop f) := fun hw =>
  ⟨_, rfl, fun rest => round_x rest rfl rfl rfl (by decide) (fun _ h => by cases h) hw⟩

theorem vadd (f : VInsn) : Statement (.vadd f) := fun hw =>
  ⟨_, rfl, fun rest => round_v rest rfl rfl rfl (by decide) (fun _ h => by cases h)
    (fun h => by simp only [Instr.entryOk, Bool.and_eq_true] at h; exact h.1) hw⟩

theorem vsub (f : VInsn) : Statement (.vsub f) := fun hw =>
  ⟨_, rfl, fun rest => round_v rest rfl rfl rfl (by decide) (fun _ h => by cases h)
    (fun h => by simp only [Instr.entryOk, Bool.and_eq_true] at h; exact h.1) hw⟩

theorem vmul (f : VInsn) : Statement (.vmul f) := fun hw =>
  ⟨_, rfl, fun rest => round_v rest rfl rfl rfl (by decide) (fun _ h => by cases h)
    (fun h => by simp only [Instr.entryOk, Bool.and_eq_true] at h; exact h.1) hw⟩

theorem vfma (f : VInsn) : Statement (.vfma f) := fun hw =>
  ⟨_, rfl, fun rest => round_v rest rfl rfl rfl (by decide) (fun _ h => by cases h)
    (fun h => by simp only [Instr.entryOk, Bool.and_eq_true] at h; exact h.1) hw⟩

theorem vfms (f : VInsn) : Statement (.vfms f) := fun hw =>
  ⟨_, rfl, fun rest => round_v rest rfl rfl rfl (by decide) (fun _ h => by cases h)
    (fun h => by simp only [Instr.entryOk, Bool.and_eq_true] at h; exact h.1) hw⟩

theorem vfnma (f : VInsn) : Statement (.vfnma f) := fun hw =>
  ⟨_, rfl, fun rest => round_v rest rfl rfl rfl (by decide) (fun _ h => by cases h)
    (fun h => by simp only [Instr.entryOk, Bool.and_eq_true] at h; exact h.1) hw⟩

theorem vmin (f : VInsn) : Statement (.vmin f) := fun hw =>
  ⟨_, rfl, fun rest => round_v rest rfl rfl rfl (by decide) (fun _ h => by cases h)
    (fun h => by simp only [Instr.entryOk, Bool.and_eq_true] at h; exact h.1.1.1) hw⟩

theorem vmax (f : VInsn) : Statement (.vmax f) := fun hw =>
  ⟨_, rfl, fun rest => round_v rest rfl rfl rfl (by decide) (fun _ h => by cases h)
    (fun h => by simp only [Instr.entryOk, Bool.and_eq_true] at h; exact h.1.1.1) hw⟩

theorem vabs (f : VInsn) : Statement (.vabs f) := fun hw =>
  ⟨_, rfl, fun rest => round_v rest rfl rfl rfl (by decide) (fun _ h => by cases h)
    (fun h => by simp only [Instr.entryOk, Bool.and_eq_true] at h; exact h.1) hw⟩

theorem vneg (f : VInsn) : Statement (.vneg f) := fun hw =>
  ⟨_, rfl, fun rest => round_v rest rfl rfl rfl (by decide) (fun _ h => by cases h)
    (fun h => by simp only [Instr.entryOk, Bool.and_eq_true] at h; exact h.1) hw⟩

theorem vcpys (f : VInsn) : Statement (.vcpys f) := fun hw =>
  ⟨_, rfl, fun rest => round_v rest rfl rfl rfl (by decide) (fun _ h => by cases h)
    (fun h => by simp only [Instr.entryOk, Bool.and_eq_true] at h; exact h.1) hw⟩

theorem vcmp (f : VInsn) : Statement (.vcmp f) := fun hw =>
  ⟨_, rfl, fun rest => round_v rest rfl rfl rfl (by decide) (fun _ h => by cases h)
    (fun h => by simp only [Instr.entryOk, Bool.and_eq_true] at h; exact h.1.1.1.1) hw⟩

theorem vsel (f : VInsn) : Statement (.vsel f) := fun hw =>
  ⟨_, rfl, fun rest => round_v rest rfl rfl rfl (by decide) (fun _ h => by cases h)
    (fun h => by simp only [Instr.entryOk, Bool.and_eq_true] at h; exact h.1.1.1.1) hw⟩

theorem vclass (f : VInsn) : Statement (.vclass f) := fun hw =>
  ⟨_, rfl, fun rest => round_v rest rfl rfl rfl (by decide) (fun _ h => by cases h)
    (fun h => by simp only [Instr.entryOk, Bool.and_eq_true] at h; exact h.1.1.1.1) hw⟩

theorem vrint (f : VInsn) : Statement (.vrint f) := fun hw =>
  ⟨_, rfl, fun rest => round_v rest rfl rfl rfl (by decide) (fun _ h => by cases h)
    (fun h => by simp only [Instr.entryOk, Bool.and_eq_true] at h; exact h.1.1.1) hw⟩

theorem vrcp (f : VInsn) : Statement (.vrcp f) := fun hw =>
  ⟨_, rfl, fun rest => round_v rest rfl rfl rfl (by decide) (fun _ h => by cases h)
    (fun h => by simp only [Instr.entryOk, Bool.and_eq_true] at h; exact h.1) hw⟩

theorem vrsq (f : VInsn) : Statement (.vrsq f) := fun hw =>
  ⟨_, rfl, fun rest => round_v rest rfl rfl rfl (by decide) (fun _ h => by cases h)
    (fun h => by simp only [Instr.entryOk, Bool.and_eq_true] at h; exact h.1) hw⟩

theorem vrcpn (f : VInsn) : Statement (.vrcpn f) := fun hw =>
  ⟨_, rfl, fun rest => round_v rest rfl rfl rfl (by decide) (fun _ h => by cases h)
    (fun h => by simp only [Instr.entryOk, Bool.and_eq_true] at h; exact h.1) hw⟩

theorem vrsqn (f : VInsn) : Statement (.vrsqn f) := fun hw =>
  ⟨_, rfl, fun rest => round_v rest rfl rfl rfl (by decide) (fun _ h => by cases h)
    (fun h => by simp only [Instr.entryOk, Bool.and_eq_true] at h; exact h.1) hw⟩

theorem vexp2 (f : VInsn) : Statement (.vexp2 f) := fun hw =>
  ⟨_, rfl, fun rest => round_v rest rfl rfl rfl (by decide) (fun _ h => by cases h)
    (fun h => by simp only [Instr.entryOk, Bool.and_eq_true] at h; exact h.1) hw⟩

theorem vlog2 (f : VInsn) : Statement (.vlog2 f) := fun hw =>
  ⟨_, rfl, fun rest => round_v rest rfl rfl rfl (by decide) (fun _ h => by cases h)
    (fun h => by simp only [Instr.entryOk, Bool.and_eq_true] at h; exact h.1) hw⟩

theorem vsin (f : VInsn) : Statement (.vsin f) := fun hw =>
  ⟨_, rfl, fun rest => round_v rest rfl rfl rfl (by decide) (fun _ h => by cases h)
    (fun h => by simp only [Instr.entryOk, Bool.and_eq_true] at h; exact h.1) hw⟩

theorem vcos (f : VInsn) : Statement (.vcos f) := fun hw =>
  ⟨_, rfl, fun rest => round_v rest rfl rfl rfl (by decide) (fun _ h => by cases h)
    (fun h => by simp only [Instr.entryOk, Bool.and_eq_true] at h; exact h.1) hw⟩

theorem vtanh (f : VInsn) : Statement (.vtanh f) := fun hw =>
  ⟨_, rfl, fun rest => round_v rest rfl rfl rfl (by decide) (fun _ h => by cases h)
    (fun h => by simp only [Instr.entryOk, Bool.and_eq_true] at h; exact h.1) hw⟩

theorem vdiv (f : VInsn) : Statement (.vdiv f) := fun hw =>
  ⟨_, rfl, fun rest => round_v rest rfl rfl rfl (by decide) (fun _ h => by cases h)
    (fun h => by simp only [Instr.entryOk, Bool.and_eq_true] at h; exact h.1) hw⟩

theorem vsqrt (f : VInsn) : Statement (.vsqrt f) := fun hw =>
  ⟨_, rfl, fun rest => round_v rest rfl rfl rfl (by decide) (fun _ h => by cases h)
    (fun h => by simp only [Instr.entryOk, Bool.and_eq_true] at h; exact h.1) hw⟩

theorem vcvt (f : VInsn) : Statement (.vcvt f) := fun hw =>
  ⟨_, rfl, fun rest => round_v rest rfl rfl rfl (by decide) (fun _ h => by cases h)
    (fun h => by simp only [Instr.entryOk, Bool.and_eq_true] at h; exact h.1.1.1.1.1.1) hw⟩

theorem vscale (f : VInsn) : Statement (.vscale f) := fun hw =>
  ⟨_, rfl, fun rest => round_v rest rfl rfl rfl (by decide) (fun _ h => by cases h)
    (fun h => by simp only [Instr.entryOk, Bool.and_eq_true] at h; exact h.1.1) hw⟩

theorem vmxq (f : VInsn) : Statement (.vmxq f) := fun hw =>
  ⟨_, rfl, fun rest => round_v rest rfl rfl rfl (by decide) (fun _ h => by cases h)
    (fun h => by simp only [Instr.entryOk, Bool.and_eq_true] at h; exact h.1.1.1.1.1.1) hw⟩

theorem vmxdq (f : VInsn) : Statement (.vmxdq f) := fun hw =>
  ⟨_, rfl, fun rest => round_v rest rfl rfl rfl (by decide) (fun _ h => by cases h)
    (fun h => by simp only [Instr.entryOk, Bool.and_eq_true] at h; exact h.1.1.1.1.1.1.1) hw⟩

theorem vdot (f : VInsn) : Statement (.vdot f) := fun hw =>
  ⟨_, rfl, fun rest => round_v rest rfl rfl rfl (by decide) (fun _ h => by cases h)
    (fun h => by simp only [Instr.entryOk, Bool.and_eq_true] at h; exact h.1.1.1) hw⟩

theorem vredf (f : VInsn) : Statement (.vredf f) := fun hw =>
  ⟨_, rfl, fun rest => round_v rest rfl rfl rfl (by decide) (fun _ h => by cases h)
    (fun h => by simp only [Instr.entryOk, Bool.and_eq_true] at h; exact h.1.1.1.1.1.1) hw⟩

theorem viadd (f : VInsn) : Statement (.viadd f) := fun hw =>
  ⟨_, rfl, fun rest => round_v rest rfl rfl rfl (by decide) (fun _ h => by cases h)
    (fun h => by simp only [Instr.entryOk, Bool.and_eq_true] at h; exact h.1) hw⟩

theorem visub (f : VInsn) : Statement (.visub f) := fun hw =>
  ⟨_, rfl, fun rest => round_v rest rfl rfl rfl (by decide) (fun _ h => by cases h)
    (fun h => by simp only [Instr.entryOk, Bool.and_eq_true] at h; exact h.1) hw⟩

theorem vimul (f : VInsn) : Statement (.vimul f) := fun hw =>
  ⟨_, rfl, fun rest => round_v rest rfl rfl rfl (by decide) (fun _ h => by cases h)
    (fun h => by simp only [Instr.entryOk, Bool.and_eq_true] at h; exact h.1) hw⟩

theorem vimad (f : VInsn) : Statement (.vimad f) := fun hw =>
  ⟨_, rfl, fun rest => round_v rest rfl rfl rfl (by decide) (fun _ h => by cases h)
    (fun h => by simp only [Instr.entryOk, Bool.and_eq_true] at h; exact h.1) hw⟩

theorem vimin (f : VInsn) : Statement (.vimin f) := fun hw =>
  ⟨_, rfl, fun rest => round_v rest rfl rfl rfl (by decide) (fun _ h => by cases h)
    (fun h => by simp only [Instr.entryOk, Bool.and_eq_true] at h; exact h.1) hw⟩

theorem vimax (f : VInsn) : Statement (.vimax f) := fun hw =>
  ⟨_, rfl, fun rest => round_v rest rfl rfl rfl (by decide) (fun _ h => by cases h)
    (fun h => by simp only [Instr.entryOk, Bool.and_eq_true] at h; exact h.1) hw⟩

theorem viminu (f : VInsn) : Statement (.viminu f) := fun hw =>
  ⟨_, rfl, fun rest => round_v rest rfl rfl rfl (by decide) (fun _ h => by cases h)
    (fun h => by simp only [Instr.entryOk, Bool.and_eq_true] at h; exact h.1) hw⟩

theorem vimaxu (f : VInsn) : Statement (.vimaxu f) := fun hw =>
  ⟨_, rfl, fun rest => round_v rest rfl rfl rfl (by decide) (fun _ h => by cases h)
    (fun h => by simp only [Instr.entryOk, Bool.and_eq_true] at h; exact h.1) hw⟩

theorem vand (f : VInsn) : Statement (.vand f) := fun hw =>
  ⟨_, rfl, fun rest => round_v rest rfl rfl rfl (by decide) (fun _ h => by cases h)
    (fun h => by simp only [Instr.entryOk, Bool.and_eq_true] at h; exact h.1) hw⟩

theorem vor (f : VInsn) : Statement (.vor f) := fun hw =>
  ⟨_, rfl, fun rest => round_v rest rfl rfl rfl (by decide) (fun _ h => by cases h)
    (fun h => by simp only [Instr.entryOk, Bool.and_eq_true] at h; exact h.1) hw⟩

theorem vxor (f : VInsn) : Statement (.vxor f) := fun hw =>
  ⟨_, rfl, fun rest => round_v rest rfl rfl rfl (by decide) (fun _ h => by cases h)
    (fun h => by simp only [Instr.entryOk, Bool.and_eq_true] at h; exact h.1) hw⟩

theorem vshl (f : VInsn) : Statement (.vshl f) := fun hw =>
  ⟨_, rfl, fun rest => round_v rest rfl rfl rfl (by decide) (fun _ h => by cases h)
    (fun h => by simp only [Instr.entryOk, Bool.and_eq_true] at h; exact h.1) hw⟩

theorem vshr (f : VInsn) : Statement (.vshr f) := fun hw =>
  ⟨_, rfl, fun rest => round_v rest rfl rfl rfl (by decide) (fun _ h => by cases h)
    (fun h => by simp only [Instr.entryOk, Bool.and_eq_true] at h; exact h.1) hw⟩

theorem vsar (f : VInsn) : Statement (.vsar f) := fun hw =>
  ⟨_, rfl, fun rest => round_v rest rfl rfl rfl (by decide) (fun _ h => by cases h)
    (fun h => by simp only [Instr.entryOk, Bool.and_eq_true] at h; exact h.1) hw⟩

theorem vpopc (f : VInsn) : Statement (.vpopc f) := fun hw =>
  ⟨_, rfl, fun rest => round_v rest rfl rfl rfl (by decide) (fun _ h => by cases h)
    (fun h => by simp only [Instr.entryOk, Bool.and_eq_true] at h; exact h.1) hw⟩

theorem vclz (f : VInsn) : Statement (.vclz f) := fun hw =>
  ⟨_, rfl, fun rest => round_v rest rfl rfl rfl (by decide) (fun _ h => by cases h)
    (fun h => by simp only [Instr.entryOk, Bool.and_eq_true] at h; exact h.1) hw⟩

theorem vbfx (f : VInsn) : Statement (.vbfx f) := fun hw =>
  ⟨_, rfl, fun rest => round_v rest rfl rfl rfl (by decide) (fun _ h => by cases h)
    (fun h => by simp only [Instr.entryOk, Bool.and_eq_true] at h; exact h.1) hw⟩

theorem vbfi (f : VInsn) : Statement (.vbfi f) := fun hw =>
  ⟨_, rfl, fun rest => round_v rest rfl rfl rfl (by decide) (fun _ h => by cases h)
    (fun h => by simp only [Instr.entryOk, Bool.and_eq_true] at h; exact h.1.1) hw⟩

theorem vicmp (f : VInsn) : Statement (.vicmp f) := fun hw =>
  ⟨_, rfl, fun rest => round_v rest rfl rfl rfl (by decide) (fun _ h => by cases h)
    (fun h => by simp only [Instr.entryOk, Bool.and_eq_true] at h; exact h.1.1.1.1) hw⟩

theorem vsadd (f : VInsn) : Statement (.vsadd f) := fun hw =>
  ⟨_, rfl, fun rest => round_v rest rfl rfl rfl (by decide) (fun _ h => by cases h)
    (fun h => by simp only [Instr.entryOk, Bool.and_eq_true] at h; exact h.1) hw⟩

theorem vssub (f : VInsn) : Statement (.vssub f) := fun hw =>
  ⟨_, rfl, fun rest => round_v rest rfl rfl rfl (by decide) (fun _ h => by cases h)
    (fun h => by simp only [Instr.entryOk, Bool.and_eq_true] at h; exact h.1) hw⟩

theorem vmov (f : VInsn) : Statement (.vmov f) := fun hw =>
  ⟨_, rfl, fun rest => round_v rest rfl rfl rfl (by decide) (fun _ h => by cases h)
    (fun h => by simp only [Instr.entryOk, Bool.and_eq_true] at h; exact h.1.1.1) hw⟩

theorem vbcast (f : VInsn) : Statement (.vbcast f) := fun hw =>
  ⟨_, rfl, fun rest => round_v rest rfl rfl rfl (by decide) (fun _ h => by cases h)
    (fun h => by simp only [Instr.entryOk, Bool.and_eq_true] at h; exact h.1.1.1.1) hw⟩

theorem vextr (f : VInsn) : Statement (.vextr f) := fun hw =>
  ⟨_, rfl, fun rest => round_v rest rfl rfl rfl (by decide) (fun _ h => by cases h)
    (fun h => by simp only [Instr.entryOk, Bool.and_eq_true] at h; exact h.1.1.1.1.1.1) hw⟩

theorem vshuf (f : VInsn) : Statement (.vshuf f) := fun hw =>
  ⟨_, rfl, fun rest => round_v rest rfl rfl rfl (by decide) (fun _ h => by cases h)
    (fun h => by simp only [Instr.entryOk, Bool.and_eq_true] at h; exact h.1.1.1) hw⟩

theorem vslide (f : VInsn) : Statement (.vslide f) := fun hw =>
  ⟨_, rfl, fun rest => round_v rest rfl rfl rfl (by decide) (fun _ h => by cases h)
    (fun h => by simp only [Instr.entryOk, Bool.and_eq_true] at h; exact h.1.1.1.1) hw⟩

theorem vpack (f : VInsn) : Statement (.vpack f) := fun hw =>
  ⟨_, rfl, fun rest => round_v rest rfl rfl rfl (by decide) (fun _ h => by cases h)
    (fun h => by simp only [Instr.entryOk, Bool.and_eq_true] at h; exact h.1.1.1.1.1.1.1) hw⟩

theorem vunpk (f : VInsn) : Statement (.vunpk f) := fun hw =>
  ⟨_, rfl, fun rest => round_v rest rfl rfl rfl (by decide) (fun _ h => by cases h)
    (fun h => by simp only [Instr.entryOk, Bool.and_eq_true] at h; exact h.1.1.1.1.1.1) hw⟩

theorem vscan (f : VInsn) : Statement (.vscan f) := fun hw =>
  ⟨_, rfl, fun rest => round_v rest rfl rfl rfl (by decide) (fun _ h => by cases h)
    (fun h => by simp only [Instr.entryOk, Bool.and_eq_true] at h; exact h.1.1.1) hw⟩

theorem vredi (f : VInsn) : Statement (.vredi f) := fun hw =>
  ⟨_, rfl, fun rest => round_v rest rfl rfl rfl (by decide) (fun _ h => by cases h)
    (fun h => by simp only [Instr.entryOk, Bool.and_eq_true] at h; exact h.1.1.1.1.1) hw⟩

theorem vlane (f : VInsn) : Statement (.vlane f) := fun hw =>
  ⟨_, rfl, fun rest => round_v rest rfl rfl rfl (by decide) (fun _ h => by cases h)
    (fun h => by simp only [Instr.entryOk, Bool.and_eq_true] at h; exact h.1.1.1.1.1) hw⟩

theorem vcompr (f : VInsn) : Statement (.vcompr f) := fun hw =>
  ⟨_, rfl, fun rest => round_v rest rfl rfl rfl (by decide) (fun _ h => by cases h)
    (fun h => by simp only [Instr.entryOk, Bool.and_eq_true] at h; exact h.1.1.1.1.1) hw⟩

theorem ld (f : MInsn) : Statement (.ld f) := fun hw =>
  ⟨_, rfl, fun rest => round_m rest rfl rfl rfl (by decide) (fun _ h => by cases h) hw⟩

theorem st (f : MInsn) : Statement (.st f) := fun hw =>
  ⟨_, rfl, fun rest => round_m rest rfl rfl rfl (by decide) (fun _ h => by cases h) hw⟩

theorem ldv (f : MInsn) : Statement (.ldv f) := fun hw =>
  ⟨_, rfl, fun rest => round_m rest rfl rfl rfl (by decide) (fun _ h => by cases h) hw⟩

theorem stv (f : MInsn) : Statement (.stv f) := fun hw =>
  ⟨_, rfl, fun rest => round_m rest rfl rfl rfl (by decide) (fun _ h => by cases h) hw⟩

theorem ldg (f : MInsn) : Statement (.ldg f) := fun hw =>
  ⟨_, rfl, fun rest => round_m rest rfl rfl rfl (by decide) (fun _ h => by cases h) hw⟩

theorem stg (f : MInsn) : Statement (.stg f) := fun hw =>
  ⟨_, rfl, fun rest => round_m rest rfl rfl rfl (by decide) (fun _ h => by cases h) hw⟩

theorem ldt (f : MInsn) : Statement (.ldt f) := fun hw =>
  ⟨_, rfl, fun rest => round_m rest rfl rfl rfl (by decide) (fun _ h => by cases h) hw⟩

theorem stt (f : MInsn) : Statement (.stt f) := fun hw =>
  ⟨_, rfl, fun rest => round_m rest rfl rfl rfl (by decide) (fun _ h => by cases h) hw⟩

theorem atom (f : MInsn) : Statement (.atom f) := fun hw =>
  ⟨_, rfl, fun rest => round_m rest rfl rfl rfl (by decide) (fun _ h => by cases h) hw⟩

theorem cas (f : MInsn) : Statement (.cas f) := fun hw =>
  ⟨_, rfl, fun rest => round_m rest rfl rfl rfl (by decide) (fun _ h => by cases h) hw⟩

theorem atomv (f : MInsn) : Statement (.atomv f) := fun hw =>
  ⟨_, rfl, fun rest => round_m rest rfl rfl rfl (by decide) (fun _ h => by cases h) hw⟩

theorem pref (f : MInsn) : Statement (.pref f) := fun hw =>
  ⟨_, rfl, fun rest => round_m rest rfl rfl rfl (by decide) (fun _ h => by cases h) hw⟩

theorem phase (f : SInsn) : Statement (.phase f) := fun hw =>
  ⟨_, rfl, fun rest => round_s rest rfl rfl (fun _ => rfl) (by decide) (fun _ h => by cases h) hw⟩

theorem publ (f : SInsn) : Statement (.publ f) := fun hw =>
  ⟨_, rfl, fun rest => round_s rest rfl rfl (fun _ => rfl) (by decide) (fun _ h => by cases h) hw⟩

theorem snap (f : SInsn) : Statement (.snap f) := fun hw =>
  ⟨_, rfl, fun rest => round_s rest rfl rfl (fun _ => rfl) (by decide) (fun _ h => by cases h) hw⟩

theorem bnd (f : MInsn) : Statement (.bnd f) := fun hw =>
  ⟨_, rfl, fun rest => round_m rest rfl rfl rfl (by decide) (fun _ h => by cases h) hw⟩

theorem bndq (f : MInsn) : Statement (.bndq f) := fun hw =>
  ⟨_, rfl, fun rest => round_m rest rfl rfl rfl (by decide) (fun _ h => by cases h) hw⟩

theorem rwaitf (f : SInsn) : Statement (.rwaitf f) := fun hw =>
  ⟨_, rfl, fun rest => round_s rest rfl rfl (fun _ => rfl) (by decide) (fun _ h => by cases h) hw⟩

theorem rwaite (f : SInsn) : Statement (.rwaite f) := fun hw =>
  ⟨_, rfl, fun rest => round_s rest rfl rfl (fun _ => rfl) (by decide) (fun _ h => by cases h) hw⟩

theorem rrels (f : SInsn) : Statement (.rrels f) := fun hw =>
  ⟨_, rfl, fun rest => round_s rest rfl rfl (fun _ => rfl) (by decide) (fun _ h => by cases h) hw⟩

theorem radvw (f : SInsn) : Statement (.radvw f) := fun hw =>
  ⟨_, rfl, fun rest => round_s rest rfl rfl (fun _ => rfl) (by decide) (fun _ h => by cases h) hw⟩

theorem rstat (f : SInsn) : Statement (.rstat f) := fun hw =>
  ⟨_, rfl, fun rest => round_s rest rfl rfl (fun _ => rfl) (by decide) (fun _ h => by cases h) hw⟩

theorem rflush (f : SInsn) : Statement (.rflush f) := fun hw =>
  ⟨_, rfl, fun rest => round_s rest rfl rfl (fun _ => rfl) (by decide) (fun _ h => by cases h) hw⟩

theorem binit (f : SInsn) : Statement (.binit f) := fun hw =>
  ⟨_, rfl, fun rest => round_s rest rfl rfl (fun _ => rfl) (by decide) (fun _ h => by cases h) hw⟩

theorem barv (f : SInsn) : Statement (.barv f) := fun hw =>
  ⟨_, rfl, fun rest => round_s rest rfl rfl (fun _ => rfl) (by decide) (fun _ h => by cases h) hw⟩

theorem bexp (f : SInsn) : Statement (.bexp f) := fun hw =>
  ⟨_, rfl, fun rest => round_s rest rfl rfl (fun _ => rfl) (by decide) (fun _ h => by cases h) hw⟩

theorem bwait (f : SInsn) : Statement (.bwait f) := fun hw =>
  ⟨_, rfl, fun rest => round_s rest rfl rfl (fun _ => rfl) (by decide) (fun _ h => by cases h) hw⟩

theorem btest (f : SInsn) : Statement (.btest f) := fun hw =>
  ⟨_, rfl, fun rest => round_s rest rfl rfl (fun _ => rfl) (by decide) (fun _ h => by cases h) hw⟩

theorem cpy (f : SInsn) : Statement (.cpy f) := fun hw =>
  ⟨_, rfl, fun rest => round_s rest rfl rfl (fun _ => rfl) (by decide) (fun _ h => by cases h) hw⟩

theorem cpyt (f : SInsn) : Statement (.cpyt f) := fun hw =>
  ⟨_, rfl, fun rest => round_s rest rfl rfl (fun _ => rfl) (by decide) (fun _ h => by cases h) hw⟩

theorem cpyb (f : SInsn) : Statement (.cpyb f) := fun hw =>
  ⟨_, rfl, fun rest => round_s rest rfl rfl (fun _ => rfl) (by decide) (fun _ h => by cases h) hw⟩

theorem cpyq (f : SInsn) : Statement (.cpyq f) := fun hw =>
  ⟨_, rfl, fun rest => round_s rest rfl rfl (fun _ => rfl) (by decide) (fun _ h => by cases h) hw⟩

theorem mtask (f : TInsn) : Statement (.mtask f) := fun hw =>
  ⟨_, rfl, fun rest => round_t rest rfl rfl rfl (by decide) (fun _ h => by cases h) hw⟩

theorem mtasks (f : TInsn) : Statement (.mtasks f) := fun hw =>
  ⟨_, rfl, fun rest => round_t rest rfl rfl rfl (by decide) (fun _ h => by cases h) hw⟩

theorem mwait (f : TInsn) : Statement (.mwait f) := fun hw =>
  ⟨_, rfl, fun rest => round_t rest rfl rfl rfl (by decide) (fun _ h => by cases h) hw⟩

theorem mzero (f : TInsn) : Statement (.mzero f) := fun hw =>
  ⟨_, rfl, fun rest => round_t rest rfl rfl rfl (by decide) (fun _ h => by cases h) hw⟩

theorem mrd (f : TInsn) : Statement (.mrd f) := fun hw =>
  ⟨_, rfl, fun rest => round_t rest rfl rfl rfl (by decide) (fun _ h => by cases h) hw⟩

theorem tzero (f : TInsn) : Statement (.tzero f) := fun hw =>
  ⟨_, rfl, fun rest => round_t rest rfl rfl rfl (by decide) (fun _ h => by cases h) hw⟩

theorem tmov (f : TInsn) : Statement (.tmov f) := fun hw =>
  ⟨_, rfl, fun rest => round_t rest rfl rfl rfl (by decide) (fun _ h => by cases h) hw⟩

theorem tcvt (f : TInsn) : Statement (.tcvt f) := fun hw =>
  ⟨_, rfl, fun rest => round_t rest rfl rfl rfl (by decide) (fun _ h => by cases h) hw⟩

theorem tslice (f : TInsn) : Statement (.tslice f) := fun hw =>
  ⟨_, rfl, fun rest => round_t rest rfl rfl rfl (by decide) (fun _ h => by cases h) hw⟩

theorem tdnode (f : TInsn) : Statement (.tdnode f) := fun hw =>
  ⟨_, rfl, fun rest => round_t rest rfl rfl rfl (by decide) (fun _ h => by cases h) hw⟩

theorem tdstep (f : TInsn) : Statement (.tdstep f) := fun hw =>
  ⟨_, rfl, fun rest => round_t rest rfl rfl rfl (by decide) (fun _ h => by cases h) hw⟩

theorem tdgrp (f : TInsn) : Statement (.tdgrp f) := fun hw =>
  ⟨_, rfl, fun rest => round_t rest rfl rfl rfl (by decide) (fun _ h => by cases h) hw⟩

theorem tdleaf (f : TInsn) : Statement (.tdleaf f) := fun hw =>
  ⟨_, rfl, fun rest => round_t rest rfl rfl rfl (by decide) (fun _ h => by cases h) hw⟩

theorem tdpath (f : TInsn) : Statement (.tdpath f) := fun hw =>
  ⟨_, rfl, fun rest => round_t rest rfl rfl rfl (by decide) (fun _ h => by cases h) hw⟩

theorem tdgrad (f : TInsn) : Statement (.tdgrad f) := fun hw =>
  ⟨_, rfl, fun rest => round_t rest rfl rfl rfl (by decide) (fun _ h => by cases h) hw⟩

theorem skpred (f : TInsn) : Statement (.skpred f) := fun hw =>
  ⟨_, rfl, fun rest => round_t rest rfl rfl rfl (by decide) (fun _ h => by cases h) hw⟩

theorem skfetch (f : TInsn) : Statement (.skfetch f) := fun hw =>
  ⟨_, rfl, fun rest => round_t rest rfl rfl rfl (by decide) (fun _ h => by cases h) hw⟩

theorem skchk (f : TInsn) : Statement (.skchk f) := fun hw =>
  ⟨_, rfl, fun rest => round_t rest rfl rfl rfl (by decide) (fun _ h => by cases h) hw⟩

theorem skrpl (f : TInsn) : Statement (.skrpl f) := fun hw =>
  ⟨_, rfl, fun rest => round_t rest rfl rfl rfl (by decide) (fun _ h => by cases h) hw⟩

theorem skstat (f : TInsn) : Statement (.skstat f) := fun hw =>
  ⟨_, rfl, fun rest => round_t rest rfl rfl rfl (by decide) (fun _ h => by cases h) hw⟩

theorem rtjob (f : TInsn) : Statement (.rtjob f) := fun hw =>
  ⟨_, rfl, fun rest => round_t rest rfl rfl rfl (by decide) (fun _ h => by cases h) hw⟩

theorem rtwait (f : TInsn) : Statement (.rtwait f) := fun hw =>
  ⟨_, rfl, fun rest => round_t rest rfl rfl rfl (by decide) (fun _ h => by cases h) hw⟩

theorem launch (f : SInsn) : Statement (.launch f) := fun hw =>
  ⟨_, rfl, fun rest => round_s rest rfl rfl (fun _ => rfl) (by decide) (fun _ h => by cases h) hw⟩

theorem task (f : SInsn) : Statement (.task f) := fun hw =>
  ⟨_, rfl, fun rest => round_s rest rfl rfl (fun _ => rfl) (by decide) (fun _ h => by cases h) hw⟩

theorem twait (f : SInsn) : Statement (.twait f) := fun hw =>
  ⟨_, rfl, fun rest => round_s rest rfl rfl (fun _ => rfl) (by decide) (fun _ h => by cases h) hw⟩

theorem evpop (f : SInsn) : Statement (.evpop f) := fun hw =>
  ⟨_, rfl, fun rest => round_s rest rfl rfl (fun _ => rfl) (by decide) (fun _ h => by cases h) hw⟩

theorem evpush (f : SInsn) : Statement (.evpush f) := fun hw =>
  ⟨_, rfl, fun rest => round_s rest rfl rfl (fun _ => rfl) (by decide) (fun _ h => by cases h) hw⟩

theorem gid (f : SInsn) : Statement (.gid f) := fun hw =>
  ⟨_, rfl, fun rest => round_s rest rfl rfl (fun _ => rfl) (by decide) (fun _ h => by cases h) hw⟩

theorem srd (f : SInsn) : Statement (.srd f) := fun hw =>
  ⟨_, rfl, fun rest => round_s rest rfl rfl (fun _ => rfl) (by decide) (fun _ h => by cases h) hw⟩

theorem swr (f : SInsn) : Statement (.swr f) := fun hw =>
  ⟨_, rfl, fun rest => round_s rest rfl rfl (fun _ => rfl) (by decide) (fun _ h => by cases h) hw⟩

theorem trap (f : SInsn) : Statement (.trap f) := fun hw =>
  ⟨_, rfl, fun rest => round_s rest rfl rfl (fun _ => rfl) (by decide) (fun _ h => by cases h) hw⟩

theorem eret (f : SInsn) : Statement (.eret f) := fun hw =>
  ⟨_, rfl, fun rest => round_s rest rfl rfl (fun _ => rfl) (by decide) (fun _ h => by cases h) hw⟩

theorem brk (f : SInsn) : Statement (.brk f) := fun hw =>
  ⟨_, rfl, fun rest => round_s rest rfl rfl (fun _ => rfl) (by decide) (fun _ h => by cases h) hw⟩

theorem tick (f : SInsn) : Statement (.tick f) := fun hw =>
  ⟨_, rfl, fun rest => round_s rest rfl rfl (fun _ => rfl) (by decide) (fun _ h => by cases h) hw⟩

theorem evrec (f : SInsn) : Statement (.evrec f) := fun hw =>
  ⟨_, rfl, fun rest => round_s rest rfl rfl (fun _ => rfl) (by decide) (fun _ h => by cases h) hw⟩

theorem stage (f : SInsn) : Statement (.stage f) := fun hw =>
  ⟨_, rfl, fun rest => round_s rest rfl rfl (fun _ => rfl) (by decide) (fun _ h => by cases h) hw⟩

theorem xst (f : SInsn) : Statement (.xst f) := fun hw =>
  ⟨_, rfl, fun rest => round_s rest rfl rfl (fun _ => rfl) (by decide) (fun _ h => by cases h) hw⟩

theorem xld (f : SInsn) : Statement (.xld f) := fun hw =>
  ⟨_, rfl, fun rest => round_s rest rfl rfl (fun _ => rfl) (by decide) (fun _ h => by cases h) hw⟩

theorem xatom (f : SInsn) : Statement (.xatom f) := fun hw =>
  ⟨_, rfl, fun rest => round_s rest rfl rfl (fun _ => rfl) (by decide) (fun _ h => by cases h) hw⟩

theorem xdrain (f : SInsn) : Statement (.xdrain f) := fun hw =>
  ⟨_, rfl, fun rest => round_s rest rfl rfl (fun _ => rfl) (by decide) (fun _ h => by cases h) hw⟩

theorem dstop (f : SInsn) : Statement (.dstop f) := fun hw =>
  ⟨_, rfl, fun rest => round_s rest rfl rfl (fun _ => rfl) (by decide) (fun _ h => by cases h) hw⟩

theorem capsSt (f : SInsn) : Statement (.capsSt f) := fun hw =>
  ⟨_, rfl, fun rest => round_s rest rfl rfl (fun h => by
    have hm : f.mod = 0 := by
      simp only [Instr.wf, Instr.entryOk, Bool.and_eq_true, beq_iff_eq, and_assoc] at h; exact h.2.1
    simp [ofS, hm]) (by decide) (fun _ h => by cases h) hw⟩

theorem capsSz (f : SInsn) : Statement (.capsSz f) := fun hw =>
  ⟨_, rfl, fun rest => round_s rest rfl rfl (fun h => by
    have hm : f.mod = 1 := by
      simp only [Instr.wf, Instr.entryOk, Bool.and_eq_true, beq_iff_eq, and_assoc] at h; exact h.2.1
    simp [ofS, hm]) (by decide) (fun _ h => by cases h) hw⟩

theorem capsGet (f : SInsn) : Statement (.capsGet f) := fun hw =>
  ⟨_, rfl, fun rest => round_s rest rfl rfl (fun h => by
    have hm : f.mod = 2 := by
      simp only [Instr.wf, Instr.entryOk, Bool.and_eq_true, beq_iff_eq, and_assoc] at h; exact h.2.1
    simp [ofS, hm]) (by decide) (fun _ h => by cases h) hw⟩

theorem capsAck (f : SInsn) : Statement (.capsAck f) := fun hw =>
  ⟨_, rfl, fun rest => round_s rest rfl rfl (fun h => by
    have hm : f.mod = 3 := by
      simp only [Instr.wf, Instr.entryOk, Bool.and_eq_true, beq_iff_eq, and_assoc] at h; exact h.2.1
    simp [ofS, hm]) (by decide) (fun _ h => by cases h) hw⟩

theorem ill (low : BitVec 55) : Statement (.ill low) := of_no_parts rfl

theorem blockIssue : Statement .blockIssue := of_no_parts rfl

theorem blockCommit : Statement .blockCommit := of_no_parts rfl

theorem publicationComplete : Statement .publicationComplete := of_no_parts rfl

theorem remoteReply : Statement .remoteReply := of_no_parts rfl

theorem remoteTimeout : Statement .remoteTimeout := of_no_parts rfl

theorem xstDelivery : Statement .xstDelivery := of_no_parts rfl

theorem ringTokenArrival : Statement .ringTokenArrival := of_no_parts rfl

theorem freedSlotNotice : Statement .freedSlotNotice := of_no_parts rfl

theorem barrierEvent : Statement .barrierEvent := of_no_parts rfl

theorem jobDispatch : Statement .jobDispatch := of_no_parts rfl

theorem copyJobComplete : Statement .copyJobComplete := of_no_parts rfl

theorem tileTaskDispatch : Statement .tileTaskDispatch := of_no_parts rfl

theorem tileTaskArrayEnd : Statement .tileTaskArrayEnd := of_no_parts rfl

theorem tileTaskComplete : Statement .tileTaskComplete := of_no_parts rfl

theorem mzeroComplete : Statement .mzeroComplete := of_no_parts rfl

theorem mrdWritebackComplete : Statement .mrdWritebackComplete := of_no_parts rfl

theorem cpybComplete : Statement .cpybComplete := of_no_parts rfl

theorem tdstepComplete : Statement .tdstepComplete := of_no_parts rfl

theorem tdleafComplete : Statement .tdleafComplete := of_no_parts rfl

theorem skpredComplete : Statement .skpredComplete := of_no_parts rfl

theorem skfetchComplete : Statement .skfetchComplete := of_no_parts rfl

theorem skchkComplete : Statement .skchkComplete := of_no_parts rfl

theorem skrplComplete : Statement .skrplComplete := of_no_parts rfl

theorem rtjobComplete : Statement .rtjobComplete := of_no_parts rfl

theorem capsGetComplete : Statement .capsGetComplete := of_no_parts rfl

theorem evpushRecordEntry : Statement .evpushRecordEntry := of_no_parts rfl

theorem streamNodeFiring : Statement .streamNodeFiring := of_no_parts rfl

theorem repeatNodeFiring : Statement .repeatNodeFiring := of_no_parts rfl

theorem bitfieldNodeFiring : Statement .bitfieldNodeFiring := of_no_parts rfl

theorem converterNodeFiring : Statement .converterNodeFiring := of_no_parts rfl

theorem memoryNodeAccess : Statement .memoryNodeAccess := of_no_parts rfl

theorem fenceTokenRelease : Statement .fenceTokenRelease := of_no_parts rfl

theorem skiveNodeFiring : Statement .skiveNodeFiring := of_no_parts rfl

theorem routingNodeFiring : Statement .routingNodeFiring := of_no_parts rfl

theorem collectiveContribution : Statement .collectiveContribution := of_no_parts rfl

theorem kernelLoad : Statement .kernelLoad := of_no_parts rfl

theorem kernelRetire : Statement .kernelRetire := of_no_parts rfl

theorem stageRequest : Statement .stageRequest := of_no_parts rfl

theorem stageSwitchApply : Statement .stageSwitchApply := of_no_parts rfl

theorem lehrResolveWindow : Statement .lehrResolveWindow := of_no_parts rfl

theorem lehrSolutionComplete : Statement .lehrSolutionComplete := of_no_parts rfl

theorem islandMApply : Statement .islandMApply := of_no_parts rfl

theorem ratioSwitchEnd : Statement .ratioSwitchEnd := of_no_parts rfl

theorem islandIdle : Statement .islandIdle := of_no_parts rfl

theorem islandPowerGate : Statement .islandPowerGate := of_no_parts rfl

theorem islandWake : Statement .islandWake := of_no_parts rfl

theorem boostChange : Statement .boostChange := of_no_parts rfl

theorem queueTailWrite : Statement .queueTailWrite := of_no_parts rfl

theorem queueEnable : Statement .queueEnable := of_no_parts rfl

theorem queueDisable : Statement .queueDisable := of_no_parts rfl

theorem queueHeadWrite : Statement .queueHeadWrite := of_no_parts rfl

theorem queueRecordTake : Statement .queueRecordTake := of_no_parts rfl

theorem quantExpiry : Statement .quantExpiry := of_no_parts rfl

theorem watchdogSaveRequest : Statement .watchdogSaveRequest := of_no_parts rfl

theorem watchdogKill : Statement .watchdogKill := of_no_parts rfl

theorem watchdogFence : Statement .watchdogFence := of_no_parts rfl

theorem contextOpen : Statement .contextOpen := of_no_parts rfl

theorem contextClose : Statement .contextClose := of_no_parts rfl

theorem contextTeardownDone : Statement .contextTeardownDone := of_no_parts rfl

theorem partitionReset : Statement .partitionReset := of_no_parts rfl

theorem faultRecordWrite : Statement .faultRecordWrite := of_no_parts rfl

theorem regionResume : Statement .regionResume := of_no_parts rfl

theorem regionSave : Statement .regionSave := of_no_parts rfl

theorem regionKill : Statement .regionKill := of_no_parts rfl

theorem regionRestore : Statement .regionRestore := of_no_parts rfl

theorem pageServiceSave : Statement .pageServiceSave := of_no_parts rfl

theorem pageWalkComplete : Statement .pageWalkComplete := of_no_parts rfl

theorem invalPage : Statement .invalPage := of_no_parts rfl

theorem invalContext : Statement .invalContext := of_no_parts rfl

theorem evict : Statement .evict := of_no_parts rfl

theorem hostMemoryWrite : Statement .hostMemoryWrite := of_no_parts rfl

theorem hostTableWrite : Statement .hostTableWrite := of_no_parts rfl

theorem specialRegisterWrite : Statement .specialRegisterWrite := of_no_parts rfl

theorem srseedWrite : Statement .srseedWrite := of_no_parts rfl

theorem msflgClear : Statement .msflgClear := of_no_parts rfl

theorem reccfgWrite : Statement .reccfgWrite := of_no_parts rfl

theorem pwrcfgWrite : Statement .pwrcfgWrite := of_no_parts rfl

theorem interruptTimeExpiry : Statement .interruptTimeExpiry := of_no_parts rfl

theorem wsRefreshWindowStart : Statement .wsRefreshWindowStart := of_no_parts rfl

theorem wsRefreshWindowEnd : Statement .wsRefreshWindowEnd := of_no_parts rfl

theorem sensorSample : Statement .sensorSample := of_no_parts rfl

theorem controlWindow : Statement .controlWindow := of_no_parts rfl

theorem busBeatRetry : Statement .busBeatRetry := of_no_parts rfl

theorem portEnable : Statement .portEnable := of_no_parts rfl

theorem portTrainingDone : Statement .portTrainingDone := of_no_parts rfl

theorem flitReceive : Statement .flitReceive := of_no_parts rfl

theorem portReset : Statement .portReset := of_no_parts rfl

theorem coldReset : Statement .coldReset := of_no_parts rfl

theorem warmReset : Statement .warmReset := of_no_parts rfl

theorem lifecycleProvision : Statement .lifecycleProvision := of_no_parts rfl

theorem lifecycleDiagnostic : Statement .lifecycleDiagnostic := of_no_parts rfl

theorem lifecycleRedeploy : Statement .lifecycleRedeploy := of_no_parts rfl

theorem lifecycleDecommission : Statement .lifecycleDecommission := of_no_parts rfl

theorem romBoot : Statement .romBoot := of_no_parts rfl

theorem recoveryImageWrite : Statement .recoveryImageWrite := of_no_parts rfl

theorem recorderHorizonStop : Statement .recorderHorizonStop := of_no_parts rfl

theorem capsuleSeal : Statement .capsuleSeal := of_no_parts rfl

theorem debugStop : Statement .debugStop := of_no_parts rfl

theorem debugRelease : Statement .debugRelease := of_no_parts rfl

theorem remoteHomeAccess : Statement .remoteHomeAccess := of_no_parts rfl

theorem collectiveFailure : Statement .collectiveFailure := of_no_parts rfl

end Sys2Proof.Laws.RoundTrip
end

