-- ==== Sys2Proof/Certificates/Slice0/Obligations.lean ====
section
/-!
DEFINITION. The statements about the model for the provers. The vocabulary they share comes first: operands
and results in the spec's own form, and what an instruction leaves unchanged.
-/
namespace Sys2Proof.Claims

open Sys2Proof.Machine

/-! ### Scalar operands and results (R104, R105) -/

/-- The operation width W of a group 0 format code (R104). -/
def width (f : Fmt) : Nat := if f = .raw then 64 else 32

/-- The W bits of an operand: a register's low bits, a sign-extended immediate, a literal's low bits
(R105). -/
def operand (n : Nat) (s : State) (i : VInsn) (src : Src) : BitVec n :=
  match src with
  | .reg k => (s.x.rdS k).setWidth n
  | .imm k => k.signExtend n
  | .lit => (i.lit.getD 0).setWidth n
  | .ring _ _ => 0

/-- An integer result r: r mod 2^W, sign-extended for int32 and zero-extended for uint32 (R104, R105). -/
def extended (f : Fmt) (r : Int) : Word :=
  if f = .raw then BitVec.ofInt 64 r
  else if f = .int32 then (BitVec.ofInt 32 r).signExtend 64
  else (BitVec.ofInt 32 r).setWidth 64

/-- The answer of a scalar instruction: guarded off, the state itself; else the state with its destination
scalar written and nothing else changed, or with a discarded result nothing changed (R69, R104). -/
def scalarTo (s : State) (g : Guard) (d : Dst) (v : Word) : Out :=
  .next (if s.x.on0 g then (match d with | .reg n => s.setX (s.x.wrS n v) | _ => s) else s)

/-- An instruction of one scalar source computes r. -/
def computes1 (mk : VInsn → Instr) (r : (n : Nat) → BitVec n → Int) : Prop :=
  ∀ (i : VInsn) (s : State), i.scalar1 = true →
    exec (mk i) s = scalarTo s i.g i.d (extended i.fmt (r (width i.fmt) (operand _ s i i.a)))

/-- An instruction of two scalar sources computes r. -/
def computes2 (mk : VInsn → Instr) (r : (n : Nat) → BitVec n → BitVec n → Int) : Prop :=
  ∀ (i : VInsn) (s : State), i.scalar2 = true →
    exec (mk i) s =
      scalarTo s i.g i.d (extended i.fmt (r (width i.fmt) (operand _ s i i.a) (operand _ s i i.b)))

/-- An instruction of three scalar sources computes r. -/
def computes3 (mk : VInsn → Instr) (r : (n : Nat) → BitVec n → BitVec n → BitVec n → Int) : Prop :=
  ∀ (i : VInsn) (s : State), i.scalar3 = true →
    exec (mk i) s = scalarTo s i.g i.d (extended i.fmt
      (r (width i.fmt) (operand _ s i i.a) (operand _ s i i.b) (operand _ s i i.c)))

/-- A format V opcode is decoded as the instruction `mk`, and a word of it whose fields are `bad` faults ILLEGAL_OP at
decode (R59, R72, R75). -/
def decodesAs (mk : VInsn → Instr) (op : BitVec 9) (bad : VInsn → Prop) : Prop :=
  ∀ (w : Word) (lit : Option Word), w.extractLsb' 55 9 = op →
    decodeFields w lit = (decodeV w lit).map mk ∧
    ∀ i, decodeV w lit = some i → bad i → decodeWord w lit = .error .illegalOp

/-- The number of leading positions of a list of bits that are zero. -/
def zerosAhead (l : List Bool) : Nat := (l.takeWhile (!·)).length

/-- The length of a bit field at a position, cut at the width (R108). -/
def fieldLen (n pos len : Nat) : Nat := if pos < n then min len (n - pos) else 0

/-- A field of `len` bits at `pos`, sign- or zero-extended; zero when it has no bits (R108). -/
def fieldAt (n : Nat) (a : BitVec n) (pos len : Nat) (sgn : Bool) : Int :=
  let k := fieldLen n pos len
  if sgn then (a.extractLsb' pos k).toInt else ((a.extractLsb' pos k).toNat : Int)

/-! ### Vector operands and results (R89, R129 to R131) -/

/-- Element `k` of width `w` of lane words (R89). -/
def elementAt (w : Nat) (ls : List Lane) (k : Nat) : Nat :=
  ((ls[k / (32 / w)]?).getD 0).toNat / 2 ^ (k % (32 / w) * w) % 2 ^ w

/-- Lane `l` of a token (R130). -/
def tokenLane (t : Token) (l : Nat) : Lane := BitVec.ofNat 32 (fieldN t.bytes (4 * l) 4)

/-- The lane words of a register or token source (R129, R130). -/
def words (x : Flight) (ts : List (Nat × Token)) (src : Src) : List Lane :=
  match src with
  | .reg n => (x.r.rdV n).lanes
  | .ring h _ => (List.range x.nlanes).map (tokenLane (tokenOf ts h))
  | _ => []

/-- The tag of a register or token source. -/
def tagOf (x : Flight) (ts : List (Nat × Token)) (src : Src) : Fmt :=
  match src with
  | .reg n => (x.r.rdV n).tag
  | .ring h _ => (tokenOf ts h).tag
  | _ => .raw

/-- Element `k` of a source under a format: of a register or token, or the broadcast literal or immediate
(R129). -/
def element (x : Flight) (i : VInsn) (ts : List (Nat × Token)) (f : Fmt) (src : Src) (k : Nat) : Nat :=
  match src with
  | .lit => (litElem f (i.lit.getD 0).toNat).bits
  | .imm n => (immElem f n).bits
  | src => elementAt (fmtWidth f) (words x ts src) k

/-- The flags of converting a literal or immediate to a format (R70, R71). -/
def castFlags (i : VInsn) (f : Fmt) (src : Src) : BitVec 5 :=
  match src with
  | .lit => (litElem f (i.lit.getD 0).toNat).flags
  | .imm n => (immElem f n).flags
  | _ => 0

/-- A register or token source has a word for every lane, and a token also its scale bytes (R130). -/
def sized (x : Flight) (ts : List (Nat × Token)) (src : Src) : Prop :=
  match src with
  | .reg n => (x.r.rdV n).lanes.length = x.nlanes
  | .ring h _ => 4 * x.nlanes + sideCount (tokenOf ts h).tag x.nlanes ≤ (tokenOf ts h).bytes.length
  | _ => True

/-- A source passes for a format: it has its size, and its tag is the format, or the format is RAW (R81, R131). -/
def passes (x : Flight) (ts : List (Nat × Token)) (f : Fmt) (src : Src) : Prop :=
  sized x ts src ∧
  match src with
  | .reg _ | .ring _ _ => f = .raw ∨ tagOf x ts src = f
  | _ => True

/-- A vector instruction has some lane on, its handles have fired, leaving the block `x` with the tokens `ts`, and
its sources pass for the formats named. -/
def sourcesPass (s : State) (i : VInsn) (fired : List Src) (l : List (Fmt × Src)) (ts : List (Nat × Token))
    (x : Flight) : Prop :=
  s.x.guard i.g ≠ 0 ∧ fireAll fired [] s.x = (ts, x) ∧ ∀ p ∈ l, passes x ts p.1 p.2

/-- A lane word of elements of width `w`: slot j holds the low `w` bits of element `l * (32 / w) + j` (R89). -/
def packed (w : Nat) (r : Nat → Nat) (l : Nat) : Lane :=
  BitVec.ofNat 32 ((List.range (32 / w)).map fun j => r (l * (32 / w) + j) % 2 ^ w * 2 ^ (j * w)).sum

/-- The block after a vector result: a register takes the new words in the lanes that are on and keeps the others, a
push sends zero in those, a discard drops the result; the tag is the result's, and every sidecar byte is 0x7F but those
that the result has for its elements (R69, R89, R129 to R131). -/
def vectorTo (x : Flight) (d : Dst) (m : BitVec 128) (f : Fmt) (side : Option (List Byte)) (word : Nat → Lane) :
    Flight :=
  let on (old : Nat → Lane) := (List.range x.nlanes).map fun l => if m.getLsbD l then word l else old l
  match d with
  | .reg n =>
    let v : VReg :=
      ⟨on fun l => ((x.r.rdV n).lanes[l]?).getD 0, f,
        match side with
        | none => List.replicate (x.nlanes / 4) 0x7f
        | some l => l.zipIdx.map fun p => if p.2 < sideCount f x.nlanes then p.1 else 0x7f⟩
    { x with r := x.r.wrV n v }
  | .push h =>
    x.push h.toNat f
      (((on fun _ => 0).flatMap fun l => leBytes 4 l.toNat) ++ (side.getD []).take (sideCount f x.nlanes))
      (4 * x.nlanes + sideCount f x.nlanes)
  | _ => x

/-- The flags of the elements whose lanes are on (R101). -/
def raisedBy (x : Flight) (m : BitVec 128) (f : Fmt) (fl : Nat → BitVec 5) : BitVec 5 :=
  ((List.range (x.nlanes * (32 / fmtWidth f))).filter fun k => m.getLsbD (k / (32 / fmtWidth f))).foldl
    (fun a k => a ||| fl k) 0

/-- The signed integer formats. -/
def signedFmt (f : Fmt) : Bool := f == .int4 || f == .int8 || f == .int16 || f == .int32

/-- An element as its format's integer (R88). -/
def valueOf (f : Fmt) {n : Nat} (a : BitVec n) : Int := if signedFmt f then a.toInt else a.toNat

/-- Least and greatest value of an integer format. -/
def leastOf (f : Fmt) (n : Nat) : Int := if signedFmt f then -(2 ^ (n - 1) : Nat) else 0
@[inherit_doc leastOf] def greatestOf (f : Fmt) (n : Nat) : Int :=
  if signedFmt f then (2 ^ (n - 1) : Nat) - 1 else (2 ^ n : Nat) - 1

/-- An integer clamped to its format's range. -/
def clamped (f : Fmt) (n : Nat) (v : Int) : Int := max (leastOf f n) (min (greatestOf f n) v)

/-- Element `k` of a source as the bits of the instruction's width. -/
def bitsAt (x : Flight) (i : VInsn) (ts : List (Nat × Token)) (src : Src) (k : Nat) : BitVec (fmtWidth i.fmt) :=
  BitVec.ofNat _ (element x i ts i.fmt src k)

/-- A vector instruction whose sources are `srcs` writes element `k` of the result as the integer that `r` gives,
modulo the element width, and raises no flag. -/
def mapsTo (mk : VInsn → Instr) (srcs : VInsn → List Src)
    (r : (i : VInsn) → (Src → BitVec (fmtWidth i.fmt)) → Int) : Prop :=
  ∀ (i : VInsn) (s : State) (ts : List (Nat × Token)) (x : Flight), (mk i).entryOk = true →
    sourcesPass s i [i.a, i.b, i.c] ((srcs i).map (i.fmt, ·)) ts x →
    exec (mk i) s = .next (s.setX (vectorTo x i.d (s.x.guard i.g) i.fmt none
      (packed (fmtWidth i.fmt) fun k =>
        (BitVec.ofInt (fmtWidth i.fmt) (r i fun src => bitsAt x i ts src k)).toNat)))

/-- An instruction of one vector source computes `r` of each element. -/
def maps1 (mk : VInsn → Instr) (r : (f : Fmt) → (n : Nat) → BitVec n → Int) : Prop :=
  mapsTo mk (fun i => [i.a]) fun i e => r i.fmt (fmtWidth i.fmt) (e i.a)

/-- An instruction of two vector sources computes `r` of each pair of elements. -/
def maps2 (mk : VInsn → Instr) (r : (f : Fmt) → (n : Nat) → BitVec n → BitVec n → Int) : Prop :=
  mapsTo mk (fun i => [i.a, i.b]) fun i e => r i.fmt (fmtWidth i.fmt) (e i.a) (e i.b)

/-- An instruction of three vector sources computes `r` of each triple of elements. -/
def maps3 (mk : VInsn → Instr) (r : (f : Fmt) → (n : Nat) → BitVec n → BitVec n → BitVec n → Int) : Prop :=
  mapsTo mk (fun i => [i.a, i.b, i.c]) fun i e => r i.fmt (fmtWidth i.fmt) (e i.a) (e i.b) (e i.c)

/-! ### Values and results of the floating-point formats (R84, R93, R94) -/

/-- The rational of a finite value. -/
def ratOf : Machine.Num → ℚ
  | .fin neg n d => (if neg then -1 else 1) * ((n : ℚ) / d)
  | _ => 0

/-- Whether a value is finite. -/
def finite : Machine.Num → Bool
  | .fin _ _ _ => true
  | _ => false

/-- The value of an element as an operation reads it: a subnormal as zero of its sign under FTZ (R84, R95). -/
def operandValue (x : Flight) (f : Fmt) (b : Nat) : Machine.Num := flushIn (x.r.fmode.getLsbD 0) f (elemVal f b)

/-- The canonical quiet NaN of fp32, bf16 or fp16 (R94). -/
def quietNan (f : Fmt) : Nat := if f = .fp32 then 0x7fc00000 else if f = .bf16 then 0x7fc0 else 0x7e00

/-- The positive infinity of fp32, bf16 or fp16. -/
def infinity (f : Fmt) : Nat := if f = .fp32 then 0x7f800000 else if f = .bf16 then 0x7f80 else 0x7c00

/-- One, in fp32, bf16 or fp16. -/
def one (f : Fmt) : Nat := if f = .fp32 then 0x3f800000 else if f = .bf16 then 0x3f80 else 0x3c00

/-- The weight of the sign bit. -/
def signOf (f : Fmt) : Nat := 2 ^ (fmtWidth f - 1)

/-- A result is the exact value rounded once by round() of R93 in a mode, then flushed when FTZ is set (R94, R95). -/
def roundedOnce (x : Flight) (f : Fmt) (mode : Rnd) (q : ℚ) (r : Res) : Prop :=
  ∃ (neg : Bool) (n d : Nat), 0 < d ∧ ratOf (.fin neg n d) = q ∧
    r = arith (x.r.fmode.getLsbD 0) f (.fin neg n d) mode

/-- What every rounding operation does with its operands (R94): a NaN gives the canonical NaN, with NV when one
signals, and finite operands give the exact value rounded once. -/
def ieee (x : Flight) (i : VInsn) (ops : List Machine.Num) (q : Option ℚ) (r : Res) : Prop :=
  (ops.any Machine.Num.isNan = true → r.bits = quietNan i.fmt ∧ (ops.any Machine.Num.isSignalling = true → r.flags = fNV)) ∧
  (ops.all finite = true → ∀ v, q = some v → v ≠ 0 → roundedOnce x i.fmt (Rnd.ofField i.rnd.toNat) v r)

/-- A floating-point instruction over the sources `srcs` completes, with results for which `spec` holds of every
element, the flags of the lanes that are on, and the flags of converted literals and immediates (R101, R131). -/
def floats (mk : VInsn → Instr) (srcs : VInsn → List Src)
    (spec : Flight → VInsn → (Src → Nat) → Res → Prop) : Prop :=
  ∀ (i : VInsn) (s : State) (ts : List (Nat × Token)) (x : Flight), (mk i).entryOk = true →
    sourcesPass s i [i.a, i.b, i.c] ((srcs i).map (i.fmt, ·)) ts x →
    ∃ r : Nat → Res,
      exec (mk i) s = .next (s.setX (vectorTo
        (x.flag (raisedBy x (s.x.guard i.g) i.fmt (fun k => (r k).flags) |||
          (srcs i).foldl (fun a src => a ||| castFlags i i.fmt src) 0))
        i.d (s.x.guard i.g) i.fmt none (packed (fmtWidth i.fmt) fun k => (r k).bits))) ∧
      ∀ k < x.nlanes * (32 / fmtWidth i.fmt), spec x i (fun src => element x i ts i.fmt src k) (r k)

end Sys2Proof.Claims

open Sys2Proof Sys2Proof.Machine Sys2Proof.Claims

/-- The scalar integer instructions compute what R106's table says, over the operands and results of R104 and R105,
and change nothing but their destination scalar. -/
def Sys2Proof.Claims.ScalarIntegerTable : Prop :=
  computes2 .add (fun _ a b => a.toNat + b.toNat) ∧
  computes2 .sub (fun _ a b => (a.toNat : Int) - b.toNat) ∧
  computes2 .mul (fun _ a b => a.toNat * b.toNat) ∧
  computes2 .mulh (fun n a b => a.toInt * b.toInt / (2 ^ n : Nat)) ∧
  computes2 .mulhu (fun n a b => (a.toNat * b.toNat / 2 ^ n : Nat)) ∧
  computes2 .and (fun _ a b => (a &&& b).toNat) ∧
  computes2 .or (fun _ a b => (a ||| b).toNat) ∧
  computes2 .xor (fun _ a b => (a ^^^ b).toNat) ∧
  computes2 .andn (fun _ a b => (a &&& ~~~b).toNat) ∧
  computes2 .shl (fun n a b => (a.toNat * 2 ^ (b.toNat % n) : Nat)) ∧
  computes2 .shr (fun n a b => (a.toNat / 2 ^ (b.toNat % n) : Nat)) ∧
  computes2 .sar (fun n a b => a.toInt / (2 ^ (b.toNat % n) : Nat)) ∧
  computes2 .rol (fun n a b => (a.rotateLeft (b.toNat % n)).toNat) ∧
  computes2 .ror (fun n a b => (a.rotateRight (b.toNat % n)).toNat) ∧
  computes2 .min (fun _ a b => min a.toInt b.toInt) ∧
  computes2 .max (fun _ a b => max a.toInt b.toInt) ∧
  computes2 .minu (fun _ a b => (min a.toNat b.toNat : Nat)) ∧
  computes2 .maxu (fun _ a b => (max a.toNat b.toNat : Nat)) ∧
  computes1 .abs (fun _ a => (a.toInt.natAbs : Int)) ∧
  computes1 .neg (fun _ a => -a.toInt) ∧
  computes1 .clz (fun n a => (zerosAhead ((List.range n).map fun k => a.getLsbD (n - 1 - k)) : Nat)) ∧
  computes1 .ctz (fun n a => (zerosAhead ((List.range n).map fun k => a.getLsbD k) : Nat)) ∧
  computes1 .popc (fun n a => ((List.range n).countP fun k => a.getLsbD k : Nat)) ∧
  computes1 .brev (fun _ a => a.reverse.toNat) ∧
  computes1 .bswap (fun n a =>
    ((List.range (n / 8)).foldl (fun r k => r * 256 + a.toNat / 2 ^ (8 * k) % 256) 0 : Nat)) ∧
  computes3 .mad (fun _ a b c => a.toNat * b.toNat + c.toNat)

/-- DIV, DIVU, REM and REMU never fault and give the quotients and remainders of R107: by zero -1 or all ones with
the dividend as remainder, of the most negative number by -1 itself with remainder 0. -/
def Sys2Proof.Claims.ScalarDivision : Prop :=
  computes2 .div (fun n a b =>
    if b.toNat = 0 then -1
    else if a.toInt = -(2 ^ (n - 1) : Nat) ∧ b.toInt = -1 then -(2 ^ (n - 1) : Nat)
    else a.toInt.tdiv b.toInt) ∧
  computes2 .divu (fun n a b => if b.toNat = 0 then ((2 ^ n - 1 : Nat) : Int) else (a.toNat / b.toNat : Nat)) ∧
  computes2 .rem (fun n a b =>
    if b.toNat = 0 then a.toInt
    else if a.toInt = -(2 ^ (n - 1) : Nat) ∧ b.toInt = -1 then 0
    else a.toInt - a.toInt.tdiv b.toInt * b.toInt) ∧
  computes2 .remu (fun _ a b => if b.toNat = 0 then (a.toNat : Int) else (a.toNat - a.toNat / b.toNat * b.toNat : Nat))

/-- The opcodes of the tables of R106 and R107. -/
def Sys2Proof.Claims.ScalarOpcodes : Prop :=
  ∀ p ∈ ([
      (.add, 0x001), (.sub, 0x002), (.mul, 0x003), (.mulh, 0x004), (.mulhu, 0x005), (.div, 0x006), (.divu, 0x007),
      (.rem, 0x008), (.remu, 0x009), (.and, 0x00a), (.or, 0x00b), (.xor, 0x00c), (.andn, 0x00d), (.shl, 0x00e),
      (.shr, 0x00f), (.sar, 0x010), (.rol, 0x011), (.ror, 0x012), (.min, 0x013), (.max, 0x014), (.minu, 0x015),
      (.maxu, 0x016), (.abs, 0x017), (.neg, 0x018), (.clz, 0x019), (.ctz, 0x01a), (.popc, 0x01b), (.brev, 0x01c),
      (.bswap, 0x01d), (.mad, 0x023)] :
        List ((VInsn → Instr) × BitVec 9)),
    decodesAs p.1 p.2 (fun _ => False)

/-- Scalar integer arithmetic (R104 to R107): the table of group 0 and its divisions, which never fault, under their
opcodes. -/
def Obligations.ScalarIntegerArithmetic : Prop :=
  Sys2Proof.Claims.ScalarIntegerTable ∧ Sys2Proof.Claims.ScalarDivision ∧ Sys2Proof.Claims.ScalarOpcodes

/-- The field instructions of R108: SEXT and ZEXT extend a field of k bits, BFX and BFXU take one, and BFI replaces one
in its destination's old value. -/
def Sys2Proof.Claims.ScalarBitFields : Prop :=
  (∀ sgn : Bool, computes2 (if sgn then .sext else .zext) (fun n a b =>
    let k := b.toNat % 128
    if k = 0 then 0 else if n ≤ k then a.toInt
    else if sgn then (a.extractLsb' 0 k).toInt else ((a.extractLsb' 0 k).toNat : Int))) ∧
  (∀ sgn : Bool, computes3 (if sgn then .bfx else .bfxu) (fun n a b c =>
    fieldAt n a (b.toNat % 64) (c.toNat % 128) sgn)) ∧
  (∀ (i : VInsn) (s : State) (d : BitVec 6), i.scalar3 = true → i.d = .reg d →
    exec (.bfi i) s = scalarTo s i.g i.d (extended i.fmt
      (let n := width i.fmt
       let a := operand n s i i.a
       let pos := (operand n s i i.b).toNat % 64
       let len := fieldLen n pos ((operand n s i i.c).toNat % 128)
       let old := (s.x.rdS d).setWidth n
       let mask := BitVec.ofNat n (2 ^ len - 1)
       (((old &&& ~~~(mask <<< pos)) ||| ((a &&& mask) <<< pos)).toNat : Int))))

/-- ADDX keeps the pointer's top byte and adds the scaled index to the low 56 bits (R109); MOVL writes the literal, or
one half of its destination (R111); SEL chooses by lane 0 of a predicate (R112). -/
def Sys2Proof.Claims.ScalarPointerLiteralSelect : Prop :=
  (∀ (i : VInsn) (s : State), (Instr.addx i).entryOk = true →
    exec (.addx i) s = scalarTo s i.g i.d
      (let a := operand 64 s i i.a
       let b := operand 64 s i i.b
       let k : Word := if i.mod.getLsbD 3 then (b.setWidth 32).setWidth 64 else (b.setWidth 32).signExtend 64
       a.extractLsb' 56 8 ++ (a + (k <<< (i.mod.toNat % 8))).extractLsb' 0 56)) ∧
  (∀ (i : VInsn) (s : State) (v : Word), i.lit = some v → (Instr.movl i).entryOk = true →
    exec (.movl i) s = scalarTo s i.g i.d
      (match i.d with
       | .reg n =>
         let old := s.x.rdS n
         if i.mod = 0 then v
         else if i.mod = 1 then old.extractLsb' 32 32 ++ v.extractLsb' 0 32
         else v.extractLsb' 0 32 ++ old.extractLsb' 0 32
       | _ => v)) ∧
  (∀ (i : VInsn) (s : State) (p : BitVec 6), i.c = .reg p → (Instr.sel i).entryOk = true →
    exec (.sel i) s = scalarTo s i.g i.d (extended i.fmt
      (if (s.x.r.rdP s.x.nlanes (p.setWidth 4)).getLsbD 0 then (operand (width i.fmt) s i i.a).toNat
       else (operand (width i.fmt) s i i.b).toNat)))

/-- The opcodes of R108, R109, R111 and R112, and the fields that fault ILLEGAL_OP under them: BFI without a destination;
ADDX with SH = 7; a width other than 0x18 for ADDX and MOVL; MOVL with a source other than the literal, a MOD of no
form, or a half without a destination; SEL without a predicate as its third source. -/
def Sys2Proof.Claims.ScalarFieldEncodings : Prop :=
  (∀ p ∈ ([(.sext, 0x01e), (.zext, 0x01f), (.bfx, 0x020), (.bfxu, 0x021)] : List ((VInsn → Instr) × BitVec 9)),
    decodesAs p.1 p.2 (fun _ => False)) ∧
  decodesAs .bfi 0x022 (fun i => ∀ n, i.d ≠ .reg n) ∧
  decodesAs .addx 0x024 (fun i => i.fmt ≠ .raw ∨ i.mod.toNat % 8 = 7) ∧
  decodesAs .sel 0x025 (fun i => ∀ n : BitVec 6, n.toNat < 16 → i.c ≠ .reg n) ∧
  decodesAs .movl 0x027 (fun i => i.a ≠ .lit ∨ i.fmt ≠ .raw ∨ (∀ n, i.b ≠ .reg n) ∨ (∀ n, i.c ≠ .reg n) ∨
    2 < i.mod.toNat ∨ (i.mod ≠ 0 ∧ i.d = .discard))

/-- Scalar bit fields, pointers, literals and selection (R108, R109, R111, R112), with the fields that fault ILLEGAL_OP
under their opcodes. -/
def Obligations.ScalarBitsPointersAndLiterals : Prop :=
  Sys2Proof.Claims.ScalarBitFields ∧ Sys2Proof.Claims.ScalarPointerLiteralSelect ∧
  Sys2Proof.Claims.ScalarFieldEncodings

/-- A comparison writes 1 or 0, or every lane of a predicate (R113). -/
def Sys2Proof.Claims.ScalarCompare : Prop :=
  ∀ (sgn : Bool) (i : VInsn) (s : State), i.cmpOk = true →
    let n := width i.fmt
    let a : Int := if sgn then (operand n s i i.a).toInt else (operand n s i i.a).toNat
    let b : Int := if sgn then (operand n s i i.b).toInt else (operand n s i i.b).toNat
    let t : Bool := match i.mod.toNat with
      | 0 => decide (a = b)
      | 1 => decide (a ≠ b)
      | 2 => decide (a < b)
      | 3 => decide (a ≤ b)
      | 4 => decide (b < a)
      | _ => decide (b ≤ a)
    exec (if sgn then .cmp i else .cmpu i) s =
      match i.d with
      | .alt p => .next (if s.x.on0 i.g then
          s.setX { s.x with r := s.x.r.wrP s.x.nlanes (p.setWidth 4) (if t then laneMask s.x.nlanes else 0) } else s)
      | d => scalarTo s i.g d (if t then 1 else 0)

/-- A predicate named by a source (R65). -/
def Sys2Proof.Claims.predOf (s : State) (src : Src) : BitVec 128 :=
  match src with
  | .reg n => s.x.r.rdP s.x.nlanes (n.setWidth 4)
  | _ => 0

/-- The answer of an instruction that writes a whole predicate and nothing else (R114). -/
def Sys2Proof.Claims.predTo (s : State) (g : Guard) (d : Dst) (v : BitVec 128) : Out :=
  .next (if s.x.on0 g then
    (match d with | .alt n => s.setX { s.x with r := s.x.r.wrP s.x.nlanes (n.setWidth 4) v } | _ => s) else s)

/-- Predicate logic acts lane by lane (R114), and PMOV moves predicates and halves of scalars (R115). -/
def Sys2Proof.Claims.PredicateLogic : Prop :=
  (∀ (i : VInsn) (s : State), i.pred2 = true →
    exec (.pand i) s = predTo s i.g i.d (predOf s i.a &&& predOf s i.b) ∧
    exec (.por i) s = predTo s i.g i.d (predOf s i.a ||| predOf s i.b) ∧
    exec (.pxor i) s = predTo s i.g i.d (predOf s i.a ^^^ predOf s i.b) ∧
    exec (.pnot i) s = predTo s i.g i.d (~~~(predOf s i.a))) ∧
  (∀ (i : VInsn) (s : State), i.pmovOk = true →
    let sa : Word := match i.a with | .reg n => s.x.rdS n | _ => 0
    let old : BitVec 128 := match i.d with | .alt n => s.x.r.rdP s.x.nlanes (n.setWidth 4) | _ => 0
    exec (.pmov i) s =
      match i.mod.toNat with
      | 0 => predTo s i.g i.d (predOf s i.a)
      | 1 => predTo s i.g i.d (old.extractLsb' 64 64 ++ sa)
      | 3 => predTo s i.g i.d (sa ++ old.extractLsb' 0 64)
      | 2 => scalarTo s i.g i.d ((predOf s i.a).extractLsb' 0 64)
      | _ => scalarTo s i.g i.d ((predOf s i.a).extractLsb' 64 64))

/-- The opcodes of R113 to R115, and the fields that fault ILLEGAL_OP under them: a condition past ge; predicate logic
with anything but predicates, FMT 0x18 and MOD 0000, or PNOT with a second source; PMOV of another width, or with a MOD
or a destination kind of no form. A predicate has no lane past the gang's. -/
def Sys2Proof.Claims.PredicateEncodings : Prop :=
  let predicate (src : Src) := ∃ n : BitVec 6, src = .reg n ∧ n.toNat < 16
  let predicateDst (d : Dst) := ∃ n : BitVec 6, d = .alt n ∧ n.toNat < 16
  decodesAs .cmp 0x028 (fun i => 5 < i.mod.toNat) ∧ decodesAs .cmpu 0x029 (fun i => 5 < i.mod.toNat) ∧
  decodeTableWord 64 0x147A080F28000058 = some (.cmp ⟨⟨15, false⟩, .alt 2, .reg 3, .imm 10, .reg 0, 2, .raw, none⟩) ∧
  (∀ p ∈ ([(.pand, 0x02a), (.por, 0x02b), (.pxor, 0x02c), (.pnot, 0x02d)] : List ((VInsn → Instr) × BitVec 9)),
    decodesAs p.1 p.2 (fun i => ¬ predicateDst i.d ∨ ¬ predicate i.a ∨ ¬ predicate i.b ∨ i.mod ≠ 0 ∨ i.fmt ≠ .raw)) ∧
  decodesAs .pnot 0x02d (fun i => i.b ≠ .reg 0) ∧
  decodesAs .pmov 0x02e (fun i => i.fmt ≠ .raw ∨
    (match i.mod.toNat with
     | 0 => ¬ predicateDst i.d ∨ ¬ predicate i.a
     | 1 | 3 => ¬ predicateDst i.d ∨ ∀ n, i.a ≠ .reg n
     | 2 | 4 => (∀ n, i.d ≠ .reg n) ∨ ¬ predicate i.a
     | _ => True)) ∧
  (∀ (r : Regs) (lanes : Nat) (n : BitVec 4) (l : Nat), lanes ≤ l → (r.rdP lanes n).getLsbD l = false)

/-- Scalar comparisons and predicate logic (R113 to R115), with the fields that fault ILLEGAL_OP under their
opcodes. -/
def Obligations.ComparisonsAndPredicates : Prop :=
  Sys2Proof.Claims.ScalarCompare ∧ Sys2Proof.Claims.PredicateLogic ∧ Sys2Proof.Claims.PredicateEncodings

/-- MOV of a scalar, a literal or an immediate writes it at width W; of a ring's head token it writes the token's bytes
0 to 7 at width W, with the handle fired as R66 says; and to a ring it pushes one RAW token whose first eight bytes are
the result (R110). -/
def Obligations.MovForms : Prop :=
  (∀ (i : VInsn) (s : State), (Instr.mov i).entryOk = true → i.a.scalarOk = true → i.d.regDisc = true →
    exec (.mov i) s = scalarTo s i.g i.d (extended i.fmt (operand (width i.fmt) s i i.a).toNat)) ∧
  (∀ (i : VInsn) (s : State) (h : BitVec 6) (k : BitVec 3), (Instr.mov i).entryOk = true → i.a = .ring h k →
    i.d.regDisc = true → s.x.on0 i.g = true →
    exec (.mov i) s = .next (s.setX
      ((s.x.fire h.toNat k).2.putScalar i.d
        (extended i.fmt ((fieldN (s.x.fire h.toNat k).1.bytes 0 8 % 2 ^ width i.fmt : Nat) : Int))))) ∧
  (∀ (i : VInsn) (s : State) (h : BitVec 6) (v : RView), (Instr.mov i).entryOk = true → i.a.scalarOk = true →
    i.d = .push h → h ≠ 31 → s.x.view h.toNat true = some v → 8 ≤ v.slotsz → s.x.on0 i.g = true →
    exec (.mov i) s = .next (s.setX { s.x with fx := s.x.fx ++
      [.push v.id ⟨.raw,
        (leBytes 8 (extended i.fmt (operand (width i.fmt) s i i.a).toNat).toNat
          ++ List.replicate (v.slotsz - 8) 0)⟩] }))

/-- A counted firing of a ring handle reads the token at the handle's place. With code `:1` it passes the token and
frees its slot; a `:peek` passes nothing; a token whose limit another code fixed faults RING_STATE (R66, R67). -/
def Obligations.RingFiring : Prop :=
  ∀ (x : Flight) (h : Nat) (v : RView) (t : Token), x.view h false = some v → v.toks[v.pos]? = some t →
    (x.fire h 7).1 = t ∧ (∃ w, (x.fire h 7).2.view h false = some w ∧ w.pos = v.pos ∧ w.frees = v.frees) ∧
    (v.lim = none → v.cnt = 0 →
      (x.fire h 0).1 = t ∧ ∃ w, (x.fire h 0).2.view h false = some w ∧ w.pos = v.pos + 1 ∧ w.frees = v.frees ++ [1]) ∧
    (∀ k k', v.lim = some k' → k ≠ k' → k ≠ 7 → x.fault = none →
      ∃ f, (x.fire h k).2.fault = some f ∧ f.code = .ringState ∧ f.index = x.idx)

/-- The exits (R56, R116 to R119): BR, a BRC whose condition holds, CALL, RET and JMPI name the next PC, LOOPX leaves
its loop and END ends the strand; CALL writes its link, the address of the block that follows. An exit that an earlier
instruction of the block has taken stands. -/
def Sys2Proof.Claims.ExitsTaken : Prop :=
  ∀ (i : XInsn) (s : State), s.x.on0 i.g = true →
    let target : Addr := s.x.pc + 8 * i.tgt.signExtend 56
    let after : Addr := s.x.pc + BitVec.ofNat 56 (8 * (s.x.words + 1))
    let holds : Bool := match i.cm.toNat with
      | 0 => decide (s.x.rdS i.s1 = s.x.rdS i.s2)
      | 1 => decide (s.x.rdS i.s1 ≠ s.x.rdS i.s2)
      | 2 => if i.aux.getLsbD 0 then decide ((s.x.rdS i.s1).toNat < (s.x.rdS i.s2).toNat)
             else decide ((s.x.rdS i.s1).toInt < (s.x.rdS i.s2).toInt)
      | _ => if i.aux.getLsbD 0 then decide ((s.x.rdS i.s2).toNat ≤ (s.x.rdS i.s1).toNat)
             else decide ((s.x.rdS i.s2).toInt ≤ (s.x.rdS i.s1).toInt)
    (s.x.exit = none →
      exec (.br i) s = .next (s.setX { s.x with exit := some (.jump target) }) ∧
      exec (.brc i) s = .next (if holds then s.setX { s.x with exit := some (.jump target) } else s) ∧
      exec (.call i) s =
        .next (s.setX ({ s.x with exit := some (.jump target) }.wrS i.s1 (after.setWidth 64))) ∧
      ((s.x.rdS i.s1).toNat % 8 = 0 →
        exec (.ret i) s = .next (s.setX { s.x with exit := some (.jump ((s.x.rdS i.s1).setWidth 56)) })) ∧
      ((s.x.rdS i.s1 + s.x.rdS i.s2).toNat % 8 = 0 →
        exec (.jmpi i) s =
          .next (s.setX { s.x with exit := some (.jump ((s.x.rdS i.s1 + s.x.rdS i.s2).setWidth 56)) })) ∧
      exec (.endStrand i) s = .next (s.setX { s.x with exit := some .stop })) ∧
    (s.x.exit ≠ none →
      exec (.br i) s = .next s ∧ exec (.brc i) s = .next s ∧ exec (.call i) s = .next s ∧
      exec (.ret i) s = .next s ∧ exec (.jmpi i) s = .next s ∧ exec (.endStrand i) s = .next s) ∧
    exec (.yield i) s = .next (s.setX { s.x with yield := true }) ∧
    exec (.nop i) s = .next s

/-- A RET or JMPI to an address that is not a multiple of eight faults ALIGN when it is the exit that wins, and only
then (R56, R118). -/
def Sys2Proof.Claims.MisalignedExitFaults : Prop :=
  ∀ (i : XInsn) (s : State), s.x.on0 i.g = true → s.x.fault = none → s.x.exit = none →
    ((s.x.rdS i.s1).toNat % 8 ≠ 0 → ∃ t f, exec (.ret i) s = .next t ∧ t.x.fault = some f ∧ f.code = .align ∧
      f.block = s.x.pc.setWidth 56 ∧ f.index = s.x.idx ∧ t.mem = s.mem ∧ t.x.r = s.x.r) ∧
    ((s.x.rdS i.s1 + s.x.rdS i.s2).toNat % 8 ≠ 0 → ∃ t f, exec (.jmpi i) s = .next t ∧ t.x.fault = some f ∧
      f.code = .align ∧ f.block = s.x.pc.setWidth 56 ∧ f.index = s.x.idx ∧ t.mem = s.mem ∧ t.x.r = s.x.r)

/-- Exits of a block, taken or misaligned (R56, R116 to R119). -/
def Obligations.ExitsTakenOrMisaligned : Prop := Sys2Proof.Claims.ExitsTaken ∧ Sys2Proof.Claims.MisalignedExitFaults

/-- LOOP reads the header at its target and, when every check of R123 passes, enters the loop at commit with a count
of at least one; otherwise it faults LOOP_DEPTH (R122, R123). LOOPX of an active loop exits it when its condition
holds, and of a counter that no active loop uses faults LOOP_DEPTH (R126). -/
def Obligations.LoopsEnteredAndLeft : Prop :=
  (∀ (i : XInsn) (s : State) (h e : Nat) (bs : List Byte) (x : Flight), s.x.on0 i.g = true →
    (Instr.loop i).entryOk = true → s.x.fault = none →
    s.xlat s.x.ctx (s.x.pc + 8 * i.tgt.signExtend 56).toNat 4 = .ok h e →
    loadBytes s { s.x with
      fx := s.x.fx ++ [.walked e (s.x.pc + 8 * i.tgt.signExtend 56).toNat false], reqs := s.x.reqs + 1 }
      ((List.range 8).map (h + ·)) = (bs, x) →
    let target : Addr := s.x.pc + 8 * i.tgt.signExtend 56
    let start : Addr := s.x.pc + BitVec.ofNat 56 (8 * (s.x.words + 1))
    let ew := leNat bs / 2 ^ 56
    let k : Fin 3 := ⟨i.aux.toNat % 3, Nat.mod_lt _ (by decide)⟩
    let size : Nat := (target.toNat - start.toNat) / 8 + ew + 1
    let good : Prop := s.x.r.loops.length < 3 ∧ (∀ l ∈ s.x.r.loops, l.k ≠ k) ∧ start.toNat ≤ target.toNat ∧
      size ≤ 256 ∧ (∀ l, s.x.r.loops.head? = some l →
        l.start.toNat ≤ start.toNat ∧ target.toNat + 8 * ew ≤ l.last.toNat + 8 * l.endWords)
    let n : BitVec 32 := (s.x.rdS i.s1).setWidth 32
    (good → x.r = s.x.r → exec (.loop i) s = .next (s.setX { x with fx := x.fx ++
      [.loopPush ⟨k, start, target, ew⟩ (if n = 0 then 1 else n)] })) ∧
    (¬ good → x.r = s.x.r → x.fault = none → ∃ t f, exec (.loop i) s = .next t ∧ t.x.fault = some f ∧
      f.code = .loopDepth ∧ t.mem = s.mem)) ∧
  (∀ (i : XInsn) (s : State), s.x.on0 i.g = true → (Instr.loopx i).entryOk = true →
    let k : Fin 3 := ⟨i.aux.toNat % 3, Nat.mod_lt _ (by decide)⟩
    ((∃ l ∈ s.x.r.loops, l.k = k) → s.x.exit = none → i.cm = 0 →
      exec (.loopx i) s = .next (if s.x.rdS i.s1 = s.x.rdS i.s2 then
        s.setX { s.x with exit := some (.loopx k.val (s.x.pc + 8 * i.tgt.signExtend 56)) } else s)) ∧
    ((∀ l ∈ s.x.r.loops, l.k ≠ k) → s.x.fault = none →
      ∃ t f, exec (.loopx i) s = .next t ∧ t.x.fault = some f ∧ f.code = .loopDepth ∧ t.mem = s.mem))

/-- The integer instructions compute R147's table in every element of the lanes that are on, and VBFX extracts a field
as R149 says, modulo the element width, raising no flag. -/
def Sys2Proof.Claims.VectorIntegerTable : Prop :=
  maps2 .viadd (fun _ _ a b => a.toNat + b.toNat) ∧
  maps2 .visub (fun _ _ a b => (a.toNat : Int) - b.toNat) ∧
  maps2 .vimul (fun _ _ a b => a.toNat * b.toNat) ∧
  maps3 .vimad (fun _ _ a b c => a.toNat * b.toNat + c.toNat) ∧
  maps2 .vimin (fun _ _ a b => min a.toInt b.toInt) ∧
  maps2 .vimax (fun _ _ a b => max a.toInt b.toInt) ∧
  maps2 .viminu (fun _ _ a b => (min a.toNat b.toNat : Nat)) ∧
  maps2 .vimaxu (fun _ _ a b => (max a.toNat b.toNat : Nat)) ∧
  maps2 .vand (fun _ _ a b => (a &&& b).toNat) ∧
  maps2 .vor (fun _ _ a b => (a ||| b).toNat) ∧
  maps2 .vxor (fun _ _ a b => (a ^^^ b).toNat) ∧
  maps2 .vshl (fun _ n a b => (a.toNat * 2 ^ (b.toNat % n) : Nat)) ∧
  maps2 .vshr (fun _ n a b => (a.toNat / 2 ^ (b.toNat % n) : Nat)) ∧
  maps2 .vsar (fun _ n a b => a.toInt / (2 ^ (b.toNat % n) : Nat)) ∧
  maps1 .vpopc (fun _ n a => ((List.range n).countP fun k => a.getLsbD k : Nat)) ∧
  maps1 .vclz (fun _ n a => (zerosAhead ((List.range n).map fun k => a.getLsbD (n - 1 - k)) : Nat)) ∧
  maps2 .vsadd (fun f n a b => clamped f n (valueOf f a + valueOf f b)) ∧
  maps2 .vssub (fun f n a b => clamped f n (valueOf f a - valueOf f b)) ∧
  maps3 .vbfx (fun f n a b c => fieldAt n a (b.toNat % 64) (c.toNat % 128) (signedFmt f))

/-- VBFI replaces a field of each element of its destination's old value, whose tag it checks: a mismatch faults
FORMAT_TAG (R149). -/
def Sys2Proof.Claims.VectorBitInsert : Prop :=
  ∀ (i : VInsn) (s : State) (ts : List (Nat × Token)) (x : Flight) (d : BitVec 6), (Instr.vbfi i).entryOk = true →
    sourcesPass s i [i.a, i.b, i.c] [(i.fmt, i.a), (i.fmt, i.b), (i.fmt, i.c)] ts x → i.d = .reg d →
    (passes x ts i.fmt (.reg d) →
      exec (.vbfi i) s = .next (s.setX (vectorTo x i.d (s.x.guard i.g) i.fmt none
        (packed (fmtWidth i.fmt) fun k =>
          let n := fmtWidth i.fmt
          let old : BitVec n := bitsAt x i ts (.reg d) k
          let a : BitVec n := bitsAt x i ts i.a k
          let pos := (bitsAt x i ts i.b k).toNat % 64
          let len := fieldLen n pos ((bitsAt x i ts i.c k).toNat % 128)
          let mask := BitVec.ofNat n (2 ^ len - 1)
          ((old &&& ~~~(mask <<< pos)) ||| ((a &&& mask) <<< pos)).toNat)))) ∧
    ((x.r.rdV d).tag ≠ i.fmt → i.fmt ≠ .raw → x.fault = none →
      ∃ t f, exec (.vbfi i) s = .next t ∧ t.x.fault = some f ∧ f.code = .formatTag ∧ t.x.r = x.r)

/-- Vector integer arithmetic and bit insertion (R147, R149). -/
def Obligations.VectorIntegerArithmetic : Prop := Sys2Proof.Claims.VectorIntegerTable ∧ Sys2Proof.Claims.VectorBitInsert

/-- The value of an element (R84): with exponent field e and mantissa field m, ±m × 2^(1 - bias - M) when e is zero,
and ±(2^M + m) × 2^(e - bias - M) for every other finite encoding of the format. -/
def Sys2Proof.Claims.FloatValues : Prop :=
  ∀ p ∈ ([(Fmt.fp32, 8, 23, 127), (.bf16, 8, 7, 127), (.fp16, 5, 10, 15), (.e4m3, 4, 3, 7), (.e5m2, 5, 2, 15),
      (.e3m2, 3, 2, 3), (.e2m3, 2, 3, 1), (.e2m1, 2, 1, 1)] : List (Fmt × Nat × Nat × Nat)),
    ∀ b < 2 ^ (1 + p.2.1 + p.2.2.1),
      let neg := b / 2 ^ (p.2.1 + p.2.2.1) = 1
      let e : Nat := b / 2 ^ p.2.2.1 % 2 ^ p.2.1
      let m : Nat := b % 2 ^ p.2.2.1
      finite (elemVal p.1 b) = true →
      ratOf (elemVal p.1 b) = (if neg then -1 else 1) *
        (if e = 0 then (m : ℚ) * (2 : ℚ) ^ (1 - (p.2.2.2 : ℤ) - p.2.2.1)
         else ((2 ^ p.2.2.1 + m : ℕ) : ℚ) * (2 : ℚ) ^ ((e : ℤ) - p.2.2.2 - p.2.2.1))

/-- The real that a magnitude stands for: a quotient, or its square root. -/
noncomputable def Sys2Proof.Claims.realOf (a : Mag) : ℝ :=
  if a.root then Real.sqrt ((a.n : ℝ) / a.d) else (a.n : ℝ) / a.d

/-- round() of R93 for a real that does not overflow: RDN gives the greatest value of the format not above it, RUP the
least not below it, RTZ the one of smaller magnitude, and RNE and RNA one that no value of the format is nearer than,
on a tie RNE an even one and RNA the greater magnitude; NX says that the result differs, and UF that it then lies
below the smallest normal. -/
def Sys2Proof.Claims.RoundingIsRound : Prop :=
  ∀ (f : Fmt) (i : FloatInfo) (neg : Bool) (a : Mag) (mode : Rnd), floatInfo f = some i → 0 < a.n → 0 < a.d →
    let r := roundMag i neg a mode false
    let x : ℝ := (if neg then -1 else 1) * realOf a
    let v (b : Nat) : ℝ := ((ratOf (floatVal i b) : ℚ) : ℝ)
    r.flags &&& fOF = 0 →
    (mode = .rdn → v r.bits ≤ x ∧ ∀ b, finite (floatVal i b) = true → v b ≤ x → v b ≤ v r.bits) ∧
    (mode = .rup → x ≤ v r.bits ∧ ∀ b, finite (floatVal i b) = true → x ≤ v b → v r.bits ≤ v b) ∧
    (mode = .rtz → |v r.bits| ≤ |x| ∧ ∀ b, finite (floatVal i b) = true → |v b| ≤ |x| → |v b| ≤ |v r.bits|) ∧
    (mode = .rne ∨ mode = .rna → ∀ b, finite (floatVal i b) = true → |v r.bits - x| ≤ |v b - x|) ∧
    (mode = .rne → ∀ b, finite (floatVal i b) = true → v b ≠ v r.bits → |v r.bits - x| = |v b - x| →
      r.bits % 2 = 0) ∧
    (mode = .rna → ∀ b, finite (floatVal i b) = true → |v r.bits - x| = |v b - x| → |v b| ≤ |v r.bits|) ∧
    (r.flags &&& fNX ≠ 0 ↔ v r.bits ≠ x) ∧
    (r.flags &&& fUF ≠ 0 ↔ v r.bits ≠ x ∧ |v r.bits| < (2 : ℝ) ^ (1 - (i.bias : ℤ)))

/-- The values of the formats and their rounding (R84, R93). -/
def Obligations.FloatValuesAndRounding : Prop := Sys2Proof.Claims.FloatValues ∧ Sys2Proof.Claims.RoundingIsRound

/-- VADD, VSUB, VMUL, VFMA, VFMS, VFNMA and VDIV give the exact sum, difference, product, fused product or quotient
rounded once, and the canonical NaN for a NaN operand (R94, R133). -/
def Sys2Proof.Claims.VectorArithmetic : Prop :=
  floats .vadd (fun i => [i.a, i.b]) (fun x i e r =>
    let v := fun src => operandValue x i.fmt (e src)
    ieee x i [v i.a, v i.b] (some (ratOf (v i.a) + ratOf (v i.b))) r) ∧
  floats .vsub (fun i => [i.a, i.b]) (fun x i e r =>
    let v := fun src => operandValue x i.fmt (e src)
    ieee x i [v i.a, v i.b] (some (ratOf (v i.a) - ratOf (v i.b))) r) ∧
  floats .vmul (fun i => [i.a, i.b]) (fun x i e r =>
    let v := fun src => operandValue x i.fmt (e src)
    ieee x i [v i.a, v i.b] (some (ratOf (v i.a) * ratOf (v i.b))) r) ∧
  floats .vfma (fun i => [i.a, i.b, i.c]) (fun x i e r =>
    let v := fun src => operandValue x i.fmt (e src)
    ieee x i [v i.a, v i.b, v i.c] (some (ratOf (v i.a) * ratOf (v i.b) + ratOf (v i.c))) r) ∧
  floats .vfms (fun i => [i.a, i.b, i.c]) (fun x i e r =>
    let v := fun src => operandValue x i.fmt (e src)
    ieee x i [v i.a, v i.b, v i.c] (some (ratOf (v i.a) * ratOf (v i.b) - ratOf (v i.c))) r) ∧
  floats .vfnma (fun i => [i.a, i.b, i.c]) (fun x i e r =>
    let v := fun src => operandValue x i.fmt (e src)
    ieee x i [v i.a, v i.b, v i.c] (some (ratOf (v i.c) - ratOf (v i.a) * ratOf (v i.b))) r) ∧
  floats .vdiv (fun i => [i.a, i.b]) (fun x i e r =>
    let v := fun src => operandValue x i.fmt (e src)
    ieee x i [v i.a, v i.b] (if (v i.b).isZero then none else some (ratOf (v i.a) / ratOf (v i.b))) r ∧
    (finite (v i.a) = true → (v i.b).isZero = true → (v i.a).isZero = false →
      r.flags = fDZ ∧ r.bits % signOf i.fmt = infinity i.fmt))

/-- VSQRT, VRINT, VABS, VNEG, VCPYS, VMIN and VMAX (R133, R134): the root of a negative value is the NaN with NV; a
value whose magnitude reaches 2^M, a zero and an infinity stay as they are under VRINT, and any other becomes the integer
of the mode; the sign instructions change the sign bit alone and raise no flag; the lesser or greater of two values,
-0 below +0, one NaN giving the other operand unless `.nan` is set. -/
def Sys2Proof.Claims.VectorUnary : Prop :=
  floats .vsqrt (fun i => [i.a]) (fun x i e r =>
    let v := operandValue x i.fmt (e i.a)
    (v.isNan = true → r.bits = quietNan i.fmt ∧ (v.isSignalling = true → r.flags = fNV)) ∧
    (v.isNeg = true → v.isZero = false → r.bits = quietNan i.fmt ∧ r.flags = fNV) ∧
    (v.isZero = true → r.bits = (if v.isNeg then signOf i.fmt else 0) ∧ r.flags = 0) ∧
    (∀ n d, v = .fin false n d → n ≠ 0 → ∃ fi, floatInfo i.fmt = some fi ∧
      r = flushOut (x.r.fmode.getLsbD 0) i.fmt (roundMag fi false ⟨n, d, true⟩ (Rnd.ofField i.rnd.toNat) false))) ∧
  floats .vrint (fun i => [i.a]) (fun x i e r =>
    let v := operandValue x i.fmt (e i.a)
    let q := ratOf v
    let mode := Rnd.ofField i.rnd.toNat
    let mant : Nat := if i.fmt = .fp32 then 23 else if i.fmt = .bf16 then 7 else 10
    (v.isNan = true → r.bits = quietNan i.fmt) ∧
    (v.isNan = false → finite v = false ∨ (2 : ℚ) ^ mant ≤ |q| → r.bits = e i.a ∧ r.flags = 0) ∧
    (finite v = true → |q| < (2 : ℚ) ^ mant → ∃ z : ℤ, ratOf (elemVal i.fmt r.bits) = z ∧
      (mode = .rdn → z = ⌊q⌋) ∧ (mode = .rup → z = ⌈q⌉) ∧ (mode = .rtz → z = if q < 0 then ⌈q⌉ else ⌊q⌋) ∧
      (mode = .rne → |q - z| ≤ 1 / 2 ∧ (|q - z| = 1 / 2 → 2 ∣ z)) ∧
      (mode = .rna → |q - z| ≤ 1 / 2 ∧ (|q - z| = 1 / 2 → |q| < |(z : ℚ)|)) ∧
      r.flags = if (z : ℚ) ≠ q ∧ i.bit5 = true then fNX else 0)) ∧
  floats .vabs (fun i => [i.a]) (fun _ i e r => r.flags = 0 ∧ r.bits = e i.a % signOf i.fmt) ∧
  floats .vneg (fun i => [i.a]) (fun _ i e r => r.flags = 0 ∧ r.bits = e i.a ^^^ signOf i.fmt) ∧
  floats .vcpys (fun i => [i.a, i.b]) (fun _ i e r =>
    r.flags = 0 ∧ r.bits = e i.a % signOf i.fmt + e i.b / signOf i.fmt * signOf i.fmt) ∧
  (∀ greater : Bool, floats (if greater then .vmax else .vmin) (fun i => [i.a, i.b]) (fun x i e r =>
    let a := operandValue x i.fmt (e i.a)
    let b := operandValue x i.fmt (e i.b)
    (r.flags = if a.isSignalling || b.isSignalling then fNV else 0) ∧
    (a.isNan = true → b.isNan = true → r.bits = quietNan i.fmt) ∧
    (i.bit5 = true → a.isNan || b.isNan = true → r.bits = quietNan i.fmt) ∧
    (x.r.fmode.getLsbD 0 = false → (i.bit5 = false → a.isNan = true → b.isNan = false → r.bits = e i.b) ∧
      (i.bit5 = false → b.isNan = true → a.isNan = false → r.bits = e i.a) ∧
      (a.isNan = false → b.isNan = false → (r.bits = e i.a ∨ r.bits = e i.b) ∧
        (let v := elemVal i.fmt r.bits
         if greater then 0 ≤ v.cmp a ∧ 0 ≤ v.cmp b else v.cmp a ≤ 0 ∧ v.cmp b ≤ 0) ∧
        (a.isZero = true → b.isZero = true → a.isNeg ≠ b.isNeg →
          r.bits = if greater then 0 else signOf i.fmt)))))

/-- Vector arithmetic on two or three operands, and on one (R94, R133, R134). -/
def Obligations.VectorFloatArithmetic : Prop := Sys2Proof.Claims.VectorArithmetic ∧ Sys2Proof.Claims.VectorUnary

/-- VSCALE multiplies by a power of two whose exponent is clamped to -1024..1024 and rounds once (R133). -/
def Sys2Proof.Claims.VectorScale : Prop :=
  ∀ (i : VInsn) (s : State) (ts : List (Nat × Token)) (x : Flight), (Instr.vscale i).entryOk = true →
    sourcesPass s i [i.a, i.b, i.c] [(i.fmt, i.a), (.int32, i.b)] ts x →
    ∃ r : Nat → Res,
      exec (.vscale i) s = .next (s.setX (vectorTo
        (x.flag (raisedBy x (s.x.guard i.g) i.fmt (fun k => (r k).flags) ||| castFlags i i.fmt i.a))
        i.d (s.x.guard i.g) i.fmt none (packed (fmtWidth i.fmt) fun k => (r k).bits))) ∧
      ∀ k < x.nlanes * (32 / fmtWidth i.fmt),
        let v := operandValue x i.fmt (element x i ts i.fmt i.a k)
        let b := (BitVec.ofNat 32 (element x i ts .int32 i.b (k / (32 / fmtWidth i.fmt)))).toInt
        ieee x i [v] (some (ratOf v * (2 : ℚ) ^ (max (-1024) (min 1024 b)))) (r k)

/-- The approximations (R138, R139): the special results and flags of VRCP and VRSQ, the rounded reciprocal of the
16-bit formats, twelve zero bits in fp32; a Newton step gives its estimate back for zeros, infinities and NaNs, and
else y + y × (1 - x × y), or half of it for the root, rounded once. -/
def Sys2Proof.Claims.VectorReciprocals : Prop :=
  floats .vrcp (fun i => [i.a]) (fun x i e r =>
    let v := operandValue x i.fmt (e i.a)
    (v.isNan = true → r.bits = quietNan i.fmt ∧ r.flags = if v.isSignalling then fNV else 0) ∧
    (v.isZero = true → r.bits = infinity i.fmt + (if v.isNeg then signOf i.fmt else 0) ∧ r.flags = fDZ) ∧
    (∀ neg : Bool, v = .inf neg → r.bits = (if neg then signOf i.fmt else 0) ∧ r.flags = 0) ∧
    (finite v = true → v.isZero = false →
      (i.fmt = .fp32 → r.bits % 2 ^ 12 = 0) ∧ (i.fmt ≠ .fp32 → roundedOnce x i.fmt .rne (1 / ratOf v) r))) ∧
  floats .vrsq (fun i => [i.a]) (fun x i e r =>
    let v := operandValue x i.fmt (e i.a)
    (v.isNan = true → r.bits = quietNan i.fmt ∧ r.flags = if v.isSignalling then fNV else 0) ∧
    (v.isZero = true → r.bits = infinity i.fmt + (if v.isNeg then signOf i.fmt else 0) ∧ r.flags = fDZ) ∧
    (v = .inf false → r.bits = 0 ∧ r.flags = 0) ∧
    (v.isNeg = true → v.isZero = false → r.bits = quietNan i.fmt ∧ r.flags = fNV) ∧
    (finite v = true → v.isZero = false → v.isNeg = false → i.fmt = .fp32 → r.bits % 2 ^ 12 = 0)) ∧
  (∀ root : Bool, floats (if root then .vrsqn else .vrcpn) (fun i => [i.a, i.b]) (fun x i e r =>
    let v := operandValue x i.fmt (e i.a)
    let y := operandValue x i.fmt (e i.b)
    let q : ℚ := ratOf y + ratOf y * (1 - ratOf v * ratOf y * (if root then ratOf y else 1)) / (if root then 2 else 1)
    (finite v = false ∨ finite y = false ∨ v.isZero = true ∨ y.isZero = true → r.bits = e i.b ∧ r.flags = 0) ∧
    (finite v = true → finite y = true → v.isZero = false → y.isZero = false → q ≠ 0 →
      roundedOnce x i.fmt (Rnd.ofField i.rnd.toNat) q r)))

/-- Vector scaling, and reciprocals with their steps (R133, R138, R139). -/
def Obligations.VectorScaleAndReciprocals : Prop := Sys2Proof.Claims.VectorScale ∧ Sys2Proof.Claims.VectorReciprocals

/-- The special functions (R140): the special results of the table, the canonical NaN for a NaN, and in fp32 exact
powers of two for integers. -/
def Obligations.VectorSpecialFunctions : Prop :=
  let nan : Flight → VInsn → Machine.Num → Res → Prop := fun _ i v r =>
    v.isNan = true → r.bits = quietNan i.fmt ∧ r.flags = if v.isSignalling then fNV else 0
  floats .vexp2 (fun i => [i.a]) (fun x i e r =>
    let v := operandValue x i.fmt (e i.a)
    nan x i v r ∧ (v = .inf true → r.bits = 0 ∧ r.flags = 0) ∧ (v = .inf false → r.bits = infinity i.fmt ∧ r.flags = 0) ∧
    (∀ z : ℤ, i.fmt = .fp32 → finite v = true → ratOf v = z → -126 ≤ z → z ≤ 127 →
      ratOf (elemVal .fp32 r.bits) = (2 : ℚ) ^ z ∧ r.flags = 0)) ∧
  floats .vlog2 (fun i => [i.a]) (fun x i e r =>
    let v := operandValue x i.fmt (e i.a)
    nan x i v r ∧ (v.isZero = true → r.bits = infinity i.fmt + signOf i.fmt ∧ r.flags = fDZ) ∧
    (v.isNeg = true → v.isZero = false → r.bits = quietNan i.fmt ∧ r.flags = fNV) ∧
    (v = .inf false → r.bits = infinity i.fmt ∧ r.flags = 0) ∧
    (finite v = true → ratOf v = 1 → r.bits = 0 ∧ r.flags = 0)) ∧
  floats .vsin (fun i => [i.a]) (fun x i e r =>
    let v := operandValue x i.fmt (e i.a)
    nan x i v r ∧ (v.isZero = true → r.bits = (if v.isNeg then signOf i.fmt else 0) ∧ r.flags = 0) ∧
    (∀ neg : Bool, v = .inf neg → r.bits = quietNan i.fmt ∧ r.flags = fNV)) ∧
  floats .vcos (fun i => [i.a]) (fun x i e r =>
    let v := operandValue x i.fmt (e i.a)
    nan x i v r ∧ (v.isZero = true → r.bits = one i.fmt ∧ r.flags = 0) ∧
    (∀ neg : Bool, v = .inf neg → r.bits = quietNan i.fmt ∧ r.flags = fNV)) ∧
  floats .vtanh (fun i => [i.a]) (fun x i e r =>
    let v := operandValue x i.fmt (e i.a)
    nan x i v r ∧ (v.isZero = true → r.bits = (if v.isNeg then signOf i.fmt else 0) ∧ r.flags = 0) ∧
    (∀ neg : Bool, v = .inf neg → r.bits = one i.fmt + (if neg then signOf i.fmt else 0) ∧ r.flags = 0))

/-- The block after an element test: a MASK-tagged result of all ones and zeros, or a predicate whose lane is true when
the test holds for every element of the lane; a lane that is off keeps its predicate bit (R135). -/
def Sys2Proof.Claims.testTo (x : Flight) (d : Dst) (m : BitVec 128) (f : Fmt) (t : Nat → Bool) : Flight :=
  let n := 32 / fmtWidth f
  match d with
  | .alt p =>
    let old := x.r.rdP x.nlanes (p.setWidth 4)
    let new := (BitVec.ofFnLE fun l : Fin 128 => if m.getLsbD l then
      decide (l.val < x.nlanes) && (List.range n).all (fun j => t (l.val * n + j)) else old.getLsbD l)
    { x with r := x.r.wrP x.nlanes (p.setWidth 4) new }
  | d => vectorTo x d m .mask none (packed (fmtWidth f) fun k => if t k then 2 ^ fmtWidth f - 1 else 0)

/-- VCMP and VICMP test each pair of elements by their condition (R135, R148): the ordering conditions of VCMP set NV
for any NaN, the others for a signalling one. -/
def Obligations.VectorComparisons : Prop :=
  (∀ (i : VInsn) (s : State) (ts : List (Nat × Token)) (x : Flight) (c : BitVec 6), (Instr.vcmp i).entryOk = true →
    i.c = .imm c → sourcesPass s i [i.a, i.b] [(i.fmt, i.a), (i.fmt, i.b)] ts x →
    let a := fun k => operandValue x i.fmt (element x i ts i.fmt i.a k)
    let b := fun k => operandValue x i.fmt (element x i ts i.fmt i.b k)
    let nan := fun k => (a k).isNan || (b k).isNan
    let nv := fun k : Nat => (if 2 ≤ c.toNat ∧ c.toNat ≤ 5 then nan k else (a k).isSignalling || (b k).isSignalling : Bool)
    exec (.vcmp i) s = .next (s.setX (testTo
      (x.flag (castFlags i i.fmt i.a ||| castFlags i i.fmt i.b |||
        raisedBy x (s.x.guard i.g) i.fmt fun k => if nv k then fNV else 0))
      i.d (s.x.guard i.g) i.fmt fun k =>
        match c.toNat with
        | 0 => !nan k && (a k).cmp (b k) == 0
        | 1 => nan k || (a k).cmp (b k) != 0
        | 2 => !nan k && decide ((a k).cmp (b k) < 0)
        | 3 => !nan k && decide ((a k).cmp (b k) ≤ 0)
        | 4 => !nan k && decide (0 < (a k).cmp (b k))
        | 5 => !nan k && decide (0 ≤ (a k).cmp (b k))
        | 6 => !nan k
        | _ => nan k))) ∧
  (∀ (i : VInsn) (s : State) (ts : List (Nat × Token)) (x : Flight), (Instr.vicmp i).entryOk = true →
    sourcesPass s i [i.a, i.b] [(i.fmt, i.a), (i.fmt, i.b)] ts x →
    let a := fun k => valueOf i.fmt (bitsAt x i ts i.a k)
    let b := fun k => valueOf i.fmt (bitsAt x i ts i.b k)
    exec (.vicmp i) s = .next (s.setX (testTo x i.d (s.x.guard i.g) i.fmt fun k =>
      match i.mod.toNat with
      | 0 => decide (a k = b k)
      | 1 => decide (a k ≠ b k)
      | 2 => decide (a k < b k)
      | 3 => decide (a k ≤ b k)
      | 4 => decide (b k < a k)
      | _ => decide (b k ≤ a k))))

/-- The class of an element of a floating-point format (R137). -/
def Sys2Proof.Claims.classOf (f : Fmt) (b : Nat) : Nat :=
  let v := elemVal f b
  let normal : Bool := decide ((2 : ℚ) ^ (if f = .fp16 then (-14 : ℤ) else -126) ≤ |ratOf v|)
  if v.isNan then (if v.isSignalling then 8 else 9)
  else if finite v then
    (if v.isZero then (if v.isNeg then 3 else 4)
     else if normal then (if v.isNeg then 1 else 6) else if v.isNeg then 2 else 5)
  else if v.isNeg then 0 else 7

/-- A moved lane word of a format: the bits that the containers of tf32 and of the six-bit formats hold as zero are
zero (R85). -/
def Sys2Proof.Claims.cleaned (f : Fmt) (l : Lane) : Lane :=
  if f = .tf32 then l &&& 0xffffe000
  else if f = .e3m2 ∨ f = .e2m3 ∨ f = .mxe3m2 ∨ f = .mxe2m3 then l &&& 0x3f3f3f3f
  else l

/-- VSEL takes each lane from `a` or `b` by a predicate, or merges them bit by bit under a MASK-tagged value (R136);
VCLASS writes the class word, tagged UINT32 or UINT16, or tests it against B (R137). -/
def Obligations.VectorSelectAndClass : Prop :=
  (∀ (i : VInsn) (s : State) (ts : List (Nat × Token)) (x : Flight), (Instr.vsel i).entryOk = true →
    sourcesPass s i (if i.bit5 then [i.a, i.b, i.c] else [i.a, i.b])
      ((i.fmt, i.a) :: (i.fmt, i.b) :: (if i.bit5 then [(.mask, i.c)] else [])) ts x →
    let lane := fun src => packed (fmtWidth i.fmt) fun k => element x i ts i.fmt src k
    exec (.vsel i) s = .next (s.setX (vectorTo
      (x.flag (castFlags i i.fmt i.a ||| castFlags i i.fmt i.b)) i.d (s.x.guard i.g) i.fmt none fun l =>
        cleaned i.fmt (if i.bit5 then
          let m : Lane := BitVec.ofNat 32 (element x i ts .mask i.c l)
          (lane i.a l &&& m) ||| (lane i.b l &&& ~~~m)
        else if (predOf s i.c).getLsbD l then lane i.a l else lane i.b l)))) ∧
  (∀ (i : VInsn) (s : State) (ts : List (Nat × Token)) (x : Flight), (Instr.vclass i).entryOk = true →
    sourcesPass s i [i.a] [(i.fmt, i.a)] ts x →
    let c := fun k => classOf i.fmt (element x i ts i.fmt i.a k)
    let x' := x.flag (castFlags i i.fmt i.a)
    (i.d.isAlt = false → exec (.vclass i) s = .next (s.setX (vectorTo x' i.d (s.x.guard i.g)
      (if i.fmt = .fp32 then .uint32 else .uint16) none (packed (fmtWidth i.fmt) fun k => 2 ^ c k)))) ∧
    (i.d.isAlt = true → exec (.vclass i) s = .next (s.setX (testTo x' i.d (s.x.guard i.g) i.fmt fun k =>
      (operand 64 s i i.b).getLsbD (c k)))))

/-- The lane words of a source under a format: of a register or token as they stand, of a literal or immediate its
broadcast (R129). -/
def Sys2Proof.Claims.wordsAs (x : Flight) (i : VInsn) (ts : List (Nat × Token)) (f : Fmt) (src : Src) (l : Nat) : Lane :=
  match src with
  | .reg _ | .ring _ _ => ((words x ts src)[l]?).getD 0
  | src => packed (fmtWidth f) (fun k => element x i ts f src k) l

/-- The sidecar of a source. -/
def Sys2Proof.Claims.sideOf (x : Flight) (ts : List (Nat × Token)) (src : Src) : List Byte :=
  match src with
  | .reg n => (x.r.rdV n).side
  | .ring h _ =>
    let t := tokenOf ts h
    if t.tag.isMx then (List.range (x.nlanes / 4)).map fun j =>
      if j < sideCount t.tag x.nlanes then BitVec.ofNat 8 (fieldN t.bytes (4 * x.nlanes + j) 1) else 0x7f
    else List.replicate (x.nlanes / 4) 0x7f
  | _ => List.replicate (x.nlanes / 4) 0x7f

/-- VMOV copies, keeping the tag for RAW, and retags (R150); VBCAST and VEXTR move single elements (R151); VSHUF, VSLIDE
and VCOMPR move words (R152, R153, R158); VLANE numbers the elements (R157). Moved words hold zero where their format's
containers do (R85). -/
def Obligations.VectorMovement : Prop :=
  (∀ (i : VInsn) (s : State) (ts : List (Nat × Token)) (x : Flight), (Instr.vmov i).entryOk = true →
    sourcesPass s i [i.a] [(i.fmt, i.a)] ts x →
    let tag : Fmt := if i.mod = 0 then
        (if i.fmt = .raw then tagOf x ts i.a else i.fmt)
      else match i.b with
        | .imm n => (Fmt.all[n.toNat]?).getD .raw
        | _ => .raw
    exec (.vmov i) s = .next (s.setX (vectorTo (x.flag (castFlags i i.fmt i.a)) i.d (s.x.guard i.g) tag
      (if tag.isMx then some (sideOf x ts i.a) else none) fun l => cleaned i.fmt (wordsAs x i ts i.fmt i.a l)))) ∧
  (∀ (i : VInsn) (s : State), (Instr.vbcast i).entryOk = true → i.mod = 0 → s.x.guard i.g ≠ 0 →
    let v : Nat := match i.a with
      | .reg n => (s.x.rdS n).toNat
      | src => element s.x i [] i.fmt src 0
    exec (.vbcast i) s = .next (s.setX (vectorTo (s.x.flag (castFlags i i.fmt i.a)) i.d (s.x.guard i.g) i.fmt none fun l =>
      cleaned i.fmt (packed (fmtWidth i.fmt) (fun _ => v) l)))) ∧
  (∀ (i : VInsn) (s : State) (ts : List (Nat × Token)) (x : Flight), (Instr.vbcast i).entryOk = true → i.mod = 1 →
    sourcesPass s i [i.a] [(i.fmt, i.a)] ts x → 0 < x.nlanes → x.r = s.x.r →
    let n := x.nlanes * (32 / fmtWidth i.fmt)
    exec (.vbcast i) s = .next (s.setX (vectorTo x i.d (s.x.guard i.g) i.fmt none fun l =>
      cleaned i.fmt (packed (fmtWidth i.fmt) (fun _ => element x i ts i.fmt i.a ((operand 64 s i i.b).toNat % n)) l)))) ∧
  (∀ (i : VInsn) (s : State) (ts : List (Nat × Token)) (x : Flight) (d : BitVec 6), (Instr.vextr i).entryOk = true →
    sourcesPass s i [i.a] [(i.fmt, i.a)] ts x → 0 < x.nlanes → x.r = s.x.r → i.d = .alt d →
    let n := x.nlanes * (32 / fmtWidth i.fmt)
    let e : BitVec (fmtWidth i.fmt) := bitsAt x i ts i.a ((operand 64 s i i.b).toNat % n)
    exec (.vextr i) s = .next (s.setX (x.wrS d (BitVec.ofInt 64 (valueOf i.fmt e))))) ∧
  (∀ (i : VInsn) (s : State) (ts : List (Nat × Token)) (x : Flight), (Instr.vshuf i).entryOk = true →
    sourcesPass s i [i.a, i.b] [(i.fmt, i.a), (.uint32, i.b)] ts x →
    exec (.vshuf i) s = .next (s.setX (vectorTo
      (x.flag (castFlags i i.fmt i.a ||| castFlags i .uint32 i.b)) i.d (s.x.guard i.g) i.fmt none fun l =>
        let b := wordsAs x i ts .uint32 i.b l
        if b.msb then 0 else cleaned i.fmt (wordsAs x i ts i.fmt i.a (b.toNat % x.nlanes))))) ∧
  (∀ (i : VInsn) (s : State) (ts : List (Nat × Token)) (x : Flight), (Instr.vslide i).entryOk = true →
    sourcesPass s i [i.a, i.b] [(i.fmt, i.a), (i.fmt, i.b)] ts x → x.r = s.x.r →
    exec (.vslide i) s = .next (s.setX (vectorTo
      (x.flag (castFlags i i.fmt i.a ||| castFlags i i.fmt i.b)) i.d (s.x.guard i.g) i.fmt none fun l =>
        let k := l + (operand 64 s i i.c).toNat % (2 * x.nlanes)
        if k < x.nlanes then cleaned i.fmt (wordsAs x i ts i.fmt i.a k)
        else if k < 2 * x.nlanes then cleaned i.fmt (wordsAs x i ts i.fmt i.b (k - x.nlanes)) else 0))) ∧
  (∀ (i : VInsn) (s : State) (ts : List (Nat × Token)) (x : Flight), (Instr.vcompr i).entryOk = true →
    sourcesPass s i [i.a] [(i.fmt, i.a)] ts x → x.r = s.x.r →
    let taken := (List.range x.nlanes).filter fun l => (predOf s i.c).getLsbD l
    exec (.vcompr i) s = .next (s.setX (vectorTo (x.flag (castFlags i i.fmt i.a)) i.d (s.x.guard i.g) i.fmt none fun l =>
      match taken[l]? with
      | some k => cleaned i.fmt (wordsAs x i ts i.fmt i.a k)
      | none => 0))) ∧
  (∀ (i : VInsn) (s : State), (Instr.vlane i).entryOk = true → s.x.guard i.g ≠ 0 →
    exec (.vlane i) s = .next (s.setX (vectorTo s.x i.d (s.x.guard i.g) i.fmt none
      (packed (fmtWidth i.fmt) fun k => (operand 64 s i i.a).toNat + k * (operand 64 s i i.b).toNat))))

/-- The identity of a scan or a reduction by addition, maximum, minimum, and, or, exclusive or (R102, R156). -/
def Sys2Proof.Claims.identityOf (op : Nat) (f : Fmt) : Int :=
  let w := fmtWidth f
  match op with
  | 1 => leastOf f w
  | 2 => greatestOf f w
  | 3 => (2 ^ w : Nat) - 1
  | _ => 0

/-- One combine of an integer scan or reduction, the bitwise ones on the w bits of each side. -/
def Sys2Proof.Claims.combineOf (op : Nat) (f : Fmt) (a b : Int) : Int :=
  let w := fmtWidth f
  match op with
  | 0 => a + b
  | 1 => max a b
  | 2 => min a b
  | 3 => ((BitVec.ofInt w a) &&& (BitVec.ofInt w b)).toNat
  | 4 => ((BitVec.ofInt w a) ||| (BitVec.ofInt w b)).toNat
  | _ => ((BitVec.ofInt w a) ^^^ (BitVec.ofInt w b)).toNat

/-- A scalar that receives one value, or a vector whose every element is it (R146, R156). -/
def Sys2Proof.Claims.reducedTo (x : Flight) (d : Dst) (m : BitVec 128) (f : Fmt) (v : Nat) (sc : Word) : Flight :=
  match d with
  | .alt k => x.wrS k sc
  | d => vectorTo x d m f none (packed (fmtWidth f) fun _ => v)

/-- VPACK halves the width of two integer sources, clamped or cut, and VUNPK widens a part of one; tags of other widths
fault FORMAT_TAG (R154). VSCAN scans in index order, lanes that are off contributing the identity (R155), and VREDI
reduces (R156). -/
def Obligations.VectorPackAndReduce : Prop :=
  (∀ (i : VInsn) (s : State) (ts : List (Nat × Token)) (x : Flight), (Instr.vpack i).entryOk = true →
    s.x.guard i.g ≠ 0 → fireAll [i.a, i.b] [] s.x = (ts, x) → sized x ts i.a → sized x ts i.b →
    let w := fmtWidth i.fmt
    let t := tagOf x ts i.a
    let n := x.nlanes * (32 / w)
    (t = tagOf x ts i.b → t.isInt = true → fmtWidth t = 2 * w →
      exec (.vpack i) s = .next (s.setX (vectorTo x i.d (s.x.guard i.g) i.fmt none (packed w fun k =>
        let e := if k < n / 2 then elementAt (2 * w) (words x ts i.a) k
          else elementAt (2 * w) (words x ts i.b) (k - n / 2)
        if i.mod = 0 then (BitVec.ofInt w (clamped i.fmt w (valueOf t (BitVec.ofNat (2 * w) e)))).toNat else e)))) ∧
    (t ≠ tagOf x ts i.b ∨ t.isInt = false ∨ fmtWidth t ≠ 2 * w → x.fault = none →
      ∃ u f, exec (.vpack i) s = .next u ∧ u.x.fault = some f ∧ f.code = .formatTag ∧ u.x.r = x.r)) ∧
  (∀ (i : VInsn) (s : State) (ts : List (Nat × Token)) (x : Flight), (Instr.vunpk i).entryOk = true →
    s.x.guard i.g ≠ 0 → fireAll [i.a] [] s.x = (ts, x) → sized x ts i.a →
    let w := fmtWidth i.fmt
    let t := tagOf x ts i.a
    let n := x.nlanes * (32 / w)
    let part : Nat := match i.b with
      | .imm p => p.toNat
      | _ => 0
    (t.isInt = true → fmtWidth t < w →
      exec (.vunpk i) s = .next (s.setX (vectorTo x i.d (s.x.guard i.g) i.fmt none (packed w fun k =>
        let e := elementAt (fmtWidth t) (words x ts i.a) (part % (w / fmtWidth t) * n + k)
        (BitVec.ofInt w (valueOf t (BitVec.ofNat (fmtWidth t) e))).toNat)))) ∧
    (t.isInt = false ∨ w ≤ fmtWidth t → x.fault = none →
      ∃ u f, exec (.vunpk i) s = .next u ∧ u.x.fault = some f ∧ f.code = .formatTag ∧ u.x.r = x.r)) ∧
  (∀ (i : VInsn) (s : State) (ts : List (Nat × Token)) (x : Flight), (Instr.vscan i).entryOk = true →
    sourcesPass s i [i.a] [(i.fmt, i.a)] ts x →
    let op : Nat := if i.mod.toNat ≤ 1 then 0 else i.mod.toNat - 1
    let e (k : Nat) : Int := if (s.x.guard i.g).getLsbD (k / (32 / fmtWidth i.fmt)) then valueOf i.fmt (bitsAt x i ts i.a k)
      else identityOf op i.fmt
    exec (.vscan i) s = .next (s.setX (vectorTo x i.d (s.x.guard i.g) i.fmt none (packed (fmtWidth i.fmt) fun k =>
      (BitVec.ofInt (fmtWidth i.fmt) (((List.range (if i.mod = 1 then k else k + 1)).map e).foldl (combineOf op i.fmt)
        (identityOf op i.fmt))).toNat)))) ∧
  (∀ (i : VInsn) (s : State) (ts : List (Nat × Token)) (x : Flight) (r : Nat), (Instr.vredi i).entryOk = true →
    sourcesPass s i [i.a] [(i.fmt, i.a)] ts x → x.nlanes = 2 ^ r →
    let op := i.mod.toNat
    let e (k : Nat) : Int := if (s.x.guard i.g).getLsbD (k / (32 / fmtWidth i.fmt)) then valueOf i.fmt (bitsAt x i ts i.a k)
      else identityOf op i.fmt
    let v := BitVec.ofInt (fmtWidth i.fmt) (((List.range (x.nlanes * (32 / fmtWidth i.fmt))).map e).foldl
      (combineOf op i.fmt) (identityOf op i.fmt))
    exec (.vredi i) s = .next (s.setX (reducedTo x i.d (s.x.guard i.g) i.fmt v.toNat
      (BitVec.ofInt 64 (valueOf i.fmt v)))))

/-- The source element that element `j` of a conversion's result is computed from, none when the conversion leaves `j`
as it was (R141). -/
def Sys2Proof.Claims.convertedFrom (lanes ws wd part j : Nat) : Option Nat :=
  let ns := lanes * (32 / ws)
  let nd := lanes * (32 / wd)
  if wd < ws then
    let base := part % (ws / wd) * ns
    if base ≤ j ∧ j < base + ns then some (j - base) else none
  else if ws < wd then some (part % (wd / ws) * nd + j)
  else some j

/-- The part an immediate names. -/
def Sys2Proof.Claims.partNo (i : VInsn) : Nat :=
  match i.b with
  | .imm p => p.toNat
  | _ => 0

/-- VCVT with FMODE.SR clear converts the elements of its part in the lanes that are on, keeps every other element of
the destination, and pushes the overflow token when SAT mode has written an element as the end of its range; with a
source tag outside the set F it faults FORMAT_TAG (R141, R142). With FMODE.SR set it changes no register but its
destination, the generators and FFLAGS. -/
def Obligations.VectorConversion : Prop :=
  ∀ (i : VInsn) (s : State) (ts : List (Nat × Token)) (x : Flight), (Instr.vcvt i).entryOk = true →
    s.x.guard i.g ≠ 0 → fireAll [i.a] [] s.x = (ts, x) → sized x ts i.a →
    (∀ d, i.d = .reg d → (x.r.rdV d).lanes.length = x.nlanes) →
    let src := tagOf x ts i.a
    let m := s.x.guard i.g
    let w := fmtWidth i.fmt
    let from_ := convertedFrom x.nlanes (fmtWidth src) w (partNo i)
    let c : CvtMode := ⟨Rnd.ofField i.rnd.toNat, !i.bit5, x.r.fmode.getLsbD 0, false⟩
    let result (j : Nat) : Option Res := (from_ j).bind fun k =>
      if m.getLsbD (j / (32 / w)) then
        some (cvtVal c i.fmt src (elemVal src (elementAt (fmtWidth src) (words x ts i.a) k)) 0)
      else none
    let old := x.oldValue i.d
    let data := vectorTo (old.2.flag (raisedBy x m i.fmt fun j => ((result j).map (·.flags)).getD 0)) i.d m i.fmt none
      (packed w fun j => ((result j).map (·.bits)).getD (elementAt w old.1.lanes j))
    let lost : List Nat := (List.range (x.nlanes * (32 / w))).filter fun j => ((result j).map (·.ovf)).getD false
    (src.inF = true → x.r.fmode.getLsbD 1 = false →
      (i.c.unused = true → exec (.vcvt i) s = .next (s.setX data)) ∧
      (∀ h k v, i.c = .ring h k → x.view h.toNat true = some v → 32 ≤ v.slotsz →
        exec (.vcvt i) s = .next (s.setX (if i.bit5 = true ∨ lost = [] then data else
          data.push h.toNat .raw
            (leBytes 16 (BitVec.ofFnLE fun l : Fin 128 => lost.any fun j =>
                ((from_ j).map fun k => decide (k / (32 / fmtWidth src) = l.val)).getD false).toNat
              ++ [i.fmt.code.setWidth 8, src.code.setWidth 8, BitVec.ofNat 8 (partNo i), 0] ++ leBytes 4 lost.length) 32)))) ∧
    (src.inF = false → x.fault = none →
      ∃ t f, exec (.vcvt i) s = .next t ∧ t.x.fault = some f ∧ f.code = .formatTag ∧ t.x.r = x.r) ∧
    (src.inF = true → x.r.fmode.getLsbD 1 = true → i.c.unused = true →
      ∃ y : Flight, exec (.vcvt i) s = .next (s.setX y) ∧
        { y.r with v := x.r.v, gens := x.r.gens, fflags := x.r.fflags } = x.r)

/-- The exponent of the largest magnitude of an MX element format (R37). -/
def Sys2Proof.Claims.emaxOf (f : Fmt) : Int :=
  match f with
  | .mxe4m3 => 8
  | .mxe5m2 => 15
  | .mxe3m2 => 4
  | .mxe2m3 => 2
  | .mxe2m1 => 2
  | _ => 0

/-- The scale byte that one value of a block needs (R143): an infinity counts as 2^128. -/
noncomputable def Sys2Proof.Claims.needOf (f : Fmt) (v : Machine.Num) : Nat :=
  if finite v then
    (if ratOf v = 0 then 0 else (max 0 (min 254 (Int.log 2 |ratOf v| - emaxOf f + 127))).toNat)
  else if v.isNan then 0 else (max 0 (min 254 (128 - emaxOf f + 127))).toNat

/-- VMXQ into a register (R143): the scale pass raises the sidecar bytes of the blocks of its part, clearing all of
them first in part 0, keeps 0x7F past the bytes that the format uses (R89), and sets NV for a NaN; the quantise pass, with FMODE.SR clear, writes each element of a lane that
is on as a(k) / 2^(X - 127) rounded once and saturated. Both tag the register with FMT. -/
def Sys2Proof.Claims.MxQuantise : Prop :=
  ∀ (i : VInsn) (s : State) (ts : List (Nat × Token)) (x : Flight) (d : BitVec 6), (Instr.vmxq i).entryOk = true →
    s.x.guard i.g ≠ 0 → fireAll [i.a] [] s.x = (ts, x) → sized x ts i.a → i.d = .reg d →
    (x.r.rdV d).lanes.length = x.nlanes →
    let src := tagOf x ts i.a
    let m := s.x.guard i.g
    let w := fmtWidth i.fmt
    let ns := x.nlanes * (32 / fmtWidth src)
    let base := partNo i % (fmtWidth src / w) * ns
    let on (j : Nat) : Bool := m.getLsbD (j / (32 / w))
    let v (j : Nat) : Machine.Num := operandValue x src (elementAt (fmtWidth src) (words x ts i.a) (j - base))
    let old := x.r.rdV d
    (src.isArith = true → i.bit5 = true →
      let nan : Bool := (List.range ns).any fun k => on (base + k) && (v (base + k)).isNan
      let kept (j : Nat) : Nat := if partNo i % (fmtWidth src / w) = 0 then 0 else ((old.side[j]?).getD 0).toNat
      let side := (List.range old.side.length).map fun j =>
        let blk := (List.range ns).filter fun k => (base + k) / 32 = j && on (base + k)
        if j < sideCount i.fmt x.nlanes then
          BitVec.ofNat 8 (blk.foldl (fun a k => max a (needOf i.fmt (v (base + k)))) (kept j))
        else 0x7f
      let y := x.flag (if nan then fNV else 0)
      exec (.vmxq i) s = .next (s.setX { y with r := y.r.wrV d ⟨old.lanes, i.fmt, side⟩ })) ∧
    (src.isArith = true → i.bit5 = false → x.r.fmode.getLsbD 1 = false →
      ∃ r : Nat → Res,
        exec (.vmxq i) s = .next (s.setX (vectorTo
          (x.flag (raisedBy x m i.fmt fun j => if base ≤ j ∧ j < base + ns then (r j).flags else 0)) i.d m i.fmt
          (some old.side) (packed w fun j =>
            if base ≤ j ∧ j < base + ns then (r j).bits else elementAt w old.lanes j))) ∧
        ∀ j, base ≤ j → j < base + ns → on j = true →
          let q : ℚ := ratOf (v j) * (2 : ℚ) ^ (127 - (((old.side[j / 32]?).getD 0).toNat : ℤ))
          (∀ fi e, mxElem i.fmt = some e → floatInfo e = some fi → finite (v j) = true →
            ∃ (neg : Bool) (n dn : Nat), 0 < dn ∧ ratOf (.fin neg n dn) = q ∧
              r j = roundMag fi neg ⟨n, dn, false⟩ (Rnd.ofField i.rnd.toNat) true) ∧
          ((v j).isNan = true → (r j).bits = (if i.fmt = .mxe4m3 then 0x7f else if i.fmt = .mxe5m2 then 0x7e else 0)) ∧
          (i.fmt = .mxint8 → finite (v j) = true → 127 ≤ q * 64 → (r j).bits = 0x7f) ∧
          (i.fmt = .mxint8 → finite (v j) = true → q * 64 ≤ -128 → (r j).bits = 0x80) ∧
          (i.fmt = .mxint8 → finite (v j) = true → -128 < q * 64 → q * 64 < 127 →
            |(((BitVec.ofNat 8 (r j).bits).toInt : ℤ) : ℚ) - q * 64| < 1)) ∧
    (src.isArith = false → x.fault = none →
      ∃ t f, exec (.vmxq i) s = .next t ∧ t.x.fault = some f ∧ f.code = .formatTag ∧ t.x.r = x.r)

/-- VMXDQ widens a part of an MX source, each element times its block's scale rounded once; a scale byte of 0xFF gives
the NaN; a source that is not MX faults FORMAT_TAG (R144). -/
def Sys2Proof.Claims.MxDequantise : Prop :=
  ∀ (i : VInsn) (s : State) (ts : List (Nat × Token)) (x : Flight), (Instr.vmxdq i).entryOk = true →
    s.x.guard i.g ≠ 0 → fireAll [i.a] [] s.x = (ts, x) → sized x ts i.a →
    let src := tagOf x ts i.a
    let m := s.x.guard i.g
    let from_ (k : Nat) : Nat :=
      if fmtWidth src < fmtWidth i.fmt then
        partNo i % (fmtWidth i.fmt / fmtWidth src) * (x.nlanes * (32 / fmtWidth i.fmt)) + k
      else k
    (src.isMx = true → ∃ r : Nat → Res,
      exec (.vmxdq i) s = .next (s.setX (vectorTo (x.flag (raisedBy x m i.fmt fun k => (r k).flags)) i.d m i.fmt none
        (packed (fmtWidth i.fmt) fun k => (r k).bits))) ∧
      ∀ k < x.nlanes * (32 / fmtWidth i.fmt),
        let b := elementAt (fmtWidth src) (words x ts i.a) (from_ k)
        let scale := ((sideOf x ts i.a)[from_ k / 32]?).getD 0x7f
        (scale = 0xff → (r k).bits = quietNan i.fmt) ∧
        (∀ e, mxElem src = some e → scale ≠ 0xff → finite (elemVal e b) = true → ratOf (elemVal e b) ≠ 0 →
          roundedOnce x i.fmt (Rnd.ofField i.rnd.toNat)
            (ratOf (elemVal e b) * (2 : ℚ) ^ ((scale.toNat : ℤ) - 127)) (r k)) ∧
        (src = .mxint8 → scale ≠ 0xff → (BitVec.ofNat 8 b).toInt ≠ 0 →
          roundedOnce x i.fmt (Rnd.ofField i.rnd.toNat)
            (((BitVec.ofNat 8 b).toInt : ℚ) / 64 * (2 : ℚ) ^ ((scale.toNat : ℤ) - 127)) (r k))) ∧
    (src.isMx = false → x.fault = none →
      ∃ t f, exec (.vmxdq i) s = .next t ∧ t.x.fault = some f ∧ f.code = .formatTag ∧ t.x.r = x.r)

/-- Quantisation to MX and back (R143, R144). -/
def Obligations.MxConversion : Prop := Sys2Proof.Claims.MxQuantise ∧ Sys2Proof.Claims.MxDequantise

/-- The pairwise tree of R102 over leaves `2^n * k` to `2^n * (k + 1) - 1`, the flags of every combine with it. -/
def Sys2Proof.Claims.treeSum (c : Nat → Nat → Res) (leaf : Nat → Res) : Nat → Nat → Res
  | 0, k => leaf k
  | n + 1, k =>
    let a := treeSum c leaf n (2 * k)
    let b := treeSum c leaf n (2 * k + 1)
    let r := c a.bits b.bits
    ⟨r.bits, a.flags ||| b.flags ||| r.flags, false⟩

/-- The rounded sum of two elements, as VADD forms it, with NV for a signalling operand (R102, R133). -/
def Sys2Proof.Claims.addOnce (x : Flight) (f : Fmt) (mode : Rnd) (a b : Nat) : Res :=
  let u := operandValue x f a
  let v := operandValue x f b
  let r := arith (x.r.fmode.getLsbD 0) f (addNum u v mode).1 mode
  ⟨r.bits, r.flags ||| (addNum u v mode).2 ||| sigFlag [u, v], false⟩

/-- VREDF reduces by the pairwise tree (R102, R146): lanes that are off enter as the identity, and every element, or the
scalar, receives the result. -/
def Sys2Proof.Claims.VectorFloatReduction : Prop :=
  ∀ (i : VInsn) (s : State) (ts : List (Nat × Token)) (x : Flight) (n : Nat) (op : BitVec 6),
    (Instr.vredf i).entryOk = true → sourcesPass s i [i.a] [(i.fmt, i.a)] ts x → i.b = .imm op →
    x.nlanes * (32 / fmtWidth i.fmt) = 2 ^ n →
    let mode := Rnd.ofField i.rnd.toNat
    let ident : Nat := match op.toNat with
      | 0 => if mode = .rdn then 0 else signOf i.fmt
      | 1 => infinity i.fmt + signOf i.fmt
      | _ => infinity i.fmt
    let leaf (k : Nat) : Res :=
      ⟨if (s.x.guard i.g).getLsbD (k / (32 / fmtWidth i.fmt)) then element x i ts i.fmt i.a k else ident, 0, false⟩
    let c : Nat → Nat → Res := match op.toNat with
      | 0 => addOnce x i.fmt mode
      | k => fun a b => minMaxRes i.fmt (k == 1) false a b (x.r.fmode.getLsbD 0)
    let r := treeSum c leaf n 0
    exec (.vredf i) s = .next (s.setX (reducedTo (x.flag (r.flags ||| castFlags i i.fmt i.a)) i.d (s.x.guard i.g)
      i.fmt r.bits (BitVec.ofNat 64 r.bits)))

/-- VDOT (R145): for int8 the sum of the products, modulo 2^32, over all lanes that are on or within each lane onto
`c`; in the floating formats the full form's products are rounded to FP32 and added by the tree of R102, and the lane
form rounds `c` plus the exact sum once. -/
def Sys2Proof.Claims.VectorDotProduct : Prop :=
  ∀ (i : VInsn) (s : State) (ts : List (Nat × Token)) (x : Flight), (Instr.vdot i).entryOk = true →
    let res : Fmt := if i.fmt = .int8 then .int32 else .fp32
    sourcesPass s i (if i.bit5 then [i.a, i.b, i.c] else [i.a, i.b])
      ((i.fmt, i.a) :: (i.fmt, i.b) :: (if i.bit5 then [(res, i.c)] else [])) ts x →
    let n := 32 / fmtWidth i.fmt
    let m := s.x.guard i.g
    let mode := Rnd.ofField i.rnd.toNat
    let ka (k : Nat) : Int := (BitVec.ofNat 8 (element x i ts i.fmt i.a k)).toInt
    let kb (k : Nat) : Int := (BitVec.ofNat 8 (element x i ts i.fmt i.b k)).toInt
    let va (k : Nat) := operandValue x i.fmt (element x i ts i.fmt i.a k)
    let vb (k : Nat) := operandValue x i.fmt (element x i ts i.fmt i.b k)
    let cast := castFlags i i.fmt i.a ||| castFlags i i.fmt i.b
    (i.bit5 = true → i.fmt = .int8 →
      exec (.vdot i) s = .next (s.setX (vectorTo x i.d m .int32 none (packed 32 fun l =>
        (BitVec.ofNat 32 (element x i ts .int32 i.c l) + BitVec.ofInt 32
          (((List.range n).map fun j => ka (l * n + j) * kb (l * n + j)).sum)).toNat)))) ∧
    (i.bit5 = false → i.fmt = .int8 →
      let v := BitVec.ofInt 32 ((((List.range (x.nlanes * n)).filter fun k => m.getLsbD (k / n)).map
        fun k => ka k * kb k).sum)
      exec (.vdot i) s = .next (s.setX (reducedTo x i.d m .int32 v.toNat (v.setWidth 64)))) ∧
    (i.bit5 = true → i.fmt ≠ .int8 → ∃ r : Nat → Res,
      exec (.vdot i) s = .next (s.setX (vectorTo (x.flag (raisedBy x m .fp32 (fun l => (r l).flags) ||| cast |||
        castFlags i .fp32 i.c)) i.d m .fp32 none (packed 32 fun l => (r l).bits))) ∧
      ∀ l < x.nlanes,
        let c := operandValue x .fp32 (element x i ts .fp32 i.c l)
        let q : ℚ := ratOf c + ((List.range n).map fun j => ratOf (va (l * n + j)) * ratOf (vb (l * n + j))).sum
        finite c = true → (∀ j < n, finite (va (l * n + j)) = true ∧ finite (vb (l * n + j)) = true) → q ≠ 0 →
          roundedOnce x .fp32 mode q (r l)) ∧
    (∀ depth, i.bit5 = false → i.fmt ≠ .int8 → x.nlanes * n = 2 ^ depth →
      ∃ leaf : Nat → Res,
        let r := treeSum (addOnce x .fp32 mode) leaf depth 0
        exec (.vdot i) s = .next (s.setX (reducedTo (x.flag (r.flags ||| cast)) i.d m .fp32 r.bits
          (BitVec.ofNat 64 r.bits))) ∧
        ∀ k < x.nlanes * n,
          (m.getLsbD (k / n) = false → leaf k = ⟨if mode = .rdn then 0 else 2 ^ 31, 0, false⟩) ∧
          (m.getLsbD (k / n) = true → finite (va k) = true → finite (vb k) = true → ratOf (va k) * ratOf (vb k) ≠ 0 →
            roundedOnce x .fp32 mode (ratOf (va k) * ratOf (vb k)) (leaf k)))


/-- Reductions and dot products of lanes (R102, R145, R146). -/
def Obligations.VectorReductionAndDotProduct : Prop := Sys2Proof.Claims.VectorFloatReduction ∧ Sys2Proof.Claims.VectorDotProduct

/-! ### Memory -/

/-- Whether a handle admits an access of `z` bytes (R162). -/
def Sys2Proof.Claims.admits (h : Handle) (sp : BitVec 3) (p : Perm) (addr z : Nat) : Prop :=
  h.v = true ∧ h.space = sp ∧ h.base.toNat ≤ addr ∧ addr + z ≤ h.limit.toNat ∧
    (match p with
     | .load => h.r = true
     | .store => h.w = true
     | .atomic => h.a = true ∧ h.r = true ∧ h.w = true)

/-- The block once an access has been translated: the marks of its page entries stand among its effects, and it has
sent one request more (R339, R361). -/
def Sys2Proof.Claims.sent (x : Flight) (es : List (Nat × Nat)) (write : Bool) : Flight :=
  { x with fx := x.fx ++ es.map fun e => .walked e.1 e.2 write, reqs := x.reqs + 1 }

/-- The bytes of a scalar access of a format (R171). -/
def Sys2Proof.Claims.bytesOf (f : Fmt) : Nat :=
  if f = .int8 ∨ f = .uint8 then 1 else if f = .int16 ∨ f = .uint16 then 2
  else if f = .int32 ∨ f = .uint32 ∨ f = .fp32 then 4 else 8

/-- A value of a format's size as LD extends it to 64 bits (R171). -/
def Sys2Proof.Claims.loaded (f : Fmt) (v : Nat) : Word :=
  let w := 8 * bytesOf f
  let u := v % 2 ^ w
  if (f = .int8 ∨ f = .int16 ∨ f = .int32) ∧ 2 ^ (w - 1) ≤ u then BitVec.ofInt 64 ((u : Int) - (2 ^ w : Nat))
  else BitVec.ofNat 64 u

/-- The effective address of a scalar access whose instruction shifts its index by `sh` (R160). -/
def Sys2Proof.Claims.address (s : State) (i : MInsn) (sh : Nat) : Word :=
  BitVec.ofNat 64 ((s.x.rdS i.base).toNat + (s.x.rdS i.index).toNat * 2 ^ sh) + i.off.signExtend 64

/-- The addresses of `n` bytes from an effective address on (R160). -/
def Sys2Proof.Claims.bytesFrom (ea : Word) (n : Nat) : List Nat := (List.range n).map fun k => ea.toNat % 2 ^ 56 + k

/-- The scalar that a field names as data. -/
def Sys2Proof.Claims.dataOf (d : Dst) : BitVec 6 := match d with | .reg n => n | _ => 0

/-- The checks of R162 in their order: an access outside its handle or past its space's end faults BOUNDS, then, for an
instruction that R165 holds for, bytes of cluster store of another kind fault as it says, then a misaligned address faults ALIGN; an access that passes
them has its homes in cell memory, cluster store or weight store (R159, R163, R165, R166), or in GLOBAL those its pages
give, the first byte that does not translate being the one that faults (R358). Every fault reports the access type,
lane, handle and full address, and a PAGE or POISON the page state and level found (R363). -/
def Obligations.AccessChecks : Prop :=
  ∀ (s : State) (x : Flight) (bh : BitVec 4) (sp : BitVec 3) (p : Perm) (ea : Word) (z align lane : Nat) (kinds : Bool),
    let addr := (ea.extractLsb' 0 56).toNat
    let isl := x.who.seq.isl
    let fault (c : FaultCode) : FaultInfo :=
      { code := c, access := p.code, lane := lane, handle := bh.toNat, ea := ea }
    let bytes := (List.range z).map (addr + ·)
    let out := s.access x bh sp p ea z align lane kinds
    let good := admits (x.r.rdB bh) sp p addr z ∧ addr + z ≤ x.spaceEnd sp
    (¬ good → out = .fail (fault .bounds)) ∧
    (good → sp = 1 → kinds = true → ∀ c, s.clusterKind isl.die isl.cluster addr z = some c → out = .fail (fault c)) ∧
    (good → (sp = 1 → kinds = true → s.clusterKind isl.die isl.cluster addr z = none) →
      (addr % align ≠ 0 → out = .fail (fault .align)) ∧
      (addr % align = 0 →
        (sp = 1 → out = .ok (bytes.map (homeCluster isl.die isl.cluster)) []) ∧
        (sp = 2 → out = .ok (bytes.map fun a => homeCell isl (x.who.seq.base.val * 32768 + a)) []) ∧
        (sp = 3 → (s.die isl.die).fenced = [] → out = .ok (bytes.map (homeWeight isl.die)) []) ∧
        (sp = 0 → ∀ home entry : Nat → Nat,
          (∀ a ∈ bytes, s.xlat x.ctx a p.code = .ok (home a) (entry a)) →
          ∃ es, out = .ok (bytes.map home) es) ∧
        (sp = 0 → 0 < z → ∀ c pg, s.xlat x.ctx addr p.code = .bad c pg →
          ∃ k, out = .fail { fault c with
            access := k, va := addr, pageAt := if c = .protect then none else some pg })))

/-- LD loads the bytes of its format's size and extends them, or with a discarded result writes nothing; ST stages its
register's low bytes for the commit; both do nothing else (R171, R51). A byte that a block has stored is what its later
instructions load (R49). -/
def Obligations.LoadsAndStores : Prop :=
  (∀ (i : MInsn) (s : State) (hs : List Nat) (es : List (Nat × Nat)) (bs : List Byte) (x : Flight),
    s.x.on0 i.g = true →
    s.access s.x i.bh i.space.code .load (address s i i.sh.toNat) (bytesOf i.fmt) (bytesOf i.fmt) 0 = .ok hs es →
    loadBytes s (sent s.x es false) hs = (bs, x) →
    exec (.ld i) s = .next (s.setX (match i.d with | .reg n => x.wrS n (loaded i.fmt (leNat bs)) | _ => x))) ∧
  (∀ (i : MInsn) (s : State) (hs : List Nat) (es : List (Nat × Nat)), s.x.on0 i.g = true →
    s.access s.x i.bh i.space.code .store (address s i i.sh.toNat) (bytesOf i.fmt) (bytesOf i.fmt) 0 = .ok hs es →
    exec (.st i) s = .next (s.setX ((sent s.x es true).store i.space.code
      (bytesFrom (address s i i.sh.toNat) (bytesOf i.fmt))
      (hs.zip (leBytes (bytesOf i.fmt) (s.x.rdS (dataOf i.d)).toNat))))) ∧
  (∀ (i : MInsn) (s : State) (f : FaultInfo), s.x.on0 i.g = true → s.x.fault = none →
    (s.access s.x i.bh i.space.code .load (address s i i.sh.toNat) (bytesOf i.fmt) (bytesOf i.fmt) 0 = .fail f →
      exec (.ld i) s = .next (s.setX { s.x with
        fault := some { f with block := s.x.pc.setWidth 56, index := s.x.idx } })) ∧
    (s.access s.x i.bh i.space.code .store (address s i i.sh.toNat) (bytesOf i.fmt) (bytesOf i.fmt) 0 = .fail f →
      exec (.st i) s = .next (s.setX { s.x with
        fault := some { f with block := s.x.pc.setWidth 56, index := s.x.idx } }))) ∧
  (∀ (s : State) (x : Flight) (sp : BitVec 3) (as : List Nat) (cells : List Host.Cell) (a : Nat) (b : Byte),
    (cells.map Prod.fst).Nodup → (a, b) ∈ cells → x.fault = none → (x.store sp as cells).fault = none →
    loadByte s (x.store sp as cells) a = (b, x.store sp as cells))

/-- The byte offsets that LDV and STV move under a mask, in order: the four bytes of each lane that is on, then for
an MX format the sidecar bytes of blocks with a lane on (R172). -/
def Sys2Proof.Claims.spanOf (f : Fmt) (n : Nat) (m : BitVec 128) : List Nat :=
  ((List.range n).filter fun l => m.getLsbD l).flatMap (fun l => [4 * l, 4 * l + 1, 4 * l + 2, 4 * l + 3])
    ++ ((List.range (if f.isMx then n / fmtWidth f else 0)).filter fun j =>
        (List.range n).any fun l => m.getLsbD l && l / fmtWidth f == j).map (4 * n + ·)

/-- The byte that stands at an offset among bytes moved. -/
def Sys2Proof.Claims.movedAt (offs : List Nat) (bs : List Byte) (k : Nat) : Option Byte :=
  (offs.zip bs).lookup k

/-- The lanes on below a number. -/
def Sys2Proof.Claims.lanesBelow (m : BitVec 128) (l : Nat) : Nat := (List.range l).countP fun k => m.getLsbD k

/-- LDV and LDG write the lanes that are on with the words loaded for them and tag their destination, a register, a
pushed token or none; where a pushed token has a scale byte that no lane loads, that byte is the model's free value; STV and STG
stage those lanes' words, after a check of their source's tag (R172, R173, R81). Guarded off in every lane they do
nothing. -/
def Obligations.VectorMemory : Prop :=
  (∀ (i : MInsn) (s : State) (hs : List Nat) (es : List (Nat × Nat)) (bs : List Byte) (x : Flight),
    let m := s.x.guard i.g
    m ≠ 0 → spanAccess s s.x i .load m = .ok hs es → loadBytes s (sent s.x es false) hs = (bs, x) →
    let got := movedAt (spanOf i.fmt s.x.nlanes m) bs
    let byte (k : Nat) : Byte := (got k).getD 0
    ∃ (n : Nat) (side : List Byte), (∀ k, i.d = .reg k → n = x.nonce ∧ side = (x.r.rdV k).side) ∧
      exec (.ldv i) s = .next (s.setX (vectorTo { x with nonce := n } i.d m i.fmt
        (if i.fmt.isMx then some (side.zipIdx.map fun p => (got (4 * s.x.nlanes + p.2)).getD p.1) else none)
        fun l => byte (4 * l + 3) ++ byte (4 * l + 2) ++ byte (4 * l + 1) ++ byte (4 * l)))) ∧
  (∀ (i : MInsn) (s : State) (hs : List Nat) (es : List (Nat × Nat)),
    let m := s.x.guard i.g
    let v := s.x.r.rdV (dataOf i.d)
    m ≠ 0 → (i.fmt = .raw ∨ v.tag = i.fmt) → spanAccess s s.x i .store m = .ok hs es →
    exec (.stv i) s = .next (s.setX ((sent s.x es true).store i.space.code
      ((spanOf i.fmt s.x.nlanes m).map fun k => (address s i i.sh.toNat).toNat % 2 ^ 56 + k)
      (hs.zip ((spanOf i.fmt s.x.nlanes m).map fun k =>
        if k < 4 * s.x.nlanes then BitVec.ofNat 8 (((v.lanes[k / 4]?).getD 0).toNat / 256 ^ (k % 4))
        else (v.side[k - 4 * s.x.nlanes]?).getD 0x7f))))) ∧
  (∀ (i : MInsn) (s : State) (hs : List Nat) (es : List (Nat × Nat)) (bs : List Byte) (x : Flight),
    let m := s.x.guard i.g
    m ≠ 0 → gatherAccess s s.x i .load i.bit15 i.sh.toNat m = .ok hs es →
    loadBytes s (sent s.x es false) hs = (bs, x) →
    exec (.ldg i) s = .next (s.setX (vectorTo x i.d m i.fmt none fun l =>
      BitVec.ofNat 32 (leNat ((bs.drop (4 * lanesBelow m l)).take 4))))) ∧
  (∀ (i : MInsn) (s : State) (hs : List Nat) (es : List (Nat × Nat)),
    let m := s.x.guard i.g
    let v := s.x.r.rdV (dataOf i.d)
    m ≠ 0 → (i.fmt = .raw ∨ v.tag = i.fmt) → gatherAccess s s.x i .store i.bit15 i.sh.toNat m = .ok hs es →
    exec (.stg i) s = .next (s.setX ((sent s.x es true).store i.space.code
      (((List.range s.x.nlanes).filter fun l => m.getLsbD l).flatMap fun l =>
        bytesFrom (s.x.eaLane i i.bit15 i.sh.toNat (((s.x.r.rdV i.index).lanes[l]?).getD 0)) 4)
      (hs.zip (((List.range s.x.nlanes).filter fun l => m.getLsbD l).flatMap fun l =>
        leBytes 4 ((v.lanes[l]?).getD 0).toNat))))) ∧
  (∀ (i : MInsn) (s : State), s.x.fault = none →
    let m := s.x.guard i.g
    let v := s.x.r.rdV (dataOf i.d)
    (m = 0 → exec (.ldv i) s = .next s ∧ exec (.stv i) s = .next s ∧ exec (.ldg i) s = .next s ∧
      exec (.stg i) s = .next s) ∧
    (m ≠ 0 → i.fmt ≠ .raw → v.tag ≠ i.fmt → ∃ f : FaultInfo, f.code = .formatTag ∧ f.index = s.x.idx ∧
      exec (.stv i) s = .next (s.setX { s.x with fault := some f }) ∧
      exec (.stg i) s = .next (s.setX { s.x with fault := some f })))

/-- Entry j of a scale plane under a format: the entries past those that the format uses in each row are 0x7F (R90). -/
def Sys2Proof.Claims.scaleKept (f : Fmt) (j : Nat) (b : Byte) : Byte :=
  let n := if f = .raw then 8 else if fmtWidth f ≤ 4 then 8 else if fmtWidth f ≤ 8 then 4 else 0
  if j % 8 < n then b else 0x7f

/-- LDT fills a tile's rows, resetting its scales unless the format is MX, or its scale plane, and tags it, with 0x7F in
the entries that the format does not use (R90); STT stages them. Each needs an allocated tile (R174, R79). TZERO clears a tile under a tag and TMOV copies one (R242). -/
def Obligations.TileMovement : Prop :=
  (∀ (i : MInsn) (s : State) (k : BitVec 6) (hs : List Nat) (es : List (Nat × Nat)) (bs : List Byte) (x : Flight),
    s.x.on0 i.g = true → i.d = .alt k → k.toNat % 8 < s.x.ntiles → tileAccess s s.x i .load = .ok hs es →
    loadBytes s (sent s.x es false) hs = (bs, x) →
    ∃ t : Tile, exec (.ldt i) s = .next (s.setX { x with r := x.r.wrT (k.setWidth 4) t }) ∧ t.tag = i.fmt ∧
      (i.bit15 = false → (∀ j, smGet 0 t.data j = (bs[j]?).getD 0) ∧
        ∀ j, smGet 0x7f t.scale j =
          if i.fmt.isMx then scaleKept i.fmt j (smGet 0x7f (x.r.rdT (k.setWidth 4)).scale j) else 0x7f) ∧
      (i.bit15 = true → (∀ j, smGet 0x7f t.scale j = scaleKept i.fmt j ((bs[j]?).getD 0x7f)) ∧
        t.data = (x.r.rdT (k.setWidth 4)).data)) ∧
  (∀ (i : MInsn) (s : State) (k : BitVec 6) (hs : List Nat) (es : List (Nat × Nat)),
    let t := s.x.r.rdT (k.setWidth 4)
    s.x.on0 i.g = true → i.d = .alt k → k.toNat % 8 < s.x.ntiles → (i.fmt = .raw ∨ t.tag = i.fmt) →
    tileAccess s s.x i .store = .ok hs es →
    smOk 0 none t.data = true → smOk 0x7f none t.scale = true →
    exec (.stt i) s = .next (s.setX ((sent s.x es true).store i.space.code
      ((if i.bit15 then List.range 1024
        else (List.range 128).flatMap fun r => (List.range 128).map fun b =>
          r * (if i.index = 0 then 128 else (s.x.rdS i.index).toNat) + b).map
        fun k => (s.x.rdS i.base + i.off.signExtend 64).toNat % 2 ^ 56 + k)
      (hs.zip (if i.bit15 then (List.range 1024).map (smGet 0x7f t.scale)
        else (List.range 16384).map (smGet 0 t.data)))))) ∧
  (∀ (i : TInsn) (s : State), s.x.on0 i.g = true → i.td.toNat % 8 < s.x.ntiles → i.ta.toNat % 8 < s.x.ntiles →
    exec (.tzero i) s = .next (s.setX { s.x with r := s.x.r.wrT i.td ⟨[], [], i.fmta⟩ }) ∧
    exec (.tmov i) s = .next (s.setX { s.x with r := s.x.r.wrT i.td (s.x.r.rdT i.ta) })) ∧
  (∀ (i : MInsn) (j : TInsn) (s : State) (k : BitVec 6), s.x.fault = none → s.x.on0 i.g = true → i.d = .alt k →
    s.x.ntiles ≤ k.toNat % 8 → s.x.on0 j.g = true → s.x.ntiles ≤ j.td.toNat % 8 →
    ∃ f : FaultInfo, f.code = .tileAlloc ∧ f.index = s.x.idx ∧
      exec (.ldt i) s = .next (s.setX { s.x with fault := some f }) ∧
      exec (.stt i) s = .next (s.setX { s.x with fault := some f }) ∧
      exec (.tzero j) s = .next (s.setX { s.x with fault := some f }) ∧
      exec (.tmov j) s = .next (s.setX { s.x with fault := some f }))

/-- ATOM, CAS and ATOMV leave their access to the commit (R52, R175 to R178), and XLD and XATOM do so after the checks
of R374. -/
def Obligations.CommitAccessesStaged : Prop :=
  (∀ (i : MInsn) (s : State) (h : Nat) (hs : List Nat) (es : List (Nat × Nat)), s.x.on0 i.g = true →
    let d := dataOf i.d
    s.access s.x i.bh i.space.code .atomic (address s i 0) (bytesOf i.fmt) (bytesOf i.fmt) 0 = .ok (h :: hs) es →
    exec (.atom i) s = .next (s.setX { sent s.x es true with
      access := some (.atom h (bytesOf i.fmt) (i.mod.setWidth 4) i.fmt (s.x.rdS d) 0 d.toNat (isFabHome h))
      accIdx := s.x.idx }) ∧
    exec (.cas i) s = .next (s.setX { sent s.x es true with
      access := some (.atom h (bytesOf i.fmt) 8 i.fmt (s.x.rdS d) (s.x.rdS (d + 1)) d.toNat (isFabHome h))
      accIdx := s.x.idx })) ∧
  (∀ (i : MInsn) (s : State) (hs : List Nat) (es : List (Nat × Nat)),
    let m := s.x.guard i.g
    let v := s.x.r.rdV (dataOf i.d)
    m ≠ 0 → (i.fmt = .raw ∨ v.tag = i.fmt) → gatherAccess s s.x i .atomic false 0 m = .ok hs es →
    exec (.atomv i) s = .next (s.setX { sent s.x es true with
      access := some (.atomv (((List.range s.x.nlanes).filter fun l => m.getLsbD l).map fun l =>
        let h := (hs[4 * lanesBelow m l]?).getD 0
        (l, h, (v.lanes[l]?).getD 0, isFabHome h)) i.mod i.fmt (dataOf i.d).toNat)
      accIdx := s.x.idx })) ∧
  (∀ (i : SInsn) (s : State) (f : Fmt), s.x.on0 i.g = true → Fmt.ofCode (i.imm.extractLsb' 0 5) = some f →
    (s.x.rdS i.c).toNat < 2 ^ 20 → (s.x.rdS i.a).toNat % bytesOf f = 0 →
    let dev : BitVec 20 := (s.x.rdS i.c).setWidth 20
    exec (.xld i) s = .next (s.setX { s.x with
      access := some (.xld (s.x.rdS i.a) dev f i.d.toNat), accIdx := s.x.idx }) ∧
    exec (.xatom i) s = .next (s.setX { s.x with
      access := some (.xatom (s.x.rdS i.a) dev (i.mod.setWidth 3) f (s.x.rdS i.d) i.d.toNat), accIdx := s.x.idx }) ∧
    exec (.xst i) s = .next (s.setX { s.x with
      fx := s.x.fx ++ [.xst (s.x.rdS i.a) dev (bytesOf f) (s.x.rdS i.b) s.x.idx] })) ∧
  (∀ (i : SInsn) (s : State) (f : Fmt), s.x.on0 i.g = true → s.x.fault = none →
    Fmt.ofCode (i.imm.extractLsb' 0 5) = some f →
    (2 ^ 20 ≤ (s.x.rdS i.c).toNat ∨ (s.x.rdS i.a).toNat % bytesOf f ≠ 0) →
    let c : FaultCode := if 2 ^ 20 ≤ (s.x.rdS i.c).toNat then .bounds else .align
    let bad : FaultInfo := { code := c, ea := s.x.rdS i.a, block := s.x.pc.setWidth 56, index := s.x.idx }
    let t := s.setX { s.x with fault := some bad }
    exec (.xld i) s = .next t ∧ exec (.xatom i) s = .next t ∧ exec (.xst i) s = .next t) ∧
  (∀ (i : SInsn) (s : State), s.x.on0 i.g = true →
    exec (.xdrain i) s = .next (s.setX { s.x with fx := s.x.fx ++ [.xdrain] }))

/-- The value that an atomic's operation leaves (R176, R177). -/
def Sys2Proof.Claims.atomicLeaves (op : Nat) (f : Fmt) (n : Nat) (old v y : BitVec n) : BitVec n :=
  let less (a b : BitVec n) : Bool :=
    if f = .uint32 then decide (a.toNat < b.toNat) else decide (a.toInt < b.toInt)
  match op with
  | 0 => old + v
  | 1 => old &&& v
  | 2 => old ||| v
  | 3 => old ^^^ v
  | 4 => if less v old then v else old
  | 5 => if less old v then v else old
  | 6 => v
  | _ => if old = v then y else old

/-- At the commit an atomic in cell memory or in a store of the package reads its word, leaves the operation's result
and no other byte changed, and gives its register the old value as LD extends it (R175 to R177). -/
def Obligations.AtomicsAct : Prop :=
  ∀ (s : State) (h z : Nat) (op : BitVec 4) (f : Fmt) (v y : Word) (d : Nat),
    s.mem.wf = true → op ≠ 7 → f ∈ [Fmt.int32, .uint32, .raw] → z = bytesOf f →
    h + z ≤ 2 ^ 64 → s.x.access = some (.atom h z op f v y d false) →
    ((s.strand s.x.who).map (·.buf)).getD [] = [] →
    let old := leNat ((List.range z).map fun k => smGet 0 s.mem.cells (h + k))
    let new := (atomicLeaves op.toNat f (8 * z) (BitVec.ofNat _ old) (v.setWidth _) (y.setWidth _)).toNat
    let t := s.accessX
    t.x = { s.x with r := s.x.r.wrS (BitVec.ofNat 6 d) (loaded f old) } ∧
    ∀ a, smGet 0 t.mem.cells a =
      if h ≤ a ∧ a < h + z then BitVec.ofNat 8 (new / 256 ^ (a - h)) else smGet 0 s.mem.cells a

/-- BND writes a handle narrowed from its source, never with a permission the source lacks, and faults BOUNDS when the
range does not lie in its source's (R180); BNDQ reads a handle's base, limit and attribute word, or tests a load of a
range, and never faults (R181); PREF begins the translation of its span at the commit where a load of the span passes
its checks, is dropped silently where it does not or outside GLOBAL, and changes and faults nothing (R179); PHASE, PUBL and SNAP stage a publication, a refresh, or both (R189). -/
def Obligations.BoundsAndPhases : Prop :=
  (∀ (i : MInsn) (s : State) (d : BitVec 6), s.x.on0 i.g = true → i.d = .alt d →
    let b := s.x.r.rdB i.bh
    let nb := ((s.x.rdS i.base + i.off.signExtend 64).extractLsb' 0 56).toNat
    let nl := nb + (s.x.rdS i.index).toNat
    let good := b.v = true ∧ i.space.code = b.space ∧ nl ≤ 2 ^ 56 ∧ b.base.toNat ≤ nb ∧ nl ≤ b.limit.toNat
    let new : Handle :=
      { base := BitVec.ofNat 56 nb, limit := BitVec.ofNat 56 nl, v := true, space := b.space
        a := i.mod.getLsbD 0 && b.a, w := i.mod.getLsbD 1 && b.w, r := i.mod.getLsbD 2 && b.r }
    let bad : FaultInfo :=
      { code := .bounds, handle := i.bh.toNat, ea := BitVec.ofNat 64 nb, block := s.x.pc.setWidth 56, index := s.x.idx }
    (good → exec (.bnd i) s = .next (s.setX { s.x with r := s.x.r.wrB (d.setWidth 4) new })) ∧
    (¬ good → s.x.fault = none → exec (.bnd i) s = .next (s.setX { s.x with fault := some bad }))) ∧
  (∀ (i : MInsn) (s : State), s.x.on0 i.g = true → (Instr.bndq i).entryOk = true →
    let b := s.x.r.rdB i.bh
    let a := ((s.x.rdS i.base + i.off.signExtend 64).extractLsb' 0 56).toNat
    let z := (s.x.rdS i.index).toNat
    let put (v : Word) : Out := .next (s.setX (s.x.wrS (dataOf i.d) v))
    (i.mod = 0 → exec (.bndq i) s = put (b.base.setWidth 64)) ∧
    (i.mod = 1 → exec (.bndq i) s = put (b.limit.setWidth 64)) ∧
    (i.mod = 2 → exec (.bndq i) s = put
      ((BitVec.ofBool b.v ++ b.space ++ 0#1 ++ BitVec.ofBool b.a ++ BitVec.ofBool b.w ++ BitVec.ofBool b.r : BitVec 8).setWidth 64)) ∧
    (i.mod = 3 →
      (admits b i.space.code .load a z ∧ a + z ≤ s.x.spaceEnd i.space.code → exec (.bndq i) s = put 1) ∧
      (¬ (admits b i.space.code .load a z ∧ a + z ≤ s.x.spaceEnd i.space.code) → exec (.bndq i) s = put 0))) ∧
  (∀ (i : MInsn) (s : State), s.x.on0 i.g = true →
    let n : Nat := match i.sh.toNat with | 0 => 64 | 1 => 4096 | _ => 65536
    let a := (address s i 0).toNat % 2 ^ 56 / n * n
    let passes : Prop := i.space = .global ∧ ∃ hs es, s.accessAt s.x i.bh 0 .load (address s i 0) a n 1 0 = .ok hs es
    (passes → exec (.pref i) s =
      .next (s.setX { s.x with fx := s.x.fx ++ [.prefetch (BitVec.ofNat 56 a) n] })) ∧
    (¬ passes → exec (.pref i) s = .next s)) ∧
  (∀ (i : SInsn) (s : State), s.x.on0 i.g = true →
    exec (.phase i) s = .next (s.setX { s.x with fx := s.x.fx ++ [.publish i.mod, .refresh i.mod] }) ∧
    exec (.publ i) s = .next (s.setX { s.x with fx := s.x.fx ++ [.publish i.mod] }) ∧
    exec (.snap i) s = .next (s.setX { s.x with fx := s.x.fx ++ [.refresh i.mod] }))

/-! ### Rings, barriers and jobs -/

/-- The block with effects added for its commit. -/
def Sys2Proof.Claims.staging (x : Flight) (fx : List Fx) : Flight := { x with fx := x.fx ++ fx }

/-- The block with the fault of the instruction at work, and no report beyond its code and what is given. -/
def Sys2Proof.Claims.faulting (x : Flight) (f : FaultInfo) : Flight :=
  { x with fault := some { f with block := x.pc.setWidth 56, index := x.idx } }

/-- The count of RRELS and RADVW: the immediate, or a scalar as it stood at block start (R204, R49). -/
def Sys2Proof.Claims.countOf (s : State) (i : SInsn) : Nat :=
  if i.mod = 0 then i.imm.toNat else (s.x.startS i.a).toNat

/-- The ring instructions (R203 to R207): RWAITF and RWAITE give the unreserved counts seen at issue, RSTAT the ring as
sampled then; RRELS passes n tokens whatever their sticky state and sends one notice of n; RADVW pushes n tokens of
zero bytes; counts outside 1..256 and handles with no ring of the direction fault RING_STATE. -/
def Sys2Proof.Claims.RingInstructions : Prop :=
  ∀ (i : SInsn) (s : State), s.x.on0 i.g = true →
    let n := countOf s i
    (∀ v, s.x.view i.h.toNat false = some v →
      exec (.rwaitf i) s = .next (s.setX (s.x.wrS i.d (BitVec.ofNat 64 v.filled))) ∧
      (1 ≤ n → n ≤ 256 → v.pos + n ≤ v.toks.length → ∃ w : RView,
        exec (.rrels i) s = .next (s.setX (s.x.setView w)) ∧ w.pos = v.pos + n ∧ w.frees = v.frees ++ [n] ∧
        w.toks = v.toks ∧ w.id = v.id ∧ w.cnt = ((v.sticks[v.pos + n]?).map (·.2.1)).getD 0)) ∧
    (∀ v, s.x.view i.h.toNat true = some v →
      exec (.rwaite i) s = .next (s.setX (s.x.wrS i.d (BitVec.ofNat 64 v.free))) ∧
      (1 ≤ n → n ≤ 256 → i.h.toNat ≠ 31 → ∀ f, Fmt.ofCode (i.c.setWidth 5) = some f →
        exec (.radvw i) s = .next (s.setX (staging s.x
          (List.replicate n (.push v.id ⟨f, List.replicate v.slotsz 0⟩)))))) ∧
    (∀ v, (s.x.view i.h.toNat false = some v ∨
        (s.x.view i.h.toNat false = none ∧ s.x.view i.h.toNat true = some v)) →
      (Instr.rstat i).entryOk = true →
      exec (.rstat i) s = .next (s.setX (s.x.wrS i.d (BitVec.ofNat 64 (match i.mod.toNat with
        | 0 => v.filled | 1 => v.free | 2 => v.rp.toNat | 3 => v.wp.toNat
        | 4 => v.nslot | 5 => v.slotsz | 6 => v.stall | _ => v.starve))))) ∧
    (s.x.fault = none → (s.x.view i.h.toNat false = none ∨ n = 0 ∨ 256 < n) →
      exec (.rrels i) s = .next (s.setX (faulting s.x { code := .ringState }))) ∧
    (s.x.fault = none → (s.x.view i.h.toNat true = none ∨ n = 0 ∨ 256 < n) →
      exec (.radvw i) s = .next (s.setX (faulting s.x { code := .ringState })))

/-- RFLUSH stages its flush and writes the count that its block takes for it, at first 0 (R207). The flush keeps exactly
the k reserved tokens at the head, discards every other, and sends one notice of the discarded count. At the commit a
block that has taken another count than the one settled runs again, from its first instruction, with the one settled, so
that its later instructions read the count (R49). -/
def Sys2Proof.Claims.RingFlush : Prop :=
  (∀ (i : SInsn) (s : State) (v : RView), s.x.on0 i.g = true → s.x.view i.h.toNat false = some v →
    let mine := s.x.late.find? (·.1 == s.x.idx)
    exec (.rflush i) s = .next (s.setX { staging (s.x.wrS i.d ((mine.map (·.2)).getD 0)) [.flush v.id s.x.idx] with
      late := if mine.isSome then s.x.late else (s.x.idx, 0) :: s.x.late })) ∧
  (∀ (q : Ring) (k : Nat), k ≤ q.slots.length → (∀ t ∈ q.slots, t.gone = false ∧ t.note = 0) →
    (∀ t ∈ q.slots.take k, t.res = true) → (∀ t ∈ q.slots.drop k, t.res = false) →
    let n := q.slots.length - k
    q.flush = ({ q with
      slots := q.slots.take k, notices := q.notices ++ (if n = 0 then [] else [n]) }, n)) ∧
  (∀ (s : State) (r : RingId) (k : Nat) (q : Ring), s.ring r = some q →
    s.settles (.flush r k) = some (k, BitVec.ofNat 64 q.flush.2) ∧
    (s.fxX (.flush r k)).ring r = some q.flush.1 ∧ (s.fxX (.flush r k)).x = s.x ∧ (s.fxX (.flush r k)).mem = s.mem) ∧
  (∀ s : State, s.x.active = true → s.x.fault = none → s.x.todo = [] → s.x.again < 16 →
    (∃ p ∈ s.x.late, ∃ q, s.lateValues.find? (·.1 == p.1) = some q ∧ q.2 ≠ p.2) →
    ∃ t, exec .blockCommit s = .next t ∧ t.x.todo = s.x.first ∧ t.x.idx = 0 ∧ t.x.late = s.lateValues ∧
      t.x.r = { s.x.r0 with lbuf := s.x.r.lbuf } ∧ t.x.staged = [] ∧ t.x.exit = none ∧ t.x.fault = none ∧
      t.mem = s.mem ∧ t.chan = s.chan)

/-- Rings through instructions and their flush (R203 to R207). -/
def Obligations.RingsPushedPoppedAndFlushed : Prop := Sys2Proof.Claims.RingInstructions ∧ Sys2Proof.Claims.RingFlush

/-- The barrier instructions (R222 to R225): BINIT, BARV and BEXP stage their events, BWAIT writes nothing, BTEST gives
the object as sampled at issue; an index that the table does not hold faults BARRIER_STATE, one of another context
PROTECT with the barrier's element address (R339), and values out of range BARRIER_STATE. -/
def Obligations.BarrierInstructions : Prop :=
  ∀ (i : SInsn) (s : State), s.x.on0 i.g = true →
    let h := i.h.toNat
    let a := (s.x.rdS i.a).toNat
    let n := (s.x.rdS i.b).toNat
    let send (e : BarEvent) : Out := .next (s.setX (staging s.x [.barrier (s.barIdOf s.x h) e s.x.idx]))
    let bad (c : FaultCode) : Out :=
      .next (s.setX (faulting s.x { code := c, aux := h, element := if c = .protect then
        s.x.who.seq.isl.cluster.val * 2 ^ 18 + 3 * 2 ^ 15 + 0x200 + h else 0 }))
    (∀ b, s.x.bars.find? (·.1 == h) = some (h, some b) →
      (1 ≤ a → a ≤ 65535 → n < 2 ^ 43 → exec (.binit i) s = send (.init a n)) ∧
      (n < 2 ^ 43 → exec (.barv i) s = send (if i.mod = 0 then .arrive n else .credit n)) ∧
      (n < 2 ^ 43 → exec (.bexp i) s = send (if i.mod = 0 then .debit n else .debitArrive n)) ∧
      (b.ovf = false → exec (.bwait i) s = .next s) ∧
      ((Instr.btest i).entryOk = true →
        exec (.btest i) s = .next (s.setX (s.x.wrS i.d (match i.mod.toNat with
          | 0 => (BitVec.ofBool b.phase).setWidth 64
          | 1 => BitVec.ofNat 64 b.arr
          | 2 => BitVec.ofInt 64 b.bytes
          | 3 => BitVec.ofNat 64 b.exparr
          | 4 => BitVec.ofNat 64 b.expbytes
          | _ => (BitVec.ofBool b.ovf).setWidth 64)))) ∧
      (s.x.fault = none →
        ((a = 0 ∨ 65535 < a ∨ 2 ^ 43 ≤ n) → exec (.binit i) s = bad .barrierState) ∧
        (2 ^ 43 ≤ n → exec (.barv i) s = bad .barrierState ∧ exec (.bexp i) s = bad .barrierState) ∧
        (b.ovf = true → exec (.bwait i) s = bad .barrierState))) ∧
    (∀ o : Option (Nat × Option BarObj), s.x.bars.find? (·.1 == h) = o → s.x.fault = none →
      (o = none ∨ o = some (h, none)) →
      let c : FaultCode := if o = none then .barrierState else .protect
      exec (.binit i) s = bad c ∧ exec (.barv i) s = bad c ∧ exec (.bexp i) s = bad c ∧
      exec (.bwait i) s = bad c ∧ exec (.btest i) s = bad c)

/-- A job as a strand's instruction submits it: its kind, scope, barrier, whether it posts an event record, and what its
command carries; the strand's handles go with it, and its number is the job counter's next (R191, R336). -/
def Sys2Proof.Claims.jobOf (x : Flight) (kind : JobKind) (scope : BitVec 4) (bar : Option Nat) (ev : Bool)
    (recAt : Option (Nat × Nat)) (args : List Word) : JobReq :=
  { kind := kind, index := x.idx, scope := scope, bar := bar, ev := ev, recAt := recAt, bytes := [], args := args
    hs := x.r.b, tile := none, path := none, ring := none, seqno := x.r.jobctr + 1 }

/-- The block with a job submitted for its commit: the job counter goes on to the job's number (R336). -/
def Sys2Proof.Claims.submitted (x : Flight) (j : JobReq) : Flight :=
  { staging x [.job j] with r := { x.r with jobctr := j.seqno } }

/-- A submission that names no barrier, or one that the region's table holds for this context (R437). -/
def Sys2Proof.Claims.barHeld (x : Flight) (bar : Option Nat) : Prop :=
  ∀ b, bar = some b → ∃ o, x.bars.find? (·.1 == b) = some (b, some o)

/-- A range of `n` bytes from an address that its handle admits and that its space and cluster store's kinds allow
(R162, R165, R211). -/
def Sys2Proof.Claims.rangeOk (s : State) (bh : BitVec 4) (sp : BitVec 3) (p : Perm) (ea : Word) (n : Nat) : Prop :=
  let a := (ea.extractLsb' 0 56).toNat
  admits (s.x.r.rdB bh) sp p a n ∧ a + n ≤ s.x.spaceEnd sp ∧
  (sp = 1 → s.clusterKind s.x.who.seq.isl.die s.x.who.seq.isl.cluster a n = none)

/-- The copy instructions submit a job of their scope whose command carries their fields, and write its number to their
destination (R210 to R213, R245); CPYT and CPYQ name the record that the commit captures (R436). A range that R162
refuses faults, and submits nothing. -/
def Obligations.CopyInstructions : Prop :=
  ∀ (i : SInsn) (s : State), s.x.on0 i.g = true →
    let m := i.imm
    let bar : Option Nat := if m.getLsbD 15 then none else some i.h.toNat
    let z (n : Nat) (v : BitVec n) : Word := v.setWidth 64
    let give (x : Flight) (j : JobReq) : Out := .next (s.setX ((submitted x j).wrS i.d (j.seqno.setWidth 64)))
    let rec_ (hs : List Nat) (es : List (Nat × Nat)) (h : Nat) : Prop :=
      s.access s.x (i.c.setWidth 4) 1 .load (s.x.rdS i.a) 96 32 0 false = .ok (h :: hs) es
    (barHeld s.x bar →
      (let n := s.x.rdS i.c
       n.toNat < 2 ^ 32 →
       rangeOk s (m.extractLsb' 0 4) (m.extractLsb' 8 3) .store (s.x.rdS i.a) n.toNat →
       rangeOk s (m.extractLsb' 4 4) (m.extractLsb' 11 3) .load (s.x.rdS i.b) n.toNat →
       exec (.cpy i) s = give s.x (jobOf s.x .copyLinear i.mod bar (m.getLsbD 14) none
         [s.x.rdS i.a, s.x.rdS i.b, n, z 3 (m.extractLsb' 8 3), z 3 (m.extractLsb' 11 3),
          z 4 (m.extractLsb' 0 4), z 4 (m.extractLsb' 4 4)])) ∧
      (∀ hs es h, rec_ hs es h →
        exec (.cpyt i) s = give (sent s.x es false) (jobOf s.x .copyTensor i.mod bar (m.getLsbD 14) (some (h, 96))
          [s.x.rdS i.b, z 3 (m.extractLsb' 8 3), z 3 (m.extractLsb' 11 3), z 4 (m.extractLsb' 0 4),
           z 4 (m.extractLsb' 4 4), if m.getLsbD 16 then 1 else 0]))) ∧
    (let bar : Option Nat := if m.getLsbD 5 then none else some (m.extractLsb' 0 5).toNat
     barHeld s.x bar → ∀ hs es h r, rec_ hs es h → (s.x.rdS i.b).toNat < 2 ^ 32 →
       s.copyRing s.x i.h.toNat = some r →
       exec (.cpyq i) s = give (sent s.x es false)
         { jobOf s.x .copyRing i.mod bar (m.getLsbD 6) (some (h, 96))
             [s.x.rdS i.b, z 3 (m.extractLsb' 7 3), z 3 (m.extractLsb' 14 3), z 4 (m.extractLsb' 10 4)] with
           ring := some (r, 0) }) ∧
    (let bar : Option Nat := if m.getLsbD 8 then none else some i.h.toNat
     let kind := (m.extractLsb' 14 2).toNat
     let w : Nat := if kind = 0 then fmtWidth ((Fmt.ofCode (m.extractLsb' 9 5)).getD .raw) else if kind = 1 then 8 else 16
     let n := (s.x.rdS i.c).toNat * 16 * w
     let a := ((s.x.rdS i.a).extractLsb' 0 56).toNat
     barHeld s.x bar → admits (s.x.r.rdB (m.extractLsb' 0 4)) (m.extractLsb' 4 3) .load a n →
       a + n ≤ s.x.spaceEnd (m.extractLsb' 4 3) →
       exec (.cpyb i) s = give s.x (jobOf s.x .cpyb i.mod bar (m.getLsbD 7) none
         [s.x.rdS i.a, z 3 (m.extractLsb' 4 3), z 4 (m.extractLsb' 0 4), s.x.rdS i.b, s.x.rdS i.c,
          z 5 (m.extractLsb' 9 5), z 2 (m.extractLsb' 14 2)])) ∧
    (s.x.fault = none →
      let n := (s.x.rdS i.c).toNat
      let a := ((s.x.rdS i.a).extractLsb' 0 56).toNat
      ¬ admits (s.x.r.rdB (m.extractLsb' 0 4)) (m.extractLsb' 8 3) .store a n →
      ∃ f : FaultInfo, f.code = .bounds ∧ f.index = s.x.idx ∧
        exec (.cpy i) s = .next (s.setX { s.x with fault := some f }))

/-- Element `k` of width `w` of row `r` of a tile (R90). -/
def Sys2Proof.Claims.tileElem (w : Nat) (t : Tile) (r k : Nat) : Nat :=
  leNat ((List.range 128).map fun b => smGet 0 t.data (128 * r + b)) / 2 ^ (w * k) % 2 ^ w

/-- The fields of a task's 64-byte record (R230). -/
structure Sys2Proof.Claims.TaskIs (bs : List Byte) (kind : Nat) (fa fb : Fmt) (flags acc nsp k boff soff moff asel imask : Nat) :
    Prop where
  size : bs.length = 64
  kindOk : fieldN bs 0 2 = kind
  formats : fieldN bs 2 1 = fa.code.toNat ∧ fieldN bs 3 1 = fb.code.toNat
  flagsOk : fieldN bs 4 1 = flags
  accOk : fieldN bs 5 1 = acc
  counts : fieldN bs 7 1 = nsp ∧ fieldN bs 8 2 = k
  offsets : fieldN bs 10 2 = boff ∧ fieldN bs 12 2 = soff ∧ fieldN bs 14 2 = moff
  source : fieldN bs 16 1 = asel ∧ fieldN bs 17 1 = imask
  rest : fieldN bs 20 44 = 0

/-- An accumulator name that was unbound has a pending binding (R231, R238). -/
def Sys2Proof.Claims.binding (x : Flight) (c : Fin 4) : Flight :=
  if x.r.acc[c] = .unbound then { x with r := { x.r with acc := x.r.acc.set c .pending } } else x

/-- MTASK and MTASKS submit the task whose record R238 lays out, with their tile as it stands or the token at the head
of the handle's reservation, which they pass (R232); a task with Z gives an unbound name a pending binding, and one
without Z on an unbound name faults TILE_ALLOC. MZERO submits its record and binds; MWAIT writes nothing (R239, R240). -/
def Sys2Proof.Claims.MatrixTasks : Prop :=
  (∀ (sparse : Bool) (i : TInsn) (s : State), s.x.on0 i.g = true →
    let e : Out := exec (if sparse then .mtasks i else .mtask i) s
    let c := accOf i.td
    let z := i.mod.getLsbD 3
    let ev := i.mod.getLsbD 2
    let ring := i.mod.getLsbD 0
    let v := s.x.rdS i.sx
    let nb := v.getLsbD 53
    let bar : Option Nat := if nb then none else some (v.extractLsb' 48 5).toNat
    let k : Nat := if sparse then 96 * ((i.aux.extractLsb' 0 6).toNat + 1) else 32 * ((i.aux.extractLsb' 0 8).toNat + 1)
    let nsp : Nat := if sparse then
      (if i.aux.extractLsb' 6 2 = 0 then 3 else if i.aux.extractLsb' 6 2 = 1 then 4 else 6) else 0
    let is (bs : List Byte) : Prop := TaskIs bs (if sparse then 0x11 else 0x10) i.fmta i.fmtb
      ((if z then 1 else 0) + (if ev then 2 else 0) + (if nb then 4 else 0) + (if ring then 8 else 0)) c.val nsp k
      (v.extractLsb' 0 16).toNat (v.extractLsb' 16 16).toNat (v.extractLsb' 32 16).toNat
      (if ring then i.sy.toNat else i.ta.toNat) i.imask.toNat
    let done (x : Flight) : Flight := if z then binding x c else x
    ((z = true ∨ s.x.r.acc[c] ≠ .unbound) → barHeld s.x bar →
      (ring = false → i.ta.toNat % 8 < s.x.ntiles → (s.x.r.rdT i.ta).tag = i.fmta →
        ∃ bs, is bs ∧ e = .next (s.setX (done (submitted s.x
          { jobOf s.x .task 2 bar ev none [c.val] with bytes := bs, tile := some (s.x.r.rdT i.ta) })))) ∧
      (ring = true → ∀ w t, s.x.view i.sy.toNat false = some w → w.toks[w.pos]? = some t → t.tag = i.fmta →
        16 * k * fmtWidth i.fmta + (if i.fmta.isMx then 4 * k else 0) ≤ t.bytes.length →
        ∃ bs u, is bs ∧ u.pos = w.pos + 1 ∧ u.taken = w.pos :: w.taken ∧ u.frees = w.frees ∧
          e = .next (s.setX (done (submitted (s.x.setView u)
            { jobOf s.x .task 2 bar ev none [c.val] with
              bytes := bs, ring := some (w.id, (w.nums[w.pos]?).getD 0) }))))) ∧
    (z = false → s.x.r.acc[c] = .unbound → s.x.fault = none →
      e = .next (s.setX (faulting s.x { code := .tileAlloc })))) ∧
  (∀ (i : TInsn) (s : State), s.x.on0 i.g = true →
    let c := accOf i.td
    let ev := i.mod.getLsbD 2
    (∃ bs, TaskIs bs 0x12 .fp32 .fp32 (5 + if ev then 2 else 0) c.val 0 0 0 0 0 0 i.imask.toNat ∧
      exec (.mzero i) s = .next (s.setX (binding (submitted s.x
        { jobOf s.x .mzero 2 none ev none [c.val] with bytes := bs }) c))) ∧
    exec (.mwait i) s = .next s)

/-- MRD of a bound name ORs the slot's flags into FFLAGS and with `.rel` unbinds the name (R241). Its vector form gives
the elements C(r, c0 + k), converted, and zero past column 127; its tile form writes one tile, tagged FMTA; its cluster
form submits a job that writes the converted image. An unbound name faults TILE_ALLOC (R237). -/
def Sys2Proof.Claims.AccumulatorRead : Prop :=
  ∀ (i : TInsn) (s : State), s.x.on0 i.g = true → (Instr.mrd i).entryOk = true →
    let c := accOf i.ta
    let m := s.x.guard i.g
    let w := fmtWidth i.fmta
    (∀ (isl k : Fin 4) (vals : SMap 32) (fl : BitVec 5), s.x.r.acc[c] = .bound isl k →
      s.x.accs.find? (·.1 == c) = some (c, vals, fl) → smOk 0 none vals = true →
      let ends (x : Flight) : Flight :=
        let x := x.flag (fl &&& 0b11101)
        if i.mod.getLsbD 3 then { staging x [.accRelease c] with r := { x.r with acc := x.r.acc.set c .unbound } } else x
      let cv : CvtMode := ⟨Rnd.ofField i.rnd.toNat, !i.mod.getLsbD 2, s.x.r.fmode.getLsbD 0, false⟩
      (i.mod.extractLsb' 0 2 = 1 → s.x.r.fmode.getLsbD 1 = false →
        let c0 := ((s.x.rdS i.sx).extractLsb' 0 7).toNat
        let r := (i.aux.extractLsb' 0 7).toNat
        ∃ f, exec (.mrd i) s = .next (s.setX (ends (vectorTo (s.x.flag f) (.reg i.sy) m i.fmta none
          (packed w fun k => if c0 + k < 128 then
            (cvtVal cv i.fmta .fp32 (elemVal .fp32 (smGet 0 vals (128 * r + c0 + k)).toNat) 0).bits else 0))))) ∧
      (i.mod.extractLsb' 0 2 = 0 → i.td.toNat % 8 < s.x.ntiles →
        ∃ (x : Flight) (t : Tile), exec (.mrd i) s = .next (s.setX (ends { x with r := x.r.wrT i.td t })) ∧
          t.tag = i.fmta ∧ { x with r := s.x.r } = s.x ∧
          { x.r with gens := s.x.r.gens, fflags := s.x.r.fflags } = s.x.r) ∧
      (i.mod.extractLsb' 0 2 = 2 → ∀ hs es,
        laneAccesses (fun r => s.access s.x (i.aux.extractLsb' 0 4) 1 .store
          (s.x.rdS i.sx + BitVec.ofNat 64 (r * (s.x.rdS i.sy).toNat)) (16 * w + if i.fmta.isMx then 4 else 0) 16 0)
          (List.range 128) = .ok hs es →
        ∃ (x : Flight) (bs : List Byte), exec (.mrd i) s = .next (s.setX (ends (submitted x
            { jobOf s.x .mrdWrite 2 none false none [s.x.rdS i.sx, s.x.rdS i.sy,
                BitVec.ofNat 64 (16 * w + if i.fmta.isMx then 4 else 0), c.val] with bytes := bs }))) ∧
          { x with r := s.x.r } = sent s.x es true ∧
          { x.r with gens := s.x.r.gens, fflags := s.x.r.fflags } = s.x.r)) ∧
    ((∀ isl k, s.x.r.acc[c] ≠ .bound isl k) → s.x.fault = none →
      exec (.mrd i) s = .next (s.setX (faulting s.x { code := .tileAlloc })))

/-- Matrix tasks submitted and accumulators read (R231, R232, R237 to R241). -/
def Obligations.MatrixTasksAndAccumulators : Prop := Sys2Proof.Claims.MatrixTasks ∧ Sys2Proof.Claims.AccumulatorRead

/-- TCVT converts a tile part by part as VCVT does (R243), and TSLICE, in MAINT mode, moves one row or column between
a tile and the lanes that are on; in SERVICE mode it faults MAINT_ONLY (R244). -/
def Obligations.TileConversion : Prop :=
  (∀ (i : TInsn) (s : State), s.x.on0 i.g = true → i.td.toNat % 8 < s.x.ntiles → i.ta.toNat % 8 < s.x.ntiles →
    let a := s.x.r.rdT i.ta
    let d := s.x.r.rdT i.td
    let ws := fmtWidth a.tag
    let wd := fmtWidth i.fmta
    let cv : CvtMode := ⟨Rnd.ofField i.rnd.toNat, !i.mod.getLsbD 3, s.x.r.fmode.getLsbD 0, false⟩
    (a.tag ≠ .raw → a.tag ≠ .mask → (a.tag.isMx && i.fmta.isMx) = false →
      ∃ (x : Flight) (t : Tile), exec (.tcvt i) s = .next (s.setX { x with r := x.r.wrT i.td t }) ∧
        t.tag = i.fmta ∧ { x with r := s.x.r } = s.x ∧
        { x.r with gens := s.x.r.gens, fflags := s.x.r.fflags } = s.x.r ∧
        (a.tag.isMx = false → i.fmta.isMx = false → s.x.r.fmode.getLsbD 1 = false →
          smOk 0 none a.data = true → smOk 0 none d.data = true →
          t.scale = [] ∧ ∀ r < 128, ∀ j < 1024 / wd,
            tileElem wd t r j = match convertedFrom 32 ws wd (i.aux.extractLsb' 0 3).toNat j with
              | some k => (cvtVal cv i.fmta a.tag (elemVal a.tag (tileElem ws a r k)) 0).bits % 2 ^ wd
              | none => tileElem wd d r j)) ∧
    ((a.tag = .raw ∨ a.tag = .mask ∨ (a.tag.isMx && i.fmta.isMx) = true) → s.x.fault = none →
      exec (.tcvt i) s = .next (s.setX (faulting s.x { code := .formatTag })))) ∧
  (∀ (i : TInsn) (s : State), s.x.on0 i.g = true →
    let wr := i.mod.getLsbD 3
    let col := i.mod.getLsbD 2
    let tf := if wr then i.td else i.ta
    let t := s.x.r.rdT tf
    let w := fmtWidth i.fmta
    let idx := (s.x.rdS i.sx + i.aux.signExtend 64).toNat
    let m := s.x.guard i.g
    let v := s.x.r.rdV i.sy
    (s.x.maint = true → tf.toNat % 8 < s.x.ntiles → (i.fmta = .raw ∨ t.tag = i.fmta) → smOk 0 none t.data = true →
      idx < (if col then 1024 / w else 128) →
      (wr = false → exec (.tslice i) s = .next (s.setX (vectorTo s.x (.reg i.sy) m i.fmta none
        (if col then packed w fun k => if k < 128 then tileElem w t k idx else 0
         else fun l => if l < 32 then BitVec.ofNat 32 (tileElem 32 t idx l) else 0)))) ∧
      (wr = true → (i.fmta = .raw ∨ v.tag = i.fmta) → v.lanes.length = s.x.nlanes →
        ∃ u : Tile, exec (.tslice i) s = .next (s.setX { s.x with r := s.x.r.wrT i.td u }) ∧ u.tag = t.tag ∧
          u.scale = t.scale ∧
          (col = false → ∀ r < 128, ∀ l < 32, tileElem 32 u r l =
            if r = idx ∧ l < s.x.nlanes ∧ m.getLsbD l = true then ((v.lanes[l]?).getD 0).toNat else tileElem 32 t r l) ∧
          (col = true → ∀ r < 128, ∀ k < 1024 / w, tileElem w u r k =
            if k = idx ∧ r < s.x.nlanes * (32 / w) ∧ m.getLsbD (r / (32 / w)) = true then elementAt w v.lanes r
            else tileElem w t r k))) ∧
    (s.x.maint = false → s.x.fault = none →
      exec (.tslice i) s = .next (s.setX (faulting s.x { code := .maintOnly }))))

/-- The first row of a part of a 16-bit vector (R258). -/
def Sys2Proof.Claims.partOfRows (s : State) (i : TInsn) : Nat :=
  (i.aux.extractLsb' 0 3).toNat % max 1 (128 / (2 * s.x.nlanes)) * (2 * s.x.nlanes)

/-- TDNODE computes R257's table; TDGRP gives the stable order of the rows by NODE and counts the distinct ones among
the active rows (R258); TDSTEP and TDLEAF submit their jobs (R255, R256); and TDGRAD writes 0.25 for a zero margin, the
canonical NaN where R260 names it, and zero past LEVEL and ROWS. -/
def Sys2Proof.Claims.TreeInstructions : Prop :=
  (∀ (i : TInsn) (s : State), s.x.on0 i.g = true → (Instr.tdnode i).entryOk = true →
    let n := (s.x.rdS i.sy).toNat
    exec (.tdnode i) s = .next (s.setX (s.x.wrS i.sx (match i.mod.toNat with
      | 0 => 2 * s.x.rdS i.sy + 1
      | 1 => 2 * s.x.rdS i.sy + 2
      | 2 => if n = 0 then BitVec.allOnes 64 else BitVec.ofNat 64 ((n - 1) / 2)
      | 3 => if n = 2 ^ 64 - 1 then 63 else BitVec.ofNat 64 (Nat.log 2 (n + 1))
      | 4 => if n ≤ 63 then BitVec.ofNat 64 (2 ^ n - 1) else BitVec.allOnes 64
      | _ => s.x.rdS i.sx + s.x.rdS i.sy * 64 * (BitVec.ofNat 64 (i.aux.toNat + 1)))))) ∧
  (∀ (i : TInsn) (s : State), s.x.on0 i.g = true →
    let d := s.x.r.rdD i.ta
    let n := min d.nrows 128
    ∃ order : List Nat, order.Perm (List.range 128) ∧
      (∀ a b, a < b → b < n → ∃ p q, order[a]? = some p ∧ order[b]? = some q ∧
        (d.node p < d.node q ∨ (d.node p = d.node q ∧ p < q))) ∧
      (∀ a, n ≤ a → a < 128 → order[a]? = some a) ∧
      exec (.tdgrp i) s = .next (s.setX ((vectorTo s.x (.reg i.sy) (s.x.guard i.g) .uint16 none
        (packed 16 fun k => (order[partOfRows s i + k]?).getD 0)).wrS i.sx
          (BitVec.ofNat 64 ((List.range n).map d.node).dedup.length)))) ∧
  (∀ (i : TInsn) (s : State) (h : Nat) (hs : List Nat) (es : List (Nat × Nat)), s.x.on0 i.g = true →
    s.access s.x (i.aux.extractLsb' 0 4) 1 .load (s.x.rdS i.sx) 64 64 0 false = .ok (h :: hs) es →
    let ev := i.mod.getLsbD 3
    let cluster := i.mod.getLsbD 1
    let tile (f : BitVec 4) : Option Tile := if cluster then none else some (s.x.r.rdT f)
    let ok (f : BitVec 4) : Prop := cluster = true ∨ (f.toNat % 8 < s.x.ntiles ∧ (s.x.r.rdT f).tag = i.fmta)
    let z (n : Nat) (v : BitVec n) : Word := v.setWidth 64
    (ok i.ta → exec (.tdstep i) s = .next (s.setX (submitted (sent s.x es false)
      { jobOf s.x .tdstep 2 none ev (some (h, 64)) [z 2 (i.td.extractLsb' 0 2), z 4 i.imask, z 5 i.fmta.code,
          z 5 i.fmtb.code, z 4 i.ta] with tile := tile i.ta }))) ∧
    (ok i.tb → (i.mod.getLsbD 0 = true ∨ i.td.toNat % 8 < s.x.ntiles) →
      exec (.tdleaf i) s = .next (s.setX (submitted (sent s.x es false)
        { jobOf s.x .tdleaf 2 none ev (some (h, 64)) [z 2 (i.ta.extractLsb' 0 2), z 4 i.imask, z 5 i.fmta.code,
            z 5 i.fmtb.code, z 4 i.tb, if i.mod.getLsbD 0 then 16 else z 4 i.td,
            if i.mod.getLsbD 2 then 1 else 0] with tile := tile i.tb })))) ∧
  (∀ (i : TInsn) (s : State), s.x.on0 i.g = true → i.td.toNat % 8 < s.x.ntiles → i.fmta ∈ [Fmt.fp32, .bf16, .fp16] →
    let d := s.x.r.rdD i.ta
    let tau := (s.x.rdS i.sx).setWidth 32
    let e := (tau.extractLsb' 23 8).toNat
    let w := fmtWidth i.fmta
    let quarter : Nat := if i.fmta = .fp32 then 0x3e800000 else if i.fmta = .bf16 then 0x3e80 else 0x3400
    ∃ (t : Tile) (fl : BitVec 5), exec (.tdgrad i) s =
        .next (s.setX { s.x.flag fl with r := (s.x.flag fl).r.wrT i.td t }) ∧ t.tag = i.fmta ∧ t.scale = [] ∧
      ∀ r < 128, ∀ l < 1024 / w,
        ((d.nrows ≤ r ∨ d.level ≤ l) → tileElem w t r l = 0) ∧
        (r < d.nrows → l < d.level →
          ((tau.getLsbD 31 = true ∨ e = 0 ∨ e = 255 ∨ (elemVal .fp16 (d.margin r l)).isNan = true) →
            tileElem w t r l = quietNan i.fmta) ∧
          (tau.getLsbD 31 = false → 1 ≤ e → e ≤ 254 → (d.margin r l = 0 ∨ d.margin r l = 0x8000) →
            tileElem w t r l = quarter)))

/-- TDPATH moves NODE, PATH and margins between rows and lanes, and headers to and from scalars; a header value out of
range faults BOUNDS (R259). -/
def Sys2Proof.Claims.PathFields : Prop :=
  ∀ (i : TInsn) (s : State), s.x.on0 i.g = true → (Instr.tdpath i).entryOk = true →
    let a := s.x.r.rdD i.ta
    let d := s.x.r.rdD i.td
    let m := s.x.guard i.g
    let base := partOfRows s i
    let k := i.mod.toNat
    let lo : Nat := if k % 8 = 0 then 0 else if k % 8 = 1 then 16 else 32 + 16 * (i.aux.extractLsb' 3 4).toNat
    let v := s.x.rdS i.sx
    let f := a.hdr
    let flags : BitVec 5 := BitVec.ofBool (f.getLsbD 23) ++ BitVec.ofBool (f.getLsbD 22) ++
      BitVec.ofBool (f.getLsbD 21) ++ 0#1 ++ BitVec.ofBool (f.getLsbD 20)
    let good := (v.extractLsb' 0 5).toNat ≤ 16 ∧ (v.extractLsb' 8 8).toNat ≤ 128 ∧ v &&& (~~~0xff1f) = 0
    (k ≤ 2 → exec (.tdpath i) s = .next (s.setX (vectorTo s.x (.reg i.sy) m i.fmta none
      (packed 16 fun j => if base + j < 128 then ((a.row (base + j)).extractLsb' lo 16).toNat else 0)))) ∧
    (k = 3 → exec (.tdpath i) s = .next (s.setX ((s.x.wrS i.sx a.hdr).flag flags))) ∧
    ((k = 8 ∨ k = 9 ∨ k = 10) → (s.x.r.rdV i.sy).tag = i.fmta → (s.x.r.rdV i.sy).lanes.length = s.x.nlanes →
      smOk 0 none d.rows = true →
      ∃ e : PathReg, exec (.tdpath i) s = .next (s.setX { s.x with r := s.x.r.wrD i.td e }) ∧ e.hdr = d.hdr ∧
        ∀ r, (∀ b, b < lo ∨ lo + 16 ≤ b → (e.row r).getLsbD b = (d.row r).getLsbD b) ∧
          (e.row r).extractLsb' lo 16 =
            if base ≤ r ∧ r < base + 2 * s.x.nlanes ∧ r < 128 ∧ m.getLsbD ((r - base) / 2) = true then
              BitVec.ofNat 16 (elementAt 16 (s.x.r.rdV i.sy).lanes (r - base))
            else (d.row r).extractLsb' lo 16) ∧
    (good → k = 11 →
      exec (.tdpath i) s = .next (s.setX { s.x with r := s.x.r.wrD i.td ⟨(d.hdr &&& 0xf00000) ||| v, d.rows⟩ })) ∧
    (good → k = 12 →
      exec (.tdpath i) s = .next (s.setX { s.x with r := s.x.r.wrD i.td ⟨v &&& 0xff00, []⟩ })) ∧
    (¬ good → (k = 11 ∨ k = 12) → s.x.fault = none →
      exec (.tdpath i) s = .next (s.setX (faulting s.x { code := .bounds, handle := 0, ea := v })))

/-- Descent trees and the fields of a path-trace register (R255 to R260). -/
def Obligations.TreesAndPathFields : Prop := Sys2Proof.Claims.TreeInstructions ∧ Sys2Proof.Claims.PathFields

/-- The skive instructions submit their jobs, with x, the descriptor and what s(SY) holds (R271, R272); SKSTAT reads a
work area's header at its home and ORs FLG into FFLAGS (R273); RTJOB submits a routing job with RTSST, or gives the
victim sampled at issue, and RTWAIT writes nothing (R383 to R387). -/
def Obligations.SkiveAndRouting : Prop :=
  (∀ (i : TInsn) (s : State) (h : Nat) (hs : List Nat) (es : List (Nat × Nat)), s.x.on0 i.g = true →
    s.access s.x (i.aux.extractLsb' 0 4) 1 .load (s.x.rdS i.sx) 64 64 0 false = .ok (h :: hs) es →
    let job (kind : JobKind) (y : Word) : JobReq :=
      { jobOf s.x kind 2 none (i.mod.getLsbD 3) (some (h, 64)) [i.ta.setWidth 64, i.imask.setWidth 64,
          i.fmta.code.setWidth 64, i.fmtb.code.setWidth 64, y] with tile := some (s.x.r.rdT i.ta) }
    let give (j : JobReq) : Out := .next (s.setX (submitted (sent s.x es false) j))
    (i.ta.toNat % 8 < s.x.ntiles → (s.x.r.rdT i.ta).tag = i.fmta →
      exec (.skpred i) s = give (job .skpred (s.x.rdS i.sy)) ∧
      exec (.skfetch i) s = give (job .skfetch 0) ∧
      exec (.skchk i) s = give (job .skchk 0) ∧
      exec (.skrpl i) s = give (job .skrpl (s.x.rdS i.sy))) ∧
    (i.mod.getLsbD 0 = false →
      exec (.rtjob i) s = give (jobOf s.x .rtjob 3 none (i.mod.getLsbD 3) (some (h, 64)) [s.x.r.rtsst])) ∧
    ((Instr.skstat i).entryOk = true →
      let hdr := (h :: hs).map (smGet 0 s.mem.cells)
      let f := (hdr[2]?).getD 0
      let flags : BitVec 5 := BitVec.ofBool (f.getLsbD 3) ++ BitVec.ofBool (f.getLsbD 2) ++
        BitVec.ofBool (f.getLsbD 1) ++ 0#1 ++ BitVec.ofBool (f.getLsbD 0)
      exec (.skstat i) s = .next (s.setX (((sent s.x es false).flag flags).wrS i.sy (BitVec.ofNat 64
        (match i.mod.toNat with
         | 0 => fieldN hdr 4 4 | 1 => fieldN hdr 8 4 | 2 => fieldN hdr 12 4 | 3 => fieldN hdr 16 4
         | 4 => fieldN hdr 20 4 | 5 => fieldN hdr 1 1 | _ => fieldN hdr 0 1)))))) ∧
  (∀ (i : TInsn) (s : State), s.x.on0 i.g = true →
    (i.mod.getLsbD 0 = true → exec (.rtjob i) s = .next (s.setX (s.x.wrS i.sy s.x.victim))) ∧
    exec (.rtwait i) s = .next s)

/-! ### The group, the queue, special registers, traps, the link and the capsule -/

/-- SRD gives FMODE and FFLAGS as the block has left them, a register sampled at issue as sampled, and every other
register of the strand range as it stood at the block's start, with SRSEED and unoccupied numbers zero (R80, R92, R121, R316, R352 to R354, R377). SWR changes FMODE and FFLAGS at once and stages every other write for the commit
(R352). A privileged number needs MAINT and PRIV, else it faults PRIV (R349, R352). -/
def Sys2Proof.Claims.SpecialRegisters : Prop :=
  ∀ (i : SInsn) (s : State), s.x.on0 i.g = true →
    let n := (i.imm.extractLsb' 0 12).toNat
    let r := s.x.r0
    let v := s.x.rdS i.a
    let put (v : Word) : Out := .next (s.setX (s.x.wrS i.d v))
    let active : BitVec 3 := BitVec.ofFnLE fun k : Fin 3 => r.loops.any fun l => l.k == k
    ((n < 0x800 ∨ (s.x.maint = true ∧ s.x.priv = true)) →
      (∀ w, s.x.srs.find? (·.1 == n) = some (n, w) → exec (.srd i) s = put w) ∧
      (s.x.srs.find? (·.1 == n) = none →
      (n = 0x010 → exec (.srd i) s = put (s.x.r.fmode.setWidth 64)) ∧
      (n = 0x011 → exec (.srd i) s = put (s.x.r.fflags.setWidth 64)) ∧
      (n = 0x012 → exec (.srd i) s = put 0) ∧
      (∀ k : Fin 3, n = 0x020 + k.val → exec (.srd i) s = put (r.lc[k].setWidth 64)) ∧
      (n = 0x023 → r.loops.length ≤ 3 →
        exec (.srd i) s = put ((active ++ 0#2 ++ BitVec.ofNat 2 r.loops.length).setWidth 64)) ∧
      (n = 0x030 → exec (.srd i) s = put ((BitVec.ofNat 16 s.x.wait ++ r.agelim ++ r.role).setWidth 64)) ∧
      (n = 0x041 → exec (.srd i) s = put (r.trapvec.setWidth 64)) ∧
      (n = 0x042 → exec (.srd i) s = put (r.trappc.setWidth 64)) ∧
      (n = 0x043 → exec (.srd i) s = put ((BitVec.ofBool r.intrap ++ r.trapcode).setWidth 64)) ∧
      (n = 0x050 → exec (.srd i) s = put r.rtsst) ∧
      (n = 0x001 → exec (.srd i) s = put 0)) ∧
      (n = 0x010 → exec (.swr i) s = .next (s.setX { s.x with r := { s.x.r with fmode := v.setWidth 2 } })) ∧
      (n = 0x011 → ∃ t, exec (.swr i) s = .next (s.setX { s.x with r := t }) ∧
        { t with fflags := s.x.r.fflags } = s.x.r ∧ t.fflags = v.setWidth 5) ∧
      (n = 0x012 → ∃ t, exec (.swr i) s = .next (s.setX { s.x with r := t }) ∧
        { t with gens := s.x.r.gens } = s.x.r ∧ ∀ k < s.x.nlanes, t.gens[k]? = some
          (let g : Lane := (v.setWidth 32) ^^^ (0x9e3779b9 * BitVec.ofNat 32 (k + 1)); if g = 0 then 1 else g)) ∧
      (n ≠ 0x010 → n ≠ 0x011 → n ≠ 0x012 →
        exec (.swr i) s = .next (s.setX (staging s.x [.swr (i.imm.extractLsb' 0 12) v])))) ∧
    (0x800 ≤ n → ¬ (s.x.maint = true ∧ s.x.priv = true) → s.x.fault = none →
      let bad : FaultInfo := { code := .priv }
      exec (.srd i) s = .next (s.setX (faulting s.x bad)) ∧ exec (.swr i) s = .next (s.setX (faulting s.x bad)))

/-- A write of a strand's own special register sets its writable fields: AGELIM at least 16, TRAPVEC and TRAPPC as
multiples of 8, RTSST as a multiple of 4,096 below 2^56, the loop counters; LOOPST, CTXST, TRAPST and numbers that
nothing occupies ignore it (R121, R316, R353, R377, R80). -/
def Sys2Proof.Claims.StrandRegisterWrites : Prop :=
  ∀ (r : Regs) (lanes : Nat) (v : Word),
    (∀ k : Fin 3, r.setSr lanes (0x020 + k.val) v = { r with lc := r.lc.set k (v.setWidth 32) }) ∧
    (∃ a, r.setSr lanes 0x030 v = { r with agelim := a } ∧ 16 ≤ a.toNat ∧
      (16 ≤ (v.extractLsb' 2 16).toNat → a = v.extractLsb' 2 16)) ∧
    (∃ a, r.setSr lanes 0x041 v = { r with trapvec := a } ∧ a.toNat = (v.extractLsb' 0 56).toNat / 8 * 8) ∧
    (∃ a, r.setSr lanes 0x042 v = { r with trappc := a } ∧ a.toNat = (v.extractLsb' 0 56).toNat / 8 * 8) ∧
    (∃ a, r.setSr lanes 0x050 v = { r with rtsst := a } ∧ a.toNat = (v.extractLsb' 0 56).toNat / 4096 * 4096) ∧
    (∀ n ∈ [0x023, 0x040, 0x043, 0x001, 0x0ff], r.setSr lanes n v = r)

/-- Special registers read, and the writable fields of the strand range (R80, R92, R121, R316, R349, R352 to R354, R377). -/
def Obligations.SpecialRegistersReadAndWritten : Prop := Sys2Proof.Claims.SpecialRegisters ∧ Sys2Proof.Claims.StrandRegisterWrites

/-- TRAP and ERET leave their effect to the block's exit, ERET outside a trap faulting PRIV (R354); a trap taken saves
the next block's address and the code, sets INTRAP and goes to TRAPVEC, and ERET goes back; a TRAP with no vector or
inside a trap goes on and is reported as SOFT_TRAP. -/
def Obligations.TrapsTaken : Prop :=
  (∀ (i : SInsn) (s : State), s.x.on0 i.g = true →
    exec (.trap i) s = .next (s.setX { s.x with exit := some (.trap (i.imm.setWidth 16) s.x.idx) }) ∧
    (s.x.r.intrap = true → exec (.eret i) s = .next (s.setX { s.x with exit := some (.eret s.x.idx) })) ∧
    (s.x.r.intrap = false → s.x.fault = none →
      exec (.eret i) s = .next (s.setX (faulting s.x { code := .priv })))) ∧
  (∀ (x : Flight) (code : BitVec 16) (k : Nat), x.exit = some (.trap code k) →
    let after : Addr := x.pc + BitVec.ofNat 56 (8 * (x.words + 1))
    (x.r.trapvec ≠ 0 → x.r.intrap = false →
      x.leave.pc = x.r.trapvec ∧ x.leave.ends = false ∧ x.leave.soft = none ∧ x.leave.r.intrap = true ∧
      x.leave.r.trappc = after ∧ x.leave.r.trapcode = code ∧ x.leave.r.s = x.r.s) ∧
    ((x.r.trapvec = 0 ∨ x.r.intrap = true) →
      x.leave.pc = after ∧ x.leave.ends = false ∧ x.leave.soft = some (code, k) ∧
      x.leave.r.intrap = x.r.intrap ∧ x.leave.r.trappc = x.r.trappc ∧ x.leave.r.s = x.r.s)) ∧
  (∀ (x : Flight) (k : Nat), x.exit = some (.eret k) →
    x.leave.pc = x.r.trappc ∧ x.leave.ends = false ∧ x.leave.soft = none ∧ x.leave.r.intrap = false ∧
    x.leave.r.s = x.r.s)

/-- LAUNCH leaves its record's capture to the commit, TASK submits the task whose record the commit captures, TWAIT
writes nothing (R334 to R336); EVPOP gives the record reserved at issue, or zeros, EVPUSH stages its record, to its own
island or the one its scalar names (R321, R322); STAGE asks for a declared stage, and faults ENGINE for any other
(R292). -/
def Sys2Proof.Claims.GroupInstructions : Prop :=
  ∀ (i : SInsn) (s : State), s.x.on0 i.g = true →
    let isl := s.x.who.seq.isl
    (∀ h hs es, s.access s.x (i.imm.extractLsb' 0 4) (i.imm.extractLsb' 4 3) .load (s.x.rdS i.a) 128 128 0
        false = .ok (h :: hs) es →
      exec (.launch i) s = .next (s.setX { sent s.x es false with
        access := some (.launch h i.d.toNat (i.mod.getLsbD 0)), accIdx := s.x.idx
        entry := s.x.entry || i.mod.getLsbD 0 })) ∧
    (∀ h hs es, s.access s.x (i.imm.extractLsb' 0 4) 1 .load (s.x.rdS i.a) 64 64 0 = .ok (h :: hs) es →
      exec (.task i) s = .next (s.setX ((submitted (sent s.x es false)
        (jobOf s.x .task 2 none false (some (h, 64)) [])).wrS i.d ((s.x.r.jobctr + 1).setWidth 64)))) ∧
    exec (.twait i) s = .next s ∧
    (∃ x : Flight, exec (.evpop i) s = .next (s.setX x) ∧
      x.fx = s.x.fx ++ (if s.x.evhead.isSome then [.popEvent i.d.toNat] else []) ∧
      { x with r := s.x.r, fx := s.x.fx, late := s.x.late } = s.x ∧ { x.r with s := s.x.r.s } = s.x.r ∧
      (∀ k < 4, i.d + BitVec.ofNat 6 k ≠ 0 →
        x.rdS (i.d + BitVec.ofNat 6 k) = BitVec.ofNat 64 (fieldN (s.x.evhead.getD []) (8 * k) 8)) ∧
      (∀ n, (∀ k < 4, n ≠ i.d + BitVec.ofNat 6 k) → x.rdS n = s.x.rdS n)) ∧
    exec (.evpush i) s = .next (s.setX (staging s.x [.event
      { isl with island := if i.mod = 0 then isl.island else ⟨(s.x.startS i.c).toNat % 4, Nat.mod_lt _ (by decide)⟩ }
      (i.imm.setWidth 16) (s.x.rdS i.a) (s.x.rdS i.b)])) ∧
    (let k := if i.mod = 0 then i.imm.toNat else (s.x.rdS i.a).toNat
     (∀ r, s.region s.x.rid = some r → k < 8 → r.declares k = true →
       exec (.stage i) s = .next (s.setX (staging s.x [.stage k]))) ∧
     (∀ r, s.region s.x.rid = some r → (8 ≤ k ∨ r.declares k = false) → s.x.fault = none →
       exec (.stage i) s = .next (s.setX (faulting s.x { code := .engine }))))

/-- GID's queries (R320): the levels of the launch record, a level's extent, domain and scope, the place of the unit,
and the global index, which combines the indices of the levels down to the one named. -/
def Sys2Proof.Claims.GroupPlaces : Prop :=
  ∀ (i : SInsn) (s : State) (r : Region), s.x.on0 i.g = true → s.region s.x.rid = some r →
    (Instr.gid i).entryOk = true →
    let ls := levelsOf r.recd
    let put (n : Nat) : Out := .next (s.setX (s.x.wrS i.d (BitVec.ofNat 64 n)))
    let isl := s.x.who.seq.isl
    (i.mod = 4 → exec (.gid i) s = put ls.length) ∧
    (i.mod = 6 → exec (.gid i) s = put (s.hub.boot.device.toNat + isl.die.val * 2 ^ 20 + isl.cluster.val * 2 ^ 22
      + isl.island.val * 2 ^ 26 + (if s.x.who.seq.gaffer then 63 else s.x.who.seq.base.val) * 2 ^ 28
      + s.x.who.num.val * 2 ^ 34)) ∧
    (∀ l, ls[i.imm.toNat]? = some l →
      (i.mod = 1 → exec (.gid i) s = put l.ext) ∧
      (i.mod = 2 → exec (.gid i) s = put l.dom) ∧
      (i.mod = 3 → exec (.gid i) s = put l.scope) ∧
      (i.mod = 0 → l.dom = 6 → s.x.who.seq.gaffer = false → exec (.gid i) s = put s.x.who.num.val) ∧
      (i.mod = 0 → l.dom = 7 → exec (.gid i) s = put 0)) ∧
    (ls[i.imm.toNat]? = none → i.mod.toNat < 4 → exec (.gid i) s = put 0)

/-- Group indices and sizes, and the places that they number, launches, tasks, events and stage requests (R292, R320 to R322, R334 to R336). -/
def Obligations.GroupsAndPlaces : Prop := Sys2Proof.Claims.GroupInstructions ∧ Sys2Proof.Claims.GroupPlaces

/-- TICK gives the global tick or the die's frame counter as sampled at issue; EVREC and BRK stage their record and
their fault for the commit (R403 to R405). DSTOP, in MAINT mode, leaves its query or change to the commit, which settles
its destination (R49); in SERVICE mode it faults MAINT_ONLY (R406). CAPS.st and .sz give the
capsule as read at issue, .get submits a retrieval, and .ack, the operator's alone, empties a RETRIEVED capsule at the
commit (R407). ILL faults ILLEGAL_OP (R74). -/
def Obligations.TimeRecordsAndCapsule : Prop :=
  (∀ (i : SInsn) (s : State), s.x.on0 i.g = true →
    let put (v : Word) : Out := .next (s.setX (s.x.wrS i.d v))
    let bad (c : FaultCode) : Out :=
      .next (s.setX (faulting s.x { code := c }))
    let oper := i.imm.getLsbD 4
    let mine : Prop := s.x.part = 0 ∧ s.x.maint = true ∧ s.x.priv = true
    let used := s.x.late.find? (·.1 == s.x.idx)
    let lateTo (f : Fx) : Prop → Out → Prop := fun p o => p →
      o = .next (s.setX { staging (s.x.wrS i.d ((used.map (·.2)).getD 0)) [f] with
        late := if used.isSome then s.x.late else (s.x.idx, 0) :: s.x.late })
    exec (.tick i) s = put (BitVec.ofNat 64 ((if i.mod = 0 then s.x.tick else s.x.frame) % 2 ^ 48)) ∧
    exec (.evrec i) s = .next (s.setX (staging s.x [.user (i.imm.setWidth 8) (s.x.rdS i.a) (s.x.rdS i.b)])) ∧
    exec (.brk i) s = .next (s.setX (staging s.x [.brk (i.imm.setWidth 16).toNat s.x.idx])) ∧
    (s.x.maint = true →
      lateTo (.dstopArm (s.x.rdS i.a) s.x.idx) (i.mod = 0 ∧ (s.x.rdS i.a).toNat < 2 ^ 48) (exec (.dstop i) s) ∧
      lateTo (.dstopOff s.x.idx) (i.mod = 1) (exec (.dstop i) s) ∧
      lateTo (.dstopQuery s.x.idx) (2 ≤ i.mod.toNat) (exec (.dstop i) s)) ∧
    (s.x.maint = false → s.x.fault = none → exec (.dstop i) s = bad .maintOnly) ∧
    exec (.capsSt i) s = put s.x.capst ∧
    ((oper = false ∨ mine) →
      exec (.capsSz i) s = put (BitVec.ofNat 64 (if oper then s.x.capszOp else s.x.capsz)) ∧
      (let a := s.x.rdS i.a
       let n := s.x.rdS i.b
       let lo := (a.extractLsb' 0 56).toNat
       admits (s.x.r.rdB (i.imm.extractLsb' 0 4)) 0 .store lo n.toNat → lo + n.toNat ≤ 2 ^ 56 → a.toNat % 64 = 0 →
       exec (.capsGet i) s = .next (s.setX ((submitted s.x
         (jobOf s.x .capsGet 5 none false none [a, n, (i.imm.extractLsb' 0 4).setWidth 64, if oper then 1 else 0])).wrS
           i.d ((s.x.r.jobctr + 1).setWidth 64))))) ∧
    (oper = true → ¬ mine → s.x.fault = none → exec (.capsSz i) s = bad .priv ∧ exec (.capsGet i) s = bad .priv) ∧
    (mine → s.x.capst.extractLsb' 0 3 = 3 →
      exec (.capsAck i) s = .next (s.setX (staging (s.x.wrS i.d 0) [.capsAck i.d.toNat]))) ∧
    (mine → s.x.capst.extractLsb' 0 3 ≠ 3 → exec (.capsAck i) s = put 1) ∧
    (¬ mine → s.x.fault = none → exec (.capsAck i) s = bad .priv)) ∧
  (∀ (low : BitVec 55) (s : State), s.x.fault = none →
    exec (.ill low) s = .next (s.setX (faulting s.x { code := .illegalOp })))

/-! ### Decoding, the step, faults and whole-machine rules -/

/-- Words written out from the spec's encodings decode to what they stand for: one of each format and family, several
of them worked examples of the spec (R59 to R63, R114, R170, R204, R221, R238, R258, R271, R383). -/
def Obligations.WordsDecode : Prop :=
  decodeTableWord 64 0x147A080F28000058 = some (.cmp
    { g := ⟨15, false⟩, d := .alt 2, a := .reg 3, b := .imm 10, c := .reg 0, mod := 2, fmt := .raw, lit := none }) ∧
  decodeTableWord 64 0x4078050800008000 = some (.vadd
    { g := ⟨15, false⟩, d := .reg 1, a := .ring 2 1, b := .reg 0, c := .reg 0, mod := 0, fmt := .fp32, lit := none }) ∧
  decodeTableWord 64 0x8478102009C00008 = some (.atom
    { g := ⟨15, false⟩, d := .reg 4, base := 2, index := 0, space := .cluster, bh := 3, fmt := .int32, mod := 0, off := 8 }) ∧
  decodeTableWord 64 0x87FA1420C8E20000 = some (.bnd
    { g := ⟨15, false⟩, d := .alt 5, base := 2, index := 3, space := .cluster, bh := 1, fmt := .raw, mod := 4, off := 0 }) ∧
  decodeTableWord 64 0x23F8000000000000 = some (.endStrand
    { g := ⟨15, false⟩, s1 := 0, s2 := 0, cm := 0, aux := 0, tgt := 0 }) ∧
  decodeTableWord 64 0xA178000010000001 = some (.rrels
    { g := ⟨15, false⟩, d := 0, a := 0, b := 0, h := 2, c := 0, mod := 0, imm := 1 }) ∧
  decodeTableWord 64 0xA478000510020000 = some (.bexp
    { g := ⟨15, false⟩, d := 0, a := 0, b := 5, h := 2, c := 0, mod := 1, imm := 0 }) ∧
  decodeTableWord 64 0xC07A48040042CF01 = some (.mtask
    { g := ⟨15, false⟩, td := 9, ta := 2, tb := 0, sx := 4, sy := 0, fmta := .bf16, fmtb := .bf16, mod := 12, aux := 0xF01 }) ∧
  decodeTableWord 64 0xC978040414428F02 = some (.skrpl
    { g := ⟨15, false⟩, td := 0, ta := 1, tb := 0, sx := 4, sy := 5, fmta := .bf16, fmtb := .bf16, mod := 8, aux := 0xF02 }) ∧
  decodeTableWord 64 0xCA78000400008002 = some (.rtjob
    { g := ⟨15, false⟩, td := 0, ta := 0, tb := 0, sx := 4, sy := 0, fmta := .fp32, fmtb := .fp32, mod := 8, aux := 2 })

/-- Every well-formed instruction has words, and whatever words follow they decode to it, with every operand at every
value the encoding admits (R47, R58 to R65). -/
def Sys2Proof.Claims.EncodeDecode : Prop := ∀ i : Instr, Laws.RoundTrip.Statement i

/-- Every word has one meaning: the words that the decoder takes are exactly those that the encoder gives for what it
reads (R58 to R65, R75). -/
def Sys2Proof.Claims.WordsAreUnique : Prop :=
  ∀ (ws rest : List Word) (i : Instr), decodeHead ws = some (i, rest) → (∀ low, i ≠ .ill low) →
    i.wf = true ∧ ∃ es, encode i = some es ∧ ws = es ++ rest

/-- Decoding and encoding agree in both directions (R47, R58 to R65, R75). -/
def Obligations.EncodingRoundTrip : Prop := Sys2Proof.Claims.EncodeDecode ∧ Sys2Proof.Claims.WordsAreUnique

/-- A step runs the decoded instruction: a strand whose turn it is, with a block at work, no fault raised and the words
of an instruction next, executes exactly it on the block with those words taken out, its index the next one; an access
held by a page that is being moved runs again later, and an instruction whose gate is shut waits (R49, R51, R53, R358).
With no word left or a fault raised the block commits or aborts; with no block in flight its sequencer issues one. -/
def Sys2Proof.Claims.StepRunsDecoded : Prop :=
  ∀ (s : State) (ag : List Turn), s.dbg.stopped = false → s.agenda = .strand s.x.who :: ag → s.x.active = true →
    let t := { s with agenda := ag }
    (∀ i words, s.x.fault = none → s.x.todo ≠ [] → decodeHead s.x.todo = some (i, words) →
      (t.waits i = true → step s = .next t) ∧
      (t.waits i = false → step s = match exec i (t.setX { s.x with
          todo := words, idx := s.x.nextIdx, nextIdx := s.x.nextIdx + 1, held := false }) with
        | .next u => .next (if u.x.held then t.setX { s.x with held := true } else u)
        | o => o)) ∧
    ((s.x.fault ≠ none ∨ s.x.todo = [] ∨ decodeHead s.x.todo = none) → step s = exec .blockCommit t)

/-- Turns other than a strand's block: a strand with none in flight has its sequencer issue one, an event runs on what
it acts on, the tick goes forward, an empty agenda takes the turn that the outside chooses, and a turn that a debug stop
holds back changes nothing (R314, R1, R350, R400). -/
def Sys2Proof.Claims.StepTakesTurns : Prop :=
  ∀ (s : State) (ag : List Turn),
    (s.dbg.stopped = false →
      (∀ w, s.agenda = .strand w :: ag → s.x.active = false → (∀ f ∈ s.fab.flights, f.who ≠ w) →
        step s = exec .blockIssue { s with agenda := ag, arg := .seq w.seq }) ∧
      (∀ i a, s.agenda = .event i a :: ag → s.x.active = false → (∀ k, s.dbg.stop = some k → s.tick < k) →
        step s = exec i { s with agenda := ag, arg := a }) ∧
      (s.agenda = .tick :: ag → ∃ t, step s = .next t ∧ t.tick = s.tick + 1) ∧
      (s.agenda = [] → step s = step { s with agenda := [Config.turn s.free], free := s.free + 1 })) ∧
    (s.dbg.stopped = true →
      (∀ w, s.agenda = .strand w :: ag → step s = .next { s with agenda := ag }) ∧
      (s.agenda = .tick :: ag → step s = .next { s with agenda := ag, tick := s.tick + 1 })) ∧
    (∀ k a, s.dbg.stop = some k → k ≤ s.tick →
      (s.agenda = .event .regionSave a :: ag ∨ s.agenda = .event .regionKill a :: ag →
        step s = .next { s with agenda := ag }))

/-- One step: a strand's next decoded instruction, its block's commit, or another turn (R1, R51, R53, R314, R358, R400). -/
def Obligations.StepMoves : Prop := Sys2Proof.Claims.StepRunsDecoded ∧ Sys2Proof.Claims.StepTakesTurns

/-- An instruction of a strand acts on its block alone: memory, rings, barriers, jobs and every other strand stay as
they are until the commit (R51). It changes neither the block's place, its words, nor the registers as they stood at its
start; the effects staged before it stay first; and the fault of the lowest index stands (R53). Guarded off in every
lane it does nothing at all (R69). -/
def Obligations.InstructionsActOnTheirBlock : Prop :=
  ∀ (i : Instr) (op : BitVec 9) (b : Body) (s : State), i.parts = some (op, b) →
    (∃ x : Flight, exec i s = .next (s.setX x) ∧ x.who = s.x.who ∧ x.rid = s.x.rid ∧ x.ctx = s.x.ctx ∧ x.pc = s.x.pc ∧
      x.todo = s.x.todo ∧ x.idx = s.x.idx ∧ x.nextIdx = s.x.nextIdx ∧ x.r0 = s.x.r0 ∧ s.x.fx <+: x.fx ∧
      s.x.staged <:+ x.staged ∧ (∀ f, s.x.fault = some f → x.fault = some f)) ∧
    (s.x.guard b.guard = 0 → exec i s = .next s)

/-- The machine never stops but where the host reads or writes a byte that no memory has, past the package's HBM or at a
weight-store offset that no bank group holds: every other step answers a next state, and none is refused (R13, R159,
R166, R435). -/
def Obligations.StepsGoOn : Prop :=
  ∀ s : State, (∃ t, step s = .next t) ∨
    (step s = .fault .noSuchAddress ∧ ∃ (t : State) (e : EvArg) (weight : Bool) (a n k : Nat),
      step s = exec .hostMemoryWrite { t with arg := e } ∧
      ((∃ w : HostWrite, e = .host w ∧ w.weight = weight ∧ w.addr.toNat = a ∧ w.bytes.length = n) ∨
        ∃ node ad, e = .hostRead node weight ad n ∧ ad.toNat = a) ∧
      k < n ∧
      (if weight then 0x300000000 ≤ (a + k) % 2 ^ 34 ∨ bits (a + k) 49 34 ≠ 0 ∨ 2 ^ 52 ≤ a + k
        else 768000000000 ≤ a + k))

/-- Memory keeps its canonical form through every step. -/
def Obligations.MemoryStaysCanonical : Prop :=
  ∀ s t : State, s.mem.wf = true → step s = .next t → t.mem.wf = true

/-- The machine right after reset (R420, R369, R392, R399, R409): every memory reads zero and is in canonical form, no
context, region, gang, ring, barrier or job stands, every queue is DISABLED with HEAD and TAIL at zero, every port is
DOWN, the capsule is EMPTY, and RECCFG and PWRCFG hold their reset values. -/
def Obligations.ResetState : Prop :=
  State.reset.mem.wf = true ∧ (∀ a, smGet 0 State.reset.mem.cells a = 0) ∧ State.reset.mem.pubs = [] ∧
  (∀ c, (State.reset.ctx c).state = .closed) ∧ State.reset.hub.queues = [] ∧
  (∀ n, let q := State.reset.queueAt n; q.enable = false ∧ q.head = 0 ∧ q.tail = 0) ∧ State.reset.kern = [] ∧
  State.reset.fab.gangs = [] ∧ State.reset.chan.rings = [] ∧ State.reset.chan.bars = [] ∧ State.reset.eng.jobs = [] ∧
  (∀ p ∈ State.reset.hub.ports, p.state = .down) ∧ State.reset.dbg.capsule.state = .empty ∧
  State.reset.dbg.reccfg = 0x0400010000003FFF ∧ State.reset.hub.pwrcfg = 0x000173005F000960 ∧ State.reset.tick = 0

/-- The 64-byte record of a fault (R343): who, where and what. -/
structure Sys2Proof.Claims.FaultRecordIs (bs : List Byte) (c : BitVec 12) (src : Source) (f : FaultInfo) (tick : Nat) :
    Prop where
  size : bs.length = 64
  codes : fieldN bs 0 2 = (if f.pageAt.isSome then 0x302 else 0x300) ∧ fieldN bs 2 1 = f.code.num ∧
    fieldN bs 3 1 = f.access % 256
  who : fieldN bs 4 2 = c.toNat ∧ fieldN bs 6 2 = src.strand % 65536 ∧ fieldN bs 42 1 = src.die % 256
  place : fieldN bs 8 8 = f.block.toNat ∧ fieldN bs 16 1 = f.index % 256 ∧ fieldN bs 17 1 = f.lane % 256
  what : fieldN bs 18 1 = f.handle % 256 ∧ fieldN bs 20 4 = f.element % 2 ^ 32 ∧ fieldN bs 24 8 = f.ea.toNat
  aux : fieldN bs 32 4 = f.aux % 2 ^ 32
  when_ : fieldN bs 36 6 = tick % 2 ^ 48

/-- The byte that memory holds at a home. -/
def Sys2Proof.Claims.byteAt (s : State) (a : Nat) : Byte := smGet 0 s.mem.cells a

/-- A step stores a byte at each address that a function names, and no other byte of memory changes. -/
def Sys2Proof.Claims.storesOnly (s t : State) (h : Nat → Nat) (n : Nat) (b : Nat → Byte) : Prop :=
  (∀ k < n, byteAt t (h k) = b k) ∧ ∀ a, (∀ k < n, a ≠ h k) → byteAt t a = byteAt s a

/-- Whether an address is a byte of the leaf of a page of a range, whose ACC and DIRTY an access sets (R357, R361). -/
def Sys2Proof.Claims.markOf (s : State) (c : BitVec 12) (va n a : Nat) : Prop :=
  ∃ k < n, ∃ j < 8, a = homeHbm (s.lookup c (va + k)).entry + j

/-- A store of the hub through a context's tables: each byte stands at its home, and no other byte of memory changes but
those of the leaves that the access marks (R357, R361). -/
def Sys2Proof.Claims.storesMarking (s t : State) (c : BitVec 12) (va : Nat) (h : Nat → Nat) (n : Nat) (b : Nat → Byte) :
    Prop :=
  (∀ k < n, byteAt t (h k) = b k) ∧
    ∀ a, (∀ k < n, a ≠ h k) → ¬ markOf s c va n a → byteAt t a = byteAt s a

/-- Taking a fault that is not fatal in its context (R343, R344): the region that made progress is FROZEN and keeps the
state it returns to and the fault that froze it; the fault's record waits in its unit, and every gang, the block at work,
memory and every other region stay. The oldest record that waits goes to the context's fault queue at FQTAIL, which
advances, while the queue has room. RESUME puts the region back into the state it had. -/
def Obligations.FaultTaken : Prop :=
  (∀ (s : State) (rid : Nat) (c : BitVec 12) (src : Source) (f : FaultInfo) (r : Region),
    let t := s.deliver rid c src f
    s.region rid = some r → r.state.live = true → isFatal (s.ctx c) f.code = false →
    (∃ q w, t.region rid = some q ∧ q.state = .frozen ∧ q.before = r.state ∧
      (r.firstFault = none → q.firstFault = some f.code) ∧
      (r.firstFault ≠ none → r.faultAt.1 ≠ s.tick → q.firstFault = r.firstFault) ∧
      w.tick = s.tick ∧ w.ord = src.ord ∧ FaultRecordIs w.recd c src f s.tick ∧ q.waiting.Perm (w :: r.waiting)) ∧
    (∀ n ≠ rid, t.region n = s.region n) ∧ t.fab = s.fab ∧ t.x = s.x ∧ t.mem = s.mem) ∧
  (∀ (s : State) (c : BitVec 12) (rid : Nat) (w : FaultWait) (r : Region) (h : Nat → Nat),
    let d := s.ctx c
    let va := d.fqbase.toNat + 64 * (d.fqtail.toNat % 2 ^ d.fqsize)
    let t := s.writeFault c
    s.mem.wf = true → s.nextFault c = some (some rid, w) → s.region rid = some r → w.recd.length = 64 →
    (d.fqtail - d.fqhead).toNat ≠ 2 ^ d.fqsize → Function.Injective h →
    (∀ k < 64, s.hubHome c (va + k) 2 = some (h k)) →
    t.region rid = some { r with waiting := r.waiting.erase w } ∧ (t.ctx c).fqtail = d.fqtail + 1 ∧ t.fab = s.fab ∧
    storesMarking s t c va h 64 fun k => w.recd.getD k 0) ∧
  (∀ (s : State) (rid : Nat) (r : Region), s.region rid = some r → r.state = .frozen →
    ∃ q, (s.resumeRegion rid).region rid = some q ∧ q.state = r.before ∧ q.firstFault = none)

/-- A fatal fault (R344, R393, R394): its region is killed, and it is one of those that freeze the capsule as the tick
ends. With an EMPTY capsule the first of them in the unit order freezes it with its cause, tick, horizon, context and
unit, and the others count; with any other capsule they all count, up to 65,535. -/
def Obligations.FatalFaultFreezes : Prop :=
  (∀ (s : State) (rid : Nat) (c : BitVec 12) (src : Source) (f : FaultInfo) (r : Region),
    let t := s.deliver rid c src f
    isFatal (s.ctx c) f.code = true → s.region rid = some r → r.state ≠ .retired →
    (∃ q, t.region rid = some q ∧ q.state = .killed) ∧
    t.dbg.fatals = s.dbg.fatals ++ [(src.ord, c, f.code, src)] ∧ t.dbg.capsule = s.dbg.capsule) ∧
  (∀ (s : State), let k := s.freezes.dbg.capsule
    let n := s.dbg.fatals.length
    s.freezes.dbg.fatals = [] ∧
    (s.dbg.fatals ≠ [] → s.dbg.capsule.state = .empty → k.state = .frozen ∧ k.t = s.tick ∧
      k.h = s.dbg.horizon.toNat ∧ k.lost = (if n = 1 then s.dbg.capsule.lost else min (s.dbg.capsule.lost + (n - 1)) 65535) ∧
      ∃ e ∈ s.dbg.fatals, (∀ q ∈ s.dbg.fatals, e.1 ≤ q.1) ∧ k.cause.toNat = e.2.2.1.num ∧ k.ctx = e.2.1 ∧
        k.unit = e.2.2.2.unit) ∧
    (s.dbg.capsule.state ≠ .empty →
      k = if n = 0 then s.dbg.capsule else { s.dbg.capsule with lost := min (s.dbg.capsule.lost + n) 65535 }))


/-! ### The part's own steps and the outside's actions -/

/-- An outcome that is a next state with a property. -/
def Sys2Proof.Claims.goesTo (o : Out) (p : State → Prop) : Prop := ∃ t, o = .next t ∧ p t

/-- A region that made progress is FROZEN with a fault reported for it, unless the fault is fatal in its context
(R343, R344): it keeps the state that it returns to and the fault that froze it, and the fault's record waits. -/
def Sys2Proof.Claims.frozenBy (s t : State) (rid : Nat) (code : FaultCode) : Prop :=
  ∀ r, s.region rid = some r → r.state.live = true → isFatal (s.ctx r.ctx) code = false →
    ∃ q, t.region rid = some q ∧ q.state = .frozen ∧ q.before = r.state ∧
      (r.firstFault = none → q.firstFault = some code) ∧
      ∃ w ∈ q.waiting, w.tick = s.tick ∧ fieldN w.recd 2 1 = code.num

/-- BLOCK_ISSUE (R46, R50, R53, R314, R315): a gang cycle issues the next block of one ready strand: where none has
waited past its ageing limit, of a strand of the highest ROLE that has not yielded. The block stands at the strand's PC;
the strand's WAIT returns to zero and that of each other ready strand rises by one. A yield holds while no other strand
is ready (R120). A strand whose block fails its fetch or decode faults the region; a header that R48 refuses is
ILLEGAL_BLOCK with index 0xFF. -/
def Sys2Proof.Claims.BlocksIssue : Prop :=
  ∀ (s : State) (q : Seq) (g : Gang) (r : Region),
    s.x.active = false → s.arg = .seq q → s.gang q = some g → s.region g.rid = some r → r.state.live = true →
    r.saving = false → r.dying = none → r.stops g.el = false → g.done = false → g.fenced = false →
    (s.island (fabKey q.isl)).running = true → (g.strands.map (·.num)).Nodup →
    let ready (u : Strand) : Prop := ∃ x is, s.attempt g r u = .ready x is
    (∀ st ∈ g.strands, (∀ u ∈ g.strands, ready u ∨ s.attempt g r u = .notReady) → ready st → st.yielded = false →
      (∀ u ∈ g.strands, ready u → u.wait ≤ u.regs.agelim.toNat) →
      (∀ u ∈ g.strands, ready u → u ≠ st → u.yielded = true ∨ u.regs.role.toNat < st.regs.role.toNat) →
      goesTo (exec .blockIssue s) fun t =>
        t.x.active = true ∧ t.x.who = ⟨q, st.num⟩ ∧ t.x.pc = st.pc ∧ t.x.fault = none ∧ t.mem = s.mem ∧
        t.kern = s.kern ∧ t.strand ⟨q, st.num⟩ = some { st with wait := 0, yielded := false, fetchHeld := false } ∧
        ∀ u ∈ g.strands, u ≠ st →
          (ready u → t.strand ⟨q, u.num⟩ =
            some { u with wait := min (u.wait + 1) 65535, yielded := false, fetchHeld := false }) ∧
          (¬ ready u → t.strand ⟨q, u.num⟩ = some { u with yielded := false, fetchHeld := false })) ∧
    (∀ st ∈ g.strands, ready st → (∀ u ∈ g.strands, u ≠ st → s.attempt g r u = .notReady) →
      goesTo (exec .blockIssue s) fun t => t.x.who = ⟨q, st.num⟩ ∧
        t.strand ⟨q, st.num⟩ = some { st with wait := 0, fetchHeld := false }) ∧
    (∀ (a b : List Strand) (st : Strand) (f : FaultInfo), g.strands = a ++ st :: b →
      (∀ u ∈ a, ∀ f, s.attempt g r u ≠ .bad f) → s.attempt g r st = .bad f → isFatal (s.ctx r.ctx) f.code = false →
      goesTo (exec .blockIssue s) fun t =>
        frozenBy s t g.rid f.code ∧ t.x.active = false ∧ t.chan = s.chan ∧ t.eng = s.eng ∧
        ∀ u ∈ g.strands, ∃ b, t.strand ⟨q, u.num⟩ = some { u with fetchHeld := b }) ∧
    (∀ (st : Strand) (w : Word) (x : Flight), st.ended = false → (∀ f ∈ s.fab.flights, f.who ≠ ⟨g.seq, st.num⟩) →
      st.drain = none → s.fetchWord (s.baseFlight g r st) st.pc.toNat = .got [w] x → x.pc = st.pc →
      (w.extractLsb' 0 49 ≠ 0 ∨ w.extractLsb' 56 8 = 0 ∨ (w.extractLsb' 56 8).toNat ≤ (w.extractLsb' 49 7).toNat) →
      s.attempt g r st = .bad { code := .illegalBlock, block := st.pc.setWidth 56 })

/-- BLOCK_COMMIT (R51, R53, R56, R119, R186): a block that has executed its instructions commits its registers, goes on at
its exit, and puts its stores into the strand's phase buffer, the later of two to one byte standing; memory, rings and
every other gang stay. END ends the strand and publishes its buffer. A block that has faulted aborts with no effect: its
strand stands where it stood, and the region is FROZEN. -/
def Sys2Proof.Claims.BlocksCommit : Prop :=
  ∀ (s : State) (st : Strand), s.x.active = true → s.strand s.x.who = some st → st.late = [] → s.x.views = [] →
    s.x.evres = [] → s.x.evhead = none → s.x.late = [] → (∀ r, s.region s.x.rid = some r → r.dying = none) →
    (s.x.fault = none → s.x.todo = [] → s.x.access = none → s.x.exit ≠ some .stop → s.x.leave.soft = none →
      (∀ f ∈ s.x.fx, ∃ cells, f = .store cells) →
      (∀ q ∈ s.chan.rings, ∀ p ∈ q.slots, ∀ l, p.loop = some l → l.1 ≠ s.x.who) →
      goesTo (exec .blockCommit s) fun t =>
        t.x.active = false ∧ t.mem = s.mem ∧ t.chan = s.chan ∧ (∀ q ≠ s.x.who.seq, t.gang q = s.gang q) ∧
        ∃ u, t.strand s.x.who = some u ∧ u.regs = s.x.leave.r ∧ u.pc = s.x.leave.pc ∧ u.ended = st.ended ∧
          u.yielded = (st.yielded || s.x.yield) ∧
          ∀ a, (u.buf.find? (·.1 == a)).map (·.2) =
            match ((s.x.fx.flatMap fun f => match f with | .store l => l | _ => []).reverse.find? (·.1 == a)) with
            | some c => some c.2
            | none => (st.buf.find? (·.1 == a)).map (·.2)) ∧
    (s.x.fault = none → s.x.todo = [] → s.x.access = none → s.x.exit = some .stop → s.x.fx = [] →
      goesTo (exec .blockCommit s) fun t =>
        t.x.active = false ∧ (∃ u, t.strand s.x.who = some u ∧ u.ended = true ∧ u.buf = []) ∧
        ∃ p ∈ t.mem.pubs, p.owner = s.x.who ∧ p.num = s.mem.nextPub ∧ p.cells = st.buf) ∧
    (∀ f, s.x.fault = some f → isFatal (s.ctx s.x.ctx) f.code = false →
      goesTo (exec .blockCommit s) fun t =>
        t.x.active = false ∧ t.strand s.x.who = some st ∧ t.chan = s.chan ∧ (f.pageAt = none → t.mem = s.mem) ∧
        frozenBy s t s.x.rid f.code)

/-- A block's issue and its commit or abort (R46, R50 to R53, R56, R119, R120, R186, R314, R315). -/
def Obligations.BlocksIssueAndCommit : Prop := Sys2Proof.Claims.BlocksIssue ∧ Sys2Proof.Claims.BlocksCommit

/-- Publications, remote requests and other devices' accesses (R52, R185, R187, R332, R369, R374 to R376). A publication
that completes has every store of it in memory, and no other byte changes. A reply, through a port that is ready, writes
the destination that waited, and a request that fails or has been out for RTO leaves it and reports REMOTE, as a failed
remote store does; a store delivered is gone. Another device's store, load and integer add act at this device's memory,
and the reply leaves. -/
def Obligations.RemoteSteps : Prop :=
  (∀ (s : State) (n : Nat) (p : Publication), s.arg = .num n → s.mem.pubs.find? (·.num == n) = some p →
    (s.mem.pubs.map (·.num)).Nodup → (∀ q ∈ s.mem.pubs, q.by_ = p.by_ → q.num < n → q.cells = []) →
    (p.scope = 5 → ∀ x ∈ s.hub.xsts, x.ctx = p.ctx → p.xsts ≤ x.num) → s.mem.wf = true →
    (p.cells.map (·.1)).Nodup →
    goesTo (exec .publicationComplete s) fun t =>
      t.mem.done n = true ∧ (∀ m ≠ n, t.mem.done m = s.mem.done m) ∧ (∀ c ∈ p.cells, byteAt t c.1 = c.2) ∧
      ∀ a, (∀ c ∈ p.cells, c.1 ≠ a) → byteAt t a = byteAt s a) ∧
  (∀ (s : State) (n : Nat) (q : RemoteReq) (st : Strand) (va : Word) (dev : BitVec 20) (f : Fmt) (d : Nat),
    s.hub.remote.find? (·.num == n) = some q → s.strand q.owner = some st → q.acc = .xld va dev f d →
    q.dev ≠ s.hub.boot.device →
    (∀ v, s.linked q.dev = true → s.arg = .reply n [v] false → goesTo (exec .remoteReply s) fun t =>
      (∀ k ∈ t.hub.remote, k.num ≠ n) ∧
      t.strand q.owner = some { st with
        regs := st.regs.wrS (BitVec.ofNat 6 d) (extendLoad f (v.toNat % 2 ^ (8 * (loadInfo f).1)))
        pend := st.pend.filter (·.req != n) }) ∧
    (∀ vs b, s.linked q.dev = false → s.arg = .reply n vs b → exec .remoteReply s = .next s) ∧
    (s.inFlight q.owner = false → (∀ r, s.region q.rid = some r → r.ctx = q.ctx) →
      isFatal (s.ctx q.ctx) .remote = false →
      (∀ vs, s.linked q.dev = true → s.arg = .reply n vs true → goesTo (exec .remoteReply s) fun t =>
        (∀ k ∈ t.hub.remote, k.num ≠ n) ∧ frozenBy s t q.rid .remote ∧
        t.strand q.owner = some { st with pend := st.pend.filter (·.req != n) }) ∧
      (s.arg = .num n → q.since + s.rtoOf q.rid ≤ s.tick → goesTo (exec .remoteTimeout s) fun t =>
        (∀ k ∈ t.hub.remote, k.num ≠ n) ∧ frozenBy s t q.rid .remote ∧
        t.strand q.owner = some { st with pend := st.pend.filter (·.req != n) }))) ∧
  (∀ (s : State) (n : Nat) (q : Xst), s.hub.xsts.find? (·.num == n) = some q →
    (q.dev ≠ s.hub.boot.device → s.linked q.dev = true → s.arg = .delivery n true → exec .xstDelivery s =
      .next { s with hub := { s.hub with xsts := s.hub.xsts.filter (·.num != n) } }) ∧
    (q.dev ≠ s.hub.boot.device → (s.linked q.dev = true ∨ q.since + s.rtoOf q.rid ≤ s.tick) →
      s.arg = .delivery n false → s.inFlight q.owner = false →
      (∀ r, s.region q.rid = some r → r.ctx = q.ctx) → isFatal (s.ctx q.ctx) .remote = false →
      goesTo (exec .xstDelivery s) fun t => frozenBy s t q.rid .remote ∧ ∀ k ∈ t.hub.xsts, k.num ≠ n) ∧
    (∀ (ok : Bool) (h : Nat → Nat), q.dev = s.hub.boot.device → s.arg = .delivery n ok → s.mem.wf = true →
      s.earlierReq q.owner q.dev n = false → Function.Injective h → q.va.toNat + q.z ≤ 2 ^ 56 →
      (∀ k < q.z, ∃ e, s.xlat q.ctx (q.va.toNat + k) 2 = .ok (h k) e) →
      goesTo (exec .xstDelivery s) fun t =>
        (∀ k ∈ t.hub.xsts, k.num ≠ n) ∧
        storesMarking s t q.ctx q.va.toNat h q.z fun k => BitVec.ofNat 8 (q.data.toNat / 256 ^ k))) ∧
  (∀ (s : State) (a : PeerAccess) (h : Nat → Nat), let z := (loadInfo a.fmt).1
    let va := a.va.toNat
    s.arg = .peer a → s.linked a.device = true → va % z = 0 → s.mem.wf = true → Function.Injective h →
    let out (bs : List Byte) := s.hub.outbox ++ [⟨a.device, a.va.setWidth 64, bs⟩]
    (a.kind = 0 → (∀ k < z, h k < 2 ^ 64 ∧ ∃ e, s.xlat a.ctx (va + k) 2 = .ok (h k) e) →
      goesTo (exec .remoteHomeAccess s) fun t =>
        t.hub.outbox = out [0] ∧ storesMarking s t a.ctx va h z fun k => BitVec.ofNat 8 (a.data.toNat / 256 ^ k)) ∧
    (a.kind = 1 → (∀ k < z, ∃ e, s.xlat a.ctx (va + k) 1 = .ok (h k) e) →
      goesTo (exec .remoteHomeAccess s) fun t =>
        t.hub.outbox = out ((List.range z).map fun k => s.mem.newest .outside (h k)) ∧
        ∀ b, ¬ markOf s a.ctx va z b → byteAt t b = byteAt s b) ∧
    (2 ≤ a.kind.toNat → a.op = 0 → a.fmt ∈ [Fmt.int32, .uint32, .raw] → (∀ k, h k = h 0 + k) →
      (∀ k < z, h k < 2 ^ 64 ∧ ∃ e, s.xlat a.ctx (va + k) 3 = .ok (h k) e) →
      let old := leNat ((List.range z).map fun k => byteAt s (h k))
      goesTo (exec .remoteHomeAccess s) fun t =>
        t.hub.outbox = out (leBytes z old) ∧
        storesMarking s t a.ctx va h z fun k => BitVec.ofNat 8 ((old + a.data.toNat) % 2 ^ (8 * z) / 256 ^ k)))

/-- What arrives on the networks of a die (R195 to R198, R216 to R219, R286, R288, R318, R322). The oldest token under way
lands behind the tokens of its ring; one at the stage output ends FILLING, and one that brings a trigger's count to COUNT
requests the switch. The oldest freed-slot notice adds its slots to FREESEEN. A barrier event counts, INIT writes the
object anew, and a barrier whose counts are complete begins its next phase; an event that the object cannot take sets OVF
and is reported as BARRIER_STATE. A record enters the event queue in its reserved entry. -/
def Obligations.NetworkArrivals : Prop :=
  (∀ (s : State) (id : RingId) (q : Ring), s.arg = .ring id → s.ring id = some q → q.saved = false →
    (∀ k ∈ s.kern, cfgKind k.config .endpoint = []) →
    (∀ t rest, q.transit = t :: rest → goesTo (exec .ringTokenArrival s) fun u =>
      (∃ q', u.ring id = some q' ∧ q'.slots = q.slots ++ [{ tok := t, num := q.arrived }] ∧ q'.transit = rest ∧
        q'.rp = q.rp ∧ q'.freeseen = q.freeseen ∧ q'.arrived = q.arrived + 1) ∧
      (∀ i ≠ id, u.ring i = s.ring i) ∧ u.mem = s.mem ∧ u.fab = s.fab ∧
      ∀ r, s.region id.rid = some r → ∃ r', u.region id.rid = some r' ∧
        (r.state = .filling → r.isOutput (r.field (ringElem id) 1) = true → r'.state = .steady) ∧
        (r.pend = false → ∀ el, r.armedTriggers.filter (fun e => r.field e 1 == r.field (ringElem id) 1) = [el] →
          r.field el 2 = ((r.trig[trigIx el]?).getD 0) + 1 →
          r'.pend = true ∧ r'.target.val = elNum el - 0x300)) ∧
    (∀ n rest, q.notices = n :: rest → s.feeder id = none → goesTo (exec .freedSlotNotice s) fun u =>
      (∃ q', u.ring id = some q' ∧ q'.freeseen = q.freeseen + n ∧ q'.notices = rest ∧ q'.slots = q.slots) ∧
      (∀ i ≠ id, u.ring i = s.ring i) ∧ u.mem = s.mem ∧ u.fab = s.fab)) ∧
  (∀ (s : State) (n : Nat) (m : BarMsg) (b : Barrier), s.arg = .num n → s.chan.msgs.find? (·.num == n) = some m →
    s.pubsDone m.pubs = true → s.barBehind m = false → s.barrier m.bar = some b → b.saved = false →
    let o := b.obj
    let after (o : BarObj) : BarObj :=
      if o.ovf = false ∧ o.arr = o.exparr ∧ o.bytes = o.expbytes then
        { o with phase := !o.phase, arr := 0, bytes := 0 } else o
    let leaves (o : BarObj) (u : State) : Prop :=
      u.barrier m.bar = some { b with obj := o } ∧ (∀ i ≠ m.bar, u.barrier i = s.barrier i) ∧
      (∀ k ∈ u.chan.msgs, k.num ≠ n) ∧ u.fab = s.fab
    let counts (a : Nat) (k : Int) : Prop :=
      (o.arr + a ≤ o.exparr → -(2 ^ 43 : Int) ≤ o.bytes + k → o.bytes + k < 2 ^ 43 →
        goesTo (exec .barrierEvent s) (leaves (after { o with arr := o.arr + a, bytes := o.bytes + k }))) ∧
      (o.exparr < o.arr + a ∨ o.bytes + k < -(2 ^ 43 : Int) ∨ (2 ^ 43 : Int) ≤ o.bytes + k →
        isFatal (s.ctx b.ctx) .barrierState = false → (∀ r, s.region m.bar.rid = some r → r.ctx = b.ctx) →
        (∀ t, m.sender = some t → s.inFlight t = false) →
        goesTo (exec .barrierEvent s) fun u =>
          leaves { o with ovf := true } u ∧ frozenBy s u m.bar.rid .barrierState)
    (∀ k, m.ev = .arrive k → counts 1 k) ∧ (∀ k, m.ev = .credit k → counts 0 k) ∧
    (∀ k, m.ev = .debit k → counts 0 (-(k : Int))) ∧ (∀ k, m.ev = .debitArrive k → counts 1 (-(k : Int))) ∧
    (∀ x y, m.ev = .init x y → goesTo (exec .barrierEvent s) (leaves (after ⟨false, false, x, 0, y, 0⟩)))) ∧
  (∀ (s : State) (n : Nat) (p : EventPending), s.arg = .num n → s.fab.pushes.find? (·.num == n) = some p →
    s.pubsDone p.pubs = true → s.pushBehind p = false → goesTo (exec .evpushRecordEntry s) fun u =>
      (u.events p.dest).recs = (s.events p.dest).recs ++ [(p.recd, false)] ∧
      (u.events p.dest).reserved = (s.events p.dest).reserved - 1 ∧
      (∀ i ≠ p.dest, u.events i = s.events i) ∧ (∀ k ∈ u.fab.pushes, k.num ≠ n) ∧ u.fab.gangs = s.fab.gangs)

/-- A job that completed (R209, R232): it has left the matcher, its arrival with its bytes is on the way to the barrier
that it names, and with EV = 1 its record of 32 bytes, kind, job number and status 0, is the event queue's newest. -/
def Sys2Proof.Claims.jobDone (s u : State) (j : Job) (credit : Nat) : Prop :=
  u.job j.num = none ∧ (j.barId = none → u.chan.msgs = s.chan.msgs) ∧
  (∀ b, j.barId = some b → ∃ m ∈ u.chan.msgs, m.num = s.chan.nextMsg ∧ m.bar = b ∧ m.ev = .arrive credit) ∧
  ∀ t, j.owner = some t → j.req.ev = true → ∃ r, (u.events t.seq.isl).recs = (s.events t.seq.isl).recs ++ [(r, false)] ∧
    r.length = 32 ∧ fieldN r 0 2 = j.req.code % 65536 ∧ fieldN r 2 2 = j.seqno.toNat ∧ fieldN r 4 1 = 0

/-- A job that runs, of a region whose jobs may run. -/
def Sys2Proof.Claims.runs (s : State) (n : Nat) (j : Job) (k : JobKind) : Prop :=
  s.arg = .num n ∧ s.job n = some j ∧ j.req.kind = k ∧ j.state = .running ∧ s.jobsRun j.rid = true ∧
    s.mem.wf = true ∧ ∀ t, j.owner = some t → ∃ st, s.strand t = some st ∧ st.ended = false

/-- The homes of addresses of a space that a job accesses, each page of them already marked and held by the page unit of
its die, so that the access marks none (R357, R361). -/
def Sys2Proof.Claims.homesOf (s : State) (j : Job) (sp access : Nat) (as hs : List Nat) : Prop :=
  ∃ es, s.jobHomes j.die j.cl j.ctx sp access as = .ok hs es ∧
    ∀ e ∈ es, ∀ u : State, u.mem = s.mem → u.hub.pages = s.hub.pages → u.hub.ctxs = s.hub.ctxs →
      u.markPage j.die j.ctx e.1 e.2 (access != 1) = u

/-- The bytes that a job reads at listed addresses, each at the home that a function gives it. -/
def Sys2Proof.Claims.readAs (s : State) (j : Job) (h : Nat → Nat) (as : List Nat) : List Byte :=
  as.map fun a => s.jobByte j (h a)

/-- Dispatch, copies, the write-back of MRD and a capsule's retrieval (R191, R192, R208 to R213, R233, R241, R245, R246,
R384, R399, R407). A job that fails its checks is gone, sends no arrival and reports ENGINE; a linear copy that passes
them runs on the lowest free engine. A linear copy reads every source byte before it writes; a tensor load puts FILL for
each clipped element and the tensor's own for any other; a ring-fed copy ends when every slot has been written, its last
token in the ring; CPYB fills the columns of the islands that it names and enters the replay log; each completes as R209
says. -/
def Obligations.CopyJobsComplete : Prop :=
  (∀ (s : State) (n : Nat) (j : Job), s.arg = .num n → s.job n = some j → s.dispatchable j = true →
    j.req.kind ≠ .task → j.req.kind ≠ .mzero → j.req.kind ≠ .rtjob →
    let k := s.readTile j
    let t := s.modJob n fun _ => k
    (t.barOk k = false ∨ t.checkJob k = .fail → isFatal (s.ctx j.ctx) .engine = false →
      (∀ r, s.region j.rid = some r → r.ctx = j.ctx) → (∀ t, j.owner = some t → s.inFlight t = false) →
      goesTo (exec .jobDispatch s) fun u =>
        u.job n = none ∧ u.chan.msgs = s.chan.msgs ∧ frozenBy s u j.rid .engine) ∧
    (∀ e, j.req.kind = .copyLinear → s.freeEngine j.die j.cl = some e → j.node = none →
      s.hitsMapped j.die (j.req.arg 3) (j.req.arg 0 % 2 ^ 56) (j.req.arg 2) = false →
      goesTo (exec .jobDispatch s) fun u =>
        u.job n = some { k with state := .running, since := s.mem.nextSeq, engine := e } ∧ u.mem = s.mem) ∧
    (j.req.kind = .mrdWrite → goesTo (exec .jobDispatch s) fun u =>
      u.job n = some { k with state := .running, since := s.mem.nextSeq } ∧ u.mem = s.mem)) ∧
  (∀ (s : State) (n : Nat) (j : Job) (src dst : List Nat), runs s n j .copyLinear → dst.Nodup →
    homesOf s j (j.req.arg 4) 1 (addrs (wide (j.req.arg 1)) (j.req.arg 2)) src →
    homesOf s j (j.req.arg 3) 2 (addrs (wide (j.req.arg 0)) (j.req.arg 2)) dst →
    goesTo (exec .copyJobComplete s) fun u =>
      jobDone s u j (j.req.arg 2) ∧
      storesOnly s u (fun k => dst.getD k 0) (j.req.arg 2) fun k => s.jobByte j (src.getD k 0)) ∧
  (∀ (s : State) (n : Nat) (j : Job) (h : Nat → Nat) (dst : List Nat), runs s n j .copyTensor → j.req.arg 5 = 0 →
    let b := boxOf j.req.bytes
    homesOf s j (j.req.arg 1) 1 b.addrs (b.addrs.map h) →
    homesOf s j (j.req.arg 2) 2 (addrs (wide (j.req.arg 0)) b.bytes) dst → dst.Nodup → b.w % 8 = 0 → 0 < b.w →
    goesTo (exec .copyJobComplete s) fun u =>
      jobDone s u j b.bytes ∧ (∀ a, a ∉ dst → byteAt u a = byteAt s a) ∧
      ∀ y : List Nat, y.length = b.ndim → (∀ i < b.ndim, y.getD i 0 < b.ext.getD i 0) →
        let x (i : Nat) : Int := b.org.getD i 0 + y.getD i 0
        let place : Int := b.base + ((List.range b.ndim).map fun i => x i * b.str.getD i 0).sum
        let e := (y.zip b.ext).foldr (fun p k => p.1 + p.2 * k) 0
        ∀ q < b.w / 8,
          ((∃ i < b.ndim, x i < 0 ∨ (b.dim.getD i 0 : Int) ≤ x i) →
            byteAt u (dst.getD (e * (b.w / 8) + q) 0) = BitVec.ofNat 8 (b.fill % 2 ^ b.w / 256 ^ q)) ∧
          ((∀ i < b.ndim, 0 ≤ x i ∧ x i < b.dim.getD i 0) →
            byteAt u (dst.getD (e * (b.w / 8) + q) 0) = s.jobByte j (h (b.top * 2 ^ 64 + place.toNat + q)))) ∧
  (∀ (s : State) (n : Nat) (j : Job), runs s n j .copyRing → j.left = 0 → j.node = none →
    (∀ id m q, j.req.ring = some (id, m) → s.ring id = some q → q.transit = []) →
    goesTo (exec .copyJobComplete s) fun u =>
      jobDone s u j (j.req.arg 0 * (boxOf j.req.bytes).bytes) ∧ u.mem = s.mem) ∧
  (∀ (s : State) (n : Nat) (j : Job) (src : List Nat), runs s n j .cpyb →
    let w := cpybWidth (j.req.arg 6) (j.req.arg 5)
    let rows := j.req.arg 4
    let lo := j.req.arg 3 % 65536
    let size := rows * 16 * w
    homesOf s j (j.req.arg 1) 1 (addrs (wide (j.req.arg 0)) size) src → w % 8 = 0 → lo + rows * (w / 8) ≤ 49152 →
    goesTo (exec .cpybComplete s) fun u =>
      jobDone s u j size ∧
      (∀ i : Fin 4, (j.req.arg 3).testBit (16 + i.val) = true → ∀ col < 128, ∀ r < rows, ∀ q < w / 8,
        byteAt u (homeB ⟨j.die, j.cl, i⟩ col (lo + r * (w / 8) + q)) =
          s.jobByte j (src.getD ((r * 128 + col) * (w / 8) + q) 0)) ∧
      ∀ r, s.region j.rid = some r → ∃ r' e, u.region j.rid = some r' ∧ r'.replay.getLast? = some e ∧ e.req = j.req) ∧
  (∀ (s : State) (n : Nat) (j : Job), runs s n j .mrdWrite →
    let base := j.req.arg 0
    let stride := j.req.arg 1
    let len := j.req.arg 2
    len ≤ stride → base + 128 * stride ≤ 2 ^ 24 → j.req.bytes.length = 128 * len →
    goesTo (exec .mrdWritebackComplete s) fun u =>
      u.job n = none ∧
      (∀ r < 128, ∀ k < len, byteAt u (homeCluster j.die j.cl (base + r * stride + k)) = j.req.bytes.getD (r * len + k) 0) ∧
      ∀ a, (∀ r < 128, ∀ k < len, a ≠ homeCluster j.die j.cl (base + r * stride + k)) → byteAt u a = byteAt s a) ∧
  (∀ (s : State) (n : Nat) (j : Job) (dst : List Nat), runs s n j .capsGet → s.dbg.capsule.state = .sealed_ → dst.Nodup →
    j.req.ev = false → j.barId = none →
    let img := s.capsImage j.ctx (j.req.arg 3 != 0)
    homesOf s j 0 2 (addrs (wide (j.req.arg 0)) img.length) dst →
    goesTo (exec .capsGetComplete s) fun u =>
      u.job n = none ∧ u.dbg.capsule = { s.dbg.capsule with state := .retrieved } ∧
      storesOnly s u (fun k => dst.getD k 0) img.length fun k => img.getD k 0)

/-- Tile tasks and MZERO (R103, R226, R229, R231 to R233, R239). With Z = 1, as MZERO, a job takes a FREE slot of the
coolest eligible island with its value +0 in every element, its name's old slot released; without it a bound name's slot
is used, and an unbound name fails ENGINE, as a bad record or a bad A does. The array's occupancy ends before the task
does, and a ring A's token leaves its ring then. At completion each element of the accumulator is the sum of R103 over
its row of A and its column of B, and MZERO leaves zeros. -/
def Obligations.TileJobsComplete : Prop :=
  (∀ (s : State) (n : Nat) (j : Job) (t : StrandId) (st : Strand), s.arg = .num n → s.job n = some j →
    s.dispatchable j = true → (j.req.kind = .task ∨ j.req.kind = .mzero) → j.owner = some t → s.strand t = some st →
    s.barOk j = true →
    let r := j.req.bytes
    let k := s.readTile j
    let badA := (s.modJob n fun _ => k).taskABad k
    let zero := fieldN r 0 2 = 0x12
    let z := (fieldN r 4 1).testBit 0 = true
    let free := ∀ a b, st.regs.acc[j.acc] ≠ .bound a b
    let isl (i : Fin 4) : IslandId := ⟨j.die, j.cl, i⟩
    let takes (o : Out) (i m : Fin 4) (p : State → Prop) : Prop := goesTo o fun u =>
      u.slot (isl i) m = ⟨.bound t j.acc, [], 0⟩ ∧
      (∃ v, u.strand t = some v ∧ v.regs.acc = st.regs.acc.set j.acc (.bound i m)) ∧
      u.job n = some { k with state := .running, since := s.mem.nextSeq, island := i, slot := m } ∧ p u
    let fails (o : Out) : Prop := isFatal (s.ctx j.ctx) .engine = false → s.inFlight t = false →
      (∀ r, s.region j.rid = some r → r.ctx = j.ctx) →
      goesTo o fun u => u.job n = none ∧ u.chan.msgs = s.chan.msgs ∧ frozenBy s u j.rid .engine
    (taskBad r j.req.recAt.isSome = true ∨ (¬ zero ∧ badA = true) → fails (exec .tileTaskDispatch s)) ∧
    (taskBad r j.req.recAt.isSome = false → (¬ zero → badA = false) →
      (∀ i m, z → free → s.coolest j (fieldN r 17 1) = some (i, m) → takes (exec .tileTaskDispatch s) i m fun _ => True) ∧
      (∀ a b i m, z → st.regs.acc[j.acc] = .bound a b →
        (s.setSlot (isl a) b ⟨.free, [], 0⟩).coolest j (fieldN r 17 1) = some (i, m) →
        takes (exec .tileTaskDispatch s) i m fun u => (a, b) ≠ (i, m) → u.slot (isl a) b = ⟨.free, [], 0⟩) ∧
      (∀ i m, ¬ z → st.regs.acc[j.acc] = .bound i m →
        goesTo (exec .tileTaskDispatch s) fun u =>
          u.job n = some { k with state := .running, since := s.mem.nextSeq, island := i, slot := m } ∧
          u.eng.mats = s.eng.mats) ∧
      (¬ z → free → fails (exec .tileTaskDispatch s)))) ∧
  (∀ (s : State) (n : Nat) (j : Job), runs s n j .task → j.req.fld 0 2 ≠ 0x12 → s.arrayBusy j = false →
    (s.island (matKey ⟨j.die, j.cl, j.island⟩)).running = true →
    goesTo (exec .tileTaskArrayEnd s) fun u =>
      u.job n = some { j with state := .arrayDone, tok := s.taken j } ∧ u.mem = s.mem ∧ u.eng.mats = s.eng.mats ∧
      (j.req.ring = none → u.chan = s.chan) ∧
      ∀ id m q x rest, j.req.ring = some (id, m) → s.ring id = some q → q.slots = x :: rest → x.num = m →
        (∀ y ∈ rest, y.num ≠ m ∧ y.gone = false) →
        ∃ q', u.ring id = some q' ∧ q'.slots = rest ∧ q'.notices = q.notices ++ [1]) ∧
  (∀ (s : State) (n : Nat) (j : Job) (b : List (List Machine.Num)), s.arg = .num n → s.job n = some j → j.req.kind = .task →
    j.state = .arrayDone → s.jobsRun j.rid = true →
    (∀ t, j.owner = some t → ∃ st, s.strand t = some st ∧ st.ended = false) →
    let i : IslandId := ⟨j.die, j.cl, j.island⟩
    let old := s.slot i j.slot
    old.state ≠ .held n →
    s.columnsB i (codeFmt (j.req.fld 3 1)) (j.req.fld 8 2) (j.req.fld 7 1) (j.req.fld 10 2) (j.req.fld 12 2)
      (j.req.fld 14 2) = some b → (s.taskA j).length = 128 →
    goesTo (exec .tileTaskComplete s) fun u =>
      jobDone s u j 0 ∧ (u.slot i j.slot).state = old.state ∧ u.mem = s.mem ∧
      ∀ row col, row < 128 → col < 128 → smGet 0 (u.slot i j.slot).vals (128 * row + col) =
        BitVec.ofNat 32 (dotFrom (smGet 0 old.vals (128 * row + col)).toNat
          (((s.taskA j).getD row []).zip (b.getD col []))).1) ∧
  (∀ (s : State) (n : Nat) (j : Job) (kind : JobKind), runs s n j kind → (kind = .mzero ∨ kind = .task) →
    j.req.fld 0 2 = 0x12 → let i : IslandId := ⟨j.die, j.cl, j.island⟩
    (s.slot i j.slot).state ≠ .held n →
    goesTo (exec .mzeroComplete s) fun u =>
      jobDone s u j 0 ∧ u.slot i j.slot = { s.slot i j.slot with vals := [], flags := 0 } ∧ u.mem = s.mem)

/-- TDSTEP_COMPLETE (R250, R251, R252): each active row of the path-trace register goes to the child that the sign of its
margin chooses, its path bit and its FP16 margin beside it; the level rises; the records of the distinct nodes stand as
columns of the scratch on the job's island; and no other byte of memory changes. -/
def Sys2Proof.Claims.StepsComplete : Prop :=
  ∀ (s : State) (n : Nat) (j : Job) (t : StrandId) (st : Strand) (h : Nat → Nat), runs s n j .tdstep →
    j.owner = some t → s.strand t = some st →
    let d := j.req.bytes
    let p := s.jobPath j
    let w := fieldN d 48 2
    let f := codeFmt (fieldN d 52 1)
    let nb := w * fmtWidth f / 8
    let rec_ (x : Nat) : List Byte := readAs s j h (addrs (layerRecord d false x).1 (nb + 4))
    let margin (row : Nat) : Nat := (addF32 (dotFrom 0 ((s.layerA j row).zip (recordVals f 0 w (rec_ (p.node row))))).1
      (fieldN (rec_ (p.node row)) nb 4)).bits
    let goesRight (row : Nat) : Prop := (elemVal .fp32 (margin row)).isNan = false ∧
      ((elemVal .fp32 (margin row)).isNeg = true → (elemVal .fp32 (margin row)).isZero = true)
    let as := (activeNodes p).flatMap fun x => addrs (layerRecord d false x).1 (nb + 4)
    let column (k q : Nat) : Nat := homeB ⟨j.die, j.cl, j.island⟩ k (fieldN d 58 2 + q)
    homesOf s j (layerSpace d false) 1 as (as.map h) → p.nrows ≤ 128 → p.level < 16 → smOk 0 none p.rows = true →
    fieldN d 58 2 + nb ≤ 49152 →
    goesTo (exec .tdstepComplete s) fun u =>
      jobDone s u j 0 ∧ (u.jobPath j).level = p.level + 1 ∧ (u.jobPath j).nrows = p.nrows ∧
      (∀ row < p.nrows,
        let next (c : Nat) : Nat :=
          (2 * p.node row + c - (if p.level + 1 = fieldN d 50 1 then 2 ^ fieldN d 50 1 - 1 else 0)) % 65536
        (u.jobPath j).margin row p.level = (satTo .fp16 (margin row)).bits ∧
        (goesRight row → (u.jobPath j).node row = next 2 ∧ ((u.jobPath j).pathBits row).testBit p.level = true) ∧
        (¬ goesRight row → (u.jobPath j).node row = next 1 ∧ ((u.jobPath j).pathBits row).testBit p.level = false)) ∧
      (∀ k x, (activeNodes p)[k]? = some x → ∀ q < nb, byteAt u (column k q) = (rec_ x).getD q 0) ∧
      ∀ a, (∀ k < (activeNodes p).length, ∀ q < nb, a ≠ column k q) → byteAt u a = byteAt s a

/-- TDLEAF_COMPLETE (R254): each active row of the path-trace register has its leaf's output, in its row of the cluster
store, where no other byte of memory changes, or in its row of the tile register that the leaf names. -/
def Sys2Proof.Claims.LeavesComplete : Prop :=
  ∀ (s : State) (n : Nat) (j : Job) (t : StrandId) (st : Strand) (h : Nat → Nat), runs s n j .tdleaf →
    j.owner = some t → s.strand t = some st →
    let d := j.req.bytes
    let p := s.jobPath j
    let w := fieldN d 48 2
    let lf := codeFmt (fieldN d 53 1)
    let yf := codeFmt (fieldN d 54 1)
    let e := fmtWidth yf / 8
    let at_ (x : Nat) : List Nat := addrs (layerRecord d true x).1 (layerRecord d true x).2
    let out (row : Nat) : List Nat :=
      (leafRow lf yf (j.req.arg 6 != 0) (fieldN d 51 1) w (s.layerA j row) (readAs s j h (at_ (p.node row)))).1
    let as := (activeNodes p).flatMap at_
    homesOf s j (layerSpace d true) 1 as (as.map h) → p.nrows ≤ 128 → yf ∈ [Fmt.fp32, .bf16, .fp16] →
    (8 ≤ j.req.arg 5 → e * w ≤ fieldN d 28 4 → ptr (fieldN d 40 8) + p.nrows * fieldN d 28 4 ≤ 2 ^ 24 →
      let place (row k : Nat) : Nat := homeCluster j.die j.cl (ptr (fieldN d 40 8) + row * fieldN d 28 4 + k)
      goesTo (exec .tdleafComplete s) fun u =>
        jobDone s u j 0 ∧
        (∀ row < p.nrows, ∀ k < w, ∀ q < e,
          byteAt u (place row (e * k + q)) = BitVec.ofNat 8 ((out row).getD k 0 / 256 ^ q)) ∧
        ∀ a, (∀ row < p.nrows, ∀ k < e * w, a ≠ place row k) → byteAt u a = byteAt s a) ∧
    (j.req.arg 5 < 8 → w * fmtWidth yf ≤ 1024 →
      goesTo (exec .tdleafComplete s) fun u =>
        jobDone s u j 0 ∧ u.mem = s.mem ∧ ∃ v, u.strand t = some v ∧
          let y := v.regs.rdT (BitVec.ofNat 4 (j.req.arg 5))
          y.tag = yf ∧ ∀ row < p.nrows, y.rows.getD row 0 = rowOf (fmtWidth yf) (out row))

/-- A byte of the work area of a skive job (R262). -/
def Sys2Proof.Claims.areaByte (s : State) (j : Job) (k : Nat) : Byte :=
  byteAt s (homeCluster j.die j.cl (fieldN j.req.bytes 40 8 + k))

/-- A 32-bit number of the work area of a skive job (R263). -/
def Sys2Proof.Claims.areaWord (s : State) (j : Job) (k : Nat) : Nat :=
  leNat ((List.range 4).map fun i => areaByte s j (k + i))

/-- The neurons that a bitmap of the work area of a skive job names: FBM, MBM or RBM (R262). -/
def Sys2Proof.Claims.areaCount (s : State) (j : Job) (map : Nat) : Nat :=
  let d := j.req.bytes
  ((List.range (skNeurons d)).filter fun i => (areaByte s j (576 + map * skNb d + i / 8)).getLsbD (i % 8)).length

/-- The four skive steps (R263, R265, R267 to R270): each leaves its STATE in the work area and there its count: SKPRED
and SKCHK the neurons of the bitmap that they write, SKFETCH, which leaves FBM as it is, those of FBM whose hidden value
is positive in some row, and SKRPL, whose STATUS has two bits, the neurons that RBM names. -/
def Sys2Proof.Claims.SkiveStepsComplete : Prop :=
  ∀ (s : State) (n : Nat) (j : Job) (kind : JobKind) (h : Nat → Nat), runs s n j kind → skiveBad j.req = false →
    let d := j.req.bytes
    let reads (pq : Bool) (spans : List (Nat × Nat)) : Prop :=
      let as := spans.flatMap fun p => addrs p.1 p.2
      homesOf s j (skSpace d pq) 1 as (as.map h)
    let leaves (u : State) (state : Byte) : Prop := jobDone s u j 0 ∧ areaByte u j 0 = state
    (kind = .skpred → reads true (skPSpans d) → goesTo (exec .skpredComplete s) fun u =>
      leaves u 1 ∧ areaByte u j 1 = 0 ∧ areaWord u j 4 = areaCount u j 0) ∧
    (let ns := (List.range (skNeurons d)).filter (skBit d (s.skiveArea j) 0)
     kind = .skfetch → skReads j.req false (skWSpans d ns) = true → reads false (skWSpans d ns) →
      goesTo (exec .skfetchComplete s) fun u =>
        leaves u 2 ∧ (∀ i < skNeurons d, areaByte u j (576 + i / 8) = areaByte s j (576 + i / 8)) ∧
        areaWord u j 8 = (ns.filter fun i =>
          let row := skSpan d 0 (skWstr d) (skRowBytes d) i
          (skX j.req).any fun x =>
            gtF32 (dotFrom 0 (x.zip (skVals d (readAs s j h (addrs row.1 row.2))))).1 0).length) ∧
    (kind = .skchk → reads false (skShSpans d) → goesTo (exec .skchkComplete s) fun u =>
      leaves u 3 ∧ areaWord u j 12 = areaCount u j 1) ∧
    (kind = .skrpl → reads false (skShSpans d) →
      (∀ ns : List Nat, (∀ i ∈ ns, i < skNeurons d) →
        skReads j.req false (skWSpans d ns) = true ∧ reads false (skWSpans d ns)) →
      goesTo (exec .skrplComplete s) fun u =>
        leaves u 4 ∧ (areaByte u j 1).toNat < 4 ∧ areaWord u j 16 = areaCount u j 2)

/-- RTJOB_COMPLETE (R380 to R382, R384, R387): the four outputs of the routing stand in their entries' elements, no other
byte of memory changes, and each valid expert slot of the die that no SWR of the tick wrote has its probability renewed. -/
def Sys2Proof.Claims.RoutingCompletes : Prop :=
  ∀ (s : State) (n : Nat) (j : Job) (src : List Nat) (dst : Nat → List Nat), runs s n j .rtjob →
    let d := j.req.bytes
    homesOf s j (rtShape d 0).space 1 (rtAddrs d 0 (rtUnit d 0)) src →
    (∀ k < 4, homesOf s j (rtShape d (k + 1)).space 2 (rtAddrs d (k + 1) (rtUnit d (k + 1))) (dst k)) →
    (dst 0 ++ dst 1 ++ dst 2 ++ dst 3).Nodup →
    let sc := (List.range (rtE d * rtT d)).map fun k => elemVal (codeFmt (rtShape d 0).fmt)
      (leNat ((List.range (rtUnit d 0)).map fun q => s.jobByte j (src.getD (rtUnit d 0 * k + q) 0)))
    let out (k : Nat) : List Byte := ((rtOutput d (rtChosen d sc)).getD k []).flatten
    let hist := (rtHist d (rtChosen d sc)).1
    src.length = rtE d * rtT d * rtUnit d 0 → (∀ k < 4, (out k).length = (dst k).length) →
    goesTo (exec .rtjobComplete s) fun u =>
      jobDone s u j 0 ∧ (∀ k < 4, ∀ q < (dst k).length, byteAt u ((dst k).getD q 0) = (out k).getD q 0) ∧
      (∀ a, (∀ k < 4, a ∉ dst k) → byteAt u a = byteAt s a) ∧
      ∀ g : Fin 32, let x := (s.die j.die).exslots[g]
        let hit : Int := if x.expert.toNat < rtE d ∧ hist.getD x.expert.toNat 0 ≠ 0 then 255 else 0
        (u.die j.die).exslots[g] =
          if ((s.die j.die).exslot g).valid = true ∧ x.wrote ≠ s.tick + 1 then
            { x with prob := BitVec.ofInt 8 (x.prob.toNat + (hit - x.prob.toNat).tdiv 8) } else x

/-- Descent steps, leaves, skive steps and routing jobs complete as their rules say (R250 to R254, R262 to R270, R380 to
R384, R387). -/
def Obligations.TreeSkiveAndRoutingJobsComplete : Prop :=
  Sys2Proof.Claims.StepsComplete ∧ Sys2Proof.Claims.LeavesComplete ∧ Sys2Proof.Claims.SkiveStepsComplete ∧
    Sys2Proof.Claims.RoutingCompletes

/-- A node that may fire (R286, R290, R302), with its region and element. -/
def Sys2Proof.Claims.nodeIs (s : State) (n : NodeId) (k : ElKind) (r : Region) (el : Nat) : Prop :=
  s.nodeOf n k = some (r, el) ∧ s.region r.rid = some r

/-- An in port of a node with a ring none of whose tokens is reserved or popped, and its first tokens. -/
def Sys2Proof.Claims.offers (s : State) (r : Region) (el p : Nat) (q : Ring) (ts : List Token) : Prop :=
  s.ringInto r.rid el p = some q ∧ s.ring q.id = some q ∧ (q.slots.map (·.num)).Nodup ∧ ts ≠ [] ∧
  (∀ t ∈ q.slots, t.gone = false ∧ t.res = false) ∧ (q.slots.take ts.length).map (·.tok) = ts

/-- The tokens have left their ring, one notice for all of them (R195, R197). -/
def Sys2Proof.Claims.tookFrom (u : State) (q : Ring) (n : Nat) : Prop :=
  ∃ q', u.ring q.id = some q' ∧ q'.slots = q.slots.drop n ∧ q'.notices = q.notices ++ [n] ∧ q'.transit = q.transit

/-- An out port of a node with a ring that has room. -/
def Sys2Proof.Claims.opensTo (s : State) (r : Region) (el o : Nat) (w : Ring) : Prop :=
  s.ringFrom r.rid el o = some w ∧ s.ring w.id = some w ∧ 1 ≤ w.freeseen - w.fresv

/-- A token is on its way through a ring, its slot filled up with zeros (R195, R196). -/
def Sys2Proof.Claims.pushedTo (u : State) (w : Ring) (t : Token) : Prop :=
  ∃ w', u.ring w.id = some w' ∧ w'.transit = w.transit ++ [{ t with bytes := padTo w.slotsz t.bytes }] ∧
    w'.freeseen = w.freeseen - 1 ∧ w'.slots = w.slots

/-- A node's own progress after a step. -/
def Sys2Proof.Claims.runIs (u : State) (r : Region) (el : Nat) (p : NodeRun → Prop) : Prop :=
  ∃ r', u.region r.rid = some r' ∧ p (r'.run el)

/-- The firings of stream, repeat, bit-field and converter nodes (R235, R236, R281, R284). A stream node adds its in
tokens' products to its slot, converts the sum into its out token and leaves +0. A repeat node absorbs tokens into its
buffer, then pushes them in turn. A bit-field node gives the bits of its tables' outputs, each table the bit that its four
inputs choose. A converter node converts each element as VCVT does. -/
def Obligations.StreamingNodesFire : Prop :=
  (∀ (s : State) (n : NodeId) (r : Region) (el p o : Nat) (q w : Ring) (ts : List Token) (b : List (List Machine.Num)),
    s.arg = .node n → nodeIs s n .stream r el → (r.inPorts el)[0]? = some p → (r.outPorts el)[0]? = some o →
    offers s r el p q ts → opensTo s r el o w → w.id ≠ q.id → ts.length = r.field el 8 1 →
    s.sliceBusy (r.nodeIsl el) (r.nodeSlices el) = false →
    let i := r.nodeIsl el
    let k := r.field el 2
    let fm := r.field el 1
    let slot : Fin 4 := ⟨r.field el 7 % 4, Nat.mod_lt _ (by decide)⟩
    let out := codeFmt (bits fm 14 10)
    let sum := ts.foldl (fun v t => (arrayAdd v (packedA (codeFmt (bits fm 4 0)) k t.bytes) b).1) (s.slot i slot).vals
    s.columnsB i (codeFmt (bits fm 9 5)) k (r.field el 6) (r.field el 3) (r.field el 4) (r.field el 5) = some b →
    goesTo (exec .streamNodeFiring s) fun u =>
      tookFrom u q ts.length ∧ u.slot i slot = ⟨.stream, [], 0⟩ ∧ u.mem = s.mem ∧
      pushedTo u w ⟨out, (accRows sum).flatMap fun row => denseBytes (fmtWidth out)
        (row.map fun x => (cvtVal ⟨.rne, true, false, false⟩ out .fp32 x 1).bits)⟩ ∧
      runIs u r el fun v => v.fired = (r.run el).fired + 1) ∧
  (∀ (s : State) (n : NodeId) (r : Region) (el pc pi po : Nat) (qc : Ring) (t : Token),
    s.arg = .node n → nodeIs s n .copy r el → r.field el 1 = 1 → s.repeatHolds r el = true →
    (r.inPorts el)[0]? = some pc →
    (r.inPorts el)[1]? = some pi → (r.outPorts el)[0]? = some po → (s.waitingAt r.rid el pc).head? = some t →
    s.ringInto r.rid el pc = some qc → s.mem.wf = true →
    let c := fieldN t.bytes 0 4
    let v := r.run el
    let len := r.field el 6
    c ≠ 0 → c < 65536 →
    (∀ q tok, v.buffer.length < len → offers s r el pi q [tok] → q.id ≠ qc.id →
      goesTo (exec .repeatNodeFiring s) fun u =>
        tookFrom u q 1 ∧ runIs u r el (fun v' => v'.buffer = v.buffer ++ [tok] ∧ v'.iter = [c * len]) ∧
        ∀ k < tok.bytes.length, byteAt u (homeCluster r.die (r.cluster (elCluster el))
          (r.field el 8 + tok.bytes.length * v.buffer.length + k)) = tok.bytes.getD k 0) ∧
    (∀ k w tok, v.buffer.length = len → v.iter = [k + 2] → opensTo s r el po w →
      v.buffer[(c * len - (k + 2)) % len]? = some tok → 0 < len →
      goesTo (exec .repeatNodeFiring s) fun u =>
        pushedTo u w tok ∧ u.mem = s.mem ∧ runIs u r el fun v' => v'.buffer = v.buffer ∧ v'.iter = [k + 1])) ∧
  (∀ (s : State) (n : NodeId) (r : Region) (el : Nat) (q w : Ring) (tok : Token),
    s.arg = .node n → nodeIs s n .bitfield r el → offers s r el 0 q [tok] → opensTo s r el 1 w → w.id ≠ q.id →
    goesTo (exec .bitfieldNodeFiring s) fun u =>
      tookFrom u q 1 ∧ u.mem = s.mem ∧ runIs u r el (fun v => v.fired = (r.run el).fired + 1) ∧
      ∃ (bs : List Byte) (out : Nat → Bool), pushedTo u w ⟨.raw, bs⟩ ∧ bs.length = ceilDiv (r.field el 4 + 1) 8 ∧
        (∀ j ≤ r.field el 4, r.field el 3 + j ≤ r.field el 2 → (leNat bs).testBit j = out (r.field el 3 + j)) ∧
        ∀ t ≤ r.field el 2,
          let g := r.field (el / 8192 * 8192 + 0x400 + r.field el 1 + t) 1
          let input (v : Nat) : Bool :=
            if v < 0x200 then (leNat tok.bytes).testBit v else if v < 0x400 then v == 0x201 else out (v - 0x400)
          (∀ v ∈ [bits g 26 16, bits g 37 27, bits g 48 38, bits g 59 49], v ≤ 0x201 ∨ (0x400 ≤ v ∧ v < 0x400 + t)) →
          out t = g.testBit ((input (bits g 26 16)).toNat + 2 * (input (bits g 37 27)).toNat
            + 4 * (input (bits g 48 38)).toNat + 8 * (input (bits g 59 49)).toNat)) ∧
  (∀ (s : State) (n : NodeId) (r : Region) (el p o : Nat) (q w : Ring) (tok : Token),
    s.arg = .node n → nodeIs s n .converter r el → (r.inPorts el)[0]? = some p →
    (r.outPorts el).find? (· != 1) = some o → offers s r el p q [tok] → opensTo s r el o w → w.id ≠ q.id →
    s.ringFrom r.rid el 1 = none →
    let v := r.field el 1
    let dst := codeFmt (bits v 4 0)
    let lanes := min 128 (tok.bytes.length / 4)
    tok.tag.inF = true → dst.inF = true → v.testBit 5 = true → v.testBit 9 = false → 4 * lanes ≤ w.slotsz →
    goesTo (exec .converterNodeFiring s) fun u =>
      tookFrom u q 1 ∧ u.mem = s.mem ∧ runIs u r el (fun v => v.fired = (r.run el).fired + 1) ∧
      ∃ bs : List Byte, pushedTo u w ⟨dst, bs⟩ ∧ bs.length = 4 * lanes ∧
        ∀ j k, j < lanes * (32 / fmtWidth dst) →
          convertedFrom lanes (fmtWidth tok.tag) (fmtWidth dst) 0 j = some k →
          leNat bs / 2 ^ (fmtWidth dst * j) % 2 ^ fmtWidth dst =
            (cvtVal ⟨Rnd.ofField (bits v 8 6), false, false, false⟩ dst tok.tag (elemVal tok.tag
              (leNat tok.bytes / 2 ^ (fmtWidth tok.tag * k) % 2 ^ fmtWidth tok.tag)) 0).bits)

/-- The homes of bytes that a memory node writes, each page of them already marked and held by the page unit of its die
(R357, R361). -/
def Sys2Proof.Claims.nodeHomesAre (s : State) (r : Region) (el : Nat) (as hs : List Nat) : Prop :=
  ∃ es, s.nodeHomes r el 2 as = .ok hs es ∧
    ∀ e ∈ es, ∀ u : State, u.mem = s.mem → u.hub.pages = s.hub.pages → u.hub.ctxs = s.hub.ctxs →
      u.markPage r.die r.ctx e.1 e.2 true = u

/-- Memory nodes, skive and routing nodes, and collective units (R169, R193, R281, R341, R360, R362, R372, R384). A stream
gives its next element, in order; an access outside its bounds faults the region BOUNDS, and one whose page fails stops the
node alone. An ordered update leaves its operation's value in memory. A held fence behind no earlier access leaves by the
completion port. A skive node's firing runs its four steps in order, a routing node's its job. A member's contribution joins
the reduction, which gives one token when every member has one; a member's failure reports REMOTE. -/
def Obligations.MemoryAndCollectiveNodesFire : Prop :=
  (∀ (s : State) (n : NodeId) (r : Region) (el : Nat),
    s.arg = .nodePoison n false → nodeIs s n .memory r el → (r.run el).stuck = false → s.mem.wf = true →
    let f := codeFmt (r.field el 3)
    let v := r.run el
    let it := v.iter.headD 0
    let va := r.streamAddr el it
    let span := addrs va (unitBytes f)
    (∀ o w, r.field el 1 = 0 → (r.outPorts el)[0]? = some o → r.inPorts el = [] → opensTo s r el o w →
      it < r.streamLen el →
      (∀ hs, r.nodeBounds el va (unitBytes f) false = true → s.nodeHomes r el 1 span = .ok hs [] →
        it + 1 < r.streamLen el → goesTo (exec .memoryNodeAccess s) fun u =>
          pushedTo u w ⟨f, hs.map (s.nodeByte r el)⟩ ∧ u.mem = s.mem ∧
          runIs u r el fun v' => v'.iter = [it + 1] ∧ v'.fired = v.fired + 1) ∧
      (r.nodeBounds el va (unitBytes f) false = false → isFatal (s.ctx r.ctx) .bounds = false →
        goesTo (exec .memoryNodeAccess s) fun u => frozenBy s u r.rid .bounds ∧ u.chan = s.chan) ∧
      (∀ code st a, r.nodeBounds el va (unitBytes f) false = true → s.nodeHomes r el 1 span = .bad code st a →
        (code = .protect → goesTo (exec .memoryNodeAccess s) fun u => frozenBy s u r.rid .protect) ∧
        (code ≠ .protect → goesTo (exec .memoryNodeAccess s) fun u => u.chan = s.chan ∧
          (∃ r', u.region r.rid = some r' ∧ r'.state = r.state ∧
            ∃ w ∈ r'.waiting, w.tick = s.tick ∧ fieldN w.recd 0 2 = 0x301 ∧ fieldN w.recd 2 1 = code.num) ∧
          runIs u r el fun v' => v'.stuck = true))) ∧
    (∀ p q tok, r.field el 1 = 2 → (r.inPorts el)[0]? = some p → v.parked = [] → offers s r el p q [tok] →
      isFatal (s.ctx r.ctx) .bounds = false → isFatal (s.ctx r.ctx) .protect = false →
      goesTo (exec .memoryNodeAccess s) fun u =>
        tookFrom u q 1 ∧
        let (a, x, fence) := Config.memToken tok.bytes
        (∀ k, fence = some k → runIs u r el fun v' => v'.parked = [(some k.val, true, tok)]) ∧
        (∀ hs, fence = none → r.nodeBounds el (a % 2 ^ 56) (unitBytes f) true = true →
          nodeHomesAre s r el (addrs (a % 2 ^ 56) (unitBytes f)) hs → hs.Nodup → (∀ h ∈ hs, h < 2 ^ 64) →
          runIs u r el (fun v' => v'.parked = [] ∧ v'.fired = v.fired + 1) ∧
          storesOnly s u (fun k => hs.getD k 0) (unitBytes f) fun k =>
            BitVec.ofNat 8 (updateVal f (r.field el 16) (leNat (hs.map (byteAt s))) x / 256 ^ k)))) ∧
  (∀ (s : State) (n : NodeId) (r : Region) (el o : Nat) (w : Ring) (reg : Option Nat) (tok : Token)
      (rest : List (Option Nat × Bool × Token)),
    s.arg = .node n → nodeIs s n .memory r el → (r.run el).parked = (reg, true, tok) :: rest →
    (r.outPorts el)[0]? = some o → opensTo s r el o w →
    goesTo (exec .fenceTokenRelease s) fun u =>
      pushedTo u w tok ∧ u.mem = s.mem ∧ runIs u r el fun v => v.parked = rest) ∧
  (∀ (s : State) (n : NodeId) (r : Region) (el : Nat) (ts : List Token) (s' : State),
    s.arg = .node n → s.nodeIdle n = true →
    ((r.run el).iter = [] → s.takeAll r el = some (ts, s') →
      (nodeIs s n .skive r el → s.matcherRoom r.die (r.cluster (elCluster el)) 4 = true →
        goesTo (exec .skiveNodeFiring s) fun u =>
        (u.eng.jobs.drop s'.eng.jobs.length).map (·.req.kind) = [.skpred, .skfetch, .skchk, .skrpl] ∧
        (∀ j ∈ u.eng.jobs.drop s'.eng.jobs.length, j.node = some n ∧ j.ctx = r.ctx) ∧
        runIs u r el fun v => v.iter = [1]) ∧
      (nodeIs s n .routing r el → s.matcherRoom r.die (r.cluster (elCluster el)) 1 = true →
        goesTo (exec .routingNodeFiring s) fun u =>
        (u.eng.jobs.drop s'.eng.jobs.length).map (·.req.kind) = [.rtjob] ∧
        (∀ j ∈ u.eng.jobs.drop s'.eng.jobs.length, j.node = some n ∧ j.ctx = r.ctx) ∧
        runIs u r el fun v => v.iter = [1])) ∧
    ((r.run el).iter ≠ [] → r.outPorts el = [] →
      (nodeIs s n .skive r el → goesTo (exec .skiveNodeFiring s) fun u =>
        runIs u r el fun v => v.iter = [] ∧ v.fired = (r.run el).fired + 1) ∧
      (nodeIs s n .routing r el → goesTo (exec .routingNodeFiring s) fun u =>
        runIs u r el fun v => v.iter = [] ∧ v.fired = (r.run el).fired + 1))) ∧
  (∀ (s : State) (n : NodeId) (r : Region) (el : Nat) (m : BitVec 20), nodeIs s n .endpoint r el →
    bits (r.field el 2) 1 0 ≠ 0 → (r.run el).failed = false →
    (∀ elems, s.arg = .contribution n m elems → m ≠ s.hub.boot.device →
      let l := (r.run el).contrib ++ [(m, elems)]
      let ms := Config.members r.rid el
      (r.outPorts el = [] → goesTo (exec .collectiveContribution s) fun u => runIs u r el fun v => v.contrib = l) ∧
      (∀ o w, (r.outPorts el)[0]? = some o → opensTo s r el o w → (∀ k ∈ ms, ∃ e ∈ l, e.1 = k) →
        goesTo (exec .collectiveContribution s) fun u =>
          (ms = [] → runIs u r el fun v => v.contrib = l) ∧
          (ms ≠ [] → ∃ bs, pushedTo u w ⟨codeFmt (bits (r.field el 2) 6 2), bs⟩ ∧
            runIs u r el fun v => v.fired = (r.run el).fired + 1 ∧ v.contrib.length < l.length))) ∧
    (s.arg = .member n m → r.state.live = true → goesTo (exec .collectiveFailure s) fun u =>
      frozenBy s u r.rid .remote ∧ runIs u r el fun v => v.failed = true))

/-- A step after which a region is at hand with a property. -/
def Sys2Proof.Claims.regionAfter (o : Out) (rid : Nat) (p : State → Region → Prop) : Prop :=
  goesTo o fun t => ∃ r, t.region rid = some r ∧ p t r

/-- A ring of a region is bound EMPTY, every slot free at its producer (R194, R200). -/
def Sys2Proof.Claims.boundEmpty (t : State) (rid q : Nat) (c : Cfg) : Prop :=
  ∃ k ∈ t.chan.rings, k.id = ringIdOf rid q ∧ k.slots = [] ∧ k.transit = [] ∧ k.rp = 0 ∧
    k.freeseen = bits (cfgGet c q 3) 19 12 + 1

/-- The life of a kernel (R285 to R290, R292, R304, R307). Loading applies stage 0, binds each of its rings EMPTY and enters
FILLING; a kernel without a good stage 0 stream, or with a stage that its die cannot hold, is KILLED, and while a slot of a
stream's island or a cluster's matcher is not free it waits. A request makes a switch pending while none is, or while the one
that is comes after it in the same tick; once the drain conditions hold, at a frame boundary, the switch brings the target's configuration, binds its
new rings EMPTY and counts in SWITCHES. A DRAINING kernel retires when every node is finished, every job is over and every
publication complete: it holds nothing, and its discarded tokens are counted. A solution in force counts in SOLVES, and a
window's end moves the target by at most a factor of two and starts the counts anew. -/
def Obligations.KernelsLoadSwitchAndRetire : Prop :=
  (∀ (s : State) (rid : Nat) (r : Region), s.arg = .num rid → s.region rid = some r → r.state = .loading →
    s.boostInWay r = false →
    (∀ c ws, (r.streams.headD none).map (loadStream 0 []) = some (.inl (c, ws)) →
      let q : Region := { r with
        config := c, cur := 0, pend := false, target := 0, switches := 0, nodes := [], trig := []
        rate := cfgGet c rateEl 2, solves := 0, short := false, solution := none, targets := []
        stallI := [], starveI := [], winAt := s.tick, winEdges := (0, 0) }
      isFatal (s.ctx r.ctx) .spillFull = false → isFatal (s.ctx r.ctx) .tileAlloc = false →
      regionAfter (exec .kernelLoad s) rid fun t r' =>
        (q.misfit = none → q.laterMisfit c = none →
          (s.stageHeld q [] c = false → r'.config = c ∧ r'.cur = 0 ∧ r'.state.onChip = true ∧
            r'.rate = cfgGet c rateEl 2 ∧ ∀ e ∈ cfgKind c .ring, boundEmpty t rid e c) ∧
          (s.stageHeld q [] c = true → t = s)) ∧
        (q.misfit ≠ none ∨ q.laterMisfit c ≠ none → r'.state = .killed)) ∧
    ((∀ c ws, (r.streams.headD none).map (loadStream 0 []) ≠ some (.inl (c, ws))) →
      regionAfter (exec .kernelLoad s) rid fun _ r' => r'.state = .killed)) ∧
  (∀ (s : State) (rid : Nat) (r : Region) (k : Fin 8) (rest : List (Fin 8)), s.arg = .num rid →
    s.region rid = some r → r.asks = k :: rest →
    regionAfter (exec .stageRequest s) rid fun t r' =>
      t.mem = s.mem ∧ t.chan = s.chan ∧ t.fab = s.fab ∧
      r' = if r.pend ∧ ¬ (r.pendAt.1 = s.tick ∧ 8 < r.pendAt.2) then { r with asks := rest }
        else { r with asks := rest, pend := true, target := k, pendAt := (s.tick, 8) }) ∧
  (∀ (s : State) (rid : Nat) (r : Region) (c : Cfg) (ws : List Wr), s.arg = .num rid → s.region rid = some r →
    r.coming = some (c, ws) → (r.state = .filling ∨ r.state = .steady) → (s.die r.die).boundary = true →
    s.drained r c = true → isFatal (s.ctx r.ctx) .spillFull = false → isFatal (s.ctx r.ctx) .tileAlloc = false →
    isFatal (s.ctx r.ctx) .engine = false →
    regionAfter (exec .stageSwitchApply s) rid fun t r' =>
      ((({ r with config := c } : Region).misfit = none) →
        r'.config = c ∧ r'.cur = r.target ∧ r'.pend = false ∧ r'.switches = r.switches + 1 ∧ r'.state.onChip = true ∧
        ∀ e ∈ cfgKind c .ring, ringKept r.config c e = false → boundEmpty t rid e c) ∧
      ((({ r with config := c } : Region).misfit ≠ none) → r'.state = .frozen ∧ r'.config = r.config ∧ r'.cur = r.cur)) ∧
  (∀ (s : State) (rid : Nat) (r : Region), s.arg = .num rid → s.region rid = some r → r.state = .draining →
    s.allFinished r = true → s.jobsOver rid = true → (∀ p ∈ s.mem.pubs, p.rid ≠ rid) →
    regionAfter (exec .kernelRetire s) rid fun t r' =>
      r'.state = .retired ∧ r'.lost = s.tokensLeft rid ∧ (∀ k ∈ t.chan.rings, k.id.rid ≠ rid) ∧
      (∀ k ∈ t.chan.bars, k.id.rid ≠ rid) ∧ (∀ j ∈ t.eng.jobs, j.rid ≠ rid) ∧
      (∀ g ∈ t.fab.gangs, g.rid = rid → g.fenced = true) ∧ ∀ q ≠ rid, t.region q = s.region q) ∧
  (∀ (s : State) (rid : Nat) (r : Region) (sol : Solution), s.arg = .num rid → s.region rid = some r →
    r.solution = some sol →
    regionAfter (exec .lehrSolutionComplete s) rid fun t r' =>
      r'.solution = none ∧ r'.rate = sol.rate ∧ r'.short = sol.short ∧ r'.solves = r.solves + 1 ∧
      r'.targets.map (·.1) = sol.targets.map (·.1) ∧
      (∀ p ∈ sol.targets, (s.detCtx r.ctx = true → p.1 ∉ r.collIslands) → p ∈ r'.targets) ∧
      t.mem = s.mem ∧ t.fab = s.fab ∧ t.chan = s.chan) ∧
  (∀ (s : State) (rid : Nat) (r : Region), s.arg = .num rid → s.region rid = some r → r.state.live = true →
    r.winAt + 65536 ≤ s.tick →
    let max_ := if r.field rateEl 6 = 0 then r.field rateEl 2 else r.field rateEl 6
    regionAfter (exec .lehrResolveWindow s) rid fun t r' =>
      r'.winAt = s.tick ∧ r'.winEdges = (0, 0) ∧ (∀ u ∈ r'.nodes, u.winFired = 0) ∧
      (∀ k ∈ t.chan.rings, k.id.rid = rid → k.stall = 0 ∧ k.starve = 0 ∧ k.winPush = 0) ∧
      (r.field rateEl 4 = 1 → r'.rate = r.rate ∧ r'.solution = r.solution) ∧
      (r'.rate = r.rate ∨ r'.rate = min (2 * r.rate) max_ ∨ r'.rate = max (r.rate / 2) (r.field rateEl 5)) ∧
      t.mem = s.mem ∧ t.fab = s.fab)

/-- The clocks of islands and dies (R167, R302, R306, R307, R408 to R413, R418, R419). A new fraction takes effect at a frame
boundary once the island is awake at a ratio that admits it; an island whose ratio does not admit it waits. A ratio switch
and a wake-up end at their tick; an idle island takes 0, and 1,200,000 ticks after it began to idle, with nothing held, it is
gated. A change of boost comes at a frame boundary. A refresh window begins at its tick and bank group, and the next is 146 ticks on, or 73
while the layer is above 85 °C. A sample brings each sensor its reading, and one at the trip temperature takes every
allowance of its die to 0. A control window brings the limits written into force and moves allowances and caps. The fifth
failed transfer of a beat fences its bank group. -/
def Obligations.ClocksAndLimitsMove : Prop :=
  (∀ (s : State) (k : IslandKey), s.arg = .island k →
    let i := s.island k
    let m := s.wantM k
    let admits : Prop := m = 0 ∨ (i.gated = false ∧ i.waking = none ∧ i.switch = none ∧ (ratioFor m).toNat ≤ i.ratio.toNat)
    let bound := (s.die k.die).boundary
    (bound = true → m ≠ i.m → admits → (i.m < m → s.riseTurn k = true) →
      goesTo (exec .islandMApply s) fun t => (t.island k).m = m ∧ ∀ j ≠ k, t.island j = s.island j) ∧
    (bound = true → m ≠ i.m → ¬ admits → goesTo (exec .islandMApply s) fun t =>
      (t.island k).m = i.m ∧ (i.gated = true → i.waking = none → (t.island k).waking = some (s.tick + 2400))) ∧
    (bound = true → i.m ≠ 0 → s.busyNodes k = false → s.otherWork k = false →
      goesTo (exec .islandIdle s) fun t =>
        (t.island k).m = 0 ∧ (t.island k).idleAt = none ∧ ∀ j ≠ k, t.island j = s.island j) ∧
    (∀ t0, i.idleAt = some t0 → i.m = 0 → i.gated = false → i.waking = none → s.holdsState k = false →
      t0 + 1200000 ≤ s.tick → goesTo (exec .islandPowerGate s) fun t =>
        (t.island k).gated = true ∧ (t.island k).m = 0 ∧ ∀ j ≠ k, t.island j = s.island j) ∧
    (∀ t0, i.waking = some t0 → t0 ≤ s.tick → goesTo (exec .islandWake s) fun t =>
      (t.island k).gated = false ∧ (t.island k).waking = none ∧ (t.island k).m = i.m ∧
      (t.island k).ratio = ratioFor m) ∧
    (∀ t0 q, i.switch = some (t0, q) → t0 ≤ s.tick → goesTo (exec .ratioSwitchEnd s) fun t =>
      t.island k = { i with switch := none, ratio := q } ∧ t.mem = s.mem ∧ t.kern = s.kern)) ∧
  (∀ (s : State) (d : Fin 4), s.arg = .die d → (s.die d).boundary = true → (s.die d).want ≠ (s.die d).boost →
    goesTo (exec .boostChange s) fun t =>
      (t.die d).boost = (s.die d).want ∧ (∀ e ≠ d, t.die e = s.die e) ∧ t.mem = s.mem ∧ t.fab = s.fab ∧
      t.chan = s.chan) ∧
  (∀ (s : State) (d : Fin 4) (bg : Fin 32), s.arg = .bank d bg →
    let x := s.die d
    (bg = x.wsBg → x.wsTick ≤ s.tick → goesTo (exec .wsRefreshWindowStart s) fun t =>
      (t.die d).wsBusy = x.wsBusy ++ [(bg, x.wsTick + 288)] ∧ (t.die d).wsBg = bg + 1 ∧
      (t.die d).wsTick = x.wsTick + (if (0x5500 : Int) < (s.sensor (0x108 + d.val)).toInt then 73 else 146)) ∧
    (goesTo (exec .wsRefreshWindowEnd s) fun t =>
      ∀ w, w ∈ (t.die d).wsBusy ↔ w ∈ x.wsBusy ∧ ¬ (w.1 = bg ∧ w.2 ≤ s.tick))) ∧
  (∀ (s : State) (d : Fin 4) (vals : List (BitVec 16)), s.arg = .readings d vals → s.tick % 4096 = 0 →
    (s.die d).sampled ≠ s.tick + 1 → smOk 0 none s.clk.sensors = true →
    goesTo (exec .sensorSample s) fun t =>
      (∀ k, k < (dieSensors d).length → t.sensor ((dieSensors d).getD k 0) = vals.getD k 0) ∧
      (∀ id, id ∉ dieSensors d → t.sensor id = s.sensor id) ∧
      (∀ j : IslandKey, j.die = d → (∃ k : IslandKey, k.die = d ∧ s.ttrip ≤ (t.sensor (sensorOf k)).toInt) →
        (t.island j).allow = 0) ∧
      (∀ j : IslandKey, j.die ≠ d → t.island j = s.island j) ∧ t.mem = s.mem ∧ t.kern = s.kern) ∧
  (∀ (s : State), s.tick ≠ 0 → s.tick % 65536 = 0 → s.clk.winAt ≠ s.tick →
    (∀ d : Fin 4, (s.die d).sampled = s.tick + 1) →
    let lim : Int := (s.hub.pwrnext.extractLsb' 16 16).toInt
    let env := s.hub.pwrnext.toNat % 65536
    let p (d : Fin 4) := (s.die d).powSum / 16
    let total := p 0 + p 1 + p 2 + p 3
    goesTo (exec .controlWindow s) fun t =>
      t.hub.pwrcfg = s.hub.pwrnext ∧
      (∀ k : IslandKey,
        let θ := (s.sensor (sensorOf k)).toInt
        let a := (s.island k).allow
        (t.island k).allow =
          if s.tripsNow k.die then a
          else if lim ≤ θ then max 8 (a - 8) else if lim - 5 * 256 ≤ θ then a
          else if a = 0 then 8 else min 64 (a + 8)) ∧
      (∀ d : Fin 4,
        let share := max (env / 8) (if total = 0 then 0 else env * p d / total)
        let cap := (s.die d).pcap
        (t.die d).share = share ∧ (t.die d).powSum = 0 ∧
        (t.die d).pcap = if share < p d then max 1 (cap - 4) else if 100 * p d < 95 * share then min 64 (cap + 4) else cap) ∧
      (105 * 16 * env < 100 * s.clk.pkgSum → ∀ d : Fin 4, (t.die d).want = false)) ∧
  (∀ (s : State) (d : Fin 4) (off : BitVec 34) (n : Fin 6) (c : BitVec 12), s.arg = .beat d off n c → n.val ≠ 0 →
    off.toNat < 0x300000000 →
    goesTo (exec .busBeatRetry s) fun t =>
      (∃ e, t.hub.errors = (s.hub.errors ++ [e]).drop (s.hub.errors.length + 1 - 1024) ∧ e.length = 32 ∧
        fieldN e 2 1 = (if n.val = 5 then 3 else 2) ∧ fieldN e 4 1 = d.val ∧ fieldN e 5 1 = off.toNat / 402653184) ∧
      t.mem = s.mem ∧ t.kern = s.kern ∧
      ∀ (e : Fin 4) (g : Fin 32), g ∈ (t.die e).fenced ↔
        g ∈ (s.die e).fenced ∨ (n.val = 5 ∧ e = d ∧ g.val = off.toNat / 402653184))

/-- A write given to the fabric: it leaves where a ready port reaches its device, and else waits in the hub (R369). -/
def Sys2Proof.Claims.leaves (s t : State) (node : BitVec 20) (a : Word) (b : List Byte) : Prop :=
  if s.linked node then t.hub.outbox = s.hub.outbox ++ [⟨node, a, b⟩] ∧ t.hub.unsent = s.hub.unsent
  else t.hub.outbox = s.hub.outbox ∧ t.hub.unsent = s.hub.unsent ++ [⟨node, a, b⟩]

/-- The queue engine's only candidate is the head record of a queue, with no marker of the queue still waiting. -/
def Sys2Proof.Claims.onlyHead (s : State) (n : BitVec 11) (q : Queue) : Prop :=
  s.queue n = some q ∧ s.waiters = [⟨.queue n, q.prio, q.part, some n, n.toNat⟩] ∧ s.hub.launches = []

/-- Queues, time slices and watchdogs (R323 to R332, R337, R340). A TAIL that counts more records than the queue holds stops
the queue with a PROTECT record; ENABLE and DISABLE act as R323 says; HEAD is written only while the queue is DISABLED, and
each of the 2,048 queues takes its HEAD and TAIL whether or not its descriptor was written. A record that is refused
stops its queue where it stands; a marker lets HEAD go on; a kernel that fits becomes LOADING regions in its launch's
context, and one that fits no die goes on infeasible. A slice that ends while a record of equal or higher level waits
requests a save of a region that is not idempotent. The watchdog requests a save, then kills while the cells stay held, then
fences. The host's tables hold what is written. A vector's pending events leave when the oldest is TIME old. -/
def Obligations.QueuesAndWatchdogsAct : Prop :=
  (∀ (s : State) (n : BitVec 11) (v : BitVec 32), s.arg = .queueVal n v →
    let q := s.queueAt n
    (q.enable = true → (v - q.head).toNat ≤ 2 ^ q.size →
      exec .queueTailWrite s = .next (s.modQueue n fun k => { k with tail := v })) ∧
    (q.enable = true → 2 ^ q.size < (v - q.head).toNat → goesTo (exec .queueTailWrite s) fun t =>
      t.queue n = some { q with tail := v, faulted := true } ∧ t.kern = s.kern ∧ t.fab = s.fab ∧
      ∃ w, t.hub.waiting = s.hub.waiting ++ [(q.ctx, w)] ∧ w.tick = s.tick ∧ w.recd.length = 64 ∧
        fieldN w.recd 0 2 = 0x300 ∧ fieldN w.recd 2 1 = 7 ∧ fieldN w.recd 32 4 = n.toNat) ∧
    (q.enable = false → exec .queueTailWrite s = .next (s.modQueue n fun k => { k with tail := v })) ∧
    (goesTo (exec .queueHeadWrite s) fun t =>
      t.queue n = some (if q.enable then q else { q with head := v }) ∧ (∀ m ≠ n, t.queue m = s.queue m) ∧
      t.mem = s.mem ∧ t.kern = s.kern)) ∧
  (∀ (s : State) (n : BitVec 11) (q : Queue), s.arg = .queue n → s.queue n = some q →
    (q.enable = false → q.bad = false → 1 ≤ q.size → q.size ≤ 16 → q.prio ≤ 47 →
      (s.hub.queues.filter fun k => k.ctx == q.ctx && k.enable).length < (s.ctx q.ctx).maxq →
      goesTo (exec .queueEnable s) fun t =>
        t.queue n = some { q with enable := true, faulted := false } ∧ (∀ m ≠ n, t.queue m = s.queue m) ∧
        t.mem = s.mem ∧ t.kern = s.kern) ∧
    (q.enable = true ∨ q.bad = true → exec .queueEnable s = .next s) ∧
    (goesTo (exec .queueDisable s) fun t =>
      t.queue n = some { q with enable := false, faulted := false } ∧ (∀ m ≠ n, t.queue m = s.queue m) ∧
      t.mem = s.mem ∧ t.kern = s.kern)) ∧
  (∀ (s : State) (n : BitVec 11) (q : Queue), onlyHead s n q →
    let recd := s.headRecord q
    let l : Launch := ⟨s.hub.nextLaunch, some n, q.head, none, recd, q.ctx, q.prio, true, false⟩
    s.checkHeld q.ctx recd = false →
    (∀ extra, s.checkRecord q.ctx recd = .refused extra → goesTo (exec .queueRecordTake s) fun t =>
      t.queue n = some { q with faulted := true } ∧ t.kern = s.kern ∧ t.fab = s.fab) ∧
    (s.checkRecord q.ctx recd = .marker → goesTo (exec .queueRecordTake s) fun t =>
      t.queue n = some { q with head := q.head + 1 } ∧ t.kern = s.kern ∧
      t.hub.launches = [{ l with done := true }]) ∧
    (∀ streams hs, s.checkRecord q.ctx recd = .kernel streams hs → s.copiesOf q.ctx recd ≠ 0 →
      ((∃ d, s.feasible l streams hs d = true) → goesTo (exec .queueRecordTake s) fun t =>
        (∀ pls, s.placeAll [] l streams hs = some pls →
          t.queue n = some { q with head := q.head + 1 } ∧ t.hub.launches = [l] ∧
          (t.kern.map (·.rid)) = s.kern.map (·.rid) ++ (List.range pls.length).map (s.hub.nextRid + ·) ∧
          ∀ r ∈ t.kern.drop s.kern.length, r.state = .loading ∧ r.ctx = q.ctx ∧ r.recd = recd ∧ r.handles = hs ∧
            r.streams = streams ∧ r.devs = s.readDevs q.ctx recd ∧ r.queue = some n ∧ r.die ∈ pls.map (·.1)) ∧
        (s.placeAll [] l streams hs = none → t.queue n = some q)) ∧
      ((∀ d, s.feasible l streams hs d = false) → goesTo (exec .queueRecordTake s) fun t =>
        t.queue n = some { q with head := q.head + 1 } ∧ t.kern = s.kern ∧
        t.hub.launches = [{ l with done := true }]))) ∧
  (∀ (s : State) (rid : Nat) (r : Region), s.arg = .num rid → s.region rid = some r →
    let z := s.modRegion rid fun k => { k with slice := 0 }
    (r.state.live = true → r.quant ≤ r.slice →
      ((∀ w ∈ z.waiters, w.prio < r.prio) → exec .quantExpiry s = .next z) ∧
      ((∃ w ∈ z.waiters, r.prio ≤ w.prio) → r.leaving = false → r.idem = false →
        regionAfter (exec .quantExpiry s) rid fun t r' =>
          r' = { r with slice := 0, saving := true } ∧ t.mem = s.mem ∧ t.fab = s.fab)) ∧
    (∀ t1 t2 t3, s.dogSteps r = some (t1, t2, t3) →
      (r.state.onChip = true → r.dogAsked = false → t1 ≤ r.dog →
        regionAfter (exec .watchdogSaveRequest s) rid fun t r' =>
          r' = { r with saving := true, dogSave := true, dogAsked := true } ∧ t.mem = s.mem ∧ t.fab = s.fab) ∧
      (r.state.onChip = true → t2 ≤ r.dog → regionAfter (exec .watchdogKill s) rid fun t r' =>
        r'.state = .killed ∧ (∀ k ∈ t.chan.rings, k.id.rid ≠ rid) ∧
        ∀ g ∈ s.fab.gangs, g.rid = rid → g.seq.gaffer = false →
          ∃ h ∈ t.fab.gangs, h.seq = g.seq ∧ h.cells = g.cells ∧ h.rid = rid ∧ h.strands = []) ∧
      (r.state = .killed → t3 ≤ r.dog → regionAfter (exec .watchdogFence s) rid fun t r' =>
        r' = r ∧ t.fab.gangs.length = s.fab.gangs.length ∧ ∀ g ∈ t.fab.gangs, g.rid = rid → g.fenced = true))) ∧
  (∀ (s : State), (∀ n b, s.arg = .table (.queueDesc n b) → goesTo (exec .hostTableWrite s) fun t =>
      ∃ q, t.queue n = some q ∧ q.base.toNat = fieldN b 0 8 ∧ q.size = fieldN b 8 1 ∧ q.prio = fieldN b 9 1 ∧
        q.ctx.toNat = fieldN b 10 2 % 4096 ∧ q.part.toNat = fieldN b 12 1 % 32 ∧ q.t1 = fieldN b 24 2 ∧
        q.t2 = fieldN b 26 2 ∧ q.t3 = fieldN b 28 2 ∧ q.rto = fieldN b 30 2 ∧
        (let k := s.queueAt n
         q.enable = k.enable ∧ q.head = k.head ∧ q.tail = k.tail)) ∧
    (∀ c b, s.arg = .table (.ctxDesc c b) →
      ((s.ctx c).state = .closed → goesTo (exec .hostTableWrite s) fun t =>
        let d := t.ctx c
        d.state = .closed ∧ d.ptroot.toNat = fieldN b 0 8 ∧ d.fqbase.toNat = fieldN b 8 8 ∧ d.fqsize = fieldN b 16 1 ∧
        d.fatal.toNat = fieldN b 24 4 ∧ d.maxisl = fieldN b 28 2 ∧ d.maxq = fieldN b 30 2 ∧
        d.carea.toNat = fieldN b 32 8 ∧ d.casize.toNat = fieldN b 40 8) ∧
      ((s.ctx c).state ≠ .closed → exec .hostTableWrite s = .next s)) ∧
    (∀ c h, s.arg = .table (.fqHead c h) → goesTo (exec .hostTableWrite s) fun t =>
      t.ctx c = { s.ctx c with fqhead := h }) ∧
    (∀ k d base c, s.arg = .table (.window k d base c) → goesTo (exec .hostTableWrite s) fun t =>
      t.hub.windows.find? (·.num == k) = some ⟨k, d, base, c⟩ ∧
      ∀ m ≠ k, t.hub.windows.find? (·.num == m) = s.hub.windows.find? (·.num == m)) ∧
    (∀ p n b, s.arg = .table (.vector p n b) → (s.vector p n).pend = 0 → goesTo (exec .hostTableWrite s) fun t =>
      let v := t.vector p n
      v.node = b.extractLsb' 100 20 ∧ v.addr = b.extractLsb' 44 56 ∧ v.cnt = b.extractLsb' 36 8 ∧
      v.time = b.extractLsb' 20 16 ∧ v.pend = 0 ∧ v.en = b.getLsbD 0 ∧ t.hub.outbox = s.hub.outbox)) ∧
  (∀ (s : State) (p : BitVec 5) (n : Byte), s.arg = .vector p n →
    let v := s.vector p n
    v.en = true → v.pend ≠ 0 → v.time ≠ 0 → v.oldest + v.time.toNat * 1200 ≤ s.tick →
    goesTo (exec .interruptTimeExpiry s) fun t =>
      t.vector p n = { v with pend := 0 } ∧
      ∃ b, leaves s t v.node (v.addr.setWidth 64) b ∧ b.length = 16 ∧ fieldN b 0 2 = n.toNat ∧
        fieldN b 2 2 = v.pend.toNat ∧ fieldN b 8 6 = v.oldest % 2 ^ 48)

/-- No gang, ring, barrier or job of a region stands on the chip. -/
def Sys2Proof.Claims.nothingOf (t : State) (rid : Nat) : Prop :=
  (∀ g ∈ t.fab.gangs, g.rid = rid → g.fenced = true) ∧ (∀ k ∈ t.chan.rings, k.id.rid ≠ rid) ∧
    (∀ k ∈ t.chan.bars, k.id.rid ≠ rid) ∧ ∀ j ∈ t.eng.jobs, j.rid ≠ rid

/-- What a write of the hub through a context's tables comes to (R343, R346, R361): it is made where every byte of it
translates, and then each byte stands at its home and no other changes but the leaves' marks; else nothing is written. -/
def Sys2Proof.Claims.HubWrites : Prop :=
  ∀ (s : State) (c : BitVec 12) (va : Nat) (bs : List Byte) (h : Nat → Nat), s.mem.wf = true →
    (((∀ k < bs.length, s.hubHome c (va + k) 2 = some (h k)) → (∀ i < bs.length, ∀ j < bs.length, h i = h j → i = j) →
      ∃ t, s.hubWrite c va bs = some t ∧ storesMarking s t c va h bs.length (fun k => bs.getD k 0) ∧ t.kern = s.kern ∧
        t.fab = s.fab ∧ t.chan = s.chan) ∧
    ((∃ k < bs.length, s.hubHome c (va + k) 2 = none) → s.hubWrite c va bs = none))

/-- Contexts, partitions and a region's save, kill and restore (R54, R188, R329, R337, R338, R341, R343 to R348). A context
opens from a good descriptor once the part is ready, and its tables are taken as they stand; closing it stops its queues and
kills its regions; when nothing of it is left its pages in the package are wiped and it is CLOSED. A partition reset disables
its queues, drops their records, and takes its contexts to TEARDOWN. A fault record of an earlier tick that waited is written
when there is room. RESUME returns a frozen region to the state it had; KILL leaves nothing of it, once the blocks that it
has issued are over. A save is begun, and when all that it waits for is over the region is SAVED with its parts in its area,
whose sections are written before its header; a restore puts a saved region whose area stands as it was written back in the
state it had, at its new clusters. -/
def Obligations.ContextsAndRegionsMove : Prop :=
  HubWrites ∧
  (∀ (s : State) (c : BitVec 12), s.arg = .ctx c →
    let d := s.ctx c
    (d.state = .closed → d.bad = false → (d.maint = true ∨ d.priv = true → d.part = 0) → s.hub.boot.status = 3 →
      (s.hub.boot.life = .deployed ∨ s.hub.boot.life = .diagnostic) → goesTo (exec .contextOpen s) fun t =>
        t.ctx c = { d with state := .open_, hand := 0 } ∧ (∀ e ≠ c, t.ctx e = s.ctx e) ∧
        (c, 0, 2 ^ 56, s.mem.nextSeq) ∈ t.hub.pages.since ∧ t.kern = s.kern ∧ t.mem = s.mem) ∧
    (d.state = .closed → (d.bad = true ∨ ((d.maint = true ∨ d.priv = true) ∧ d.part ≠ 0) ∨ s.hub.boot.status ≠ 3 ∨
        (s.hub.boot.life ≠ .deployed ∧ s.hub.boot.life ≠ .diagnostic)) →
      exec .contextOpen s = .next s) ∧
    (d.state = .open_ → (s.kern.map (·.rid)).Nodup → goesTo (exec .contextClose s) fun t =>
      (t.ctx c).state = .teardown ∧ (∀ e ≠ c, (t.ctx e).state = (s.ctx e).state) ∧
      (∀ q ∈ t.hub.queues, q.ctx = c → q.enable = false) ∧
      ∀ r ∈ t.kern, r.ctx = c → r.state = .killed ∨ r.state = .retired) ∧
    (d.state = .teardown → (∀ x ∈ s.hub.xsts, x.ctx ≠ c) → (∀ p ∈ s.mem.pubs, p.ctx ≠ c) →
      (∀ r ∈ s.kern, r.ctx = c → r.state = .killed ∨ r.state = .retired) → s.mem.wf = true →
      let wiped (a : Nat) : Prop :=
        ∃ p ∈ s.leaves c, isFabHome p.frame.1 = false ∧ p.frame.1 ≤ a ∧ a < p.frame.1 + p.frame.2
      goesTo (exec .contextTeardownDone s) fun t =>
        t.ctx c = { d with state := .closed } ∧ (∀ e ∈ t.hub.pages.tlb, e.ctx ≠ c) ∧ t.kern = s.kern ∧
        (∀ a, wiped a → byteAt t a = 0) ∧ ∀ a, ¬ wiped a → byteAt t a = byteAt s a) ∧
    (∀ (rid : Nat) (r : Region) (w : FaultWait) (h : Nat → Nat), s.nextFault c = some (some rid, w) →
      s.region rid = some r → w.recd.length = 64 → s.mem.wf = true → Function.Injective h →
      (d.fqtail - d.fqhead).toNat ≠ 2 ^ d.fqsize →
      let va := d.fqbase.toNat + 64 * (d.fqtail.toNat % 2 ^ d.fqsize)
      (∀ k < 64, s.hubHome c (va + k) 2 = some (h k)) →
      (w.tick < s.tick → regionAfter (exec .faultRecordWrite s) rid fun t r' =>
        r' = { r with waiting := r.waiting.erase w } ∧ (t.ctx c).fqtail = d.fqtail + 1 ∧
        storesMarking s t c va h 64 fun k => w.recd.getD k 0) ∧
      (s.tick ≤ w.tick → exec .faultRecordWrite s = .next s))) ∧
  (∀ (s : State) (p : BitVec 5), s.arg = .part p → (s.kern.map (·.rid)).Nodup →
    goesTo (exec .partitionReset s) fun t =>
      (∀ n q, s.queue n = some q → q.part = p → t.queue n = some { q with enable := false, faulted := false, head := q.tail }) ∧
      (∀ n q, s.queue n = some q → q.part ≠ p → t.queue n = some q) ∧
      (∀ c, (s.ctx c).part = p → (s.ctx c).state = .open_ → (t.ctx c).state = .teardown ∧
        ∀ r ∈ t.kern, r.ctx = c → r.state = .killed ∨ r.state = .retired) ∧
      ∀ g ∈ t.fab.gangs, ∀ r, t.region g.rid = some r → r.state = .killed → (t.ctx r.ctx).part ≠ p) ∧
  (∀ (s : State) (rid : Nat) (r : Region), s.arg = .num rid → s.region rid = some r →
    (r.state = .frozen → r.waiting = [] →
      (∀ el ∈ cfgKind r.config .gang, ∃ g ∈ s.fab.gangs, g.rid = rid ∧ g.el = el ∧ g.seq.gaffer = false) →
      regionAfter (exec .regionResume s) rid fun t r' =>
        r'.firstFault = none ∧ r'.config = r.config ∧ t.mem = s.mem ∧ t.fab = s.fab ∧ t.chan = s.chan ∧
        (r'.state = r.before ∨ (r'.state = .draining ∧ (r.before = .filling ∨ r.before = .steady)))) ∧
    (r.state ≠ .killed → r.state ≠ .retired →
      ((∀ x ∈ s.x :: s.fab.flights, x.active = true → x.rid ≠ rid) → regionAfter (exec .regionKill s) rid fun t r' =>
        r'.state = .killed ∧ nothingOf t rid ∧ ∀ q ≠ rid, t.region q = s.region q) ∧
      ((∃ x ∈ s.x :: s.fab.flights, x.active = true ∧ x.rid = rid) → regionAfter (exec .regionKill s) rid fun t r' =>
        r' = { r with dying := some (some ((r.firstFault.map (·.num)).getD 0x42)) } ∧ t.fab = s.fab ∧ t.mem = s.mem)) ∧
    (r.state.onChip = true → r.saving = false →
      exec .regionSave s = .next (s.modRegion rid fun k => { k with saving := true })) ∧
    (∀ a t1 t2, r.state.onChip = true → r.saving = true → s.saveReady r = true →
      let head := s.areaHeader r
      let body := s.areaSections r
      s.areaPlace r.ctx (4096 + body.length) = some a →
      s.hubWrite r.ctx (a + 4096) body = some t1 → t1.hubWrite r.ctx a head = some t2 →
      regionAfter (exec .regionSave s) rid fun t r' =>
        r'.state = .saved ∧ r'.before = (if r.state.live then r.state else r.before) ∧ r'.saving = false ∧
        nothingOf t rid ∧ (∀ b, byteAt t b = byteAt t2 b) ∧
        ∃ ar, r'.area = some ar ∧ ar.at_ = a ∧ ar.image = head ++ body ∧
          ar.gangs.map (·.seq) = (s.fab.gangs.filter (·.rid == rid)).map (·.seq) ∧
          ar.gangs.map (fun g => g.strands.map (·.regs)) =
            (s.fab.gangs.filter (·.rid == rid)).map (fun g => g.strands.map (·.regs)) ∧
          ar.rings.map (·.slots) = (s.chan.rings.filter (·.id.rid == rid)).map (·.slots) ∧
          ar.bars = s.chan.bars.filter (·.id.rid == rid) ∧ ar.jobs = s.eng.jobs.filter (·.rid == rid) ∧
          ar.nodes = r.nodes) ∧
    (r.state.onChip = true → r.saving = true → s.saveReady r = false → exec .regionSave s = .next s) ∧
    (∀ t0, r.service = some t0 → r.state.live = true → r.saving = false →
      t0 + (if (s.ctx r.ctx).fsave = 0 then 500 else (s.ctx r.ctx).fsave) * 1200 ≤ s.tick →
      exec .pageServiceSave s = .next (s.modRegion rid fun k => { k with saving := true })) ∧
    (∀ ar, r.area = some ar → r.state = .saved → r.restore = true → (s.die r.die).boundary = true →
      s.boostInWay r = false → s.hubHeld r.ctx ar.at_ ar.image.length 1 = false →
      let same : Prop := s.hubRead r.ctx ar.at_ ar.image.length = ar.image
      let turnedBack : Prop :=
        regionAfter (exec .regionRestore s) rid fun t r' => r' = { r with restore := false } ∧ t.mem = s.mem ∧ t.fab = s.fab
      (¬ same → turnedBack) ∧
      (same → s.place [] (s.ctx r.ctx).part r.die (kernelNodes r.streams) = none → turnedBack) ∧
      (same → ∀ cm im u, s.place [] (s.ctx r.ctx).part r.die (kernelNodes r.streams) = some (cm, im) →
        s.islandsAllowed [] r.ctx im.length = true →
        let q : Region := { r with
          cmap := cm, imap := im, state := r.before, area := none, restore := false, service := none
          firstFault := none, faultAt := (0, 0), slice := 0 }
        s.rebuild q r ar = some u →
        (∀ el ∈ cfgKind r.config .gang, ∃ g ∈ u.fab.gangs, g.rid = rid ∧ g.el = el ∧ g.seq.gaffer = false) →
        regionAfter (exec .regionRestore s) rid fun _ r' =>
          r'.cmap = cm ∧ r'.imap = im ∧ r'.area = none ∧ r'.restore = false ∧ r'.config = r.config ∧
          r'.winAt = s.tick ∧
          (r'.state = r.before ∨ (r'.state = .draining ∧ (r.before = .filling ∨ r.before = .steady))))))

/-- The answer to a page command: its completion word, written to the host node of the context's partition (R364). -/
def Sys2Proof.Claims.answers (s t : State) (p : PageCmd) (status count : Nat) : Prop :=
  leaves s t (Config.hostNode (s.ctx (p.ctx.setWidth 12)).part) p.done (leBytes 8 (1 + status * 256 + count * 2 ^ 32))

/-- The page-command queue holding commands. -/
def Sys2Proof.Claims.withCmds (s : State) (l : List PageCmd) : State :=
  { s with hub := { s.hub with pages := { s.hub.pages with cmds := l } } }

/-- A page command whose record is sound, its COUNT and its address aside (R364). -/
def Sys2Proof.Claims.soundCmd (p : PageCmd) : Prop :=
  p.rsv = 0 ∧ p.size.toNat ≤ 2 ∧ p.ctx.toNat < 4096 ∧ p.done.toNat % 8 = 0

/-- The page unit, the host's writes and the writes of special registers at a commit (R80, R98, R159, R166, R235, R357, R359,
R361, R364 to R368, R386, R392, R409, R435). A walk among its die's 512 that ends at a leaf that lets accesses pass marks it
and its translation is held. INVAL, when R365 lets it complete, takes the tables of its range as they stand and leaves no
older translation of it; while it may not complete it stays at the head of the queue and every later command behind it; a
refused record, one of another OP among them, does nothing but answer. EVICT makes a page that may go EVICTING, tells the
context, and answers how many it chose. The host's bytes stand in memory and a read of the host is answered; an access to a
byte that does not exist stops the machine (the model's choice, the log's entry on the home of an address past the
package's capacity). Each special register takes its writable fields. -/
def Obligations.PagesHostAndRegistersAct : Prop :=
  (∀ (s : State) (n : Nat) (w : Walk), s.arg = .num n → s.hub.pages.walks.find? (·.num == n) = some w →
    s.walking w = true → n < s.hub.pages.nextWalk → s.mem.wf = true →
    let res := s.lookup w.ctx w.va.toNat
    let passes : Prop := res.state = 1 ∨ res.state = 3
    goesTo (exec .pageWalkComplete s) fun t =>
      (∀ k ∈ t.hub.pages.walks, k.num ≠ n) ∧
      (passes → ∃ e ∈ t.hub.pages.tlb, e.die = w.die ∧ e.ctx = w.ctx ∧
        e.va.toNat = w.va.toNat / 2 ^ shiftOf e.size * 2 ^ shiftOf e.size) ∧
      ((∀ r ∈ s.kern, r.ctx ≠ w.ctx) →
        (passes → t.ptEntry res.entry =
          s.ptEntry res.entry ||| (if w.write = true ∧ leafGrants res.leaf 2 = true then 0xc0 else 0x80)) ∧
        (¬ passes → t.mem = s.mem ∧ t.hub.pages.tlb = s.hub.pages.tlb))) ∧
  (∀ (s : State) (p : PageCmd), s.arg = .page p → s.hub.pages.cmds = [] → s.hub.held = [] →
    let c := p.ctx.setWidth 12
    let lo := p.va.toNat
    let n := 2 ^ (16 + 10 * p.size.toNat)
    let taken (t : State) (lo n : Nat) : Prop :=
      (∀ e ∈ t.hub.pages.tlb, e.ctx = c → lo + n ≤ e.va.toNat ∨ e.va.toNat + 2 ^ shiftOf e.size ≤ lo) ∧
      (c, lo, n, s.mem.nextSeq) ∈ t.hub.pages.since ∧ t.hub.pages.cmds = [] ∧ answers s t p 0 0 ∧
      t.mem.cells = s.mem.cells ∧ t.fab = s.fab
    let refused (o : Out) : Prop := goesTo o fun t =>
      answers s t p 0x40 0 ∧ t.mem = s.mem ∧ t.hub.pages = s.hub.pages ∧ t.kern = s.kern
    (p.op.toNat = 1 →
      (soundCmd p → p.count = 0 → lo % n = 0 → lo < 2 ^ 56 →
        (s.invalReady c lo n = true → goesTo (exec .invalPage s) fun t => taken t lo n) ∧
        (s.invalReady c lo n = false → exec .invalPage s = .next (withCmds s [p]))) ∧
      (¬ soundCmd p ∨ p.count ≠ 0 ∨ lo % n ≠ 0 ∨ 2 ^ 56 ≤ lo → refused (exec .invalPage s))) ∧
    (p.op.toNat ≠ 1 → p.op.toNat ≠ 2 → p.op.toNat ≠ 3 → refused (exec .invalPage s)) ∧
    (p.op.toNat = 2 →
      (soundCmd p → p.count = 0 →
        (s.invalReady c 0 (2 ^ 56) = true → goesTo (exec .invalContext s) fun t => taken t 0 (2 ^ 56)) ∧
        (s.invalReady c 0 (2 ^ 56) = false → exec .invalContext s = .next (withCmds s [p]))) ∧
      (¬ soundCmd p ∨ p.count ≠ 0 → refused (exec .invalContext s))) ∧
    (p.op.toNat = 3 →
      (∀ q, soundCmd p → 1 ≤ p.count.toNat → p.count.toNat ≤ 4096 → p.va = 0 → s.mem.wf = true →
        (s.pages c).filter (s.evictable c) = [q] → s.lowest c = none → s.inExtent c q = false →
        goesTo (exec .evict s) fun t =>
          (t.ptEntry q.entry).toNat / 2 ^ 61 = 4 ∧ answers s t p 0 1 ∧
          ∃ w, t.hub.waiting = s.hub.waiting ++ [(c, w)] ∧ w.tick = s.tick ∧ w.recd.length = 64 ∧
            fieldN w.recd 0 2 = 0x303 ∧ fieldN w.recd 8 8 = q.va % 2 ^ 64) ∧
      (¬ soundCmd p ∨ p.count = 0 ∨ 4096 < p.count.toNat ∨ p.va ≠ 0 → refused (exec .evict s)))) ∧
  (∀ (s : State) (p q : PageCmd) (l : List PageCmd), s.hub.pages.cmds = q :: l →
    (s.arg = .page p → (withCmds s (q :: l ++ [p])).pageHead q = none →
      (p.op.toNat ≠ 2 → p.op.toNat ≠ 3 → exec .invalPage s = .next (withCmds s (q :: l ++ [p]))) ∧
      (p.op.toNat = 2 → exec .invalContext s = .next (withCmds s (q :: l ++ [p]))) ∧
      (p.op.toNat = 3 → exec .evict s = .next (withCmds s (q :: l ++ [p])))) ∧
    (s.arg = .none → s.pageHead q = none → exec .invalPage s = .next s)) ∧
  (∀ (s : State) (node : BitVec 20) (a : BitVec 52) (n : Nat), s.arg = .hostRead node false a n →
    (a.toNat + n ≤ hbmBytes → goesTo (exec .hostMemoryWrite s) fun t =>
      leaves s t node (a.setWidth 64) ((List.range n).map fun k => s.mem.newest .outside (a.toNat + k)) ∧
      t.mem = s.mem ∧ t.kern = s.kern) ∧
    (n ≠ 0 → hbmBytes < a.toNat + n → exec .hostMemoryWrite s = .fault .noSuchAddress)) ∧
  (∀ (s : State) (w : HostWrite), s.arg = .host w → s.mem.wf = true →
    (w.weight = false → w.bytes ≠ [] → hbmBytes < w.addr.toNat + w.bytes.length →
      exec .hostMemoryWrite s = .fault .noSuchAddress) ∧
    (w.weight = false → w.addr.toNat + w.bytes.length ≤ hbmBytes → goesTo (exec .hostMemoryWrite s) fun t =>
      storesOnly s t (fun k => w.addr.toNat + k) w.bytes.length (fun k => w.bytes.getD k 0) ∧ t.kern = s.kern ∧
      t.fab = s.fab) ∧
    (∀ (d : Fin 4) (off : Nat), w.weight = true → w.addr.toNat = d.val * 2 ^ 50 + off →
      (off + w.bytes.length ≤ 0x300000000 → goesTo (exec .hostMemoryWrite s) fun t =>
        storesOnly s t (fun k => homeWeight d (off + k)) w.bytes.length (fun k => w.bytes.getD k 0) ∧ t.kern = s.kern ∧
        t.fab = s.fab) ∧
      (off < 2 ^ 34 → 0x300000000 < off + w.bytes.length → w.bytes ≠ [] →
        exec .hostMemoryWrite s = .fault .noSuchAddress))) ∧
  (∀ (s : State) (t : StrandId) (num : BitVec 12) (v : Word), s.arg = .srWrite t num v → s.x.active = true →
    s.x.who = t → .swr num v ∈ s.x.fx →
    let n := num.toNat
    let isl := t.seq.isl
    (n < 0x100 → n ≠ 0x012 → exec .specialRegisterWrite s =
      .next (s.setX { s.x with r := s.x.r.setSr s.x.nlanes n v })) ∧
    (∀ g : Fin 32, n = 0x420 + g.val → goesTo (exec .specialRegisterWrite s) fun u =>
      let e := (s.die isl.die).exslots[g]
      (u.die isl.die).exslots[g] = { e with
        valid := v.getLsbD 40, pin := v.getLsbD 39, prob := v.extractLsb' 24 8, cost := v.extractLsb' 16 8
        expert := v.setWidth 16, wrote := s.tick + 1 } ∧
      u.x = s.x ∧ u.mem = s.mem) ∧
    (n = 0x012 → goesTo (exec .srseedWrite s) fun u =>
      u.x.r = { s.x.r with gens := (List.range s.x.nlanes).map fun i =>
        let g : Lane := v.setWidth 32 ^^^ (0x9e3779b9 * BitVec.ofNat 32 (i + 1))
        if g = 0 then 1 else g } ∧
      u.mem = s.mem ∧ u.eng = s.eng) ∧
    (∀ k : Fin 4, n = 0x340 + k.val → goesTo (exec .msflgClear s) fun u =>
      let i : IslandId := ⟨isl.die, isl.cluster, k⟩
      u.mat i = { s.mat i with msflg := (s.mat i).msflg &&& ~~~(v.setWidth 5) } ∧
      (∀ j ≠ i, u.mat j = s.mat j) ∧ u.x = s.x ∧ u.mem = s.mem) ∧
    (n = 0x880 → goesTo (exec .reccfgWrite s) fun u =>
      u.dbg.horizon = v.extractLsb' 48 12 ∧ u.dbg.sample = v.extractLsb' 32 16 ∧
      (∀ k < 14, u.dbg.caten.getLsbD k = (v.getLsbD k || k == 1 || k == 3 || k == 13)) ∧ u.x = s.x ∧ u.mem = s.mem) ∧
    (n = 0x888 → goesTo (exec .pwrcfgWrite s) fun u =>
      u.hub.pwrcfg = s.hub.pwrcfg ∧
      u.hub.pwrnext.toNat % 65536 = max 1200 (min 2400 (v.toNat % 65536)) ∧
      u.hub.pwrnext.extractLsb' 16 33 = v.extractLsb' 16 33 ∧ u.x = s.x ∧ u.mem = s.mem))

/-- The package's state wiped: every memory, table and clock as after reset (R420). -/
def Sys2Proof.Claims.wipedState (s t : State) : Prop :=
  t.mem = State.reset.mem ∧ t.fab = State.reset.fab ∧ t.chan = State.reset.chan ∧ t.eng = State.reset.eng ∧ t.kern = [] ∧
    t.hub.ctxs = [] ∧ t.hub.queues = [] ∧ t.hub.launches = [] ∧ t.hub.pages = State.reset.hub.pages ∧
    t.clk.islands = [] ∧ t.dbg.recorders = [] ∧ t.tick = s.tick ∧ t.hub.outbox = s.hub.outbox ∧
    ∀ d, (t.die d).fenced = (s.die d).fenced ∧ (t.die d).wsTick = s.tick + 146

/-- Ports, resets, the capsule, the debug stop, the life cycle and the boot (R369, R393, R395, R399, R400, R419 to R424).
A port trains to UP with eight lanes and to HALF with four to seven, and what waited for a way out leaves; its ninth bad
receipt in turn fences it. A reset wipes
the package, a FROZEN capsule holding a warm one back and a SEALED one being spared. Past its horizon a recorder stops, and
once all have, the capsule is SEALED. An armed stop gates every clock once the faults of its tick are recorded, and the
release begins a frame on each die and lets what is timed go on where it stood. Each
command of the life cycle moves its own state and wipes; the loader leaves the part ready for contexts only with an image
that it accepts. -/
def Obligations.PortsResetsAndLifeCycleAct : Prop :=
  (∀ (s : State) (p : Fin 24), let st := s.hub.ports[p].state
    let becomes (t : State) (x : PortState) : Prop :=
      t.hub.ports = s.hub.ports.set p ⟨x, 0⟩ ∧ t.mem = s.mem ∧ t.kern = s.kern ∧ t.hub.remote = s.hub.remote ∧
      t.hub.outbox = s.hub.outbox ++ s.hub.unsent.filter (fun w => t.linked w.node) ∧
      t.hub.unsent = s.hub.unsent.filter (fun w => !t.linked w.node)
    (s.arg = .port p → st = .down → goesTo (exec .portEnable s) (becomes · .training)) ∧
    (s.arg = .port p → st = .fenced → goesTo (exec .portReset s) (becomes · .training)) ∧
    (∀ n : Fin 9, s.arg = .portLanes p n → st = .training → goesTo (exec .portTrainingDone s)
      (becomes · (if n.val = 8 then .up else if 4 ≤ n.val then .half else .down))) ∧
    (st = .up ∨ st = .half →
      (s.arg = .flit p true → exec .flitReceive s =
        .next { s with hub := { s.hub with ports := s.hub.ports.set p ⟨st, 0⟩ } }) ∧
      (s.arg = .flit p false → s.hub.ports[p].retries < 8 → goesTo (exec .flitReceive s) fun t =>
        t.hub.ports = s.hub.ports.set p ⟨st, s.hub.ports[p].retries + 1⟩ ∧ t.mem = s.mem ∧ t.kern = s.kern) ∧
      (s.arg = .flit p false → 8 ≤ s.hub.ports[p].retries → goesTo (exec .flitReceive s) fun t =>
        t.hub.ports = s.hub.ports.set p ⟨.fenced, 0⟩))) ∧
  (∀ (s : State),
    (goesTo (exec .coldReset s) fun t =>
      t.mem = State.reset.mem ∧ t.fab = State.reset.fab ∧ t.chan = State.reset.chan ∧ t.eng = State.reset.eng ∧
      t.kern = [] ∧ t.clk = State.reset.clk ∧ t.dbg = State.reset.dbg ∧ t.tick = 0 ∧
      t.hub = { State.reset.hub with boot := { s.hub.boot with status := 0 } }) ∧
    (s.dbg.capsule.state = .frozen → exec .warmReset s = .next { s with dbg := { s.dbg with resetHeld := true } }) ∧
    (s.dbg.capsule.state ≠ .frozen → goesTo (exec .warmReset s) fun t =>
      wipedState s t ∧ t.hub.boot = { s.hub.boot with status := 0 } ∧ t.dbg.resetHeld = false ∧
      t.dbg.capsule = if s.dbg.capsule.state = .sealed_ then s.dbg.capsule else State.reset.dbg.capsule)) ∧
  (∀ (s : State), let c := s.dbg.capsule
    (∀ u, s.arg = .unit u → c.state = .frozen → c.t + c.h < s.tick → goesTo (exec .recorderHorizonStop s) fun t =>
      (∀ r ∈ t.dbg.recorders, r.unit = u → r.stopped = true) ∧
      (∀ r ∈ s.dbg.recorders, r.unit = u → r.stopped = false → ∃ q ∈ t.dbg.recorders, q.unit = u ∧
        q.recs = r.recs.filter fun e => decide (e.toNat % 2 ^ 48 ≤ c.t + c.h)) ∧
      (∀ r ∈ s.dbg.recorders, r.unit ≠ u → r ∈ t.dbg.recorders) ∧ t.dbg.capsule = c ∧ t.mem = s.mem) ∧
    (c.state = .frozen → c.t + max c.h 900 < s.tick → (∀ r ∈ s.dbg.recorders, r.stopped = true) →
      s.dbg.resetHeld = false → goesTo (exec .capsuleSeal s) fun t =>
        t.dbg.capsule.state = .sealed_ ∧ t.dbg.capsule.cause = c.cause ∧ t.dbg.capsule.t = c.t ∧ t.dbg.recorders = [] ∧
        (s.hub.boot.life = .manufacture → t.dbg.capsule.signature = []) ∧
        (∀ x ∈ t.dbg.capsule.sections, x.recs.Pairwise fun a b => a.toNat % 2 ^ 48 ≤ b.toNat % 2 ^ 48) ∧
        t.mem = s.mem ∧ t.kern = s.kern)) ∧
  (∀ (s : State),
    (∀ a, s.dbg.stop = some a → s.dbg.stopped = false → a ≤ s.tick →
      (goesTo (exec .debugStop s) fun t =>
        t.dbg.stopped = true ∧ t.dbg.stop = some s.tick ∧ t.tick = s.tick ∧ t.dbg.fatals = []) ∧
      ((∀ r ∈ s.kern, r.waiting = []) → s.hub.waiting = [] → s.dbg.fatals = [] → exec .debugStop s =
        .next { s with dbg := { s.dbg with stopped := true, stop := some s.tick } })) ∧
    (s.dbg.stopped = true → goesTo (exec .debugRelease s) fun t =>
      t.dbg.stopped = false ∧ t.dbg.stop = none ∧
      (∀ d, (t.die d).boundary = true ∧ (t.die d).frame = (s.die d).frame + 1) ∧
      (∀ a, s.dbg.stop = some a →
        t.kern = s.kern.map (fun r => { r with service := r.service.map (· + (s.tick - a)) }) ∧
        t.hub.remote = s.hub.remote.map (fun q => { q with since := q.since + (s.tick - a) })) ∧
      t.mem = s.mem ∧ t.fab = s.fab ∧ t.chan = s.chan ∧ t.clk.islands = s.clk.islands)) ∧
  (∀ (s : State), let b := s.hub.boot
    let movesTo (t : State) (x : Boot) : Prop := wipedState s t ∧ t.hub.boot = x ∧ t.dbg.capsule = State.reset.dbg.capsule
    (∀ key cert, s.arg = .provision key cert → b.life = .manufacture → key.length = 32 → cert.length ≤ 16256 →
      goesTo (exec .lifecycleProvision s)
        (movesTo · { b with life := .provisioned, status := 0, pubkey := key, cert := cert })) ∧
    (∀ a, s.arg = .bytes a → b.life = .deployed → goesTo (exec .lifecycleDiagnostic s) fun t =>
      (s.authorised 1 a = true → movesTo t { b with life := .diagnostic, status := 0 }) ∧
      (s.authorised 1 a = false → t = s)) ∧
    (b.life = .diagnostic → goesTo (exec .lifecycleRedeploy s) (movesTo · { b with life := .deployed, status := 0 })) ∧
    (∀ a, s.arg = .bytes a → b.life ≠ .decommissioned → goesTo (exec .lifecycleDecommission s) fun t =>
      (s.authorised 2 a = true → movesTo t { b with life := .decommissioned, status := 0 }) ∧
      (s.authorised 2 a = false → t = s)) ∧
    (b.status = 0 ∨ b.status = 1 → goesTo (exec .romBoot s) fun t =>
      (s.imageOk = false → t.hub.boot = { b with status := 1 } ∧ t.mem = s.mem ∧ t.kern = s.kern) ∧
      (s.imageOk = true → wipedState s t ∧ t.hub.boot.status = 3 ∧
        t.hub.boot.life = (if b.life = .provisioned then .deployed else b.life) ∧
        (b.life = .provisioned ∨ b.life = .deployed → t.hub.boot.minSvn = max b.minSvn (leNat (smRead 0 b.store 8 4))) ∧
        (b.life = .diagnostic → t.hub.boot.minSvn = b.minSvn) ∧ t.hub.boot.store = b.store)) ∧
    (∀ off bs, s.arg = .image off bs → b.status = 1 → smOk 0 none b.store = true → goesTo (exec .recoveryImageWrite s) fun t =>
      (∀ k < bs.length, smGet 0 t.hub.boot.store (off + k) = bs.getD k 0) ∧
      (∀ a, a < off ∨ off + bs.length ≤ a → smGet 0 t.hub.boot.store a = smGet 0 b.store a) ∧ t.mem = s.mem ∧
      t.kern = s.kern))
end

