-- ==== Sys2Proof/Laws/Memory.lean ====
section
/-!
SUPPORT. The sparse maps and memory: a read after a write, a write elsewhere, and that every operation on memory keeps
the canonical form.
-/
set_option Elab.async false

namespace Sys2Proof.Machine

/-! ### Sparse maps -/

section
variable {w : Nat} (d : BitVec w)

@[simp] theorem smGet_nil (k : Nat) : smGet d [] k = d := rfl

theorem smOk_tail {lo : Option Nat} {c : Nat × BitVec w} {m : SMap w} (h : smOk d lo (c :: m) = true) :
    smOk d (some c.1) m = true := by
  obtain ⟨k, v⟩ := c
  simp only [smOk, Bool.and_eq_true] at h
  exact h.2

theorem smOk_head {lo : Nat} {c : Nat × BitVec w} {m : SMap w} (h : smOk d (some lo) (c :: m) = true) :
    lo < c.1 := by
  obtain ⟨k, v⟩ := c
  simp only [smOk, Bool.and_eq_true, decide_eq_true_eq] at h
  exact h.1.1

theorem smOk_value {lo : Option Nat} {c : Nat × BitVec w} {m : SMap w} (h : smOk d lo (c :: m) = true) : c.2 ≠ d := by
  obtain ⟨k, v⟩ := c
  simp only [smOk, Bool.and_eq_true, bne_iff_ne] at h
  exact h.1.2

theorem smOk_cons {lo : Option Nat} {k : Nat} {v : BitVec w} {m : SMap w} (hl : ∀ l, lo = some l → l < k) (hv : v ≠ d)
    (h : smOk d (some k) m = true) : smOk d lo ((k, v) :: m) = true := by
  cases lo with
  | none => simp [smOk, hv, h]
  | some l => simp [smOk, hv, h, hl l rfl]

/-- A smaller lower bound. -/
theorem smOk_weaken {lo : Option Nat} {l : Nat} {m : SMap w} (hl : ∀ k, lo = some k → k ≤ l)
    (h : smOk d (some l) m = true) : smOk d lo m = true := by
  cases m with
  | nil => simp [smOk]
  | cons c m =>
    refine smOk_cons d (fun k hk => Nat.lt_of_le_of_lt (hl k hk) (smOk_head d h)) (smOk_value d h) (smOk_tail d h)

/-- Below the first key every read gives the default. -/
theorem smGet_below {l : Nat} {m : SMap w} (h : smOk d (some l) m = true) {k : Nat} (hk : k ≤ l) : smGet d m k = d := by
  induction m generalizing l with
  | nil => rfl
  | cons c m ih =>
    have hc := smOk_head d h
    obtain ⟨k', v⟩ := c
    have : k ≠ k' := by simp only at hc; omega
    rw [smGet, if_neg this]
    exact ih (smOk_tail d h) (by simp only at hc ⊢; omega)

/-- A write keeps the canonical form. -/
theorem smOk_smSet {lo : Option Nat} {m : SMap w} (h : smOk d lo m = true) {k : Nat} (v : BitVec w)
    (hk : ∀ l, lo = some l → l < k) : smOk d lo (smSet d m k v) = true := by
  induction m generalizing lo with
  | nil =>
    by_cases hv : v = d
    · simp [smSet, hv, smOk]
    · rw [smSet, if_neg hv]
      exact smOk_cons d hk hv rfl
  | cons c m ih =>
    obtain ⟨k', v'⟩ := c
    have hv' := smOk_value d h
    have ht := smOk_tail d h
    by_cases h1 : k < k'
    · by_cases hv : v = d
      · simpa [smSet, h1, hv] using h
      · rw [smSet, if_pos h1, if_neg hv]
        exact smOk_cons d hk hv (smOk_cons d (fun l hl => by injection hl with hl; omega) hv' ht)
    · by_cases h2 : k = k'
      · subst h2
        by_cases hv : v = d
        · rw [smSet, if_neg h1, if_pos rfl, if_pos hv]
          exact smOk_weaken d (fun l hl => Nat.le_of_lt (hk l hl)) ht
        · rw [smSet, if_neg h1, if_pos rfl, if_neg hv]
          exact smOk_cons d hk hv ht
      · rw [smSet, if_neg h1, if_neg h2]
        refine smOk_cons d (fun l hl => ?_) hv' (ih ht fun l hl => ?_)
        · subst hl; exact smOk_head d h
        · injection hl with hl; omega

/-- A read of the key just written. -/
theorem smGet_smSet_self {lo : Option Nat} {m : SMap w} (h : smOk d lo m = true) (k : Nat) (v : BitVec w) :
    smGet d (smSet d m k v) k = v := by
  induction m generalizing lo with
  | nil => by_cases hv : v = d <;> simp [smSet, hv, smGet]
  | cons c m ih =>
    obtain ⟨k', v'⟩ := c
    have ht := smOk_tail d h
    by_cases h1 : k < k'
    · by_cases hv : v = d
      · rw [smSet, if_pos h1, if_pos hv, smGet, if_neg (by omega), smGet_below d ht (by simp only; omega), hv]
      · rw [smSet, if_pos h1, if_neg hv, smGet, if_pos rfl]
    · by_cases h2 : k = k'
      · subst h2
        by_cases hv : v = d
        · rw [smSet, if_neg h1, if_pos rfl, if_pos hv, smGet_below d ht (Nat.le_refl _), hv]
        · rw [smSet, if_neg h1, if_pos rfl, if_neg hv, smGet, if_pos rfl]
      · rw [smSet, if_neg h1, if_neg h2, smGet, if_neg h2]
        exact ih ht

/-- A read of any other key. -/
theorem smGet_smSet_ne {lo : Option Nat} {m : SMap w} (h : smOk d lo m = true) {k a : Nat} (v : BitVec w) (ha : a ≠ k) :
    smGet d (smSet d m k v) a = smGet d m a := by
  induction m generalizing lo with
  | nil => by_cases hv : v = d <;> simp [smSet, hv, smGet, ha]
  | cons c m ih =>
    obtain ⟨k', v'⟩ := c
    have ht := smOk_tail d h
    by_cases h1 : k < k'
    · by_cases hv : v = d
      · rw [smSet, if_pos h1, if_pos hv]
      · rw [smSet, if_pos h1, if_neg hv, smGet, if_neg ha]
    · by_cases h2 : k = k'
      · subst h2
        by_cases hv : v = d
        · rw [smSet, if_neg h1, if_pos rfl, if_pos hv, smGet, if_neg ha]
        · rw [smSet, if_neg h1, if_pos rfl, if_neg hv, smGet, if_neg ha, smGet, if_neg ha]
      · rw [smSet, if_neg h1, if_neg h2]
        by_cases h3 : a = k'
        · rw [smGet, if_pos h3, smGet, if_pos h3]
        · rw [smGet, if_neg h3, smGet, if_neg h3]
          exact ih ht

theorem smOk_smSetAll {m : SMap w} (h : smOk d none m = true) (l : List (Nat × BitVec w)) :
    smOk d none (smSetAll d m l) = true := by
  induction l generalizing m with
  | nil => exact h
  | cons c l ih => exact ih (smOk_smSet d h c.2 (by simp))

/-- A key that no write names reads as before. -/
theorem smGet_smSetAll_other {m : SMap w} (h : smOk d none m = true) {l : List (Nat × BitVec w)} {a : Nat}
    (ha : ∀ c ∈ l, c.1 ≠ a) : smGet d (smSetAll d m l) a = smGet d m a := by
  induction l generalizing m with
  | nil => rfl
  | cons c l ih =>
    rw [smSetAll, List.foldl_cons]
    exact (ih (smOk_smSet d h c.2 (by simp)) fun e he => ha e (List.mem_cons_of_mem _ he)).trans
      (smGet_smSet_ne d h c.2 (ha c (List.mem_cons_self ..)).symm)

/-- A key that one write alone names reads as what was written. -/
theorem smGet_smSetAll_mem {m : SMap w} (h : smOk d none m = true) {l : List (Nat × BitVec w)}
    (hn : (l.map (·.1)).Nodup) {c : Nat × BitVec w} (hc : c ∈ l) : smGet d (smSetAll d m l) c.1 = c.2 := by
  induction l generalizing m with
  | nil => cases hc
  | cons e l ih =>
    rw [List.map_cons, List.nodup_cons] at hn
    rw [smSetAll, List.foldl_cons]
    have hs := smOk_smSet d h e.2 (k := e.1) (by simp)
    rcases List.mem_cons.mp hc with rfl | hm
    · refine (smGet_smSetAll_other d hs fun f hf hfe => hn.1 ?_).trans (smGet_smSet_self d h _ _)
      exact hfe ▸ List.mem_map_of_mem (f := (·.1)) hf
    · exact ih hs hn.2 hm

/-- Entries taken out leave the canonical form. -/
theorem smOk_filter {lo : Option Nat} {m : SMap w} (h : smOk d lo m = true) (p : Nat × BitVec w → Bool) :
    smOk d lo (m.filter p) = true := by
  induction m generalizing lo with
  | nil => exact h
  | cons c m ih =>
    have ht := ih (smOk_tail d h)
    by_cases hp : p c = true
    · rw [List.filter_cons_of_pos hp]
      exact smOk_cons d (fun l hl => by subst hl; exact smOk_head d h) (smOk_value d h) ht
    · rw [List.filter_cons_of_neg hp]
      refine smOk_weaken d (fun k hk => ?_) ht
      subst hk
      exact Nat.le_of_lt (smOk_head d h)

/-- A key whose entries are taken out reads as the default. -/
theorem smGet_filter_out {m : SMap w} (p : Nat × BitVec w → Bool) {a : Nat} (ha : ∀ v, p (a, v) = false) :
    smGet d (m.filter p) a = d := by
  induction m with
  | nil => rfl
  | cons c m ih =>
    obtain ⟨k, v⟩ := c
    by_cases hp : p (k, v) = true
    · rw [List.filter_cons_of_pos hp, smGet, if_neg, ih]
      rintro rfl
      simp [ha v] at hp
    · rw [List.filter_cons_of_neg hp, ih]

/-- A key whose entries stay reads as before. -/
theorem smGet_filter_in {m : SMap w} (p : Nat × BitVec w → Bool) {a : Nat} (ha : ∀ v, p (a, v) = true) :
    smGet d (m.filter p) a = smGet d m a := by
  induction m with
  | nil => rfl
  | cons c m ih =>
    obtain ⟨k, v⟩ := c
    by_cases hp : p (k, v) = true
    · rw [List.filter_cons_of_pos hp, smGet, smGet, ih]
    · rw [List.filter_cons_of_neg hp, smGet, if_neg, ih]
      rintro rfl
      exact hp (ha v)

end

/-! ### Memory keeps its canonical form -/

/-- Memory after reset is canonical. -/
theorem reset_mem_wf : State.reset.mem.wf = true := rfl

theorem Memory.put_wf {m : Memory} (h : m.wf = true) (by_ : Place) (scope : BitVec 4) (a : Nat) (b : Byte) (pub : Nat) :
    (m.put by_ scope a b pub).wf = true := smOk_smSet 0 h b (by simp)

theorem Memory.putAll_wf {m : Memory} (h : m.wf = true) (by_ : Place) (scope : BitVec 4) (l : List Host.Cell) :
    (m.putAll by_ scope l).wf = true := by
  induction l generalizing m with
  | nil => exact h
  | cons c l ih => exact ih (m := m.put by_ scope c.1 c.2) (Memory.put_wf h ..)

/-- The bytes after stores in order are those of the plain writes. -/
theorem Memory.putAll_cells (m : Memory) (by_ : Place) (scope : BitVec 4) (l : List Host.Cell) :
    (m.putAll by_ scope l).cells = smSetAll 0 m.cells l := by
  induction l generalizing m with
  | nil => rfl
  | cons c l ih => exact ih (m := m.put by_ scope c.1 c.2)

@[simp] theorem State.toFabric_mem (s : State) (l : List Host.Cell) : (s.toFabric l).mem = s.mem := by
  unfold State.toFabric; dsimp only; split <;> rfl

@[simp] theorem State.put_mem (s : State) (by_ : Place) (scope : BitVec 4) (l : List Host.Cell) :
    (s.put by_ scope l).mem = s.mem.putAll by_ scope l := by simp [State.put]

theorem State.put_wf {s : State} (h : s.mem.wf = true) (by_ : Place) (scope : BitVec 4) (l : List Host.Cell) :
    (s.put by_ scope l).mem.wf = true := by rw [State.put_mem]; exact Memory.putAll_wf h ..

theorem State.poke_wf {s : State} (h : s.mem.wf = true) (l : List Host.Cell) : (s.poke l).mem.wf = true :=
  smOk_smSetAll 0 h l

theorem State.wipe_wf {s : State} (h : s.mem.wf = true) (l : List (Nat × Nat)) : (s.wipe l).mem.wf = true :=
  smOk_filter 0 h _

theorem State.landOne_wf {s : State} (h : s.mem.wf = true) (n : Nat) : (s.landOne n).mem.wf = true := by
  unfold State.landOne
  split
  · exact h
  · split
    · exact h
    · dsimp only
      split <;> simp only [State.modStrand, State.modGang, State.toFabric_mem] <;> exact smOk_smSet 0 h _ (by simp)

theorem State.landSome_wf {s : State} (h : s.mem.wf = true) (k n : Nat) : (State.landSome k n s).mem.wf = true := by
  induction k generalizing s with
  | zero => exact h
  | succ k ih => exact ih (State.landOne_wf h n)

theorem State.markPage_wf {s : State} (h : s.mem.wf = true) (die : Fin 4) (c : BitVec 12) (entry va : Nat) (dirty : Bool) :
    (s.markPage die c entry va dirty).mem.wf = true := by
  unfold State.markPage
  extract_lets old new u w base size
  have hu : u.mem.wf = true := by
    simp only [u]
    split
    · exact h
    · exact State.put_wf h ..
  split <;> exact hu

theorem foldl_keeps {α β : Type} {P : α → Prop} {f : α → β → α} (hf : ∀ a b, P a → P (f a b)) (l : List β) {a : α}
    (h : P a) : P (l.foldl f a) := by
  induction l generalizing a with
  | nil => exact h
  | cons b l ih => exact ih (hf a b h)

/-- What every mark of a page keeps, the hub's marks keep. -/
theorem State.hubMark_keeps {P : State → Prop} (hp : ∀ (s : State) e va d, P s → P (s.markPage 0 c e va d)) {s : State}
    (h : P s) (va n : Nat) (dirty : Bool) : P (s.hubMark c va n dirty) := by
  unfold State.hubMark
  exact foldl_keeps (fun u e hu => hp _ _ _ _ hu) _ h

theorem State.hubWrite_wf {s t : State} (h : s.mem.wf = true) {c : BitVec 12} {va : Nat} {bs : List Byte}
    (e : s.hubWrite c va bs = some t) : t.mem.wf = true := by
  unfold State.hubWrite at e
  dsimp only at e
  split at e
  · cases e
  · cases e
    exact State.put_wf
      (State.hubMark_keeps (P := fun u => u.mem.wf = true) (fun _ _ _ _ hu => State.markPage_wf hu ..) h ..) ..

/-! ### Bytes after a store -/

/-- A byte stored by the outside or an engine stands at its home, and no other byte changes. -/
theorem State.put_get {s : State} (h : s.mem.wf = true) (by_ : Place) (scope : BitVec 4) {l : List Host.Cell}
    (hn : (l.map (·.1)).Nodup) :
    (∀ c ∈ l, smGet 0 (s.put by_ scope l).mem.cells c.1 = c.2) ∧
    ∀ a, (∀ c ∈ l, c.1 ≠ a) → smGet 0 (s.put by_ scope l).mem.cells a = smGet 0 s.mem.cells a := by
  rw [State.put_mem, Memory.putAll_cells]
  exact ⟨fun c hc => smGet_smSetAll_mem 0 h hn hc, fun a ha => smGet_smSetAll_other 0 h ha⟩

/-- A page's mark changes no byte but those of its leaf. -/
theorem State.markPage_get {s : State} (h : s.mem.wf = true) (die : Fin 4) (c : BitVec 12) (entry va : Nat) (dirty : Bool)
    {a : Nat} (ha : ∀ j < 8, a ≠ homeHbm entry + j) :
    smGet 0 (s.markPage die c entry va dirty).mem.cells a = smGet 0 s.mem.cells a := by
  unfold State.markPage
  extract_lets old new u w base size
  have hu : smGet 0 u.mem.cells a = smGet 0 s.mem.cells a := by
    simp only [u]
    split
    · rfl
    · rw [State.put_mem, Memory.putAll_cells]
      refine smGet_smSetAll_other 0 h fun p hp => ?_
      obtain ⟨⟨b, j⟩, hq, rfl⟩ := List.mem_map.mp hp
      have hj : j < 8 := by simpa [leBytes] using (List.mem_zipIdx hq).2.1
      exact fun e => ha j hj e.symm
  split <;> exact hu

end Sys2Proof.Machine
end

