-- ==== Sys2Proof/Laws/State.lean ====
section
/-!
SUPPORT. What each named update of the state leaves in each field, so that no proof unfolds a record update; and the
same for the registers and the block at work.
-/
set_option Elab.async false

namespace Sys2Proof.Machine

/-! ### setX -/

@[simp] theorem State.setX_x (s : State) (x : Flight) : (s.setX x).x = x := rfl
@[simp] theorem State.setX_fab (s : State) (x : Flight) : (s.setX x).fab = s.fab := rfl
@[simp] theorem State.setX_mem (s : State) (x : Flight) : (s.setX x).mem = s.mem := rfl
@[simp] theorem State.setX_chan (s : State) (x : Flight) : (s.setX x).chan = s.chan := rfl
@[simp] theorem State.setX_eng (s : State) (x : Flight) : (s.setX x).eng = s.eng := rfl
@[simp] theorem State.setX_kern (s : State) (x : Flight) : (s.setX x).kern = s.kern := rfl
@[simp] theorem State.setX_clk (s : State) (x : Flight) : (s.setX x).clk = s.clk := rfl
@[simp] theorem State.setX_hub (s : State) (x : Flight) : (s.setX x).hub = s.hub := rfl
@[simp] theorem State.setX_dbg (s : State) (x : Flight) : (s.setX x).dbg = s.dbg := rfl
@[simp] theorem State.setX_tick (s : State) (x : Flight) : (s.setX x).tick = s.tick := rfl
@[simp] theorem State.setX_free (s : State) (x : Flight) : (s.setX x).free = s.free := rfl
@[simp] theorem State.setX_agenda (s : State) (x : Flight) : (s.setX x).agenda = s.agenda := rfl
@[simp] theorem State.setX_arg (s : State) (x : Flight) : (s.setX x).arg = s.arg := rfl

/-! ### modRegion -/

@[simp] theorem State.modRegion_x (s : State) (rid : Nat) (f : Region → Region) : (s.modRegion rid f).x = s.x := rfl
@[simp] theorem State.modRegion_fab (s : State) (rid : Nat) (f : Region → Region) : (s.modRegion rid f).fab = s.fab := rfl
@[simp] theorem State.modRegion_mem (s : State) (rid : Nat) (f : Region → Region) : (s.modRegion rid f).mem = s.mem := rfl
@[simp] theorem State.modRegion_chan (s : State) (rid : Nat) (f : Region → Region) : (s.modRegion rid f).chan = s.chan := rfl
@[simp] theorem State.modRegion_eng (s : State) (rid : Nat) (f : Region → Region) : (s.modRegion rid f).eng = s.eng := rfl
@[simp] theorem State.modRegion_kern (s : State) (rid : Nat) (f : Region → Region) : (s.modRegion rid f).kern = modFirst (·.rid == rid) f s.kern := rfl
@[simp] theorem State.modRegion_clk (s : State) (rid : Nat) (f : Region → Region) : (s.modRegion rid f).clk = s.clk := rfl
@[simp] theorem State.modRegion_hub (s : State) (rid : Nat) (f : Region → Region) : (s.modRegion rid f).hub = s.hub := rfl
@[simp] theorem State.modRegion_dbg (s : State) (rid : Nat) (f : Region → Region) : (s.modRegion rid f).dbg = s.dbg := rfl
@[simp] theorem State.modRegion_tick (s : State) (rid : Nat) (f : Region → Region) : (s.modRegion rid f).tick = s.tick := rfl
@[simp] theorem State.modRegion_free (s : State) (rid : Nat) (f : Region → Region) : (s.modRegion rid f).free = s.free := rfl
@[simp] theorem State.modRegion_agenda (s : State) (rid : Nat) (f : Region → Region) : (s.modRegion rid f).agenda = s.agenda := rfl
@[simp] theorem State.modRegion_arg (s : State) (rid : Nat) (f : Region → Region) : (s.modRegion rid f).arg = s.arg := rfl

/-! ### modGang -/

@[simp] theorem State.modGang_x (s : State) (q : Seq) (f : Gang → Gang) : (s.modGang q f).x = s.x := rfl
@[simp] theorem State.modGang_fab (s : State) (q : Seq) (f : Gang → Gang) : (s.modGang q f).fab = { s.fab with gangs := modFirst (·.seq == q) f s.fab.gangs } := rfl
@[simp] theorem State.modGang_mem (s : State) (q : Seq) (f : Gang → Gang) : (s.modGang q f).mem = s.mem := rfl
@[simp] theorem State.modGang_chan (s : State) (q : Seq) (f : Gang → Gang) : (s.modGang q f).chan = s.chan := rfl
@[simp] theorem State.modGang_eng (s : State) (q : Seq) (f : Gang → Gang) : (s.modGang q f).eng = s.eng := rfl
@[simp] theorem State.modGang_kern (s : State) (q : Seq) (f : Gang → Gang) : (s.modGang q f).kern = s.kern := rfl
@[simp] theorem State.modGang_clk (s : State) (q : Seq) (f : Gang → Gang) : (s.modGang q f).clk = s.clk := rfl
@[simp] theorem State.modGang_hub (s : State) (q : Seq) (f : Gang → Gang) : (s.modGang q f).hub = s.hub := rfl
@[simp] theorem State.modGang_dbg (s : State) (q : Seq) (f : Gang → Gang) : (s.modGang q f).dbg = s.dbg := rfl
@[simp] theorem State.modGang_tick (s : State) (q : Seq) (f : Gang → Gang) : (s.modGang q f).tick = s.tick := rfl
@[simp] theorem State.modGang_free (s : State) (q : Seq) (f : Gang → Gang) : (s.modGang q f).free = s.free := rfl
@[simp] theorem State.modGang_agenda (s : State) (q : Seq) (f : Gang → Gang) : (s.modGang q f).agenda = s.agenda := rfl
@[simp] theorem State.modGang_arg (s : State) (q : Seq) (f : Gang → Gang) : (s.modGang q f).arg = s.arg := rfl

/-! ### setCtx -/

@[simp] theorem State.setCtx_x (s : State) (c : Ctx) : (s.setCtx c).x = s.x := rfl
@[simp] theorem State.setCtx_fab (s : State) (c : Ctx) : (s.setCtx c).fab = s.fab := rfl
@[simp] theorem State.setCtx_mem (s : State) (c : Ctx) : (s.setCtx c).mem = s.mem := rfl
@[simp] theorem State.setCtx_chan (s : State) (c : Ctx) : (s.setCtx c).chan = s.chan := rfl
@[simp] theorem State.setCtx_eng (s : State) (c : Ctx) : (s.setCtx c).eng = s.eng := rfl
@[simp] theorem State.setCtx_kern (s : State) (c : Ctx) : (s.setCtx c).kern = s.kern := rfl
@[simp] theorem State.setCtx_clk (s : State) (c : Ctx) : (s.setCtx c).clk = s.clk := rfl
@[simp] theorem State.setCtx_hub (s : State) (c : Ctx) : (s.setCtx c).hub = { s.hub with ctxs := c :: s.hub.ctxs.filter (·.num != c.num) } := rfl
@[simp] theorem State.setCtx_dbg (s : State) (c : Ctx) : (s.setCtx c).dbg = s.dbg := rfl
@[simp] theorem State.setCtx_tick (s : State) (c : Ctx) : (s.setCtx c).tick = s.tick := rfl
@[simp] theorem State.setCtx_free (s : State) (c : Ctx) : (s.setCtx c).free = s.free := rfl
@[simp] theorem State.setCtx_agenda (s : State) (c : Ctx) : (s.setCtx c).agenda = s.agenda := rfl
@[simp] theorem State.setCtx_arg (s : State) (c : Ctx) : (s.setCtx c).arg = s.arg := rfl

/-! ### modQueue -/

@[simp] theorem State.modQueue_x (s : State) (q : BitVec 11) (f : Queue → Queue) : (s.modQueue q f).x = s.x := rfl
@[simp] theorem State.modQueue_fab (s : State) (q : BitVec 11) (f : Queue → Queue) : (s.modQueue q f).fab = s.fab := rfl
@[simp] theorem State.modQueue_mem (s : State) (q : BitVec 11) (f : Queue → Queue) : (s.modQueue q f).mem = s.mem := rfl
@[simp] theorem State.modQueue_chan (s : State) (q : BitVec 11) (f : Queue → Queue) : (s.modQueue q f).chan = s.chan := rfl
@[simp] theorem State.modQueue_eng (s : State) (q : BitVec 11) (f : Queue → Queue) : (s.modQueue q f).eng = s.eng := rfl
@[simp] theorem State.modQueue_kern (s : State) (q : BitVec 11) (f : Queue → Queue) : (s.modQueue q f).kern = s.kern := rfl
@[simp] theorem State.modQueue_clk (s : State) (q : BitVec 11) (f : Queue → Queue) : (s.modQueue q f).clk = s.clk := rfl
@[simp] theorem State.modQueue_hub (s : State) (q : BitVec 11) (f : Queue → Queue) : (s.modQueue q f).hub = { s.hub with queues := if s.hub.queues.any (·.num == q) then modFirst (·.num == q) f s.hub.queues else f (Queue.blank q) :: s.hub.queues } := rfl
@[simp] theorem State.modQueue_dbg (s : State) (q : BitVec 11) (f : Queue → Queue) : (s.modQueue q f).dbg = s.dbg := rfl
@[simp] theorem State.modQueue_tick (s : State) (q : BitVec 11) (f : Queue → Queue) : (s.modQueue q f).tick = s.tick := rfl
@[simp] theorem State.modQueue_free (s : State) (q : BitVec 11) (f : Queue → Queue) : (s.modQueue q f).free = s.free := rfl
@[simp] theorem State.modQueue_agenda (s : State) (q : BitVec 11) (f : Queue → Queue) : (s.modQueue q f).agenda = s.agenda := rfl
@[simp] theorem State.modQueue_arg (s : State) (q : BitVec 11) (f : Queue → Queue) : (s.modQueue q f).arg = s.arg := rfl

/-! ### modRing -/

@[simp] theorem State.modRing_x (s : State) (r : RingId) (f : Ring → Ring) : (s.modRing r f).x = s.x := rfl
@[simp] theorem State.modRing_fab (s : State) (r : RingId) (f : Ring → Ring) : (s.modRing r f).fab = s.fab := rfl
@[simp] theorem State.modRing_mem (s : State) (r : RingId) (f : Ring → Ring) : (s.modRing r f).mem = s.mem := rfl
@[simp] theorem State.modRing_chan (s : State) (r : RingId) (f : Ring → Ring) : (s.modRing r f).chan = { s.chan with rings := modFirst (·.id == r) f s.chan.rings } := rfl
@[simp] theorem State.modRing_eng (s : State) (r : RingId) (f : Ring → Ring) : (s.modRing r f).eng = s.eng := rfl
@[simp] theorem State.modRing_kern (s : State) (r : RingId) (f : Ring → Ring) : (s.modRing r f).kern = s.kern := rfl
@[simp] theorem State.modRing_clk (s : State) (r : RingId) (f : Ring → Ring) : (s.modRing r f).clk = s.clk := rfl
@[simp] theorem State.modRing_hub (s : State) (r : RingId) (f : Ring → Ring) : (s.modRing r f).hub = s.hub := rfl
@[simp] theorem State.modRing_dbg (s : State) (r : RingId) (f : Ring → Ring) : (s.modRing r f).dbg = s.dbg := rfl
@[simp] theorem State.modRing_tick (s : State) (r : RingId) (f : Ring → Ring) : (s.modRing r f).tick = s.tick := rfl
@[simp] theorem State.modRing_free (s : State) (r : RingId) (f : Ring → Ring) : (s.modRing r f).free = s.free := rfl
@[simp] theorem State.modRing_agenda (s : State) (r : RingId) (f : Ring → Ring) : (s.modRing r f).agenda = s.agenda := rfl
@[simp] theorem State.modRing_arg (s : State) (r : RingId) (f : Ring → Ring) : (s.modRing r f).arg = s.arg := rfl

/-! ### modJob -/

@[simp] theorem State.modJob_x (s : State) (n : Nat) (f : Job → Job) : (s.modJob n f).x = s.x := rfl
@[simp] theorem State.modJob_fab (s : State) (n : Nat) (f : Job → Job) : (s.modJob n f).fab = s.fab := rfl
@[simp] theorem State.modJob_mem (s : State) (n : Nat) (f : Job → Job) : (s.modJob n f).mem = s.mem := rfl
@[simp] theorem State.modJob_chan (s : State) (n : Nat) (f : Job → Job) : (s.modJob n f).chan = s.chan := rfl
@[simp] theorem State.modJob_eng (s : State) (n : Nat) (f : Job → Job) : (s.modJob n f).eng = { s.eng with jobs := modFirst (·.num == n) f s.eng.jobs } := rfl
@[simp] theorem State.modJob_kern (s : State) (n : Nat) (f : Job → Job) : (s.modJob n f).kern = s.kern := rfl
@[simp] theorem State.modJob_clk (s : State) (n : Nat) (f : Job → Job) : (s.modJob n f).clk = s.clk := rfl
@[simp] theorem State.modJob_hub (s : State) (n : Nat) (f : Job → Job) : (s.modJob n f).hub = s.hub := rfl
@[simp] theorem State.modJob_dbg (s : State) (n : Nat) (f : Job → Job) : (s.modJob n f).dbg = s.dbg := rfl
@[simp] theorem State.modJob_tick (s : State) (n : Nat) (f : Job → Job) : (s.modJob n f).tick = s.tick := rfl
@[simp] theorem State.modJob_free (s : State) (n : Nat) (f : Job → Job) : (s.modJob n f).free = s.free := rfl
@[simp] theorem State.modJob_agenda (s : State) (n : Nat) (f : Job → Job) : (s.modJob n f).agenda = s.agenda := rfl
@[simp] theorem State.modJob_arg (s : State) (n : Nat) (f : Job → Job) : (s.modJob n f).arg = s.arg := rfl

/-! ### dropJob -/

@[simp] theorem State.dropJob_x (s : State) (n : Nat) : (s.dropJob n).x = s.x := rfl
@[simp] theorem State.dropJob_fab (s : State) (n : Nat) : (s.dropJob n).fab = s.fab := rfl
@[simp] theorem State.dropJob_mem (s : State) (n : Nat) : (s.dropJob n).mem = s.mem := rfl
@[simp] theorem State.dropJob_chan (s : State) (n : Nat) : (s.dropJob n).chan = s.chan := rfl
@[simp] theorem State.dropJob_eng (s : State) (n : Nat) : (s.dropJob n).eng = { s.eng with jobs := s.eng.jobs.filter (·.num != n) } := rfl
@[simp] theorem State.dropJob_kern (s : State) (n : Nat) : (s.dropJob n).kern = s.kern := rfl
@[simp] theorem State.dropJob_clk (s : State) (n : Nat) : (s.dropJob n).clk = s.clk := rfl
@[simp] theorem State.dropJob_hub (s : State) (n : Nat) : (s.dropJob n).hub = s.hub := rfl
@[simp] theorem State.dropJob_dbg (s : State) (n : Nat) : (s.dropJob n).dbg = s.dbg := rfl
@[simp] theorem State.dropJob_tick (s : State) (n : Nat) : (s.dropJob n).tick = s.tick := rfl
@[simp] theorem State.dropJob_free (s : State) (n : Nat) : (s.dropJob n).free = s.free := rfl
@[simp] theorem State.dropJob_agenda (s : State) (n : Nat) : (s.dropJob n).agenda = s.agenda := rfl
@[simp] theorem State.dropJob_arg (s : State) (n : Nat) : (s.dropJob n).arg = s.arg := rfl

/-! ### setMat -/

@[simp] theorem State.setMat_x (s : State) (m : MatIsland) : (s.setMat m).x = s.x := rfl
@[simp] theorem State.setMat_fab (s : State) (m : MatIsland) : (s.setMat m).fab = s.fab := rfl
@[simp] theorem State.setMat_mem (s : State) (m : MatIsland) : (s.setMat m).mem = s.mem := rfl
@[simp] theorem State.setMat_chan (s : State) (m : MatIsland) : (s.setMat m).chan = s.chan := rfl
@[simp] theorem State.setMat_eng (s : State) (m : MatIsland) : (s.setMat m).eng = { s.eng with mats := m :: s.eng.mats.filter (·.isl != m.isl) } := rfl
@[simp] theorem State.setMat_kern (s : State) (m : MatIsland) : (s.setMat m).kern = s.kern := rfl
@[simp] theorem State.setMat_clk (s : State) (m : MatIsland) : (s.setMat m).clk = s.clk := rfl
@[simp] theorem State.setMat_hub (s : State) (m : MatIsland) : (s.setMat m).hub = s.hub := rfl
@[simp] theorem State.setMat_dbg (s : State) (m : MatIsland) : (s.setMat m).dbg = s.dbg := rfl
@[simp] theorem State.setMat_tick (s : State) (m : MatIsland) : (s.setMat m).tick = s.tick := rfl
@[simp] theorem State.setMat_free (s : State) (m : MatIsland) : (s.setMat m).free = s.free := rfl
@[simp] theorem State.setMat_agenda (s : State) (m : MatIsland) : (s.setMat m).agenda = s.agenda := rfl
@[simp] theorem State.setMat_arg (s : State) (m : MatIsland) : (s.setMat m).arg = s.arg := rfl

/-! ### setIsland -/

@[simp] theorem State.setIsland_x (s : State) (i : Island) : (s.setIsland i).x = s.x := rfl
@[simp] theorem State.setIsland_fab (s : State) (i : Island) : (s.setIsland i).fab = s.fab := rfl
@[simp] theorem State.setIsland_mem (s : State) (i : Island) : (s.setIsland i).mem = s.mem := rfl
@[simp] theorem State.setIsland_chan (s : State) (i : Island) : (s.setIsland i).chan = s.chan := rfl
@[simp] theorem State.setIsland_eng (s : State) (i : Island) : (s.setIsland i).eng = s.eng := rfl
@[simp] theorem State.setIsland_kern (s : State) (i : Island) : (s.setIsland i).kern = s.kern := rfl
@[simp] theorem State.setIsland_clk (s : State) (i : Island) : (s.setIsland i).clk = { s.clk with islands := i :: s.clk.islands.filter (·.key != i.key) } := rfl
@[simp] theorem State.setIsland_hub (s : State) (i : Island) : (s.setIsland i).hub = s.hub := rfl
@[simp] theorem State.setIsland_dbg (s : State) (i : Island) : (s.setIsland i).dbg = s.dbg := rfl
@[simp] theorem State.setIsland_tick (s : State) (i : Island) : (s.setIsland i).tick = s.tick := rfl
@[simp] theorem State.setIsland_free (s : State) (i : Island) : (s.setIsland i).free = s.free := rfl
@[simp] theorem State.setIsland_agenda (s : State) (i : Island) : (s.setIsland i).agenda = s.agenda := rfl
@[simp] theorem State.setIsland_arg (s : State) (i : Island) : (s.setIsland i).arg = s.arg := rfl

/-! ### modDie -/

@[simp] theorem State.modDie_x (s : State) (d : Fin 4) (f : Die → Die) : (s.modDie d f).x = s.x := rfl
@[simp] theorem State.modDie_fab (s : State) (d : Fin 4) (f : Die → Die) : (s.modDie d f).fab = s.fab := rfl
@[simp] theorem State.modDie_mem (s : State) (d : Fin 4) (f : Die → Die) : (s.modDie d f).mem = s.mem := rfl
@[simp] theorem State.modDie_chan (s : State) (d : Fin 4) (f : Die → Die) : (s.modDie d f).chan = s.chan := rfl
@[simp] theorem State.modDie_eng (s : State) (d : Fin 4) (f : Die → Die) : (s.modDie d f).eng = s.eng := rfl
@[simp] theorem State.modDie_kern (s : State) (d : Fin 4) (f : Die → Die) : (s.modDie d f).kern = s.kern := rfl
@[simp] theorem State.modDie_clk (s : State) (d : Fin 4) (f : Die → Die) : (s.modDie d f).clk = { s.clk with dies := s.clk.dies.set d (f s.clk.dies[d]) } := rfl
@[simp] theorem State.modDie_hub (s : State) (d : Fin 4) (f : Die → Die) : (s.modDie d f).hub = s.hub := rfl
@[simp] theorem State.modDie_dbg (s : State) (d : Fin 4) (f : Die → Die) : (s.modDie d f).dbg = s.dbg := rfl
@[simp] theorem State.modDie_tick (s : State) (d : Fin 4) (f : Die → Die) : (s.modDie d f).tick = s.tick := rfl
@[simp] theorem State.modDie_free (s : State) (d : Fin 4) (f : Die → Die) : (s.modDie d f).free = s.free := rfl
@[simp] theorem State.modDie_agenda (s : State) (d : Fin 4) (f : Die → Die) : (s.modDie d f).agenda = s.agenda := rfl
@[simp] theorem State.modDie_arg (s : State) (d : Fin 4) (f : Die → Die) : (s.modDie d f).arg = s.arg := rfl

/-! ### setEvents -/

@[simp] theorem State.setEvents_x (s : State) (q : EventQueue) : (s.setEvents q).x = s.x := rfl
@[simp] theorem State.setEvents_fab (s : State) (q : EventQueue) : (s.setEvents q).fab = { s.fab with events := q :: s.fab.events.filter (·.isl != q.isl) } := rfl
@[simp] theorem State.setEvents_mem (s : State) (q : EventQueue) : (s.setEvents q).mem = s.mem := rfl
@[simp] theorem State.setEvents_chan (s : State) (q : EventQueue) : (s.setEvents q).chan = s.chan := rfl
@[simp] theorem State.setEvents_eng (s : State) (q : EventQueue) : (s.setEvents q).eng = s.eng := rfl
@[simp] theorem State.setEvents_kern (s : State) (q : EventQueue) : (s.setEvents q).kern = s.kern := rfl
@[simp] theorem State.setEvents_clk (s : State) (q : EventQueue) : (s.setEvents q).clk = s.clk := rfl
@[simp] theorem State.setEvents_hub (s : State) (q : EventQueue) : (s.setEvents q).hub = s.hub := rfl
@[simp] theorem State.setEvents_dbg (s : State) (q : EventQueue) : (s.setEvents q).dbg = s.dbg := rfl
@[simp] theorem State.setEvents_tick (s : State) (q : EventQueue) : (s.setEvents q).tick = s.tick := rfl
@[simp] theorem State.setEvents_free (s : State) (q : EventQueue) : (s.setEvents q).free = s.free := rfl
@[simp] theorem State.setEvents_agenda (s : State) (q : EventQueue) : (s.setEvents q).agenda = s.agenda := rfl
@[simp] theorem State.setEvents_arg (s : State) (q : EventQueue) : (s.setEvents q).arg = s.arg := rfl

/-! ### sendAll -/

@[simp] theorem State.sendAll_x (s : State) (l : List FabWrite) : (s.sendAll l).x = s.x := rfl
@[simp] theorem State.sendAll_fab (s : State) (l : List FabWrite) : (s.sendAll l).fab = s.fab := rfl
@[simp] theorem State.sendAll_mem (s : State) (l : List FabWrite) : (s.sendAll l).mem = s.mem := rfl
@[simp] theorem State.sendAll_chan (s : State) (l : List FabWrite) : (s.sendAll l).chan = s.chan := rfl
@[simp] theorem State.sendAll_eng (s : State) (l : List FabWrite) : (s.sendAll l).eng = s.eng := rfl
@[simp] theorem State.sendAll_kern (s : State) (l : List FabWrite) : (s.sendAll l).kern = s.kern := rfl
@[simp] theorem State.sendAll_clk (s : State) (l : List FabWrite) : (s.sendAll l).clk = s.clk := rfl
@[simp] theorem State.sendAll_hub (s : State) (l : List FabWrite) : (s.sendAll l).hub = { s.hub with outbox := s.hub.outbox ++ l.filter (fun w => s.linked w.node), unsent := s.hub.unsent ++ l.filter fun w => !s.linked w.node } := rfl
@[simp] theorem State.sendAll_dbg (s : State) (l : List FabWrite) : (s.sendAll l).dbg = s.dbg := rfl
@[simp] theorem State.sendAll_tick (s : State) (l : List FabWrite) : (s.sendAll l).tick = s.tick := rfl
@[simp] theorem State.sendAll_free (s : State) (l : List FabWrite) : (s.sendAll l).free = s.free := rfl
@[simp] theorem State.sendAll_agenda (s : State) (l : List FabWrite) : (s.sendAll l).agenda = s.agenda := rfl
@[simp] theorem State.sendAll_arg (s : State) (l : List FabWrite) : (s.sendAll l).arg = s.arg := rfl

/-! ### send -/

@[simp] theorem State.send_x (s : State) (node : BitVec 20) (addr : Word) (bs : List Byte) : (s.send node addr bs).x = s.x := rfl
@[simp] theorem State.send_fab (s : State) (node : BitVec 20) (addr : Word) (bs : List Byte) : (s.send node addr bs).fab = s.fab := rfl
@[simp] theorem State.send_mem (s : State) (node : BitVec 20) (addr : Word) (bs : List Byte) : (s.send node addr bs).mem = s.mem := rfl
@[simp] theorem State.send_chan (s : State) (node : BitVec 20) (addr : Word) (bs : List Byte) : (s.send node addr bs).chan = s.chan := rfl
@[simp] theorem State.send_eng (s : State) (node : BitVec 20) (addr : Word) (bs : List Byte) : (s.send node addr bs).eng = s.eng := rfl
@[simp] theorem State.send_kern (s : State) (node : BitVec 20) (addr : Word) (bs : List Byte) : (s.send node addr bs).kern = s.kern := rfl
@[simp] theorem State.send_clk (s : State) (node : BitVec 20) (addr : Word) (bs : List Byte) : (s.send node addr bs).clk = s.clk := rfl
@[simp] theorem State.send_hub (s : State) (node : BitVec 20) (addr : Word) (bs : List Byte) : (s.send node addr bs).hub = (s.sendAll [⟨node, addr, bs⟩]).hub := rfl
@[simp] theorem State.send_dbg (s : State) (node : BitVec 20) (addr : Word) (bs : List Byte) : (s.send node addr bs).dbg = s.dbg := rfl
@[simp] theorem State.send_tick (s : State) (node : BitVec 20) (addr : Word) (bs : List Byte) : (s.send node addr bs).tick = s.tick := rfl
@[simp] theorem State.send_free (s : State) (node : BitVec 20) (addr : Word) (bs : List Byte) : (s.send node addr bs).free = s.free := rfl
@[simp] theorem State.send_agenda (s : State) (node : BitVec 20) (addr : Word) (bs : List Byte) : (s.send node addr bs).agenda = s.agenda := rfl
@[simp] theorem State.send_arg (s : State) (node : BitVec 20) (addr : Word) (bs : List Byte) : (s.send node addr bs).arg = s.arg := rfl

/-! ### setVector -/

@[simp] theorem State.setVector_x (s : State) (v : IntVec) : (s.setVector v).x = s.x := rfl
@[simp] theorem State.setVector_fab (s : State) (v : IntVec) : (s.setVector v).fab = s.fab := rfl
@[simp] theorem State.setVector_mem (s : State) (v : IntVec) : (s.setVector v).mem = s.mem := rfl
@[simp] theorem State.setVector_chan (s : State) (v : IntVec) : (s.setVector v).chan = s.chan := rfl
@[simp] theorem State.setVector_eng (s : State) (v : IntVec) : (s.setVector v).eng = s.eng := rfl
@[simp] theorem State.setVector_kern (s : State) (v : IntVec) : (s.setVector v).kern = s.kern := rfl
@[simp] theorem State.setVector_clk (s : State) (v : IntVec) : (s.setVector v).clk = s.clk := rfl
@[simp] theorem State.setVector_dbg (s : State) (v : IntVec) : (s.setVector v).dbg = s.dbg := rfl
@[simp] theorem State.setVector_tick (s : State) (v : IntVec) : (s.setVector v).tick = s.tick := rfl
@[simp] theorem State.setVector_free (s : State) (v : IntVec) : (s.setVector v).free = s.free := rfl
@[simp] theorem State.setVector_agenda (s : State) (v : IntVec) : (s.setVector v).agenda = s.agenda := rfl
@[simp] theorem State.setVector_arg (s : State) (v : IntVec) : (s.setVector v).arg = s.arg := rfl

/-! ### poke -/

@[simp] theorem State.poke_x (s : State) (l : List Host.Cell) : (s.poke l).x = s.x := rfl
@[simp] theorem State.poke_fab (s : State) (l : List Host.Cell) : (s.poke l).fab = s.fab := rfl
@[simp] theorem State.poke_mem (s : State) (l : List Host.Cell) : (s.poke l).mem = { s.mem with cells := smSetAll 0 s.mem.cells l } := rfl
@[simp] theorem State.poke_chan (s : State) (l : List Host.Cell) : (s.poke l).chan = s.chan := rfl
@[simp] theorem State.poke_eng (s : State) (l : List Host.Cell) : (s.poke l).eng = s.eng := rfl
@[simp] theorem State.poke_kern (s : State) (l : List Host.Cell) : (s.poke l).kern = s.kern := rfl
@[simp] theorem State.poke_clk (s : State) (l : List Host.Cell) : (s.poke l).clk = s.clk := rfl
@[simp] theorem State.poke_hub (s : State) (l : List Host.Cell) : (s.poke l).hub = s.hub := rfl
@[simp] theorem State.poke_dbg (s : State) (l : List Host.Cell) : (s.poke l).dbg = s.dbg := rfl
@[simp] theorem State.poke_tick (s : State) (l : List Host.Cell) : (s.poke l).tick = s.tick := rfl
@[simp] theorem State.poke_free (s : State) (l : List Host.Cell) : (s.poke l).free = s.free := rfl
@[simp] theorem State.poke_agenda (s : State) (l : List Host.Cell) : (s.poke l).agenda = s.agenda := rfl
@[simp] theorem State.poke_arg (s : State) (l : List Host.Cell) : (s.poke l).arg = s.arg := rfl

/-! ### regX -/

@[simp] theorem State.regX_x (s : State) (f : Regs → Regs) : (s.regX f).x = { s.x with r := f s.x.r } := rfl
@[simp] theorem State.regX_fab (s : State) (f : Regs → Regs) : (s.regX f).fab = s.fab := rfl
@[simp] theorem State.regX_mem (s : State) (f : Regs → Regs) : (s.regX f).mem = s.mem := rfl
@[simp] theorem State.regX_chan (s : State) (f : Regs → Regs) : (s.regX f).chan = s.chan := rfl
@[simp] theorem State.regX_eng (s : State) (f : Regs → Regs) : (s.regX f).eng = s.eng := rfl
@[simp] theorem State.regX_kern (s : State) (f : Regs → Regs) : (s.regX f).kern = s.kern := rfl
@[simp] theorem State.regX_clk (s : State) (f : Regs → Regs) : (s.regX f).clk = s.clk := rfl
@[simp] theorem State.regX_hub (s : State) (f : Regs → Regs) : (s.regX f).hub = s.hub := rfl
@[simp] theorem State.regX_dbg (s : State) (f : Regs → Regs) : (s.regX f).dbg = s.dbg := rfl
@[simp] theorem State.regX_tick (s : State) (f : Regs → Regs) : (s.regX f).tick = s.tick := rfl
@[simp] theorem State.regX_free (s : State) (f : Regs → Regs) : (s.regX f).free = s.free := rfl
@[simp] theorem State.regX_agenda (s : State) (f : Regs → Regs) : (s.regX f).agenda = s.agenda := rfl
@[simp] theorem State.regX_arg (s : State) (f : Regs → Regs) : (s.regX f).arg = s.arg := rfl

/-! ### modStrand and setSlot -/

@[simp] theorem State.modStrand_x (s : State) (t : StrandId) (f : Strand → Strand) : (s.modStrand t f).x = s.x := rfl
@[simp] theorem State.modStrand_mem (s : State) (t : StrandId) (f : Strand → Strand) : (s.modStrand t f).mem = s.mem := rfl
@[simp] theorem State.modStrand_chan (s : State) (t : StrandId) (f : Strand → Strand) : (s.modStrand t f).chan = s.chan := rfl
@[simp] theorem State.modStrand_eng (s : State) (t : StrandId) (f : Strand → Strand) : (s.modStrand t f).eng = s.eng := rfl
@[simp] theorem State.modStrand_kern (s : State) (t : StrandId) (f : Strand → Strand) : (s.modStrand t f).kern = s.kern := rfl
@[simp] theorem State.modStrand_clk (s : State) (t : StrandId) (f : Strand → Strand) : (s.modStrand t f).clk = s.clk := rfl
@[simp] theorem State.modStrand_hub (s : State) (t : StrandId) (f : Strand → Strand) : (s.modStrand t f).hub = s.hub := rfl
@[simp] theorem State.modStrand_dbg (s : State) (t : StrandId) (f : Strand → Strand) : (s.modStrand t f).dbg = s.dbg := rfl
@[simp] theorem State.modStrand_tick (s : State) (t : StrandId) (f : Strand → Strand) : (s.modStrand t f).tick = s.tick := rfl
@[simp] theorem State.modStrand_free (s : State) (t : StrandId) (f : Strand → Strand) : (s.modStrand t f).free = s.free := rfl
@[simp] theorem State.modStrand_agenda (s : State) (t : StrandId) (f : Strand → Strand) : (s.modStrand t f).agenda = s.agenda := rfl
@[simp] theorem State.modStrand_arg (s : State) (t : StrandId) (f : Strand → Strand) : (s.modStrand t f).arg = s.arg := rfl
@[simp] theorem State.setSlot_x (s : State) (i : IslandId) (k : Fin 4) (a : AccSlot) : (s.setSlot i k a).x = s.x := rfl
@[simp] theorem State.setSlot_fab (s : State) (i : IslandId) (k : Fin 4) (a : AccSlot) : (s.setSlot i k a).fab = s.fab := rfl
@[simp] theorem State.setSlot_mem (s : State) (i : IslandId) (k : Fin 4) (a : AccSlot) : (s.setSlot i k a).mem = s.mem := rfl
@[simp] theorem State.setSlot_chan (s : State) (i : IslandId) (k : Fin 4) (a : AccSlot) : (s.setSlot i k a).chan = s.chan := rfl
@[simp] theorem State.setSlot_kern (s : State) (i : IslandId) (k : Fin 4) (a : AccSlot) : (s.setSlot i k a).kern = s.kern := rfl
@[simp] theorem State.setSlot_clk (s : State) (i : IslandId) (k : Fin 4) (a : AccSlot) : (s.setSlot i k a).clk = s.clk := rfl
@[simp] theorem State.setSlot_hub (s : State) (i : IslandId) (k : Fin 4) (a : AccSlot) : (s.setSlot i k a).hub = s.hub := rfl
@[simp] theorem State.setSlot_dbg (s : State) (i : IslandId) (k : Fin 4) (a : AccSlot) : (s.setSlot i k a).dbg = s.dbg := rfl
@[simp] theorem State.setSlot_tick (s : State) (i : IslandId) (k : Fin 4) (a : AccSlot) : (s.setSlot i k a).tick = s.tick := rfl
@[simp] theorem State.setSlot_free (s : State) (i : IslandId) (k : Fin 4) (a : AccSlot) : (s.setSlot i k a).free = s.free := rfl
@[simp] theorem State.setSlot_agenda (s : State) (i : IslandId) (k : Fin 4) (a : AccSlot) : (s.setSlot i k a).agenda = s.agenda := rfl
@[simp] theorem State.setSlot_arg (s : State) (i : IslandId) (k : Fin 4) (a : AccSlot) : (s.setSlot i k a).arg = s.arg := rfl

/-! ### The block at work -/

@[simp] theorem Flight.stage_active (x : Flight) (e : Fx) : (x.stage e).active = x.active := rfl
@[simp] theorem Flight.stage_who (x : Flight) (e : Fx) : (x.stage e).who = x.who := rfl
@[simp] theorem Flight.stage_rid (x : Flight) (e : Fx) : (x.stage e).rid = x.rid := rfl
@[simp] theorem Flight.stage_ctx (x : Flight) (e : Fx) : (x.stage e).ctx = x.ctx := rfl
@[simp] theorem Flight.stage_nlanes (x : Flight) (e : Fx) : (x.stage e).nlanes = x.nlanes := rfl
@[simp] theorem Flight.stage_nvregs (x : Flight) (e : Fx) : (x.stage e).nvregs = x.nvregs := rfl
@[simp] theorem Flight.stage_ntiles (x : Flight) (e : Fx) : (x.stage e).ntiles = x.ntiles := rfl
@[simp] theorem Flight.stage_pc (x : Flight) (e : Fx) : (x.stage e).pc = x.pc := rfl
@[simp] theorem Flight.stage_words (x : Flight) (e : Fx) : (x.stage e).words = x.words := rfl
@[simp] theorem Flight.stage_ninsnM1 (x : Flight) (e : Fx) : (x.stage e).ninsnM1 = x.ninsnM1 := rfl
@[simp] theorem Flight.stage_todo (x : Flight) (e : Fx) : (x.stage e).todo = x.todo := rfl
@[simp] theorem Flight.stage_idx (x : Flight) (e : Fx) : (x.stage e).idx = x.idx := rfl
@[simp] theorem Flight.stage_nextIdx (x : Flight) (e : Fx) : (x.stage e).nextIdx = x.nextIdx := rfl
@[simp] theorem Flight.stage_r0 (x : Flight) (e : Fx) : (x.stage e).r0 = x.r0 := rfl
@[simp] theorem Flight.stage_views (x : Flight) (e : Fx) : (x.stage e).views = x.views := rfl
@[simp] theorem Flight.stage_bars (x : Flight) (e : Fx) : (x.stage e).bars = x.bars := rfl
@[simp] theorem Flight.stage_srs (x : Flight) (e : Fx) : (x.stage e).srs = x.srs := rfl
@[simp] theorem Flight.stage_wait (x : Flight) (e : Fx) : (x.stage e).wait = x.wait := rfl
@[simp] theorem Flight.stage_tick (x : Flight) (e : Fx) : (x.stage e).tick = x.tick := rfl
@[simp] theorem Flight.stage_frame (x : Flight) (e : Fx) : (x.stage e).frame = x.frame := rfl
@[simp] theorem Flight.stage_evhead (x : Flight) (e : Fx) : (x.stage e).evhead = x.evhead := rfl
@[simp] theorem Flight.stage_maint (x : Flight) (e : Fx) : (x.stage e).maint = x.maint := rfl
@[simp] theorem Flight.stage_priv (x : Flight) (e : Fx) : (x.stage e).priv = x.priv := rfl
@[simp] theorem Flight.stage_part (x : Flight) (e : Fx) : (x.stage e).part = x.part := rfl
@[simp] theorem Flight.stage_victim (x : Flight) (e : Fx) : (x.stage e).victim = x.victim := rfl
@[simp] theorem Flight.stage_capst (x : Flight) (e : Fx) : (x.stage e).capst = x.capst := rfl
@[simp] theorem Flight.stage_capsz (x : Flight) (e : Fx) : (x.stage e).capsz = x.capsz := rfl
@[simp] theorem Flight.stage_capszOp (x : Flight) (e : Fx) : (x.stage e).capszOp = x.capszOp := rfl
@[simp] theorem Flight.stage_staged (x : Flight) (e : Fx) : (x.stage e).staged = x.staged := rfl
@[simp] theorem Flight.stage_grans (x : Flight) (e : Fx) : (x.stage e).grans = x.grans := rfl
@[simp] theorem Flight.stage_granFree (x : Flight) (e : Fx) : (x.stage e).granFree = x.granFree := rfl
@[simp] theorem Flight.stage_granOld (x : Flight) (e : Fx) : (x.stage e).granOld = x.granOld := rfl
@[simp] theorem Flight.stage_accs (x : Flight) (e : Fx) : (x.stage e).accs = x.accs := rfl
@[simp] theorem Flight.stage_exit (x : Flight) (e : Fx) : (x.stage e).exit = x.exit := rfl
@[simp] theorem Flight.stage_access (x : Flight) (e : Fx) : (x.stage e).access = x.access := rfl
@[simp] theorem Flight.stage_accIdx (x : Flight) (e : Fx) : (x.stage e).accIdx = x.accIdx := rfl
@[simp] theorem Flight.stage_fault (x : Flight) (e : Fx) : (x.stage e).fault = x.fault := rfl
@[simp] theorem Flight.stage_held (x : Flight) (e : Fx) : (x.stage e).held = x.held := rfl
@[simp] theorem Flight.stage_yield (x : Flight) (e : Fx) : (x.stage e).yield = x.yield := rfl
@[simp] theorem Flight.stage_entry (x : Flight) (e : Fx) : (x.stage e).entry = x.entry := rfl
@[simp] theorem Flight.stage_evres (x : Flight) (e : Fx) : (x.stage e).evres = x.evres := rfl
@[simp] theorem Flight.stage_issue (x : Flight) (e : Fx) : (x.stage e).issue = x.issue := rfl
@[simp] theorem Flight.stage_nonce (x : Flight) (e : Fx) : (x.stage e).nonce = x.nonce := rfl
@[simp] theorem Flight.stage_seen (x : Flight) (e : Fx) : (x.stage e).seen = x.seen := rfl
@[simp] theorem Flight.stage_reqs (x : Flight) (e : Fx) : (x.stage e).reqs = x.reqs := rfl
@[simp] theorem Flight.stage_first (x : Flight) (e : Fx) : (x.stage e).first = x.first := rfl
@[simp] theorem Flight.stage_again (x : Flight) (e : Fx) : (x.stage e).again = x.again := rfl
@[simp] theorem Flight.stage_r (x : Flight) (e : Fx) : (x.stage e).r = x.r := rfl
@[simp] theorem Flight.stage_late (x : Flight) (e : Fx) : (x.stage e).late = x.late := rfl
@[simp] theorem Flight.stage_fx (x : Flight) (e : Fx) : (x.stage e).fx = x.fx ++ [e] := rfl

@[simp] theorem Flight.wrS_active (x : Flight) (n : BitVec 6) (v : Word) : (x.wrS n v).active = x.active := rfl
@[simp] theorem Flight.wrS_who (x : Flight) (n : BitVec 6) (v : Word) : (x.wrS n v).who = x.who := rfl
@[simp] theorem Flight.wrS_rid (x : Flight) (n : BitVec 6) (v : Word) : (x.wrS n v).rid = x.rid := rfl
@[simp] theorem Flight.wrS_ctx (x : Flight) (n : BitVec 6) (v : Word) : (x.wrS n v).ctx = x.ctx := rfl
@[simp] theorem Flight.wrS_nlanes (x : Flight) (n : BitVec 6) (v : Word) : (x.wrS n v).nlanes = x.nlanes := rfl
@[simp] theorem Flight.wrS_nvregs (x : Flight) (n : BitVec 6) (v : Word) : (x.wrS n v).nvregs = x.nvregs := rfl
@[simp] theorem Flight.wrS_ntiles (x : Flight) (n : BitVec 6) (v : Word) : (x.wrS n v).ntiles = x.ntiles := rfl
@[simp] theorem Flight.wrS_pc (x : Flight) (n : BitVec 6) (v : Word) : (x.wrS n v).pc = x.pc := rfl
@[simp] theorem Flight.wrS_words (x : Flight) (n : BitVec 6) (v : Word) : (x.wrS n v).words = x.words := rfl
@[simp] theorem Flight.wrS_ninsnM1 (x : Flight) (n : BitVec 6) (v : Word) : (x.wrS n v).ninsnM1 = x.ninsnM1 := rfl
@[simp] theorem Flight.wrS_todo (x : Flight) (n : BitVec 6) (v : Word) : (x.wrS n v).todo = x.todo := rfl
@[simp] theorem Flight.wrS_idx (x : Flight) (n : BitVec 6) (v : Word) : (x.wrS n v).idx = x.idx := rfl
@[simp] theorem Flight.wrS_nextIdx (x : Flight) (n : BitVec 6) (v : Word) : (x.wrS n v).nextIdx = x.nextIdx := rfl
@[simp] theorem Flight.wrS_r0 (x : Flight) (n : BitVec 6) (v : Word) : (x.wrS n v).r0 = x.r0 := rfl
@[simp] theorem Flight.wrS_views (x : Flight) (n : BitVec 6) (v : Word) : (x.wrS n v).views = x.views := rfl
@[simp] theorem Flight.wrS_bars (x : Flight) (n : BitVec 6) (v : Word) : (x.wrS n v).bars = x.bars := rfl
@[simp] theorem Flight.wrS_srs (x : Flight) (n : BitVec 6) (v : Word) : (x.wrS n v).srs = x.srs := rfl
@[simp] theorem Flight.wrS_wait (x : Flight) (n : BitVec 6) (v : Word) : (x.wrS n v).wait = x.wait := rfl
@[simp] theorem Flight.wrS_tick (x : Flight) (n : BitVec 6) (v : Word) : (x.wrS n v).tick = x.tick := rfl
@[simp] theorem Flight.wrS_frame (x : Flight) (n : BitVec 6) (v : Word) : (x.wrS n v).frame = x.frame := rfl
@[simp] theorem Flight.wrS_evhead (x : Flight) (n : BitVec 6) (v : Word) : (x.wrS n v).evhead = x.evhead := rfl
@[simp] theorem Flight.wrS_maint (x : Flight) (n : BitVec 6) (v : Word) : (x.wrS n v).maint = x.maint := rfl
@[simp] theorem Flight.wrS_priv (x : Flight) (n : BitVec 6) (v : Word) : (x.wrS n v).priv = x.priv := rfl
@[simp] theorem Flight.wrS_part (x : Flight) (n : BitVec 6) (v : Word) : (x.wrS n v).part = x.part := rfl
@[simp] theorem Flight.wrS_victim (x : Flight) (n : BitVec 6) (v : Word) : (x.wrS n v).victim = x.victim := rfl
@[simp] theorem Flight.wrS_capst (x : Flight) (n : BitVec 6) (v : Word) : (x.wrS n v).capst = x.capst := rfl
@[simp] theorem Flight.wrS_capsz (x : Flight) (n : BitVec 6) (v : Word) : (x.wrS n v).capsz = x.capsz := rfl
@[simp] theorem Flight.wrS_capszOp (x : Flight) (n : BitVec 6) (v : Word) : (x.wrS n v).capszOp = x.capszOp := rfl
@[simp] theorem Flight.wrS_staged (x : Flight) (n : BitVec 6) (v : Word) : (x.wrS n v).staged = x.staged := rfl
@[simp] theorem Flight.wrS_grans (x : Flight) (n : BitVec 6) (v : Word) : (x.wrS n v).grans = x.grans := rfl
@[simp] theorem Flight.wrS_granFree (x : Flight) (n : BitVec 6) (v : Word) : (x.wrS n v).granFree = x.granFree := rfl
@[simp] theorem Flight.wrS_granOld (x : Flight) (n : BitVec 6) (v : Word) : (x.wrS n v).granOld = x.granOld := rfl
@[simp] theorem Flight.wrS_accs (x : Flight) (n : BitVec 6) (v : Word) : (x.wrS n v).accs = x.accs := rfl
@[simp] theorem Flight.wrS_exit (x : Flight) (n : BitVec 6) (v : Word) : (x.wrS n v).exit = x.exit := rfl
@[simp] theorem Flight.wrS_access (x : Flight) (n : BitVec 6) (v : Word) : (x.wrS n v).access = x.access := rfl
@[simp] theorem Flight.wrS_accIdx (x : Flight) (n : BitVec 6) (v : Word) : (x.wrS n v).accIdx = x.accIdx := rfl
@[simp] theorem Flight.wrS_fault (x : Flight) (n : BitVec 6) (v : Word) : (x.wrS n v).fault = x.fault := rfl
@[simp] theorem Flight.wrS_held (x : Flight) (n : BitVec 6) (v : Word) : (x.wrS n v).held = x.held := rfl
@[simp] theorem Flight.wrS_yield (x : Flight) (n : BitVec 6) (v : Word) : (x.wrS n v).yield = x.yield := rfl
@[simp] theorem Flight.wrS_entry (x : Flight) (n : BitVec 6) (v : Word) : (x.wrS n v).entry = x.entry := rfl
@[simp] theorem Flight.wrS_evres (x : Flight) (n : BitVec 6) (v : Word) : (x.wrS n v).evres = x.evres := rfl
@[simp] theorem Flight.wrS_issue (x : Flight) (n : BitVec 6) (v : Word) : (x.wrS n v).issue = x.issue := rfl
@[simp] theorem Flight.wrS_nonce (x : Flight) (n : BitVec 6) (v : Word) : (x.wrS n v).nonce = x.nonce := rfl
@[simp] theorem Flight.wrS_seen (x : Flight) (n : BitVec 6) (v : Word) : (x.wrS n v).seen = x.seen := rfl
@[simp] theorem Flight.wrS_reqs (x : Flight) (n : BitVec 6) (v : Word) : (x.wrS n v).reqs = x.reqs := rfl
@[simp] theorem Flight.wrS_first (x : Flight) (n : BitVec 6) (v : Word) : (x.wrS n v).first = x.first := rfl
@[simp] theorem Flight.wrS_again (x : Flight) (n : BitVec 6) (v : Word) : (x.wrS n v).again = x.again := rfl
@[simp] theorem Flight.wrS_fx (x : Flight) (n : BitVec 6) (v : Word) : (x.wrS n v).fx = x.fx := rfl
@[simp] theorem Flight.wrS_r (x : Flight) (n : BitVec 6) (v : Word) : (x.wrS n v).r = x.r.wrS n v := rfl
@[simp] theorem Flight.wrS_late (x : Flight) (n : BitVec 6) (v : Word) : (x.wrS n v).late = x.late := rfl

@[simp] theorem Flight.flag_active (x : Flight) (e : BitVec 5) : (x.flag e).active = x.active := rfl
@[simp] theorem Flight.flag_who (x : Flight) (e : BitVec 5) : (x.flag e).who = x.who := rfl
@[simp] theorem Flight.flag_rid (x : Flight) (e : BitVec 5) : (x.flag e).rid = x.rid := rfl
@[simp] theorem Flight.flag_ctx (x : Flight) (e : BitVec 5) : (x.flag e).ctx = x.ctx := rfl
@[simp] theorem Flight.flag_nlanes (x : Flight) (e : BitVec 5) : (x.flag e).nlanes = x.nlanes := rfl
@[simp] theorem Flight.flag_nvregs (x : Flight) (e : BitVec 5) : (x.flag e).nvregs = x.nvregs := rfl
@[simp] theorem Flight.flag_ntiles (x : Flight) (e : BitVec 5) : (x.flag e).ntiles = x.ntiles := rfl
@[simp] theorem Flight.flag_pc (x : Flight) (e : BitVec 5) : (x.flag e).pc = x.pc := rfl
@[simp] theorem Flight.flag_words (x : Flight) (e : BitVec 5) : (x.flag e).words = x.words := rfl
@[simp] theorem Flight.flag_ninsnM1 (x : Flight) (e : BitVec 5) : (x.flag e).ninsnM1 = x.ninsnM1 := rfl
@[simp] theorem Flight.flag_todo (x : Flight) (e : BitVec 5) : (x.flag e).todo = x.todo := rfl
@[simp] theorem Flight.flag_idx (x : Flight) (e : BitVec 5) : (x.flag e).idx = x.idx := rfl
@[simp] theorem Flight.flag_nextIdx (x : Flight) (e : BitVec 5) : (x.flag e).nextIdx = x.nextIdx := rfl
@[simp] theorem Flight.flag_r0 (x : Flight) (e : BitVec 5) : (x.flag e).r0 = x.r0 := rfl
@[simp] theorem Flight.flag_views (x : Flight) (e : BitVec 5) : (x.flag e).views = x.views := rfl
@[simp] theorem Flight.flag_bars (x : Flight) (e : BitVec 5) : (x.flag e).bars = x.bars := rfl
@[simp] theorem Flight.flag_srs (x : Flight) (e : BitVec 5) : (x.flag e).srs = x.srs := rfl
@[simp] theorem Flight.flag_wait (x : Flight) (e : BitVec 5) : (x.flag e).wait = x.wait := rfl
@[simp] theorem Flight.flag_tick (x : Flight) (e : BitVec 5) : (x.flag e).tick = x.tick := rfl
@[simp] theorem Flight.flag_frame (x : Flight) (e : BitVec 5) : (x.flag e).frame = x.frame := rfl
@[simp] theorem Flight.flag_evhead (x : Flight) (e : BitVec 5) : (x.flag e).evhead = x.evhead := rfl
@[simp] theorem Flight.flag_maint (x : Flight) (e : BitVec 5) : (x.flag e).maint = x.maint := rfl
@[simp] theorem Flight.flag_priv (x : Flight) (e : BitVec 5) : (x.flag e).priv = x.priv := rfl
@[simp] theorem Flight.flag_part (x : Flight) (e : BitVec 5) : (x.flag e).part = x.part := rfl
@[simp] theorem Flight.flag_victim (x : Flight) (e : BitVec 5) : (x.flag e).victim = x.victim := rfl
@[simp] theorem Flight.flag_capst (x : Flight) (e : BitVec 5) : (x.flag e).capst = x.capst := rfl
@[simp] theorem Flight.flag_capsz (x : Flight) (e : BitVec 5) : (x.flag e).capsz = x.capsz := rfl
@[simp] theorem Flight.flag_capszOp (x : Flight) (e : BitVec 5) : (x.flag e).capszOp = x.capszOp := rfl
@[simp] theorem Flight.flag_staged (x : Flight) (e : BitVec 5) : (x.flag e).staged = x.staged := rfl
@[simp] theorem Flight.flag_grans (x : Flight) (e : BitVec 5) : (x.flag e).grans = x.grans := rfl
@[simp] theorem Flight.flag_granFree (x : Flight) (e : BitVec 5) : (x.flag e).granFree = x.granFree := rfl
@[simp] theorem Flight.flag_granOld (x : Flight) (e : BitVec 5) : (x.flag e).granOld = x.granOld := rfl
@[simp] theorem Flight.flag_accs (x : Flight) (e : BitVec 5) : (x.flag e).accs = x.accs := rfl
@[simp] theorem Flight.flag_exit (x : Flight) (e : BitVec 5) : (x.flag e).exit = x.exit := rfl
@[simp] theorem Flight.flag_access (x : Flight) (e : BitVec 5) : (x.flag e).access = x.access := rfl
@[simp] theorem Flight.flag_accIdx (x : Flight) (e : BitVec 5) : (x.flag e).accIdx = x.accIdx := rfl
@[simp] theorem Flight.flag_fault (x : Flight) (e : BitVec 5) : (x.flag e).fault = x.fault := rfl
@[simp] theorem Flight.flag_held (x : Flight) (e : BitVec 5) : (x.flag e).held = x.held := rfl
@[simp] theorem Flight.flag_yield (x : Flight) (e : BitVec 5) : (x.flag e).yield = x.yield := rfl
@[simp] theorem Flight.flag_entry (x : Flight) (e : BitVec 5) : (x.flag e).entry = x.entry := rfl
@[simp] theorem Flight.flag_evres (x : Flight) (e : BitVec 5) : (x.flag e).evres = x.evres := rfl
@[simp] theorem Flight.flag_issue (x : Flight) (e : BitVec 5) : (x.flag e).issue = x.issue := rfl
@[simp] theorem Flight.flag_nonce (x : Flight) (e : BitVec 5) : (x.flag e).nonce = x.nonce := rfl
@[simp] theorem Flight.flag_seen (x : Flight) (e : BitVec 5) : (x.flag e).seen = x.seen := rfl
@[simp] theorem Flight.flag_reqs (x : Flight) (e : BitVec 5) : (x.flag e).reqs = x.reqs := rfl
@[simp] theorem Flight.flag_first (x : Flight) (e : BitVec 5) : (x.flag e).first = x.first := rfl
@[simp] theorem Flight.flag_again (x : Flight) (e : BitVec 5) : (x.flag e).again = x.again := rfl
@[simp] theorem Flight.flag_fx (x : Flight) (e : BitVec 5) : (x.flag e).fx = x.fx := rfl
@[simp] theorem Flight.flag_late (x : Flight) (e : BitVec 5) : (x.flag e).late = x.late := rfl
@[simp] theorem Flight.flag_r (x : Flight) (e : BitVec 5) : (x.flag e).r = x.r.raiseFlags e := rfl

end Sys2Proof.Machine
end

