-- ==== Sys2Proof/Laws/Ops.lean ====
section
/-!
SUPPORT. What each shared operation does, said once: guards, registers, a fault in a block, looking up a unit after it is
replaced, records, interrupts, and taking a fault with the return from it.
-/
set_option Elab.async false

namespace Sys2Proof.Machine

/-! ### Guards (R69) -/

theorem act_next (s : State) (x : Flight) : act s x = .next (s.setX x) := rfl

@[simp] theorem setX_self (s : State) : s.setX s.x = s := rfl

theorem Flight.scalarAct_on {x : Flight} {g : Guard} (h : x.on0 g = true) (f : Flight → Flight) :
    x.scalarAct g f = f x := by simp [Flight.scalarAct, h]

theorem Flight.scalarAct_off {x : Flight} {g : Guard} (h : x.on0 g = false) (f : Flight → Flight) :
    x.scalarAct g f = x := by simp [Flight.scalarAct, h]

theorem Flight.laneAct_off {x : Flight} {g : Guard} (h : x.guard g = 0) (f : BitVec 128 → Flight → Flight) :
    x.laneAct g f = x := by simp [Flight.laneAct, h]

theorem Flight.laneAct_on {x : Flight} {g : Guard} (h : x.guard g ≠ 0) (f : BitVec 128 → Flight → Flight) :
    x.laneAct g f = f (x.guard g) x := by
  unfold Flight.laneAct; exact if_neg h

theorem Flight.on0_of_guard_zero {x : Flight} {g : Guard} (h : x.guard g = 0) : x.on0 g = false := by
  simp [Flight.on0, h]

/-! ### Registers (R49, R65, R77) -/

@[simp] theorem Regs.rdS_zero (r : Regs) : r.rdS 0 = 0 := rfl

@[simp] theorem Regs.wrS_zero (r : Regs) (v : Word) : r.wrS 0 v = r := rfl

theorem Regs.rdS_wrS_self (r : Regs) {n : BitVec 6} (h : n ≠ 0) (v : Word) : (r.wrS n v).rdS n = v := by
  rw [Regs.rdS, if_neg h]
  simp only [Regs.wrS, if_neg h, Vector.getElem_set_self]

theorem Regs.rdS_wrS_ne (r : Regs) {n k : BitVec 6} (h : k ≠ n) (v : Word) : (r.wrS n v).rdS k = r.rdS k := by
  have hn : n.toNat ≠ k.toNat := fun e => h (BitVec.eq_of_toNat_eq e.symm)
  by_cases h0 : n = 0
  · rw [h0, Regs.wrS_zero]
  · by_cases hk : k = 0
    · rw [hk, Regs.rdS_zero, Regs.rdS_zero]
    · rw [Regs.rdS, Regs.rdS, if_neg hk, if_neg hk]
      simp only [Regs.wrS, if_neg h0]
      exact Vector.getElem_set_ne _ _ hn

@[simp] theorem Regs.rdP_15 (r : Regs) (lanes : Nat) : r.rdP lanes 15 = laneMask lanes := rfl

@[simp] theorem Regs.wrP_15 (r : Regs) (lanes : Nat) (v : BitVec 128) : r.wrP lanes 15 v = r := rfl

/-! ### A fault in the block (R53) -/

theorem Flight.fail_first {x : Flight} (h : x.fault = none) (f : FaultInfo) :
    x.fail f = { x with fault := some { f with block := x.pc.setWidth 56, index := x.idx } } := by
  simp [Flight.fail, h]

theorem Flight.fail_later {x : Flight} {g : FaultInfo} (h : x.fault = some g) (f : FaultInfo) : x.fail f = x := by
  simp [Flight.fail, h]

@[simp] theorem Flight.fail_active (x : Flight) (f : FaultInfo) : (x.fail f).active = x.active := by
  unfold Flight.fail; split <;> rfl

@[simp] theorem Flight.fail_who (x : Flight) (f : FaultInfo) : (x.fail f).who = x.who := by
  unfold Flight.fail; split <;> rfl

@[simp] theorem Flight.fail_rid (x : Flight) (f : FaultInfo) : (x.fail f).rid = x.rid := by
  unfold Flight.fail; split <;> rfl

@[simp] theorem Flight.fail_ctx (x : Flight) (f : FaultInfo) : (x.fail f).ctx = x.ctx := by
  unfold Flight.fail; split <;> rfl

@[simp] theorem Flight.fail_nlanes (x : Flight) (f : FaultInfo) : (x.fail f).nlanes = x.nlanes := by
  unfold Flight.fail; split <;> rfl

@[simp] theorem Flight.fail_pc (x : Flight) (f : FaultInfo) : (x.fail f).pc = x.pc := by
  unfold Flight.fail; split <;> rfl

@[simp] theorem Flight.fail_words (x : Flight) (f : FaultInfo) : (x.fail f).words = x.words := by
  unfold Flight.fail; split <;> rfl

@[simp] theorem Flight.fail_todo (x : Flight) (f : FaultInfo) : (x.fail f).todo = x.todo := by
  unfold Flight.fail; split <;> rfl

@[simp] theorem Flight.fail_idx (x : Flight) (f : FaultInfo) : (x.fail f).idx = x.idx := by
  unfold Flight.fail; split <;> rfl

@[simp] theorem Flight.fail_nextIdx (x : Flight) (f : FaultInfo) : (x.fail f).nextIdx = x.nextIdx := by
  unfold Flight.fail; split <;> rfl

@[simp] theorem Flight.fail_r0 (x : Flight) (f : FaultInfo) : (x.fail f).r0 = x.r0 := by
  unfold Flight.fail; split <;> rfl

@[simp] theorem Flight.fail_r (x : Flight) (f : FaultInfo) : (x.fail f).r = x.r := by
  unfold Flight.fail; split <;> rfl

@[simp] theorem Flight.fail_fx (x : Flight) (f : FaultInfo) : (x.fail f).fx = x.fx := by
  unfold Flight.fail; split <;> rfl

@[simp] theorem Flight.fail_staged (x : Flight) (f : FaultInfo) : (x.fail f).staged = x.staged := by
  unfold Flight.fail; split <;> rfl

@[simp] theorem Flight.fail_exit (x : Flight) (f : FaultInfo) : (x.fail f).exit = x.exit := by
  unfold Flight.fail; split <;> rfl

@[simp] theorem Flight.fail_access (x : Flight) (f : FaultInfo) : (x.fail f).access = x.access := by
  unfold Flight.fail; split <;> rfl

@[simp] theorem Flight.fail_views (x : Flight) (f : FaultInfo) : (x.fail f).views = x.views := by
  unfold Flight.fail; split <;> rfl

/-- Staged stores add to what the block staged before, or fault PHASE_FULL with nothing staged (R183). -/
theorem Flight.store_staged (x : Flight) (sp : BitVec 3) (as : List Nat) (cells : List Host.Cell) :
    (x.store sp as cells).staged = x.staged ∨ (x.store sp as cells).staged = cells.reverse ++ x.staged := by
  unfold Flight.store
  split
  · exact .inr rfl
  · dsimp only
    split
    · exact .inl (Flight.fail_staged ..)
    · exact .inr rfl

/-! ### Looking up what has been replaced -/

theorem find?_modFirst_self {α : Type} {p : α → Bool} {f : α → α} (hf : ∀ a, p (f a) = p a) (l : List α) :
    (modFirst p f l).find? p = (l.find? p).map f := by
  induction l with
  | nil => rfl
  | cons a l ih =>
    by_cases h : p a = true
    · simp [modFirst, h, hf]
    · simp [modFirst, h, ih]

theorem find?_modFirst_other {α : Type} {p q : α → Bool} {f : α → α} (hf : ∀ a, q (f a) = q a)
    (h : ∀ a, p a = true → q a = false) (l : List α) : (modFirst p f l).find? q = l.find? q := by
  induction l with
  | nil => rfl
  | cons a l ih =>
    by_cases hp : p a = true
    · simp [modFirst, hp, hf, h a hp]
    · simp [modFirst, hp, List.find?_cons, ih]

theorem State.region_modRegion {s : State} {rid : Nat} {f : Region → Region} (hf : ∀ r, (f r).rid = r.rid) :
    (s.modRegion rid f).region rid = (s.region rid).map f :=
  find?_modFirst_self (fun r => by simp [hf]) _

theorem State.region_modRegion_ne {s : State} {rid n : Nat} {f : Region → Region} (hf : ∀ r, (f r).rid = r.rid)
    (h : n ≠ rid) : (s.modRegion rid f).region n = s.region n :=
  find?_modFirst_other (fun r => by simp [hf]) (fun r hr => by simp_all [Ne.symm]) _

theorem State.gang_modGang {s : State} {q : Seq} {f : Gang → Gang} (hf : ∀ g, (f g).seq = g.seq) :
    (s.modGang q f).gang q = (s.gang q).map f :=
  find?_modFirst_self (fun g => by simp [hf]) _

theorem State.gang_modGang_ne {s : State} {q k : Seq} {f : Gang → Gang} (hf : ∀ g, (f g).seq = g.seq) (h : k ≠ q) :
    (s.modGang q f).gang k = s.gang k :=
  find?_modFirst_other (fun g => by simp [hf]) (fun g hg => by simp_all [Ne.symm]) _

theorem State.ring_modRing {s : State} {q : RingId} {f : Ring → Ring} (hf : ∀ r, (f r).id = r.id) :
    (s.modRing q f).ring q = (s.ring q).map f :=
  find?_modFirst_self (fun r => by simp [hf]) _

theorem State.ring_modRing_ne {s : State} {q k : RingId} {f : Ring → Ring} (hf : ∀ r, (f r).id = r.id) (h : k ≠ q) :
    (s.modRing q f).ring k = s.ring k :=
  find?_modFirst_other (fun r => by simp [hf]) (fun r hr => by simp_all [Ne.symm]) _

/-- A queue changed, written before or not (R323). -/
theorem State.queueAt_modQueue {s : State} {q : BitVec 11} {f : Queue → Queue} (hf : ∀ r, (f r).num = r.num) :
    (s.modQueue q f).queueAt q = f (s.queueAt q) := by
  simp only [State.queueAt, State.queue, State.modQueue]
  split
  · rename_i h
    rw [find?_modFirst_self (fun r => by simp [hf])]
    cases hq : s.hub.queues.find? (·.num == q) with
    | none =>
      obtain ⟨x, hx, hn⟩ := List.any_eq_true.mp h
      exact absurd hn (by simpa using List.find?_eq_none.mp hq x hx)
    | some r => rfl
  · rename_i h
    have hq : s.hub.queues.find? (·.num == q) = none := by simpa using h
    simp [hf, hq, Queue.blank]

theorem State.queueAt_modQueue_ne {s : State} {q k : BitVec 11} {f : Queue → Queue} (hf : ∀ r, (f r).num = r.num)
    (h : k ≠ q) : (s.modQueue q f).queueAt k = s.queueAt k := by
  simp only [State.queueAt, State.queue, State.modQueue]
  split
  · rw [find?_modFirst_other (fun r => by simp [hf]) (fun r hr => by simp_all [Ne.symm])]
  · simp [hf, Queue.blank, Ne.symm h]

theorem State.job_modJob {s : State} {n : Nat} {f : Job → Job} (hf : ∀ j, (f j).num = j.num) :
    (s.modJob n f).job n = (s.job n).map f :=
  find?_modFirst_self (fun j => by simp [hf]) _

theorem find?_filter_ne {α β : Type} [DecidableEq β] (k : α → β) {a b : β} (h : b ≠ a) (l : List α) :
    (l.filter (k · != a)).find? (k · == b) = l.find? (k · == b) := by
  induction l with
  | nil => rfl
  | cons e l ih =>
    by_cases he : k e = a
    · have hb : (k e == b) = false := by simpa [he] using h.symm
      rw [List.filter_cons_of_neg (by simp [he]), List.find?_cons, hb, ih]
    · rw [List.filter_cons_of_pos (by simp [he]), List.find?_cons, List.find?_cons, ih]

theorem State.ctx_num (s : State) (c : BitVec 12) : (s.ctx c).num = c := by
  unfold State.ctx
  cases h : s.hub.ctxs.find? (·.num == c) with
  | none => rfl
  | some d => simpa using List.find?_some h

theorem State.ctx_setCtx {s : State} {d : Ctx} : (s.setCtx d).ctx d.num = d := by
  simp [State.ctx, State.setCtx]

theorem State.ctx_setCtx_of {s : State} {d : Ctx} {c : BitVec 12} (h : d.num = c) : (s.setCtx d).ctx c = d :=
  h ▸ State.ctx_setCtx

theorem State.ctx_setCtx_ne {s : State} {d : Ctx} {c : BitVec 12} (h : c ≠ d.num) : (s.setCtx d).ctx c = s.ctx c := by
  have := find?_filter_ne (·.num) h s.hub.ctxs
  simp [State.ctx, State.setCtx, Ne.symm h, this]

theorem State.island_key (s : State) (k : IslandKey) : (s.island k).key = k := by
  unfold State.island
  cases h : s.clk.islands.find? (·.key == k) with
  | none => rfl
  | some d => simpa using List.find?_some h

theorem State.island_setIsland {s : State} {i : Island} : (s.setIsland i).island i.key = i := by
  simp [State.island, State.setIsland]

theorem State.island_setIsland_ne {s : State} {i : Island} {k : IslandKey} (h : k ≠ i.key) :
    (s.setIsland i).island k = s.island k := by
  have := find?_filter_ne (·.key) h s.clk.islands
  simp [State.island, State.setIsland, Ne.symm h, this]

theorem State.mat_isl (s : State) (i : IslandId) : (s.mat i).isl = i := by
  unfold State.mat
  cases h : s.eng.mats.find? (·.isl == i) with
  | none => rfl
  | some d => simpa using List.find?_some h

theorem State.mat_setMat {s : State} {m : MatIsland} : (s.setMat m).mat m.isl = m := by
  simp [State.mat, State.setMat]

theorem State.mat_setMat_ne {s : State} {m : MatIsland} {i : IslandId} (h : i ≠ m.isl) : (s.setMat m).mat i = s.mat i := by
  have := find?_filter_ne (·.isl) h s.eng.mats
  simp [State.mat, State.setMat, Ne.symm h, this]

theorem State.die_modDie {s : State} {d : Fin 4} {f : Die → Die} : (s.modDie d f).die d = f (s.die d) := by
  simp [State.die, State.modDie]

theorem State.die_modDie_ne {s : State} {d e : Fin 4} {f : Die → Die} (h : e ≠ d) : (s.modDie d f).die e = s.die e := by
  have : d.val ≠ e.val := fun he => h (Fin.ext he.symm)
  simp [State.die, State.modDie, this]

/-! ### Records, interrupts and the fabric -/

@[simp] theorem State.record_x (s : State) (u : BitVec 20) (c : Option (BitVec 12)) (cat code strand : Nat)
    (p : List Byte) (late : Bool) : (s.record u c cat code strand p late).x = s.x := by
  unfold State.record
  extract_lets cap
  split
  · rfl
  · split <;> rfl

@[simp] theorem State.record_fab (s : State) (u : BitVec 20) (c : Option (BitVec 12)) (cat code strand : Nat)
    (p : List Byte) (late : Bool) : (s.record u c cat code strand p late).fab = s.fab := by
  unfold State.record
  extract_lets cap
  split
  · rfl
  · split <;> rfl

@[simp] theorem State.record_mem (s : State) (u : BitVec 20) (c : Option (BitVec 12)) (cat code strand : Nat)
    (p : List Byte) (late : Bool) : (s.record u c cat code strand p late).mem = s.mem := by
  unfold State.record
  extract_lets cap
  split
  · rfl
  · split <;> rfl

@[simp] theorem State.record_chan (s : State) (u : BitVec 20) (c : Option (BitVec 12)) (cat code strand : Nat)
    (p : List Byte) (late : Bool) : (s.record u c cat code strand p late).chan = s.chan := by
  unfold State.record
  extract_lets cap
  split
  · rfl
  · split <;> rfl

@[simp] theorem State.record_eng (s : State) (u : BitVec 20) (c : Option (BitVec 12)) (cat code strand : Nat)
    (p : List Byte) (late : Bool) : (s.record u c cat code strand p late).eng = s.eng := by
  unfold State.record
  extract_lets cap
  split
  · rfl
  · split <;> rfl

@[simp] theorem State.record_kern (s : State) (u : BitVec 20) (c : Option (BitVec 12)) (cat code strand : Nat)
    (p : List Byte) (late : Bool) : (s.record u c cat code strand p late).kern = s.kern := by
  unfold State.record
  extract_lets cap
  split
  · rfl
  · split <;> rfl

@[simp] theorem State.record_clk (s : State) (u : BitVec 20) (c : Option (BitVec 12)) (cat code strand : Nat)
    (p : List Byte) (late : Bool) : (s.record u c cat code strand p late).clk = s.clk := by
  unfold State.record
  extract_lets cap
  split
  · rfl
  · split <;> rfl

@[simp] theorem State.record_hub (s : State) (u : BitVec 20) (c : Option (BitVec 12)) (cat code strand : Nat)
    (p : List Byte) (late : Bool) : (s.record u c cat code strand p late).hub = s.hub := by
  unfold State.record
  extract_lets cap
  split
  · rfl
  · split <;> rfl

@[simp] theorem State.record_tick (s : State) (u : BitVec 20) (c : Option (BitVec 12)) (cat code strand : Nat)
    (p : List Byte) (late : Bool) : (s.record u c cat code strand p late).tick = s.tick := by
  unfold State.record
  extract_lets cap
  split
  · rfl
  · split <;> rfl

@[simp] theorem State.record_free (s : State) (u : BitVec 20) (c : Option (BitVec 12)) (cat code strand : Nat)
    (p : List Byte) (late : Bool) : (s.record u c cat code strand p late).free = s.free := by
  unfold State.record
  extract_lets cap
  split
  · rfl
  · split <;> rfl

@[simp] theorem State.record_agenda (s : State) (u : BitVec 20) (c : Option (BitVec 12)) (cat code strand : Nat)
    (p : List Byte) (late : Bool) : (s.record u c cat code strand p late).agenda = s.agenda := by
  unfold State.record
  extract_lets cap
  split
  · rfl
  · split <;> rfl

@[simp] theorem State.record_arg (s : State) (u : BitVec 20) (c : Option (BitVec 12)) (cat code strand : Nat)
    (p : List Byte) (late : Bool) : (s.record u c cat code strand p late).arg = s.arg := by
  unfold State.record
  extract_lets cap
  split
  · rfl
  · split <;> rfl

@[simp] theorem State.tryVector_x (s : State) (v : IntVec) : (s.tryVector v).x = s.x := by
  unfold State.tryVector
  extract_lets cnt
  split <;> rfl

@[simp] theorem State.interrupt_x (s : State) (p : BitVec 5) (n : Byte) : (s.interrupt p n).x = s.x :=
  State.tryVector_x ..

@[simp] theorem State.tryVector_fab (s : State) (v : IntVec) : (s.tryVector v).fab = s.fab := by
  unfold State.tryVector
  extract_lets cnt
  split <;> rfl

@[simp] theorem State.interrupt_fab (s : State) (p : BitVec 5) (n : Byte) : (s.interrupt p n).fab = s.fab :=
  State.tryVector_fab ..

@[simp] theorem State.tryVector_mem (s : State) (v : IntVec) : (s.tryVector v).mem = s.mem := by
  unfold State.tryVector
  extract_lets cnt
  split <;> rfl

@[simp] theorem State.interrupt_mem (s : State) (p : BitVec 5) (n : Byte) : (s.interrupt p n).mem = s.mem :=
  State.tryVector_mem ..

@[simp] theorem State.tryVector_chan (s : State) (v : IntVec) : (s.tryVector v).chan = s.chan := by
  unfold State.tryVector
  extract_lets cnt
  split <;> rfl

@[simp] theorem State.interrupt_chan (s : State) (p : BitVec 5) (n : Byte) : (s.interrupt p n).chan = s.chan :=
  State.tryVector_chan ..

@[simp] theorem State.tryVector_eng (s : State) (v : IntVec) : (s.tryVector v).eng = s.eng := by
  unfold State.tryVector
  extract_lets cnt
  split <;> rfl

@[simp] theorem State.interrupt_eng (s : State) (p : BitVec 5) (n : Byte) : (s.interrupt p n).eng = s.eng :=
  State.tryVector_eng ..

@[simp] theorem State.tryVector_kern (s : State) (v : IntVec) : (s.tryVector v).kern = s.kern := by
  unfold State.tryVector
  extract_lets cnt
  split <;> rfl

@[simp] theorem State.interrupt_kern (s : State) (p : BitVec 5) (n : Byte) : (s.interrupt p n).kern = s.kern :=
  State.tryVector_kern ..

@[simp] theorem State.tryVector_clk (s : State) (v : IntVec) : (s.tryVector v).clk = s.clk := by
  unfold State.tryVector
  extract_lets cnt
  split <;> rfl

@[simp] theorem State.interrupt_clk (s : State) (p : BitVec 5) (n : Byte) : (s.interrupt p n).clk = s.clk :=
  State.tryVector_clk ..

@[simp] theorem State.tryVector_dbg (s : State) (v : IntVec) : (s.tryVector v).dbg = s.dbg := by
  unfold State.tryVector
  extract_lets cnt
  split <;> rfl

@[simp] theorem State.interrupt_dbg (s : State) (p : BitVec 5) (n : Byte) : (s.interrupt p n).dbg = s.dbg :=
  State.tryVector_dbg ..

@[simp] theorem State.tryVector_tick (s : State) (v : IntVec) : (s.tryVector v).tick = s.tick := by
  unfold State.tryVector
  extract_lets cnt
  split <;> rfl

@[simp] theorem State.interrupt_tick (s : State) (p : BitVec 5) (n : Byte) : (s.interrupt p n).tick = s.tick :=
  State.tryVector_tick ..

@[simp] theorem State.tryVector_free (s : State) (v : IntVec) : (s.tryVector v).free = s.free := by
  unfold State.tryVector
  extract_lets cnt
  split <;> rfl

@[simp] theorem State.interrupt_free (s : State) (p : BitVec 5) (n : Byte) : (s.interrupt p n).free = s.free :=
  State.tryVector_free ..

@[simp] theorem State.tryVector_agenda (s : State) (v : IntVec) : (s.tryVector v).agenda = s.agenda := by
  unfold State.tryVector
  extract_lets cnt
  split <;> rfl

@[simp] theorem State.interrupt_agenda (s : State) (p : BitVec 5) (n : Byte) : (s.interrupt p n).agenda = s.agenda :=
  State.tryVector_agenda ..

@[simp] theorem State.tryVector_arg (s : State) (v : IntVec) : (s.tryVector v).arg = s.arg := by
  unfold State.tryVector
  extract_lets cnt
  split <;> rfl

@[simp] theorem State.interrupt_arg (s : State) (p : BitVec 5) (n : Byte) : (s.interrupt p n).arg = s.arg :=
  State.tryVector_arg ..

@[simp] theorem State.tryVector_queues (s : State) (v : IntVec) : (s.tryVector v).hub.queues = s.hub.queues := by
  unfold State.tryVector
  extract_lets cnt
  split <;> rfl

@[simp] theorem State.interrupt_queues (s : State) (p : BitVec 5) (n : Byte) :
    (s.interrupt p n).hub.queues = s.hub.queues := State.tryVector_queues ..

@[simp] theorem State.tryVector_ctxs (s : State) (v : IntVec) : (s.tryVector v).hub.ctxs = s.hub.ctxs := by
  unfold State.tryVector
  extract_lets cnt
  split <;> rfl

@[simp] theorem State.interrupt_ctxs (s : State) (p : BitVec 5) (n : Byte) :
    (s.interrupt p n).hub.ctxs = s.hub.ctxs := State.tryVector_ctxs ..

@[simp] theorem State.tryVector_parts (s : State) (v : IntVec) : (s.tryVector v).hub.parts = s.hub.parts := by
  unfold State.tryVector
  extract_lets cnt
  split <;> rfl

@[simp] theorem State.interrupt_parts (s : State) (p : BitVec 5) (n : Byte) :
    (s.interrupt p n).hub.parts = s.hub.parts := State.tryVector_parts ..

@[simp] theorem State.tryVector_subs (s : State) (v : IntVec) : (s.tryVector v).hub.subs = s.hub.subs := by
  unfold State.tryVector
  extract_lets cnt
  split <;> rfl

@[simp] theorem State.interrupt_subs (s : State) (p : BitVec 5) (n : Byte) :
    (s.interrupt p n).hub.subs = s.hub.subs := State.tryVector_subs ..

@[simp] theorem State.tryVector_ports (s : State) (v : IntVec) : (s.tryVector v).hub.ports = s.hub.ports := by
  unfold State.tryVector
  extract_lets cnt
  split <;> rfl

@[simp] theorem State.interrupt_ports (s : State) (p : BitVec 5) (n : Byte) :
    (s.interrupt p n).hub.ports = s.hub.ports := State.tryVector_ports ..

@[simp] theorem State.tryVector_windows (s : State) (v : IntVec) : (s.tryVector v).hub.windows = s.hub.windows := by
  unfold State.tryVector
  extract_lets cnt
  split <;> rfl

@[simp] theorem State.interrupt_windows (s : State) (p : BitVec 5) (n : Byte) :
    (s.interrupt p n).hub.windows = s.hub.windows := State.tryVector_windows ..

@[simp] theorem State.tryVector_pending (s : State) (v : IntVec) : (s.tryVector v).hub.pending = s.hub.pending := by
  unfold State.tryVector
  extract_lets cnt
  split <;> rfl

@[simp] theorem State.interrupt_pending (s : State) (p : BitVec 5) (n : Byte) :
    (s.interrupt p n).hub.pending = s.hub.pending := State.tryVector_pending ..

@[simp] theorem State.tryVector_tickets (s : State) (v : IntVec) : (s.tryVector v).hub.tickets = s.hub.tickets := by
  unfold State.tryVector
  extract_lets cnt
  split <;> rfl

@[simp] theorem State.interrupt_tickets (s : State) (p : BitVec 5) (n : Byte) :
    (s.interrupt p n).hub.tickets = s.hub.tickets := State.tryVector_tickets ..

@[simp] theorem State.tryVector_launches (s : State) (v : IntVec) : (s.tryVector v).hub.launches = s.hub.launches := by
  unfold State.tryVector
  extract_lets cnt
  split <;> rfl

@[simp] theorem State.interrupt_launches (s : State) (p : BitVec 5) (n : Byte) :
    (s.interrupt p n).hub.launches = s.hub.launches := State.tryVector_launches ..

@[simp] theorem State.tryVector_nextLaunch (s : State) (v : IntVec) : (s.tryVector v).hub.nextLaunch = s.hub.nextLaunch := by
  unfold State.tryVector
  extract_lets cnt
  split <;> rfl

@[simp] theorem State.interrupt_nextLaunch (s : State) (p : BitVec 5) (n : Byte) :
    (s.interrupt p n).hub.nextLaunch = s.hub.nextLaunch := State.tryVector_nextLaunch ..

@[simp] theorem State.tryVector_nextRid (s : State) (v : IntVec) : (s.tryVector v).hub.nextRid = s.hub.nextRid := by
  unfold State.tryVector
  extract_lets cnt
  split <;> rfl

@[simp] theorem State.interrupt_nextRid (s : State) (p : BitVec 5) (n : Byte) :
    (s.interrupt p n).hub.nextRid = s.hub.nextRid := State.tryVector_nextRid ..

@[simp] theorem State.tryVector_remote (s : State) (v : IntVec) : (s.tryVector v).hub.remote = s.hub.remote := by
  unfold State.tryVector
  extract_lets cnt
  split <;> rfl

@[simp] theorem State.interrupt_remote (s : State) (p : BitVec 5) (n : Byte) :
    (s.interrupt p n).hub.remote = s.hub.remote := State.tryVector_remote ..

@[simp] theorem State.tryVector_xsts (s : State) (v : IntVec) : (s.tryVector v).hub.xsts = s.hub.xsts := by
  unfold State.tryVector
  extract_lets cnt
  split <;> rfl

@[simp] theorem State.interrupt_xsts (s : State) (p : BitVec 5) (n : Byte) :
    (s.interrupt p n).hub.xsts = s.hub.xsts := State.tryVector_xsts ..

@[simp] theorem State.tryVector_nextReq (s : State) (v : IntVec) : (s.tryVector v).hub.nextReq = s.hub.nextReq := by
  unfold State.tryVector
  extract_lets cnt
  split <;> rfl

@[simp] theorem State.interrupt_nextReq (s : State) (p : BitVec 5) (n : Byte) :
    (s.interrupt p n).hub.nextReq = s.hub.nextReq := State.tryVector_nextReq ..

@[simp] theorem State.tryVector_pages (s : State) (v : IntVec) : (s.tryVector v).hub.pages = s.hub.pages := by
  unfold State.tryVector
  extract_lets cnt
  split <;> rfl

@[simp] theorem State.interrupt_pages (s : State) (p : BitVec 5) (n : Byte) :
    (s.interrupt p n).hub.pages = s.hub.pages := State.tryVector_pages ..

@[simp] theorem State.tryVector_errors (s : State) (v : IntVec) : (s.tryVector v).hub.errors = s.hub.errors := by
  unfold State.tryVector
  extract_lets cnt
  split <;> rfl

@[simp] theorem State.interrupt_errors (s : State) (p : BitVec 5) (n : Byte) :
    (s.interrupt p n).hub.errors = s.hub.errors := State.tryVector_errors ..

@[simp] theorem State.tryVector_waiting (s : State) (v : IntVec) : (s.tryVector v).hub.waiting = s.hub.waiting := by
  unfold State.tryVector
  extract_lets cnt
  split <;> rfl

@[simp] theorem State.interrupt_waiting (s : State) (p : BitVec 5) (n : Byte) :
    (s.interrupt p n).hub.waiting = s.hub.waiting := State.tryVector_waiting ..

@[simp] theorem State.tryVector_boot (s : State) (v : IntVec) : (s.tryVector v).hub.boot = s.hub.boot := by
  unfold State.tryVector
  extract_lets cnt
  split <;> rfl

@[simp] theorem State.interrupt_boot (s : State) (p : BitVec 5) (n : Byte) :
    (s.interrupt p n).hub.boot = s.hub.boot := State.tryVector_boot ..

@[simp] theorem State.tryVector_pwrcfg (s : State) (v : IntVec) : (s.tryVector v).hub.pwrcfg = s.hub.pwrcfg := by
  unfold State.tryVector
  extract_lets cnt
  split <;> rfl

@[simp] theorem State.interrupt_pwrcfg (s : State) (p : BitVec 5) (n : Byte) :
    (s.interrupt p n).hub.pwrcfg = s.hub.pwrcfg := State.tryVector_pwrcfg ..

@[simp] theorem State.tryVector_pwrnext (s : State) (v : IntVec) : (s.tryVector v).hub.pwrnext = s.hub.pwrnext := by
  unfold State.tryVector
  extract_lets cnt
  split <;> rfl

@[simp] theorem State.interrupt_pwrnext (s : State) (p : BitVec 5) (n : Byte) :
    (s.interrupt p n).hub.pwrnext = s.hub.pwrnext := State.tryVector_pwrnext ..

@[simp] theorem State.toFabric_x (s : State) (l : List Host.Cell) : (s.toFabric l).x = s.x := by
  unfold State.toFabric
  extract_lets out
  split <;> rfl

@[simp] theorem State.put_x (s : State) (by_ : Place) (scope : BitVec 4) (l : List Host.Cell) :
    (s.put by_ scope l).x = s.x := by simp [State.put]

@[simp] theorem State.toFabric_fab (s : State) (l : List Host.Cell) : (s.toFabric l).fab = s.fab := by
  unfold State.toFabric
  extract_lets out
  split <;> rfl

@[simp] theorem State.put_fab (s : State) (by_ : Place) (scope : BitVec 4) (l : List Host.Cell) :
    (s.put by_ scope l).fab = s.fab := by simp [State.put]

@[simp] theorem State.toFabric_chan (s : State) (l : List Host.Cell) : (s.toFabric l).chan = s.chan := by
  unfold State.toFabric
  extract_lets out
  split <;> rfl

@[simp] theorem State.put_chan (s : State) (by_ : Place) (scope : BitVec 4) (l : List Host.Cell) :
    (s.put by_ scope l).chan = s.chan := by simp [State.put]

@[simp] theorem State.toFabric_eng (s : State) (l : List Host.Cell) : (s.toFabric l).eng = s.eng := by
  unfold State.toFabric
  extract_lets out
  split <;> rfl

@[simp] theorem State.put_eng (s : State) (by_ : Place) (scope : BitVec 4) (l : List Host.Cell) :
    (s.put by_ scope l).eng = s.eng := by simp [State.put]

@[simp] theorem State.toFabric_kern (s : State) (l : List Host.Cell) : (s.toFabric l).kern = s.kern := by
  unfold State.toFabric
  extract_lets out
  split <;> rfl

@[simp] theorem State.put_kern (s : State) (by_ : Place) (scope : BitVec 4) (l : List Host.Cell) :
    (s.put by_ scope l).kern = s.kern := by simp [State.put]

@[simp] theorem State.toFabric_clk (s : State) (l : List Host.Cell) : (s.toFabric l).clk = s.clk := by
  unfold State.toFabric
  extract_lets out
  split <;> rfl

@[simp] theorem State.put_clk (s : State) (by_ : Place) (scope : BitVec 4) (l : List Host.Cell) :
    (s.put by_ scope l).clk = s.clk := by simp [State.put]

@[simp] theorem State.toFabric_dbg (s : State) (l : List Host.Cell) : (s.toFabric l).dbg = s.dbg := by
  unfold State.toFabric
  extract_lets out
  split <;> rfl

@[simp] theorem State.put_dbg (s : State) (by_ : Place) (scope : BitVec 4) (l : List Host.Cell) :
    (s.put by_ scope l).dbg = s.dbg := by simp [State.put]

@[simp] theorem State.toFabric_tick (s : State) (l : List Host.Cell) : (s.toFabric l).tick = s.tick := by
  unfold State.toFabric
  extract_lets out
  split <;> rfl

@[simp] theorem State.put_tick (s : State) (by_ : Place) (scope : BitVec 4) (l : List Host.Cell) :
    (s.put by_ scope l).tick = s.tick := by simp [State.put]

@[simp] theorem State.toFabric_free (s : State) (l : List Host.Cell) : (s.toFabric l).free = s.free := by
  unfold State.toFabric
  extract_lets out
  split <;> rfl

@[simp] theorem State.put_free (s : State) (by_ : Place) (scope : BitVec 4) (l : List Host.Cell) :
    (s.put by_ scope l).free = s.free := by simp [State.put]

@[simp] theorem State.toFabric_agenda (s : State) (l : List Host.Cell) : (s.toFabric l).agenda = s.agenda := by
  unfold State.toFabric
  extract_lets out
  split <;> rfl

@[simp] theorem State.put_agenda (s : State) (by_ : Place) (scope : BitVec 4) (l : List Host.Cell) :
    (s.put by_ scope l).agenda = s.agenda := by simp [State.put]

@[simp] theorem State.toFabric_arg (s : State) (l : List Host.Cell) : (s.toFabric l).arg = s.arg := by
  unfold State.toFabric
  extract_lets out
  split <;> rfl

@[simp] theorem State.put_arg (s : State) (by_ : Place) (scope : BitVec 4) (l : List Host.Cell) :
    (s.put by_ scope l).arg = s.arg := by simp [State.put]

@[simp] theorem State.put_queues (s : State) (by_ : Place) (scope : BitVec 4) (l : List Host.Cell) :
    (s.put by_ scope l).hub.queues = s.hub.queues := by
  unfold State.put State.toFabric
  extract_lets _
  split <;> rfl

@[simp] theorem State.put_ctxs (s : State) (by_ : Place) (scope : BitVec 4) (l : List Host.Cell) :
    (s.put by_ scope l).hub.ctxs = s.hub.ctxs := by
  unfold State.put State.toFabric
  extract_lets _
  split <;> rfl

@[simp] theorem State.put_parts (s : State) (by_ : Place) (scope : BitVec 4) (l : List Host.Cell) :
    (s.put by_ scope l).hub.parts = s.hub.parts := by
  unfold State.put State.toFabric
  extract_lets _
  split <;> rfl

@[simp] theorem State.put_vectors (s : State) (by_ : Place) (scope : BitVec 4) (l : List Host.Cell) :
    (s.put by_ scope l).hub.vectors = s.hub.vectors := by
  unfold State.put State.toFabric
  extract_lets _
  split <;> rfl

@[simp] theorem State.put_subs (s : State) (by_ : Place) (scope : BitVec 4) (l : List Host.Cell) :
    (s.put by_ scope l).hub.subs = s.hub.subs := by
  unfold State.put State.toFabric
  extract_lets _
  split <;> rfl

@[simp] theorem State.put_ports (s : State) (by_ : Place) (scope : BitVec 4) (l : List Host.Cell) :
    (s.put by_ scope l).hub.ports = s.hub.ports := by
  unfold State.put State.toFabric
  extract_lets _
  split <;> rfl

@[simp] theorem State.put_windows (s : State) (by_ : Place) (scope : BitVec 4) (l : List Host.Cell) :
    (s.put by_ scope l).hub.windows = s.hub.windows := by
  unfold State.put State.toFabric
  extract_lets _
  split <;> rfl

@[simp] theorem State.put_pending (s : State) (by_ : Place) (scope : BitVec 4) (l : List Host.Cell) :
    (s.put by_ scope l).hub.pending = s.hub.pending := by
  unfold State.put State.toFabric
  extract_lets _
  split <;> rfl

@[simp] theorem State.put_launches (s : State) (by_ : Place) (scope : BitVec 4) (l : List Host.Cell) :
    (s.put by_ scope l).hub.launches = s.hub.launches := by
  unfold State.put State.toFabric
  extract_lets _
  split <;> rfl

@[simp] theorem State.put_remote (s : State) (by_ : Place) (scope : BitVec 4) (l : List Host.Cell) :
    (s.put by_ scope l).hub.remote = s.hub.remote := by
  unfold State.put State.toFabric
  extract_lets _
  split <;> rfl

@[simp] theorem State.put_xsts (s : State) (by_ : Place) (scope : BitVec 4) (l : List Host.Cell) :
    (s.put by_ scope l).hub.xsts = s.hub.xsts := by
  unfold State.put State.toFabric
  extract_lets _
  split <;> rfl

@[simp] theorem State.put_pages (s : State) (by_ : Place) (scope : BitVec 4) (l : List Host.Cell) :
    (s.put by_ scope l).hub.pages = s.hub.pages := by
  unfold State.put State.toFabric
  extract_lets _
  split <;> rfl

@[simp] theorem State.put_errors (s : State) (by_ : Place) (scope : BitVec 4) (l : List Host.Cell) :
    (s.put by_ scope l).hub.errors = s.hub.errors := by
  unfold State.put State.toFabric
  extract_lets _
  split <;> rfl

@[simp] theorem State.put_waiting (s : State) (by_ : Place) (scope : BitVec 4) (l : List Host.Cell) :
    (s.put by_ scope l).hub.waiting = s.hub.waiting := by
  unfold State.put State.toFabric
  extract_lets _
  split <;> rfl

@[simp] theorem State.put_boot (s : State) (by_ : Place) (scope : BitVec 4) (l : List Host.Cell) :
    (s.put by_ scope l).hub.boot = s.hub.boot := by
  unfold State.put State.toFabric
  extract_lets _
  split <;> rfl

/-! ### The hub's writes and fault records (R343) -/

/-- Whether two states differ in memory, the page unit and what leaves over the fabric alone. -/
def SameButMemory (s t : State) : Prop :=
  t.x = s.x ∧ t.fab = s.fab ∧ t.chan = s.chan ∧ t.eng = s.eng ∧ t.kern = s.kern ∧ t.clk = s.clk ∧ t.dbg = s.dbg ∧
    t.tick = s.tick ∧ t.hub.ctxs = s.hub.ctxs ∧ t.hub.queues = s.hub.queues

theorem SameButMemory.trans {s t u : State} (h : SameButMemory s t) (k : SameButMemory t u) : SameButMemory s u := by
  simp_all [SameButMemory]

theorem State.put_same (s : State) (by_ : Place) (scope : BitVec 4) (l : List Host.Cell) :
    SameButMemory s (s.put by_ scope l) := by simp [SameButMemory]

theorem State.markPage_same (s : State) (die : Fin 4) (c : BitVec 12) (e va : Nat) (d : Bool) :
    SameButMemory s (s.markPage die c e va d) := by
  unfold State.markPage
  extract_lets old new u w base size
  have hu : SameButMemory s u := by
    simp only [u]
    split
    · simp [SameButMemory]
    · exact State.put_same ..
  split <;> exact hu

theorem State.hubWrite_same {s t : State} {c : BitVec 12} {va : Nat} {bs : List Byte} (e : s.hubWrite c va bs = some t) :
    SameButMemory s t := by
  unfold State.hubWrite at e
  extract_lets hs at e
  split at e
  · cases e
  · cases e
    exact (State.hubMark_keeps (P := SameButMemory s) (fun v _ _ _ hv => hv.trans (State.markPage_same v ..))
      (by simp [SameButMemory]) ..).trans (State.put_same ..)

/-- A fault record appended: FQTAIL advances; gangs, regions, rings, jobs and clocks stay. -/
theorem State.appendFault_some {s t : State} {c : BitVec 12} {recd : List Byte} (e : s.appendFault c recd = some t) :
    t.x = s.x ∧ t.fab = s.fab ∧ t.chan = s.chan ∧ t.eng = s.eng ∧ t.kern = s.kern ∧ t.clk = s.clk ∧ t.dbg = s.dbg ∧
      t.tick = s.tick ∧ t.ctx c = { s.ctx c with fqtail := (s.ctx c).fqtail + 1 } := by
  unfold State.appendFault at e
  extract_lets d at e
  split at e
  · cases e
  · split at e
    · cases e
    · rename_i u hu
      have hf := hubWrite_same hu
      simp only [SameButMemory] at hf
      have e := (Option.some.inj e).symm
      subst e
      have hc : ∀ v : State, (v.interrupt d.part d.fiv).ctx c = v.ctx c := fun v => by simp [State.ctx]
      have hs := State.ctx_setCtx_of (s := u) (d := { d with fqtail := d.fqtail + 1 }) (s.ctx_num c)
      split
      · simpa [hf] using (hc _).trans hs
      · simpa [hf] using hs

/-- A frozen region resumed returns to the state it had (R344). -/
theorem State.resumeRegion_region {s : State} {rid : Nat} {r : Region} (h : s.region rid = some r)
    (hf : r.state = .frozen) :
    (s.resumeRegion rid).region rid = some { r with state := r.before, firstFault := none } := by
  unfold State.resumeRegion
  rw [State.region_modRegion (fun r => by split <;> rfl), h]
  simp [hf]

end Sys2Proof.Machine
end

