-- ==== Sys2Proof/Safety.lean ====
section
/-!
DEFINITION. What counts as a safe run, in the terms the statements use.
-/
namespace Sys2Proof

/-- A step that answers a next state. -/
def Completes (s : Machine.State) : Prop := ∃ s', Machine.step s = .next s'

/-- A run that no step stops: after any number of steps the machine stands in a next state. -/
def RunsOn (s : Machine.State) : Prop :=
  ∀ k, ∃ s', Host.Core.run ⟨Machine.State, Machine.Fault, Machine.Refusal, Machine.step,
    Machine.State.reset⟩ k s = .next s'

end Sys2Proof
end

