-- ==== Sys2Proof/Tests/Slice0.lean ====
section
/-!
SUPPORT. Tests of the model against the spec: what the well-formedness checks refuse, the words of every instruction, one
step of instructions on small states with results worked out by hand from the spec's rules, and for each statement about
every state a concrete state and operands that meet all its hypotheses.
-/
set_option Elab.async false

namespace Sys2Proof.Tests

open Sys2Proof.Machine Sys2Proof.Claims

/-- Unguarded. -/
def full : Guard := ⟨15, false⟩

/-! ### Well-formedness: one ill-formed term for each check, refused -/

/-- A row that has no words. -/
theorem test_wf_refuses_event : Instr.blockCommit.wf = false := by decide

/-- The guard that is the negation of p15 (R58). -/
theorem test_wf_refuses_guard : (Instr.nop ⟨⟨15, true⟩, 0, 0, 0, 0, 0⟩).wf = false := by decide

/-- A field that the entry does not define: ADD with MOD 1 (R75). -/
theorem test_wf_refuses_field :
    (Instr.add ⟨full, .reg 1, .reg 2, .reg 3, .reg 0, 1, .raw, none⟩).wf = false ∧
    (Instr.add ⟨full, .reg 1, .reg 2, .reg 3, .reg 0, 0, .raw, none⟩).wf = true := by decide

/-- A literal that no source claims, and a source that claims one that is not there (R47). -/
theorem test_wf_refuses_literal :
    (Instr.add ⟨full, .reg 1, .reg 2, .reg 3, .reg 0, 0, .raw, some 7⟩).wf = false ∧
    (Instr.add ⟨full, .reg 1, .reg 2, .lit, .reg 0, 0, .raw, none⟩).wf = false := by decide

/-- h31 as a source (R65). -/
theorem test_wf_refuses_h31 :
    (Instr.vadd ⟨full, .reg 1, .ring 31 0, .reg 3, .reg 0, 0, .fp32, none⟩).wf = false ∧
    (Instr.rflush ⟨full, 1, 0, 0, 31, 0, 0, 0⟩).wf = false := by decide

/-! ### Small states and what a step leaves -/

/-- A strand of a gang of eight lanes with a block of one instruction at work. -/
def base : State := { State.reset with x := { Flight.idle with
  active := true, nlanes := 8, nvregs := 64, ntiles := 8, words := 1, r0 := Regs.launch 8, r := Regs.launch 8
  granFree := 64 } }

/-- The state with other registers. -/
def withR (s : State) (f : Regs → Regs) : State := s.setX { s.x with r := f s.x.r }

/-- Scalars that hold values. -/
def holding (l : List (BitVec 6 × Word)) : State := base.setX (l.foldl (fun x p => x.wrS p.1 p.2) base.x)

/-- A vector register of eight lanes whose words are all the same. -/
def splat (f : Fmt) (w : Lane) : VReg := ⟨List.replicate 8 w, f, [0x7f, 0x7f]⟩

/-- Vector registers that hold one word in every lane. -/
def vholding (l : List (BitVec 6 × Fmt × Lane)) : State :=
  withR base fun r => l.foldl (fun r p => r.wrV p.1 (splat p.2.1 p.2.2)) r

/-- A scalar after a step. -/
def sAfter (o : Out) (n : BitVec 6) : Option Word := match o with | .next s => some (s.x.rdS n) | _ => none

/-- Lane 0 of a vector register after a step. -/
def lAfter (o : Out) (n : BitVec 6) : Option Lane := match o with | .next s => (s.x.r.rdV n).lanes[0]? | _ => none

/-- FFLAGS after a step. -/
def flAfter (o : Out) : Option (BitVec 5) := match o with | .next s => some s.x.r.fflags | _ => none

/-- A property of the next state. -/
def thenNext (o : Out) (p : State → Bool) : Bool := match o with | .next s => p s | _ => false

/-- The fault code that the block holds after a step. -/
def faultAfter (o : Out) : Option FaultCode := match o with | .next s => s.x.fault.map (·.code) | _ => none

/-- An instruction on registers 2, 3 and 4 into register 1. -/
def on3 (f : Fmt) (m : BitVec 4) : VInsn := ⟨full, .reg 1, .reg 2, .reg 3, .reg 4, m, f, none⟩
@[inherit_doc on3] def on2 (f : Fmt) (m : BitVec 4) : VInsn := ⟨full, .reg 1, .reg 2, .reg 3, .reg 0, m, f, none⟩
@[inherit_doc on3] def on1 (f : Fmt) (m : BitVec 4) : VInsn := ⟨full, .reg 1, .reg 2, .reg 0, .reg 0, m, f, none⟩

/-- Entries of page tables in memory. -/
def withTables (s : State) (l : List (Nat × Nat)) : State :=
  { s with mem := { s.mem with cells := l.foldl (fun m p => smWrite 0 m p.1 (leBytes 8 p.2)) s.mem.cells } }

/-- Context 0, whose tables stand at HBM address 0x200000, maps the 64 GiB at virtual address 0 to HBM address 0, with
every permission, marked, by the leaf entry at 0x202000, which the page unit of die 0 holds (R355 to R357). -/
def mapped (s : State) : State :=
  let leaf : Word := 0x20000000000000ff
  let s := withTables s [(0x200000, 0x202001), (0x202000, leaf.toNat)]
  { s with
    hub := { s.hub with
      ctxs := { s.ctx 0 with num := 0, ptroot := 0x200000 } :: s.hub.ctxs.filter (·.num != 0)
      pages := { s.hub.pages with tlb := [⟨0, 0, 0, 2, leaf, 0x202000⟩] } } }

/-! ### Decoding (R59 to R64, R72)

One word of every instruction, its opcode from R72's map and each field at the bits that its format gives it, guarded by
the negation of p6. -/

theorem test_decodes_scalar_1 :
    decodeTableWord 64 0x00b4244894000018 = some (.add ⟨⟨6, true⟩, .reg 9, .reg 18, .reg 37, .reg 0, 0, .raw, none⟩) ∧
    decodeTableWord 64 0x0134244bf4000010 = some (.sub ⟨⟨6, true⟩, .reg 9, .reg 18, .imm 61, .reg 0, 0, .int32, none⟩) ∧
    decodeTableWord 64 0x01b4244894000011 = some (.mul ⟨⟨6, true⟩, .reg 9, .reg 18, .reg 37, .reg 0, 0, .uint32, none⟩) ∧
    decodeTableWord 64 0x0234244bf4000018 = some (.mulh ⟨⟨6, true⟩, .reg 9, .reg 18, .imm 61, .reg 0, 0, .raw, none⟩) ∧
    decodeTableWord 64 0x02b4244894000010 = some (.mulhu ⟨⟨6, true⟩, .reg 9, .reg 18, .reg 37, .reg 0, 0, .int32, none⟩) ∧
    decodeTableWord 64 0x0334244bf4000011 = some (.div ⟨⟨6, true⟩, .reg 9, .reg 18, .imm 61, .reg 0, 0, .uint32, none⟩) ∧
    decodeTableWord 64 0x03b4244894000018 = some (.divu ⟨⟨6, true⟩, .reg 9, .reg 18, .reg 37, .reg 0, 0, .raw, none⟩) ∧
    decodeTableWord 64 0x0434244bf4000010 = some (.rem ⟨⟨6, true⟩, .reg 9, .reg 18, .imm 61, .reg 0, 0, .int32, none⟩) ∧
    decodeTableWord 64 0x04b4244894000011 = some (.remu ⟨⟨6, true⟩, .reg 9, .reg 18, .reg 37, .reg 0, 0, .uint32, none⟩) ∧
    decodeTableWord 64 0x0534244bf4000018 = some (.and ⟨⟨6, true⟩, .reg 9, .reg 18, .imm 61, .reg 0, 0, .raw, none⟩) ∧
    decodeTableWord 64 0x05b4244894000010 = some (.or ⟨⟨6, true⟩, .reg 9, .reg 18, .reg 37, .reg 0, 0, .int32, none⟩) ∧
    decodeTableWord 64 0x0634244bf4000011 = some (.xor ⟨⟨6, true⟩, .reg 9, .reg 18, .imm 61, .reg 0, 0, .uint32, none⟩) := by decide

theorem test_decodes_scalar_2 :
    decodeTableWord 64 0x06b4244894000018 = some (.andn ⟨⟨6, true⟩, .reg 9, .reg 18, .reg 37, .reg 0, 0, .raw, none⟩) ∧
    decodeTableWord 64 0x0734244bf4000010 = some (.shl ⟨⟨6, true⟩, .reg 9, .reg 18, .imm 61, .reg 0, 0, .int32, none⟩) ∧
    decodeTableWord 64 0x07b4244894000011 = some (.shr ⟨⟨6, true⟩, .reg 9, .reg 18, .reg 37, .reg 0, 0, .uint32, none⟩) ∧
    decodeTableWord 64 0x0834244bf4000018 = some (.sar ⟨⟨6, true⟩, .reg 9, .reg 18, .imm 61, .reg 0, 0, .raw, none⟩) ∧
    decodeTableWord 64 0x08b4244894000010 = some (.rol ⟨⟨6, true⟩, .reg 9, .reg 18, .reg 37, .reg 0, 0, .int32, none⟩) ∧
    decodeTableWord 64 0x0934244bf4000011 = some (.ror ⟨⟨6, true⟩, .reg 9, .reg 18, .imm 61, .reg 0, 0, .uint32, none⟩) ∧
    decodeTableWord 64 0x09b4244894000018 = some (.min ⟨⟨6, true⟩, .reg 9, .reg 18, .reg 37, .reg 0, 0, .raw, none⟩) ∧
    decodeTableWord 64 0x0a34244bf4000010 = some (.max ⟨⟨6, true⟩, .reg 9, .reg 18, .imm 61, .reg 0, 0, .int32, none⟩) ∧
    decodeTableWord 64 0x0ab4244894000011 = some (.minu ⟨⟨6, true⟩, .reg 9, .reg 18, .reg 37, .reg 0, 0, .uint32, none⟩) ∧
    decodeTableWord 64 0x0b34244bf4000018 = some (.maxu ⟨⟨6, true⟩, .reg 9, .reg 18, .imm 61, .reg 0, 0, .raw, none⟩) ∧
    decodeTableWord 64 0x0bb4244800000018 = some (.abs ⟨⟨6, true⟩, .reg 9, .reg 18, .reg 0, .reg 0, 0, .raw, none⟩) ∧
    decodeTableWord 64 0x0c34244800000018 = some (.neg ⟨⟨6, true⟩, .reg 9, .reg 18, .reg 0, .reg 0, 0, .raw, none⟩) := by decide

theorem test_decodes_scalar_3 :
    decodeTableWord 64 0x0cb4244800000018 = some (.clz ⟨⟨6, true⟩, .reg 9, .reg 18, .reg 0, .reg 0, 0, .raw, none⟩) ∧
    decodeTableWord 64 0x0d34244800000018 = some (.ctz ⟨⟨6, true⟩, .reg 9, .reg 18, .reg 0, .reg 0, 0, .raw, none⟩) ∧
    decodeTableWord 64 0x0db4244800000018 = some (.popc ⟨⟨6, true⟩, .reg 9, .reg 18, .reg 0, .reg 0, 0, .raw, none⟩) ∧
    decodeTableWord 64 0x0e34244800000018 = some (.brev ⟨⟨6, true⟩, .reg 9, .reg 18, .reg 0, .reg 0, 0, .raw, none⟩) ∧
    decodeTableWord 64 0x0eb4244800000018 = some (.bswap ⟨⟨6, true⟩, .reg 9, .reg 18, .reg 0, .reg 0, 0, .raw, none⟩) ∧
    decodeTableWord 64 0x0f34244b20000018 = some (.sext ⟨⟨6, true⟩, .reg 9, .reg 18, .imm 8, .reg 0, 0, .raw, none⟩) ∧
    decodeTableWord 64 0x0fb4244b20000018 = some (.zext ⟨⟨6, true⟩, .reg 9, .reg 18, .imm 8, .reg 0, 0, .raw, none⟩) ∧
    decodeTableWord 64 0x1034244894c80011 = some (.bfx ⟨⟨6, true⟩, .reg 9, .reg 18, .reg 37, .reg 50, 0, .uint32, none⟩) ∧
    decodeTableWord 64 0x10b4244894c80011 = some (.bfxu ⟨⟨6, true⟩, .reg 9, .reg 18, .reg 37, .reg 50, 0, .uint32, none⟩) ∧
    decodeTableWord 64 0x1134244894c80011 = some (.bfi ⟨⟨6, true⟩, .reg 9, .reg 18, .reg 37, .reg 50, 0, .uint32, none⟩) ∧
    decodeTableWord 64 0x11b4244894c80011 = some (.mad ⟨⟨6, true⟩, .reg 9, .reg 18, .reg 37, .reg 50, 0, .uint32, none⟩) ∧
    decodeTableWord 64 0x1234244894000178 = some (.addx ⟨⟨6, true⟩, .reg 9, .reg 18, .reg 37, .reg 0, 11, .raw, none⟩) := by decide

theorem test_decodes_scalar_4 :
    decodeTableWord 64 0x12b4244894340010 = some (.sel ⟨⟨6, true⟩, .reg 9, .reg 18, .reg 37, .reg 13, 0, .int32, none⟩) ∧
    decodeTableWord 64 0x1335795400018018 = some (.mov ⟨⟨6, true⟩, .push 30, .ring 21 3, .reg 0, .reg 0, 0, .raw, none⟩) ∧
    decodeTableWord 128 0x0123456789abcdef13b4260000000058 = some (.movl ⟨⟨6, true⟩, .reg 9, .lit, .reg 0, .reg 0, 2, .raw, some 0x123456789abcdef⟩) ∧
    decodeTableWord 64 0x14362c48940000b8 = some (.cmp ⟨⟨6, true⟩, .alt 11, .reg 18, .reg 37, .reg 0, 5, .raw, none⟩) ∧
    decodeTableWord 64 0x14b62c48940000b8 = some (.cmpu ⟨⟨6, true⟩, .alt 11, .reg 18, .reg 37, .reg 0, 5, .raw, none⟩) ∧
    decodeTableWord 64 0x15362c2418000018 = some (.pand ⟨⟨6, true⟩, .alt 11, .reg 9, .reg 6, .reg 0, 0, .raw, none⟩) ∧
    decodeTableWord 64 0x15b62c2418000018 = some (.por ⟨⟨6, true⟩, .alt 11, .reg 9, .reg 6, .reg 0, 0, .raw, none⟩) ∧
    decodeTableWord 64 0x16362c2418000018 = some (.pxor ⟨⟨6, true⟩, .alt 11, .reg 9, .reg 6, .reg 0, 0, .raw, none⟩) ∧
    decodeTableWord 64 0x16b62c2400000018 = some (.pnot ⟨⟨6, true⟩, .alt 11, .reg 9, .reg 0, .reg 0, 0, .raw, none⟩) ∧
    decodeTableWord 64 0x1734a42400000098 = some (.pmov ⟨⟨6, true⟩, .reg 41, .reg 9, .reg 0, .reg 0, 4, .raw, none⟩) := by decide

theorem test_decodes_control_1 :
    decodeTableWord 64 0x20340000fffffff9 = some (.br ⟨⟨6, true⟩, 0, 0, 0, 0, 4294967289⟩) ∧
    decodeTableWord 64 0x20b4996100000003 = some (.brc ⟨⟨6, true⟩, 9, 37, 2, 1, 3⟩) ∧
    decodeTableWord 64 0x2134900000000003 = some (.call ⟨⟨6, true⟩, 9, 0, 0, 0, 3⟩) ∧
    decodeTableWord 64 0x21b4900000000000 = some (.ret ⟨⟨6, true⟩, 9, 0, 0, 0, 0⟩) ∧
    decodeTableWord 64 0x2234994000000000 = some (.jmpi ⟨⟨6, true⟩, 9, 37, 0, 0, 0⟩) ∧
    decodeTableWord 64 0x22b4900200000003 = some (.loop ⟨⟨6, true⟩, 9, 0, 0, 2, 3⟩) ∧
    decodeTableWord 64 0x2334995200000003 = some (.loopx ⟨⟨6, true⟩, 9, 37, 1, 2, 3⟩) ∧
    decodeTableWord 64 0x23b4000000000000 = some (.endStrand ⟨⟨6, true⟩, 0, 0, 0, 0, 0⟩) ∧
    decodeTableWord 64 0x2434000000000000 = some (.yield ⟨⟨6, true⟩, 0, 0, 0, 0, 0⟩) ∧
    decodeTableWord 64 0x24b4000000000000 = some (.nop ⟨⟨6, true⟩, 0, 0, 0, 0, 0⟩) := by decide

theorem test_decodes_vector_1 :
    decodeTableWord 64 0x4034244954005000 = some (.vadd ⟨⟨6, true⟩, .reg 9, .reg 18, .ring 21 5, .reg 0, 0, .fp32, none⟩) ∧
    decodeTableWord 64 0x40b4244954005042 = some (.vsub ⟨⟨6, true⟩, .reg 9, .reg 18, .ring 21 5, .reg 0, 2, .bf16, none⟩) ∧
    decodeTableWord 64 0x4134244954005083 = some (.vmul ⟨⟨6, true⟩, .reg 9, .reg 18, .ring 21 5, .reg 0, 4, .fp16, none⟩) ∧
    decodeTableWord 64 0x48b42449540050c0 = some (.vrcpn ⟨⟨6, true⟩, .reg 9, .reg 18, .ring 21 5, .reg 0, 6, .fp32, none⟩) ∧
    decodeTableWord 64 0x4934244954005102 = some (.vrsqn ⟨⟨6, true⟩, .reg 9, .reg 18, .ring 21 5, .reg 0, 8, .bf16, none⟩) ∧
    decodeTableWord 64 0x4c34244954005003 = some (.vdiv ⟨⟨6, true⟩, .reg 9, .reg 18, .ring 21 5, .reg 0, 0, .fp16, none⟩) ∧
    decodeTableWord 64 0x41b42448955404c0 = some (.vfma ⟨⟨6, true⟩, .reg 9, .reg 18, .reg 37, .ring 21 2, 6, .fp32, none⟩) ∧
    decodeTableWord 64 0x42342448955404c0 = some (.vfms ⟨⟨6, true⟩, .reg 9, .reg 18, .reg 37, .ring 21 2, 6, .fp32, none⟩) ∧
    decodeTableWord 64 0x42b42448955404c0 = some (.vfnma ⟨⟨6, true⟩, .reg 9, .reg 18, .reg 37, .ring 21 2, 6, .fp32, none⟩) ∧
    decodeTableWord 64 0x4334244894000020 = some (.vmin ⟨⟨6, true⟩, .reg 9, .reg 18, .reg 37, .reg 0, 1, .fp32, none⟩) ∧
    decodeTableWord 64 0x43b4244894000020 = some (.vmax ⟨⟨6, true⟩, .reg 9, .reg 18, .reg 37, .reg 0, 1, .fp32, none⟩) ∧
    decodeTableWord 64 0x44351c4800000003 = some (.vabs ⟨⟨6, true⟩, .push 7, .reg 18, .reg 0, .reg 0, 0, .fp16, none⟩) := by decide

theorem test_decodes_vector_2 :
    decodeTableWord 64 0x44b51c4800000003 = some (.vneg ⟨⟨6, true⟩, .push 7, .reg 18, .reg 0, .reg 0, 0, .fp16, none⟩) ∧
    decodeTableWord 64 0x47b51c4800000003 = some (.vrcp ⟨⟨6, true⟩, .push 7, .reg 18, .reg 0, .reg 0, 0, .fp16, none⟩) ∧
    decodeTableWord 64 0x48351c4800000003 = some (.vrsq ⟨⟨6, true⟩, .push 7, .reg 18, .reg 0, .reg 0, 0, .fp16, none⟩) ∧
    decodeTableWord 64 0x49b51c4800000003 = some (.vexp2 ⟨⟨6, true⟩, .push 7, .reg 18, .reg 0, .reg 0, 0, .fp16, none⟩) ∧
    decodeTableWord 64 0x4a351c4800000003 = some (.vlog2 ⟨⟨6, true⟩, .push 7, .reg 18, .reg 0, .reg 0, 0, .fp16, none⟩) ∧
    decodeTableWord 64 0x4ab51c4800000003 = some (.vsin ⟨⟨6, true⟩, .push 7, .reg 18, .reg 0, .reg 0, 0, .fp16, none⟩) ∧
    decodeTableWord 64 0x4b351c4800000003 = some (.vcos ⟨⟨6, true⟩, .push 7, .reg 18, .reg 0, .reg 0, 0, .fp16, none⟩) ∧
    decodeTableWord 64 0x4bb51c4800000003 = some (.vtanh ⟨⟨6, true⟩, .push 7, .reg 18, .reg 0, .reg 0, 0, .fp16, none⟩) ∧
    decodeTableWord 64 0x4534244894000000 = some (.vcpys ⟨⟨6, true⟩, .reg 9, .reg 18, .reg 37, .reg 0, 0, .fp32, none⟩) ∧
    decodeTableWord 64 0x45b62c4897180000 = some (.vcmp ⟨⟨6, true⟩, .alt 11, .reg 18, .reg 37, .imm 6, 0, .fp32, none⟩) ∧
    decodeTableWord 64 0x4634244894340018 = some (.vsel ⟨⟨6, true⟩, .reg 9, .reg 18, .reg 37, .reg 13, 0, .raw, none⟩) ∧
    decodeTableWord 64 0x46b62c4b24000000 = some (.vclass ⟨⟨6, true⟩, .alt 11, .reg 18, .imm 9, .reg 0, 0, .fp32, none⟩) := by decide

theorem test_decodes_vector_3 :
    decodeTableWord 64 0x4734244800000120 = some (.vrint ⟨⟨6, true⟩, .reg 9, .reg 18, .reg 0, .reg 0, 9, .fp32, none⟩) ∧
    decodeTableWord 64 0x4cb4244800000080 = some (.vsqrt ⟨⟨6, true⟩, .reg 9, .reg 18, .reg 0, .reg 0, 4, .fp32, none⟩) ∧
    decodeTableWord 64 0x4d34244b0d3000a4 = some (.vcvt ⟨⟨6, true⟩, .reg 9, .reg 18, .imm 3, .ring 12 0, 5, .e4m3, none⟩) ∧
    decodeTableWord 64 0x4db4244894000040 = some (.vscale ⟨⟨6, true⟩, .reg 9, .reg 18, .reg 37, .reg 0, 2, .fp32, none⟩) ∧
    decodeTableWord 64 0x4e34244b1400002d = some (.vmxq ⟨⟨6, true⟩, .reg 9, .reg 18, .imm 5, .reg 0, 1, .mxe2m1, none⟩) ∧
    decodeTableWord 64 0x4eb4244b04000102 = some (.vmxdq ⟨⟨6, true⟩, .reg 9, .reg 18, .imm 1, .reg 0, 8, .bf16, none⟩) ∧
    decodeTableWord 64 0x4f34244894c8002f = some (.vdot ⟨⟨6, true⟩, .reg 9, .reg 18, .reg 37, .reg 50, 1, .int8, none⟩) ∧
    decodeTableWord 64 0x4fb6a44b08000080 = some (.vredf ⟨⟨6, true⟩, .alt 41, .reg 18, .imm 2, .reg 0, 4, .fp32, none⟩) := by decide

theorem test_decodes_integer_1 :
    decodeTableWord 128 0xfedcba98765432106034244a0000000f = some (.viadd ⟨⟨6, true⟩, .reg 9, .reg 18, .lit, .reg 0, 0, .int8, some 0xfedcba9876543210⟩) ∧
    decodeTableWord 64 0x60b4244894000014 = some (.visub ⟨⟨6, true⟩, .reg 9, .reg 18, .reg 37, .reg 0, 0, .uint8, none⟩) ∧
    decodeTableWord 64 0x6134244894000012 = some (.vimul ⟨⟨6, true⟩, .reg 9, .reg 18, .reg 37, .reg 0, 0, .int16, none⟩) ∧
    decodeTableWord 128 0xfedcba98765432106234244a00000013 = some (.vimin ⟨⟨6, true⟩, .reg 9, .reg 18, .lit, .reg 0, 0, .uint16, some 0xfedcba9876543210⟩) ∧
    decodeTableWord 64 0x62b4244894000010 = some (.vimax ⟨⟨6, true⟩, .reg 9, .reg 18, .reg 37, .reg 0, 0, .int32, none⟩) ∧
    decodeTableWord 64 0x6334244894000011 = some (.viminu ⟨⟨6, true⟩, .reg 9, .reg 18, .reg 37, .reg 0, 0, .uint32, none⟩) ∧
    decodeTableWord 128 0xfedcba987654321063b4244a00000015 = some (.vimaxu ⟨⟨6, true⟩, .reg 9, .reg 18, .lit, .reg 0, 0, .int4, some 0xfedcba9876543210⟩) ∧
    decodeTableWord 64 0x643424489400000f = some (.vand ⟨⟨6, true⟩, .reg 9, .reg 18, .reg 37, .reg 0, 0, .int8, none⟩) ∧
    decodeTableWord 64 0x64b4244894000014 = some (.vor ⟨⟨6, true⟩, .reg 9, .reg 18, .reg 37, .reg 0, 0, .uint8, none⟩) ∧
    decodeTableWord 128 0xfedcba98765432106534244a00000012 = some (.vxor ⟨⟨6, true⟩, .reg 9, .reg 18, .lit, .reg 0, 0, .int16, some 0xfedcba9876543210⟩) ∧
    decodeTableWord 64 0x65b4244894000013 = some (.vshl ⟨⟨6, true⟩, .reg 9, .reg 18, .reg 37, .reg 0, 0, .uint16, none⟩) ∧
    decodeTableWord 64 0x6634244894000010 = some (.vshr ⟨⟨6, true⟩, .reg 9, .reg 18, .reg 37, .reg 0, 0, .int32, none⟩) := by decide

theorem test_decodes_integer_2 :
    decodeTableWord 128 0xfedcba987654321066b4244a00000011 = some (.vsar ⟨⟨6, true⟩, .reg 9, .reg 18, .lit, .reg 0, 0, .uint32, some 0xfedcba9876543210⟩) ∧
    decodeTableWord 64 0x69b4244894000015 = some (.vsadd ⟨⟨6, true⟩, .reg 9, .reg 18, .reg 37, .reg 0, 0, .int4, none⟩) ∧
    decodeTableWord 64 0x6a3424489400000f = some (.vssub ⟨⟨6, true⟩, .reg 9, .reg 18, .reg 37, .reg 0, 0, .int8, none⟩) ∧
    decodeTableWord 64 0x61b4244894c80012 = some (.vimad ⟨⟨6, true⟩, .reg 9, .reg 18, .reg 37, .reg 50, 0, .int16, none⟩) ∧
    decodeTableWord 64 0x6734244800000015 = some (.vpopc ⟨⟨6, true⟩, .reg 9, .reg 18, .reg 0, .reg 0, 0, .int4, none⟩) ∧
    decodeTableWord 64 0x67b4244800000015 = some (.vclz ⟨⟨6, true⟩, .reg 9, .reg 18, .reg 0, .reg 0, 0, .int4, none⟩) ∧
    decodeTableWord 64 0x6834244897300011 = some (.vbfx ⟨⟨6, true⟩, .reg 9, .reg 18, .reg 37, .imm 12, 0, .uint32, none⟩) ∧
    decodeTableWord 64 0x68b4244897300011 = some (.vbfi ⟨⟨6, true⟩, .reg 9, .reg 18, .reg 37, .imm 12, 0, .uint32, none⟩) ∧
    decodeTableWord 64 0x69362c489400006f = some (.vicmp ⟨⟨6, true⟩, .alt 11, .reg 18, .reg 37, .reg 0, 3, .int8, none⟩) ∧
    decodeTableWord 64 0x6ab4244b4c000038 = some (.vmov ⟨⟨6, true⟩, .reg 9, .reg 18, .imm 19, .reg 0, 1, .raw, none⟩) ∧
    decodeTableWord 64 0x6b34255494038023 = some (.vbcast ⟨⟨6, true⟩, .reg 9, .ring 21 7, .reg 37, .reg 0, 1, .fp16, none⟩) ∧
    decodeTableWord 64 0x6bb6a44894000002 = some (.vextr ⟨⟨6, true⟩, .alt 41, .reg 18, .reg 37, .reg 0, 0, .bf16, none⟩) := by decide

theorem test_decodes_integer_3 :
    decodeTableWord 64 0x6c34244894000018 = some (.vshuf ⟨⟨6, true⟩, .reg 9, .reg 18, .reg 37, .reg 0, 0, .raw, none⟩) ∧
    decodeTableWord 64 0x6cb4244894c80000 = some (.vslide ⟨⟨6, true⟩, .reg 9, .reg 18, .reg 37, .reg 50, 0, .fp32, none⟩) ∧
    decodeTableWord 64 0x6d3424489400002f = some (.vpack ⟨⟨6, true⟩, .reg 9, .reg 18, .reg 37, .reg 0, 1, .int8, none⟩) ∧
    decodeTableWord 64 0x6db4244b0c000010 = some (.vunpk ⟨⟨6, true⟩, .reg 9, .reg 18, .imm 3, .reg 0, 0, .int32, none⟩) ∧
    decodeTableWord 64 0x6e34244800000050 = some (.vscan ⟨⟨6, true⟩, .reg 9, .reg 18, .reg 0, .reg 0, 2, .int32, none⟩) ∧
    decodeTableWord 64 0x6eb6a448000000b4 = some (.vredi ⟨⟨6, true⟩, .alt 41, .reg 18, .reg 0, .reg 0, 5, .uint8, none⟩) ∧
    decodeTableWord 64 0x6f34244894000013 = some (.vlane ⟨⟨6, true⟩, .reg 9, .reg 18, .reg 37, .reg 0, 0, .uint16, none⟩) ∧
    decodeTableWord 64 0x6fb4244800340018 = some (.vcompr ⟨⟨6, true⟩, .reg 9, .reg 18, .reg 0, .reg 13, 0, .raw, none⟩) := by decide

theorem test_decodes_memory_1 :
    decodeTableWord 64 0x803425295b4d7ffb = some (.ld ⟨⟨6, true⟩, .reg 9, 18, 37, .weight, 6, .uint16, 2, 32763⟩) ∧
    decodeTableWord 64 0x80b42529533d7ffb = some (.st ⟨⟨6, true⟩, .reg 9, 18, 37, .cell, 6, .int8, 2, 32763⟩) ∧
    decodeTableWord 64 0x813525294b257ffb = some (.ldv ⟨⟨6, true⟩, .push 9, 18, 37, .cluster, 6, .mxe4m3, 2, 32763⟩) ∧
    decodeTableWord 64 0x81b4252943097ffb = some (.stv ⟨⟨6, true⟩, .reg 9, 18, 37, .global, 6, .bf16, 2, 32763⟩) ∧
    decodeTableWord 64 0x823425294b0efffb = some (.ldg ⟨⟨6, true⟩, .reg 9, 18, 37, .cluster, 6, .fp16, 5, 32763⟩) ∧
    decodeTableWord 64 0x82b425294b5dfffb = some (.stg ⟨⟨6, true⟩, .reg 9, 18, 37, .cluster, 6, .mask, 3, 32763⟩) ∧
    decodeTableWord 64 0x833615294b3cfffb = some (.ldt ⟨⟨6, true⟩, .alt 5, 18, 37, .cluster, 6, .int8, 1, 32763⟩) ∧
    decodeTableWord 64 0x83b619294b607ffb = some (.stt ⟨⟨6, true⟩, .alt 6, 18, 37, .cluster, 6, .raw, 0, 32763⟩) ∧
    decodeTableWord 64 0x843425294b03fffb = some (.atom ⟨⟨6, true⟩, .reg 9, 18, 37, .cluster, 6, .fp32, 7, 32763⟩) ∧
    decodeTableWord 64 0x84b429294b607ffb = some (.cas ⟨⟨6, true⟩, .reg 10, 18, 37, .cluster, 6, .raw, 0, 32763⟩) ∧
    decodeTableWord 64 0x853425294b46fffb = some (.atomv ⟨⟨6, true⟩, .reg 9, 18, 37, .cluster, 6, .uint32, 5, 32763⟩) ∧
    decodeTableWord 64 0x85b7012943027ffb = some (.pref ⟨⟨6, true⟩, .discard, 18, 37, .global, 6, .fp32, 4, 32763⟩) := by decide

theorem test_decodes_memory_2 :
    decodeTableWord 64 0x8634000000060000 = some (.phase ⟨⟨6, true⟩, 0, 0, 0, 0, 0, 3, 0⟩) ∧
    decodeTableWord 64 0x86b4000000080000 = some (.publ ⟨⟨6, true⟩, 0, 0, 0, 0, 0, 4, 0⟩) ∧
    decodeTableWord 64 0x87340000000a0000 = some (.snap ⟨⟨6, true⟩, 0, 0, 0, 0, 0, 5, 0⟩) ∧
    decodeTableWord 64 0x87b639294b637ffb = some (.bnd ⟨⟨6, true⟩, .alt 14, 18, 37, .cluster, 6, .raw, 6, 32763⟩) ∧
    decodeTableWord 64 0x883425294b61fffb = some (.bndq ⟨⟨6, true⟩, .reg 9, 18, 37, .cluster, 6, .raw, 3, 32763⟩) := by decide

theorem test_decodes_ring_1 :
    decodeTableWord 64 0xa0349000a8000100 = some (.rwaitf ⟨⟨6, true⟩, 9, 0, 0, 21, 0, 0, 256⟩) ∧
    decodeTableWord 64 0xa0b49000a8000100 = some (.rwaite ⟨⟨6, true⟩, 9, 0, 0, 21, 0, 0, 256⟩) ∧
    decodeTableWord 64 0xa1340480a8020000 = some (.rrels ⟨⟨6, true⟩, 0, 18, 0, 21, 0, 1, 0⟩) ∧
    decodeTableWord 64 0xa1b40000aa200064 = some (.radvw ⟨⟨6, true⟩, 0, 0, 0, 21, 17, 0, 100⟩) ∧
    decodeTableWord 64 0xa2349000a80a0000 = some (.rstat ⟨⟨6, true⟩, 9, 0, 0, 21, 0, 5, 0⟩) ∧
    decodeTableWord 64 0xa2b49000a8000000 = some (.rflush ⟨⟨6, true⟩, 9, 0, 0, 21, 0, 0, 0⟩) ∧
    decodeTableWord 64 0xa33404a5a8000000 = some (.binit ⟨⟨6, true⟩, 0, 18, 37, 21, 0, 0, 0⟩) ∧
    decodeTableWord 64 0xa3b40025a8020000 = some (.barv ⟨⟨6, true⟩, 0, 0, 37, 21, 0, 1, 0⟩) ∧
    decodeTableWord 64 0xa4340025a8020000 = some (.bexp ⟨⟨6, true⟩, 0, 0, 37, 21, 0, 1, 0⟩) ∧
    decodeTableWord 64 0xa4b40480a8020000 = some (.bwait ⟨⟨6, true⟩, 0, 18, 0, 21, 0, 1, 0⟩) ∧
    decodeTableWord 64 0xa5349000a8080000 = some (.btest ⟨⟨6, true⟩, 9, 0, 0, 21, 0, 4, 0⟩) ∧
    decodeTableWord 64 0xa5b494a5ae465969 = some (.cpy ⟨⟨6, true⟩, 9, 18, 37, 21, 50, 3, 22889⟩) := by decide

theorem test_decodes_ring_2 :
    decodeTableWord 64 0xa63494a5a9690869 = some (.cpyt ⟨⟨6, true⟩, 9, 18, 37, 21, 11, 4, 67689⟩) ∧
    decodeTableWord 64 0xa6b494a5ae4452b6 = some (.cpyb ⟨⟨6, true⟩, 9, 18, 37, 21, 50, 2, 21174⟩) ∧
    decodeTableWord 64 0xa73494a5a96ad953 = some (.cpyq ⟨⟨6, true⟩, 9, 18, 37, 21, 11, 5, 55635⟩) := by decide

theorem test_decodes_matrix_1 :
    decodeTableWord 64 0xc03654250042cb01 = some (.mtask ⟨⟨6, true⟩, 9, 5, 0, 37, 0, .bf16, .bf16, 12, 2817⟩) ∧
    decodeTableWord 64 0xc0b6802554859581 = some (.mtasks ⟨⟨6, true⟩, 10, 0, 0, 37, 21, .e4m3, .e5m2, 9, 1409⟩) ∧
    decodeTableWord 64 0xc136c00000000000 = some (.mwait ⟨⟨6, true⟩, 11, 0, 0, 0, 0, .fp32, .fp32, 0, 0⟩) ∧
    decodeTableWord 64 0xc1b6000000004a00 = some (.mzero ⟨⟨6, true⟩, 8, 0, 0, 0, 0, .fp32, .fp32, 4, 2560⟩) ∧
    decodeTableWord 64 0xc23424255440d85d = some (.mrd ⟨⟨6, true⟩, 0, 9, 0, 37, 21, .bf16, .fp32, 13, 2141⟩) ∧
    decodeTableWord 64 0xc2b5400001e00000 = some (.tzero ⟨⟨6, true⟩, 5, 0, 0, 0, 0, .int8, .fp32, 0, 0⟩) ∧
    decodeTableWord 64 0xc335480003000000 = some (.tmov ⟨⟨6, true⟩, 5, 2, 0, 0, 0, .raw, .fp32, 0, 0⟩) ∧
    decodeTableWord 64 0xc3b5480000608406 = some (.tcvt ⟨⟨6, true⟩, 5, 2, 0, 0, 0, .fp16, .fp32, 8, 1030⟩) ∧
    decodeTableWord 64 0xc43540255640c801 = some (.tslice ⟨⟨6, true⟩, 5, 0, 0, 37, 21, .int16, .fp32, 12, 2049⟩) := by decide

theorem test_decodes_tree_1 :
    decodeTableWord 64 0xc4b40025540059a5 = some (.tdnode ⟨⟨6, true⟩, 0, 0, 0, 37, 21, .fp32, .fp32, 5, 2469⟩) ∧
    decodeTableWord 64 0xc537542500648d09 = some (.tdstep ⟨⟨6, true⟩, 13, 5, 0, 37, 0, .fp16, .e4m3, 8, 3337⟩) ∧
    decodeTableWord 64 0xc5b4382556600005 = some (.tdgrp ⟨⟨6, true⟩, 0, 14, 0, 37, 21, .uint16, .fp32, 0, 5⟩) ∧
    decodeTableWord 64 0xc634bda5006fc605 = some (.tdleaf ⟨⟨6, true⟩, 2, 15, 6, 37, 0, .fp16, .int8, 12, 1541⟩) ∧
    decodeTableWord 64 0xc6b434005460206b = some (.tdpath ⟨⟨6, true⟩, 0, 13, 0, 0, 21, .fp16, .fp32, 2, 107⟩) ∧
    decodeTableWord 64 0xc734f82500400000 = some (.tdgrad ⟨⟨6, true⟩, 3, 14, 0, 37, 0, .bf16, .fp32, 0, 0⟩) := by decide

theorem test_decodes_skive_1 :
    decodeTableWord 64 0xc7b4142554648009 = some (.skpred ⟨⟨6, true⟩, 0, 5, 0, 37, 21, .fp16, .e4m3, 8, 9⟩) ∧
    decodeTableWord 64 0xc834142500af0d09 = some (.skfetch ⟨⟨6, true⟩, 0, 5, 0, 37, 0, .e5m2, .int8, 0, 3337⟩) ∧
    decodeTableWord 64 0xc8b4142500408009 = some (.skchk ⟨⟨6, true⟩, 0, 5, 0, 37, 0, .bf16, .fp32, 8, 9⟩) ∧
    decodeTableWord 64 0xc934142554020609 = some (.skrpl ⟨⟨6, true⟩, 0, 5, 0, 37, 21, .fp32, .bf16, 0, 1545⟩) ∧
    decodeTableWord 64 0xc9b4002554006009 = some (.skstat ⟨⟨6, true⟩, 0, 0, 0, 37, 21, .fp32, .fp32, 6, 9⟩) ∧
    decodeTableWord 64 0xca34002500008009 = some (.rtjob ⟨⟨6, true⟩, 0, 0, 0, 37, 0, .fp32, .fp32, 8, 9⟩) ∧
    decodeTableWord 64 0xcab4000000000000 = some (.rtwait ⟨⟨6, true⟩, 0, 0, 0, 0, 0, .fp32, .fp32, 0, 0⟩) := by decide

theorem test_decodes_system_1 :
    decodeTableWord 64 0xe034948000020016 = some (.launch ⟨⟨6, true⟩, 9, 18, 0, 0, 0, 1, 22⟩) ∧
    decodeTableWord 64 0xe0b4948000000009 = some (.task ⟨⟨6, true⟩, 9, 18, 0, 0, 0, 0, 9⟩) ∧
    decodeTableWord 64 0xe134048000040000 = some (.twait ⟨⟨6, true⟩, 0, 18, 0, 0, 0, 2, 0⟩) ∧
    decodeTableWord 64 0xe1b6400000020000 = some (.evpop ⟨⟨6, true⟩, 36, 0, 0, 0, 0, 1, 0⟩) ∧
    decodeTableWord 64 0xe23404a50642a5c3 = some (.evpush ⟨⟨6, true⟩, 0, 18, 37, 0, 50, 1, 42435⟩) ∧
    decodeTableWord 64 0xe2b4900000060005 = some (.gid ⟨⟨6, true⟩, 9, 0, 0, 0, 0, 3, 5⟩) ∧
    decodeTableWord 64 0xe33490000000043f = some (.srd ⟨⟨6, true⟩, 9, 0, 0, 0, 0, 0, 1087⟩) ∧
    decodeTableWord 64 0xe3b4048000000888 = some (.swr ⟨⟨6, true⟩, 0, 18, 0, 0, 0, 0, 2184⟩) ∧
    decodeTableWord 64 0xe43400000000a5c3 = some (.trap ⟨⟨6, true⟩, 0, 0, 0, 0, 0, 0, 42435⟩) ∧
    decodeTableWord 64 0xe4b4000000000000 = some (.eret ⟨⟨6, true⟩, 0, 0, 0, 0, 0, 0, 0⟩) ∧
    decodeTableWord 64 0xe53400000000a5c3 = some (.brk ⟨⟨6, true⟩, 0, 0, 0, 0, 0, 0, 42435⟩) ∧
    decodeTableWord 64 0xe5b4900000020000 = some (.tick ⟨⟨6, true⟩, 9, 0, 0, 0, 0, 1, 0⟩) := by decide

theorem test_decodes_system_2 :
    decodeTableWord 64 0xe63404a5000000a5 = some (.evrec ⟨⟨6, true⟩, 0, 18, 37, 0, 0, 0, 165⟩) ∧
    decodeTableWord 64 0xe6b4048000020000 = some (.stage ⟨⟨6, true⟩, 0, 18, 0, 0, 0, 1, 0⟩) ∧
    decodeTableWord 64 0xe73404a506400012 = some (.xst ⟨⟨6, true⟩, 0, 18, 37, 0, 50, 0, 18⟩) ∧
    decodeTableWord 64 0xe7b4948006400011 = some (.xld ⟨⟨6, true⟩, 9, 18, 0, 0, 50, 0, 17⟩) ∧
    decodeTableWord 64 0xe8349480064a0018 = some (.xatom ⟨⟨6, true⟩, 9, 18, 0, 0, 50, 5, 24⟩) ∧
    decodeTableWord 64 0xe8b4000000000000 = some (.xdrain ⟨⟨6, true⟩, 0, 0, 0, 0, 0, 0, 0⟩) ∧
    decodeTableWord 64 0xe934948000000000 = some (.dstop ⟨⟨6, true⟩, 9, 18, 0, 0, 0, 0, 0⟩) ∧
    decodeTableWord 64 0xe9b4900000000000 = some (.capsSt ⟨⟨6, true⟩, 9, 0, 0, 0, 0, 0, 0⟩) ∧
    decodeTableWord 64 0xe9b4900000020010 = some (.capsSz ⟨⟨6, true⟩, 9, 0, 0, 0, 0, 1, 16⟩) ∧
    decodeTableWord 64 0xe9b494a500040016 = some (.capsGet ⟨⟨6, true⟩, 9, 18, 37, 0, 0, 2, 22⟩) ∧
    decodeTableWord 64 0xe9b4900000060000 = some (.capsAck ⟨⟨6, true⟩, 9, 0, 0, 0, 0, 3, 0⟩) ∧
    decodeTableWord 64 0xff81234567890abc = some (.ill 0x1234567890abc) := by decide

/-! ### Scalar instructions (R104 to R115), results by hand from R106 to R112 -/

/-- Scalar 1 after an instruction on scalars 2 and 3, or on 2, 3 and 4. -/
def s2 (mk : VInsn → Instr) (f : Fmt) (a b : Word) : Option Word :=
  if (on2 f 0).scalar2 then sAfter (exec (mk (on2 f 0)) (holding [(2, a), (3, b)])) 1 else none
@[inherit_doc s2] def s1 (mk : VInsn → Instr) (f : Fmt) (a : Word) : Option Word :=
  if (on1 f 0).scalar1 then sAfter (exec (mk (on1 f 0)) (holding [(2, a)])) 1 else none
@[inherit_doc s2] def s3 (mk : VInsn → Instr) (f : Fmt) (a b c : Word) : Option Word :=
  if (on3 f 0).scalar3 then sAfter (exec (mk (on3 f 0)) (holding [(1, 0xa5a5), (2, a), (3, b), (4, c)])) 1 else none

theorem test_scalar_sums :
    s2 .add .raw 0xffffffffffffffff 2 = some 1 ∧ s2 .add .int32 0x7fffffff 1 = some 0xffffffff80000000 ∧
    s2 .sub .uint32 0 1 = some 0xffffffff ∧ s2 .mul .int32 0x10000 0x18000 = some 0xffffffff80000000 ∧
    s2 .mulh .raw 0xffffffffffffffff 2 = some 0xffffffffffffffff ∧ s2 .mulhu .raw 0xffffffffffffffff 2 = some 1 ∧
    s3 .mad .uint32 0xffffffff 2 3 = some 1 := by decide

/-- By zero, and the most negative number by -1 (R107). -/
theorem test_scalar_divisions :
    s2 .div .raw 7 0 = some 0xffffffffffffffff ∧ s2 .div .int32 0x80000000 0xffffffff = some 0xffffffff80000000 ∧
    s2 .div .raw 0xfffffffffffffff9 2 = some 0xfffffffffffffffd ∧ s2 .divu .uint32 7 0 = some 0xffffffff ∧
    s2 .rem .raw 7 0 = some 7 ∧ s2 .rem .int32 0x80000000 0xffffffff = some 0 ∧
    s2 .rem .raw 0xfffffffffffffff9 2 = some 0xffffffffffffffff ∧ s2 .remu .raw 7 4 = some 3 := by decide

theorem test_scalar_logic :
    s2 .and .raw 12 10 = some 8 ∧ s2 .or .raw 12 10 = some 14 ∧ s2 .xor .raw 12 10 = some 6 ∧ s2 .andn .raw 12 10 = some 4 ∧
    s2 .shl .uint32 1 33 = some 2 ∧ s2 .shr .raw 0x8000000000000000 63 = some 1 ∧
    s2 .sar .int32 0x80000000 31 = some 0xffffffffffffffff ∧ s2 .rol .uint32 0x80000001 1 = some 3 ∧
    s2 .ror .uint32 0x80000001 1 = some 0xc0000000 := by decide

theorem test_scalar_order :
    s2 .min .raw 0xffffffffffffffff 1 = some 0xffffffffffffffff ∧ s2 .max .raw 0xffffffffffffffff 1 = some 1 ∧
    s2 .minu .raw 0xffffffffffffffff 1 = some 1 ∧ s2 .maxu .raw 0xffffffffffffffff 1 = some 0xffffffffffffffff ∧
    s1 .abs .int32 0x80000000 = some 0xffffffff80000000 ∧ s1 .neg .raw 1 = some 0xffffffffffffffff := by decide

theorem test_scalar_bits :
    s1 .clz .uint32 1 = some 31 ∧ s1 .ctz .raw 0 = some 64 ∧ s1 .popc .raw 0xff01 = some 9 ∧
    s1 .brev .uint32 1 = some 0x80000000 ∧ s1 .bswap .uint32 0x11223344 = some 0x44332211 ∧
    s2 .sext .raw 0x80 8 = some 0xffffffffffffff80 ∧ s2 .zext .raw 0xff80 8 = some 0x80 ∧
    s3 .bfx .raw 0xf0 4 4 = some 0xffffffffffffffff ∧ s3 .bfxu .raw 0xf0 4 4 = some 15 ∧
    s3 .bfi .raw 0xf 8 4 = some 0xafa5 := by decide

/-- ADDX keeps the top byte and scales its index; SEL; MOVL of a half (R109, R111, R112). -/
theorem test_scalar_moves :
    sAfter (exec (.addx (on2 .raw 3)) (holding [(2, 0xaa00000000000010), (3, 0xffffffff)])) 1 = some 0xaa00000000000008 ∧
    sAfter (exec (.sel ⟨full, .reg 1, .reg 2, .imm 63, .reg 3, 0, .raw, none⟩) (holding [(2, 5)])) 1
      = some 0xffffffffffffffff ∧
    sAfter (exec (.movl ⟨full, .reg 2, .lit, .reg 0, .reg 0, 1, .raw, some 0x1111111122222222⟩)
      (holding [(2, 0x5555555566666666)])) 2 = some 0x5555555522222222 ∧
    sAfter (exec (.mov ⟨full, .reg 1, .imm 60, .reg 0, .reg 0, 0, .uint32, none⟩) base) 1 = some 0xfffffffc ∧
    sAfter (exec (.cmp (on2 .raw 2)) (holding [(2, 0xffffffffffffffff), (3, 1)])) 1 = some 1 ∧
    sAfter (exec (.cmpu (on2 .raw 2)) (holding [(2, 0xffffffffffffffff), (3, 1)])) 1 = some 0 := by decide

/-- Predicates: two sources, and halves of a scalar (R114, R115). -/
theorem test_predicates :
    let s := withR base fun r => (r.wrP 8 2 0b1100).wrP 8 3 0b1010
    let i : VInsn := ⟨full, .alt 1, .reg 2, .reg 3, .reg 0, 0, .raw, none⟩
    let p (o : Out) : Option (BitVec 128) := match o with | .next t => some (t.x.r.rdP 8 1) | _ => none
    p (exec (.pand i) s) = some 0b1000 ∧ p (exec (.por i) s) = some 0b1110 ∧ p (exec (.pxor i) s) = some 0b0110 ∧
    p (exec (.pnot { i with b := .reg 0 }) s) = some 0b11110011 ∧
    p (exec (.pmov ⟨full, .alt 1, .reg 5, .reg 0, .reg 0, 1, .raw, none⟩) (holding [(5, 0x1ff)])) = some 0xff ∧
    sAfter (exec (.pmov ⟨full, .reg 1, .reg 2, .reg 0, .reg 0, 2, .raw, none⟩) s) 1 = some 0b1100 := by decide

/-- A guard that is off in lane 0 leaves everything (R69). -/
theorem test_guard_off :
    sAfter (exec (.add { on2 .raw 0 with g := ⟨3, false⟩ }) (holding [(1, 9), (2, 5)])) 1 = some 9 := by decide

theorem witness_ScalarBitsPointersAndLiterals :
    (on3 .raw 0).scalar3 = true ∧ (Instr.addx (on2 .raw 11)).entryOk = true ∧ (Instr.addx (on2 .raw 0)).entryOk = true ∧
    (∀ m ∈ [0, 1, 2], (Instr.movl ⟨full, .reg 2, .lit, .reg 0, .reg 0, m, .raw, some 7⟩).entryOk = true) ∧
    (Instr.sel ⟨full, .reg 1, .reg 2, .reg 3, .reg 15, 0, .raw, none⟩).entryOk = true := by decide

theorem witness_ComparisonsAndPredicates :
    (∀ m ∈ [0, 1, 2, 3, 4, 5], (on2 .raw m).cmpOk = true ∧ ({ on2 .raw m with d := .alt 15 } : VInsn).cmpOk = true) ∧
    ({ on2 .raw 0 with d := .alt 1 } : VInsn).pred2 = true ∧
    (∀ m ∈ [0, 1, 3], ({ on1 .raw m with d := .alt 0 } : VInsn).pmovOk = true) ∧
    (∀ m ∈ [2, 4], (on1 .raw m).pmovOk = true) := by decide

/-- A ring as a block saw it: the consumer of handle `h` with one token of 16 bytes at its head. -/
def consumed (h : Nat) (f : Fmt) (bs : List Byte) : RView :=
  { h := h, id := ⟨0, 0, 3⟩, prod := false, toks := [⟨f, bs⟩], nums := [0], sticks := [(none, 0, none)], lim := none
    cnt := 0, loop := none, earlier := 0, mine := 1, filled := 1, free := 1, rp := 0, wp := 1, nslot := 2
    slotsz := bs.length, stall := 0, starve := 0 }

/-- The producer of handle `h` with slots of `z` bytes. -/
def produced (h z : Nat) : RView :=
  { consumed h .raw [] with prod := true, toks := [], nums := [], sticks := [], slotsz := z, filled := 0, free := 2 }

/-- A block with views of its rings. -/
def withViews (vs : List RView) : State := base.setX { base.x with views := vs }

/-- MOV from the token at a ring's head and onto a ring, and the statement's hypotheses there (R110). -/
theorem witness_MovForms :
    let tok := consumed 5 .raw (leBytes 16 0x1122334455667788)
    let i : VInsn := ⟨full, .reg 1, .ring 5 0, .reg 0, .reg 0, 0, .raw, none⟩
    let j : VInsn := ⟨full, .push 6, .reg 2, .reg 0, .reg 0, 0, .raw, none⟩
    (Instr.mov i).entryOk = true ∧ i.d.regDisc = true ∧ (withViews [tok]).x.on0 i.g = true ∧
    sAfter (exec (.mov i) (withViews [tok])) 1 = some 0x1122334455667788 ∧
    (Instr.mov j).entryOk = true ∧ j.a.scalarOk = true ∧ (withViews [produced 6 8]).x.view 6 true = some (produced 6 8) ∧
    8 ≤ (produced 6 8).slotsz ∧ (Instr.mov (on1 .raw 0)).entryOk = true := by decide

/-- A counted firing, a peek, and a token whose limit another code fixed (R66, R67). -/
theorem witness_RingFiring :
    let v := consumed 5 .raw (leBytes 16 3)
    let u : RView := { v with lim := some 2, cnt := 1 }
    (withViews [v]).x.view 5 false = some v ∧ v.toks[v.pos]? = some ⟨.raw, leBytes 16 3⟩ ∧ v.lim = none ∧ v.cnt = 0 ∧
    (withViews [u]).x.view 5 false = some u ∧ u.toks[u.pos]? = some ⟨.raw, leBytes 16 3⟩ ∧
    ((withViews [u]).x.fire 5 3).2.fault.map (·.code) = some .ringState := by decide

theorem witness_ScalarIntegerArithmetic :
    ∀ f ∈ [Fmt.raw, .int32, .uint32], (on1 f 0).scalar1 = true ∧ (on2 f 0).scalar2 = true ∧ (on3 f 0).scalar3 = true := by
  decide

/-! ### Control (R116 to R126) -/

/-- A control instruction of registers 2 and 3. -/
def ctl (cm : BitVec 2) (aux : BitVec 4) (t : BitVec 32) : XInsn := ⟨full, 2, 3, cm, aux, t⟩

/-- Exit of the block after a step. -/
def exitAfter (o : Out) : Option Exit := match o with | .next s => s.x.exit | _ => none

/-- A taken, an untaken and an unsigned branch; CALL links the next block; YIELD (R116 to R120). -/
theorem test_exits :
    exitAfter (exec (.br (ctl 0 0 (-1))) (base.setX { base.x with pc := 0x1000 })) = some (.jump 0xff8) ∧
    exitAfter (exec (.brc (ctl 1 0 2)) (holding [(2, 5)])) = some (.jump 16) ∧
    exitAfter (exec (.brc (ctl 0 0 2)) (holding [(2, 5)])) = none ∧
    exitAfter (exec (.brc (ctl 2 1 2)) (holding [(3, 0xffffffffffffffff)])) = some (.jump 16) ∧
    exitAfter (exec (.brc (ctl 2 0 2)) (holding [(3, 0xffffffffffffffff)])) = none ∧
    sAfter (exec (.call (ctl 0 0 2)) (base.setX { base.x with pc := 0x1000, words := 3 })) 2 = some 0x1020 ∧
    exitAfter (exec (.endStrand (ctl 0 0 0)) base) = some .stop ∧
    thenNext (exec (.yield (ctl 0 0 0)) base) (·.x.yield) = true := by decide

theorem witness_ExitsTakenOrMisaligned :
    base.x.on0 full = true ∧ base.x.fault = none ∧ base.x.exit = none ∧
    (base.setX { base.x with exit := some .stop }).x.exit ≠ none ∧
    ((holding [(2, 16), (3, 8)]).x.rdS 2).toNat % 8 = 0 ∧
    ((holding [(2, 16), (3, 8)]).x.rdS 2 + (holding [(2, 16), (3, 8)]).x.rdS 3).toNat % 8 = 0 ∧
    ((holding [(2, 15)]).x.rdS 2).toNat % 8 ≠ 0 ∧
    faultAfter (exec (.ret (ctl 0 0 0)) (holding [(2, 15)])) = some .align ∧
    faultAfter (exec (.jmpi (ctl 0 0 0)) (holding [(2, 15), (3, 2)])) = some .align := by decide

/-- LOOP over two blocks of a header with WORDS 1 at 0x18: its entry, its faults, and LOOPX (R122, R123, R126). -/
theorem witness_LoopsEnteredAndLeft :
    let s := mapped { base with mem := { base.mem with cells := [(0x1f, 1)] } }
    let i : XInsn := ⟨full, 2, 0, 0, 1, 3⟩
    let y : Flight := { s.x with fx := [.walked 0x202000 0x18 false], reqs := 1 }
    let z := loadBytes s y ((List.range 8).map (0x18 + ·))
    s.x.on0 i.g = true ∧ (Instr.loop i).entryOk = true ∧ s.x.fault = none ∧
    s.xlat 0 0x18 4 = .ok 0x18 0x202000 ∧ z.2.r = s.x.r ∧ z.2.fault = none ∧ leNat z.1 / 2 ^ 56 = 1 ∧
    thenNext (exec (.loop i) s) (fun t => t.x.fx.getLast? == some (.loopPush ⟨1, 0x10, 0x18, 1⟩ 1)) = true ∧
    faultAfter (exec (.loop { i with tgt := 1 }) s) = some .loopDepth ∧
    (let j : XInsn := ⟨full, 2, 3, 0, 1, 3⟩
     let u := withR base fun r => { r with loops := [⟨1, 0x10, 0x18, 1⟩] }
     (Instr.loopx j).entryOk = true ∧ (∃ l ∈ u.x.r.loops, l.k = 1) ∧ u.x.exit = none ∧
     exitAfter (exec (.loopx j) u) = some (.loopx 1 24) ∧ (∀ l ∈ base.x.r.loops, l.k ≠ 1) ∧
     faultAfter (exec (.loopx j) base) = some .loopDepth) := by decide

/-! ### Vector instructions (R128 to R158) -/

/-- A vector instruction has a lane on and every register source passes for its format, as a Bool. -/
def passesB (s : State) (i : VInsn) (l : List (Fmt × Src)) : Bool :=
  decide (s.x.guard i.g ≠ 0) && (fireAll [i.a, i.b, i.c] [] s.x).1.isEmpty &&
  l.all fun p => match p.2 with
    | .reg n => let v := ((fireAll [i.a, i.b, i.c] [] s.x).2.r.rdV n)
                decide (v.lanes.length = (fireAll [i.a, i.b, i.c] [] s.x).2.nlanes) && (p.1 == .raw || v.tag == p.1)
    | .ring _ _ => false
    | _ => true

/-- Then the hypothesis of the vector statements holds. -/
theorem sourcesPass_of {s : State} {i : VInsn} {l : List (Fmt × Src)} (h : passesB s i l = true) :
    sourcesPass s i [i.a, i.b, i.c] l (fireAll [i.a, i.b, i.c] [] s.x).1 (fireAll [i.a, i.b, i.c] [] s.x).2 := by
  simp only [passesB, Bool.and_eq_true, decide_eq_true_eq, List.all_eq_true] at h
  refine ⟨h.1.1, rfl, fun p hp => ?_⟩
  have hq := h.2 p hp
  obtain ⟨f, src⟩ := p
  cases src <;> simp_all [passes, sized, tagOf]

/-- Lane 0 of register 1 after an instruction on registers 2, 3 and 4, in a state where it passes. -/
def v2 (mk : VInsn → Instr) (f : Fmt) (m : BitVec 4) (a b : Lane) : Option Lane :=
  let s := vholding [(2, f, a), (3, f, b)]
  if (mk (on2 f m)).entryOk && passesB s (on2 f m) [(f, .reg 2), (f, .reg 3)] then lAfter (exec (mk (on2 f m)) s) 1
  else none
@[inherit_doc v2] def v1 (mk : VInsn → Instr) (f : Fmt) (m : BitVec 4) (a : Lane) : Option Lane :=
  let s := vholding [(2, f, a)]
  if (mk (on1 f m)).entryOk && passesB s (on1 f m) [(f, .reg 2)] then lAfter (exec (mk (on1 f m)) s) 1 else none
@[inherit_doc v2] def v3 (mk : VInsn → Instr) (f : Fmt) (m : BitVec 4) (a b c : Lane) : Option Lane :=
  let s := vholding [(1, f, 0xa5a5a5a5), (2, f, a), (3, f, b), (4, f, c)]
  if (mk (on3 f m)).entryOk && passesB s (on3 f m) [(f, .reg 2), (f, .reg 3), (f, .reg 4)] then
    lAfter (exec (mk (on3 f m)) s) 1
  else none

/-- FFLAGS after an instruction of one or two sources. -/
def flags2 (mk : VInsn → Instr) (f : Fmt) (m : BitVec 4) (a b : Lane) : Option (BitVec 5) :=
  flAfter (exec (mk (on2 f m)) (vholding [(2, f, a), (3, f, b)]))

/-- R147's table, elements of 8, 16 and 32 bits; saturation; fields (R149). -/
theorem witness_VectorIntegerArithmetic :
    v2 .viadd .int8 0 0xff7f01ff 0x010101ff = some 0x008002fe ∧ v2 .visub .uint16 0 0x00000001 0x00010002 = some 0xffffffff ∧
    v2 .vimul .int16 0 0x00030100 0x00050100 = some 0x000f0000 ∧ v3 .vimad .int32 0 0x10000 0x10000 7 = some 7 ∧
    v2 .vimin .int8 0 0x80000001 0x01000002 = some 0x80000001 ∧ v2 .vimax .int8 0 0x80000001 0x01000002 = some 0x01000002 ∧
    v2 .viminu .uint8 0 0x80 1 = some 1 ∧ v2 .vimaxu .uint8 0 0x80 1 = some 0x80 ∧
    v2 .vand .mask 0 0xff00ff00 0x0ff00ff0 = some 0x0f000f00 ∧ v2 .vor .raw 0 0xff00ff00 0x0ff00ff0 = some 0xfff0fff0 ∧
    v2 .vxor .raw 0 0xff00ff00 0x0ff00ff0 = some 0xf0f0f0f0 ∧ v2 .vshl .uint16 0 0x80010001 0x00010011 = some 0x00020002 ∧
    v2 .vshr .int32 0 0x80000000 31 = some 1 ∧ v2 .vsar .int32 0 0x80000000 31 = some 0xffffffff ∧
    v1 .vpopc .int4 0 0xf3100000 = some 0x42100000 ∧ v1 .vclz .int8 0 0x01800000 = some 0x07000808 ∧
    v2 .vsadd .int8 0 0x7f807f01 0x7f80ff01 = some 0x7f807e02 ∧ v2 .vssub .uint8 0 0x05 0x07 = some 0 ∧
    v3 .vbfx .int32 0 0xf0 4 4 = some 0xffffffff ∧ v3 .vbfi .uint32 0 0xf 8 4 = some 0xa5a5afa5 := by decide

/-- VBFI checks its destination's tag too. -/
theorem witness_VectorBitInsert :
    let s := vholding [(2, .uint32, 1), (3, .uint32, 1), (4, .uint32, 1)]
    let i := on3 .uint32 0
    (Instr.vbfi i).entryOk = true ∧ passesB s i [(.uint32, .reg 2), (.uint32, .reg 3), (.uint32, .reg 4)] = true ∧
    (s.x.r.rdV 1).tag ≠ .uint32 ∧ s.x.fault = none ∧ faultAfter (exec (.vbfi i) s) = some .formatTag := by decide

/-- Finite values of each format, a subnormal and a normal (R84). -/
theorem witness_FloatValues :
    (∀ f ∈ [Fmt.fp32, .bf16, .fp16, .e4m3, .e5m2, .e3m2, .e2m3, .e2m1], finite (elemVal f 1) = true) ∧
    finite (elemVal .fp32 0x3f800000) = true ∧ finite (elemVal .bf16 0xff7f) = true ∧ finite (elemVal .fp16 0xfbff) = true ∧
    finite (elemVal .e4m3 0x7e) = true ∧ finite (elemVal .e5m2 0x7b) = true ∧ finite (elemVal .e3m2 0x3f) = true ∧
    finite (elemVal .e2m3 0x3f) = true ∧ finite (elemVal .e2m1 7) = true := by decide

/-- 1 + 2^-24 of fp32 in each mode, and the root of 2: no overflow; the results lie on the sides that R93 says. -/
theorem witness_RoundingIsRound :
    ∃ i : FloatInfo, floatInfo .fp32 = some i ∧
      (∀ m ∈ [Rnd.rne, .rtz, .rdn, .rup, .rna],
        (roundMag i false ⟨2 ^ 24 + 1, 2 ^ 24, false⟩ m false).flags &&& fOF = 0 ∧
        (roundMag i true ⟨2, 1, true⟩ m false).flags &&& fOF = 0) ∧
      ([Rnd.rne, .rtz, .rdn, .rup, .rna].map fun m => (roundMag i false ⟨2 ^ 24 + 1, 2 ^ 24, false⟩ m false).bits) =
        [0x3f800000, 0x3f800000, 0x3f800000, 0x3f800001, 0x3f800001] ∧
      (roundMag i true ⟨2, 1, true⟩ .rne false).bits = 0xbfb504f3 := by
  refine ⟨_, rfl, ?_⟩
  decide +kernel

/-- Sums, products, fused products, quotients and roots, a NaN operand, an infinity, division by zero (R94, R133). -/
theorem witness_VectorFloatArithmetic :
    v2 .vadd .fp32 0 0x3f800000 0x40000000 = some 0x40400000 ∧ v2 .vsub .bf16 0 0x3f804000 0x40003f80 = some 0xbf803f80 ∧
    v2 .vmul .fp16 0 0x40003c00 0x42003c00 = some 0x46003c00 ∧
    v3 .vfma .fp32 0 0x40000000 0x40400000 0x3f800000 = some 0x40e00000 ∧
    v3 .vfms .fp32 0 0x40000000 0x40400000 0x3f800000 = some 0x40a00000 ∧
    v3 .vfnma .fp32 0 0x40000000 0x40400000 0x3f800000 = some 0xc0a00000 ∧
    v2 .vdiv .fp32 0 0x3f800000 0x40400000 = some 0x3eaaaaab ∧ v2 .vdiv .fp32 0 0xbf800000 0 = some 0xff800000 ∧
    flags2 .vdiv .fp32 0 0xbf800000 0 = some fDZ ∧ v2 .vadd .fp32 0 0x7f800001 0 = some 0x7fc00000 ∧
    flags2 .vadd .fp32 0 0x7f800001 0 = some fNV ∧ v1 .vsqrt .fp32 0 0x40800000 = some 0x40000000 ∧
    v1 .vsqrt .fp32 0 0xbf800000 = some 0x7fc00000 ∧ v1 .vsqrt .fp32 0 0x80000000 = some 0x80000000 ∧
    v1 .vrint .fp32 0 0x40200000 = some 0x40000000 ∧ v1 .vrint .fp32 8 0x40200000 = some 0x40400000 ∧
    v1 .vrint .fp32 4 0xc0200000 = some 0xc0400000 ∧ v1 .vabs .fp16 0 0xbc007e01 = some 0x3c007e01 ∧
    v1 .vneg .bf16 0 0x3f800000 = some 0xbf808000 ∧ v2 .vcpys .fp32 0 0x3f800000 0x80000000 = some 0xbf800000 ∧
    v2 .vmin .fp32 0 0 0x80000000 = some 0x80000000 ∧ v2 .vmax .fp32 0 0x7fc00000 0x3f800000 = some 0x3f800000 ∧
    v2 .vmax .fp32 1 0x7fc00000 0x3f800000 = some 0x7fc00000 := by decide +kernel

/-- The values that the clauses of those statements name: NaNs, a signalling one, zeros of both signs, infinities,
negative, below and above 2^M. -/
theorem witness_values :
    (elemVal .fp32 0x7fc00000).isNan = true ∧ (elemVal .fp32 0x7f800001).isSignalling = true ∧
    (elemVal .fp32 0x80000000).isZero = true ∧ (elemVal .fp32 0x80000000).isNeg = true ∧
    elemVal .fp32 0x7f800000 = .inf false ∧ elemVal .fp32 0xff800000 = .inf true ∧
    (elemVal .fp32 0xbf800000).isNeg = true ∧ (elemVal .fp32 0xbf800000).isZero = false ∧
    base.x.r.fmode.getLsbD 0 = false ∧ finite (elemVal .fp32 0x4b000000) = true ∧ finite (elemVal .fp32 0x4affffff) = true := by
  decide

/-- 2^-1024 at most, whatever B holds (R133). -/
theorem witness_VectorScale :
    let s := vholding [(2, .fp32, 0x3f800000), (3, .int32, 0xffffffff)]
    (Instr.vscale (on2 .fp32 0)).entryOk = true ∧ passesB s (on2 .fp32 0) [(.fp32, .reg 2), (.int32, .reg 3)] = true ∧
    lAfter (exec (.vscale (on2 .fp32 0)) s) 1 = some 0x3f000000 := by decide

/-- The special cases of R138 and R139, and the reciprocal of 4 in fp16. -/
theorem witness_VectorReciprocals :
    v1 .vrcp .fp32 0 0x80000000 = some 0xff800000 ∧ v1 .vrcp .fp32 0 0xff800000 = some 0x80000000 ∧
    v1 .vrcp .fp16 0 0x44004400 = some 0x34003400 ∧ v1 .vrsq .fp32 0 0 = some 0x7f800000 ∧
    v1 .vrsq .fp32 0 0xbf800000 = some 0x7fc00000 ∧ v2 .vrcpn .fp32 0 0x40000000 0x3f000000 = some 0x3f000000 ∧
    v2 .vrcpn .fp32 0 0x40000000 0x3ef00000 = some 0x3eff0000 ∧ v2 .vrsqn .fp32 0 0 0x3f000000 = some 0x3f000000 := by decide

/-- The special results of R140, and exact powers of two in fp32. -/
theorem witness_VectorSpecialFunctions :
    v1 .vexp2 .fp32 0 0xff800000 = some 0 ∧ v1 .vexp2 .fp16 0 0x7c007c00 = some 0x7c007c00 ∧
    v1 .vlog2 .fp32 0 0x80000000 = some 0xff800000 ∧ v1 .vlog2 .fp32 0 0x3f800000 = some 0 ∧
    v1 .vlog2 .bf16 0 0xbf80bf80 = some 0x7fc07fc0 ∧ v1 .vsin .fp32 0 0x80000000 = some 0x80000000 ∧
    v1 .vsin .fp32 0 0x7f800000 = some 0x7fc00000 ∧ v1 .vcos .fp32 0 0 = some 0x3f800000 ∧
    v1 .vcos .fp32 0 0xff800000 = some 0x7fc00000 ∧ v1 .vtanh .fp32 0 0xff800000 = some 0xbf800000 ∧
    v1 .vtanh .fp32 0 0x80000000 = some 0x80000000 ∧ v1 .vexp2 .fp32 0 0x40400000 = some 0x41000000 := by decide +kernel

/-- Predicate 1 after a step. -/
def pAfter (o : Out) : Option (BitVec 128) := match o with | .next s => some (s.x.r.rdP 8 1) | _ => none

/-- Each condition of VCMP and VICMP (R135, R148). -/
theorem witness_VectorComparisons :
    let i : VInsn := ⟨full, .alt 1, .reg 2, .reg 3, .imm 2, 0, .fp32, none⟩
    let s := vholding [(2, .fp32, 0x80000000), (3, .fp32, 0)]
    let t := vholding [(2, .int8, 0xff000000), (3, .int8, 0x01000000)]
    let u := vholding [(2, .fp32, 0x7fc00000), (3, .fp32, 0)]
    (∀ c ∈ [0, 1, 2, 3, 4, 5, 6, 7], (Instr.vcmp { i with c := .imm c }).entryOk = true) ∧
    passesB s i [(.fp32, .reg 2), (.fp32, .reg 3)] = true ∧
    pAfter (exec (.vcmp i) s) = some 0 ∧ pAfter (exec (.vcmp { i with c := .imm 5 }) s) = some 0xff ∧
    pAfter (exec (.vcmp { i with c := .imm 1 }) u) = some 0xff ∧ flAfter (exec (.vcmp i) u) = some fNV ∧
    flAfter (exec (.vcmp { i with c := .imm 7 }) u) = some 0 ∧
    (let j (m : BitVec 4) : VInsn := { i with c := .reg 0, fmt := .int8, mod := m }
     (∀ m ∈ [0, 1, 2, 3, 4, 5], (Instr.vicmp (j m)).entryOk = true) ∧
     passesB t (j 2) [(.int8, .reg 2), (.int8, .reg 3)] = true ∧
     pAfter (exec (.vicmp (j 2)) t) = some 0 ∧ pAfter (exec (.vicmp (j 3)) t) = some 0xff) := by decide +kernel

/-- VSEL by a predicate and by a mask; VCLASS as a word and as a test (R136, R137). -/
theorem witness_VectorSelectAndClass :
    let s := withR (vholding [(2, .fp32, 0x3f800000), (3, .fp32, 0x80000000), (4, .mask, 0xffff0000)]) fun r =>
      (r.wrP 8 3 0b10)
    let i : VInsn := ⟨full, .reg 1, .reg 2, .reg 3, .reg 3, 0, .fp32, none⟩
    let j : VInsn := ⟨full, .reg 1, .reg 2, .reg 3, .reg 4, 1, .fp32, none⟩
    let k : VInsn := ⟨full, .reg 1, .reg 3, .reg 0, .reg 0, 0, .fp32, none⟩
    (Instr.vsel i).entryOk = true ∧ passesB s i [(.fp32, .reg 2), (.fp32, .reg 3)] = true ∧
    lAfter (exec (.vsel i) s) 1 = some 0x80000000 ∧ (Instr.vsel j).entryOk = true ∧
    passesB s j [(.fp32, .reg 2), (.fp32, .reg 3), (.mask, .reg 4)] = true ∧
    lAfter (exec (.vsel j) s) 1 = some 0x3f800000 ∧ (Instr.vclass k).entryOk = true ∧ passesB s k [(.fp32, .reg 3)] = true ∧
    lAfter (exec (.vclass k) s) 1 = some 8 ∧
    (let t : VInsn := { k with d := .alt 1, b := .imm 0b1000 }
     (Instr.vclass t).entryOk = true ∧ pAfter (exec (.vclass t) s) = some 0xff) := by decide +kernel

/-- Vector registers whose lanes differ: lane l of register n holds 16 n + l. -/
def stairs (f : Fmt) : State :=
  withR base fun r => [2, 3].foldl (fun r n =>
    r.wrV n ⟨(List.range 8).map fun l => BitVec.ofNat 32 (16 * n.toNat + l), f, [0x7f, 0x7f]⟩) r

/-- Moves of words and elements (R150 to R153, R157, R158). -/
theorem witness_VectorMovement :
    let s := withR (stairs .uint32) fun r => (r.wrP 8 3 0b11000000).wrS 5 3
    let i (a b c : Src) (m : BitVec 4) (f : Fmt) : VInsn := ⟨full, .reg 1, a, b, c, m, f, none⟩
    let mov := i (.reg 2) (.imm 4) (.reg 0) 1 .raw
    let bc0 := i (.reg 5) (.reg 0) (.reg 0) 0 .uint32
    let bc1 := i (.reg 2) (.reg 5) (.reg 0) 1 .uint32
    let ext : VInsn := { i (.reg 2) (.reg 5) (.reg 0) 0 .uint32 with d := .alt 7 }
    let shuf := i (.reg 2) (.reg 3) (.reg 0) 0 .uint32
    let slide := i (.reg 2) (.reg 3) (.imm 6) 0 .uint32
    let compr := i (.reg 2) (.reg 0) (.reg 3) 0 .uint32
    let lane := i (.reg 5) (.imm 2) (.reg 0) 0 .uint32
    (Instr.vmov mov).entryOk = true ∧ (Instr.vmov { mov with mod := 0, b := .reg 0 }).entryOk = true ∧
    passesB s mov [(.raw, .reg 2)] = true ∧
    thenNext (exec (.vmov mov) s) (fun t => (t.x.r.rdV 1).tag == .e4m3) = true ∧
    (Instr.vbcast bc0).entryOk = true ∧ lAfter (exec (.vbcast bc0) s) 1 = some 3 ∧
    (Instr.vbcast bc1).entryOk = true ∧ passesB s bc1 [(.uint32, .reg 2)] = true ∧
    (fireAll [.reg 2] [] s.x).2.r = s.x.r ∧
    lAfter (exec (.vbcast bc1) s) 1 = some 35 ∧ (Instr.vextr ext).entryOk = true ∧ sAfter (exec (.vextr ext) s) 7 = some 35 ∧
    (Instr.vshuf shuf).entryOk = true ∧ passesB s shuf [(.uint32, .reg 2), (.uint32, .reg 3)] = true ∧
    lAfter (exec (.vshuf shuf) s) 1 = some 32 ∧ (Instr.vslide slide).entryOk = true ∧
    thenNext (exec (.vslide slide) s) (fun t => (t.x.r.rdV 1).lanes.take 3 == [38, 39, 48]) = true ∧
    (Instr.vcompr compr).entryOk = true ∧
    thenNext (exec (.vcompr compr) s) (fun t => (t.x.r.rdV 1).lanes.take 3 == [38, 39, 0]) = true ∧
    (Instr.vlane lane).entryOk = true ∧
    thenNext (exec (.vlane lane) s) (fun t => (t.x.r.rdV 1).lanes.take 3 == [3, 5, 7]) = true := by decide +kernel

/-- Packing, unpacking, scanning and reducing, and tags that do not fit (R154 to R156). -/
theorem witness_VectorPackAndReduce :
    let s := vholding [(2, .int16, 0x7fff0001), (3, .int16, 0x80000002), (4, .int32, 5), (5, .fp32, 0)]
    let pack (m : BitVec 4) : VInsn := ⟨full, .reg 1, .reg 2, .reg 3, .reg 0, m, .int8, none⟩
    let unpk (a : Src) : VInsn := ⟨full, .reg 1, a, .imm 1, .reg 0, 0, .int32, none⟩
    let scan (m : BitVec 4) : VInsn := ⟨full, .reg 1, .reg 4, .reg 0, .reg 0, m, .int32, none⟩
    let redi (m : BitVec 4) : VInsn := ⟨full, .alt 7, .reg 4, .reg 0, .reg 0, m, .int32, none⟩
    (Instr.vpack (pack 0)).entryOk = true ∧ (Instr.vpack (pack 1)).entryOk = true ∧ s.x.guard full ≠ 0 ∧
    (s.x.r.rdV 2).lanes.length = s.x.nlanes ∧ (s.x.r.rdV 2).tag = (s.x.r.rdV 3).tag ∧ Fmt.int16.isInt = true ∧
    lAfter (exec (.vpack (pack 0)) s) 1 = some 0x7f017f01 ∧ lAfter (exec (.vpack (pack 1)) s) 1 = some 0xff01ff01 ∧
    faultAfter (exec (.vpack { pack 0 with b := .reg 4 }) s) = some .formatTag ∧
    (Instr.vunpk (unpk (.reg 2))).entryOk = true ∧ lAfter (exec (.vunpk (unpk (.reg 2))) s) 1 = some 1 ∧
    faultAfter (exec (.vunpk (unpk (.reg 5))) s) = some .formatTag ∧
    (∀ m ∈ [0, 1, 2, 3], (Instr.vscan (scan m)).entryOk = true) ∧ passesB s (scan 0) [(.int32, .reg 4)] = true ∧
    thenNext (exec (.vscan (scan 0)) s) (fun t => (t.x.r.rdV 1).lanes.take 3 == [5, 10, 15]) = true ∧
    thenNext (exec (.vscan (scan 1)) s) (fun t => (t.x.r.rdV 1).lanes.take 3 == [0, 5, 10]) = true ∧
    (∀ m ∈ [0, 1, 2, 3, 4, 5], (Instr.vredi (redi m)).entryOk = true) ∧ s.x.nlanes = 2 ^ 3 ∧
    sAfter (exec (.vredi (redi 0)) s) 7 = some 40 ∧ sAfter (exec (.vredi (redi 5)) s) 7 = some 0 := by decide +kernel

/-- VCVT of fp32 to bf16 in part 1 and to int8, an overflow pushed as a token, and a source outside F (R141, R142). -/
theorem witness_VectorConversion :
    let s := vholding [(1, .bf16, 0x11112222), (2, .fp32, 0x3fc00000), (3, .mxe4m3, 0), (4, .fp32, 0x447a0000)]
    let i (a : Src) (f : Fmt) : VInsn := ⟨full, .reg 1, a, .imm 1, .reg 0, 0, f, none⟩
    (Instr.vcvt (i (.reg 2) .bf16)).entryOk = true ∧ s.x.guard full ≠ 0 ∧
    (fireAll [.reg 2] [] s.x).1 = [] ∧ (s.x.r.rdV 2).lanes.length = s.x.nlanes ∧ (s.x.r.rdV 1).lanes.length = s.x.nlanes ∧
    Fmt.fp32.inF = true ∧ s.x.r.fmode.getLsbD 1 = false ∧
    thenNext (exec (.vcvt (i (.reg 2) .bf16)) s) (fun t =>
      (t.x.r.rdV 1).lanes == [0x11112222, 0x11112222, 0x11112222, 0x11112222, 0x3fc03fc0, 0x3fc03fc0, 0x3fc03fc0, 0x3fc03fc0])
      = true ∧
    Fmt.mxe4m3.inF = false ∧ s.x.fault = none ∧ faultAfter (exec (.vcvt (i (.reg 3) .bf16)) s) = some .formatTag ∧
    ((withR s fun r => { r with fmode := 2 }).x.r.fmode.getLsbD 1 = true) ∧
    (let v := produced 6 32
     let u := s.setX { s.x with views := [v] }
     let j : VInsn := ⟨full, .reg 1, .reg 4, .imm 0, .ring 6 0, 0, .int8, none⟩
     (Instr.vcvt j).entryOk = true ∧ u.x.view 6 true = some v ∧ 32 ≤ v.slotsz ∧
     thenNext (exec (.vcvt j) u) (fun t => t.x.fx == [.push v.id ⟨.raw,
       leBytes 16 0xff ++ [15, 0, 0, 0] ++ leBytes 4 8 ++ List.replicate 8 0⟩] && (t.x.r.rdV 1).lanes[0]? == some 0x7f7f7f7f) = true) := by decide +kernel

/-- VMXQ's two passes and VMXDQ, with sources that they refuse (R143, R144). -/
theorem witness_MxConversion :
    let s := withR (vholding [(2, .fp32, 0x41000000), (4, .int8, 0)]) fun r =>
      r.wrV 1 ⟨List.replicate 8 0, .mxe4m3, [0x7a, 0x7f]⟩
    let q (m : BitVec 4) (a : Src) : VInsn := ⟨full, .reg 1, a, .imm 0, .reg 0, m, .mxe4m3, none⟩
    let d (a : Src) : VInsn := ⟨full, .reg 5, a, .imm 0, .reg 0, 0, .fp32, none⟩
    (Instr.vmxq (q 0 (.reg 2))).entryOk = true ∧ (Instr.vmxq (q 1 (.reg 2))).entryOk = true ∧
    s.x.guard full ≠ 0 ∧ (s.x.r.rdV 1).lanes.length = s.x.nlanes ∧ Fmt.fp32.isArith = true ∧
    s.x.r.fmode.getLsbD 1 = false ∧
    thenNext (exec (.vmxq (q 1 (.reg 2))) s) (fun t => (t.x.r.rdV 1).side == [0x7a, 0x7f] && (t.x.r.rdV 1).tag == .mxe4m3) = true ∧
    lAfter (exec (.vmxq (q 0 (.reg 2))) s) 1 = some 0x78787878 ∧
    Fmt.int8.isArith = false ∧ s.x.fault = none ∧ faultAfter (exec (.vmxq (q 0 (.reg 4))) s) = some .formatTag ∧
    (Instr.vmxdq (d (.reg 1))).entryOk = true ∧ Fmt.mxe4m3.isMx = true ∧
    lAfter (exec (.vmxdq (d (.reg 1))) (withR s fun r => r.wrV 1 ⟨List.replicate 8 0x38, .mxe4m3, [0x80, 0x7f]⟩)) 5
      = some 0x40000000 ∧
    Fmt.fp32.isMx = false ∧ faultAfter (exec (.vmxdq (d (.reg 2))) s) = some .formatTag := by decide +kernel

/-- A floating-point reduction and dot products of both forms (R145, R146). -/
theorem witness_VectorReductionAndDotProduct :
    let s := vholding [(2, .fp32, 0x3f800000), (3, .int8, 0x01020304), (4, .int32, 1), (5, .bf16, 0x40003f80), (6, .fp32, 0)]
    let red (k : BitVec 6) : VInsn := ⟨full, .alt 7, .reg 2, .imm k, .reg 0, 0, .fp32, none⟩
    let dot (d : Dst) (a : Src) (c : Src) (m : BitVec 4) (f : Fmt) : VInsn := ⟨full, d, a, a, c, m, f, none⟩
    (∀ k ∈ [0, 1, 2], (Instr.vredf (red k)).entryOk = true) ∧ passesB s (red 0) [(.fp32, .reg 2)] = true ∧
    s.x.nlanes * (32 / fmtWidth .fp32) = 2 ^ 3 ∧ sAfter (exec (.vredf (red 0)) s) 7 = some 0x41000000 ∧
    sAfter (exec (.vredf (red 1)) s) 7 = some 0x3f800000 ∧
    (Instr.vdot (dot (.reg 1) (.reg 3) (.reg 4) 1 .int8)).entryOk = true ∧
    passesB s (dot (.reg 1) (.reg 3) (.reg 4) 1 .int8) [(.int8, .reg 3), (.int8, .reg 3), (.int32, .reg 4)] = true ∧
    lAfter (exec (.vdot (dot (.reg 1) (.reg 3) (.reg 4) 1 .int8)) s) 1 = some 31 ∧
    (Instr.vdot (dot (.alt 7) (.reg 3) (.reg 0) 0 .int8)).entryOk = true ∧
    sAfter (exec (.vdot (dot (.alt 7) (.reg 3) (.reg 0) 0 .int8)) s) 7 = some 240 ∧
    (Instr.vdot (dot (.reg 1) (.reg 5) (.reg 6) 1 .bf16)).entryOk = true ∧
    lAfter (exec (.vdot (dot (.reg 1) (.reg 5) (.reg 6) 1 .bf16)) s) 1 = some 0x40a00000 ∧
    (Instr.vdot (dot (.reg 1) (.reg 5) (.reg 0) 0 .bf16)).entryOk = true ∧ s.x.nlanes * 2 = 2 ^ 4 ∧
    lAfter (exec (.vdot (dot (.reg 1) (.reg 5) (.reg 0) 0 .bf16)) s) 1 = some 0x42200000 := by decide +kernel

/-! ### Memory (R159 to R181) -/

/-- Handle b1 admits every access to the low `n` bytes of a space. -/
def withB (s : State) (sp : BitVec 3) (n : Nat) : State :=
  withR s fun r => r.wrB 1 ⟨0, BitVec.ofNat 56 n, true, sp, true, true, true⟩

/-- An access of register 1 at s2 + `off` through b1. -/
def at2 (sp : Space) (f : Fmt) (m : BitVec 3) (off : BitVec 15) : MInsn := ⟨full, .reg 1, 2, 0, sp, 1, f, m, off⟩

/-- Every clause of the access checks, at the first byte and at the limit: BOUNDS past it, ALIGN, a barrier's bytes, and
the homes in each space (R159, R162, R165). -/
theorem witness_AccessChecks :
    let s := withB base 2 32768
    let c := withB base 1 4096
    let w := withB base 3 4096
    let g := mapped (withB base 0 65536)
    let bar : State := { c with
      kern := [{ (default : Region) with rid := 0, cmap := [0] }]
      chan := { c.chan with bars := [⟨⟨0, 0, 1⟩, 0, 64, ⟨false, false, 1, 0, 0, 0⟩, false⟩] } }
    (s.access s.x 1 2 .load 32764 4 4 0 = .ok [homeCell ⟨0, 0, 0⟩ 32764, homeCell ⟨0, 0, 0⟩ 32765, homeCell ⟨0, 0, 0⟩ 32766,
      homeCell ⟨0, 0, 0⟩ 32767] []) ∧
    s.access s.x 1 2 .load 32765 4 4 0 = .fail { code := .bounds, access := 1, lane := 0, handle := 1, ea := 32765 } ∧
    s.access s.x 1 2 .store 2 4 4 0 = .fail { code := .align, access := 2, lane := 0, handle := 1, ea := 2 } ∧
    c.clusterKind 0 0 0 4 = none ∧ c.access c.x 1 1 .atomic 0 1 1 0 = .ok [homeCluster 0 0 0] [] ∧
    bar.clusterKind 0 0 79 1 = some .barrierState ∧ bar.clusterKind 0 0 80 1 = none ∧
    (w.die 0).fenced = [] ∧ w.access w.x 1 3 .load 0 1 1 0 = .ok [homeWeight 0 0] [] ∧
    (∀ a ∈ [65532, 65533, 65534, 65535], g.xlat 0 a 1 = .ok a 0x202000) ∧
    (match g.access g.x 1 0 .load 65532 4 4 0 with | .ok hs _ => hs == [65532, 65533, 65534, 65535] | _ => false) = true ∧
    (withB base 0 65536).xlat 0 0 1 = .bad .page (0, 0) := by decide +kernel

/-- LD of a signed byte, ST, their faults, and a stored byte read back in the block (R171, R49). -/
theorem witness_LoadsAndStores :
    let s : State := { withR (withB base 1 4096) (·.wrS 1 0x1234) with
      mem := { base.mem with cells := [(homeCluster 0 0 5, 0x80)] } }
    let i := at2 .cluster .int8 0 5
    s.x.on0 full = true ∧ s.access s.x 1 1 .load (address s i 0) 1 1 0 = .ok [homeCluster 0 0 5] [] ∧
    s.access s.x 1 1 .store (address s i 0) 1 1 0 = .ok [homeCluster 0 0 5] [] ∧
    sAfter (exec (.ld i) s) 1 = some 0xffffffffffffff80 ∧
    thenNext (exec (.st i) s) (fun t => t.x.fx == [.store [(homeCluster 0 0 5, 0x34)]]) = true ∧
    faultAfter (exec (.ld { i with fmt := .int16 }) s) = some .align ∧
    faultAfter (exec (.st { i with off := 4096 }) s) = some .bounds ∧
    (([(homeCluster 0 0 5, 7)] : List Host.Cell).map Prod.fst).Nodup ∧ s.x.fault = none ∧
    (s.x.store 1 [5] [(homeCluster 0 0 5, 7)]).fault = none ∧
    (loadByte s (s.x.store 1 [5] [(homeCluster 0 0 5, 7)]) (homeCluster 0 0 5)).1 = 7 := by decide +kernel

/-- The outcome of an access of several bytes passes. -/
def accOk (a : Access) : Bool := match a with | .ok _ _ => true | _ => false

/-- LDV, STV, LDG and STG under two lanes, into a register and a push, guarded off, and a source of another tag
(R172, R173). -/
theorem witness_VectorMemory :
    let s : State := { withR (withB base 1 4096) (fun r =>
        ((r.wrP 8 2 0b101).wrV 1 (splat .fp32 0x11223344)).wrV 3 ⟨[8, 0, 4, 0, 0, 0, 0, 0], .raw, [0x7f, 0x7f]⟩) with
      mem := { base.mem with cells := [(homeCluster 0 0 8, 0xab)] } }
    let i : MInsn := { at2 .cluster .fp32 0 0 with g := ⟨2, false⟩ }
    let j : MInsn := { i with index := 3 }
    let m := s.x.guard i.g
    m = 0b101 ∧ accOk (spanAccess s s.x i .load m) = true ∧ accOk (spanAccess s s.x i .store m) = true ∧
    accOk (gatherAccess s s.x j .load false 0 m) = true ∧ accOk (gatherAccess s s.x j .store false 0 m) = true ∧
    (s.x.r.rdV 1).tag = .fp32 ∧
    thenNext (exec (.ldv i) s) (fun t => (t.x.r.rdV 1).lanes.take 3 == [0, 0x11223344, 0xab]) = true ∧
    thenNext (exec (.ldg j) s) (fun t => (t.x.r.rdV 1).lanes.take 3 == [0xab, 0x11223344, 0]) = true ∧
    thenNext (exec (.stv i) s) (fun t => t.x.staged.length == 8) = true ∧
    thenNext (exec (.stg j) s) (fun t => (t.x.staged.find? (·.1 == homeCluster 0 0 11)) == some (homeCluster 0 0 11, 0x11))
      = true ∧
    s.x.guard ⟨5, false⟩ = 0 ∧ s.x.fault = none ∧ faultAfter (exec (.stv { i with fmt := .bf16 }) s) = some .formatTag := by
  decide +kernel

/-- The access of a tile's 16,384 rows bytes at address 0 passes, each byte at its home (R174). -/
theorem witness_TileMovement_rows (p : Perm) :
    let s := withB base 1 65536
    tileAccess s s.x { at2 .cluster .int8 0 0 with d := .alt 3 } p =
      .ok (((tileOffsets false 128).map (0 + ·)).map (homeCluster 0 0)) [] := by
  cases p <;> rfl

/-- A tile's scale plane from cluster store and back, clearing, copying, and a tile that is not allocated (R174, R242). -/
theorem witness_TileMovement :
    let s := withB base 1 65536
    let i : MInsn := { at2 .cluster .int8 1 0 with d := .alt 3 }
    let few : State := s.setX { s.x with ntiles := 2 }
    s.x.on0 full = true ∧ accOk (tileAccess s s.x i .load) = true ∧
    accOk (tileAccess s s.x { i with fmt := .raw } .store) = true ∧ s.x.ntiles = 8 ∧
    smOk 0 none (s.x.r.rdT 3).data = true ∧ smOk 0x7f none (s.x.r.rdT 3).scale = true ∧
    thenNext (exec (.tzero ⟨full, 3, 0, 0, 0, 0, .bf16, .fp32, 0, 0⟩) s) (fun t => (t.x.r.rdT 3).tag == .bf16) = true ∧
    few.x.ntiles ≤ (3 : BitVec 6).toNat % 8 ∧ faultAfter (exec (.ldt i) few) = some .tileAlloc ∧
    faultAfter (exec (.tmov ⟨full, 3, 0, 0, 0, 0, .raw, .fp32, 0, 0⟩) few) = some .tileAlloc := by decide +kernel

/-- ATOM, CAS, ATOMV, XLD, XST, XATOM and XDRAIN leave their effect to the commit; a device number out of range and a
misaligned address (R52, R374). -/
theorem witness_CommitAccessesStaged :
    let s := withR (withB base 1 4096) fun r => (((r.wrS 4 64).wrV 1 (splat .int32 5)).wrV 3 (splat .raw 8)).wrP 8 2 0b11
    let i := at2 .cluster .int32 0 4
    let j : MInsn := { at2 .cluster .int32 0 0 with index := 3, g := ⟨2, false⟩ }
    let x : SInsn := ⟨full, 1, 4, 5, 0, 6, 0, 16⟩
    s.x.on0 full = true ∧ s.access s.x 1 1 .atomic (address s i 0) 4 4 0
      = .ok [homeCluster 0 0 4, homeCluster 0 0 5, homeCluster 0 0 6, homeCluster 0 0 7] [] ∧
    thenNext (exec (.atom i) s) (fun t => t.x.access.isSome) = true ∧
    s.x.guard j.g ≠ 0 ∧ (s.x.r.rdV 1).tag = .int32 ∧ accOk (gatherAccess s s.x j .atomic false 0 (s.x.guard j.g)) = true ∧
    thenNext (exec (.atomv j) s) (fun t => t.x.access.isSome) = true ∧
    Fmt.ofCode (x.imm.extractLsb' 0 5) = some .int32 ∧ (s.x.rdS x.c).toNat < 2 ^ 20 ∧ (s.x.rdS x.a).toNat % 4 = 0 ∧
    thenNext (exec (.xst x) s) (fun t => t.x.fx == [.xst 64 0 4 0 0]) = true ∧
    (let u := withR s fun r => (r.wrS 4 66).wrS 6 0x100000
     2 ^ 20 ≤ (u.x.rdS 6).toNat ∧ faultAfter (exec (.xld x) u) = some .bounds ∧ u.x.fault = none ∧
     (u.x.rdS 4).toNat % 4 ≠ 0 ∧ faultAfter (exec (.xatom { x with c := 0 }) u) = some .align) := by decide +kernel

/-- An atomic add at its commit, on a word whose old bytes stand in memory (R175 to R177). -/
theorem witness_AtomicsAct :
    let h := homeCell ⟨0, 0, 0⟩ 8
    let s : State := { base with
      mem := { base.mem with cells := [(h, 0xff)] }
      x := { base.x with access := some (.atom h 4 0 .uint32 2 0 5 false) } }
    s.mem.wf = true ∧ h + 4 ≤ 2 ^ 64 ∧ ((s.strand s.x.who).map (·.buf)).getD [] = [] ∧
    s.accessX.x.rdS 5 = 0xff ∧ s.accessX.mem.cells = [(h, 1), (h + 1, 1)] := by decide +kernel

/-- BND narrowed to its limit and past it, BNDQ's four queries, PREF and the boundaries (R179 to R181, R189). -/
theorem witness_BoundsAndPhases :
    let s := withR (withB base 1 4096) fun r => (r.wrS 2 4000).wrS 3 96
    let i : MInsn := ⟨full, .alt 4, 2, 3, .cluster, 1, .raw, 0b101, 0⟩
    let q (m : BitVec 3) : MInsn := ⟨full, .reg 7, 2, 3, .cluster, 1, .raw, m, 0⟩
    s.x.on0 full = true ∧
    thenNext (exec (.bnd i) s) (fun t => t.x.r.rdB 4 == ⟨4000, 4096, true, 1, true, false, true⟩) = true ∧
    faultAfter (exec (.bnd { i with off := 1 }) s) = some .bounds ∧ s.x.fault = none ∧
    (∀ m ∈ [0, 1, 2, 3], (Instr.bndq (q m)).entryOk = true) ∧
    sAfter (exec (.bndq (q 0)) s) 7 = some 0 ∧ sAfter (exec (.bndq (q 1)) s) 7 = some 4096 ∧
    sAfter (exec (.bndq (q 2)) s) 7 = some 0b10010111 ∧ sAfter (exec (.bndq (q 3)) s) 7 = some 1 ∧
    sAfter (exec (.bndq { q 3 with off := 1 }) s) 7 = some 0 ∧
    thenNext (exec (.publ ⟨full, 0, 0, 0, 0, 0, 2, 0⟩) s) (fun t => t.x.fx == [.publish 2]) = true ∧
    thenNext (exec (.phase ⟨full, 0, 0, 0, 0, 0, 2, 0⟩) s) (fun t => t.x.fx == [.publish 2, .refresh 2]) = true ∧
    thenNext (exec (.snap ⟨full, 0, 0, 0, 0, 0, 2, 0⟩) s) (fun t => t.x.fx == [.refresh 2]) = true := by decide +kernel

/-- PREF of 64 bytes that are there, and of cluster store, which it drops (R179). -/
theorem witness_BoundsAndPhases_prefetch :
    let s := (mapped (withR base fun r => r.wrB 1 ⟨0, 4096, true, 0, true, true, true⟩))
    let i (sp : Space) : MInsn := ⟨full, .reg 0, 2, 0, sp, 1, .raw, 0, 0⟩
    (i .global).sh = 0 ∧ (address s (i .global) 0).toNat % 2 ^ 56 / 64 * 64 = 0 ∧
    accOk (s.accessAt s.x 1 0 .load (address s (i .global) 0) 0 64 1 0) = true ∧
    thenNext (exec (.pref (i .global)) s) (fun t => t.x.fx == [.prefetch 0 64]) = true ∧
    thenNext (exec (.pref (i .cluster)) s) (fun t => t.x.fx == []) = true := by decide +kernel

/-! ### Rings, barriers and jobs (R194 to R225, R436, R437) -/

/-- A ring of region 0 with slots that hold one byte each. -/
def ring3 (slots : List Slot) : Ring :=
  { (default : Ring) with id := ⟨0, 0, 3⟩, slotszM1 := 0, nslotM1 := 3, slots := slots, arrived := slots.length }

/-- A filled slot with its number, reserved or not. -/
def slotOf (n : Nat) (res : Bool) : Slot := { tok := ⟨.raw, [BitVec.ofNat 8 n]⟩, num := n, res := res }

/-- The counts that R204 admits and those at their ends that it refuses; a ring of either direction and none; the flush of
a ring whose head is reserved (R203 to R207). -/
theorem witness_RingsPushedPoppedAndFlushed :
    let s := withViews [consumed 5 .raw [7], produced 6 16]
    let i (h : BitVec 5) (n : BitVec 17) : SInsn := ⟨full, 7, 0, 0, h, 0, 0, n⟩
    s.x.on0 full = true ∧ s.x.view 5 false = some (consumed 5 .raw [7]) ∧ s.x.view 6 true = some (produced 6 16) ∧
    countOf s (i 5 1) = 1 ∧ countOf s (i 5 256) = 256 ∧ countOf s (i 5 257) = 257 ∧ countOf s (i 5 0) = 0 ∧
    s.x.view 6 false = none ∧ s.x.view 5 true = none ∧ s.x.fault = none ∧
    (consumed 5 .raw [7]).pos + 1 ≤ (consumed 5 .raw [7]).toks.length ∧ Fmt.ofCode ((0 : BitVec 6).setWidth 5) = some .fp32 ∧
    sAfter (exec (.rwaitf (i 5 1)) s) 7 = some 1 ∧ sAfter (exec (.rwaite (i 6 2)) s) 7 = some 2 ∧
    thenNext (exec (.rrels (i 5 1)) s) (fun t => (t.x.view 5 false).map (·.frees) == some [1]) = true ∧
    thenNext (exec (.radvw (i 6 2)) s) (fun t => t.x.fx.length == 2) = true ∧
    faultAfter (exec (.rrels (i 6 1)) s) = some .ringState ∧ faultAfter (exec (.radvw (i 6 257)) s) = some .ringState ∧
    (∀ m ∈ [0, 1, 2, 3, 4, 5, 6, 7], (Instr.rstat { i 5 0 with mod := m }).entryOk = true) ∧
    sAfter (exec (.rstat { i 5 0 with mod := 4 }) s) 7 = some 2 ∧
    (let q := ring3 [slotOf 0 true, slotOf 1 false, slotOf 2 false]
     (∀ t ∈ q.slots, t.gone = false ∧ t.note = 0) ∧ (∀ t ∈ q.slots.take 1, t.res = true) ∧
     (∀ t ∈ q.slots.drop 1, t.res = false) ∧ q.flush.2 = 2 ∧ q.flush.1.notices = [2] ∧
     (let u : State := { base with
        x := { base.x with late := [(4, 0)], fx := [.flush ⟨0, 0, 3⟩ 4], first := [5] }, chan := { base.chan with rings := [q] } }
      u.ring ⟨0, 0, 3⟩ = some q ∧ u.x.active = true ∧ u.x.fault = none ∧ u.x.todo = [] ∧ u.lateValues = [(4, 2)] ∧
      thenNext (exec .blockCommit u) (fun t => t.x.todo == [5] && t.x.late == [(4, 2)]) = true ∧
      sAfter (exec (.rflush (i 5 0)) (s.setX { s.x with idx := 4, late := [(4, 2)] })) 7 = some 2)) := by
  decide +kernel

/-- A barrier held, one whose OVF is set, one of another context, an index that the table does not hold, and values at
the ends of their ranges (R222 to R225). -/
theorem witness_BarrierInstructions :
    let o : BarObj := ⟨true, false, 3, 1, 64, -8⟩
    let s := withR (base.setX { base.x with bars := [(1, some o), (2, none), (3, some { o with ovf := true })] }) fun r =>
      ((r.wrS 2 1).wrS 3 65535).wrS 4 0x7ffffffffff
    let i (h : BitVec 5) (a b : BitVec 6) (m : BitVec 4) : SInsn := ⟨full, 7, a, b, h, 0, m, 0⟩
    s.x.on0 full = true ∧ s.x.bars.find? (·.1 == 1) = some (1, some o) ∧ s.x.bars.find? (·.1 == 2) = some (2, none) ∧
    s.x.bars.find? (·.1 == 4) = none ∧ s.x.fault = none ∧ o.ovf = false ∧ (s.x.rdS 4).toNat < 2 ^ 43 ∧
    thenNext (exec (.binit (i 1 2 4 0)) s) (fun t => t.x.fx == [.barrier ⟨0, 0, 1⟩ (.init 1 0x7ffffffffff) 0]) = true ∧
    thenNext (exec (.binit (i 1 3 4 0)) s) (fun t => t.x.fault.isNone) = true ∧
    faultAfter (exec (.binit (i 1 0 4 0)) s) = some .barrierState ∧
    thenNext (exec (.barv (i 1 0 4 1)) s) (fun t => t.x.fx == [.barrier ⟨0, 0, 1⟩ (.credit 0x7ffffffffff) 0]) = true ∧
    faultAfter (exec (.barv (i 1 0 4 0)) (withR s (·.wrS 4 0x80000000000))) = some .barrierState ∧
    faultAfter (exec (.bwait (i 3 0 0 0)) s) = some .barrierState ∧
    thenNext (exec (.bwait (i 1 0 0 0)) s) (fun t => t.x.fault.isNone) = true ∧
    (∀ m ∈ [0, 1, 2, 3, 4, 5], (Instr.btest (i 1 0 0 m)).entryOk = true) ∧
    sAfter (exec (.btest (i 1 0 0 2)) s) 7 = some 0xfffffffffffffff8 ∧
    faultAfter (exec (.bexp (i 2 0 4 0)) s) = some .protect ∧ faultAfter (exec (.btest (i 4 0 0 0)) s) = some .barrierState := by
  decide +kernel

/-- Copies within cluster store, a record's access, a ring-fed copy's ring, and a destination that the handle refuses
(R210 to R213, R245). -/
theorem witness_CopyInstructions :
    let s := withR (withB base 1 4096) fun r => ((r.wrS 2 64).wrS 3 128).wrS 4 16
    let i (imm : BitVec 17) : SInsn := ⟨full, 7, 2, 3, 0, 4, 2, imm⟩
    let lin := i 0b1_1_001_001_0001_0001
    let fed : RView := produced 5 64
    let u : State := { s with
      x := { s.x with views := [fed] }
      chan := { s.chan with rings := [{ ring3 [] with prodEl := 0x10003 }] } }
    let job (o : Out) : Option (List Word) :=
      match o with
      | .next t => t.x.fx.findSome? fun f => match f with | .job j => some j.args | _ => none
      | _ => none
    s.x.on0 full = true ∧ u.copyRing u.x 5 = some ⟨0, 0, 3⟩ ∧
    thenNext (exec (.cpyq { i (1 <<< 7 ||| 1 <<< 5) with c := 1, h := 5 }) u) (fun t => t.x.r.jobctr == 1) = true ∧
    (s.x.rdS 4).toNat < 2 ^ 32 ∧ (s.x.r.rdB 1).passes 1 .store 64 16 = true ∧ (s.x.r.rdB 1).passes 1 .load 128 16 = true ∧
    64 + 16 ≤ s.x.spaceEnd 1 ∧ s.clusterKind 0 0 64 16 = none ∧ s.clusterKind 0 0 128 16 = none ∧
    sAfter (exec (.cpy lin) s) 7 = some 1 ∧
    job (exec (.cpy lin) s) = some [64, 128, 16, 1, 1, 1, 1] ∧
    (let t := withR s (·.wrS 4 4096)
     faultAfter (exec (.cpy lin) t) = some .bounds ∧ t.x.fault = none) ∧
    (match s.access s.x 1 1 .load 64 96 32 0 with | .ok (h :: _) _ => h == homeCluster 0 0 64 | _ => false) = true ∧
    thenNext (exec (.cpyt { i (0b001_001_0001_0001 ||| 0x8000) with c := 1 }) s) (fun t => t.x.r.jobctr == 1) = true ∧
    thenNext (exec (.cpyb { i (1 ||| 1 <<< 4 ||| 1 <<< 8 ||| 15 <<< 9) with c := 4 }) s) (fun t => t.x.r.jobctr == 1) = true ∧
    (s.x.r.rdB 1).passes 1 .load 64 (16 * 16 * 8) = true := by decide +kernel

/-! ### Matrix islands, tiles, trees, skive, routing (R226 to R273, R383 to R387) -/

/-- The job that a block submits in a step. -/
def jobAfter (o : Out) : Option JobReq :=
  match o with
  | .next t => t.x.fx.findSome? fun f => match f with | .job j => some j | _ => none
  | _ => none

/-- A ring's view whose head token holds a tile's 32 columns of E2M1. -/
def blockView : RView := { consumed 5 .e2m1 (List.replicate 2048 0) with id := ⟨0, 0, 3⟩ }

/-- A task from a tile and one from a ring's token, with and without Z; a name that is not bound; MZERO (R231, R232, R238,
R239). -/
theorem witness_MatrixTasks :
    let s := withR (withViews [blockView]) fun r => (r.wrT 2 ⟨[], [], .e2m1⟩).wrS 4 0x20_0003_0002_0001
    let i (m : BitVec 4) (ta : BitVec 4) (sy : BitVec 6) : TInsn := ⟨full, 9, ta, 0, 4, sy, .e2m1, .e2m1, m, 0xf00⟩
    s.x.on0 full = true ∧ (Instr.mtask (i 8 2 0)).entryOk = true ∧ (Instr.mtask (i 9 0 5)).entryOk = true ∧
    (s.x.r.rdT 2).tag = .e2m1 ∧ s.x.r.acc[1] = .unbound ∧ s.x.fault = none ∧ (s.x.rdS 4).getLsbD 53 = true ∧
    (s.x.view 5 false).isSome = true ∧ blockView.toks.length = 1 ∧ 16 * 32 * fmtWidth .e2m1 ≤ 2048 ∧
    (jobAfter (exec (.mtask (i 8 2 0)) s)).map (fun j => j.bytes.take 16) =
      some [0x10, 0, 8, 8, 5, 1, 0, 0, 32, 0, 1, 0, 2, 0, 3, 0] ∧
    faultAfter (exec (.mtask (i 0 2 0)) s) = some .tileAlloc ∧
    (let u := withR s fun r => { r with acc := r.acc.set 1 (.bound 0 0) }
     u.x.r.acc[1] ≠ .unbound ∧ (jobAfter (exec (.mtask (i 0 2 0)) u)).map (·.args) = some [1]) ∧
    (jobAfter (exec (.mzero ⟨full, 9, 0, 0, 0, 0, .fp32, .fp32, 0, 0xf00⟩) s)).map (fun j => j.bytes.take 6) =
      some [0x12, 0, 0, 0, 5, 1] := by decide +kernel

/-- The task from the ring's token takes it and binds the name. -/
theorem test_mtask_ring :
    thenNext (exec (.mtask ⟨full, 9, 0, 0, 4, 5, .e2m1, .e2m1, 9, 0xf00⟩)
      (withR (withViews [blockView]) (·.wrS 4 0x20_0003_0002_0001)))
      (fun t => t.x.r.acc[1] == .pending && (t.x.view 5 false).map (·.pos) == some 1) = true := by decide +kernel

/-- MRD's three forms of a bound name, and of an unbound one (R241). -/
theorem witness_AccumulatorRead :
    let s := withR ((withB base 1 65536).setX { (withB base 1 65536).x with accs := [(1, [(129, 0x40000000)], 0b10000)] })
      fun r => (({ r with acc := r.acc.set 1 (.bound 2 3) }).wrS 4 0).wrS 5 512
    let i (m : BitVec 4) (td : BitVec 4) (sx sy : BitVec 6) (aux : BitVec 12) : TInsn :=
      ⟨full, td, 9, 0, sx, sy, .fp32, .fp32, m, aux⟩
    s.x.on0 full = true ∧ (Instr.mrd (i 1 0 4 7 1)).entryOk = true ∧ (Instr.mrd (i 0 3 0 0 0)).entryOk = true ∧
    (Instr.mrd (i 2 0 4 5 1)).entryOk = true ∧ s.x.r.acc[1] = .bound 2 3 ∧ s.x.r.acc[0] = .unbound ∧
    s.x.accs.find? (·.1 == 1) = some (1, [(129, 0x40000000)], 0b10000) ∧
    smOk 0 none ([(129, 0x40000000)] : SMap 32) = true ∧ s.x.r.fmode.getLsbD 1 = false ∧ s.x.fault = none ∧
    accOk (laneAccesses (fun r => s.access s.x 1 1 .store (s.x.rdS 4 + BitVec.ofNat 64 (r * (s.x.rdS 5).toNat)) 512 16 0)
      (List.range 128)) = true ∧
    thenNext (exec (.mrd (i 1 0 4 7 1)) s) (fun t =>
      (t.x.r.rdV 7).lanes.take 3 == [0, 0x40000000, 0] && t.x.r.fflags == 0b10000) = true ∧
    thenNext (exec (.mrd (i 9 0 4 7 1)) s) (fun t => t.x.r.acc[1] == .unbound && t.x.fx == [.accRelease 1]) = true ∧
    faultAfter (exec (.mrd { i 1 0 4 7 1 with ta := 8 }) s) = some .tileAlloc := by decide +kernel

/-- TCVT's sources that convert and that do not, and TSLICE of a row and a column in both modes (R243, R244). -/
theorem witness_TileConversion :
    let s := (withR base fun r => (r.wrT 2 ⟨[(128, 5), (132, 6)], [], .fp32⟩)).setX
      { (withR base fun r => (r.wrT 2 ⟨[(128, 5), (132, 6)], [], .fp32⟩)).x with maint := true }
    let i (m : BitVec 4) (aux : BitVec 12) : TInsn := ⟨full, 0, 2, 0, 0, 7, .fp32, .fp32, m, aux⟩
    s.x.on0 full = true ∧ s.x.ntiles = 8 ∧ (s.x.r.rdT 2).tag ≠ .raw ∧ (s.x.r.rdT 2).tag.isMx = false ∧
    smOk 0 none (s.x.r.rdT 2).data = true ∧ smOk 0 none (s.x.r.rdT 3).data = true ∧ s.x.maint = true ∧
    (s.x.r.rdT 3).tag = .raw ∧ faultAfter (exec (.tcvt ⟨full, 1, 3, 0, 0, 0, .bf16, .fp32, 0, 0⟩) s) = some .formatTag ∧
    (i 0 127).aux.toNat < 128 ∧ (i 4 31).aux.toNat < 1024 / fmtWidth .fp32 ∧
    thenNext (exec (.tslice (i 0 1)) s) (fun t => (t.x.r.rdV 7).lanes.take 3 == [5, 6, 0]) = true ∧
    thenNext (exec (.tslice (i 4 1)) s) (fun t => (t.x.r.rdV 7).lanes.take 3 == [0, 6, 0]) = true ∧
    (s.x.r.rdV 7).lanes.length = s.x.nlanes ∧ base.x.maint = false ∧ base.x.fault = none ∧
    faultAfter (exec (.tslice (i 0 1)) base) = some .maintOnly := by decide +kernel

/-- TDNODE's table with its corners; TDGRP; a descriptor's access; TDGRAD's operands (R256 to R260). -/
theorem witness_TreeInstructions :
    let d : PathReg := ⟨0x0300, [(0, 7), (1, 5), (2, 7)]⟩
    let s := withR (withB base 1 4096) fun r => ((((r.wrD 12 d).wrS 5 5).wrS 2 64).wrT 2 ⟨[], [], .fp16⟩).wrS 6 0x3f800000
    let n (m : BitVec 4) (sy : BitVec 6) : TInsn := ⟨full, 0, 0, 0, 7, sy, .fp32, .fp32, m, 0⟩
    s.x.on0 full = true ∧ (∀ m ∈ [0, 1, 2, 3, 4, 5], (Instr.tdnode (n m 5)).entryOk = true) ∧
    sAfter (exec (.tdnode (n 0 5)) s) 7 = some 11 ∧ sAfter (exec (.tdnode (n 1 5)) s) 7 = some 12 ∧
    sAfter (exec (.tdnode (n 2 5)) s) 7 = some 2 ∧ sAfter (exec (.tdnode (n 2 0)) s) 7 = some 0xffffffffffffffff ∧
    sAfter (exec (.tdnode (n 3 5)) s) 7 = some 2 ∧ sAfter (exec (.tdnode (n 4 5)) s) 7 = some 31 ∧
    sAfter (exec (.tdgrp ⟨full, 0, 12, 0, 4, 7, .uint16, .fp32, 0, 0⟩) s) 4 = some 2 ∧
    lAfter (exec (.tdgrp ⟨full, 0, 12, 0, 4, 1, .uint16, .fp32, 0, 0⟩) s) 1 = some 0x00000001 ∧
    accOk (s.access s.x 1 1 .load (s.x.rdS 2) 64 64 0) = true ∧ (s.x.r.rdT 2).tag = .fp16 ∧
    (jobAfter (exec (.tdstep ⟨full, 12, 2, 0, 2, 0, .fp16, .fp16, 0, 0xf01⟩) s)).map (·.kind) = some .tdstep ∧
    (jobAfter (exec (.tdleaf ⟨full, 0, 12, 2, 2, 0, .fp16, .fp16, 1, 0xf01⟩) s)).map (·.args.getLast?) = some (some 0) ∧
    ((s.x.rdS 6).setWidth 32).getLsbD 31 = false ∧ (((s.x.rdS 6).setWidth 32).extractLsb' 23 8).toNat = 127 ∧
    (s.x.r.rdD 12).nrows = 3 ∧ (s.x.r.rdD 12).margin 0 0 = 0 := by decide +kernel

/-- Every form of TDPATH, and a header that is out of range (R259). -/
theorem witness_PathFields :
    let s := withR base fun r => (((r.wrD 12 ⟨0x400302, [(1, 0x00050007)]⟩).wrS 4 0x8010).wrS 5 0x8111).wrV 1
      (splat .uint16 0x00020001)
    let i (m td ta : BitVec 4) (f : Fmt) (sx sy : BitVec 6) : TInsn := ⟨full, td, ta, 0, sx, sy, f, .fp32, m, 0⟩
    s.x.on0 full = true ∧ (∀ m ∈ [0, 1], (Instr.tdpath (i m 0 12 .uint16 0 7)).entryOk = true) ∧
    (Instr.tdpath (i 2 0 12 .fp16 0 7)).entryOk = true ∧ (Instr.tdpath (i 3 0 12 .fp32 4 0)).entryOk = true ∧
    (∀ m ∈ [8, 9], (Instr.tdpath (i m 12 0 .uint16 0 1)).entryOk = true) ∧
    (Instr.tdpath (i 10 12 0 .fp16 0 1)).entryOk = true ∧ (∀ m ∈ [11, 12], (Instr.tdpath (i m 12 0 .fp32 4 0)).entryOk = true) ∧
    lAfter (exec (.tdpath (i 0 0 12 .uint16 0 7)) s) 7 = some 0x00070000 ∧
    sAfter (exec (.tdpath (i 3 0 12 .fp32 7 0)) s) 7 = some 0x400302 ∧
    (s.x.r.rdV 1).tag = .uint16 ∧ (s.x.r.rdV 1).lanes.length = s.x.nlanes ∧ smOk 0 none (s.x.r.rdD 12).rows = true ∧
    thenNext (exec (.tdpath (i 9 12 0 .uint16 0 1)) s) (fun t => (t.x.r.rdD 12).row 1 == 0x00020007) = true ∧
    thenNext (exec (.tdpath (i 11 12 0 .fp32 4 0)) s) (fun t => (t.x.r.rdD 12).hdr == 0x408010) = true ∧
    faultAfter (exec (.tdpath (i 11 12 0 .fp32 5 0)) s) = some .bounds ∧ s.x.fault = none := by decide +kernel

/-- Skive jobs, SKSTAT of a header in cluster store, RTJOB of both forms (R271 to R273, R383 to R387). -/
theorem witness_SkiveAndRouting :
    let s : State := { withR (withB base 1 4096) (fun r => (r.wrS 2 64).wrT 2 ⟨[], [], .fp16⟩) with
      mem := { base.mem with cells := [(homeCluster 0 0 64, 9), (homeCluster 0 0 66, 0b1001), (homeCluster 0 0 68, 3)] } }
    let i (m : BitVec 4) (aux : BitVec 12) : TInsn := ⟨full, 0, 2, 0, 2, 0, .fp16, .e4m3, m, aux⟩
    let st (m : BitVec 4) : TInsn := ⟨full, 0, 0, 0, 2, 7, .fp32, .fp32, m, 1⟩
    s.x.on0 full = true ∧ accOk (s.access s.x 1 1 .load (s.x.rdS 2) 64 64 0) = true ∧ (s.x.r.rdT 2).tag = .fp16 ∧
    (jobAfter (exec (.skpred (i 0 1)) s)).map (·.kind) = some .skpred ∧
    (jobAfter (exec (.skfetch (i 0 0xf01)) s)).map (·.kind) = some .skfetch ∧
    (jobAfter (exec (.skchk (i 0 1)) s)).map (·.kind) = some .skchk ∧
    (jobAfter (exec (.skrpl (i 8 0xf01)) s)).map (·.ev) = some true ∧
    (∀ m ∈ [0, 1, 2, 3, 4, 5, 6], (Instr.skstat (st m)).entryOk = true) ∧ sAfter (exec (.skstat (st 0)) s) 7 = some 3 ∧
    sAfter (exec (.skstat (st 6)) s) 7 = some 9 ∧ flAfter (exec (.skstat (st 0)) s) = some 0b10001 ∧
    (jobAfter (exec (.rtjob ⟨full, 0, 0, 0, 2, 0, .fp32, .fp32, 0, 1⟩) s)).map (·.kind) = some .rtjob ∧
    sAfter (exec (.rtjob ⟨full, 0, 0, 0, 0, 7, .fp32, .fp32, 1, 0⟩) (s.setX { s.x with victim := 17 })) 7 = some 17 := by
  decide +kernel

/-! ### Special registers, traps, the group, the capsule (R80, R320 to R322, R334 to R336, R349 to R354, R403 to R407) -/

/-- A system instruction into register 7 from registers 2, 3 and 4. -/
def sys (m : BitVec 4) (imm : BitVec 17) : SInsn := ⟨full, 7, 2, 3, 0, 4, m, imm⟩

/-- The block of `base` changed. -/
def withX (f : Flight → Flight) : State := base.setX (f base.x)

/-- Reads and writes at the first and last numbers of the clauses, and a privileged number in both modes. -/
theorem witness_SpecialRegistersReadAndWritten :
    let s := withX fun x => { x with
      r := ({ x.r with fmode := 1, fflags := 0b10001 } : Regs).wrS 2 0x1f
      r0 := { x.r with
        lc := (x.r.lc.set 0 5).set 2 6
        trapvec := 0x1000
        trappc := 0x2000
        trapcode := 9
        intrap := true
        rtsst := 0x3000
        loops := [⟨1, 0, 8, 1⟩] }
      wait := 3, srs := [(0x210, 77), (0x880, 78)] }
    let u := s.setX { s.x with maint := true, priv := true }
    s.x.on0 full = true ∧ s.x.fault = none ∧ s.x.r0.loops.length ≤ 3 ∧ s.x.maint = false ∧
    ([0x010, 0x011, 0x012, 0x020, 0x022, 0x023, 0x030, 0x041, 0x042, 0x043, 0x050, 0x001, 0x210].map fun n =>
        sAfter (exec (.srd (sys 0 n)) s) 7) =
      [some 1, some 0b10001, some 0, some 5, some 6, some 0x21, some 0xc0042, some 0x1000,
        some 0x2000, some 0x10009, some 0x3000, some 0, some 77] ∧
    sAfter (exec (.srd (sys 0 0x880)) u) 7 = some 78 ∧ faultAfter (exec (.srd (sys 0 0x800)) s) = some .priv ∧
    faultAfter (exec (.swr (sys 0 0x888)) (u.setX { u.x with priv := false })) = some .priv ∧
    thenNext (exec (.swr (sys 0 0x010)) s) (fun t => t.x.r.fmode == 3) = true ∧
    thenNext (exec (.swr (sys 0 0x011)) s) (fun t => t.x.r.fflags == 0x1f) = true ∧
    thenNext (exec (.swr (sys 0 0x012)) s) (fun t => t.x.r.gens[0]? == some 0x9e3779a6) = true ∧
    thenNext (exec (.swr (sys 0 0x020)) s) (fun t => t.x.fx == [.swr 0x020 0x1f]) = true ∧
    ((s.x.r.setSr 8 0x030 0).agelim = 16) ∧ (s.x.r.setSr 8 0x041 0x1007).trapvec = 0x1000 := by decide +kernel

/-- Traps with and without a vector, inside a trap, and returns (R354). -/
theorem witness_TrapsTaken :
    let s := withX fun x => { x with pc := 0x100, words := 2, r := { x.r with trapvec := 0x1000 } }
    let u := withX fun x => { x with pc := 0x100, words := 2, r := { x.r with trappc := 0x2000, intrap := true } }
    let trapped := { s.x with exit := some (.trap 9 0) }
    s.x.on0 full = true ∧ exitAfter (exec (.trap (sys 0 9)) s) = some (.trap 9 0) ∧ s.x.r.intrap = false ∧ s.x.fault = none ∧
    faultAfter (exec (.eret (sys 0 0)) s) = some .priv ∧ u.x.r.intrap = true ∧
    exitAfter (exec (.eret (sys 0 0)) u) = some (.eret 0) ∧ trapped.r.trapvec ≠ 0 ∧
    (trapped.leave.pc, trapped.leave.r.trappc, trapped.leave.r.trapcode, trapped.leave.r.intrap) = (0x1000, 0x118, 9, true) ∧
    ({ base.x with exit := some (.trap 9 0) } : Flight).r.trapvec = 0 ∧
    ({ u.x with exit := some (.eret 0) } : Flight).leave.pc = 0x2000 := by decide +kernel

/-- A region with one level per domain and stage 0, in which `base` runs. -/
def region0 : Region :=
  { (default : Region) with
    rid := 0, cmap := [0], state := .steady
    streams := [some [], none, some [], none, none, none, none, none]
    recd := List.replicate 128 0 }

/-- LAUNCH's and TASK's records, EVPOP with a record and without, EVPUSH, and STAGE of a stage that is declared, one that is
not and 8 (R292, R320 to R322, R334 to R336). -/
theorem witness_GroupsAndPlaces :
    let s : State := { withR (withB base 1 4096) (fun r => (r.wrS 2 128).wrS 3 8) with kern := [region0] }
    let e : State := s.setX { s.x with evhead := some (leBytes 8 5 ++ leBytes 24 0) }
    let pop : SInsn := ⟨full, 8, 0, 0, 0, 0, 0, 0⟩
    s.x.on0 full = true ∧ accOk (s.access s.x 1 1 .load (s.x.rdS 2) 128 128 0) = true ∧
    thenNext (exec (.launch (sys 0 0x11)) s) (fun t => t.x.access == some (.launch (homeCluster 0 0 128) 7 false)) = true ∧
    accOk (s.access s.x 1 1 .load (s.x.rdS 2) 64 64 0) = true ∧ sAfter (exec (.task (sys 0 1)) s) 7 = some 1 ∧
    sAfter (exec (.evpop pop) e) 8 = some 5 ∧ sAfter (exec (.evpop pop) s) 8 = some 0 ∧
    thenNext (exec (.evpush (sys 0 3)) s) (fun t => t.x.fx == [.event ⟨0, 0, 0⟩ 3 128 8]) = true ∧
    s.region s.x.rid = some region0 ∧ region0.declares 2 = true ∧ region0.declares 1 = false ∧
    thenNext (exec (.stage (sys 0 2)) s) (fun t => t.x.fx == [.stage 2]) = true ∧ s.x.fault = none ∧
    faultAfter (exec (.stage (sys 0 1)) s) = some .engine ∧
    faultAfter (exec (.stage { sys 1 0 with a := 3 }) s) = some .engine ∧
    (∀ m ∈ [0, 1, 2, 3, 4, 5, 6], (Instr.gid ⟨full, 7, 0, 0, 0, 0, m, 0⟩).entryOk = true) ∧
    sAfter (exec (.gid ⟨full, 7, 0, 0, 0, 0, 6, 0⟩) s) 7 = some 0 ∧
    (levelsOf region0.recd)[7]? = none ∧ sAfter (exec (.gid ⟨full, 7, 0, 0, 0, 0, 1, 7⟩) s) 7 = some 0 := by decide +kernel

/-- TICK, the debug stop in both modes, and the capsule for the operator and for another (R400, R403 to R407). -/
theorem witness_TimeRecordsAndCapsule :
    let s := withX fun x => { x with tick := 2 ^ 48 + 5, frame := 9, capst := 3, capsz := 640, capszOp := 1280, r := x.r.wrS 2 64 }
    let o := s.setX { s.x with maint := true, priv := true }
    s.x.on0 full = true ∧ s.x.fault = none ∧ sAfter (exec (.tick (sys 0 0)) s) 7 = some 5 ∧
    sAfter (exec (.tick (sys 1 0)) s) 7 = some 9 ∧
    thenNext (exec (.evrec (sys 0 0xa5)) s) (fun t => t.x.fx == [.user 0xa5 64 0]) = true ∧
    thenNext (exec (.brk (sys 0 7)) s) (fun t => t.x.fx == [.brk 7 0]) = true ∧
    faultAfter (exec (.dstop (sys 0 0)) s) = some .maintOnly ∧ (o.x.rdS 2).toNat < 2 ^ 48 ∧
    thenNext (exec (.dstop (sys 0 0)) o) (fun t => t.x.fx == [.dstopArm 64 0] && t.x.late == [(0, 0)]) = true ∧
    thenNext (exec (.dstop (sys 1 0)) o) (fun t => t.x.fx == [.dstopOff 0]) = true ∧
    sAfter (exec (.capsSt (sys 0 0)) s) 7 = some 3 ∧ sAfter (exec (.capsSz (sys 1 0)) s) 7 = some 640 ∧
    sAfter (exec (.capsSz (sys 1 16)) o) 7 = some 1280 ∧ faultAfter (exec (.capsSz (sys 1 16)) s) = some .priv ∧
    o.x.part = 0 ∧ o.x.capst.extractLsb' 0 3 = 3 ∧
    thenNext (exec (.capsAck (sys 3 0)) o) (fun t => t.x.fx == [.capsAck 7]) = true ∧
    sAfter (exec (.capsAck (sys 3 0)) (o.setX { o.x with capst := 2 })) 7 = some 1 ∧
    faultAfter (exec (.capsAck (sys 3 0)) s) = some .priv ∧
    (let g := withB o 0 4096
     (g.x.r.rdB 1).passes 0 .store 64 0 = true ∧
     (jobAfter (exec (.capsGet (sys 2 17)) g)).map (·.args) = some [64, 0, 1, 1]) ∧
    faultAfter (exec (.ill 0) s) = some .illegalOp := by decide +kernel

/-! ### Decoding, the step, faults and whole-machine rules -/

/-- The words of an instruction with a literal, read back with the words after them. -/
theorem witness_EncodingRoundTrip :
    let i : Instr := .viadd ⟨⟨6, true⟩, .push 9, .ring 30 7, .lit, .reg 0, 0, .int8, some 5⟩
    let j : Instr := .br ⟨full, 0, 0, 0, 0, 0xffffffff⟩
    i.wf = true ∧ (encode i).map (·.length) = some 2 ∧
    decodeHead (((encode i).getD []) ++ [3]) = some (i, [3]) ∧ j.wf = true ∧
    decodeHead (((encode j).getD []) ++ []) = some (j, []) := by decide +kernel

/-- The machine's first instruction: where the next step fetches, ADD of an immediate; the block's commit; an aborted one;
an issue; an event; a tick; and each of them under a debug stop (R51, R53, R1, R400). -/
theorem witness_StepMoves :
    let add := State.reset.withFetchWord 64 0x00F8040F04000018
    let at_ (s : State) (a : List Turn) : State := { s with agenda := a }
    add.dbg.stopped = false ∧ add.agenda = [.strand add.x.who] ∧ add.x.active = true ∧ add.x.fault = none ∧
    add.x.todo ≠ [] ∧ (decodeHead add.x.todo).isSome = true ∧
    (at_ base [.strand base.x.who]).x.todo = [] ∧ (withX fun x => { x with fault := some { code := .bounds } }).x.fault ≠ none ∧
    decodeHead [0] = none ∧ State.reset.x.active = false ∧ (∀ f ∈ State.reset.fab.flights, f.who ≠ base.x.who) ∧
    thenNext (step (at_ State.reset [.tick])) (fun t => t.tick == 1 && t.agenda == []) = true ∧
    thenNext (step (at_ State.reset [.event .coldReset .none, .tick])) (fun t => t.tick == 0) = true ∧
    State.reset.agenda = [] ∧
    (let d : State := { State.reset with dbg := { Debug.reset with stopped := true } }
     d.dbg.stopped = true ∧ thenNext (step (at_ d [.strand base.x.who])) (fun t => t.x.active == false) = true) := by
  decide +kernel

/-- An instruction has its fields, and a guard that is off. -/
theorem witness_InstructionsActOnTheirBlock :
    let i : VInsn := { on2 .raw 0 with g := ⟨3, false⟩ }
    (Instr.add i).parts = some (0x001, .v i) ∧ base.x.guard i.g = 0 ∧ (Instr.add (on2 .raw 0)).parts.isSome = true ∧
    base.x.guard full ≠ 0 := by decide +kernel

/-- The one step that stops the machine, at the first byte past each space, and a write of the last byte before it. -/
theorem test_only_stop :
    let w (wt : Bool) (a : BitVec 52) : State :=
      { State.reset with agenda := [.event .hostMemoryWrite (.host ⟨wt, a, [1]⟩)] }
    (match step (w true 0x300000000) with | .fault f => f == .noSuchAddress | _ => false) = true ∧
    (match step (w false 0xb2d05e0000) with | .fault f => f == .noSuchAddress | _ => false) = true ∧
    thenNext (step (w true 0x2ffffffff)) (fun t => t.mem.cells == [(homeWeight 0 0x2ffffffff, 1)]) = true ∧
    thenNext (step (w false 0xb2d05dffff)) (fun t => t.mem.cells == [(767999999999, 1)]) = true := by decide +kernel

/-- Memory in canonical form and a step. -/
theorem witness_MemoryStaysCanonical :
    let s : State := { State.reset with agenda := [.event .hostMemoryWrite (.host ⟨false, 5, [1, 0, 2]⟩)] }
    s.mem.wf = true ∧ thenNext (step s) (fun t => t.mem.wf && t.mem.cells == [(5, 1), (7, 2)]) = true := by decide +kernel

/-- The reset values that the spec gives: RECCFG and PWRCFG (R392, R409), no context open (R420). -/
theorem test_reset :
    State.reset.dbg.reccfg = 0x0400010000003FFF ∧ State.reset.hub.pwrcfg = 0x000173005F000960 ∧
    State.reset.mem.wf = true ∧ (State.reset.ctx 0).state = .closed := by decide

/-- A record that waits in a region for context 0's fault queue, which has room in a page at hand. -/
def record0 : FaultWait := ⟨0, 0, List.replicate 64 4⟩
@[inherit_doc record0] def recorded : State := mapped { base with kern := [{ region0 with waiting := [record0] }], tick := 1 }

/-- A live region and its fault, and a FROZEN region (R343, R344). -/
theorem witness_FaultTaken :
    let s : State := mapped { base with kern := [region0] }
    let t := s.deliver 0 0 ⟨0, 0, 0, 0, 7⟩ { code := .bounds, access := 1, ea := 77 }
    s.region 0 = some region0 ∧ region0.state.live = true ∧ region0.firstFault = none ∧ isFatal (s.ctx 0) .bounds = false ∧
    (t.region 0).map (fun r => (r.state, r.firstFault, r.waiting.map (·.ord))) = some (.frozen, some .bounds, [7]) ∧
    ({ region0 with state := .frozen } : Region).state = .frozen := by decide +kernel

/-- A record written to its context's fault queue (R343). -/
theorem witness_FaultTaken_record :
    recorded.mem.wf = true ∧ recorded.nextFault 0 = some (some 0, record0) ∧ record0.recd.length = 64 ∧
    (recorded.region 0).isSome = true ∧
    ((recorded.ctx 0).fqtail - (recorded.ctx 0).fqhead).toNat ≠ 2 ^ (recorded.ctx 0).fqsize ∧
    (∀ k < 64, recorded.hubHome 0 ((recorded.ctx 0).fqbase.toNat
      + 64 * ((recorded.ctx 0).fqtail.toNat % 2 ^ (recorded.ctx 0).fqsize) + k) 2 = some (id k)) ∧
    smGet 0 (recorded.writeFault 0).mem.cells 63 = 4 ∧ record0.tick < recorded.tick := by decide +kernel

/-- Two fatal faults of one tick, with an EMPTY capsule and with another (R393, R394). -/
theorem witness_FatalFaultFreezes :
    let s : State := mapped { base with kern := [region0] }
    let src (n : Nat) : Source := ⟨0, 0, 0, 0, n⟩
    let two : State := { s with dbg := { s.dbg with fatals := [(2, 0, .watchdog, src 2), (1, 0, .poison, src 1)] } }
    let full : State := { two with dbg := { two.dbg with capsule := { two.dbg.capsule with state := .frozen } } }
    isFatal (s.ctx 0) .poison = true ∧ region0.state ≠ .retired ∧
    (s.deliver 0 0 (src 1) { code := .poison }).dbg.fatals.length = 1 ∧
    two.dbg.capsule.state = .empty ∧ two.freezes.dbg.capsule.cause = 0x0e ∧ two.freezes.dbg.capsule.lost = 1 ∧
    full.dbg.capsule.state ≠ .empty ∧ full.freezes.dbg.capsule.lost = 2 := by decide +kernel

/-! ### Blocks, remote requests, networks -/

/-- A strand whose block starts at 0. -/
def strand0 (n : Fin 8) (role : BitVec 2) : Strand :=
  { (default : Strand) with
    num := n, regs := { Regs.launch 8 with role := role }, pc := 0, nvregs := 64, ntiles := 0, ended := false
    wait := 0, yielded := false, buf := [], floors := [], pend := [], late := [], drain := none }

/-- The sequencer and the strand at work in `base`. -/
def seq0 : Seq := ⟨⟨0, 0, 0⟩, false, 0⟩

/-- A gang of one cell with strands. -/
def gang0 (sts : List Strand) : Gang := ⟨seq0, 0, 0, 0x100, 1, sts, [], false, false⟩

/-- A running island whose gang has two strands at a block of one NOP: header WORDS 1, NINSN_M1 0 (R46). -/
def two (roles : BitVec 2 × BitVec 2) : State :=
  let s := mapped { State.reset with
    kern := [region0], arg := .seq seq0
    fab := { State.reset.fab with gangs := [gang0 [strand0 0 roles.1, strand0 1 roles.2]] }
    clk := { State.reset.clk with islands := [⟨fabKey ⟨0, 0, 0⟩, 64, 64, 0, none, false, none, none, 64, false, false⟩] } }
  { s with mem := { s.mem with cells := smWrite 0 s.mem.cells 0 (leBytes 8 0x0100000000000000 ++ leBytes 8 0x24F8000000000000) } }

/-- Whether an attempt is ready, and whether it is bad. -/
def isReady (a : Attempt) : Bool := match a with | .ready _ _ => true | _ => false
@[inherit_doc isReady] def isBad (a : Attempt) : Bool := match a with | .bad _ => true | _ => false

/-- The strand of the higher role issues, its rival's WAIT rises; a block with no page faults its region (R50, R53, R315). -/
theorem witness_BlocksIssue :
    let s := two (1, 2)
    let g := gang0 [strand0 0 1, strand0 1 2]
    let bad : State := { s with hub := State.reset.hub }
    s.x.active = false ∧ s.arg = .seq seq0 ∧ s.gang seq0 = some g ∧ s.region 0 = some region0 ∧ region0.state.live = true ∧
    region0.saving = false ∧ region0.stops g.el = false ∧ (s.island (fabKey ⟨0, 0, 0⟩)).running = true ∧
    (g.strands.map (·.num)).Nodup ∧ (∀ u ∈ g.strands, isReady (s.attempt g region0 u) = true) ∧
    (∀ u ∈ g.strands, u.wait ≤ u.regs.agelim.toNat) ∧
    thenNext (exec .blockIssue s) (fun t => t.x.active && t.x.who == ⟨seq0, 1⟩ &&
      (t.strand ⟨seq0, 0⟩).map (·.wait) == some 1) = true ∧
    isBad (bad.attempt g region0 (strand0 0 1)) = true ∧
    thenNext (exec .blockIssue bad) (fun t => (t.region 0).map (·.state) == some .frozen) = true := by decide +kernel

/-- A header that R48 refuses: WORDS 0. -/
theorem witness_BlocksIssue_header :
    let s : State := mapped { two (1, 2) with mem := State.reset.mem }
    let g := gang0 [strand0 0 1, strand0 1 2]
    (match s.fetchWord (s.baseFlight g region0 (strand0 0 1)) 0 with | .got [w] x => w == 0 && x.pc == 0 | _ => false) = true ∧
    (match s.attempt g region0 (strand0 0 1) with | .bad f => f.code == .illegalBlock && f.index == 0xff | _ => false)
      = true := by decide +kernel

/-- A block ready to commit with a store, one that ends its strand, and one that has faulted (R51, R53, R119). -/
theorem witness_BlocksCommit :
    let st := { strand0 0 2 with buf := [(7, 3)] }
    let s : State := { base with
      kern := [region0], fab := { base.fab with gangs := [gang0 [st]] }
      x := { base.x with who := ⟨seq0, 0⟩, fx := [.store [(7, 4)]] } }
    let e : State := s.setX { s.x with fx := [], exit := some .stop }
    let f : State := s.setX { s.x with fault := some { code := .bounds } }
    s.x.active = true ∧ s.strand s.x.who = some st ∧ st.late = [] ∧ s.x.views = [] ∧ s.x.evres = [] ∧ s.x.evhead = none ∧
    s.x.fault = none ∧ s.x.todo = [] ∧ s.x.access = none ∧ s.x.exit ≠ some .stop ∧ s.x.leave.soft = none ∧
    thenNext (exec .blockCommit s) (fun t => (t.strand ⟨seq0, 0⟩).map (·.buf) == some [(7, 4)] && t.mem == s.mem) = true ∧
    e.x.exit = some .stop ∧ e.x.fx = [] ∧
    thenNext (exec .blockCommit e) (fun t => t.mem.pubs.map (·.cells) == [[(7, 3)]]) = true ∧
    isFatal (s.ctx s.x.ctx) .bounds = false ∧
    thenNext (exec .blockCommit f) (fun t => (t.region 0).map (·.state) == some .frozen && t.strand ⟨seq0, 0⟩ == some st)
      = true := by decide +kernel

/-- Every port UP, so that each device of the fabric is reached (R369). -/
def up (s : State) : State := { s with hub := { s.hub with ports := Vector.replicate 24 ⟨.up, 0⟩ } }

/-- A region whose gang of one strand stands in a mapped context, with every port UP. -/
def far : State := up (mapped { State.reset with
  kern := [region0], fab := { State.reset.fab with gangs := [gang0 [strand0 0 2]] } })

/-- A publication with a store (R185). -/
theorem witness_RemoteSteps :
    let p : Publication := ⟨4, ⟨seq0, 0⟩, 0, 0, 2, [(9, 7)], 0, false⟩
    let s : State := { far with arg := .num 4, mem := { far.mem with pubs := [p], nextPub := 5 } }
    s.mem.pubs.find? (·.num == 4) = some p ∧ (s.mem.pubs.map (·.num)).Nodup ∧ s.mem.wf = true ∧ (p.cells.map (·.1)).Nodup ∧
    thenNext (exec .publicationComplete s) (fun t => t.mem.done 4 && smGet 0 t.mem.cells 9 == 7) = true := by decide +kernel

/-- A reply that writes its register, one that reports a failure, a link that is down, and a time-out (R332, R369, R375). -/
theorem witness_RemoteSteps_reply :
    let q : RemoteReq := ⟨3, ⟨seq0, 0⟩, 0, 0, 5, 0, 0, 0, .xld 64 5 .int32 7, [], 0, false⟩
    let rm (a : EvArg) : State := { far with arg := a, hub := { far.hub with remote := [q] } }
    let s := rm (.reply 3 [0x80000000] false)
    let late : State := { rm (.num 3) with tick := 2400000000 }
    s.hub.remote.find? (·.num == 3) = some q ∧ s.strand q.owner = some (strand0 0 2) ∧ q.dev ≠ s.hub.boot.device ∧
    s.linked 5 = true ∧ s.inFlight q.owner = false ∧ (∀ r ∈ s.region q.rid, r.ctx = q.ctx) ∧ isFatal (s.ctx 0) .remote = false ∧
    thenNext (exec .remoteReply s) (fun t => (t.strand q.owner).map (·.regs.rdS 7) == some 0xffffffff80000000) = true ∧
    thenNext (exec .remoteReply (rm (.reply 3 [] true))) (fun t => (t.region 0).map (·.state) == some .frozen) = true ∧
    ({ s with hub := { s.hub with ports := State.reset.hub.ports } } : State).linked 5 = false ∧
    q.since + late.rtoOf 0 ≤ late.tick ∧ thenNext (exec .remoteTimeout late) (fun t => t.hub.remote == []) = true := by
  decide +kernel

/-- Remote stores delivered to another device and to this one, and one that fails (R374, R376). -/
theorem witness_RemoteSteps_store :
    let x (dev : BitVec 20) : Xst := ⟨6, ⟨seq0, 0⟩, 0, 0, dev, 32, 4, 0x04030201, 0, 0, 0⟩
    let xs (dev : BitVec 20) (ok : Bool) : State := { far with arg := .delivery 6 ok, hub := { far.hub with xsts := [x dev] } }
    (xs 5 true).hub.xsts.find? (·.num == 6) = some (x 5) ∧ (xs 5 true).linked 5 = true ∧
    thenNext (exec .xstDelivery (xs 5 true)) (fun t => t.hub.xsts == []) = true ∧
    thenNext (exec .xstDelivery (xs 5 false)) (fun t => (t.region 0).map (·.state) == some .frozen) = true ∧
    (xs 0 true).earlierReq ⟨seq0, 0⟩ 0 6 = false ∧
    (∀ k < 4, (xs 0 true).xlat 0 (32 + k) 2 = .ok (id (32 + k)) 0x202000) ∧
    thenNext (exec .xstDelivery (xs 0 true)) (fun t => (List.range 4).map (smGet 0 t.mem.cells <| 32 + ·) == [1, 2, 3, 4])
      = true := by decide +kernel

/-- Another device's store, load and add (R374, R375). -/
theorem witness_RemoteSteps_peer :
    let pa (k : BitVec 2) : State := { far with arg := .peer ⟨8, 0, k, 32, 0, .uint32, 5⟩ }
    (pa 0).linked 8 = true ∧ (pa 0).mem.wf = true ∧
    (∀ k < 4, (pa 0).xlat 0 (32 + k) 1 = .ok (32 + k) 0x202000 ∧ (pa 2).xlat 0 (32 + k) 3 = .ok (32 + k) 0x202000) ∧
    thenNext (exec .remoteHomeAccess (pa 0)) (fun t => smGet 0 t.mem.cells 32 == 5 && t.hub.outbox.length == 1) = true ∧
    thenNext (exec .remoteHomeAccess (pa 1)) (fun t => t.hub.outbox.map (·.bytes) == [[0, 0, 0, 0]]) = true ∧
    thenNext (exec .remoteHomeAccess (pa 2)) (fun t => smGet 0 t.mem.cells 32 == 5) = true := by decide +kernel

/-- A token and a notice on their way, a trigger whose next push is its last, barrier events at both ends of their counts, and
an event record (R195, R197, R216 to R219, R286, R288, R322). -/
theorem witness_NetworkArrivals :
    let q : Ring := { ring3 [] with transit := [⟨.raw, [7]⟩], notices := [2], freeseen := 1, prodEl := 0x100 }
    let el := triggerEl 0 1
    let r : Region := { region0 with state := .filling, config := [(el, 0, 1), (el, 1, ringElem ⟨0, 0, 3⟩), (el, 2, 1)], trig := [] }
    let s (a : EvArg) : State := { State.reset with kern := [r], chan := { State.reset.chan with rings := [q] }, arg := a }
    let b : Barrier := ⟨⟨0, 0, 1⟩, 0, 64, ⟨false, false, 2, 1, 8, 0⟩, false⟩
    let m (e : BarEvent) : State := { State.reset with
      kern := [region0], arg := .num 5
      chan := { State.reset.chan with bars := [b], msgs := [⟨5, ⟨0, 0, 1⟩, e, none, hubSource, 0, 0, []⟩] } }
    let p : State := { State.reset with
      arg := .num 3, fab := { State.reset.fab with pushes := [⟨3, ⟨seq0, 0⟩, ⟨0, 0, 2⟩, [1, 2], []⟩], events := [⟨⟨0, 0, 2⟩, [], 1⟩] } }
    (s .none).ring ⟨0, 0, 3⟩ = some q ∧ q.saved = false ∧ (∀ k ∈ (s .none).kern, cfgKind k.config .endpoint = []) ∧
    (s .none).feeder ⟨0, 0, 3⟩ = none ∧ r.pend = false ∧
    thenNext (exec .ringTokenArrival (s (.ring ⟨0, 0, 3⟩))) (fun t =>
      (t.ring ⟨0, 0, 3⟩).map (·.slots.length) == some 1) = true ∧
    thenNext (exec .freedSlotNotice (s (.ring ⟨0, 0, 3⟩))) (fun t => (t.ring ⟨0, 0, 3⟩).map (·.freeseen) == some 3) = true ∧
    (m (.arrive 8)).pubsDone [] = true ∧ (m (.arrive 8)).barBehind ⟨5, ⟨0, 0, 1⟩, .arrive 8, none, hubSource, 0, 0, []⟩ = false ∧
    (m (.arrive 8)).barrier ⟨0, 0, 1⟩ = some b ∧ isFatal ((m (.arrive 8)).ctx 0) .barrierState = false ∧
    thenNext (exec .barrierEvent (m (.arrive 8))) (fun t => (t.barrier ⟨0, 0, 1⟩).map (·.obj) == some ⟨true, false, 2, 0, 8, 0⟩)
      = true ∧
    thenNext (exec .barrierEvent (m (.credit 3))) (fun t => (t.barrier ⟨0, 0, 1⟩).map (·.obj.bytes) == some 3) = true ∧
    thenNext (exec .barrierEvent (m (.debit 3))) (fun t => (t.barrier ⟨0, 0, 1⟩).map (·.obj.bytes) == some (-3)) = true ∧
    thenNext (exec .barrierEvent (m (.debitArrive 3))) (fun t => (t.barrier ⟨0, 0, 1⟩).map (·.obj.arr) == some 2) = true ∧
    thenNext (exec .barrierEvent (m (.init 4 9))) (fun t => (t.barrier ⟨0, 0, 1⟩).map (·.obj) == some ⟨false, false, 4, 0, 9, 0⟩)
      = true ∧
    (let f (o : BarObj) : State := { m (.credit 0x7ffffffffff) with
        chan := { (m (.credit 0x7ffffffffff)).chan with bars := [{ b with obj := o }] } }
     thenNext (exec .barrierEvent (f ⟨false, false, 2, 1, 8, 1⟩)) (fun t =>
       (t.barrier ⟨0, 0, 1⟩).map (·.obj.ovf) == some true && (t.region 0).map (·.state) == some .frozen) = true) ∧
    p.fab.pushes.find? (·.num == 3) = some ⟨3, ⟨seq0, 0⟩, ⟨0, 0, 2⟩, [1, 2], []⟩ ∧
    p.pushBehind ⟨3, ⟨seq0, 0⟩, ⟨0, 0, 2⟩, [1, 2], []⟩ = false ∧
    thenNext (exec .evpushRecordEntry p) (fun t => (t.events ⟨0, 0, 2⟩).recs == [([1, 2], false)] &&
      (t.events ⟨0, 0, 2⟩).reserved == 0) = true := by decide +kernel

/-! ### Jobs -/

/-- The bytes of a record: zeros with fields of some lengths at some places. -/
def recOf (n : Nat) (l : List (Nat × Nat × Nat)) : List Byte :=
  l.foldl (fun b p => b.take p.1 ++ leBytes p.2.1 p.2.2 ++ b.drop (p.1 + p.2.1)) (List.replicate n 0)

/-- A strand's job number 4 that runs. -/
def jobOf (k : JobKind) (args : List Word) (bytes : List Byte) : Job :=
  { (default : Job) with
    num := 4, owner := some ⟨seq0, 0⟩, req := { (default : JobReq) with kind := k, args := args, bytes := bytes }
    state := .running }

/-- A die on which a job and the strand that submitted it stand. -/
def withJob (j : Job) (d : Debug := Debug.reset) (st : Strand := strand0 0 2) : State := mapped { State.reset with
  dbg := d
  kern := [region0], fab := { State.reset.fab with gangs := [gang0 [st]] }
  eng := { State.reset.eng with jobs := [j] }, arg := .num 4 }

/-- The entries of the page tables of `mapped` (R355, R356). -/
theorem entries_mapped_lemma (u : State) (hm : u.mem.cells = (mapped State.reset).mem.cells) :
    u.ptEntry 0x200000 = 0x202001 ∧ u.ptEntry 0x202000 = 0x20000000000000ff := by
  simp only [State.ptEntry, hm]
  decide +kernel

/-- Whether a state's page tables are those of `mapped`, with nothing wrong in memory. -/
def paged (u : State) : Bool :=
  u.ptEntry 0x200000 == 0x202001 && u.ptEntry 0x202000 == 0x20000000000000ff && u.hub.pages.since.isEmpty
    && (u.ctx 0).ptroot == 0x200000 && u.mem.bad.isEmpty

/-- The walk of the page that `mapped` maps (R357). -/
theorem lookup_mapped (u : State) (h : paged u = true) (va : Nat) (hv : va < 65536) :
    u.lookup 0 va = ⟨1, 1, 0x20000000000000ff, 0x202000, 36⟩ := by
  simp only [paged, Bool.and_eq_true, beq_iff_eq, List.isEmpty_iff] at h
  obtain ⟨⟨⟨⟨e0, e1⟩, hp⟩, hc⟩, -⟩ := h
  have z (k : Nat) (hk : 65536 ≤ 2 ^ k) : va / 2 ^ k = 0 := Nat.div_eq_of_lt (Nat.lt_of_lt_of_le hv hk)
  have t : (u.ctx 0).ptroot.toNat = 0x200000 := by rw [hc]; rfl
  simp only [State.lookup, hp, List.find?_nil, State.walk, t, walkFrom, z 46 (by decide), z 36 (by decide), Nat.zero_mod,
    Nat.mul_zero, Nat.add_zero, e0]
  rw [if_neg (by decide), if_neg (by decide), if_neg (by decide), show bits (0x202001 : Word).toNat 51 13 * 8192 = 0x202000 by decide, e1]
  rfl

/-- An address of that page (R358). -/
theorem xlat_page_mapped (u : State) (hu : paged u = true) (a access : Nat) (h : a < 65536) (ha : access = 1 ∨ access = 2) :
    u.xlat 0 a access = .ok a 0x202000 := by
  have hl := lookup_mapped u hu a h
  have hh : leafHome ⟨1, 1, 0x20000000000000ff, 0x202000, 36⟩ a = a := by
    have : leafHome ⟨1, 1, 0x20000000000000ff, 0x202000, 36⟩ a = (0 * 65536 + a % 2 ^ 36) % 2 ^ 52 := rfl
    omega
  have g1 : isFabHome a = false := by simp [isFabHome]; omega
  have g2 : isWeightHome a = false := by simp [isWeightHome]; omega
  have g3 : homeExists a = true := by
    rw [homeExists, if_pos (by omega)]
    exact decide_eq_true (by unfold hbmBytes; omega)
  have g4 : u.mem.badAt a = false := by
    simp only [paged, Bool.and_eq_true, List.isEmpty_iff] at hu
    simp [Memory.badAt, hu.2]
  have g5 : leafGrants 0x20000000000000ff access = true := by rcases ha with rfl | rfl <;> rfl
  rw [State.xlat, hl]
  simp only [State.xlatBy, hh, g1, g2, g3, g4, g5]
  rfl

/-- What the hub reads there (R184, R326). -/
theorem hubRead_mapped (u : State) (hu : paged u = true) (va n : Nat) (h : va + n ≤ 65536) :
    u.hubRead 0 va n = (List.range n).map fun i => u.mem.newest .outside (va + i) := by
  refine List.map_congr_left fun i hi => ?_
  have := List.mem_range.1 hi
  simp only [State.hubHome, xlat_page_mapped u hu (va + i) 1 (by omega) (.inl rfl)]

@[inherit_doc hubRead_mapped] theorem hubHeld_mapped (u : State) (hu : paged u = true) (va n : Nat) (h : va + n ≤ 65536) :
    u.hubHeld 0 va n 1 = false := by
  simp only [State.hubHeld, List.any_eq_false, List.mem_range]
  intro i hi
  rw [xlat_page_mapped u hu (va + i) 1 (by omega) (.inl rfl)]
  simp

/-- Memory as it is right after reset, but for the tables. -/
theorem cells_mapped_lemma (s : State) (hs : s.mem = State.reset.mem) : (mapped s).mem.cells = (mapped State.reset).mem.cells := by
  simp [mapped, withTables, hs]

/-- Such a state's page tables. -/
theorem paged_mapped (u : State) (hm : u.mem.cells = (mapped State.reset).mem.cells) (hp : u.hub.pages.since = [])
    (hc : (u.ctx 0).ptroot = 0x200000) (hb : u.mem.bad = []) : paged u = true := by
  obtain ⟨e0, e1⟩ := entries_mapped_lemma u hm
  simp only [paged, e0, e1, hp, hc, hb]
  rfl

/-- What the statements ask of a running job. -/
theorem runs_withJob (j : Job) (d : Debug) (st : Strand) (k : JobKind) (hn : st.num = 0) (he : st.ended = false) (hj : j.num = 4) (hk : j.req.kind = k) (hs : j.state = .running)
    (hr : j.rid = 0) (ho : j.owner = some ⟨seq0, 0⟩) : runs (withJob j d st) 4 j k := by
  refine ⟨rfl, ?_, hk, hs, ?_, ?_, ?_⟩
  · show List.find? _ [j] = some j
    simp [hj]
  · rw [hr]; rfl
  · show (mapped State.reset).mem.wf = true
    decide +kernel
  · intro t h
    cases ho.symm.trans h
    exact ⟨st, by simp [withJob, mapped, withTables, State.strand, State.gang, gang0, seq0, hn], he⟩

/-- Cluster store needs no pages. -/
theorem homesOf_cluster (s : State) (j : Job) (access : Nat) (as : List Nat) :
    homesOf s j 1 access as (as.map (homeCluster j.die j.cl)) := ⟨[], rfl, by simp⟩

/-- The weight store needs no pages. -/
theorem homesOf_weight (s : State) (j : Job) (access : Nat) (as : List Nat) (h : (s.die j.die).fenced = []) :
    homesOf s j 3 access as (as.map (homeWeight j.die)) := ⟨[], by simp [State.jobHomes, h], by simp⟩

/-- An address of the page that `mapped` maps. -/
theorem xlat_mapped (s : State) (hs : s.mem = State.reset.mem) (hp : s.hub.pages.since = []) (a access : Nat)
    (h : a < 65536) (ha : access = 1 ∨ access = 2) : (mapped s).xlat 0 a access = .ok a 0x202000 :=
  xlat_page_mapped _ (paged_mapped _ (cells_mapped_lemma s hs) hp rfl (by simp [mapped, withTables, hs]; rfl)) a access h ha

/-- A page that is marked and held stays as it is. -/
theorem markPage_mapped (s u : State) (hs : s.mem = State.reset.mem) (hp : s.hub.pages.since = [])
    (hm : u.mem = (mapped s).mem) (hh : u.hub.pages = (mapped s).hub.pages) (hc : u.hub.ctxs = (mapped s).hub.ctxs)
    (va : Nat) (hv : va < 65536) (d : Bool) : u.markPage 0 0 0x202000 va d = u := by
  have hu : u.mem.cells = (mapped State.reset).mem.cells := by rw [hm, cells_mapped_lemma s hs]
  have he := (entries_mapped_lemma u hu).2
  have h0 : va / 2 ^ 36 * 2 ^ 36 = 0 := by
    rw [show va / 2 ^ 36 = 0 from Nat.div_eq_of_lt (by omega), Nat.zero_mul]
  have hl := lookup_mapped u (paged_mapped u hu (by rw [hh]; exact hp) (by rw [State.ctx, hc]; rfl)
    (by rw [hm]; simp [mapped, withTables, hs]; rfl)) va hv
  have ho : (0x20000000000000ff : Word).toNat ||| 128 ||| (if d then 64 else 0) = (0x20000000000000ff : Word).toNat := by
    cases d <;> rfl
  have ht : (u.hub.pages.tlb.any fun t => t.die == 0 && t.ctx == 0 && t.va.toNat == 0 && t.size == 2) = true := by
    rw [hh]; rfl
  unfold State.markPage
  simp only [he, ho, if_true, hl, h0]
  exact if_pos ht

/-- Addresses of that page, for a job of context 0 on die 0. -/
theorem homesOf_mapped (s : State) (hs : s.mem = State.reset.mem) (hp : s.hub.pages.since = []) (j : Job)
    (hj : j.die = 0 ∧ j.ctx = 0) (access a n : Nat)
    (ha : access = 1 ∨ access = 2) (hn : a + n ≤ 65536) : homesOf (mapped s) j 0 access (addrs a n) (addrs a n) := by
  have key : ∀ l : List Nat, (∀ x ∈ l, x < 65536) →
      ∃ es, (mapped s).jobGlobal 0 access l = .ok l es ∧ ∀ e ∈ es, e.1 = 0x202000 ∧ e.2 < 65536 := by
    intro l
    induction l with
    | nil => exact fun _ => ⟨[], rfl, by simp⟩
    | cons x xs ih =>
      intro h
      obtain ⟨es, h1, h2⟩ := ih fun y hy => h y (by simp [hy])
      have hx := h x (by simp)
      have hlin : lin x = x := Nat.mod_eq_of_lt (by omega)
      refine ⟨_, by simp only [State.jobGlobal, hlin, xlat_mapped s hs hp x access hx ha, h1]; rfl, ?_⟩
      split
      · exact h2
      · simp only [List.mem_cons]
        rintro e (rfl | he)
        exacts [⟨rfl, hx⟩, h2 e he]
  obtain ⟨es, h1, h2⟩ := key (addrs a n) (by simp [addrs]; omega)
  refine ⟨es, by rw [hj.2]; exact h1, ?_⟩
  intro e he u hm hh hc
  rw [hj.1, hj.2, (h2 e he).1]
  exact markPage_mapped s u hs hp hm hh hc _ (h2 e he).2 _

/-- Those of a job at work. -/
theorem homesOf_withJob (j : Job) (d : Debug) (st : Strand) (h1 : j.die = 0) (h2 : j.ctx = 0) (access a n : Nat)
    (ha : access = 1 ∨ access = 2) (hn : a + n ≤ 65536) : homesOf (withJob j d st) j 0 access (addrs a n) (addrs a n) :=
  by unfold withJob; exact homesOf_mapped { State.reset with
    dbg := d
    kern := [region0], fab := { State.reset.fab with gangs := [gang0 [st]] }
    eng := { State.reset.eng with jobs := [j] }, arg := .num 4 } rfl rfl j ⟨h1, h2⟩ access a n ha hn

/-- Whether a check fails, and whether it lets its job start. -/
def isFail (c : Check) : Bool := match c with | .fail => true | _ => false

/-- A tensor of two bytes at 256 of cluster store, its box of four from -1 on: clipped, inside, inside, clipped. -/
def clipBox : List Byte :=
  recOf 96 [(0, 8, 256), (8, 1, 0x14), (9, 1, 1), (12, 4, 0x5a), (16, 3, 2), (32, 6, 1), (64, 4, 0xffffffff), (84, 2, 4)]

/-- A tensor copy whose record is all zeros fails; a linear copy and a write-back start (R192, R211, R212, R241). -/
theorem witness_CopyJobsDispatch :
    let w (j : Job) : Job := { j with state := .waiting }
    let t := w (jobOf .copyTensor [] [])
    let l := w (jobOf .copyLinear [64, 0, 4, 1, 1] [])
    let m := w (jobOf .mrdWrite [0, 1, 1] (List.replicate 128 7))
    (∀ j ∈ [t, l, m], (withJob j).job 4 = some j ∧ (withJob j).dispatchable j = true) ∧
    isFail ((withJob t).checkJob t) = true ∧ isFatal ((withJob t).ctx t.ctx) .engine = false ∧
    ((withJob t).region t.rid).map (·.ctx) = some t.ctx ∧ (withJob t).inFlight ⟨seq0, 0⟩ = false ∧
    thenNext (exec .jobDispatch (withJob t)) (fun u => (u.region 0).map (·.state) == some .frozen) = true ∧
    (withJob l).freeEngine l.die l.cl = some 0 ∧ (withJob l).hitsMapped l.die 1 64 4 = false ∧
    thenNext (exec .jobDispatch (withJob l)) (fun u => (u.job 4).map (·.state) == some .running) = true ∧
    thenNext (exec .jobDispatch (withJob m)) (fun u => (u.job 4).map (·.state) == some .running) = true := by
  decide +kernel

/-- Jobs of each kind that run, with the homes of their bytes (R211 to R213, R241, R245). -/
theorem witness_CopyJobsRun :
    let l := jobOf .copyLinear [64, 0, 4, 1, 0] []
    let t := jobOf .copyTensor [64, 1, 1, 0, 0, 0] clipBox
    let q := jobOf .copyRing [2] clipBox
    let b := jobOf .cpyb [0, 0, 0, 0x10000, 1, 0, 1] []
    let m := jobOf .mrdWrite [0, 1, 1] (List.replicate 128 7)
    runs (withJob l) 4 l .copyLinear ∧ homesOf (withJob l) l 0 1 (addrs 0 4) (addrs 0 4) ∧
    homesOf (withJob l) l 1 2 (addrs 64 4) ((addrs 64 4).map (homeCluster 0 0)) ∧
    ((addrs 64 4).map (homeCluster 0 0)).Nodup ∧
    runs (withJob t) 4 t .copyTensor ∧ homesOf (withJob t) t 1 1 (boxOf clipBox).addrs ([256, 257].map (homeCluster 0 0)) ∧
    (boxOf clipBox).w = 8 ∧
    thenNext (exec .copyJobComplete (withJob t)) (fun u =>
      (List.range 4).map (fun k => smGet 0 u.mem.cells (homeCluster 0 0 (64 + k))) == [0x5a, 0, 0, 0x5a]) = true ∧
    runs (withJob q) 4 q .copyRing ∧ q.left = 0 ∧ q.node = none ∧
    runs (withJob b) 4 b .cpyb ∧ homesOf (withJob b) b 0 1 (addrs 0 128) (addrs 0 128) ∧ cpybWidth 1 0 = 8 ∧
    runs (withJob m) 4 m .mrdWrite ∧
    thenNext (exec .mrdWritebackComplete (withJob m)) (fun u => smGet 0 u.mem.cells (homeCluster 0 0 127) == 7) = true := by
  refine ⟨runs_withJob _ _ _ _ rfl rfl rfl rfl rfl rfl rfl, homesOf_withJob _ _ _ rfl rfl _ _ _ (.inl rfl) (by omega),
    homesOf_cluster _ _ _ _, by decide +kernel, runs_withJob _ _ _ _ rfl rfl rfl rfl rfl rfl rfl, ?_, by decide +kernel,
    by decide +kernel, runs_withJob _ _ _ _ rfl rfl rfl rfl rfl rfl rfl, rfl, rfl, runs_withJob _ _ _ _ rfl rfl rfl rfl rfl rfl rfl,
    homesOf_withJob _ _ _ rfl rfl _ _ _ (.inl rfl) (by omega), rfl, runs_withJob _ _ _ _ rfl rfl rfl rfl rfl rfl rfl,
    by decide +kernel⟩
  have : (boxOf clipBox).addrs = [256, 257] := by decide +kernel
  rw [this]
  exact homesOf_cluster _ _ _ _

/-- A sealed capsule's retrieval into the page that is mapped (R398, R399, R407). -/
theorem witness_CapsuleRetrieval :
    let j := jobOf .capsGet [0, 20000, 0, 0] []
    let s := withJob j { Debug.reset with capsule := { Capsule.empty with state := .sealed_ } }
    let n := (s.capsImage 0 false).length
    runs s 4 j .capsGet ∧ s.dbg.capsule.state = .sealed_ ∧ (addrs 0 n).Nodup ∧ j.req.ev = false ∧ j.barId = none ∧
    homesOf s j 0 2 (addrs 0 n) (addrs 0 n) := by
  refine ⟨runs_withJob _ _ _ _ rfl rfl rfl rfl rfl rfl rfl, rfl, ?_, rfl, rfl,
    homesOf_withJob _ _ _ rfl rfl _ _ _ (.inr rfl) ?_⟩
  · exact (List.nodup_range).map fun a b h => by omega
  · have h1 : ((withJob (jobOf .capsGet [0, 20000, 0, 0] [])
        { Debug.reset with capsule := { Capsule.empty with state := .sealed_ } }).capsIndex true
      ++ (withJob (jobOf .capsGet [0, 20000, 0, 0] [])
        { Debug.reset with capsule := { Capsule.empty with state := .sealed_ } }).capsDigest).length ≤ 200 := by
      decide +kernel
    have h2 : (withJob (jobOf .capsGet [0, 20000, 0, 0] [])
        { Debug.reset with capsule := { Capsule.empty with state := .sealed_ } }).capsSections 0 false = [] := rfl
    have h3 : (withJob (jobOf .capsGet [0, 20000, 0, 0] [])
        { Debug.reset with capsule := { Capsule.empty with state := .sealed_ } }).sectionTable = [] := rfl
    simp only [State.capsImage, h2, h3, List.flatMap_nil, List.append_nil, padTo]
    rw [List.length_append, List.length_take, Nat.zero_add]
    exact Nat.le_trans (Nat.add_le_add h1 (Nat.min_le_left _ _)) (by omega)

/-- A strand with eight tiles, its tile 0 tagged E2M1, acc1 bound to slot 3 of matrix island 2, and three active rows in dr0. -/
def strandM : Strand :=
  { strand0 0 2 with ntiles := 8, regs := { ((strand0 0 2).regs.wrD 12 ⟨0x300, [(1, 0x100000000)]⟩).wrT 0 ⟨[(0, 1)], [], .e2m1⟩ with
      acc := (strand0 0 2).regs.acc.set 1 (.bound 2 3) } }

/-- A tile task of 32 columns of E2M1 from tile 0 on every island, with the flags given. -/
def taskBytes (flags : Nat) : List Byte :=
  recOf 64 [(0, 2, 0x10), (2, 1, 8), (3, 1, 8), (4, 1, flags), (5, 1, 1), (8, 2, 32), (17, 1, 15)]

/-- A tile task on name `acc`. -/
def taskJob (acc : Word) (flags : Nat) : Job :=
  let j := jobOf .task [acc] (taskBytes flags)
  { j with island := 2, slot := 3, req := { j.req with tile := some ⟨[(0, 1)], [], .e2m1⟩ } }

/-- Dispatch with and without Z, and of a bad record; the array; completion; MZERO (R229, R231 to R233, R239). -/
theorem witness_TileJobs :
    let w (j : Job) : Job := { j with state := .waiting }
    let s (j : Job) : State := withJob j Debug.reset strandM
    let b := w (jobOf .task [0] (recOf 64 [(4, 1, 4)]))
    let z := w (taskJob 0 5)
    let o := w (taskJob 1 4)
    let n := w (taskJob 0 4)
    let m := w (jobOf .mzero [0] (recOf 64 [(0, 2, 0x12), (5, 1, 0), (17, 1, 15)]))
    (∀ j ∈ [b, z, o, n, m], (s j).job 4 = some j ∧ (s j).dispatchable j = true ∧ (s j).barOk j = true ∧
      (s j).inFlight ⟨seq0, 0⟩ = false ∧ ((s j).region j.rid).map (·.ctx) = some j.ctx) ∧
    taskBad b.req.bytes false = true ∧ isFatal ((s b).ctx 0) .engine = false ∧
    (∀ j ∈ [z, o, n, m], taskBad j.req.bytes false = false) ∧ (∀ j ∈ [z, o, n], let k := (s j).readTile j; ((s j).modJob 4 fun _ => k).taskABad k = false) ∧
    strandM.regs.acc[z.acc] = .unbound ∧ (s z).coolest z 15 = some (0, 0) ∧ (s m).coolest m 15 = some (0, 0) ∧
    strandM.regs.acc[o.acc] = .bound 2 3 ∧
    thenNext (exec .tileTaskDispatch (s z)) (fun u => (u.strand ⟨seq0, 0⟩).map (·.regs.acc[z.acc]) == some (.bound 0 0)) = true ∧
    thenNext (exec .tileTaskDispatch (s o)) (fun u => (u.job 4).map (fun k => (k.island, k.slot)) == some (2, 3)) = true ∧
    thenNext (exec .tileTaskDispatch (s n)) (fun u => (u.region 0).map (·.state) == some .frozen) = true := by decide +kernel

/-- The array of a task ends (R226). -/
theorem witness_TileJobs_array :
    let j := taskJob 1 4
    let s : State := { withJob j Debug.reset strandM with
      clk := { State.reset.clk with islands := [⟨matKey ⟨0, 0, 2⟩, 64, 64, 0, none, false, none, none, 64, false, false⟩] } }
    runs s 4 j .task ∧ j.req.fld 0 2 ≠ 0x12 ∧ s.arrayBusy j = false ∧ (s.island (matKey ⟨0, 0, 2⟩)).running = true ∧
    thenNext (exec .tileTaskArrayEnd s) (fun u => (u.job 4).map (·.state) == some .arrayDone) = true :=
  ⟨runs_withJob (taskJob 1 4) _ _ _ rfl rfl rfl rfl rfl rfl rfl, by decide +kernel⟩

/-- A task whose array is done, and MZERO (R103, R228, R232, R239). -/
theorem witness_TileJobs_complete :
    let j : Job := { taskJob 1 4 with state := .arrayDone }
    let s := withJob j Debug.reset strandM
    let m := jobOf .mzero [1] (recOf 64 [(0, 2, 0x12), (5, 1, 1), (17, 1, 15)])
    s.job 4 = some j ∧ s.jobsRun j.rid = true ∧ ((s.strand ⟨seq0, 0⟩).map (·.ended)) = some false ∧
    (s.slot ⟨0, 0, 2⟩ 3).state ≠ .held 4 ∧ (s.columnsB ⟨0, 0, 2⟩ .e2m1 32 0 0 0 0).isSome = true ∧ (s.taskA j).length = 128 ∧
    runs (withJob m) 4 m .mzero ∧ ((withJob m).slot ⟨0, 0, 0⟩ 0).state ≠ .held 4 ∧
    thenNext (exec .mzeroComplete (withJob m)) (fun u => (u.job 4).isNone) = true := by
  refine ⟨rfl, by decide +kernel, by decide +kernel, by decide +kernel, by decide +kernel, ?_,
    runs_withJob _ _ _ _ rfl rfl rfl rfl rfl rfl rfl, by decide +kernel, by decide +kernel⟩
  show List.length ((Tile.rows _).zip (Tile.scales _) |>.map _) = 128
  simp [Tile.rows, Tile.scales]

/-- A descriptor of 32 columns of FP32, one level and one neuron, its nodes and leaves in the weight store. -/
def layer1 : List Byte :=
  recOf 64 [(16, 4, 192), (20, 4, 256), (28, 4, 128), (48, 2, 32), (50, 1, 1), (51, 1, 1), (56, 1, 0x1b), (57, 1, 0xff)]

/-- A step's or leaf's job on dr0 from a tile of zeros. -/
def layerJob (k : JobKind) : Job :=
  let j := jobOf k [12, 15, 0, 0, 0, 16, 0] layer1
  { j with req := { j.req with tile := some ⟨[], [], .fp32⟩ } }

/-- A step and a leaf that run (R250, R254): a row of zeros has margin 0, and goes to its right child. -/
theorem witness_TreeJobs :
    let j := layerJob .tdstep
    let l := layerJob .tdleaf
    let s := withJob j Debug.reset strandM
    runs s 4 j .tdstep ∧ runs (withJob l Debug.reset strandM) 4 l .tdleaf ∧ s.strand ⟨seq0, 0⟩ = some strandM ∧
    layerSpace layer1 false = 3 ∧ layerSpace layer1 true = 3 ∧ codeWidth (fieldN layer1 52 1) = fmtWidth (codeFmt (fieldN layer1 52 1)) ∧
    (s.die 0).fenced = [] ∧ (s.jobPath j).nrows = 3 ∧ (s.jobPath j).level = 0 ∧ smOk 0 none (s.jobPath j).rows = true ∧
    8 ≤ l.req.arg 5 ∧ codeFmt (fieldN layer1 54 1) = .fp32 ∧ 4 * fieldN layer1 48 2 ≤ fieldN layer1 28 4 ∧
    thenNext (exec .tdstepComplete s) (fun u =>
      let p := u.jobPath j
      (p.level, p.node 0, p.pathBits 0) == (1, 1, 1)) = true := by
  refine ⟨runs_withJob _ _ _ _ rfl rfl rfl rfl rfl rfl rfl, runs_withJob _ _ _ _ rfl rfl rfl rfl rfl rfl rfl, rfl, ?_⟩
  decide +kernel

/-- A layer of two neurons, eight columns and two rows, weights and predictor in the weight store. -/
def skive1 : List Byte := recOf 64 [(48, 2, 8), (50, 1, 1), (54, 1, 0), (55, 1, 0x1b), (56, 2, 1), (58, 1, 2), (59, 1, 0xff)]

/-- A skive job whose handle 0 holds the whole weight store for loads. -/
def skJob (k : JobKind) : Job :=
  let j := jobOf k [0, 15, 0, 0, 0x3f800000_00000002] skive1
  { j with req := { j.req with tile := some ⟨[], [], .fp32⟩, hs := Vector.replicate 16 ⟨0, 0x300000000, true, 3, false, false, true⟩ } }

/-- The four steps of a firing that run (R265, R267 to R270). -/
theorem witness_SkiveJobs :
    (∀ k ∈ [JobKind.skpred, .skfetch, .skchk, .skrpl], runs (withJob (skJob k)) 4 (skJob k) k) ∧
    skSpace skive1 false = 3 ∧ skSpace skive1 true = 3 ∧ skRows skive1 ≤ 128 ∧
    (let j := skJob .skfetch
     ((withJob j).die 0).fenced = [] ∧ skReads j.req false (skWSpans skive1
      ((List.range (skNeurons skive1)).filter (skBit skive1 ((withJob j).skiveArea j) 0))) = true) ∧
    (∀ ns : List Nat, (∀ i ∈ ns, i < skNeurons skive1) → skReads (skJob .skrpl).req false (skWSpans skive1 ns) = true) ∧
    thenNext (exec .skpredComplete (withJob (skJob .skpred))) (fun u => smGet 0 u.mem.cells (homeCluster 0 0 0) == 1) = true := by
  refine ⟨?_, by decide +kernel, by decide +kernel, by decide +kernel, by decide +kernel, ?_, by decide +kernel⟩
  · intro k _
    exact runs_withJob _ _ _ _ rfl rfl rfl rfl rfl rfl rfl
  · intro ns h
    have key : ∀ b < 2, ∀ i < 2, (fun p : Nat × Nat => handleOk (skJob .skrpl).req.hs (bits (fieldN skive1 54 1) 3 0)
        (skSpace skive1 false) .load p.1 p.2) (skSpan skive1 (8 * b) (skWstr skive1) (skRowBytes skive1) i) = true := by
      decide +kernel
    simp only [skReads, skWSpans, List.all_append, List.all_map, List.all_eq_true, Bool.and_eq_true]
    exact ⟨fun i hi => key 0 (by omega) i (h i hi), fun i hi => key 1 (by omega) i (h i hi)⟩

/-- An entry of a routing record's table: base, format, extents and strides, in cluster store (R377). -/
def shape (base fmt n0 n1 unit : Nat) : List Byte :=
  recOf 64 [(0, 8, base), (8, 1, fmt), (9, 1, 2), (10, 1, 1), (16, 4, n0), (20, 4, n1), (32, 8, unit), (40, 8, unit * n0)]

/-- A routing job of two experts, one token and one slot (R378, R379). -/
def route1 : List Byte :=
  recOf 64 [(0, 2, 0x50), (4, 5, 0x0403020100), (9, 1, 1), (12, 1, 1), (13, 1, 1), (14, 1, 0xff)]
    ++ shape 256 0 2 1 4 ++ shape 512 0x13 1 1 2 ++ shape 520 0 1 1 4 ++ shape 544 0x11 6 1 4 ++ shape 600 0x14 1 1 1

/-- A routing job that runs: of two equal scores the lower expert is chosen (R380, R384). -/
theorem witness_RoutingJobs :
    let j := jobOf .rtjob [0] route1
    let homes (k : Nat) : List Nat := (rtAddrs route1 k (rtUnit route1 k)).map (homeCluster 0 0)
    runs (withJob j) 4 j .rtjob ∧
    homesOf (withJob j) j (rtShape route1 0).space 1 (rtAddrs route1 0 (rtUnit route1 0)) (homes 0) ∧
    (∀ k < 4, homesOf (withJob j) j (rtShape route1 (k + 1)).space 2 (rtAddrs route1 (k + 1) (rtUnit route1 (k + 1))) (homes (k + 1))) ∧
    (homes 1 ++ homes 2 ++ homes 3 ++ homes 4).Nodup ∧ (homes 0).length = rtE route1 * rtT route1 * rtUnit route1 0 ∧
    (let sc : List Machine.Num := (List.range 2).map fun _ => elemVal .fp32 0
     ∀ k < 4, ((rtOutput route1 (rtChosen route1 sc)).getD k []).flatten.length = (homes (k + 1)).length) := by
  have hs : ∀ k < 5, (rtShape route1 k).space = 1 := by decide +kernel
  refine ⟨runs_withJob _ _ _ _ rfl rfl rfl rfl rfl rfl rfl, ?_, fun k hk => ?_, by decide +kernel⟩
  · rw [hs 0 (by omega)]
    exact homesOf_cluster _ _ _ _
  · rw [hs (k + 1) (by omega)]
    exact homesOf_cluster _ _ _ _

/-! ### Nodes -/

/-- A region in whose stage one node stands, its fields and ports as given, with its rings: ring k at a port, as its
consumer or its producer, with tokens that wait there; every clock runs. -/
def nodeSt (el : Nat) (fs : List (Nat × Nat)) (rs : List (Nat × Bool × List Token)) (run : NodeRun → NodeRun)
    (extra : List (Nat × Nat × Nat) := []) : State :=
  let ring (p : (Nat × Bool × List Token) × Nat) : Ring :=
    { ring3 (p.1.2.2.zipIdx.map fun t => { tok := t.1, num := t.2, res := false }) with
      id := ⟨0, 0, Fin.ofNat 512 p.2⟩, freeseen := 4 }
  let port (p : (Nat × Bool × List Token) × Nat) : List (Nat × Nat × Nat) :=
    [(el, 48 + p.1.1, 0x101 + 128 * p.1.2.1.toNat), (ringElem ⟨0, 0, Fin.ofNat 512 p.2⟩, if p.1.2.1 then 1 else 2, 64 * el + p.1.1)]
  let r : Region := { region0 with
    config := (el, 0, 1) :: fs.map (fun p => (el, p.1, p.2)) ++ rs.zipIdx.flatMap port ++ extra }
  let on (k : IslandKey) : Island := ⟨k, 64, 64, 0, none, false, none, none, 64, false, false⟩
  { State.reset with
    kern := [r.modRun el run], arg := .node ⟨0, BitVec.ofNat 22 el⟩
    chan := { State.reset.chan with rings := rs.zipIdx.map ring }
    clk := { State.reset.clk with islands := [on (fabKey ⟨0, 0, 0⟩), on (matKey ⟨0, 0, 0⟩), on (streamKey 0 0)] } }

/-- The node of a state, its region and its rings. -/
def regionOf (s : State) : Region := s.kern.headD region0
@[inherit_doc regionOf] def ringOf (s : State) (k : Nat) : Ring := (s.chan.rings[k]?).getD (ring3 [])

/-- What `nodeIs`, `offers` and `opensTo` ask, as a test. -/
def isNode (s : State) (el : Nat) (k : ElKind) : Bool :=
  s.nodeOf ⟨0, BitVec.ofNat 22 el⟩ k == some (regionOf s, el) && s.region (regionOf s).rid == some (regionOf s)
@[inherit_doc isNode] def hasIn (s : State) (el p k : Nat) (ts : List Token) : Bool :=
  let q := ringOf s k
  s.ringInto 0 el p == some q && s.ring q.id == some q && decide (q.slots.map (·.num)).Nodup && !ts.isEmpty
    && q.slots.all (fun t => !t.gone && !t.res) && (q.slots.take ts.length).map (·.tok) == ts
@[inherit_doc isNode] def hasOut (s : State) (el o k : Nat) : Bool :=
  let w := ringOf s k
  s.ringFrom 0 el o == some w && s.ring w.id == some w && decide (1 ≤ w.freeseen - w.fresv)

/-- The tests say what the statements ask. -/
theorem isNode_lemma (s : State) (el : Nat) (k : ElKind) (h : isNode s el k = true) :
    nodeIs s ⟨0, BitVec.ofNat 22 el⟩ k (regionOf s) el := by
  simpa [isNode, nodeIs] using h

@[inherit_doc isNode_lemma] theorem hasIn_lemma (s : State) (el p k : Nat) (ts : List Token) (hr : (regionOf s).rid = 0)
    (h : hasIn s el p k ts = true) : offers s (regionOf s) el p (ringOf s k) ts := by
  simp only [hasIn, Bool.and_eq_true, beq_iff_eq, decide_eq_true_eq, List.all_eq_true] at h
  obtain ⟨⟨⟨⟨⟨h1, h2⟩, h3⟩, h4⟩, h5⟩, h6⟩ := h
  refine ⟨by rw [hr]; exact h1, h2, h3, by simpa using h4, ?_, h6⟩
  simpa using h5

@[inherit_doc isNode_lemma] theorem hasOut_lemma (s : State) (el o k : Nat) (hr : (regionOf s).rid = 0)
    (h : hasOut s el o k = true) : opensTo s (regionOf s) el o (ringOf s k) := by
  simp only [hasOut, Bool.and_eq_true, beq_iff_eq, decide_eq_true_eq] at h
  exact ⟨by rw [hr]; exact h.1.1, h.1.2, h.2⟩

/-- A stream node that takes one token of E2M1 columns and gives FP32 (R235). -/
theorem witness_StreamingNodesFire_stream :
    let el := elAddr 0 1 0 0
    let t : Token := ⟨.e2m1, List.replicate 16 0⟩
    let s := nodeSt el [(1, 8 + 8 * 32), (2, 32)] [(0, false, [t]), (1, true, [])] id
    let r := regionOf s
    isNode s el .stream = true ∧ (r.inPorts el)[0]? = some 0 ∧ (r.outPorts el)[0]? = some 1 ∧ hasIn s el 0 0 [t] = true ∧
    hasOut s el 1 1 = true ∧ (ringOf s 1).id ≠ (ringOf s 0).id ∧ r.field el 8 1 = 1 ∧
    s.sliceBusy (r.nodeIsl el) (r.nodeSlices el) = false ∧
    (s.columnsB (r.nodeIsl el) .e2m1 32 (r.field el 6) (r.field el 3) (r.field el 4) (r.field el 5)).isSome = true := by
  decide +kernel

/-- A repeat node that absorbs, and one that pushes, two tokens three times (R236). -/
theorem witness_StreamingNodesFire_repeat :
    let el := elAddr 0 2 0 1
    let c : Token := ⟨.raw, [3, 0, 0, 0]⟩
    let t : Token := ⟨.raw, [7, 8]⟩
    let s (f : NodeRun → NodeRun) := nodeSt el [(1, 1), (6, 2), (8, 64)] [(0, false, [c]), (1, false, [t]), (2, true, [])] f
    let a := s id
    let b := s fun u => { u with buffer := [t, t], iter := [6] }
    (∀ s ∈ [a, b], isNode s el .copy = true ∧ ((regionOf s).inPorts el) = [0, 1] ∧ ((regionOf s).outPorts el) = [2] ∧
      (s.waitingAt 0 el 0).head? = some c ∧ s.ringInto 0 el 0 = some (ringOf s 0) ∧ s.mem.wf = true) ∧
    fieldN c.bytes 0 4 = 3 ∧ hasIn a el 1 1 [t] = true ∧ (ringOf a 1).id ≠ (ringOf a 0).id ∧ hasOut b el 2 2 = true ∧
    thenNext (exec .repeatNodeFiring a) (fun u =>
      smGet 0 u.mem.cells (homeCluster 0 0 65) == 8 && ((regionOf u).run el).iter == [6]) = true ∧
    thenNext (exec .repeatNodeFiring b) (fun u => (ringOf u 2).transit.map (·.bytes.take 2) == [[7, 8]]) = true := by
  decide +kernel

/-- A bit-field node of one table that gives its first input; the inputs at the ends of their ranges (R284). -/
theorem witness_StreamingNodesFire_bitfield :
    let el := elAddr 0 0 0 0x810
    let t : Token := ⟨.raw, [1]⟩
    let g := 0xaaaa + 0x200 * 2 ^ 27 + 0x201 * 2 ^ 38 + 0x1ff * 2 ^ 49
    let s := nodeSt el [] [(0, false, [t]), (1, true, [])] id [(elAddr 0 0 0 0x400, 1, g)]
    isNode s el .bitfield = true ∧ hasIn s el 0 0 [t] = true ∧ hasOut s el 1 1 = true ∧ (ringOf s 1).id ≠ (ringOf s 0).id ∧
    (∀ v ∈ [bits g 26 16, bits g 37 27, bits g 48 38, bits g 59 49], v ≤ 0x201 ∨ (0x400 ≤ v ∧ v < 0x400 + 0)) ∧
    thenNext (exec .bitfieldNodeFiring s) (fun u => (ringOf u 1).transit.map (·.bytes.take 1) == [[1]]) = true := by
  decide +kernel

/-- A converter node from FP32 to FP16 (R281, R141). -/
theorem witness_StreamingNodesFire_converter :
    let el := elAddr 0 2 0 0x40
    let t : Token := ⟨.fp32, leBytes 4 0x3f800000⟩
    let s := nodeSt el [(1, 0x23)] [(0, false, [t]), (2, true, [])] id
    isNode s el .converter = true ∧ (regionOf s).inPorts el = [0] ∧ ((regionOf s).outPorts el).find? (· != 1) = some 2 ∧
    hasIn s el 0 0 [t] = true ∧ hasOut s el 2 1 = true ∧ (ringOf s 1).id ≠ (ringOf s 0).id ∧ s.ringFrom 0 el 1 = none ∧
    t.tag.inF = true ∧ (codeFmt (bits 0x23 4 0)).inF = true ∧ (0x23 : Nat).testBit 5 = true ∧ (0x23 : Nat).testBit 9 = false ∧
    4 * min 128 (t.bytes.length / 4) ≤ (ringOf s 1).slotsz := by
  decide +kernel

/-- A stream that reads, one outside its bounds, one whose page is absent; an ordered update's token; a held fence (R169,
R193, R360, R362). What an address token holds is opaque, so of the ordered update no value is shown. -/
theorem witness_MemoryAndCollectiveNodesFire_memory :
    let el := elAddr 0 2 0 0x20
    let t : Token := ⟨.raw, [1]⟩
    let watch : Ctx := ⟨0, .closed, 0, 0, 0, 0, false, false, false, 0, 0, BitVec.twoPow 32 (FaultCode.watchdog.num - 1), 0, 0, 0, 0, 0, 0, 0, false⟩
    let go (s : State) : State := { s with
      arg := .nodePoison ⟨0, BitVec.ofNat 22 el⟩ false, hub := { s.hub with ctxs := [watch] } }
    let fs (sp hi : Nat) : List (Nat × Nat) := [(3, 0), (4, sp), (6, hi), (7, 3), (8, 4), (12, 4)]
    let a := go (nodeSt el (fs 1 64) [(0, true, [])] id)
    let b := go (nodeSt el (fs 1 3) [(0, true, [])] id)
    let c := go (nodeSt el (fs 0 64) [(0, true, [])] fun u => { u with extent := [(0, 0xff)] })
    let d := go (nodeSt el ((1, 2) :: fs 1 64) [(0, false, [t])] id)
    let f := go <| nodeSt el ((1, 1) :: fs 1 64) [(0, true, [])] fun u => { u with parked := [(some 0, true, t)] }
    (∀ s ∈ [a, b, c, d, f], isNode s el .memory = true ∧ ((regionOf s).run el).stuck = false ∧ s.mem.wf = true ∧
      (∀ code ∈ [FaultCode.bounds, .poison], isFatal (s.ctx (regionOf s).ctx) code = false)) ∧
    (∀ s ∈ [a, b, c], (regionOf s).field el 1 = 0 ∧ ((regionOf s).outPorts el)[0]? = some 0 ∧ (regionOf s).inPorts el = [] ∧
      hasOut s el 0 0 = true ∧ (regionOf s).streamLen el = 4 ∧ (regionOf s).streamAddr el 0 = 0) ∧
    (regionOf a).nodeBounds el 0 4 false = true ∧
    a.nodeHomes (regionOf a) el 1 (addrs 0 4) = .ok ((addrs 0 4).map (homeCluster 0 0)) [] ∧
    (regionOf b).nodeBounds el 0 4 false = false ∧ (regionOf c).nodeBounds el 0 4 false = true ∧
    c.nodeHomes (regionOf c) el 1 (addrs 0 4) = .bad .page 0 0 ∧
    (regionOf d).field el 1 = 2 ∧ ((regionOf d).inPorts el)[0]? = some 0 ∧ ((regionOf d).run el).parked = [] ∧
    hasIn d el 0 0 [t] = true ∧ ((regionOf f).run el).parked = [(some 0, true, t)] ∧
    ((regionOf f).outPorts el)[0]? = some 0 ∧ hasOut f el 0 0 = true ∧
    thenNext (exec .memoryNodeAccess b) (fun u => (u.region 0).map (·.state) == some .frozen) = true ∧
    thenNext (exec .memoryNodeAccess c) (fun u => ((regionOf u).run el).stuck) = true ∧
    thenNext (exec .fenceTokenRelease { f with arg := .node ⟨0, BitVec.ofNat 22 el⟩ }) (fun u => ((regionOf u).run el).parked == [] && (ringOf u 0).transit.length == 1)
      = true := by decide +kernel

/-- A skive and a routing node that fire, and that end a firing (R281, R384). -/
theorem witness_MemoryAndCollectiveNodesFire_units :
    (∀ p ∈ [(elAddr 0 3 0 0x320, ElKind.skive), (elAddr 0 4 0 0, .routing)],
      let s := nodeSt p.1 [] [] id
      let e := nodeSt p.1 [] [] fun u => { u with iter := [1] }
      isNode s p.1 p.2 = true ∧ s.nodeIdle ⟨0, BitVec.ofNat 22 p.1⟩ = true ∧ ((regionOf s).run p.1).iter = [] ∧
      ((s.takeAll (regionOf s) p.1).map (·.1)) = some [] ∧ isNode e p.1 p.2 = true ∧
      e.nodeIdle ⟨0, BitVec.ofNat 22 p.1⟩ = true ∧ ((regionOf e).run p.1).iter ≠ [] ∧ (regionOf e).outPorts p.1 = []) ∧
    thenNext (exec .routingNodeFiring (nodeSt (elAddr 0 4 0 0) [] [] id)) (fun u =>
      u.eng.jobs.map (·.req.kind) == [.rtjob]) = true := by decide +kernel

/-- A collective unit with no out ring, and one whose other members have all contributed (R372, R341). -/
theorem witness_MemoryAndCollectiveNodesFire_collective :
    let el := elAddr 0 4 2 0
    let ms := Config.members 0 el
    let s := nodeSt el [(2, 1)] [] id
    let w := nodeSt el [(2, 1)] [(0, true, [])] fun u => { u with contrib := ms.map fun m => (m, [0]) }
    let go (s : State) : State := { s with arg := .contribution ⟨0, BitVec.ofNat 22 el⟩ 5 [1] }
    isNode (go s) el .endpoint = true ∧ bits ((regionOf s).field el 2) 1 0 ≠ 0 ∧ ((regionOf s).run el).failed = false ∧
    (5 : BitVec 20) ≠ (go s).hub.boot.device ∧ (regionOf s).outPorts el = [] ∧ (regionOf s).state.live = true ∧
    isNode (go w) el .endpoint = true ∧ ((regionOf w).outPorts el)[0]? = some 0 ∧ hasOut (go w) el 0 0 = true ∧
    (∀ k ∈ ms, ∃ e ∈ ((regionOf w).run el).contrib ++ [((5 : BitVec 20), [(1 : Lane)])], e.1 = k) ∧
    thenNext (exec .collectiveFailure { s with arg := .member ⟨0, BitVec.ofNat 22 el⟩ 5 }) (fun u =>
      (u.region 0).map (·.state) == some .frozen) = true := by
  refine ⟨by decide +kernel, by decide +kernel, by decide +kernel, by decide +kernel, by decide +kernel, by decide +kernel,
    ?_, by decide +kernel, ?_, ?_, by decide +kernel⟩
  · simp [isNode]
    constructor <;> rfl
  · rfl
  · intro k hk
    exact ⟨(k, [0]), List.mem_append.2 (.inl (List.mem_map.2 ⟨k, hk, rfl⟩)), rfl⟩

/-! ### Kernels -/

/-- A stage's stream that enables the rate element alone: BEGIN, EHI, one write, END (R274 to R276). -/
def rateStream (stage : Nat) : List (BitVec 32) :=
  [0xc0000000 + BitVec.ofNat 32 (stage * 2 ^ 23), 0x40000022, 1, 0xc4000000]

/-- The words of a stage's stream that writes fields of elements (R274 to R276). -/
def streamOf (stage : Nat) (ws : List (Nat × Nat × Nat)) : List (BitVec 32) :=
  (0xc0000000 + BitVec.ofNat 32 (stage * 2 ^ 23)) :: ws.flatMap (fun w =>
    [0x40000000 + BitVec.ofNat 32 (w.1 / 4096)] ++
    (if w.2.2 < 4096 then [] else [0x80000000 + BitVec.ofNat 32 (w.2.2 / 4096)]) ++
    [BitVec.ofNat 32 (w.1 % 4096 * 2 ^ 18 + w.2.1 * 4096 + w.2.2 % 4096)]) ++ [0xc4000000]

/-- A stage whose one node pushes two tokens a firing into a ring that it pops one from: no firing counts balance it
(R296). -/
def loopStage (stage : Nat) : List (BitVec 32) :=
  let el := elAddr 0 0 0 0x810
  let q := elAddr 0 3 0 0
  streamOf stage [(el, 0, 1), (el, 48, 0x101), (el, 49, 0x182), (q, 0, 1), (q, 1, 64 * el + 1), (q, 2, 64 * el),
    (q, 3, 0x803000), (rateEl, 0, 1), (rateEl, 1, 64 * el + 1)]

/-- The configuration of a stage's stream. -/
def cfgOf (stage : Nat) (ws : List (BitVec 32)) : Cfg := match loadStream stage [] ws with | .inl p => p.1 | .inr _ => []

/-- A region of a kernel with stages 0 and 2. -/
def kernel0 (f : Region → Region) : State := { State.reset with
  arg := .num 0
  kern := [f { region0 with streams := [some (rateStream 0), none, some (rateStream 2), none, none, none, none, none] }] }

/-- A load, and a load without a stream (R286). -/
theorem witness_KernelsLoad :
    let s := kernel0 fun r => { r with state := .loading }
    let n := kernel0 fun r => { r with state := .loading, streams := [] }
    (∀ x ∈ [s, n], ((regionOf x).state == .loading && !x.boostInWay (regionOf x) && x.region 0 == some (regionOf x)) = true) ∧
    isFatal (s.ctx 0) .spillFull = false ∧ isFatal (s.ctx 0) .tileAlloc = false ∧
    (match loadStream 0 [] (rateStream 0) with | .inl p => p.1 == [(elAddr 0 4 1 0, 0, 1)] | .inr _ => false) = true ∧
    thenNext (exec .kernelLoad s) (fun t => (t.region 0).map (·.config) == some [(elAddr 0 4 1 0, 0, 1)]) = true ∧
    ((regionOf n).streams.headD none).isNone = true ∧
    thenNext (exec .kernelLoad n) (fun t => (t.region 0).map (·.state) == some .killed) = true := by
  decide +kernel

/-- Kernels that no die can hold: stage 0's flow has no balance, and stage 2's; and a stage that binds a matrix island with a
slot in use, which is held (R229, R286, R296). -/
theorem witness_KernelsLoad_held :
    let with2 (a b : List (BitVec 32)) := kernel0 fun r => { r with
      state := .loading, streams := [some a, none, some b, none, none, none, none, none] }
    let m := with2 (loopStage 0) []
    let l := with2 (rateStream 0) (loopStage 2)
    let el := elAddr 0 1 0 0
    let bound := streamOf 0 [(el, 0, 1), (el, 1, 8 + 8 * 32), (el, 2, 32), (rateEl, 0, 1)]
    let h := (with2 bound []).setSlot ⟨0, 0, 0⟩ 1 ⟨.stream, [], 0⟩
    (∀ s ∈ [m, l, h], (regionOf s).state = .loading ∧ s.region 0 = some (regionOf s) ∧ s.boostInWay (regionOf s) = false) ∧
    ({ regionOf m with config := cfgOf 0 (loopStage 0) } : Region).misfit ≠ none ∧
    ({ regionOf l with config := cfgOf 0 (rateStream 0) } : Region).misfit = none ∧
    (regionOf l).laterMisfit (cfgOf 0 (rateStream 0)) ≠ none ∧
    (regionOf h).laterMisfit (cfgOf 0 bound) = none ∧ h.stageHeld (regionOf h) [] (cfgOf 0 bound) = true ∧
    (∀ s ∈ [m, l], thenNext (exec .kernelLoad s) (fun t => (t.region 0).map (·.state) == some .killed) = true) ∧
    thenNext (exec .kernelLoad h) (fun t => (t.region 0).map (·.state) == some .loading) = true := by
  decide +kernel

/-- A request with and without a pending switch (R289). -/
theorem witness_StageRequest :
    let q := kernel0 fun r => { r with asks := [2] }
    let p := kernel0 fun r => { r with asks := [2], pend := true, target := 1 }
    let t := kernel0 fun r => { r with asks := [2], pend := true, target := 1, pendAt := (0, 9) }
    thenNext (exec .stageRequest t) (fun u => (u.region 0).map (fun r => (r.pend, r.target)) == some (true, 2)) = true ∧
    (∀ s ∈ [q, p, t], s.region 0 = some (regionOf s) ∧ (regionOf s).asks = [2]) ∧
    thenNext (exec .stageRequest q) (fun t => (t.region 0).map (fun r => (r.pend, r.target)) == some (true, 2)) = true ∧
    thenNext (exec .stageRequest p) (fun t => (t.region 0).map (fun r => (r.pend, r.target)) == some (true, 1)) = true := by
  decide +kernel

/-- A switch to a stage that the region cannot hold leaves it FROZEN at the old one (R287, R296). -/
theorem witness_KernelsSwitch_refused :
    let c : Cfg := [(elAddr 0 4 1 0, 0, 1)]
    let w := kernel0 fun r => { r with
      config := c, pend := true, target := 2, streams := [some (rateStream 0), none, some (loopStage 2), none, none, none, none, none] }
    let n := cfgOf 2 (loopStage 2)
    w.region 0 = some (regionOf w) ∧ (regionOf w).coming.map (·.1) = some n ∧ (w.die 0).boundary = true ∧
    w.drained (regionOf w) n = true ∧ ({ regionOf w with config := n } : Region).misfit ≠ none ∧
    thenNext (exec .stageSwitchApply w) (fun t => (t.region 0).map (fun r => (r.state, r.cur)) == some (.frozen, 0)) = true := by
  decide +kernel

/-- A switch whose drain conditions hold, a kernel that retires, a solution that comes into force, a window's end (R287,
R290, R286, R304, R307). -/
theorem witness_KernelsSwitchAndRetire :
    let c : Cfg := [(elAddr 0 4 1 0, 0, 1)]
    let w := kernel0 fun r => { r with config := c, pend := true, target := 2 }
    let d := kernel0 fun r => { r with config := c, state := .draining }
    let l := kernel0 fun r => { r with config := c, solution := some { (default : Solution) with rate := 5, targets := [(3, 8)] } }
    let e : State := { kernel0 (fun r => { r with config := c }) with tick := 65536 }
    (∀ s ∈ [w, d, l, e], s.region 0 = some (regionOf s)) ∧
    ((regionOf w).coming.map (·.1)) = some c ∧ (w.die 0).boundary = true ∧ w.drained (regionOf w) c = true ∧
    (∀ x ∈ [FaultCode.spillFull, .tileAlloc, .engine], isFatal (w.ctx 0) x = false) ∧
    thenNext (exec .stageSwitchApply w) (fun t => (t.region 0).map (fun r => (r.cur, r.switches)) == some (2, 1)) = true ∧
    d.allFinished (regionOf d) = true ∧ d.jobsOver 0 = true ∧ d.mem.pubs = [] ∧
    thenNext (exec .kernelRetire d) (fun t => (t.region 0).map (·.state) == some .retired) = true ∧
    ((regionOf l).solution.map (·.rate)) = some 5 ∧
    thenNext (exec .lehrSolutionComplete l) (fun t => (t.region 0).map (fun r => (r.rate, r.solves)) == some (5, 1)) = true ∧
    (regionOf e).state.live = true ∧ (regionOf e).winAt + 65536 ≤ e.tick ∧
    thenNext (exec .lehrResolveWindow e) (fun t => (t.region 0).map (·.winAt) == some 65536) = true := by
  decide +kernel

/-! ### Clocks and limits -/

/-- A state with one island as given and an event at it. -/
def isl0 (i : Island) (tick : Nat := 0) : State := { State.reset with
  arg := .island i.key, tick := tick, clk := { State.reset.clk with islands := [i] } }

/-- One whose first slot a stream node holds. -/
def isl1 (i : Island) : State := (isl0 i).setSlot ⟨0, 0, 0⟩ 0 ⟨.stream, [], 0⟩

/-- A matrix island of die 0. -/
def plain : Island := ⟨matKey ⟨0, 0, 0⟩, 0, 0, 0, none, false, none, some 0, 64, false, false⟩

/-- A fraction applied upwards and one that must wait; idleness; gating; waking; the end of a ratio switch (R302, R306, R307,
R410). -/
theorem witness_ClocksAndLimitsMove_islands :
    let k := plain.key
    let a := isl1 { plain with target := 8, ratio := 3 }
    let w := isl1 { plain with target := 8, ratio := 3, gated := true }
    let i := isl0 { plain with m := 8, target := 8, ratio := 3 }
    let g := isl0 plain 1200000
    let u := isl0 { plain with target := 8, gated := true, waking := some 5 } 5
    let e := isl0 { plain with switch := some (5, 2) } 5
    (∀ s ∈ [a, w, i], (s.die 0).boundary = true) ∧ a.wantM k ≠ 0 ∧ w.wantM k ≠ 0 ∧
    (ratioFor (a.wantM k)).toNat ≤ 3 ∧ a.riseTurn k = true ∧ (w.island k).gated = true ∧ (w.island k).waking = none ∧
    (i.island k).m ≠ 0 ∧ i.busyNodes k = false ∧ i.otherWork k = false ∧
    (g.island k).idleAt = some 0 ∧ (g.island k).m = 0 ∧ (g.island k).gated = false ∧ (g.island k).waking = none ∧
    g.holdsState k = false ∧ (u.island k).waking = some 5 ∧ (e.island k).switch = some (5, 2) ∧
    thenNext (exec .islandMApply a) (fun t => (t.island k).m == a.wantM k) = true ∧
    thenNext (exec .islandMApply w) (fun t => (t.island k).waking == some 2400) = true ∧
    thenNext (exec .islandIdle i) (fun t => (t.island k).m == 0) = true ∧
    thenNext (exec .islandPowerGate g) (fun t => (t.island k).gated) = true ∧
    thenNext (exec .islandWake u) (fun t => !(t.island k).gated) = true ∧
    thenNext (exec .ratioSwitchEnd e) (fun t => (t.island k).ratio == 2) = true := by decide +kernel

/-- A boost that is wanted, a refresh window, a sample, a control window, the first and the last failed transfer of a beat,
the bank group at its ends (R167, R408, R412, R413, R418, R419). -/
theorem witness_ClocksAndLimitsMove_dies :
    let b : State := { State.reset with
      arg := .die 0, clk := { State.reset.clk with dies := State.reset.clk.dies.set 0 { Die.reset with want := true } } }
    let f : State := { State.reset with arg := .bank 0 (State.reset.die 0).wsBg, tick := 146 }
    let m : State := { State.reset with arg := .readings 0 [0x7f00], tick := 4096 }
    let w : State := { State.reset with
      tick := 65536, clk := { State.reset.clk with dies := State.reset.clk.dies.map fun (d : Die) => { d with sampled := 65537 } } }
    let t (off : BitVec 34) (n : Fin 6) : State := { State.reset with arg := .beat 0 off n 0 }
    (b.die 0).boundary = true ∧ (b.die 0).want ≠ (b.die 0).boost ∧ (f.die 0).wsTick ≤ f.tick ∧
    m.tick % 4096 = 0 ∧ (m.die 0).sampled ≠ m.tick + 1 ∧ smOk 0 none m.clk.sensors = true ∧ dieSensors 0 ≠ [] ∧
    w.tick % 65536 = 0 ∧ w.clk.winAt ≠ w.tick ∧ (∀ d : Fin 4, (w.die d).sampled = w.tick + 1) ∧
    thenNext (exec .boostChange b) (fun u => (u.die 0).boost) = true ∧
    thenNext (exec .wsRefreshWindowStart f) (fun u => (u.die 0).wsTick == 292) = true ∧
    thenNext (exec .sensorSample m) (fun u => u.sensor ((dieSensors 0).getD 0 0) == 0x7f00) = true ∧
    thenNext (exec .controlWindow w) (fun u => u.clk.winAt == 65536) = true ∧
    thenNext (exec .busBeatRetry (t 0 1)) (fun u => u.hub.errors.length == 1 && (u.die 0).fenced == []) = true ∧
    thenNext (exec .busBeatRetry (t 0x2ffffffff 5)) (fun u => (u.die 0).fenced == [31]) = true := by decide +kernel

/-! ### Queues, slices, watchdogs, host tables, vectors -/

/-- An open context 0 and a queue of four records with one to take. -/
def ctx0 : Ctx := ⟨0, .open_, 0, 0, 4, 0, false, false, false, 0, 0, 0, 16, 4, 0, 0, 0, 0, 0, false⟩
@[inherit_doc ctx0] def queue0 : Queue := ⟨3, 0, 2, 5, 0, 0, true, true, 0, 1, 1, 2, 3, 0, false, false⟩

/-- The memory that holds bytes from an address on. -/
def bytesFrom (a : Nat) (bs : List Byte) : SMap 8 := (smOfList 0 bs).map fun p => (a + p.1, p.2)

/-- A record of a kind with one stage. -/
def recd0 (kind : Nat) : List Byte := recOf 128 [(0, 2, kind), (8, 8, 0x800), (16, 8, 0x1000)]

/-- A record of a kind at address 0, with its one stage's words, in the page that is mapped. -/
def queueSt (kind : Nat) (ws : List (BitVec 32)) (c : Ctx := ctx0) (q : Queue := queue0) : State :=
  let s := mapped { State.reset with
    arg := .queue 3, hub := { State.reset.hub with ctxs := [c], queues := [q] } }
  let cells := bytesFrom 0 (recd0 kind) ++ bytesFrom 0x800 (recOf 16 [(0, 8, 0x900), (8, 4, ws.length)]) ++
    bytesFrom 0x900 (ws.flatMap fun w => leBytes 4 w.toNat) ++ s.mem.cells
  { s with mem := { s.mem with cells := cells } }

/-- A kernel of one converter node, which takes 4095 cycles, at a rate. -/
def convStream (rate : Nat) : List (BitVec 32) :=
  let el := elAddr 0 2 0 0x40
  streamOf 0 [(el, 0, 1), (el, 1, 3), (el, 47, 4095), (el, 48, 0x101), (el, 50, 0x181),
    (elAddr 0 4 1 0, 0, 1), (elAddr 0 4 1 0, 1, 64 * el + 2), (elAddr 0 4 1 0, 2, rate)]

/-- TAIL at its limit and past it; ENABLE and DISABLE; HEAD (R323, R324). -/
theorem witness_QueuesAndWatchdogsAct_pointers :
    let s (q : Queue) (v : BitVec 32) : State := { State.reset with
      arg := .queueVal 3 v, hub := { State.reset.hub with ctxs := [ctx0], queues := [q] } }
    let e (q : Queue) : State := { s q 0 with arg := .queue 3 }
    let off := { queue0 with enable := false }
    (s queue0 4).queue 3 = some queue0 ∧ (s off 4).queue 3 = some off ∧
    thenNext (exec .queueTailWrite (s queue0 4)) (fun t => (t.queue 3).map (·.faulted) == some false) = true ∧
    thenNext (exec .queueTailWrite (s queue0 5)) (fun t => (t.queue 3).map (·.faulted) == some true) = true ∧
    thenNext (exec .queueHeadWrite (s off 4)) (fun t => (t.queue 3).map (·.head) == some 4) = true ∧
    ((e off).hub.queues.filter fun k => k.ctx == off.ctx && k.enable).length < ((e off).ctx off.ctx).maxq ∧
    thenNext (exec .queueEnable (e off)) (fun t => (t.queue 3).map (·.enable) == some true) = true := by decide +kernel

/-- A state with `queue0` alone, whose head record stands at address 0 as given. -/
def oneHead (s : State) (r : List Byte) : Bool :=
  s.hub.queues == [queue0] && s.hub.launches.isEmpty && s.hub.pending.isEmpty && s.kern.isEmpty && paged s
    && (List.range 128).map (s.mem.newest .outside) == r

/-- What the statements ask of such a state. -/
theorem onlyHead_mapped (s : State) (r : List Byte) (h : oneHead s r = true) :
    onlyHead s 3 queue0 ∧ s.headRecord queue0 = r := by
  simp only [oneHead, Bool.and_eq_true, beq_iff_eq, List.isEmpty_iff] at h
  obtain ⟨⟨⟨⟨⟨hq, hl⟩, hp⟩, hk⟩, hu⟩, hr⟩ := h
  have h1 := hubRead_mapped s hu 0 128 (by omega)
  simp only [Nat.zero_add] at h1
  have h2 := hubHeld_mapped s hu 0 128 (by omega)
  refine ⟨⟨by simp [State.queue, hq, queue0], ?_, hl⟩, by rw [← hr, ← h1]; rfl⟩
  have h3 : s.hubHeld queue0.ctx (queue0.base.toNat + 128 * (queue0.head.toNat % 2 ^ queue0.size)) 128 1 = false := h2
  have h4 : s.queueQuiet queue0.num s.hub.nextLaunch = true := by simp [State.queueQuiet, hl]
  simp only [State.waiters, hk, hq, hp, List.filterMap_nil, List.filterMap_cons, List.any_nil, h3, h4, Bool.not_true,
    Bool.and_false, Bool.or_false]
  rfl

/-- A record refused, for a KIND that none has, and a marker (R325, R326). -/
theorem witness_QueuesAndWatchdogsAct_records :
    let r := queueSt 0x300 []
    let m := queueSt 0x201 []
    oneHead r (recd0 0x300) = true ∧ r.checkHeld 0 (recd0 0x300) = false ∧ r.checkRecord 0 (recd0 0x300) = .refused 0 ∧
    oneHead m (recd0 0x201) = true ∧ m.checkHeld 0 (recd0 0x201) = false ∧ m.checkRecord 0 (recd0 0x201) = .marker := by
  decide +kernel

/-- The bytes that the hub finds in the page that is mapped. -/
def seen (s : State) (a n : Nat) : List Byte := (List.range n).map fun i => s.mem.newest .outside (a + i)

/-- Sixteen null handles, as the hub reads them there (R326). -/
theorem readHandles_mapped (s : State) (hu : paged s = true) (a : Nat) (ha : a + 512 ≤ 65536)
    (h : seen s a 512 = List.replicate 512 0) : s.readHandles 0 a = some (Vector.replicate 16 Handle.none) := by
  have hz : ∀ k < 16, s.hubRead 0 (a + 32 * k) 32 = List.replicate 32 0 := by
    intro k hk
    rw [hubRead_mapped s hu _ _ (by omega)]
    refine List.eq_replicate_iff.2 ⟨by simp, fun b hb => ?_⟩
    obtain ⟨i, hi, rfl⟩ := List.mem_map.1 hb
    have := List.mem_range.1 hi
    refine (List.eq_replicate_iff.1 h).2 _ (List.mem_map.2 ⟨32 * k + i, List.mem_range.2 (by omega), ?_⟩)
    rw [Nat.add_assoc]
  have hl : (List.range 16).map (fun k => handleOf (s.hubRead 0 (a + 32 * k) 32)) = List.replicate 16 (some Handle.none) := by
    refine List.eq_replicate_iff.2 ⟨by simp, fun b hb => ?_⟩
    obtain ⟨k, hk, rfl⟩ := List.mem_map.1 hb
    rw [hz k (List.mem_range.1 hk)]
    decide
  unfold State.readHandles
  rw [hl]
  decide

/-- A table of one stage of listed words: what it says of each stage, and the words that its bytes make (R276, R325). -/
def tableOf (a n : Nat) : List Byte := recOf 128 [(0, 8, a), (8, 4, n)]
@[inherit_doc tableOf] def tableOk (a : Nat) (ws : List (BitVec 32)) : Bool :=
  let e (k : Nat) := ((tableOf a ws.length).drop (16 * k)).take 16
  ((List.range 8).all fun k => fieldN (e k) 12 4 == 0 && fieldN (e k) 8 4 == if k = 0 then ws.length else 0) && fieldN (e 0) 0 8 == a
    && (List.range ws.length).map (fun j => BitVec.ofNat 32 (fieldN (ws.flatMap fun w => leBytes 4 w.toNat) (4 * j) 4)) == ws

/-- Such a table with its words, as the hub reads them in the page that is mapped; no page holds it (R326, R358). -/
theorem stages_mapped (s : State) (hu : paged s = true) (at_ a : Nat) (ws : List (BitVec 32)) (ha : at_ + 128 ≤ 65536)
    (hb : a + 4 * ws.length ≤ 65536) (hn : ws ≠ []) (h1 : seen s at_ 128 = tableOf a ws.length)
    (h2 : seen s a (4 * ws.length) = ws.flatMap fun w => leBytes 4 w.toNat) (t : tableOk a ws = true) :
    s.readStreams 0 at_ = some (some ws :: List.replicate 7 none) ∧
    ∀ k < 8, let e := s.hubRead 0 (at_ + 16 * k) 16
      s.hubHeld 0 (fieldN e 0 8) (4 * fieldN e 8 4) 1 = false := by
  have he : ∀ k < 8, s.hubRead 0 (at_ + 16 * k) 16 = ((tableOf a ws.length).drop (16 * k)).take 16 := by
    intro k hk
    rw [hubRead_mapped s hu _ _ (by omega), ← h1]
    refine List.ext_getElem (by simp [seen]; omega) fun i _ _ => ?_
    simp [seen, Nat.add_assoc]
  simp only [tableOk, Bool.and_eq_true, beq_iff_eq, List.all_eq_true, List.mem_range] at t
  obtain ⟨⟨t1, t2⟩, t3⟩ := t
  have hl : 0 < ws.length := List.length_pos_iff.2 hn
  have first : fieldN (s.hubRead 0 (at_ + 16 * 0) 16) 0 8 = a := by rw [he 0 (by omega)]; exact t2
  constructor
  · have hb2 : s.hubRead 0 a (4 * ws.length) = ws.flatMap fun w => leBytes 4 w.toNat := by
      rw [hubRead_mapped s hu _ _ hb]; exact h2
    have hs : (List.range 8).map (fun k =>
        let e := s.hubRead 0 (at_ + 16 * k) 16
        let n := fieldN e 8 4
        if fieldN e 12 4 ≠ 0 ∨ 2 ^ 20 < n then none
        else if n = 0 then some none
        else
          let bs := s.hubRead 0 (fieldN e 0 8) (4 * n)
          some (some ((List.range n).map fun j => BitVec.ofNat 32 (fieldN bs (4 * j) 4)))) = some (some ws) :: List.replicate 7 (some none) := by
      have h0 : ∀ k < 8, k ≠ 0 → fieldN (s.hubRead 0 (at_ + 16 * k) 16) 8 4 = 0 ∧ fieldN (s.hubRead 0 (at_ + 16 * k) 16) 12 4 = 0 := by
        intro k hk h; rw [he k hk]; have := t1 k hk; simp only [h, if_false] at this; exact ⟨this.2, this.1⟩
      have hk0 := t1 0 (by omega)
      rw [← he 0 (by omega)] at hk0
      simp only [if_true] at hk0
      refine List.ext_getElem (by simp) fun k g1 g2 => ?_
      simp only [List.length_map, List.length_range] at g1
      rcases Nat.eq_zero_or_pos k with rfl | hp
      · simp only [List.getElem_map, List.getElem_range, hk0.1, hk0.2, first, hb2, t3]
        rw [if_neg (by omega), if_neg (by omega)]
        rfl
      · obtain ⟨z1, z2⟩ := h0 k g1 (by omega)
        simp only [List.getElem_map, List.getElem_range, z1, z2]
        rw [List.getElem_cons, dif_neg (by omega), List.getElem_replicate]
        rfl
    unfold State.readStreams
    simp only [hs]
    rfl
  · intro k hk
    have := t1 k hk
    rw [← he k hk] at this
    show s.hubHeld 0 (fieldN (s.hubRead 0 (at_ + 16 * k) 16) 0 8) (4 * fieldN (s.hubRead 0 (at_ + 16 * k) 16) 8 4) 1 = false
    rw [this.2]
    by_cases h : k = 0
    · subst h
      rw [first, if_pos rfl]
      exact hubHeld_mapped s hu _ _ hb
    · rw [if_neg h]
      rfl

/-- A state with `queue0` alone, whose head is a kernel of one stage of listed words, a stage and a kernel that pass. -/
def goodKernel (s : State) (ws : List (BitVec 32)) : Bool :=
  let ss := some ws :: List.replicate 7 none
  oneHead s (recd0 0x200) && (s.ctx 0).state == .open_ && !ws.isEmpty && decide (ws.length < 1000)
    && seen s 0x1000 512 == List.replicate 512 0 && seen s 0x800 128 == tableOf 0x900 ws.length
    && seen s 0x900 (4 * ws.length) == ws.flatMap (fun w => leBytes 4 w.toNat) && tableOk 0x900 ws && checkStreams ss == none
    && !stacksBad (recd0 0x200) ss && extentsOk (kernelNodes ss) (stageCfgs ss) (levelsOf (recd0 0x200))

/-- What the statements ask of such a state (R326). -/
theorem goodKernel_mapped (s : State) (ws : List (BitVec 32)) (h : goodKernel s ws = true) :
    onlyHead s 3 queue0 ∧ s.headRecord queue0 = recd0 0x200 ∧ s.checkHeld 0 (recd0 0x200) = false ∧
    s.checkRecord 0 (recd0 0x200) = .kernel (some ws :: List.replicate 7 none) (Vector.replicate 16 Handle.none) ∧
    s.copiesOf 0 (recd0 0x200) = 1 := by
  simp only [goodKernel, Bool.and_eq_true, beq_iff_eq, Bool.not_eq_true', decide_eq_true_eq, List.isEmpty_eq_false_iff] at h
  obtain ⟨⟨⟨⟨⟨⟨⟨⟨⟨⟨h1, h2⟩, h3⟩, h4⟩, h5⟩, h6⟩, h7⟩, h8⟩, h9⟩, h10⟩, h11⟩ := h
  have ho := onlyHead_mapped s _ h1
  have hu : paged s = true := by
    simp only [oneHead, Bool.and_eq_true] at h1
    exact h1.1.2
  obtain ⟨s1, s2⟩ := stages_mapped s hu 0x800 0x900 ws (by omega) (by omega) h3 h6 h7 h8
  have f1 : fieldN (recd0 0x200) 8 8 = 0x800 := by decide
  have f2 : fieldN (recd0 0x200) 16 8 = 0x1000 := by decide
  have f3 : fieldN (recd0 0x200) 72 8 = 0 := by decide
  have f4 : fieldN (recd0 0x200) 80 4 = 0 := by decide
  have f5 : fieldN (recd0 0x200) 0 2 = 0x200 := by decide
  refine ⟨ho.1, ho.2, ?_, ?_, ?_⟩
  · have g : ((List.range 8).any fun k =>
        let e := s.hubRead 0 (0x800 + 16 * k) 16
        decide (fieldN e 8 4 ≤ 2 ^ 20) && s.hubHeld 0 (fieldN e 0 8) (4 * fieldN e 8 4) 1) = false := by
      rw [List.any_eq_false]
      intro k hk
      have := s2 k (List.mem_range.1 hk)
      simp only [this, Bool.and_false]
      simp
    simp only [State.checkHeld, f1, f2, f3, f4, hubHeld_mapped s hu 0x1000 512 (by omega), hubHeld_mapped s hu 0x800 128 (by omega),
      hubHeld_mapped s hu 0 (4 * 0) (by omega), g]
    simp
  · have r : recordReserved (recd0 0x200) = false := by decide
    have l : levelsBad (recd0 0x200) = false := by decide
    have d : s.readDevs 0 (recd0 0x200) = [] := by rw [State.readDevs, f4]; rfl
    simp only [State.checkRecord, h2, r, f5, l, d, f1, f2, s1, readHandles_mapped s hu 0x1000 (by omega) h5, h9, h10, h11]
    rfl
  · have l1 : ((levelsOf (recd0 0x200)).any fun v => v.dom == 1) = false := by decide
    have l2 : ((levelsOf (recd0 0x200)).find? fun v => v.dom == 2).map (·.ext) = some 1 := by decide
    simp only [State.copiesOf, l1, l2]
    rfl

/-- Whether a die may hold the kernel of such a state. -/
def fitsAt (s : State) (ws : List (BitVec 32)) (d : Fin 4) : Bool :=
  s.feasible ⟨s.hub.nextLaunch, some 3, 0, none, recd0 0x200, 0, 5, true, false⟩ (some ws :: List.replicate 7 none)
    (Vector.replicate 16 Handle.none) d

/-- A kernel that fits, and one at a rate that no die reaches (R326, R328). -/
theorem witness_QueuesAndWatchdogsAct_kernel :
    goodKernel (queueSt 0x200 (convStream 16)) (convStream 16) = true ∧
    fitsAt (queueSt 0x200 (convStream 16)) (convStream 16) 0 = true := by decide +kernel

@[inherit_doc witness_QueuesAndWatchdogsAct_kernel] theorem witness_QueuesAndWatchdogsAct_infeasible :
    goodKernel (queueSt 0x200 (convStream (2 ^ 36))) (convStream (2 ^ 36)) = true ∧
    ∀ d, fitsAt (queueSt 0x200 (convStream (2 ^ 36))) (convStream (2 ^ 36)) d = false := by decide +kernel

/-- A slice that ends with no record waiting, and with one; the watchdog's three steps (R327 to R332). -/
theorem witness_QueuesAndWatchdogsAct_slices :
    let r : Region := { region0 with queue := some 3, slice := 2 ^ 40, dog := 2 ^ 40 }
    let w (q : Queue) (r : Region) : State := { queueSt 0x201 [] ctx0 q with arg := .num 0, kern := [r] }
    let a := w { queue0 with enable := false } r
    let b := w queue0 r
    let c := w queue0 { r with state := .killed }
    a.region 0 = some r ∧ r.state.live = true ∧ r.quant ≤ r.slice ∧
    (a.modRegion 0 fun k => { k with slice := 0 }).waiters = [] ∧
    ((b.modRegion 0 fun k => { k with slice := 0 }).waiters).map (·.prio) = [5] ∧ r.prio ≤ 5 ∧ r.leaving = false ∧ r.idem = false ∧
    (b.dogSteps r).isSome = true ∧ (b.dogSteps r).elim false (fun t => decide (t.1 ≤ r.dog ∧ t.2.1 ≤ r.dog ∧ t.2.2 ≤ r.dog)) = true ∧
    r.state.onChip = true ∧ r.dogAsked = false ∧
    thenNext (exec .quantExpiry b) (fun t => (t.region 0).map (·.saving) == some true) = true ∧
    thenNext (exec .watchdogSaveRequest b) (fun t => (t.region 0).map (·.dogSave) == some true) = true ∧
    thenNext (exec .watchdogKill b) (fun t => (t.region 0).map (·.state) == some .killed) = true ∧
    thenNext (exec .watchdogFence c) (fun t => t.region 0 == c.region 0) = true := by decide +kernel

/-- The host's tables, and a vector whose oldest event is TIME old (R323, R337, R340). -/
theorem witness_QueuesAndWatchdogsAct_tables :
    let s (x : TableWrite) : State := { State.reset with arg := .table x }
    let v : IntVec := { (default : IntVec) with part := 1, num := 2, time := 3, pend := 4, oldest := 5, en := true }
    let t : State := up { State.reset with arg := .vector 1 2, tick := 3605, hub := { State.reset.hub with vectors := [v] } }
    ((s (.ctxDesc 7 [])).ctx 7).state = .closed ∧ ((s (.vector 1 2 1)).vector 1 2).pend = 0 ∧
    thenNext (exec .hostTableWrite (s (.queueDesc 3 (recOf 64 [(9, 1, 47)])))) (fun u => (u.queue 3).map (·.prio) == some 47) = true ∧
    thenNext (exec .hostTableWrite (s (.fqHead 7 9))) (fun u => (u.ctx 7).fqhead == 9) = true ∧
    t.vector 1 2 = v ∧ v.oldest + v.time.toNat * 1200 ≤ t.tick ∧
    thenNext (exec .interruptTimeExpiry t) (fun u => (u.vector 1 2).pend == 0 && u.hub.outbox.length == 1) = true := by
  decide +kernel

/-! ### Contexts, partitions, saves -/

/-- A state in which context 0 stands as given, its page mapped, with regions. -/
def ctxSt (c : Ctx) (rs : List Region) (a : EvArg := .ctx 0) : State :=
  mapped { State.reset with arg := a, kern := rs, hub := { State.reset.hub with ctxs := [c] } }

/-- A context that opens, one that may not, one that closes, one whose teardown is done, and a fault record that waited (R337,
R338, R341, R343). -/
theorem witness_ContextsAndRegionsMove_contexts :
    let shut : Ctx := { ctx0 with state := .closed }
    let o : State := let s := ctxSt shut []
      { s with hub := { s.hub with boot := { s.hub.boot with status := 3, life := .deployed } } }
    let n := ctxSt shut []
    let c := ctxSt ctx0 [region0]
    let d := ctxSt { ctx0 with state := .teardown } [{ region0 with state := .killed }]
    let w : FaultWait := ⟨0, 0, List.replicate 64 7⟩
    let f : State := { ctxSt ctx0 [{ region0 with waiting := [w] }] with tick := 1 }
    let e : State := { f with tick := 0 }
    (o.ctx 0).state = .closed ∧ shut.bad = false ∧ o.hub.boot.status = 3 ∧ o.hub.boot.life = .deployed ∧
    n.hub.boot.status ≠ 3 ∧ (c.ctx 0).state = .open_ ∧ (c.kern.map (·.rid)).Nodup ∧
    (d.ctx 0).state = .teardown ∧ d.hub.xsts = [] ∧ d.mem.pubs = [] ∧ (d.kern.map (·.state)) = [.killed] ∧
    d.mem.wf = true ∧ f.nextFault 0 = some (some 0, w) ∧ e.nextFault 0 = some (some 0, w) ∧
    f.region 0 = some { region0 with waiting := [w] } ∧ w.recd.length = 64 ∧ f.mem.wf = true ∧
    ((f.ctx 0).fqtail - (f.ctx 0).fqhead).toNat ≠ 2 ^ (f.ctx 0).fqsize ∧
    (f.ctx 0).fqbase.toNat + 64 * ((f.ctx 0).fqtail.toNat % 2 ^ (f.ctx 0).fqsize) = 0 ∧
    (∀ k ∈ [0, 63], f.hubHome 0 k 2 = some (id k)) ∧
    thenNext (exec .contextOpen o) (fun t => (t.ctx 0).state == .open_) = true ∧
    thenNext (exec .contextClose c) (fun t => (t.ctx 0).state == .teardown && t.kern.map (·.state) == [.killed]) = true ∧
    thenNext (exec .faultRecordWrite f) (fun t => smGet 0 t.mem.cells 63 == 7) = true := by decide +kernel

/-- A write of the hub into the page that is mapped, and one in a context with no pages (R343). -/
theorem witness_HubWrites :
    let s := mapped State.reset
    s.mem.wf = true ∧ (∀ k < 2, s.hubHome 0 (0 + k) 2 = some (id k)) ∧ s.hubHome 1 0 2 = none ∧
    (s.hubWrite 0 0 [7, 8]).elim false (fun t => smGet 0 t.mem.cells 1 == 8) = true ∧ (s.hubWrite 1 0 [7, 8]).isNone = true := by
  decide +kernel

/-- A partition reset of a partition with a queue and an open context, and of another partition (R341). -/
theorem witness_ContextsAndRegionsMove_partition :
    let s (p : BitVec 5) : State := let s := ctxSt ctx0 [region0] (.part p)
      { s with hub := { s.hub with queues := [queue0] } }
    ((s 0).kern.map (·.rid)).Nodup ∧ (s 0).queue 3 = some queue0 ∧ queue0.part = 0 ∧ ((s 0).ctx 0).state = .open_ ∧
    thenNext (exec .partitionReset (s 0)) (fun t => (t.queue 3).map (·.head) == some 1 && (t.ctx 0).state == .teardown) = true ∧
    thenNext (exec .partitionReset (s 1)) (fun t => t.queue 3 == some queue0) = true := by decide +kernel

/-- A frozen region resumed, a region killed, a save requested, and one requested by the page service (R344, R345, R348). -/
theorem witness_ContextsAndRegionsMove_regions :
    let f : Region := { region0 with state := .frozen, before := .filling }
    let v : Region := { region0 with service := some 0 }
    let s (r : Region) : State := { ctxSt ctx0 [r] (.num 0) with tick := 600000 }
    (∀ r ∈ [f, region0, v], ((s r).region 0 == some r) = true) ∧ f.waiting = [] ∧ cfgKind f.config .gang = [] ∧
    region0.state.onChip = true ∧ region0.saving = false ∧ v.state.live = true ∧ ((s v).ctx 0).fsave = 0 ∧
    0 + 500 * 1200 ≤ (s v).tick ∧
    thenNext (exec .regionResume (s f)) (fun t => (t.region 0).elim false fun r => r.state.live) = true ∧
    thenNext (exec .regionKill (s region0)) (fun t => (t.region 0).map (·.state) == some .killed) = true ∧
    (let b : State := { s region0 with x := { base.x with rid := 0 } }
     (b.x.active = true ∧ b.x.rid = 0 ∧ b.region 0 = some region0) ∧
     thenNext (exec .regionKill b) (fun t => (t.region 0).map (·.dying) == some (some (some 0x42))) = true) ∧
    (∀ x ∈ (s region0).x :: (s region0).fab.flights, x.active = false) ∧
    thenNext (exec .pageServiceSave (s v)) (fun t => (t.region 0).map (·.saving) == some true) = true := by decide +kernel

/-- The hub can write in the page that is mapped. -/
theorem hubWrite_mapped (s : State) (hu : paged s = true) (va : Nat) (bs : List Byte) (h : va + bs.length ≤ 65536) :
    ∃ t, s.hubWrite 0 va bs = some t := by
  have : ((List.range bs.length).map fun i => s.hubHome 0 (va + i) 2).any (·.isNone) = false := by
    simp only [List.any_eq_false, List.mem_map, List.mem_range]
    rintro _ ⟨i, hi, rfl⟩
    simp only [State.hubHome, xlat_page_mapped s hu (va + i) 2 (by omega) (.inr rfl), Option.isNone_some]
    simp
  simp only [State.hubWrite, this]
  exact ⟨_, rfl⟩

/-- A save that is complete: its pool has one page (R345, R346). -/
theorem witness_ContextsAndRegionsMove_save :
    let r : Region := { region0 with saving := true }
    let s := ctxSt { ctx0 with carea := 8192, casize := 4096 } [r] (.num 0)
    s.region 0 = some r ∧ r.state.onChip = true ∧ s.saveReady r = true ∧
    s.areaPlace r.ctx (4096 + (s.areaSections r).length) = some 8192 ∧ s.hubWrite r.ctx (8192 + 4096) (s.areaSections r) = some s ∧
    ∃ t, s.hubWrite r.ctx 8192 (s.areaHeader r) = some t := by
  have hz : (ctxSt { ctx0 with carea := 8192, casize := 4096 } [{ region0 with saving := true }] (.num 0)).areaSections
      { region0 with saving := true } = [] := by
    unfold State.areaSections
    rw [show ((ctxSt { ctx0 with carea := 8192, casize := 4096 } [{ region0 with saving := true }] (.num 0)).areaLayout
      { region0 with saving := true }).2 = 4096 by decide +kernel]
    rfl
  refine ⟨by decide +kernel, rfl, by decide +kernel, ?_, ?_, hubWrite_mapped _ (by decide +kernel) _ _ (by decide +kernel)⟩
  · have hc : (ctxSt { ctx0 with carea := 8192, casize := 4096 } [{ region0 with saving := true }] (.num 0)).ctx 0
        = { ctx0 with num := 0, ptroot := 0x200000, carea := 8192, casize := 4096 } := rfl
    have ht : ((ctxSt { ctx0 with carea := 8192, casize := 4096 } [{ region0 with saving := true }] (.num 0)).kern.filterMap
        fun r => if r.ctx == 0 then r.area.map fun a => (a.at_, a.image.length) else none) = [] := rfl
    rw [hz]
    show State.areaPlace _ 0 4096 = _
    simp only [State.areaPlace, hc, ht]
    simp [ctx0, Nat.mod_one]
  · rw [hz]
    rfl

/-- A save that may not complete yet, for a publication of the region in flight (R345). -/
theorem witness_ContextsAndRegionsMove_waits :
    let r : Region := { region0 with saving := true }
    let s := ctxSt ctx0 [r] (.num 0)
    let w : State := { s with mem := { s.mem with pubs := [⟨4, ⟨seq0, 0⟩, 0, 0, 2, [(9, 7)], 0, false⟩] } }
    w.region 0 = some r ∧ r.state.onChip = true ∧ w.saveReady r = false := by decide +kernel

/-- An empty area, and a saved region that the queue engine has chosen. -/
def area0 : SaveArea := ⟨8192, [], [], [], [], [], [], [], [], []⟩
@[inherit_doc area0] def saved0 : Region :=
  { region0 with state := .saved, before := .filling, area := some area0, restore := true
                 streams := [some (rateStream 0), none, none, none, none, none, none, none] }

/-- A kernel whose nodes stand on no island finds a place while no region holds islands. -/
theorem place_some_lemma (s : State) (p : BitVec 5) (d : Fin 4) (hk : ∀ r ∈ s.kern, r.state.holds = false) :
    ∃ c, s.place [] p d [] = some ([c], []) := by
  have key : ∀ (ok : Nat → Fin 16 → Bool) (c : Fin 16) (l : List (Fin 16)), (∀ c, ok 0 c = true) →
      fitClusters ok (c :: l) [0] [] = some [c] := by
    intro ok c l h
    simp [fitClusters, h]
  unfold State.place
  dsimp only
  rw [show List.range (clustersOf []) = [0] from rfl]
  generalize hr : rotate (List.finRange 16) (Config.pick s.free d.val) = o
  cases o with
  | nil => exact absurd (congrArg List.length hr) (by simp [rotate]; omega)
  | cons c l =>
    refine ⟨c, ?_⟩
    rw [key _ _ _ (by intro c; simp [unitsOf]; intro r hr; simp [hk r hr])]
    simp [unitsOf]

/-- It finds none where a region of an isolated partition stands on every cluster. -/
theorem place_none_lemma (s : State) (p : BitVec 5) (d : Fin 4) (r : Region) (hr : r ∈ s.kern) (hs : r.state.holds = true)
    (hd : r.die = d) (hc : ∀ c : Fin 16, c ∈ r.cmap) (hp : (s.ctx r.ctx).part ≠ p)
    (hi : (s.partition (s.ctx r.ctx).part).iso = true) : s.place [] p d [] = none := by
  have key : ∀ (ok : Nat → Fin 16 → Bool) (l : List (Fin 16)), (∀ c, ok 0 c = false) → fitClusters ok l [0] [] = none := by
    intro ok l hk
    simp [fitClusters, hk]
  unfold State.place
  dsimp only
  rw [show List.range (clustersOf []) = [0] from rfl, key]
  · rfl
  · intro c
    have : (s.kern.all fun r => !r.state.holds || ([] : List Nat).contains r.rid || r.die != d || !r.cmap.contains c
        || (s.ctx r.ctx).part == p || (!(s.partition p).iso && !(s.partition (s.ctx r.ctx).part).iso)) = false := by
      rw [List.all_eq_false]
      exact ⟨r, hr, by simp [hs, hd, hc c, hp, hi]⟩
    rw [this]
    rfl

/-- An empty area is put back. -/
theorem rebuild_lemma (s : State) (r old : Region) (h : r.replay = []) : ∃ u, s.rebuild r old area0 = some u := by
  simp [State.rebuild, savedSlots, area0, State.placeSlots, State.placeGangs, State.placeJobs, State.replayLog, h]

/-- A restore that finds a place, and one whose partition shares no cluster while another partition holds them all (R346,
R350). -/
theorem witness_ContextsAndRegionsMove_restore :
    let s := ctxSt ctx0 [saved0] (.num 0)
    let other : Region := { region0 with rid := 1, ctx := 1, cmap := List.finRange 16 }
    let f : State := let s := ctxSt ctx0 [saved0, other] (.num 0)
      { s with hub := { s.hub with
        ctxs := [ctx0, { ctx0 with num := 1, part := 1 }], parts := [{ s.partition 1 with iso := true }] } }
    let bad : Region := { saved0 with area := some { area0 with image := [1] } }
    let b := ctxSt ctx0 [bad] (.num 0)
    s.region 0 = some saved0 ∧ saved0.area = some area0 ∧ (s.die 0).boundary = true ∧ s.boostInWay saved0 = false ∧
    s.hubHeld 0 8192 0 1 = false ∧ s.hubRead 0 8192 0 = [] ∧
    (b.region 0 = some bad ∧ (b.die 0).boundary = true ∧ b.boostInWay bad = false ∧ b.hubHeld 0 8192 1 1 = false ∧
      b.hubRead 0 8192 1 ≠ [1]) ∧ cfgKind saved0.config .gang = [] ∧
    (∃ cm im, s.place [] 0 0 (kernelNodes saved0.streams) = some (cm, im) ∧ s.islandsAllowed [] 0 im.length = true ∧
      ∃ u, s.rebuild { saved0 with
        cmap := cm, imap := im, state := saved0.before, area := none, restore := false, service := none
        firstFault := none, faultAt := (0, 0), slice := 0 } saved0 area0 = some u) ∧
    f.region 0 = some saved0 ∧ (f.die 0).boundary = true ∧ f.boostInWay saved0 = false ∧ f.hubHeld 0 8192 0 1 = false ∧
    f.hubRead 0 8192 0 = [] ∧ f.place [] 0 0 (kernelNodes saved0.streams) = none := by
  have hn : kernelNodes saved0.streams = [] := by decide +kernel
  refine ⟨rfl, rfl, by decide +kernel, by decide +kernel, rfl, rfl, by decide +kernel, by decide +kernel, ?_,
    rfl, by decide +kernel, by decide +kernel, rfl, rfl, ?_⟩
  · rw [hn]
    obtain ⟨c, hc⟩ := place_some_lemma (ctxSt ctx0 [saved0] (.num 0)) 0 0 (by intro r hr; cases List.mem_singleton.1 hr; rfl)
    exact ⟨[c], [], hc, by decide +kernel, rebuild_lemma _ _ _ rfl⟩
  · rw [hn]
    exact place_none_lemma _ _ _ { region0 with rid := 1, ctx := 1, cmap := List.finRange 16 }
      (List.mem_cons_of_mem _ (List.mem_singleton.2 rfl)) rfl rfl (by decide) (by decide) (by decide)

/-! ### Pages, the host's writes, special registers at a commit -/

/-- Context 0 with one page of 64 GiB at address 0: the root at HBM address 0x200000, its table at 0x202000 (R355 to R357). -/
def pagedSt (a : EvArg) (c : Ctx := ctx0) : State :=
  { State.reset with
    arg := a, hub := { State.reset.hub with ctxs := [{ c with ptroot := 0x200000 }] }
    mem := { State.reset.mem with
      cells := [(0x200000, 1), (0x200001, 0x20), (0x200002, 0x20), (0x202000, 0x3f), (0x202007, 0x20)] } }

/-- A page command of context 0. -/
def cmd0 (op : Byte) (count : BitVec 32) (va : Word) : PageCmd := ⟨op, 2, 0, count, va, 64, 0⟩

/-- A walk to a leaf that lets accesses pass, and one to nothing (R361). -/
theorem witness_PagesHostAndRegistersAct_walks :
    let w (va : Addr) : State := let s := pagedSt (.num 3)
      { s with hub := { s.hub with pages := { s.hub.pages with walks := [⟨3, 0, 0, va, true⟩], nextWalk := 4 } } }
    let ok (va : Addr) : Bool := (w va).hub.pages.walks.find? (·.num == 3) == some ⟨3, 0, 0, va, true⟩ &&
      (w va).walking ⟨3, 0, 0, va, true⟩ && (w va).mem.wf
    ok 0 = true ∧ ok 0x1000000000 = true ∧
    ((w 0).lookup 0 0).state = 1 ∧ leafGrants ((w 0).lookup 0 0).leaf 2 = true ∧
    ((w 0x1000000000).lookup 0 0x1000000000).state = 0 ∧ (w 0).kern = [] ∧
    thenNext (exec .pageWalkComplete (w 0)) (fun t => t.ptEntry 0x202000 == 0x20000000000000ff) = true ∧
    thenNext (exec .pageWalkComplete (w 0x1000000000)) (fun t => t.hub.pages.tlb == []) = true := by decide +kernel

/-- The one page of `pagedSt`. -/
def page0 : Page := ⟨0, 36, 0x200000000000003f, 0x202000⟩

/-- The entries of its tables. -/
def entry0 (pa : Nat) : Word := BitVec.ofNat 64 (leNat (smRead 0 (pagedSt .none).mem.cells (homeHbm pa) 8))

/-- Every other entry is 0. -/
theorem entry_lemma (pa : Nat) (h8 : pa % 8 = 0) (h1 : pa ≠ 0x200000) (h2 : pa ≠ 0x202000) (h3 : pa < 2 ^ 50) : entry0 pa = 0 := by
  have z : ∀ i < 8, smGet 0 (pagedSt .none).mem.cells (homeHbm pa + i) = 0 := by
    intro i hi
    have : homeHbm pa = pa := Nat.mod_eq_of_lt (by omega)
    simp only [pagedSt, smGet, this]
    rw [if_neg (by omega), if_neg (by omega), if_neg (by omega), if_neg (by omega), if_neg (by omega)]
  have : smRead 0 (pagedSt .none).mem.cells (homeHbm pa) 8 = List.replicate 8 0 :=
    List.eq_replicate_iff.2 ⟨by simp [smRead], fun b hb => by
      obtain ⟨i, hi, rfl⟩ := List.mem_map.1 hb
      exact z i (List.mem_range.1 hi)⟩
  rw [entry0, this]
  decide

/-- The leaves under a table whose entries past the first are 0 (R357). -/
theorem table_lemma (level shift : Nat) (rest : List (Nat × Nat)) (table : Nat) (h : ∀ k, 0 < k → k < 1024 → entry0 (table + 8 * k) = 0) :
    pagesFrom entry0 ((level, shift) :: rest) table 0 =
      if !bit (entry0 table).toNat 0 then []
      else if bit (entry0 table).toNat 1 then if leafBad level shift (entry0 table) then [] else [⟨0, shift, entry0 table, table⟩]
      else if level == 3 || bits (entry0 table).toNat 63 52 != 0 || bits (entry0 table).toNat 12 2 != 0 then []
      else pagesFrom entry0 rest (bits (entry0 table).toNat 51 13 * 8192) 0 := by
  rw [pagesFrom, show (1024 : Nat) = 1023 + 1 from rfl, List.range_succ_eq_map, List.flatMap_cons, Nat.mul_zero, Nat.add_zero,
    Nat.zero_mul]
  refine (congrArg _ (List.flatMap_eq_nil_iff.2 ?_)).trans (List.append_nil _)
  intro k hk
  obtain ⟨j, hj, rfl⟩ := List.mem_map.1 hk
  have := List.mem_range.1 hj
  have e := h j.succ (by omega) (by omega)
  simp only [e]
  rfl

/-- The leaves under them (R355 to R357). -/
theorem leaves_lemma : pagesFrom entry0 [(0, 46), (1, 36), (2, 26), (3, 16)] 0x200000 0 = [page0] := by
  have e0 : entry0 0x200000 = 0x202001 := by decide +kernel
  have e1 : entry0 0x202000 = 0x200000000000003f := by decide +kernel
  rw [table_lemma _ _ _ _ fun k _ _ => entry_lemma _ (by omega) (by omega) (by omega) (by omega), e0, if_neg (by decide),
    if_neg (by decide), if_neg (by decide), show bits (0x202001 : Word).toNat 51 13 * 8192 = 0x202000 by decide,
    table_lemma _ _ _ _ fun k _ _ => entry_lemma _ (by omega) (by omega) (by omega) (by omega), e1]
  rfl

/-- The pages of a state whose memory and tables are those of `pagedSt`. -/
theorem pages_lemma (u : State) (hc : u.mem.cells = (pagedSt .none).mem.cells) (hs : u.hub.pages.since = [])
    (hr : (u.ctx 0).ptroot = 0x200000) : u.pages 0 = [page0] := by
  have he : u.ptEntry = entry0 := by
    funext pa
    simp only [State.ptEntry, hc, entry0]
  have hv : u.tableViews 0 = [] := by simp [State.tableViews, hs]
  have ht : (u.ctx 0).ptroot.toNat = 0x200000 := by rw [hr]; rfl
  have hl : u.lookup 0 0 = walkFrom entry0 0 [(0, 46), (1, 36), (2, 26), (3, 16)] 0x200000 := by
    simp only [State.lookup, hs, List.find?_nil, State.walk, he, ht]
  simp only [State.pages, State.leaves, hv, he, ht, leaves_lemma, List.map_nil, List.flatMap_cons, List.flatMap_nil,
    List.append_nil, List.map_cons, show page0.va = 0 from rfl]
  rw [show sortBy (fun a b => decide (a ≤ b)) ([0] : List Nat).eraseDups = [0] by decide]
  simp only [List.filterMap_cons, List.filterMap_nil, hl]
  decide +kernel

/-- Context 0 in `pagedSt` with a page command, and with a publication into its page in flight. -/
def cmdSt (p : PageCmd) : State := pagedSt (.page p)
@[inherit_doc cmdSt] def busySt (p : PageCmd) : State :=
  { cmdSt p with mem := { (cmdSt p).mem with pubs := [⟨4, ⟨seq0, 0⟩, 0, 0, 2, [(9, 7)], 0, false⟩] } }

/-- Whether an INVAL of its page may complete in such a state (R365). -/
theorem ready_lemma (u : State) (n : Nat) (hn : n = 2 ^ 36 ∨ n = 2 ^ 56) (h1 : u.mem.cells = (pagedSt .none).mem.cells)
    (h2 : u.hub.pages.since = []) (h3 : (u.ctx 0).ptroot = 0x200000) (h5 : u.buffered 0 = []) :
    (u.homesUnderWay = [] → u.invalReady 0 0 n = true) ∧ (u.homesUnderWay = [9] → u.invalReady 0 0 n = false) := by
  have h6 : meets page0.va (2 ^ page0.shift) 0 n = true := by rcases hn with rfl | rfl <;> decide
  constructor <;> intro h <;>
    simp only [State.invalReady, pages_lemma u h1 h2 h3, h5, h, List.filter_cons, List.filter_nil, h6, if_true, List.any_cons,
      List.any_nil, List.all_nil, Bool.or_false, Bool.and_true] <;> decide

/-- INVAL that may complete and that may not; another OP; EVICT; refused records; and commands that come behind one that
waits (R364, R365, R368). -/
theorem witness_PagesHostAndRegistersAct_pages :
    let v := cmd0 1 0 0
    let e := pagedSt (.page (cmd0 3 1 0)) { ctx0 with fqtail := 16 }
    ((cmdSt v).hub.pages.cmds = [] ∧ (cmdSt v).hub.held = [] ∧ v.rsv = 0 ∧ v.size.toNat ≤ 2 ∧ v.ctx.toNat < 4096 ∧
      v.done.toNat % 8 = 0 ∧ (cmd0 1 0 8).va.toNat % 2 ^ 36 ≠ 0 ∧ (cmd0 3 4097 0).count.toNat = 4097 ∧
      (cmd0 2 0 0).op.toNat = 2 ∧ (cmd0 4 0 0).op.toNat = 4 ∧ e.lowest 0 = none ∧ e.inExtent 0 page0 = false ∧
      e.mem.wf = true) ∧
    ((cmdSt v).invalReady 0 0 (2 ^ 36) = true ∧ (busySt v).invalReady 0 0 (2 ^ 36) = false ∧
      (cmdSt (cmd0 2 0 0)).invalReady 0 0 (2 ^ 56) = true ∧ (busySt (cmd0 2 0 0)).invalReady 0 0 (2 ^ 56) = false) ∧
    (e.pages 0).filter (e.evictable 0) = [page0] ∧
    (∀ op, (withCmds (withCmds (busySt (cmd0 op 0 0)) [v]) [v, cmd0 op 0 0]).pageHead v = none) ∧
    (withCmds { busySt v with arg := .none } [v]).pageHead v = none := by
  have hp (u : State) (h : u.invalReady 0 0 (2 ^ 36) = false) : u.pageHead (cmd0 1 0 0) = none := by
    show u.invalCmd (cmd0 1 0 0) = none
    have h' : u.invalReady ((cmd0 1 0 0).ctx.setWidth 12) (cmd0 1 0 0).va.toNat (2 ^ shiftOf (cmd0 1 0 0).size.toNat) = false := h
    unfold State.invalCmd
    rw [if_neg (by decide)]
    simp only [h']
    rfl
  have hr (u : State) (n : Nat) := ready_lemma u n
  refine ⟨by decide +kernel, ⟨(hr (cmdSt (cmd0 1 0 0)) _ (.inl rfl) rfl rfl rfl rfl).1 rfl, (hr (busySt (cmd0 1 0 0)) _ (.inl rfl) rfl rfl rfl rfl).2 rfl,
      (hr (cmdSt (cmd0 2 0 0)) _ (.inr rfl) rfl rfl rfl rfl).1 rfl, (hr (busySt (cmd0 2 0 0)) _ (.inr rfl) rfl rfl rfl rfl).2 rfl⟩, ?_,
    fun op => hp _ ((hr (withCmds (withCmds (busySt (cmd0 op 0 0)) [cmd0 1 0 0]) [cmd0 1 0 0, cmd0 op 0 0]) _ (.inl rfl) rfl rfl rfl rfl).2 rfl),
    hp _ ((hr (withCmds { busySt (cmd0 1 0 0) with arg := .none } [cmd0 1 0 0]) _ (.inl rfl) rfl rfl rfl rfl).2 rfl)⟩
  have := pages_lemma (pagedSt (.page (cmd0 3 1 0)) { ctx0 with fqtail := 16 }) rfl rfl rfl
  simp only [this]
  decide +kernel

/-- A page is chosen by EVICT. -/
theorem test_evict :
    thenNext (exec .evict (pagedSt (.page (cmd0 3 1 0)) { ctx0 with fqtail := 16 })) (fun t =>
      (t.ptEntry 0x202000).toNat / 2 ^ 61 == 4 && t.hub.waiting.length == 1) = true := by decide +kernel

/-- Host reads and writes at the last byte of their ranges and past it (R13, R166, R435). -/
theorem witness_PagesHostAndRegistersAct_host :
    let s (w : HostWrite) : State := { State.reset with arg := .host w }
    let r (a : BitVec 52) : State := { State.reset with arg := .hostRead 0 false a 1 }
    let stops (o : Out) : Bool := match o with | .fault f => f == .noSuchAddress | _ => false
    let last : BitVec 52 := BitVec.ofNat 52 (hbmBytes - 1)
    (s ⟨false, last, [7]⟩).mem.wf = true ∧
    thenNext (exec .hostMemoryWrite (s ⟨false, last, [7]⟩)) (fun t => smGet 0 t.mem.cells (hbmBytes - 1) == 7) = true ∧
    stops (exec .hostMemoryWrite (s ⟨false, last + 1, [7]⟩)) = true ∧
    thenNext (exec .hostMemoryWrite (s ⟨true, 0x4000000000000 + 0x2ffffffff, [7]⟩)) (fun t =>
      smGet 0 t.mem.cells (homeWeight 1 0x2ffffffff) == 7) = true ∧
    stops (exec .hostMemoryWrite (s ⟨true, 0x4000000000000 + 0x300000000, [7]⟩)) = true ∧
    last.toNat + 1 ≤ hbmBytes ∧ hbmBytes < (last + 1).toNat + 1 ∧
    thenNext (exec .hostMemoryWrite (r last)) (fun t => t.hub.unsent.map (·.bytes) == [[0]]) = true ∧
    stops (exec .hostMemoryWrite (r (last + 1))) = true := by decide +kernel

/-- Each register's write staged at a commit (R80, R98, R235, R386, R392, R409). -/
theorem witness_PagesHostAndRegistersAct_registers :
    let s (num : BitVec 12) (v : Word) : State := { base with
      arg := .srWrite base.x.who num v, x := { base.x with fx := [.swr num v] } }
    (s 0x420 0).x.active = true ∧
    (∀ p ∈ [((0x00f : BitVec 12), Instr.specialRegisterWrite), (0x420, .specialRegisterWrite), (0x43f, .specialRegisterWrite),
      (0x012, .srseedWrite), (0x343, .msflgClear), (0x880, .reccfgWrite), (0x888, .pwrcfgWrite)],
      (s p.1 3).x.fx = [.swr p.1 3] ∧ thenNext (exec p.2 (s p.1 3)) (fun t => t.mem == (s p.1 3).mem) = true) ∧
    thenNext (exec .pwrcfgWrite (s 0x888 3)) (fun t => t.hub.pwrnext.toNat % 65536 == 1200) = true ∧
    thenNext (exec .specialRegisterWrite (s 0x43f 0x8000000000)) (fun t => ((t.die 0).exslots[31]).pin) = true := by
  decide +kernel

/-! ### Ports, resets, the capsule, the debug stop, the life cycle -/

/-- A port in each state, with lanes at the ends of their ranges and its eighth and ninth bad receipt (R369). -/
theorem witness_PortsResetsAndLifeCycleAct_ports :
    let s (x : PortState) (n : Nat) (a : EvArg) : State := { State.reset with
      arg := a, hub := { State.reset.hub with ports := State.reset.hub.ports.set 5 ⟨x, n⟩ } }
    let st (o : Out) : Option PortState := match o with | .next t => some (t.hub.ports[5]).state | _ => none
    st (exec .portEnable (s .down 0 (.port 5))) = some .training ∧ st (exec .portReset (s .fenced 0 (.port 5))) = some .training ∧
    (∀ p ∈ [((0 : Fin 9), PortState.down), (3, .down), (4, .half), (7, .half), (8, .up)],
      st (exec .portTrainingDone (s .training 0 (.portLanes 5 p.1))) = some p.2) ∧
    (s .up 7 (.flit 5 false)).hub.ports[5].retries < 8 ∧ 8 ≤ (s .half 8 (.flit 5 false)).hub.ports[5].retries ∧
    st (exec .flitReceive (s .up 7 (.flit 5 false))) = some .up ∧
    st (exec .flitReceive (s .half 8 (.flit 5 false))) = some .fenced ∧
    st (exec .flitReceive (s .half 8 (.flit 5 true))) = some .half := by decide +kernel

/-- Resets with each capsule, a recorder past its horizon, a seal, the debug stop and its release (R393, R399, R400, R420). -/
theorem witness_PortsResetsAndLifeCycleAct_capsule :
    let c (x : CapState) : Capsule := { Capsule.empty with state := x, t := 10, h := 5 }
    let s (x : CapState) (tick : Nat) (rs : List Recorder) (a : EvArg) : State := { State.reset with
      arg := a, tick := tick, dbg := { State.reset.dbg with capsule := c x, recorders := rs } }
    let r : Recorder := { (default : Recorder) with unit := 3, recs := [0x0f, 0x10] }
    let d (x : Bool) : State := { State.reset with
      tick := 9, dbg := { State.reset.dbg with stop := some 9, stopped := x } }
    thenNext (exec .warmReset (s .frozen 0 [] .none)) (fun t => t.dbg.resetHeld) = true ∧
    thenNext (exec .warmReset (s .sealed_ 0 [] .none)) (fun t => t.dbg.capsule == c .sealed_) = true ∧
    thenNext (exec .warmReset (s .retrieved 0 [] .none)) (fun t => t.dbg.capsule == Capsule.empty) = true ∧
    r.stopped = false ∧ (s .frozen 16 [r] (.unit 3)).dbg.capsule.t + 5 < 16 ∧
    thenNext (exec .recorderHorizonStop (s .frozen 16 [r] (.unit 3))) (fun t => t.dbg.recorders.map (·.recs) == [[0x0f]]) = true ∧
    (s .frozen 911 [] .none).dbg.resetHeld = false ∧ 10 + max 5 900 < 911 ∧
    thenNext (exec .capsuleSeal (s .frozen 911 [{ r with stopped := true }] .none)) (fun t =>
      t.dbg.capsule.state == .sealed_ && t.dbg.recorders == []) = true ∧
    (d false).dbg.stop = some 9 ∧ thenNext (exec .debugStop (d false)) (fun t => t.dbg.stopped) = true ∧
    thenNext (exec .debugRelease (d true)) (fun t => t.dbg.stop.isNone && (t.die 3).frame == (State.reset.die 3).frame + 1)
      = true := by decide +kernel

/-- Each state of the life cycle with its command, boot in its statuses, and a recovery image (R421 to R424). Whether an
authorisation verifies is opaque, so no command that asks for one is shown accepted. -/
theorem witness_PortsResetsAndLifeCycleAct_life :
    let s (l : Life) (st : Nat) (a : EvArg) : State := { State.reset with
      arg := a, hub := { State.reset.hub with boot := { State.reset.hub.boot with life := l, status := st } } }
    let life (o : Out) : Option Life := match o with | .next t => some t.hub.boot.life | _ => none
    let key := List.replicate 32 (1 : Byte)
    life (exec .lifecycleProvision (s .manufacture 3 (.provision key []))) = some .provisioned ∧
    (s .deployed 3 (.bytes [])).hub.boot.life = .deployed ∧
    life (exec .lifecycleRedeploy (s .diagnostic 3 .none)) = some .deployed ∧
    (s .provisioned 0 .none).imageOk = false ∧
    thenNext (exec .romBoot (s .provisioned 0 .none)) (fun t => t.hub.boot.status == 1) = true ∧
    smOk 0 none (s .deployed 1 (.image 8 [5])).hub.boot.store = true ∧
    thenNext (exec .recoveryImageWrite (s .deployed 1 (.image 8 [5]))) (fun t => smGet 0 t.hub.boot.store 8 == 5) = true := by
  decide +kernel

end Sys2Proof.Tests
end

section
/-!
SUPPORT. The number-level functions of the model in the words of bit vectors: signed values, bit counts,
reversals and rotations.
-/
namespace Sys2Proof.Proofs

open Sys2Proof.Machine Sys2Proof.Claims

/-! ### Signed values and results modulo the width -/

theorem toSigned_eq_toInt_ofNat (w v : Nat) : toSigned w v = (BitVec.ofNat w v).toInt := by
  simp only [toSigned, BitVec.toInt_eq_toNat_cond, BitVec.toNat_ofNat]

@[simp] theorem toSigned_toNat {w : Nat} (a : BitVec w) : toSigned w a.toNat = a.toInt := by
  rw [toSigned_eq_toInt_ofNat, BitVec.ofNat_toNat, BitVec.setWidth_eq]

theorem ofInt_eq_toNat (w : Nat) (r : Int) : ofInt w r = (BitVec.ofInt w r).toNat := by
  rw [BitVec.toNat_ofInt, ofInt]

/-- The unsigned reading of a word, taken modulo its width, is the word. -/
theorem bvOfInt_toNat {w : Nat} (a : BitVec w) : BitVec.ofInt w (a.toNat : Int) = a := by
  rw [BitVec.ofInt_natCast, BitVec.ofNat_toNat, BitVec.setWidth_eq]

theorem bit_toNat {n : Nat} (a : BitVec n) (k : Nat) : bit a.toNat k = a.getLsbD k := by
  rw [BitVec.getLsbD, Nat.testBit_eq_decide_div_mod_eq, bit, beq_eq_decide]

/-! ### Bit counts (R106, R147) -/

theorem zerosAhead_cons (b : Bool) (l : List Bool) :
    zerosAhead (b :: l) = if b then 0 else zerosAhead l + 1 := by
  cases b <;> simp [zerosAhead]

/-- The zeros ahead of the first one are counted by naming its position. -/
theorem zerosAhead_range_map {n m : Nat} {f : Nat → Bool} (hm : m ≤ n) (hz : ∀ k < m, f k = false)
    (ho : m < n → f m = true) : zerosAhead ((List.range n).map f) = m := by
  induction n generalizing m f with
  | zero =>
    obtain rfl : m = 0 := by omega
    rfl
  | succ n ih =>
    rw [List.range_succ_eq_map, List.map_cons, List.map_map, zerosAhead_cons]
    cases m with
    | zero => rw [if_pos (ho (by omega))]
    | succ m =>
      have rest : zerosAhead ((List.range n).map (f ∘ Nat.succ)) = m :=
        ih (by omega) (fun k hk => hz (k + 1) (by omega)) (fun h => ho (by omega))
      rw [hz 0 (by omega), rest]
      simp

theorem clzN_eq_zerosAhead {n : Nat} (a : BitVec n) :
    clzN n a.toNat = zerosAhead ((List.range n).map fun k => a.getLsbD (n - 1 - k)) := by
  symm
  by_cases h0 : a.toNat = 0
  · apply zerosAhead_range_map
    · simp [clzN, h0]
    · intro k _
      simp [BitVec.getLsbD, h0]
    · simp [clzN, h0]
  · have top : a.toNat.log2 < n := (Nat.log2_lt h0).mpr a.isLt
    rw [clzN, if_neg h0]
    apply zerosAhead_range_map
    · omega
    · intro k hk
      exact Nat.testBit_lt_two_pow ((Nat.log2_lt h0).mp (by omega))
    · intro _
      rw [show n - 1 - (n - 1 - a.toNat.log2) = a.toNat.log2 by omega]
      exact Nat.testBit_log2 h0

theorem ctzN_eq_zerosAhead (n v : Nat) : ctzN n v = zerosAhead ((List.range n).map v.testBit) := by
  induction n generalizing v with
  | zero => rfl
  | succ n ih =>
    have rest : (List.range n).map (v.testBit ∘ Nat.succ) = (List.range n).map (v / 2).testBit := by
      simp [Nat.testBit_succ]
    rw [List.range_succ_eq_map, List.map_cons, List.map_map, zerosAhead_cons, rest, ← ih, ctzN,
      Nat.testBit_zero, Nat.add_comm 1]
    simp

theorem popcN_eq_countP (n v : Nat) : popcN n v = (List.range n).countP v.testBit := by
  induction n generalizing v with
  | zero => rfl
  | succ n ih =>
    have rest : (List.range n).countP (v.testBit ∘ Nat.succ) = (List.range n).countP (v / 2).testBit := by
      congr 1
      funext k
      exact Nat.testBit_succ v k
    rw [List.range_succ_eq_map, List.countP_cons, List.countP_map, rest, ← ih, popcN, Nat.testBit_zero]
    rcases Nat.mod_two_eq_zero_or_one v with h | h <;> simp [h, Nat.add_comm]

/-! ### Bits and bytes reversed -/

theorem brevN_lt (n v : Nat) : brevN n v < 2 ^ n := by
  induction n generalizing v with
  | zero => simp [brevN]
  | succ n ih =>
    have bit : v % 2 * 2 ^ n ≤ 1 * 2 ^ n := Nat.mul_le_mul_right _ (by omega)
    have rest := ih (v / 2)
    rw [brevN, Nat.pow_succ]
    omega

theorem testBit_brevN (n v k : Nat) : (brevN n v).testBit k = (decide (k < n) && v.testBit (n - 1 - k)) := by
  induction n generalizing v with
  | zero => simp [brevN]
  | succ n ih =>
    rw [brevN, Nat.mul_comm, Nat.testBit_two_pow_mul_add _ (brevN_lt n _), ih]
    rcases Nat.lt_trichotomy k n with h | rfl | h
    · rw [if_pos h, ← Nat.testBit_succ, show n + 1 - 1 - k = (n - 1 - k) + 1 by omega]
      simp [h, Nat.lt_succ_of_lt h]
    · simp
    · have high : v % 2 < 2 ^ (k - n) := by
        have := Nat.pow_le_pow_right (n := 2) (by omega) (show 1 ≤ k - n by omega)
        omega
      rw [if_neg (by omega), Nat.testBit_lt_two_pow high, decide_eq_false (by omega), Bool.false_and]

theorem brevN_toNat {n : Nat} (a : BitVec n) : brevN n a.toNat = a.reverse.toNat := by
  apply Nat.eq_of_testBit_eq
  intro k
  rw [testBit_brevN, BitVec.testBit_toNat, BitVec.testBit_toNat, BitVec.getLsbD_reverse, BitVec.getMsbD]

theorem leNat_eq_foldr (l : List Byte) : leNat l = l.foldr (fun b r => r * 256 + b.toNat) 0 := by
  induction l with
  | nil => rfl
  | cons b l ih => rw [leNat, List.foldr_cons, ih]; omega

theorem leBytes_eq_map_range (m v : Nat) :
    leBytes m v = (List.range m).map fun k => BitVec.ofNat 8 (v / 2 ^ (8 * k)) := by
  induction m generalizing v with
  | zero => rfl
  | succ m ih =>
    have shift (k : Nat) : v / 256 / 2 ^ (8 * k) = v / 2 ^ (8 * (k + 1)) := by
      rw [Nat.div_div_eq_div_mul, show 8 * (k + 1) = 8 + 8 * k by omega, Nat.pow_add]
    simp [leBytes, ih, List.range_succ_eq_map, shift]

theorem leNat_reverse_leBytes (m v : Nat) :
    leNat (leBytes m v).reverse = (List.range m).foldl (fun r k => r * 256 + v / 2 ^ (8 * k) % 256) 0 := by
  rw [leNat_eq_foldr, List.foldr_reverse, leBytes_eq_map_range, List.foldl_map]
  rfl

/-! ### Rotations -/

theorem rolN_toNat {n : Nat} (hn : 0 < n) (a : BitVec n) (b : Nat) :
    rolN n a.toNat b = (a.rotateLeft (b % n)).toNat := by
  have hk : b % n < n := Nat.mod_lt _ hn
  have split : 2 ^ n = 2 ^ (n - b % n) * 2 ^ (b % n) := by
    rw [← Nat.pow_add, Nat.sub_add_cancel hk.le]
  have low : a.toNat / 2 ^ (n - b % n) < 2 ^ (b % n) :=
    Nat.div_lt_of_lt_mul (split ▸ a.isLt)
  rw [BitVec.toNat_rotateLeft, Nat.mod_mod, rolN, Nat.shiftLeft_eq, Nat.shiftRight_eq_div_pow]
  generalize b % n = k at *
  rw [show a.toNat * 2 ^ k % 2 ^ n = (a.toNat % 2 ^ (n - k)) <<< k by
    rw [split, Nat.mul_mod_mul_right, Nat.shiftLeft_eq]]
  exact Nat.shiftLeft_add_eq_or_of_lt low _

theorem rotateLeft_sub_eq_rotateRight {n k : Nat} (hk : k < n) (a : BitVec n) :
    a.rotateLeft (n - k) = a.rotateRight k := by
  rw [BitVec.rotateLeft_def, BitVec.rotateRight_def, Nat.mod_eq_of_lt hk]
  rcases Nat.eq_zero_or_pos k with rfl | h
  · simp [BitVec.ushiftRight_eq_zero]
  · rw [Nat.mod_eq_of_lt (by omega), show n - (n - k) = k by omega]
    exact BitVec.or_comm _ _

theorem rolN_sub_toNat {n : Nat} (hn : 0 < n) (a : BitVec n) (b : Nat) :
    rolN n a.toNat (n - b % n) = (a.rotateRight (b % n)).toNat := by
  rw [rolN_toNat hn, BitVec.rotateLeft_mod_eq_rotateLeft, rotateLeft_sub_eq_rotateRight (Nat.mod_lt _ hn)]

end Sys2Proof.Proofs
end

section
/-!
SUPPORT. The scalar mould (R104, R105): what an instruction of the mould answers, stated once for one, two and three
sources, and the decode of an opcode of format V.
-/
namespace Sys2Proof.Proofs

open Sys2Proof.Machine Sys2Proof.Claims

/-! ### Operands and results -/

theorem width_pos (f : Fmt) : 0 < width f := by
  rw [width]; split <;> decide

theorem scalarU_eq_operand (s : State) (i : VInsn) (n : Nat) (src : Src) :
    s.x.scalarU i n src = (operand n s i src).toNat := by
  cases src with
  | reg k => exact (BitVec.toNat_setWidth n _).symm
  | lit => exact (BitVec.toNat_setWidth n _).symm
  | imm k => exact ofInt_eq_toNat n _
  | ring h k => simp [Flight.scalarU, operand]

theorem extended_eq (f : Fmt) (r : Int) :
    extended f r =
      if f = .int32 then (BitVec.ofInt (width f) r).signExtend 64 else (BitVec.ofInt (width f) r).setWidth 64 := by
  cases f <;> simp [extended, width]

/-- A result counts modulo 2^W. -/
theorem extended_congr {f : Fmt} {r r' : Int} (h : BitVec.ofInt (width f) r = BitVec.ofInt (width f) r') :
    extended f r = extended f r' := by
  rw [extended_eq, extended_eq, h]

theorem scalarResult_eq_extended (f : Fmt) (r : Int) : scalarResult f r = extended f r := by
  have wide : widthOf f = width f := rfl
  rw [extended_eq, scalarResult, wide, ofInt_eq_toNat, BitVec.ofNat_toNat]
  split
  · next h => rw [h]; exact congrArg _ (toSigned_toNat (BitVec.ofInt 32 r))
  · rfl

/-! ### Answers of the mould -/

/-- An instruction of a strand that writes one scalar and nothing else. -/
theorem act_putScalar (s : State) (g : Guard) (d : Dst) (v : Flight → Word) :
    act s (s.x.scalarAct g fun x => x.putScalar d (v x)) = scalarTo s g d (v s.x) := by
  cases h : s.x.on0 g <;> cases d <;> simp only [act, scalarTo, Flight.scalarAct, Flight.putScalar, h] <;> rfl

theorem act_scalar1 (i : VInsn) (s : State) (f : Nat → Nat → Int) :
    act s (scalar1 i f s.x) =
      scalarTo s i.g i.d (extended i.fmt (f (width i.fmt) (operand (width i.fmt) s i i.a).toNat)) := by
  simp only [← scalarResult_eq_extended, ← scalarU_eq_operand]
  exact act_putScalar s i.g i.d _

theorem act_scalar2 (i : VInsn) (s : State) (f : Nat → Nat → Nat → Int) :
    act s (scalar2 i f s.x) = scalarTo s i.g i.d (extended i.fmt (f (width i.fmt)
      (operand (width i.fmt) s i i.a).toNat (operand (width i.fmt) s i i.b).toNat)) := by
  simp only [← scalarResult_eq_extended, ← scalarU_eq_operand]
  exact act_putScalar s i.g i.d _

theorem act_scalar3 (i : VInsn) (s : State) (f : Nat → Nat → Nat → Nat → Int) :
    act s (scalar3 i f s.x) = scalarTo s i.g i.d (extended i.fmt (f (width i.fmt)
      (operand (width i.fmt) s i i.a).toNat (operand (width i.fmt) s i i.b).toNat
      (operand (width i.fmt) s i i.c).toNat)) := by
  simp only [← scalarResult_eq_extended, ← scalarU_eq_operand]
  exact act_putScalar s i.g i.d _

/-! ### An instruction computes r when its function agrees with r modulo 2^n -/

theorem computes1_of {mk : VInsn → Instr} {r : (n : Nat) → BitVec n → Int} (f : Nat → Nat → Int)
    (he : ∀ i s, exec (mk i) s = act s (scalar1 i f s.x))
    (hr : ∀ n, 0 < n → ∀ a : BitVec n, BitVec.ofInt n (f n a.toNat) = BitVec.ofInt n (r n a)) :
    computes1 mk r := by
  intro i s _
  rw [he, act_scalar1, extended_congr (hr _ (width_pos _) _)]

theorem computes2_of {mk : VInsn → Instr} {r : (n : Nat) → BitVec n → BitVec n → Int} (f : Nat → Nat → Nat → Int)
    (he : ∀ i s, exec (mk i) s = act s (scalar2 i f s.x))
    (hr : ∀ n, 0 < n → ∀ a b : BitVec n, BitVec.ofInt n (f n a.toNat b.toNat) = BitVec.ofInt n (r n a b)) :
    computes2 mk r := by
  intro i s _
  rw [he, act_scalar2, extended_congr (hr _ (width_pos _) _ _)]

theorem computes3_of {mk : VInsn → Instr} {r : (n : Nat) → BitVec n → BitVec n → BitVec n → Int}
    (f : Nat → Nat → Nat → Nat → Int)
    (he : ∀ i s, exec (mk i) s = act s (scalar3 i f s.x))
    (hr : ∀ n, 0 < n → ∀ a b c : BitVec n,
      BitVec.ofInt n (f n a.toNat b.toNat c.toNat) = BitVec.ofInt n (r n a b c)) :
    computes3 mk r := by
  intro i s _
  rw [he, act_scalar3, extended_congr (hr _ (width_pos _) _ _ _)]

/-! ### Decoding (R59, R72, R75) -/

/-- An instruction whose entry refuses its fields is rejected. -/
theorem decodeWord_eq_illegalOp {w : Word} {lit : Option Word} {j : Instr} (hd : decodeFields w lit = some j)
    (he : j.entryOk = false) : decodeWord w lit = .error .illegalOp := by
  rw [decodeWord, hd]
  split
  · rfl
  · rfl
  · next h => simp [← Option.some.inj h, he]

/-- An opcode of format V that names `mk` is decoded as `mk`, and fields that the entry of `mk` refuses fault. -/
theorem decodesAs_of {mk : VInsn → Instr} {op : BitVec 9} {bad : VInsn → Prop} (hf : opForm op = some .v)
    (ho : ∀ i, ofV op i = some (mk i)) (hb : ∀ i, bad i → (mk i).entryOk = false) : decodesAs mk op bad := by
  intro w lit hw
  have ill : op ≠ 0x1ff := by
    rintro rfl
    exact absurd hf (by decide)
  have fields : decodeFields w lit = (decodeV w lit).map mk := by
    simp only [decodeFields, hw, if_neg ill, hf, ho, Option.map_eq_bind]
    rfl
  refine ⟨fields, fun i hi hbad => decodeWord_eq_illegalOp (j := mk i) ?_ (hb i hbad)⟩
  rw [fields, hi, Option.map_some]

/-! ### The field checks of the entries -/

theorem isReg_eq_false {d : Dst} (h : ∀ n, d ≠ .reg n) : d.isReg = false := by
  cases d with
  | reg n => exact absurd rfl (h n)
  | push _ | alt _ | discard => rfl

theorem unused_eq_false {a : Src} (h : ∀ n, a ≠ .reg n) : a.unused = false :=
  beq_eq_false_iff_ne.mpr (h 0)

theorem src_predOk_iff (a : Src) : a.predOk = true ↔ ∃ n : BitVec 6, a = .reg n ∧ n.toNat < 16 := by
  cases a <;> simp [Src.predOk]

theorem dst_predOk_iff (d : Dst) : d.predOk = true ↔ ∃ n : BitVec 6, d = .alt n ∧ n.toNat < 16 := by
  cases d <;> simp [Dst.predOk]

end Sys2Proof.Proofs
end

section
/-!
SUPPORT. Bit fields (R108, R149): a field taken out of a number and a field replaced in it, in the words of bit
vectors.
-/
namespace Sys2Proof.Proofs

open Sys2Proof.Machine Sys2Proof.Claims

theorem ofNat_div_two_pow {n : Nat} (a : BitVec n) (pos k : Nat) :
    BitVec.ofNat k (a.toNat / 2 ^ pos) = a.extractLsb' pos k := by
  rw [← Nat.shiftRight_eq_div_pow]
  rfl

theorem toSigned_div_two_pow {n : Nat} (a : BitVec n) (pos k : Nat) :
    toSigned k (a.toNat / 2 ^ pos) = (a.extractLsb' pos k).toInt := by
  rw [toSigned_eq_toInt_ofNat, ofNat_div_two_pow]

theorem div_two_pow_mod_two_pow {n : Nat} (a : BitVec n) (pos k : Nat) :
    a.toNat / 2 ^ pos % 2 ^ k = (a.extractLsb' pos k).toNat := by
  rw [← ofNat_div_two_pow, BitVec.toNat_ofNat]

/-- BFX and BFXU take the field that R108 names. -/
theorem fieldOf_eq_fieldAt {n : Nat} (a : BitVec n) (pos len : Nat) (sgn : Bool) :
    fieldOf n a.toNat pos len sgn = fieldAt n a pos len sgn := by
  simp only [fieldOf, fieldAt, div_two_pow_mod_two_pow, ← fieldLen.eq_1]
  generalize fieldLen n pos len = k
  split
  · next h => subst h; cases sgn <;> simp
  · rw [toSigned_toNat]

/-- SEXT and ZEXT extend the low bits that R108 names; a field as wide as the operand is the operand. -/
theorem extField_eq {n : Nat} (a : BitVec n) (b : Nat) (sgn : Bool) :
    BitVec.ofInt n (extField n a.toNat b sgn) = BitVec.ofInt n (
      let k := b % 128
      if k = 0 then 0 else if n ≤ k then a.toInt
      else if sgn then (a.extractLsb' 0 k).toInt else ((a.extractLsb' 0 k).toNat : Int)) := by
  simp only [extField]
  generalize b % 128 = k
  have whole : a.toNat = a.toNat / 2 ^ 0 := by simp
  split
  · rfl
  split
  · rw [bvOfInt_toNat, BitVec.ofInt_toInt]
  · rw [whole, toSigned_div_two_pow, div_two_pow_mod_two_pow]

/-- A number with a field replaced, bit by bit. -/
theorem testBit_insertField (n old a pos len j : Nat) :
    (insertField n old a pos len).testBit j =
      if pos ≤ j ∧ j < pos + fieldLen n pos len then a.testBit (j - pos) else old.testBit j := by
  simp only [insertField, ← fieldLen.eq_1]
  generalize fieldLen n pos len = k
  split
  · next h => rw [if_neg (by omega)]
  · have shape : old % 2 ^ pos + a % 2 ^ k * 2 ^ pos + old / 2 ^ (pos + k) * 2 ^ (pos + k) =
        2 ^ pos * (2 ^ k * (old / 2 ^ (pos + k)) + a % 2 ^ k) + old % 2 ^ pos := by
      rw [Nat.pow_add]; ring
    rw [shape, Nat.testBit_two_pow_mul_add _ (Nat.mod_lt _ (by positivity)),
      Nat.testBit_two_pow_mul_add _ (Nat.mod_lt _ (by positivity)), Nat.testBit_mod_two_pow, Nat.testBit_mod_two_pow,
      Nat.testBit_div_two_pow]
    rcases Nat.lt_or_ge j pos with h | h
    · simp [h, Nat.not_le.mpr h]
    rcases Nat.lt_or_ge j (pos + k) with h' | h'
    · have inside : j - pos < k := by omega
      simp [h, h', inside, Nat.not_lt.mpr h]
    · have outside : ¬ j - pos < k := by omega
      rw [if_neg (Nat.not_lt.mpr h), if_neg outside, if_neg (by omega), show j - pos - k + (pos + k) = j by omega]

theorem getLsbD_ofNat_two_pow_sub_one (n k j : Nat) :
    (BitVec.ofNat n (2 ^ k - 1)).getLsbD j = (decide (j < n) && decide (j < k)) := by
  rw [BitVec.getLsbD_ofNat, Nat.testBit_two_pow_sub_one]

/-- A field replaced under a mask, bit by bit. -/
theorem getLsbD_replaceField {n : Nat} (old a : BitVec n) (pos k : Nat) {j : Nat} (hj : j < n) :
    ((old &&& ~~~(BitVec.ofNat n (2 ^ k - 1) <<< pos)) |||
      ((a &&& BitVec.ofNat n (2 ^ k - 1)) <<< pos)).getLsbD j =
      if pos ≤ j ∧ j < pos + k then a.getLsbD (j - pos) else old.getLsbD j := by
  have below : j - pos < n := by omega
  simp only [BitVec.getLsbD_or, BitVec.getLsbD_and, BitVec.getLsbD_not, BitVec.getLsbD_shiftLeft,
    getLsbD_ofNat_two_pow_sub_one, hj, below, decide_true, Bool.true_and]
  rcases Nat.lt_or_ge j pos with h | h
  · simp [h, Nat.not_le.mpr h]
  rcases Nat.lt_or_ge j (pos + k) with h' | h'
  · have inside : j - pos < k := by omega
    simp [h, h', inside, Nat.not_lt.mpr h]
  · have outside : ¬ j - pos < k := by omega
    simp [outside, Nat.not_lt.mpr h']

/-- BFI replaces the field that R108 names in the destination's old value. -/
theorem insertField_eq_toNat {n : Nat} (old a : BitVec n) (pos len : Nat) :
    BitVec.ofNat n (insertField n old.toNat a.toNat pos len) =
      (old &&& ~~~(BitVec.ofNat n (2 ^ fieldLen n pos len - 1) <<< pos)) |||
        ((a &&& BitVec.ofNat n (2 ^ fieldLen n pos len - 1)) <<< pos) := by
  apply BitVec.eq_of_getLsbD_eq
  intro j hj
  rw [getLsbD_replaceField old a _ _ hj, BitVec.getLsbD_ofNat, testBit_insertField, decide_eq_true hj, Bool.true_and]
  rfl

end Sys2Proof.Proofs
end

section
/-!
PROOFS. O1: scalar integer arithmetic and division (R106, R107), the table row by row.
-/
namespace Sys2Proof.Proofs

open Sys2Proof.Machine Sys2Proof.Claims

theorem scalarIntegerTable : ScalarIntegerTable := by
  unfold ScalarIntegerTable
  refine ⟨?add, ?sub, ?mul, ?mulh, ?mulhu, ?and, ?or, ?xor, ?andn, ?shl, ?shr, ?sar, ?rol, ?ror, ?min, ?max, ?minu,
    ?maxu, ?abs, ?neg, ?clz, ?ctz, ?popc, ?brev, ?bswap, ?mad⟩
  case add => exact computes2_of _ (fun _ _ => rfl) fun _ _ _ _ => rfl
  case sub => exact computes2_of _ (fun _ _ => rfl) fun _ _ _ _ => rfl
  case mul => exact computes2_of _ (fun _ _ => rfl) fun _ _ _ _ => rfl
  case mulh => exact computes2_of _ (fun _ _ => rfl) fun n _ a b => by rw [toSigned_toNat, toSigned_toNat]
  case mulhu => exact computes2_of _ (fun _ _ => rfl) fun _ _ _ _ => rfl
  case and => exact computes2_of _ (fun _ _ => rfl) fun n _ a b => by rw [BitVec.toNat_and]
  case or => exact computes2_of _ (fun _ _ => rfl) fun n _ a b => by rw [BitVec.toNat_or]
  case xor => exact computes2_of _ (fun _ _ => rfl) fun n _ a b => by rw [BitVec.toNat_xor]
  case andn => exact computes2_of _ (fun _ _ => rfl) fun n _ a b => by rw [BitVec.toNat_and, BitVec.toNat_not]
  case shl => exact computes2_of _ (fun _ _ => rfl) fun _ _ _ _ => rfl
  case shr => exact computes2_of _ (fun _ _ => rfl) fun _ _ _ _ => rfl
  case sar => exact computes2_of _ (fun _ _ => rfl) fun n _ a b => by rw [toSigned_toNat]
  case rol => exact computes2_of _ (fun _ _ => rfl) fun n hn a b => by rw [rolN_toNat hn]
  case ror => exact computes2_of _ (fun _ _ => rfl) fun n hn a b => by rw [rolN_sub_toNat hn]
  case min => exact computes2_of _ (fun _ _ => rfl) fun n _ a b => by rw [toSigned_toNat, toSigned_toNat]
  case max => exact computes2_of _ (fun _ _ => rfl) fun n _ a b => by rw [toSigned_toNat, toSigned_toNat]
  case minu => exact computes2_of _ (fun _ _ => rfl) fun _ _ _ _ => rfl
  case maxu => exact computes2_of _ (fun _ _ => rfl) fun _ _ _ _ => rfl
  case abs => exact computes1_of _ (fun _ _ => rfl) fun n _ a => by rw [toSigned_toNat]
  case neg => exact computes1_of _ (fun _ _ => rfl) fun n _ a => by rw [toSigned_toNat]
  case clz => exact computes1_of _ (fun _ _ => rfl) fun n _ a => by rw [clzN_eq_zerosAhead]
  case ctz => exact computes1_of _ (fun _ _ => rfl) fun n _ a => by rw [ctzN_eq_zerosAhead]; rfl
  case popc => exact computes1_of _ (fun _ _ => rfl) fun n _ a => by rw [popcN_eq_countP]; rfl
  case brev => exact computes1_of _ (fun _ _ => rfl) fun n _ a => by rw [brevN_toNat]
  case bswap => exact computes1_of _ (fun _ _ => rfl) fun n _ a => by rw [leNat_reverse_leBytes]
  case mad => exact computes3_of _ (fun _ _ => rfl) fun _ _ _ _ _ => rfl

/-- The cases of R107 are those of the model, whose signed operands are the two's complement readings. -/
theorem scalarDivision : ScalarDivision := by
  unfold ScalarDivision
  refine ⟨?div, ?divu, ?rem, ?remu⟩
  case div => exact computes2_of _ (fun _ _ => rfl) fun n _ a b => by simp only [divS, truncDiv, toSigned_toNat]
  case divu => exact computes2_of _ (fun _ _ => rfl) fun n _ a b => by rfl
  case rem => exact computes2_of _ (fun _ _ => rfl) fun n _ a b => by simp only [remS, truncDiv, toSigned_toNat]
  case remu =>
    exact computes2_of _ (fun _ _ => rfl) fun n _ a b => by rw [Nat.mod_eq_sub_div_mul]

theorem scalarOpcodes : ScalarOpcodes := by
  unfold ScalarOpcodes
  simp only [List.forall_mem_cons, List.not_mem_nil, false_implies, implies_true, and_true]
  and_intros
  all_goals exact decodesAs_of rfl (fun _ => rfl) (fun _ => False.elim)

/-- Settles O1: row by row, the model's function of the operands agrees with the table's result modulo 2^W. -/
theorem scalarIntegerArithmetic : Obligations.ScalarIntegerArithmetic :=
  ⟨scalarIntegerTable, scalarDivision, scalarOpcodes⟩

end Sys2Proof.Proofs
end

section
/-!
PROOFS. O2: scalar bit fields, pointers, literals and selection (R108, R109, R111, R112).
-/
namespace Sys2Proof.Proofs

open Sys2Proof.Machine Sys2Proof.Claims

/-! ### Bit fields -/

theorem exec_bfi (i : VInsn) (s : State) (d : BitVec 6) (hd : i.d = .reg d) :
    exec (.bfi i) s = scalarTo s i.g i.d (extended i.fmt
      (let n := width i.fmt
       let a := operand n s i i.a
       let pos := (operand n s i i.b).toNat % 64
       let len := fieldLen n pos ((operand n s i i.c).toNat % 128)
       let old := (s.x.rdS d).setWidth n
       let mask := BitVec.ofNat n (2 ^ len - 1)
       (((old &&& ~~~(mask <<< pos)) ||| ((a &&& mask) <<< pos)).toNat : Int))) := by
  have step : exec (.bfi i) s = act s (scalar3 i (fun w a b c =>
      (insertField w ((s.x.rdS d).toNat % 2 ^ w) a (b % 64) (c % 128) : Nat)) s.x) := by
    simp only [exec, execBfi, hd]
  rw [step, act_scalar3]
  refine congrArg _ (extended_congr ?_)
  rw [bvOfInt_toNat, BitVec.ofInt_natCast, ← BitVec.toNat_setWidth, insertField_eq_toNat]

theorem scalarBitFields : ScalarBitFields := by
  refine ⟨?ext, ?take, ?insert⟩
  case ext =>
    rintro (_ | _)
    · exact computes2_of _ (fun _ _ => rfl) fun _ _ a b => extField_eq a b.toNat false
    · exact computes2_of _ (fun _ _ => rfl) fun _ _ a b => extField_eq a b.toNat true
  case take =>
    rintro (_ | _)
    · exact computes3_of _ (fun _ _ => rfl) fun n _ a b c => by rw [fieldOf_eq_fieldAt]
    · exact computes3_of _ (fun _ _ => rfl) fun n _ a b c => by rw [fieldOf_eq_fieldAt]
  case insert => exact fun i s d _ hd => exec_bfi i s d hd

/-! ### Pointers, literals and selection -/

/-- Low bits of an integer do not depend on the width that it was written at. -/
theorem setWidth_ofInt (r : Int) : (BitVec.ofInt 64 r).setWidth 56 = BitVec.ofInt 56 r := by
  apply BitVec.eq_of_toNat_eq
  rw [BitVec.toNat_setWidth, BitVec.toNat_ofInt, BitVec.toNat_ofInt]
  omega

/-- The low 56 bits of a pointer and a scaled index. -/
theorem ofInt_pointer_add (a : Word) (k : Int) (sh : Nat) :
    BitVec.ofInt 56 ((a.toNat % 2 ^ 56 : Nat) + k * (2 ^ sh : Nat)) =
      (a + BitVec.ofInt 64 k <<< sh).extractLsb' 0 56 := by
  have scaled : a + BitVec.ofInt 64 k <<< sh = BitVec.ofInt 64 (a.toNat + k * (2 ^ sh : Nat)) := by
    rw [BitVec.ofInt_add, bvOfInt_toNat, BitVec.ofInt_mul, BitVec.shiftLeft_eq_mul_twoPow, BitVec.ofInt_natCast]
    congr 2
    exact BitVec.eq_of_toNat_eq (by simp [BitVec.toNat_twoPow])
  rw [scaled, ← BitVec.setWidth_eq_extractLsb' (by decide), setWidth_ofInt]
  apply BitVec.eq_of_toNat_eq
  rw [BitVec.toNat_ofInt, BitVec.toNat_ofInt, Int.natCast_mod, Int.emod_add_emod]

/-- A pointer's top byte over low bits of its own (R109). -/
theorem ofNat_top_byte (a : Word) (low : BitVec 56) :
    BitVec.ofNat 64 (low.toNat + a.toNat / 2 ^ 56 * 2 ^ 56) = a.extractLsb' 56 8 ++ low := by
  apply BitVec.eq_of_toNat_eq
  rw [BitVec.toNat_append, ← Nat.shiftLeft_add_eq_or_of_lt low.isLt, BitVec.extractLsb'_toNat,
    Nat.shiftRight_eq_div_pow, Nat.shiftLeft_eq, BitVec.toNat_ofNat]
  have := a.isLt
  have := low.isLt
  omega

/-- ADDX's index: the low 32 bits, zero- or sign-extended. -/
theorem ofInt_pointer_index (b : Word) (u : Bool) :
    BitVec.ofInt 64 (if u then ((b.toNat % 2 ^ 32 : Nat) : Int) else toSigned 32 b.toNat) =
      if u then (b.setWidth 32).setWidth 64 else (b.setWidth 32).signExtend 64 := by
  cases u with
  | false =>
    rw [toSigned_eq_toInt_ofNat, BitVec.ofNat_toNat]
    rfl
  | true =>
    rw [if_pos rfl, if_pos rfl, BitVec.ofInt_natCast, ← BitVec.toNat_setWidth, BitVec.ofNat_toNat]

theorem exec_addx (i : VInsn) (s : State) (hf : i.fmt = .raw) :
    exec (.addx i) s = scalarTo s i.g i.d
      (let a := operand 64 s i i.a
       let b := operand 64 s i i.b
       let k : Word := if i.mod.getLsbD 3 then (b.setWidth 32).setWidth 64 else (b.setWidth 32).signExtend 64
       a.extractLsb' 56 8 ++ (a + (k <<< (i.mod.toNat % 8))).extractLsb' 0 56) := by
  rw [show exec (.addx i) s = act s (scalar2 i _ s.x) from rfl, act_scalar2, hf]
  refine congrArg _ ?_
  dsimp only
  rw [← ofInt_pointer_index, ← ofInt_pointer_add, ← ofNat_top_byte, ← ofInt_eq_toNat, ← BitVec.ofInt_natCast, bit_toNat]
  rfl

theorem exec_movl (i : VInsn) (s : State) (v : Word) (hv : i.lit = some v) :
    exec (.movl i) s = scalarTo s i.g i.d
      (match i.d with
       | .reg n =>
         let old := s.x.rdS n
         if i.mod = 0 then v
         else if i.mod = 1 then old.extractLsb' 32 32 ++ v.extractLsb' 0 32
         else v.extractLsb' 0 32 ++ old.extractLsb' 0 32
       | _ => v) := by
  rw [show exec (.movl i) s = act s (s.x.scalarAct i.g fun x => x.putScalar i.d _) from rfl, act_putScalar]
  cases hd : i.d with
  | reg n =>
    refine congrArg _ ?_
    dsimp only
    have none : i.mod = 0 ↔ i.mod.toNat = 0 := BitVec.toNat_inj.symm
    have lo : i.mod = 1 ↔ i.mod.toNat = 1 := BitVec.toNat_inj.symm
    simp only [hv, Option.getD_some, none, lo]
    split
    · next h => rw [if_pos h]
    · next h => rw [if_neg (by omega), if_pos h]
    · next h0 h1 => rw [if_neg h0, if_neg h1]
  | push n => rfl
  | alt n => rfl
  | discard => rfl

theorem exec_sel (i : VInsn) (s : State) (p : BitVec 6) (hp : i.c = .reg p) :
    exec (.sel i) s = scalarTo s i.g i.d (extended i.fmt
      (if (s.x.r.rdP s.x.nlanes (p.setWidth 4)).getLsbD 0 then (operand (width i.fmt) s i i.a).toNat
       else (operand (width i.fmt) s i i.b).toNat)) := by
  rw [show exec (.sel i) s = act s (scalar2 i _ s.x) from rfl, act_scalar2, hp]

/-! ### Fields that fault -/

theorem addx_refuses (i : VInsn) (h : i.fmt ≠ .raw ∨ i.mod.toNat % 8 = 7) : (Instr.addx i).entryOk = false := by
  have shift : i.mod.extractLsb' 0 3 = 7 ↔ i.mod.toNat % 8 = 7 := by
    rw [← BitVec.toNat_inj, BitVec.extractLsb'_toNat]
    rfl
  rcases h with h | h
  · simp [Instr.entryOk, h]
  · simp [Instr.entryOk, shift.mpr h]

theorem sel_refuses (i : VInsn) (h : ∀ n : BitVec 6, n.toNat < 16 → i.c ≠ .reg n) :
    (Instr.sel i).entryOk = false := by
  have c : i.c.predOk = false := by
    rw [← Bool.not_eq_true, src_predOk_iff]
    rintro ⟨n, hc, hn⟩
    exact h n hn hc
  simp [Instr.entryOk, c]

theorem movl_refuses (i : VInsn) (h : i.a ≠ .lit ∨ i.fmt ≠ .raw ∨ (∀ n, i.b ≠ .reg n) ∨ (∀ n, i.c ≠ .reg n) ∨
    2 < i.mod.toNat ∨ (i.mod ≠ 0 ∧ i.d = .discard)) : (Instr.movl i).entryOk = false := by
  rcases h with ha | hf | hb | hc | hm | ⟨hm, hd⟩
  · simp [Instr.entryOk, ha]
  · simp [Instr.entryOk, hf]
  · simp [Instr.entryOk, unused_eq_false hb]
  · simp [Instr.entryOk, unused_eq_false hc]
  · simp [Instr.entryOk, Nat.not_le.mpr hm]
  · have half : (i.mod == 0) = false := beq_eq_false_iff_ne.mpr hm
    simp only [Instr.entryOk, half, hd, Dst.isReg, Bool.false_eq_true, if_false, Bool.and_false]

theorem scalarFieldEncodings : ScalarFieldEncodings := by
  refine ⟨?fields, ?bfi, ?addx, ?sel, ?movl⟩
  case fields =>
    simp only [List.forall_mem_cons, List.not_mem_nil, false_implies, implies_true, and_true]
    and_intros
    all_goals exact decodesAs_of rfl (fun _ => rfl) (fun _ => False.elim)
  case bfi => exact decodesAs_of rfl (fun _ => rfl) fun i h => by simp [Instr.entryOk, isReg_eq_false h]
  case addx => exact decodesAs_of rfl (fun _ => rfl) addx_refuses
  case sel => exact decodesAs_of rfl (fun _ => rfl) sel_refuses
  case movl => exact decodesAs_of rfl (fun _ => rfl) movl_refuses

theorem scalarPointerLiteralSelect : ScalarPointerLiteralSelect := by
  refine ⟨fun i s hi => exec_addx i s ?_, fun i s v hv _ => exec_movl i s v hv, fun i s p hp _ => exec_sel i s p hp⟩
  by_contra hf
  exact absurd hi (by simp [addx_refuses i (.inl hf)])

/-- Settles O2: the fields of R108 bit by bit, the pointer of R109 modulo 2^56, and each field that an entry refuses. -/
theorem scalarBitsPointersAndLiterals : Obligations.ScalarBitsPointersAndLiterals :=
  ⟨scalarBitFields, scalarPointerLiteralSelect, scalarFieldEncodings⟩

end Sys2Proof.Proofs
end

section
/-!
PROOFS. O3: scalar comparisons, predicate logic and predicate moves (R113 to R115).
-/
namespace Sys2Proof.Proofs

open Sys2Proof.Machine Sys2Proof.Claims

/-! ### Predicates of the lanes that a gang has -/

theorem getLsbD_laneMask (n l : Nat) : (laneMask n).getLsbD l = (decide (l < 128) && decide (l < n)) := by
  rw [laneMask, BitVec.getLsbD_ofNat, Nat.testBit_two_pow_sub_one]

/-- A predicate has no lane past the gang's. -/
theorem getLsbD_rdP_of_le (r : Regs) {lanes : Nat} (n : BitVec 4) {l : Nat} (h : lanes ≤ l) :
    (r.rdP lanes n).getLsbD l = false := by
  have off : (laneMask lanes).getLsbD l = false := by
    rw [getLsbD_laneMask, decide_eq_false (Nat.not_lt.mpr h), Bool.and_false]
  rw [Regs.rdP]
  split
  · exact off
  · rw [BitVec.getLsbD_and, off, Bool.and_false]

theorem laneMask_eq_allOnes : laneMask 128 = BitVec.allOnes 128 := by decide

theorem getLsbD_add_lane (b : BitVec 128) (t : Bool) (i l : Nat) :
    (if t then b ||| BitVec.twoPow 128 i else b).getLsbD l =
      (b.getLsbD l || (decide (l < 128) && decide (i = l) && t)) := by
  cases t with
  | false => simp
  | true =>
    rw [if_pos rfl, BitVec.getLsbD_or, BitVec.getLsbD_twoPow, Bool.and_true]
    by_cases h : i = l <;> simp [h]

/-- The lanes that a test turns on, collected one by one. -/
theorem getLsbD_foldl_lanes (f : Nat → Bool) (n l : Nat) :
    ((List.range n).foldl (fun b i => if f i then b ||| BitVec.twoPow 128 i else b) 0).getLsbD l =
      (decide (l < 128) && decide (l < n) && f l) := by
  induction n with
  | zero => simp
  | succ n ih =>
    rw [List.range_succ, List.foldl_append, List.foldl_cons, List.foldl_nil, getLsbD_add_lane, ih]
    rcases eq_or_ne n l with rfl | hl
    · simp
    · have below : l < n + 1 ↔ l < n := by omega
      simp [hl, below]

/-- A test with one answer for every lane turns on all lanes or none. -/
theorem foldl_lanes_const (t : Bool) (n : Nat) :
    (List.range n).foldl (fun b i => if t then b ||| BitVec.twoPow 128 i else b) 0 =
      if t then laneMask n else 0 := by
  apply BitVec.eq_of_getLsbD_eq
  intro l hl
  rw [getLsbD_foldl_lanes fun _ => t]
  cases t with
  | true => rw [if_pos rfl, getLsbD_laneMask, Bool.and_true]
  | false => rw [Bool.and_false, if_neg Bool.false_ne_true]; exact BitVec.getLsbD_zero.symm

theorem putPred_const (x : Flight) (p : BitVec 6) (t : Bool) :
    x.putPred p (laneMask 128) (fun _ => t) =
      { x with r := x.r.wrP x.nlanes (p.setWidth 4) (if t then laneMask x.nlanes else 0) } := by
  simp only [Flight.putPred, foldl_lanes_const, laneMask_eq_allOnes, BitVec.and_allOnes, BitVec.not_allOnes,
    BitVec.and_zero, BitVec.or_zero]

/-! ### Comparisons -/

/-- The condition codes of R113. -/
theorem intCond_eq (c : Nat) (a b : Int) :
    intCond c a b = match c with
      | 0 => decide (a = b)
      | 1 => decide (a ≠ b)
      | 2 => decide (a < b)
      | 3 => decide (a ≤ b)
      | 4 => decide (b < a)
      | _ => decide (b ≤ a) := by
  unfold intCond
  split <;> simp [bne, beq_eq_decide]

/-- An instruction of a strand that writes a condition and nothing else. -/
theorem act_putCond (s : State) (g : Guard) (d : Dst) (t : Flight → Bool) {u : Bool} (h : t s.x = u) :
    act s (s.x.scalarAct g fun x => x.putCond d (t x)) =
      match d with
      | .alt p => .next (if s.x.on0 g then
          s.setX { s.x with r := s.x.r.wrP s.x.nlanes (p.setWidth 4) (if u then laneMask s.x.nlanes else 0) } else s)
      | d => scalarTo s g d (if u then 1 else 0) := by
  subst h
  cases d with
  | alt p =>
    simp only [act, Flight.scalarAct, Flight.putCond, putPred_const]
    split <;> rfl
  | reg n => exact act_putScalar s g (.reg n) fun x => if t x then 1 else 0
  | push h => exact act_putScalar s g (.push h) fun x => if t x then 1 else 0
  | discard => exact act_putScalar s g .discard fun x => if t x then 1 else 0

/-- CMP compares the operands as two's complement, CMPU as unsigned numbers. -/
theorem scalarCompare : ScalarCompare := by
  intro sgn i s _
  let n := width i.fmt
  cases sgn with
  | true =>
    have operands : intCond i.mod.toNat (toSigned n (s.x.scalarU i n i.a)) (toSigned n (s.x.scalarU i n i.b)) =
        intCond i.mod.toNat (operand n s i i.a).toInt (operand n s i i.b).toInt := by
      rw [scalarU_eq_operand, scalarU_eq_operand, toSigned_toNat, toSigned_toNat]
    have answer := act_putCond s i.g i.d
      (fun x => intCond i.mod.toNat (toSigned n (x.scalarU i n i.a)) (toSigned n (x.scalarU i n i.b)))
      (operands.trans (intCond_eq _ _ _))
    exact answer
  | false =>
    have operands : intCond i.mod.toNat (s.x.scalarU i n i.a) (s.x.scalarU i n i.b) =
        intCond i.mod.toNat (operand n s i i.a).toNat (operand n s i i.b).toNat := by
      rw [scalarU_eq_operand, scalarU_eq_operand]
    have answer := act_putCond s i.g i.d (fun x => intCond i.mod.toNat (x.scalarU i n i.a) (x.scalarU i n i.b))
      (operands.trans (intCond_eq _ _ _))
    exact answer

/-! ### Predicate logic and predicate moves -/

/-- An instruction of a strand that writes a whole predicate and nothing else. -/
theorem act_putWholePred (s : State) (g : Guard) (d : Dst) (v : Flight → BitVec 128) :
    act s (s.x.scalarAct g fun x => x.putWholePred d (v x)) = predTo s g d (v s.x) := by
  cases h : s.x.on0 g <;> cases d <;> simp only [act, predTo, Flight.scalarAct, Flight.putWholePred, h] <;> rfl

theorem predicateLogic : PredicateLogic := by
  refine ⟨fun i s _ => ⟨?and, ?or, ?xor, ?not⟩, fun i s _ => ?move⟩
  case and => exact act_putWholePred s i.g i.d fun x => x.srcPred i.a &&& x.srcPred i.b
  case or => exact act_putWholePred s i.g i.d fun x => x.srcPred i.a ||| x.srcPred i.b
  case xor => exact act_putWholePred s i.g i.d fun x => x.srcPred i.a ^^^ x.srcPred i.b
  case not => exact act_putWholePred s i.g i.d fun x => ~~~(x.srcPred i.a)
  case move =>
    simp only [exec, execPmov]
    generalize i.mod.toNat = form
    match form with
    | 0 | 1 | 3 => exact act_putWholePred s i.g i.d _
    | 2 | _ + 4 => exact act_putScalar s i.g i.d _

/-! ### Fields that fault -/

theorem cmpOk_eq_false {i : VInsn} (h : 5 < i.mod.toNat) : i.cmpOk = false := by
  simp [VInsn.cmpOk, Nat.not_le.mpr h]

theorem pred2_eq_false {i : VInsn} (h : ¬ i.d.predOk ∨ ¬ i.a.predOk ∨ ¬ i.b.predOk ∨ i.mod ≠ 0 ∨ i.fmt ≠ .raw) :
    i.pred2 = false := by
  rw [← Bool.not_eq_true]
  intro ok
  simp only [VInsn.pred2, Bool.and_eq_true, beq_iff_eq] at ok
  obtain ⟨⟨⟨⟨⟨hd, ha⟩, hb⟩, _⟩, hm⟩, hf⟩ := ok
  rcases h with h | h | h | h | h
  exacts [h hd, h ha, h hb, h hm, h hf]

theorem predicateEncodings : PredicateEncodings := by
  simp only [PredicateEncodings, ← src_predOk_iff, ← dst_predOk_iff]
  refine ⟨?cmp, ?cmpu, ?word, ?logic, ?pnot, ?pmov, fun r lanes n l h => getLsbD_rdP_of_le r n h⟩
  case cmp => exact decodesAs_of rfl (fun _ => rfl) fun i h => by simp [Instr.entryOk, cmpOk_eq_false h]
  case cmpu => exact decodesAs_of rfl (fun _ => rfl) fun i h => by simp [Instr.entryOk, cmpOk_eq_false h]
  case word => decide
  case logic =>
    simp only [List.forall_mem_cons, List.not_mem_nil, false_implies, implies_true, and_true]
    and_intros
    all_goals exact decodesAs_of rfl (fun _ => rfl) fun i h => by simp [Instr.entryOk, pred2_eq_false h]
  case pnot =>
    refine decodesAs_of rfl (fun _ => rfl) fun i h => ?_
    have b : i.b.unused = false := beq_eq_false_iff_ne.mpr h
    simp [Instr.entryOk, b]
  case pmov =>
    refine decodesAs_of rfl (fun _ => rfl) fun i h => ?_
    rw [← Bool.not_eq_true]
    intro ok
    simp only [Instr.entryOk, VInsn.pmovOk, Bool.and_eq_true, beq_iff_eq] at ok
    obtain ⟨_, ⟨⟨_, hf⟩, form⟩⟩ := ok
    replace h := h.resolve_left (not_not_intro hf)
    generalize i.mod.toNat = m at h form
    match m with
    | 0 =>
      obtain ⟨hd, ha⟩ := Bool.and_eq_true_iff.mp form
      rcases h with h | h
      exacts [h hd, h ha]
    | 1 | 3 =>
      obtain ⟨hd, ha⟩ := Bool.and_eq_true_iff.mp form
      rcases h with h | h
      · exact h hd
      · cases a : i.a with
        | reg n => exact h n a
        | _ => simp [a] at ha
    | 2 | 4 =>
      obtain ⟨hd, ha⟩ := Bool.and_eq_true_iff.mp form
      rcases h with h | h
      · simp [isReg_eq_false h] at hd
      · exact h ha
    | _ + 5 => exact absurd form Bool.false_ne_true

/-- Settles O3: a condition or a predicate operation writes its destination alone, and each field of no form is
refused. -/
theorem comparisonsAndPredicates : Obligations.ComparisonsAndPredicates :=
  ⟨scalarCompare, predicateLogic, predicateEncodings⟩

end Sys2Proof.Proofs
end
